-- ==== Sys2Proof/Word.lean ====
section
/-! DEFINITION. The part's smallest data: the byte, and the widths of the spec's counts. -/
namespace Sys2Proof

/-- A byte of memory (R179). -/
abbrev Byte := BitVec 8

/-- The greatest 48-bit count: field time holds there (R26), and a deadline is held there (R38). -/
abbrev maxTime : Nat := 281474976710655

/-- The greatest 32-bit count: a tally holds there (R172). -/
abbrev maxTally : Nat := 4294967295

end Sys2Proof
end

