-- ==== Sys2Proof/Config.lean ====
section
/-! DEFINITION. What the manual fixes for every part, and the values and choices it leaves open. -/
namespace Sys2Proof.Config

/-- Stations of the array (00). -/
abbrev nStations : Nat := 96
/-- Rate word of an exact 25 MHz clock and reset value of both rate values (R26, R27). -/
abbrev rateReset : Nat := 171798692
/-- Duration of the assembly buffer timeout, in µs (R13, R38). -/
abbrev assemblyTime : Nat := 250000
/-- Duration of the holdover deadline, in µs (R32, R38). -/
abbrev holdoverTime : Nat := 1500000
/-- Greatest SET_TIME argument (R29). -/
abbrev maxSecond : Nat := 281474976

/-- FREE VALUE (DESIGN CHOICE, log 9): a sample time held as 48 bits whose exact sum does not fit in 48 bits (R16, R48, R49, R105).
The manual states no result there. -/
opaque sampleTimeOverflow : Nat → BitVec 48

/-- FREE CHOICE (DESIGN CHOICE, log 8): at the STOP numbered by the first argument, whether the Associator takes the closures of the station,
its STOP closure and those sent before it, before it closes its events (R89, R100: "may be taken in either order"). -/
opaque stopClosureFirst : Nat → Nat → Bool

/-- FREE CHOICE (DESIGN CHOICE, log 8): at the STOP numbered by the argument, how many of the closes of R100 the Clip Unit takes before
it takes STOP itself (R110: "may be taken in either order"); as many as there are, or more, leaves STOP to CLIP_UNIT_STOP. -/
opaque stopClosesBeforeClip : Nat → Nat

end Sys2Proof.Config
end

