-- ==== Sys2Proof/Syntax.lean ====
section
/-! DEFINITION. The commands of the part: one constructor per row of spec/opcode_table.json, with the operands the rule of the row
names. The table gives no operands; the choice of them is the model's (log 33). -/
namespace Sys2Proof

/-- Kind of an upstream request (R122). -/
inductive ReqKind where
  | read
  | write
  deriving DecidableEq, Repr

/-- An upstream request (R122). `bytes` has one entry per byte of a write, `none` where the byte's strobe is clear, and is empty for a
read: a byte whose strobe is clear has no data that anything reads. -/
structure Request where
  kind  : ReqKind
  addr  : Nat
  beats : Nat
  tag   : Nat
  bytes : List (Option Byte)
  deriving DecidableEq, Repr

/-- The codes with which memory completes a request (R122). -/
inductive MemCode where
  | okay
  | memerr
  deriving DecidableEq, Repr

/-- The two kinds of full reset (R152, R164). -/
inductive ResetKind where
  | powerOn
  | resetPin
  deriving DecidableEq, Repr

/-- A granted write into the control page, as it is handed over (R126): the initiator tag, the byte offset in the page and the bytes. -/
structure PageWrite where
  tag    : Nat
  offset : Nat
  bytes  : List (Option Byte)
  deriving DecidableEq, Repr

/-- The commands. The rule in each docstring is the table's. -/
inductive Instr where
  /-- FULL_RESET (R164): power-on or the RESET line. -/
  | fullReset (kind : ResetKind)
  /-- RESET_RELEASE (R164): the strap value sampled at the release. -/
  | resetRelease (setupBase : Byte)
  /-- PPS_PULSE (R31). -/
  | ppsPulse
  /-- FIELD_TIME_SECOND (R40). -/
  | fieldTimeSecond
  /-- HOLDOVER_DEADLINE (R36). -/
  | holdoverDeadline
  /-- REF_PULSE (R72). -/
  | refPulse
  /-- UPSTREAM_REQUEST (R123): the request an initiator issues. -/
  | upstreamRequest (r : Request)
  /-- DOWNSTREAM_GRANT (R134). -/
  | downstreamGrant
  /-- UPSTREAM_COMPLETION (R122): the tag whose oldest request is answered, and what memory returned for it. -/
  | upstreamCompletion (tag : Nat) (code : MemCode) (data : List Byte)
  /-- REFETCH_READ_COMPLETION (R23): what memory returned. -/
  | refetchReadCompletion (code : MemCode) (data : List Byte)
  /-- COPIER_READ_COMPLETION (R116): what memory returned. -/
  | copierReadCompletion (code : MemCode) (data : List Byte)
  /-- COPIER_WRITE_COMPLETION (R117). -/
  | copierWriteCompletion (code : MemCode)
  /-- LOADER_READ_COMPLETION (R156): what memory returned. -/
  | loaderReadCompletion (code : MemCode) (data : List Byte)
  /-- REPORT_WRITE_COMPLETION (R142). -/
  | reportWriteCompletion (code : MemCode)
  /-- STATUS_WRITE_COMPLETION (R170). -/
  | statusWriteCompletion (code : MemCode)
  /-- LOAD (R155): the command tag. -/
  | load (tag : Byte)
  /-- START (R159). -/
  | start (tag : Byte)
  /-- STOP (R160). -/
  | stop (tag : Byte)
  /-- SOFT_RESET (R161). -/
  | softReset (tag : Byte)
  /-- SET_TIME (R29): its argument is the stored command argument (R153). -/
  | setTime (tag : Byte)
  /-- DUMP_TALLY (R162): its argument is the stored command argument (R153). -/
  | dumpTally (tag : Byte)
  /-- RELEASE_HOLDS (R163). -/
  | releaseHolds (tag : Byte)
  /-- UNKNOWN_COMMAND (R153): a command word with a code that is not listed. -/
  | unknownCommand (code tag : Byte)
  /-- COMMAND_ARGUMENT_WRITE (R153): the argument word. -/
  | commandArgumentWrite (arg : BitVec 64)
  /-- ACK_WORD (R144): the report index. -/
  | ackWord (index : BitVec 16)
  /-- CLEAR_WORD (R167): the kinds named. -/
  | clearWord (kinds : BitVec 24)
  /-- GENERAL_SETUP_WRITE (R151). -/
  | generalSetupWrite (w : PageWrite)
  /-- STATION_TABLE_WRITE (R42). -/
  | stationTableWrite (w : PageWrite)
  /-- ZONE_TABLE_WRITE (R85). -/
  | zoneTableWrite (w : PageWrite)
  /-- SCHEDULE_BANK_WRITE (R69). -/
  | scheduleBankWrite (w : PageWrite)
  /-- HEARTBEAT_READ (R175). -/
  | heartbeatRead
  /-- SERVICE_DEADLINE (R176). -/
  | serviceDeadline
  /-- UNATTENDED_AT_PATH_GUARD (R177). -/
  | unattendedAtPathGuard
  /-- UNATTENDED_AT_REPORT_UNIT (R177). -/
  | unattendedAtReportUnit
  /-- ASSEMBLY_TIMEOUT (R14): the buffer. -/
  | assemblyTimeout (buffer : Nat)
  /-- BLOCK_HANDOFF (R49): the station. -/
  | blockHandoff (station : Nat)
  /-- SILENCE_DEADLINE (R63): the station. -/
  | silenceDeadline (station : Nat)
  /-- SCHEDULE_CONDITION_CHANGE (R71). -/
  | scheduleConditionChange
  /-- INTERNAL_CYCLE_TIMER (R73). -/
  | internalCycleTimer
  /-- MARK_DEADLINE (R76). -/
  | markDeadline
  /-- WATCH_DEADLINE (R77). -/
  | watchDeadline
  /-- HORIZON_ADVANCE_SCHEDULE (R82). -/
  | horizonAdvanceSchedule
  /-- HORIZON_ADVANCE_ASSOCIATOR (R88). -/
  | horizonAdvanceAssociator
  /-- PICK_ARRIVAL (R87): the station whose next message is taken. -/
  | pickArrival (station : Nat)
  /-- PICK_CLOSURE (R89): the station whose next message is taken. -/
  | pickClosure (station : Nat)
  /-- CLOSE_DEADLINE (R98): the event number. -/
  | closeDeadline (event : Nat)
  /-- PIN_REQUEST (R10): the slot whose next request is taken. -/
  | pinRequest (slot : Nat)
  /-- PIN_REFUSED (R106): the slot whose oldest refusal is taken. -/
  | pinRefused (slot : Nat)
  /-- UNPIN (R10): the slot whose next request is taken. -/
  | unpin (slot : Nat)
  /-- CUT (R12): the slot. -/
  | cut (slot : Nat)
  /-- SLOT_CUT_ANNOUNCEMENT (R107): the slot whose oldest announcement is taken. -/
  | slotCutAnnouncement (slot : Nat)
  /-- SLOT_FREE (R131): the slot. -/
  | slotFree (slot : Nat)
  /-- HOLD_LIMIT_EXPIRY (R131): the place in the held list. -/
  | holdLimitExpiry (place : Nat)
  /-- READ_HOLD_EXPIRY (R132): the place in the held list. -/
  | readHoldExpiry (place : Nat)
  /-- NEW_TRAIL_ENTRY (R108): the station whose oldest announcement is taken. -/
  | newTrailEntry (station : Nat)
  /-- TAIL_DEADLINE (R109): the event number. -/
  | tailDeadline (event : Nat)
  /-- CLIP_UNIT_STOP (R110). -/
  | clipUnitStop
  /-- EVENT_STATE_REQUEST (R96): the event number whose oldest request is taken. -/
  | eventStateRequest (event : Nat)
  /-- DRAIN_END (R160). -/
  | drainEnd
  /-- SLOT_CHECK (R115). -/
  | slotCheck
  /-- RECLAIM_REQUEST (R147). -/
  | reclaimRequest
  deriving DecidableEq, Repr

end Sys2Proof
end

