-- ==== Sys2Proof/Machine/Bytes.lean ====
section
/-! DEFINITION. Byte order and byte lists: every field of more than one byte is little-endian (R179). -/
namespace Sys2Proof.Machine

/-- The value of bytes, least significant first (R179). -/
def leVal : List Byte → Nat
  | [] => 0
  | b :: bs => b.toNat + 256 * leVal bs

/-- The low `n` bytes of a value, least significant first (R179). -/
def leBytes : Nat → Nat → List Byte
  | 0, _ => []
  | n + 1, v => BitVec.ofNat 8 v :: leBytes n (v / 256)

/-- The field of `len` bytes at offset `off` of a layout (R179). -/
def field (bs : List Byte) (off len : Nat) : Nat := leVal ((bs.drop off).take len)

/-- The signed 32-bit value of four bytes (R180). -/
def signed32 (bs : List Byte) : Int := (BitVec.ofNat 32 (leVal (bs.take 4))).toInt

/-- Bytes written as zero (R179). -/
def zeros (n : Nat) : List Byte := List.replicate n 0

/-- The first `n` bytes, filled with zeros where there are fewer. -/
def fit (n : Nat) (bs : List Byte) : List Byte := (bs ++ zeros n).take n

/-- `k` pieces of `n` bytes each, in address order. -/
def chunksOf (n : Nat) : Nat → List Byte → List (List Byte)
  | 0, _ => []
  | k + 1, bs => bs.take n :: chunksOf n k (bs.drop n)

/-- The bytes of a write in which every strobe is set. -/
def strobed (bs : List Byte) : List (Option Byte) := bs.map some

/-- The 8-byte words of a run of bytes that starts at a word boundary, each with its offset: `n` words from `off`. -/
def wordsFrom : Nat → Nat → List (Option Byte) → List (Nat × List (Option Byte))
  | 0, _, _ => []
  | n + 1, off, bs => (off, bs.take 8) :: wordsFrom n (off + 8) (bs.drop 8)

/-- The bytes of a word, when all its strobes are set (R126). -/
def fullWord (bs : List (Option Byte)) : Option (List Byte) :=
  if bs.all Option.isSome then some (bs.filterMap id) else none

end Sys2Proof.Machine
end

