-- ==== Sys2Proof/Machine/State.lean ====
section
/-! DEFINITION. The part's state as plain data, and the state a full reset leaves. Times and counts whose wrap or hold the spec gives
are natural numbers, wrapped or held by the operations that write them; sets of tags, groups, kinds and flags are bit vectors. -/
namespace Sys2Proof.Machine

/-! ### Stops -/

/-- The spec gives the part no stop: a request may be refused to its initiator (R127), memory may answer MEMERR (R136), a command may
be refused in the result word (R153), and the part goes on after each. No command faults. -/
inductive Fault
  deriving DecidableEq, Repr

/-- Why a command has no meaning. -/
inductive Refusal where
  /-- Raised by an arm of `exec` whose row has no meaning yet. Safe. -/
  | notModelled (mnemonic : String)
  /-- Raised by UPSTREAM_REQUEST for a request that is not of R122's form, and by UNKNOWN_COMMAND for a code that R182 lists: the operand
  is no such command (log 11). Safe: the part is never given one. -/
  | malformedCommand
  deriving DecidableEq, Repr

/-! ### Time Base -/

/-- Time states (R28). -/
inductive TimeState where
  | unset
  | aligning
  | locked
  | holdover
  deriving DecidableEq, Repr

/-- Field time, the rate values and the time record (R26, R27, R28). -/
structure TimeBase where
  /-- Field time in µs, 48 bits (R26). -/
  count     : Nat
  /-- Fraction in units of 2^-32 µs, 32 bits (R26). -/
  frac      : Nat
  baseRate  : Nat
  rateWord  : Nat
  state     : TimeState
  aligned   : Bool
  target    : Option Nat
  lastPulse : Option Nat
  holdover  : Option Nat
  firstLoad : Bool
  /-- The whole second last announced to the Report Unit (R40). -/
  announced : Nat
  deriving DecidableEq, Repr

/-! ### Effective setup -/

/-- What starts a cycle (R65). -/
inductive RefSource where
  | ref
  | internal
  deriving DecidableEq, Repr

/-- The two schedule banks (R67). -/
inductive BankName where
  | a
  | b
  deriving DecidableEq, Repr

/-- General fields in force (R151), but `cycle_period` and `active_bank`, which the schedule record holds (R70). -/
structure General where
  ringBase        : Nat
  ringSlots       : Nat
  writerTags      : BitVec 16
  hostTags        : BitVec 16
  rateDev         : Nat
  rateNominal     : Nat
  clipBase        : Nat
  clipSize        : Nat
  reportBase      : Nat
  reportCap       : Nat
  refSource       : RefSource
  cycleMax        : Nat
  silenceLimit    : Nat
  scheduleEnable  : Bool
  refMinPeriod    : Nat
  intakeLatency   : Nat
  reportWatermark : Nat
  pre             : Nat
  post            : Nat
  tailWait        : Nat
  serviceInterval : Nat
  copyBurst       : Nat
  holdLimit       : Nat
  partShare       : Nat
  noticeMask      : BitVec 24
  deriving DecidableEq, Repr

/-- The staged fields of a station entry (R41). -/
structure Tuning where
  shortExp : Nat
  longExp  : Nat
  onRatio  : Nat
  offRatio : Nat
  minOn    : Nat
  deadTime : Nat
  maxOn    : Nat
  deriving DecidableEq, Repr

/-- A station entry in force (R41). -/
structure StationEntry where
  components : Nat
  /-- Samples per second. -/
  sampleRate : Nat
  noiseGroup : Nat
  enabled    : Bool
  tuning     : Tuning
  deriving DecidableEq, Repr

/-- A zone in force (R84); member count 0 marks it as not in use. -/
structure Zone where
  count   : Nat
  members : List Nat
  minCount : Nat
  window  : Nat
  deriving DecidableEq, Repr

/-- A schedule entry as its bytes stand (R67, R185). -/
structure BankEntry where
  mark   : Nat
  rep    : Nat
  first  : Nat
  action : Nat
  factor : Nat
  mask   : BitVec 8
  deriving DecidableEq, Repr

/-- The setup the part acts on (R158). -/
structure Setup where
  gen      : General
  stations : List StationEntry
  zones    : List Zone
  deriving DecidableEq, Repr

/-! ### Control Unit -/

/-- Part states (R152). -/
inductive PartState where
  | dormant
  | loading
  | stopped
  | listening
  | draining
  deriving DecidableEq, Repr

/-- Reset causes (R152). -/
inductive ResetCause where
  | powerOn
  | resetPin
  | softReset
  deriving DecidableEq, Repr

/-- Commands that can be in progress (R152). -/
inductive LongCmd where
  | load
  | stop
  | dumpTally
  deriving DecidableEq, Repr

/-- Reasons of a failed LOAD (R156). -/
inductive Reason where
  | range
  | region
  | tags
  | bank
  | changedDuringLoad
  | memory
  deriving DecidableEq, Repr

/-- Results (R154, R182). -/
inductive Res where
  | empty
  | done
  | refusedBusy
  | refusedState
  | badArg
  | failed (reason : Reason) (offset : Nat)
  deriving DecidableEq, Repr

/-- What a result write carries (R154). -/
structure Result where
  code : Byte
  tag  : Byte
  res  : Res
  deriving DecidableEq, Repr

/-- The load record (R152): the state to return to, the bytes covered by granted loader reads, the bytes returned so far and the first
error found. -/
structure LoadRec where
  returnTo : PartState
  extent   : Nat
  data     : List Byte
  error    : Option (Reason × Nat)
  deriving DecidableEq, Repr

/-- The control record and the effective setup (R152, R158). -/
structure Control where
  part       : PartState
  inProgress : Option (LongCmd × Byte)
  load       : Option LoadRec
  argument   : BitVec 64
  cause      : ResetCause
  setup      : Option Setup
  /-- First byte of the control page, once SETUP_BASE has been sampled (R150, R164). -/
  pageBase   : Option Nat
  /-- The full reset has been released (R164). -/
  released   : Bool
  deriving DecidableEq, Repr

/-! ### Intake Unit -/

/-- Slot states (R4). -/
inductive SlotState where
  | empty
  | opened
  | sealed
  | rejected
  deriving DecidableEq, Repr

/-- A slot directory entry (R4). -/
structure Slot where
  state         : SlotState
  gen           : Nat
  pins          : Nat
  refetchNeeded : Bool
  cutMark       : Bool
  deriving DecidableEq, Repr

/-- An accepted block (R13, R24). -/
structure Block where
  station    : Nat
  seq        : Nat
  first      : Nat
  count      : Nat
  timeUnsure : Bool
  clipped    : Bool
  body       : List Byte
  deriving DecidableEq, Repr

/-- An assembly buffer (R13). -/
inductive Buf where
  | free
  | assembling (slot gen next deadline : Nat) (captured : List Byte)
  | holding (b : Block)
  deriving DecidableEq, Repr

/-- States of a refetch entry (R21). -/
inductive RefetchState where
  | queued
  | reading
  | done
  deriving DecidableEq, Repr

/-- A refetch queue entry (R21), with its reads granted and returned (R22, R23). `block.body` holds the bytes read. -/
structure Refetch where
  id       : Nat
  slot     : Nat
  gen      : Nat
  block    : Block
  beats    : Nat
  state    : RefetchState
  cutFlag  : Bool
  granted  : Nat
  returned : Nat
  memerr   : Bool
  deriving DecidableEq, Repr

/-- Where an item of a hand-off order stands (R24). -/
inductive ItemAt where
  | buffer (index : Nat)
  | refetch (id : Nat)
  deriving DecidableEq, Repr

/-- An item of a hand-off order (R24). -/
structure Item where
  place : ItemAt
  brk   : Bool
  deriving DecidableEq, Repr

/-- A trail entry (R19). -/
structure TrailEntry where
  slot       : Nat
  gen        : Nat
  first      : Nat
  count      : Nat
  timeUnsure : Bool
  clipped    : Bool
  brk        : Bool
  deriving DecidableEq, Repr

/-- What the Intake Unit keeps for one station (R16, R19, R24). -/
structure StationIntake where
  /-- Expected sequence and expected time. -/
  expected     : Option (Nat × Nat)
  trail        : List TrailEntry
  order        : List Item
  breakPending : Bool
  deriving DecidableEq, Repr

/-- The Intake Unit. -/
structure Intake where
  dir      : List Slot
  bufs     : List Buf
  refetch  : List Refetch
  stations : List StationIntake
  horizon  : Nat
  /-- The number the next refetch entry takes (MODEL's own). -/
  nextId   : Nat
  deriving DecidableEq, Repr

/-! ### Station Engine -/

/-- Detector states (R44). -/
inductive DetState where
  | off
  | settling
  | listening
  | onset
  | triggered
  | deadtime
  deriving DecidableEq, Repr

/-- An open pick (R44). -/
structure OpenPick where
  onset      : Nat
  peak       : Nat
  confirmed  : Option Nat
  timeUnsure : Bool
  desens     : Bool
  deriving DecidableEq, Repr

/-- The staged copy of a station (R42). -/
structure StagedTuning where
  shortExp : Option Nat
  longExp  : Option Nat
  onRatio  : Option Nat
  offRatio : Option Nat
  minOn    : Option Nat
  deadTime : Option Nat
  maxOn    : Option Nat
  deriving DecidableEq, Repr

/-- A detector record (R44) with its station's staged copy. -/
structure Detector where
  state        : DetState
  /-- One mean per component, in 1/256; `none` is unseeded. -/
  means        : List (Option Int)
  /-- Short average, with 16 fraction bits. -/
  short        : Nat
  /-- Long average, with 16 fraction bits. -/
  long         : Nat
  warmUp       : Nat
  count        : Nat
  openPick     : Option OpenPick
  nextTime     : Option Nat
  startPending : Bool
  silence      : Option Nat
  silent       : Bool
  staged       : StagedTuning
  deriving DecidableEq, Repr

/-! ### Schedule Unit -/

/-- Schedule states (R70). -/
inductive SchedState where
  | idle
  | waitTime
  | waitRef
  | following
  | freeRun
  deriving DecidableEq, Repr

/-- The pointer of the schedule record (R70): at an entry, or stopped there. -/
inductive Pointer where
  | on (entry : Nat)
  | stopped (entry : Nat)
  deriving DecidableEq, Repr

/-- Kinds of a mute interval (R78). -/
inductive MuteKind where
  | mute
  | desens (factor : Nat)
  deriving DecidableEq, Repr

/-- A mute interval (R78). -/
structure Interval where
  mask    : BitVec 8
  kind    : MuteKind
  beginT  : Nat
  endT    : Option Nat
  deriving DecidableEq, Repr

/-- The schedule record, its staged copy, the banks and the mute interval list (R66, R69, R70, R78). -/
structure Schedule where
  state        : SchedState
  active       : Option BankName
  period       : Option Nat
  cycleCount   : Option Nat
  cycleStart   : Option Nat
  pointer      : Option Pointer
  markDeadline : Option Nat
  timer        : Option Nat
  lastRef      : Option Nat
  stagedPeriod : Option Nat
  /-- The byte written; its meaning is taken at the cycle start (R66, R75). -/
  stagedBank   : Option Nat
  bankA        : List BankEntry
  bankB        : List BankEntry
  intervals    : List Interval
  deriving DecidableEq, Repr

/-! ### Associator -/

/-- A pick closure's contents (R58). -/
structure Closure where
  cut       : Bool
  endTime   : Nat
  finalPeak : Nat
  deriving DecidableEq, Repr

/-- A pick, as sent (R57). -/
structure Pick where
  station    : Nat
  onset      : Nat
  peak       : Nat
  timeUnsure : Bool
  desens     : Bool
  deriving DecidableEq, Repr

/-- A pick with its number and its closure when known: a pick copy of an event (R93), and the core of a pick list entry (R86). -/
structure PickCopy where
  num     : Nat
  pick    : Pick
  closure : Option Closure
  deriving DecidableEq, Repr

/-- A pick list entry (R86). -/
structure PickEntry where
  copy  : PickCopy
  owner : Option Nat
  deriving DecidableEq, Repr

/-- States of an event that holds a slot (R96); a FREE slot holds none. -/
inductive EventState where
  | gathering
  | waitingTail
  | copyQueued
  | copying
  | copied
  | reported
  deriving DecidableEq, Repr

/-- Close reasons (R93). -/
inductive CloseReason where
  | window
  | stop
  deriving DecidableEq, Repr

/-- An event record (R93). Its clip plan reference is its own place in the event table (R104). -/
structure Event where
  number        : Nat
  zone          : Nat
  state         : EventState
  anchor        : Nat
  last          : Nat
  picks         : List PickCopy
  peakMax       : Nat
  timeState     : TimeState
  declaredAt    : Nat
  closedAt      : Option Nat
  closeDeadline : Option Nat
  reason        : Option CloseReason
  clipFlags     : BitVec 8
  /-- First unit and unit count, once the Clip Unit has filled them. -/
  clipUnits     : Option (Nat × Nat)
  deriving DecidableEq, Repr

/-- The Associator. -/
structure Assoc where
  picks    : List PickEntry
  nextPick : Nat
  events   : List (Option Event)
  /-- The number the next event takes; 2^32 once 2^32 - 1 has been given (R95). -/
  counter  : Nat
  deriving DecidableEq, Repr

/-! ### Clip Unit -/

/-- Statuses of a selection (R104). -/
inductive SelStatus where
  | pinned
  | reading
  | copied
  | cut
  | memerr
  deriving DecidableEq, Repr

/-- A selection (R104). -/
structure Selection where
  slot    : Nat
  gen     : Nat
  first   : Nat
  count   : Nat
  status  : SelStatus
  cutFlag : Bool
  deriving DecidableEq, Repr

/-- A station-clip (R104). -/
structure StationClip where
  station  : Nat
  awaiting : Bool
  flags    : BitVec 8
  cutCount : Nat
  sels     : List Selection
  deriving DecidableEq, Repr

/-- A clip region (R104, R113). -/
structure Region where
  first : Nat
  units : Nat
  skip  : Nat
  deriving DecidableEq, Repr

/-- A clip plan (R104). -/
structure Plan where
  event    : Nat
  winStart : Nat
  winEnd   : Nat
  tail     : Option Nat
  clips    : List StationClip
  region   : Option Region
  flags    : BitVec 8
  deriving DecidableEq, Repr

/-- What the copier does with the selection it has taken in state UNIT (R115, R116): its slot is being checked; its reads go out, with
the bytes returned so far in the unit buffer and the MEMERRs returned so far; the writes of its unit go out, the next one at `addr`. -/
inductive UnitPhase where
  | check (burst : Nat)
  | reading (burst granted returned : Nat) (data : List Byte) (errors : Nat)
  | writing (addr : Nat) (chunks : List (List Byte))
  deriving DecidableEq, Repr

/-- The copier (R111). `plan` is the place of the plan; `k` the selection's place among the plan's selections, in station-clip order. -/
inductive Copier where
  | idle
  | allocating (plan : Nat)
  | unit (plan k : Nat) (phase : UnitPhase)
  | directory (plan addr : Nat) (chunks : List (List Byte))
  deriving DecidableEq, Repr

/-- The Clip Unit. -/
structure Clip where
  plans     : List (Option Plan)
  queue     : List Nat
  copier    : Copier
  /-- Writes of the job granted and not completed (R117, R118). -/
  writesOut : Nat
  /-- A write of the directory unit returned MEMERR (R117). -/
  dirError  : Bool
  /-- Allocation pointer A, free pointer F and used count (R112). -/
  allocPtr  : Nat
  freePtr   : Nat
  used      : Nat
  /-- The Clip Unit has taken STOP, and the part has not left DRAINING since (R110). -/
  draining  : Bool
  deriving DecidableEq, Repr

/-! ### Path Guard -/

/-- A request in the upstream queue, with its waiting-for-room mark (R123, R129). -/
structure Queued where
  req     : Request
  waiting : Bool
  deriving DecidableEq, Repr

/-- Hold kinds (R129). -/
inductive HoldKind where
  | write (slot : Nat)
  | read (releasedRead : Bool)
  deriving DecidableEq, Repr

/-- State of a held entry (R129). A WRITE entry whose deadline has expired stays HELD with none until its cut releases it (R131).
A RELEASED entry carries the number of its release (R128). -/
inductive HoldState where
  | held (deadline : Option Nat)
  | released (order : Nat)
  deriving DecidableEq, Repr

/-- A held list entry (R129). -/
structure Held where
  req   : Request
  kind  : HoldKind
  state : HoldState
  deriving DecidableEq, Repr

/-- The part's claimants (R134). -/
inductive Claimant where
  | loader
  | status
  | report
  | refetch
  | copier
  deriving DecidableEq, Repr

/-- Whose request a granted request is, and what its completion is for. -/
inductive Owner where
  | pass (tag : Nat)
  | loader
  | status
  | report
  | refetch
  | copierRead
  /-- A write of the job: of the unit of the station-clip at this place, or of the directory unit. -/
  | copierWrite (clip : Option Nat)
  deriving DecidableEq, Repr

/-- A request granted to memory and not completed (R134, R136). `dropped` is set when the work it belonged to is discarded. -/
structure Outstanding where
  owner   : Owner
  kind    : ReqKind
  addr    : Nat
  beats   : Nat
  bytes   : List (Option Byte)
  dropped : Bool
  deriving DecidableEq, Repr

/-- How far an accepted upstream request has come (R122). -/
inductive Progress where
  | waiting
  | granted
  | refused
  deriving DecidableEq, Repr

/-- An upstream request accepted and not yet answered (R122). -/
structure Unanswered where
  tag   : Nat
  kind  : ReqKind
  beats : Nat
  prog  : Progress
  deriving DecidableEq, Repr

/-- Completion codes returned upstream (R122). -/
inductive Code where
  | okay
  | memerr
  | refused
  deriving DecidableEq, Repr

/-- A completion returned upstream (R122). -/
structure Completion where
  tag  : Nat
  code : Code
  data : List Byte
  deriving DecidableEq, Repr

/-- The Path Guard. -/
structure PathGuard where
  queue      : List Queued
  held       : List Held
  /-- The number the next release takes (MODEL's own). -/
  releases   : Nat
  /-- The announced unit range: first unit and count (R115, R119). -/
  range      : Option (Nat × Nat)
  grantCount : Nat
  shareCount : Nat
  /-- The part share of the frame in progress (R134). -/
  frameShare : Nat
  lastServed : Claimant
  downstream : List Outstanding
  unanswered : List Unanswered
  upstream   : Option Completion
  deriving DecidableEq, Repr

/-! ### Report Unit -/

/-- The record writer (R139): WRITING an event's record at its reserved index; `second` once its first write has been granted. -/
inductive Writer where
  | idle
  | writing (event index : Nat) (record : List Byte) (second : Bool)
  deriving DecidableEq, Repr

/-- The report ring's state (R139). -/
structure ReportRing where
  put       : Nat
  get       : Nat
  occupancy : Nat
  /-- Event numbers of the outstanding records, from get onward. -/
  numbers   : List Nat
  waitList  : List Nat
  writer    : Writer
  reclaim   : Bool
  deriving DecidableEq, Repr

/-- What the STATUS claimant has offered (R170). -/
inductive StatusOffer where
  | result (r : Result)
  | line
  | dump
  deriving DecidableEq, Repr

/-- A tally dump in progress (R173): the bytes still to be written, and the page offset of the next write. -/
structure Dump where
  offset : Nat
  bytes  : List Byte
  deriving DecidableEq, Repr

/-- The pending set, IRQ and the status line writer (R166, R168 to R171). -/
structure Status where
  pending    : BitVec 24
  irq        : Bool
  rewrite    : Bool
  heartbeat  : Nat
  newRecords : Nat
  result     : Option Result
  offer      : Option StatusOffer
  dump       : Option Dump
  deriving DecidableEq, Repr

/-- The tallies of one station (R172). -/
structure StationTallies where
  accepted : Nat
  gaps     : Nat
  picks    : Nat
  deriving DecidableEq, Repr

/-- The tallies (R172): 34 global ones by slot, and three of each station. -/
structure Tallies where
  global   : List Nat
  stations : List StationTallies
  deriving DecidableEq, Repr

/-! ### Attendance Monitor -/

/-- The attendance record (R175). -/
structure Attend where
  unattended : Bool
  deadline   : Option Nat
  deriving DecidableEq, Repr

/-! ### Announcements and requests between blocks, taken in events of their own -/

/-- From the Station Engine to the Associator (R57, R58). -/
inductive AssocMsg where
  | pick (p : Pick)
  | closure (station onset : Nat) (c : Closure)
  deriving DecidableEq, Repr

/-- From the Clip Unit to the Intake Unit (R10). A pin names the event and station whose plan asks it. -/
inductive PinMsg where
  | pin (event station slot gen : Nat)
  | unpin (slot gen : Nat)
  deriving DecidableEq, Repr

/-- From the Intake Unit to the Clip Unit: a pin refused (R106). -/
structure RefusedPin where
  event   : Nat
  station : Nat
  slot    : Nat
  gen     : Nat
  deriving DecidableEq, Repr

/-- To the Schedule Unit (R71). -/
inductive SchedMsg where
  | part (p : PartState)
  | time (t : TimeState)
  deriving DecidableEq, Repr

/-- What is on its way between blocks. Each list is oldest first. -/
structure Wires where
  toAssoc       : List AssocMsg
  pins          : List PinMsg
  refusedPins   : List RefusedPin
  cutRequests   : List Nat
  /-- Slot and generation cut (R12, R107). -/
  cutNotes      : List (Nat × Nat)
  slotFree      : List Nat
  /-- Station and its new trail entry (R18, R108). -/
  trailNotes    : List (Nat × TrailEntry)
  horizonSched  : List Nat
  horizonAssoc  : List Nat
  sched         : List SchedMsg
  /-- Event number and the state it is to advance to (R96). -/
  stateRequests : List (Nat × EventState)
  /-- Announcements of UNATTENDED not yet taken (R177). -/
  unattGuard    : Nat
  unattReport   : Nat
  /-- STOP not yet taken by the Clip Unit (R110). -/
  clipStop      : Bool
  deriving DecidableEq, Repr

/-! ### The state -/

/-- The part, and the queue of commands waiting. -/
structure State where
  time     : TimeBase
  control  : Control
  intake   : Intake
  engine   : List Detector
  sched    : Schedule
  assoc    : Assoc
  clip     : Clip
  guard    : PathGuard
  report   : ReportRing
  status   : Status
  tallies  : Tallies
  attend   : Attend
  wires    : Wires
  /-- Counts the STOPs accepted: the number the free choices of log 8 are drawn by (MODEL's own). -/
  draws    : Nat
  /-- Commands waiting, first in, first out. -/
  pending  : List Instr
  deriving DecidableEq, Repr

/-! ### Reset -/

/-- The Time Base after a full reset (R28). -/
def TimeBase.reset : TimeBase :=
  ⟨0, 0, Config.rateReset, Config.rateReset, .unset, false, none, none, none, false, 0⟩

/-- The Control Unit after a full reset (R164). -/
def Control.reset : Control := ⟨.dormant, none, none, 0, .powerOn, none, none, false⟩

/-- A station's intake state with nothing in it (R16, R19, R24). -/
def StationIntake.fresh : StationIntake := ⟨none, [], [], false⟩

/-- A slot with no block (R4). -/
def Slot.fresh : Slot := ⟨.empty, 0, 0, false, false⟩

/-- The Intake Unit after a full reset: no directory (R4, R25). -/
def Intake.reset : Intake := ⟨[], List.replicate 8 .free, [], List.replicate Config.nStations .fresh, 0, 0⟩

/-- An empty staged copy (R42). -/
def StagedTuning.empty : StagedTuning := ⟨none, none, none, none, none, none, none⟩

/-- A detector record made anew as OFF (R44). -/
def Detector.fresh : Detector := ⟨.off, [none, none, none], 0, 0, 0, 0, none, none, false, none, false, .empty⟩

/-- The Schedule Unit after a full reset (R69, R70, R78). -/
def Schedule.reset : Schedule := ⟨.idle, none, none, none, none, none, none, none, none, none, none, [], [], []⟩

/-- The Associator after a full reset (R101). -/
def Assoc.reset : Assoc := ⟨[], 0, List.replicate 32 none, 1⟩

/-- The Clip Unit after a full reset (R120). -/
def Clip.reset : Clip := ⟨List.replicate 32 none, [], .idle, 0, false, 0, 0, 0, false⟩

/-- The Path Guard after a full reset (R137). -/
def PathGuard.reset : PathGuard := ⟨[], [], 0, none, 0, 0, 8, .copier, [], [], none⟩

/-- The report ring's state after a full reset (R148). -/
def ReportRing.reset : ReportRing := ⟨0, 0, 0, [], [], .idle, false⟩

/-- The pending set and the status line writer after a full reset (R154, R166, R168, R169, R171). -/
def Status.reset : Status := ⟨0, false, false, 0, 0, none, none, none⟩

/-- Every tally at 0 (R172). -/
def Tallies.zero : Tallies := ⟨List.replicate 34 0, List.replicate Config.nStations ⟨0, 0, 0⟩⟩

/-- Nothing between blocks. -/
def Wires.empty : Wires := ⟨[], [], [], [], [], [], [], [], [], [], [], 0, 0, false⟩

/-- The part right after power-on, held in reset: every block at its reset value, SETUP_BASE not yet sampled (R164; log 12, log 13). -/
def State.reset : State :=
  { time := .reset, control := .reset, intake := .reset, engine := List.replicate Config.nStations .fresh, sched := .reset,
    assoc := .reset, clip := .reset, guard := .reset, report := .reset, status := .reset, tallies := .zero,
    attend := ⟨false, none⟩, wires := .empty, draws := 0, pending := [] }

end Sys2Proof.Machine
end

