-- ==== Sys2Proof/Machine/Flags.lean ====
section
/-! DEFINITION. Notices with the IRQ line, tallies, the status line writer's requests and the clip flags: everything a block tells the
Report Unit. -/
namespace Sys2Proof.Machine

/-! ### Changes of one block -/

/-- Changes the time record. -/
def State.setTime (f : TimeBase → TimeBase) (s : State) : State := { s with time := f s.time }
/-- Changes the control record. -/
def State.setControl (f : Control → Control) (s : State) : State := { s with control := f s.control }
/-- Changes the Intake Unit. -/
def State.setIntake (f : Intake → Intake) (s : State) : State := { s with intake := f s.intake }
/-- Changes the Station Engine. -/
def State.setEngine (f : List Detector → List Detector) (s : State) : State := { s with engine := f s.engine }
/-- Changes the schedule record. -/
def State.setSched (f : Schedule → Schedule) (s : State) : State := { s with sched := f s.sched }
/-- Changes the Associator. -/
def State.setAssoc (f : Assoc → Assoc) (s : State) : State := { s with assoc := f s.assoc }
/-- Changes the Clip Unit. -/
def State.setClip (f : Clip → Clip) (s : State) : State := { s with clip := f s.clip }
/-- Changes the Path Guard. -/
def State.setGuard (f : PathGuard → PathGuard) (s : State) : State := { s with guard := f s.guard }
/-- Changes the report ring's state. -/
def State.setReport (f : ReportRing → ReportRing) (s : State) : State := { s with report := f s.report }
/-- Changes the pending set, IRQ and the status line writer. -/
def State.setStatus (f : Status → Status) (s : State) : State := { s with status := f s.status }
/-- Changes the attendance record. -/
def State.setAttend (f : Attend → Attend) (s : State) : State := { s with attend := f s.attend }
/-- Changes what is on its way between blocks. -/
def State.setWires (f : Wires → Wires) (s : State) : State := { s with wires := f s.wires }

/-! ### Notices (R165) -/

/-- The 24 notice kinds (R165). -/
inductive Notice where
  | commandDone
  | blockRejected
  | blockLost
  | stationSilent
  | pickEvicted
  | eventDeclared
  | eventLost
  | holdCut
  | clipSpace
  | reportReady
  | reportWatermark
  | reportFull
  | reportReclaimed
  | badAck
  | refMissing
  | scheduleFault
  | timeLocked
  | timeHoldover
  | rateLimit
  | timeAhead
  | setupIgnored
  | refusedRequest
  | memFault
  | attendance
  deriving DecidableEq, Repr

/-- Position of a kind in the notice word, the raw word, the mask and the clear word (R165). -/
def Notice.position : Notice → Nat
  | .commandDone => 0
  | .blockRejected => 1
  | .blockLost => 2
  | .stationSilent => 3
  | .pickEvicted => 4
  | .eventDeclared => 5
  | .eventLost => 6
  | .holdCut => 7
  | .clipSpace => 8
  | .reportReady => 9
  | .reportWatermark => 10
  | .reportFull => 11
  | .reportReclaimed => 12
  | .badAck => 13
  | .refMissing => 14
  | .scheduleFault => 15
  | .timeLocked => 16
  | .timeHoldover => 17
  | .rateLimit => 18
  | .timeAhead => 19
  | .setupIgnored => 20
  | .refusedRequest => 21
  | .memFault => 22
  | .attendance => 23

/-- A kind as a set of kinds. -/
def Notice.bit (n : Notice) : BitVec 24 := BitVec.ofNat 24 (2 ^ n.position)

/-- The notice mask in force: the live field, or empty before the first LOAD succeeds (R168). -/
def State.mask (s : State) : BitVec 24 :=
  match s.control.setup with
  | some u => u.gen.noticeMask
  | none => 0

/-- Whether the pending set and the mask share a kind: the level of IRQ (R168). -/
def irqLevel (pending mask : BitVec 24) : Bool := decide (pending &&& mask ≠ 0)

/-- Asks the status line writer for a rewrite (R169). -/
def State.askRewrite (s : State) : State := s.setStatus fun w => { w with rewrite := true }

/-- Makes `p` the pending set, and sets IRQ by it (R166, R168). A set that is left as it was asks for nothing. -/
def State.setPending (p : BitVec 24) (s : State) : State :=
  if p = s.status.pending then s
  else s.setStatus fun w => { w with pending := p, irq := irqLevel p s.mask, rewrite := true }

/-- Raises a notice kind (R166). -/
def State.raise (n : Notice) (s : State) : State := s.setPending (s.status.pending ||| n.bit)

/-- Sets IRQ again after a change of the mask in force, which also asks for a rewrite of the notice word (R168, R169). -/
def State.maskChanged (s : State) : State :=
  s.setStatus fun w => { w with irq := irqLevel w.pending s.mask, rewrite := true }

/-! ### Tallies (R172) -/

/-- The 34 global tallies (R172). -/
inductive Tally where
  | blocksAccepted
  | rejectedHeader
  | rejectedStationOff
  | rejectedNoOpen
  | rejectedStale
  | rejectedOverlap
  | rejectedBadMarker
  | gaps
  | refetches
  | refetchFull
  | overtaken
  | assemblyTimeouts
  | picks
  | falseOnsets
  | maxOnCuts
  | picksEvicted
  | eventsDeclared
  | eventsLost
  | holds
  | holdCuts
  | readHolds
  | refusedRequests
  | memoryErrors
  | clipSpaceEvents
  | reportsWritten
  | reportsReclaimed
  | badAcks
  | refPulses
  | refBounces
  | refMissing
  | ppsPulses
  | rateLimitHits
  | setupIgnored
  | unattendedEntries
  deriving DecidableEq, Repr

/-- Slot of a global tally (R172). -/
def Tally.slot : Tally → Nat
  | .blocksAccepted => 0
  | .rejectedHeader => 1
  | .rejectedStationOff => 2
  | .rejectedNoOpen => 3
  | .rejectedStale => 4
  | .rejectedOverlap => 5
  | .rejectedBadMarker => 6
  | .gaps => 7
  | .refetches => 8
  | .refetchFull => 9
  | .overtaken => 10
  | .assemblyTimeouts => 11
  | .picks => 12
  | .falseOnsets => 13
  | .maxOnCuts => 14
  | .picksEvicted => 15
  | .eventsDeclared => 16
  | .eventsLost => 17
  | .holds => 18
  | .holdCuts => 19
  | .readHolds => 20
  | .refusedRequests => 21
  | .memoryErrors => 22
  | .clipSpaceEvents => 23
  | .reportsWritten => 24
  | .reportsReclaimed => 25
  | .badAcks => 26
  | .refPulses => 27
  | .refBounces => 28
  | .refMissing => 29
  | .ppsPulses => 30
  | .rateLimitHits => 31
  | .setupIgnored => 32
  | .unattendedEntries => 33

/-- A count plus `k`, held at the maximum (R172). -/
def saturate (k n : Nat) : Nat := min (n + k) maxTally

/-- Counts a global tally `k` times (R172). -/
def State.countBy (t : Tally) (k : Nat) (s : State) : State :=
  { s with tallies := { s.tallies with global := s.tallies.global.modify t.slot (saturate k) } }

/-- Counts a global tally once (R172). -/
def State.count (t : Tally) (s : State) : State := s.countBy t 1

/-- Counts tallies of one station (R172). -/
def State.countStation (st : Nat) (f : StationTallies → StationTallies) (s : State) : State :=
  { s with tallies := { s.tallies with stations := s.tallies.stations.modify st f } }

/-- The value of a global tally. -/
def State.tally (t : Tally) (s : State) : Nat := s.tallies.global.getD t.slot 0

/-- Raises MEM_FAULT (R117, R142, R154, R162). -/
def State.memFault (s : State) : State := s.raise .memFault

/-- A setup write not taken, or a staged set discarded (R42, R43, R66, R69, R85, R138, R151). -/
def State.setupIgnored (s : State) : State := (s.raise .setupIgnored).count .setupIgnored

/-! ### Results and the STATUS claimant (R154, R170) -/

/-- Hands a result to the status line writer; it replaces one that still waits to be offered (R154). -/
def State.putResult (r : Result) (s : State) : State := s.setStatus fun w => { w with result := some r }

/-- What the STATUS claimant offers when it is free to offer (R170): a result first, then the status line, then the dump. -/
def Status.choose (w : Status) : Status :=
  match w.offer with
  | some _ => w
  | none =>
    match w.result with
    | some r => { w with offer := some (.result r), result := none }
    | none =>
      if w.rewrite then { w with offer := some .line }
      else
        match w.dump with
        | some _ => { w with offer := some .dump }
        | none => w

/-- The end of every event: the STATUS claimant, if it is free to offer, chooses among the writes that wait (R170; log 29). -/
def State.settle (s : State) : State := { s with status := s.status.choose }

/-! ### Clip flags (R186) -/

/-- HEAD_SHORT, bit 0. -/
abbrev flagHeadShort : BitVec 8 := 1
/-- GAP, bit 1. -/
abbrev flagGap : BitVec 8 := 2
/-- TAIL_SHORT, bit 2. -/
abbrev flagTailShort : BitVec 8 := 4
/-- CUT, bit 3. -/
abbrev flagCut : BitVec 8 := 8
/-- MEMERR, bit 4. -/
abbrev flagMemerr : BitVec 8 := 16
/-- TIME_UNSURE, bit 5. -/
abbrev flagTimeUnsure : BitVec 8 := 32
/-- DIGITIZER_CLIP, bit 6. -/
abbrev flagDigitizerClip : BitVec 8 := 64
/-- CLIP_SPACE, bit 7, of the event clip flags alone. -/
abbrev flagClipSpace : BitVec 8 := 128

/-- A flag when a condition holds, and no flag otherwise. -/
def flagIf (c : Bool) (f : BitVec 8) : BitVec 8 := if c then f else 0

end Sys2Proof.Machine
end

