-- ==== Sys2Proof/Machine/Ops.lean ====
section
/-! DEFINITION. The operations the blocks share: field time and deadlines, the effective setup, the announcements between blocks, and
the search for messages of a key. -/
namespace Sys2Proof.Machine

/-- The outcome of a command that took effect: the next state, at the end of its event. -/
abbrev Next := Host.Outcome State Fault Refusal

/-- A command that took effect (log 29: the STATUS claimant chooses at the end of the event). -/
def done (s : State) : Next := .next s.settle

/-- A command that found nothing to take: no such deadline reached, nothing on its way, no such request (log 1). -/
def nothing (s : State) : Next := .next s

/-! ### Field time (R26, R38) -/

/-- Field time. -/
def State.now (s : State) : Nat := s.time.count

/-- A deadline: field time at the start plus the duration, held at 2^48 - 1 (R38). -/
def deadline (start duration : Nat) : Nat := min (start + duration) maxTime

/-- Field time has reached a deadline that is present (R38). -/
def reached (now : Nat) : Option Nat → Bool
  | some d => decide (d ≤ now)
  | none => false

/-- A deadline moved later by a forward step, held at 2^48 - 1 (R38, R39). -/
def moved (step : Nat) (d : Option Nat) : Option Nat := d.map fun t => deadline t step

/-- A sample time held as 48 bits; where the exact sum does not fit, the manual states no result and it is a free value (log 9). -/
def sampleTime (n : Nat) : Nat := if n ≤ maxTime then n else (Config.sampleTimeOverflow n).toNat

/-! ### Effective setup -/

/-- The general fields of a part with no effective setup: nothing reads a value of them. -/
def General.none : General :=
  { ringBase := 0, ringSlots := 0, writerTags := 0, hostTags := 0, rateDev := 0, rateNominal := 0, clipBase := 0, clipSize := 0,
    reportBase := 0, reportCap := 0, refSource := .ref, cycleMax := 0, silenceLimit := 0, scheduleEnable := false, refMinPeriod := 0,
    intakeLatency := 0, reportWatermark := 0, pre := 0, post := 0, tailWait := 0, serviceInterval := 0, copyBurst := 8,
    holdLimit := 0, partShare := 8, noticeMask := 0 }

/-- The general fields in force. -/
def State.gen (s : State) : General :=
  match s.control.setup with
  | some u => u.gen
  | none => General.none

/-- A LOAD has succeeded since the full reset: there is an effective setup, and with it a region map (R124, R164). -/
def State.loaded (s : State) : Bool := s.control.setup.isSome

/-- The station entry in force. -/
def State.station (s : State) (st : Nat) : Option StationEntry :=
  match s.control.setup with
  | some u => u.stations[st]?
  | none => none

/-- The zone in force. -/
def State.zone (s : State) (z : Nat) : Option Zone :=
  match s.control.setup with
  | some u => u.zones[z]?
  | none => none

/-- Changes a station entry in force. -/
def State.setStation (st : Nat) (f : StationEntry → StationEntry) (s : State) : State :=
  s.setControl fun c => { c with setup := c.setup.map fun u => { u with stations := u.stations.modify st f } }

/-- Changes the general fields in force. -/
def State.setGen (f : General → General) (s : State) : State :=
  s.setControl fun c => { c with setup := c.setup.map fun u => { u with gen := f u.gen } }

/-- Sample period in µs (R16). -/
def StationEntry.period (e : StationEntry) : Nat := 1000000 / e.sampleRate

/-- The sample period of a station, 0 where there is no entry. -/
def State.periodOf (s : State) (st : Nat) : Nat :=
  match s.station st with
  | some e => e.period
  | none => 0

/-! ### Part state and time state, with their announcements -/

/-- Changes the part state; the change asks for a rewrite (R152, R169). -/
def State.setPart (p : PartState) (s : State) : State :=
  if p = s.control.part then s else (s.setControl fun c => { c with part := p }).askRewrite

/-- Changes the time state; the change is announced to the Report Unit and to the Schedule Unit (R40). -/
def State.setTimeState (t : TimeState) (s : State) : State :=
  if t = s.time.state then s
  else ((s.setTime fun x => { x with state := t }).setWires fun w => { w with sched := w.sched ++ [SchedMsg.time t] }).askRewrite

/-! ### Announcements and requests between blocks -/

/-- Sends messages to the Associator (R57, R58). -/
def State.sendAssoc (ms : List AssocMsg) (s : State) : State := s.setWires fun w => { w with toAssoc := w.toAssoc ++ ms }

/-- Asks the Intake Unit for pins and unpins (R10). -/
def State.askPins (ms : List PinMsg) (s : State) : State := s.setWires fun w => { w with pins := w.pins ++ ms }

/-- Tells the Path Guard that a slot is free (R10, R12). -/
def State.tellSlotFree (slot : Nat) (s : State) : State := s.setWires fun w => { w with slotFree := w.slotFree ++ [slot] }

/-- Asks the Associator to advance an event (R96). -/
def State.askState (ev : Nat) (t : EventState) (s : State) : State :=
  s.setWires fun w => { w with stateRequests := w.stateRequests ++ [(ev, t)] }

/-- The first message of a list that satisfies `p`, and the list without it: messages of one key are taken in the order sent (log 4). -/
def takeFirst {α : Type} (p : α → Bool) : List α → Option (α × List α)
  | [] => none
  | m :: ms =>
    if p m then some (m, ms)
    else
      match takeFirst p ms with
      | some (found, rest) => some (found, m :: rest)
      | none => none

/-! ### Small list operations -/

/-- Inserts before the first element that `after` puts behind the new one. -/
def insertBefore {α : Type} (after : α → Bool) (x : α) : List α → List α
  | [] => [x]
  | y :: ys => if after y then x :: y :: ys else y :: insertBefore after x ys

/-- The elements in ascending order of a key, equal keys in the order they stood. -/
def sortBy {α : Type} (key : α → Nat) : List α → List α
  | [] => []
  | x :: xs => insertBefore (fun y => decide (key x ≤ key y)) x (sortBy key xs)

/-- The first place of a list whose element satisfies `p`, counted from `i`. -/
def placeOf {α : Type} (p : α → Bool) : Nat → List α → Option Nat
  | _, [] => none
  | i, x :: xs => if p x then some i else placeOf p (i + 1) xs

/-- A list without the element at a place. -/
def removeAt {α : Type} : Nat → List α → List α
  | _, [] => []
  | 0, _ :: xs => xs
  | i + 1, x :: xs => x :: removeAt i xs

end Sys2Proof.Machine
end

