-- ==== Sys2Proof/Machine/Holds.lean ====
section
/-! DEFINITION. Releases of the held list and the announced unit range (R119, R129, R131, R132). -/
namespace Sys2Proof.Machine

/-- The entry holds a write to a slot (R129). -/
def Held.onSlot (slot : Nat) (h : Held) : Bool :=
  match h.kind with
  | .write n => n == slot
  | .read _ => false

/-- The entry holds a read (R129). -/
def Held.isRead (h : Held) : Bool :=
  match h.kind with
  | .write _ => false
  | .read _ => true

/-- The entry is HELD (R129). -/
def Held.isHeld (h : Held) : Bool :=
  match h.state with
  | .held _ => true
  | .released _ => false

/-- A released entry; a READ entry takes the released-read mark (R131, R132). -/
def Held.release (order : Nat) (h : Held) : Held :=
  { h with
    state := .released order
    kind := match h.kind with
      | .write n => .write n
      | .read _ => .read true }

/-- Releases the HELD entries that satisfy `p`, numbered in list order (R128, R131, R132). -/
def releaseList (p : Held → Bool) : Nat → List Held → Nat × List Held
  | n, [] => (n, [])
  | n, h :: hs =>
    if h.isHeld && p h then
      let r := releaseList p (n + 1) hs
      (r.1, h.release n :: r.2)
    else
      let r := releaseList p n hs
      (r.1, h :: r.2)

/-- Releases the HELD entries that satisfy `p`. -/
def State.releaseHeld (p : Held → Bool) (s : State) : State :=
  s.setGuard fun g => { g with held := (releaseList p g.releases g.held).2, releases := (releaseList p g.releases g.held).1 }

/-- Withdraws the unit range, which releases every HELD READ entry (R119, R132). -/
def State.withdrawRange (s : State) : State := (s.setGuard fun g => { g with range := none }).releaseHeld Held.isRead

/-- Announces the unit range of a job (R115). -/
def State.announceRange (first n : Nat) (s : State) : State := s.setGuard fun g => { g with range := some (first, n) }

end Sys2Proof.Machine
end

