-- ==== Sys2Proof/Machine/Downstream.lean ====
section
/-! DEFINITION. The downstream channel: requests granted to memory and their completions, in grant order (R134, R136). Memory itself is
outside the part: a write leaves with its bytes and a read's data comes back with its completion (log 10). -/
namespace Sys2Proof.Machine

/-- Carries a request of the part's own to memory. -/
def State.sendRead (o : Owner) (addr beats : Nat) (s : State) : State :=
  s.setGuard fun g => { g with downstream := g.downstream ++ [⟨o, .read, addr, beats, [], false⟩] }

/-- Carries a write of the part's own to memory, every strobe set. -/
def State.sendWrite (o : Owner) (addr : Nat) (bytes : List Byte) (s : State) : State :=
  s.setGuard fun g => { g with downstream := g.downstream ++ [⟨o, .write, addr, bytes.length / 8, strobed bytes, false⟩] }

/-- Carries a granted upstream request to memory. -/
def State.sendPass (r : Request) (s : State) : State :=
  s.setGuard fun g => { g with downstream := g.downstream ++ [⟨.pass r.tag, r.kind, r.addr, r.beats, r.bytes, false⟩] }

/-- The request that completes next, when its owner satisfies `p`, and the channel without it (R134: completions return in grant
order). -/
def State.complete (p : Owner → Bool) (s : State) : Option (Outstanding × State) :=
  match s.guard.downstream with
  | o :: rest => if p o.owner then some (o, (s.setGuard fun g => { g with downstream := rest })) else none
  | [] => none

/-- Every MEMERR returned to a request of the part's own counts once (R136, R137; log 14). -/
def State.countMemerr (code : MemCode) (s : State) : State :=
  match code with
  | .memerr => s.count .memoryErrors
  | .okay => s

/-- Marks the granted requests of the named owners as belonging to discarded work (R25, R136, R148, R155). -/
def State.dropOutstanding (p : Owner → Bool) (s : State) : State :=
  s.setGuard fun g => { g with downstream := g.downstream.map fun o => if p o.owner then { o with dropped := true } else o }

/-- A write of a completed record or of the STATUS claimant: a MEMERR raises MEM_FAULT and is counted, and the write is not repeated
(R136, R142, R154, R162). -/
def State.writeCompleted (o : Outstanding) (code : MemCode) (s : State) : State :=
  let s1 := s.countMemerr code
  match code with
  | .memerr => if o.dropped then s1 else s1.memFault
  | .okay => s1

end Sys2Proof.Machine
end

