-- ==== Sys2Proof/Machine/Operands.lean ====
section
/-! DEFINITION. What the part reads out of bytes: the slot header, the pieces of a watched write, the setup areas and the control line
(R2, R3, R180 to R185). -/
namespace Sys2Proof.Machine

/-! ### Ring writes (R1, R2, R3) -/

/-- The piece of a watched write that lies in one slot: the slot, the offset at which it begins and its bytes (R2). -/
structure Piece where
  slot  : Nat
  off   : Nat
  bytes : List (Option Byte)
  deriving DecidableEq, Repr

/-- The pieces of a ring write, lower slot first (R2). -/
def pieces (ringBase : Nat) (r : Request) : List Piece :=
  let at0 := r.addr - ringBase
  let room := 512 - at0 % 512
  let low : Piece := ⟨at0 / 512, at0 % 512, r.bytes.take room⟩
  if r.bytes.length ≤ room then [low] else [low, ⟨at0 / 512 + 1, 0, r.bytes.drop room⟩]

/-- The byte a piece writes at an offset of its slot, if it writes one (R2: a byte counts as written when its strobe is set). -/
def Piece.byteAt (p : Piece) (o : Nat) : Option Byte :=
  if o < p.off then none
  else
    match p.bytes[o - p.off]? with
    | some b => b
    | none => none

/-- Classes of a piece (R3). -/
inductive WriteClass where
  | openWrite
  | sealWrite
  | badMarker
  | body
  | header
  deriving DecidableEq, Repr

/-- The marker OPEN (R180). -/
abbrev markerOpen : Byte := 0xA5
/-- The marker SEALED (R180). -/
abbrev markerSealed : Byte := 0x5A

/-- The piece writes exactly offsets 0 to 31 (R3). -/
def Piece.writesHeader (p : Piece) : Bool :=
  decide (p.off = 0) && decide (32 ≤ p.bytes.length) && (p.bytes.take 32).all Option.isSome && (p.bytes.drop 32).all Option.isNone

/-- The piece writes at least one byte at offset 32 or above (R3). -/
def Piece.reachesBody (p : Piece) : Bool := (p.bytes.drop (32 - p.off)).any Option.isSome

/-- The class of a piece (R3). A piece that writes no byte at all falls with the header writes and changes nothing (log 41). -/
def Piece.class (p : Piece) : WriteClass :=
  match p.byteAt 0 with
  | some m =>
    if m = markerOpen then .openWrite
    else if p.writesHeader ∧ m = markerSealed then .sealWrite
    else .badMarker
  | none => if p.reachesBody then .body else .header

/-- The body write that follows an open write whose written bytes reach offset 32 (R3). -/
def Piece.bodyPart (p : Piece) : Option Piece :=
  if p.reachesBody then some ⟨p.slot, 32, p.bytes.drop (32 - p.off)⟩ else none

/-- A slot header, as a seal write carries it (R180). -/
structure Header where
  station    : Nat
  seq        : Nat
  count      : Nat
  components : Nat
  timeUnsure : Bool
  clipped    : Bool
  first      : Nat
  deriving DecidableEq, Repr

/-- The header in 32 bytes (R180). -/
def parseHeader (bs : List Byte) : Header :=
  { station := field bs 1 1, seq := field bs 2 2, count := field bs 4 1, components := field bs 5 1,
    timeUnsure := (field bs 6 1).testBit 0, clipped := (field bs 6 1).testBit 1, first := field bs 8 6 }

/-- Bytes a block of so many samples and components needs (R13). -/
def neededBytes (count components : Nat) : Nat := 4 * count * components

/-! ### Setup areas (R184, R185) -/

/-- A byte string that starts at page offset `0100H`, read at a page offset. -/
def pageField (bs : List Byte) (off len : Nat) : Nat := field bs (off - 0x100) len

/-- The general fields of the loaded page (R184). The ranges have been checked (R156). -/
def parseGeneral (bs : List Byte) : General :=
  let f := pageField bs
  { ringBase := f 0x100 4, ringSlots := f 0x104 2, writerTags := BitVec.ofNat 16 (f 0x106 2), hostTags := BitVec.ofNat 16 (f 0x108 2),
    rateDev := f 0x10A 2, rateNominal := f 0x10C 4, clipBase := f 0x110 4, clipSize := f 0x114 4, reportBase := f 0x118 4,
    reportCap := f 0x11C 2, refSource := if f 0x11E 1 = 0 then .ref else .internal, cycleMax := f 0x11F 1,
    silenceLimit := f 0x120 1, scheduleEnable := f 0x121 1 == 1, refMinPeriod := f 0x122 2, intakeLatency := f 0x124 2,
    reportWatermark := f 0x126 2, pre := f 0x128 2, post := f 0x12A 2, tailWait := f 0x12C 2, serviceInterval := f 0x12E 2,
    copyBurst := f 0x130 1, holdLimit := f 0x131 1, partShare := f 0x132 1, noticeMask := BitVec.ofNat 24 (f 0x134 3) }

/-- The sample rate of its code (R185). -/
def rateOfCode : Nat → Nat
  | 0 => 250
  | 1 => 500
  | 2 => 1000
  | _ => 2000

/-- The station entry at a page offset (R185). -/
def parseStation (bs : List Byte) (off : Nat) : StationEntry :=
  let f := fun o n => pageField bs (off + o) n
  { components := f 0 1, sampleRate := rateOfCode (f 1 1), noiseGroup := f 2 1, enabled := f 8 1 == 1,
    tuning := { shortExp := f 16 1, longExp := f 17 1, onRatio := f 18 2, offRatio := f 20 2, minOn := f 22 1,
                deadTime := f 24 2, maxOn := f 26 2 } }

/-- The zone entry at a page offset (R185). -/
def parseZone (bs : List Byte) (off : Nat) : Zone :=
  let count := pageField bs off 1
  { count := count, members := (List.range (min count 24)).map fun j => pageField bs (off + 4 + j) 1,
    minCount := pageField bs (off + 1) 1, window := pageField bs (off + 2) 2 }

/-- A schedule entry of 8 bytes (R185). -/
def parseBankEntry (w : List Byte) : BankEntry :=
  { mark := field w 0 2, rep := field w 2 1, first := field w 3 1, action := field w 4 1, factor := field w 5 1,
    mask := BitVec.ofNat 8 (field w 6 1) }

/-- The bank at a page offset (R185). -/
def parseBank (bs : List Byte) (off : Nat) : List BankEntry :=
  (List.range 48).map fun e => parseBankEntry ((bs.drop (off - 0x100 + 8 * e)).take 8)

/-- The station table of the loaded page (R181). -/
def parseStations (bs : List Byte) : List StationEntry := (List.range 96).map fun st => parseStation bs (0x200 + 32 * st)

/-- The zone table of the loaded page (R181). -/
def parseZones (bs : List Byte) : List Zone := (List.range 16).map fun z => parseZone bs (0xE00 + 32 * z)

/-! ### Ranges of the fields that a word can change while the part runs (R41, R151) -/

/-- Ranges of `short_exp` and `long_exp`, `on_ratio` and `off_ratio`, and of the rest of the staged station fields (R41). -/
def Tuning.ok (t : Tuning) : Bool :=
  decide (1 ≤ t.shortExp ∧ t.shortExp ≤ 8) && decide (6 ≤ t.longExp ∧ t.longExp ≤ 15) && decide (t.shortExp + 3 ≤ t.longExp) &&
    decide (24 ≤ t.onRatio ∧ t.onRatio ≤ 1024) && decide (16 ≤ t.offRatio ∧ t.offRatio ≤ t.onRatio) &&
    decide (1 ≤ t.minOn ∧ t.minOn ≤ 255) && decide (t.deadTime ≤ 65535) && decide (1 ≤ t.maxOn ∧ t.maxOn ≤ 600)

def silenceLimitOk (n : Nat) : Bool := decide (1 ≤ n ∧ n ≤ 60)
def intakeLatencyOk (n : Nat) : Bool := decide (n ≤ 5000)
def watermarkOk (cap n : Nat) : Bool := decide (1 ≤ n ∧ n ≤ cap)
def preOk (n : Nat) : Bool := decide (n ≤ 2000)
def postOk (n : Nat) : Bool := decide (100 ≤ n ∧ n ≤ 4000)
def tailWaitOk (n : Nat) : Bool := decide (n ≤ 10000)
def serviceIntervalOk (n : Nat) : Bool := decide (n = 0 ∨ 100 ≤ n ∧ n ≤ 60000)
def copyBurstOk (n : Nat) : Bool := decide (n = 8 ∨ n = 16 ∨ n = 32)
def holdLimitOk (n : Nat) : Bool := decide (n ≤ 100)
def partShareOk (n : Nat) : Bool := decide (1 ≤ n ∧ n ≤ 8)
def cyclePeriodOk (n : Nat) : Bool := decide (100 ≤ n ∧ n ≤ 65535)

/-- The bank an `active_bank` byte names (R184). -/
def bankOfByte : Nat → Option BankName
  | 0 => some .a
  | 1 => some .b
  | _ => none

end Sys2Proof.Machine
end

