-- ==== Sys2Proof/Machine/Intake.lean ====
section
/-! DEFINITION. The Intake Unit: the slot directory, pins and cuts, assembly, validation, refetch and the hand-off orders (R1 to R25). -/
namespace Sys2Proof.Machine

/-! ### Access -/

/-- The directory entry of a slot. -/
def State.slot (s : State) (n : Nat) : Option Slot := s.intake.dir[n]?

/-- Changes the directory entry of a slot. -/
def State.setSlot (n : Nat) (f : Slot → Slot) (s : State) : State :=
  s.setIntake fun k => { k with dir := k.dir.modify n f }

/-- Changes what the Intake Unit keeps for a station. -/
def State.setStationIntake (st : Nat) (f : StationIntake → StationIntake) (s : State) : State :=
  s.setIntake fun k => { k with stations := k.stations.modify st f }

/-- Replaces the assembly buffers. -/
def State.setBufs (bs : List Buf) (s : State) : State := s.setIntake fun k => { k with bufs := bs }

/-- Replaces the refetch queue. -/
def State.setRefetch (q : List Refetch) (s : State) : State := s.setIntake fun k => { k with refetch := q }

/-- The pin count of a slot, 0 where there is no directory. -/
def State.pins (s : State) (n : Nat) : Nat :=
  match s.slot n with
  | some e => e.pins
  | none => 0

/-- A buffer is ASSEMBLING for a slot. -/
def Buf.assembles (slot : Nat) : Buf → Bool
  | .assembling n _ _ _ _ => n == slot
  | .free => false
  | .holding _ => false

/-- Releases to FREE the buffer ASSEMBLING for a slot (R5, R7, R17). -/
def releaseBuf (slot : Nat) (bs : List Buf) : List Buf := bs.map fun b => if b.assembles slot then .free else b

/-! ### Losing a block (R21, R23, R24) -/

/-- Removes the item of a refetch entry from a hand-off order: the item that followed takes the break mark, and the answer says whether
none followed (R24). -/
def dropItem (id : Nat) : List Item → List Item × Bool
  | [] => ([], false)
  | it :: rest =>
    if it.place = .refetch id then
      match rest with
      | [] => ([], true)
      | next :: more => ({ next with brk := true } :: more, false)
    else
      let r := dropItem id rest
      (it :: r.1, r.2)

/-- Takes a lost block's item out of its station's order (R24). -/
def StationIntake.lose (id : Nat) (si : StationIntake) : StationIntake :=
  let r := dropItem id si.order
  { si with order := r.1, breakPending := si.breakPending || r.2 }

/-- A block of the refetch queue is lost: its entry is removed, its place becomes a break and BLOCK_LOST is raised (R23, R24). -/
def State.loseRefetch (e : Refetch) (s : State) : State :=
  ((s.setRefetch (s.intake.refetch.filter fun x => x.id != e.id)).setStationIntake e.block.station (·.lose e.id)).raise .blockLost

/-! ### Unpins (R10) -/

/-- An unpin: with a matching generation and a count above zero the count falls by one; at zero the Path Guard is told that the slot is
free (R10). -/
def State.unpinSlot (n gen : Nat) (s : State) : State :=
  match s.slot n with
  | some e =>
    if e.gen = gen ∧ 0 < e.pins then
      let s1 := s.setSlot n fun x => { x with pins := x.pins - 1 }
      if e.pins = 1 then s1.tellSlotFree n else s1
    else s
  | none => s

/-! ### The refetch queue (R21 to R23) -/

/-- The REFETCH claimant takes up the oldest QUEUED entry when no entry is READING (R22; log 30). -/
def takeUp : List Refetch → List Refetch
  | [] => []
  | e :: q =>
    match e.state with
    | .reading => e :: q
    | .queued => if q.any (fun x => x.state == .reading) then e :: q else { e with state := .reading } :: q
    | .done => e :: takeUp q

/-- The number of reads of an entry (R22). -/
def Refetch.reads (e : Refetch) : Nat := if e.beats ≤ 32 then 1 else 2

/-- The entry offers no more reads: it has offered all, its cut flag is set, or a read of it returned MEMERR (R23). -/
def Refetch.offered (e : Refetch) : Bool := e.cutFlag || e.memerr || e.granted == e.reads

/-- The directory gives a slot this generation. -/
def State.hasGen (n gen : Nat) (s : State) : Bool :=
  match s.slot n with
  | some e => decide (e.gen = gen)
  | none => false

/-- The end of a READING entry (R23). -/
def State.endRefetch (e : Refetch) (s : State) : State :=
  if e.cutFlag || !s.hasGen e.slot e.gen then (s.loseRefetch e).count .overtaken
  else if e.memerr then (s.loseRefetch e).unpinSlot e.slot e.gen
  else
    (s.setRefetch (s.intake.refetch.map fun x => if x.id = e.id then { x with state := .done } else x)).unpinSlot e.slot e.gen

/-- Ends the READING entry when it offers no more reads and no granted read is outstanding, and takes up the next (R22, R23). -/
def State.settleRefetch (s : State) : State :=
  match s.intake.refetch.find? (fun x => x.state == .reading) with
  | some e =>
    if e.offered ∧ e.returned = e.granted then
      let s1 := s.endRefetch e
      s1.setRefetch (takeUp s1.intake.refetch)
    else s
  | none => s.setRefetch (takeUp s.intake.refetch)

/-- The read that the REFETCH claimant offers: address and beats (R22). -/
def State.refetchOffer (s : State) : Option (Nat × Nat) :=
  match s.intake.refetch.find? (fun x => x.state == .reading) with
  | some e =>
    if e.offered then none
    else some (s.gen.ringBase + 512 * e.slot + 32 + 256 * e.granted, if e.granted = 0 then min e.beats 32 else e.beats - 32)
  | none => none

/-- Changes the READING entry. -/
def State.setReading (f : Refetch → Refetch) (s : State) : State :=
  s.setRefetch (s.intake.refetch.map fun x => if x.state = .reading then f x else x)

/-- The grant of a refetch read (R22). -/
def State.grantRefetch (addr beats : Nat) (s : State) : State :=
  (s.setReading fun e => { e with granted := e.granted + 1 }).sendRead .refetch addr beats

/-- What a returned read gives an entry (R23). -/
def Refetch.gotData (beats : Nat) (code : MemCode) (data : List Byte) (e : Refetch) : Refetch :=
  { e with
    returned := e.returned + 1
    memerr := e.memerr || code == .memerr
    block := { e.block with body := e.block.body ++ fit (8 * beats) data } }

/-- REFETCH_READ_COMPLETION (R23). -/
def execRefetchReadCompletion (code : MemCode) (data : List Byte) (s : State) : Next :=
  match s.complete (· == .refetch) with
  | some (o, s1) =>
    let s2 := s1.countMemerr code
    if o.dropped then done s2 else done (s2.setReading (Refetch.gotData o.beats code data)).settleRefetch
  | none => nothing s

/-! ### Pins and cuts (R10, R12) -/

/-- A READING entry of a cut slot ends at once when no granted read of it is outstanding (R12, R22, R23). -/
def State.settleCut (n : Nat) (s : State) : State :=
  match s.intake.refetch.find? (fun x => x.state == .reading) with
  | some e => if e.slot = n then s.settleRefetch else s
  | none => s

/-- A pending refetch entry of a cut slot: a QUEUED one is lost as OVERTAKEN, a READING one takes the cut flag (R12, R22). -/
def State.cancelRefetch (n : Nat) (s : State) : State :=
  let lost := s.intake.refetch.filter fun e => e.slot == n && e.state == .queued
  let s1 := lost.foldl (fun t e => (t.loseRefetch e).count .overtaken) s
  (s1.setRefetch (s1.intake.refetch.map fun e => if e.slot = n ∧ e.state = .reading then { e with cutFlag := true } else e)).settleCut n

/-- A cut of one slot (R12). A cut taken when the count is already zero changes nothing. -/
def State.cutSlot (n : Nat) (s : State) : State :=
  match s.slot n with
  | some e =>
    if e.pins = 0 then s
    else
      let s1 := s.setSlot n fun x => { x with pins := 0, cutMark := true }
      let s2 := s1.setWires fun w => { w with cutNotes := w.cutNotes ++ [(n, e.gen)] }
      (((s2.cancelRefetch n).count .holdCuts).raise .holdCut).tellSlotFree n
  | none => s

/-- Messages of one slot are taken in the order sent (log 5). -/
def PinMsg.slot : PinMsg → Nat
  | .pin _ _ n _ => n
  | .unpin n _ => n

/-- The Intake Unit's answer to a pin (R10): placed, or refused to the Clip Unit. -/
def State.answerPin (ev st n gen : Nat) (s : State) : State :=
  match s.slot n with
  | some e =>
    if e.gen = gen ∧ e.cutMark = false then s.setSlot n fun x => { x with pins := x.pins + 1 }
    else s.setWires fun w => { w with refusedPins := w.refusedPins ++ [⟨ev, st, n, gen⟩] }
  | none => s.setWires fun w => { w with refusedPins := w.refusedPins ++ [⟨ev, st, n, gen⟩] }

/-- PIN_REQUEST (R10): the next request on the slot is taken, if it is a pin. -/
def execPinRequest (n : Nat) (s : State) : Next :=
  match takeFirst (fun m => m.slot == n) s.wires.pins with
  | some (.pin ev st slot gen, rest) => done ((s.setWires fun w => { w with pins := rest }).answerPin ev st slot gen)
  | some (.unpin _ _, _) => nothing s
  | none => nothing s

/-- UNPIN (R10): the next request on the slot is taken, if it is an unpin. -/
def execUnpin (n : Nat) (s : State) : Next :=
  match takeFirst (fun m => m.slot == n) s.wires.pins with
  | some (.unpin slot gen, rest) => done ((s.setWires fun w => { w with pins := rest }).unpinSlot slot gen)
  | some (.pin _ _ _ _, _) => nothing s
  | none => nothing s

/-- CUT (R12): a cut asked for is taken, whatever has become of the slot since it was asked (log 49). -/
def execCut (n : Nat) (s : State) : Next :=
  match takeFirst (fun m => m == n) s.wires.cutRequests with
  | some (_, rest) => done ((s.setWires fun w => { w with cutRequests := rest }).cutSlot n)
  | none => nothing s

/-! ### Assembly (R5, R6, R13, R14) -/

/-- An open write taken in LISTENING (R5). -/
def State.openWrite (n : Nat) (s : State) : State :=
  match s.slot n with
  | some e =>
    let gen := (e.gen + 1) % 256
    let bufs := releaseBuf n s.intake.bufs
    let free := placeOf (· == Buf.free) 0 bufs
    let s1 := s.setSlot n fun x => { x with state := .opened, gen := gen, refetchNeeded := free.isNone, cutMark := false }
    match free with
    | some i => s1.setBufs (bufs.set i (.assembling n gen 32 (deadline s.now Config.assemblyTime) []))
    | none => s1.setBufs bufs
  | none => s

/-- A rejection NO_OPEN (R6, R8). -/
def State.rejectNoOpen (n : Nat) (s : State) : State :=
  ((s.setSlot n fun x => { x with state := .rejected }).count .rejectedNoOpen).raise .blockRejected

/-- The bytes of a piece that a buffer captures: the piece begins at the next expected offset and every strobe is set (R6). -/
def Piece.captured (p : Piece) (next : Nat) : Option (List Byte) := if p.off = next then fullWord p.bytes else none

/-- A body write to an OPEN slot: captured, or the buffer is released and the block will be read back (R6). -/
def State.captureBody (p : Piece) (s : State) : State :=
  match placeOf (Buf.assembles p.slot) 0 s.intake.bufs with
  | some i =>
    match s.intake.bufs[i]? with
    | some (.assembling n gen next d got) =>
      match p.captured next with
      | some bs => s.setBufs (s.intake.bufs.set i (.assembling n gen (next + bs.length) d (got ++ bs)))
      | none => (s.setBufs (s.intake.bufs.set i .free)).setSlot p.slot fun x => { x with refetchNeeded := true }
    | some .free => s
    | some (.holding _) => s
    | none => s
  | none => s

/-- A body write taken in LISTENING (R6). -/
def State.bodyWrite (p : Piece) (s : State) : State :=
  match s.slot p.slot with
  | some e =>
    match e.state with
    | .opened => s.captureBody p
    | .empty => s.rejectNoOpen p.slot
    | .sealed => s.rejectNoOpen p.slot
    | .rejected => s
  | none => s

/-- A bad-marker write taken in LISTENING (R7). -/
def State.badMarkerWrite (n : Nat) (s : State) : State :=
  (((s.setSlot n fun x => { x with state := .rejected, refetchNeeded := false }).setBufs (releaseBuf n s.intake.bufs)).count
    .rejectedBadMarker).raise .blockRejected

/-- ASSEMBLY_TIMEOUT (R14). -/
def execAssemblyTimeout (i : Nat) (s : State) : Next :=
  match s.intake.bufs[i]? with
  | some (.assembling n _ _ d _) =>
    if d ≤ s.now then
      done (((s.setBufs (s.intake.bufs.set i .free)).setSlot n fun x => { x with refetchNeeded := true }).count .assemblyTimeouts)
    else nothing s
  | some .free => nothing s
  | some (.holding _) => nothing s
  | none => nothing s

/-! ### Header validation (R15 to R17) -/

/-- Reasons for which validation rejects a block (R15). -/
inductive RejectReason where
  | header
  | stationOff
  | stale
  | overlap
  deriving DecidableEq, Repr

/-- Outcomes of validation (R15): accepted as continuous, as a GAP, or without an expected sequence; or rejected. -/
inductive Verdict where
  | continuous
  | gap
  | afresh
  | reject (r : RejectReason)
  deriving DecidableEq, Repr

/-- The most samples a block of so many components may carry (R15, check 4). -/
def maxSamples (components : Nat) : Nat := if components = 1 then 120 else 40

/-- Checks 5 and 6 of R15. -/
def sequenceVerdict (half : Nat) (h : Header) : Option (Nat × Nat) → Verdict
  | none => .afresh
  | some (seq, time) =>
    let ahead := (h.seq + 65536 - seq) % 65536
    if ahead = 0 then
      if h.first > time + half then .gap
      else if h.first + half < time then .reject .overlap
      else .continuous
    else if ahead ≤ 32767 then .gap
    else .reject .stale

/-- The checks of R15, in order. -/
def State.validate (h : Header) (s : State) : Verdict :=
  match s.station h.station, s.intake.stations[h.station]? with
  | some e, some si =>
    if ¬ h.station < Config.nStations then .reject .header
    else if e.enabled = false then .reject .stationOff
    else if ¬ ((h.components = 1 ∨ h.components = 3) ∧ h.components = e.components) then .reject .header
    else if ¬ (1 ≤ h.count ∧ h.count ≤ maxSamples e.components) then .reject .header
    else sequenceVerdict (e.period / 2) h si.expected
  | _, _ => .reject .header

/-- The tally of a rejection (R17). -/
def RejectReason.tally : RejectReason → Tally
  | .header => .rejectedHeader
  | .stationOff => .rejectedStationOff
  | .stale => .rejectedStale
  | .overlap => .rejectedOverlap

/-- A rejection at validation (R17): STATION_OFF raises no notice. -/
def State.rejectBlock (n : Nat) (r : RejectReason) (s : State) : State :=
  let s1 := ((s.setSlot n fun x => { x with state := .rejected, refetchNeeded := false }).setBufs (releaseBuf n s.intake.bufs)).count
    r.tally
  if r = .stationOff then s1 else s1.raise .blockRejected

/-! ### Acceptance (R18 to R21, R24) -/

/-- A trail with an entry appended, the oldest removed first when it holds 512 (R19). -/
def appendTrail (t : List TrailEntry) (e : TrailEntry) : List TrailEntry := (if t.length < 512 then t else t.drop 1) ++ [e]

/-- The sample horizon advances, and a move is told to the Associator and to the Schedule Unit (R20). -/
def State.advanceHorizon (first : Nat) (s : State) : State :=
  if s.intake.horizon < first then
    (s.setIntake fun k => { k with horizon := first }).setWires fun w =>
      { w with horizonSched := w.horizonSched ++ [first], horizonAssoc := w.horizonAssoc ++ [first] }
  else s

/-- Restarts a station's silence timer and clears its silent mark (R18, R44, R62). -/
def State.restartSilence (st : Nat) (s : State) : State :=
  s.setEngine fun ds => ds.modify st fun d =>
    { d with silence := some (deadline s.now (s.gen.silenceLimit * 1000000)), silent := false }

/-- Puts an item at the end of a station's hand-off order (R24). -/
def StationIntake.append (place : ItemAt) (brk : Bool) (si : StationIntake) : StationIntake :=
  { si with order := si.order ++ [⟨place, brk || si.breakPending⟩], breakPending := false }

/-- An accepted block enters the refetch queue, or is lost when it is full (R21). -/
def State.enterRefetch (n gen beats : Nat) (b : Block) (brk : Bool) (s : State) : State :=
  if s.intake.refetch.length < 16 then
    let id := s.intake.nextId
    let e : Refetch := ⟨id, n, gen, b, beats, .queued, false, 0, 0, false⟩
    let s1 := s.setIntake fun k => { k with nextId := id + 1, refetch := takeUp (k.refetch ++ [e]) }
    ((s1.setSlot n fun x => { x with pins := x.pins + 1, refetchNeeded := false }).setStationIntake b.station
      (·.append (.refetch id) brk)).count .refetches
  else ((s.setStationIntake b.station fun si => { si with breakPending := true }).count .refetchFull).raise .blockLost

/-- The block goes toward the Station Engine: HOLDING when it is complete in its buffer, otherwise to refetch (R13, R18, R21, R24). -/
def State.routeBlock (n gen needed : Nat) (b : Block) (brk : Bool) (s : State) : State :=
  match placeOf (Buf.assembles n) 0 s.intake.bufs with
  | some i =>
    match s.intake.bufs[i]? with
    | some (.assembling _ _ next _ got) =>
      if 32 + needed ≤ next then
        (s.setBufs (s.intake.bufs.set i (.holding { b with body := got.take needed }))).setStationIntake b.station
          (·.append (.buffer i) brk)
      else (s.setBufs (s.intake.bufs.set i .free)).enterRefetch n gen ((needed + 7) / 8) b brk
    | some .free => s
    | some (.holding _) => s
    | none => s
  | none => s.enterRefetch n gen ((needed + 7) / 8) b brk

/-- Acceptance of a block (R16, R18). `gap` is set for a GAP, `brk` for a GAP or a block without an expected sequence. -/
def State.acceptBlock (n gen : Nat) (h : Header) (gap brk : Bool) (s : State) : State :=
  let entry : TrailEntry := ⟨n, gen, h.first, h.count, h.timeUnsure, h.clipped, brk⟩
  let s1 := s.setSlot n fun x => { x with state := .sealed }
  let s2 := s1.setStationIntake h.station fun si =>
    { si with
      expected := some ((h.seq + 1) % 65536, sampleTime (h.first + h.count * s.periodOf h.station))
      trail := appendTrail si.trail entry }
  let s3 := (s2.advanceHorizon h.first).restartSilence h.station
  let s4 := s3.setWires fun w => { w with trailNotes := w.trailNotes ++ [(h.station, entry)] }
  let s5 := (s4.count .blocksAccepted).countStation h.station fun t => { t with accepted := saturate 1 t.accepted }
  let s6 := if gap then (s5.count .gaps).countStation h.station fun t => { t with gaps := saturate 1 t.gaps } else s5
  s6.routeBlock n gen (neededBytes h.count h.components) ⟨h.station, h.seq, h.first, h.count, h.timeUnsure, h.clipped, []⟩ brk

/-- A seal write taken in LISTENING (R8). -/
def State.sealWrite (p : Piece) (s : State) : State :=
  match s.slot p.slot with
  | some e =>
    match e.state with
    | .opened =>
      let h := parseHeader ((p.bytes.take 32).filterMap id)
      match s.validate h with
      | .continuous => s.acceptBlock p.slot e.gen h false false
      | .gap => s.acceptBlock p.slot e.gen h true true
      | .afresh => s.acceptBlock p.slot e.gen h false true
      | .reject r => s.rejectBlock p.slot r
    | .empty => s.rejectNoOpen p.slot
    | .sealed => s.rejectNoOpen p.slot
    | .rejected => s
  | none => s

/-! ### Taking a watched write (R2, R3, R9) -/

/-- A piece taken in LISTENING (R3, R5 to R8). -/
def State.takePiece (p : Piece) (s : State) : State :=
  match p.class with
  | .openWrite =>
    match p.bodyPart with
    | some b => (s.openWrite p.slot).bodyWrite b
    | none => s.openWrite p.slot
  | .sealWrite => s.sealWrite p
  | .badMarker => s.badMarkerWrite p.slot
  | .body => s.bodyWrite p
  | .header => s

/-- A piece taken in DRAINING (R9). -/
def State.takePieceDraining (p : Piece) (s : State) : State :=
  match p.class with
  | .openWrite =>
    s.setSlot p.slot fun x => { x with state := .opened, gen := (x.gen + 1) % 256, refetchNeeded := false, cutMark := false }
  | .sealWrite => s.setSlot p.slot fun x => { x with state := .empty }
  | .badMarker => s.setSlot p.slot fun x => { x with state := .empty }
  | .body => s
  | .header => s

/-- The Intake Unit takes the meaning of a granted ring write, piece by piece (R2). -/
def State.takeRingWrite (r : Request) (s : State) : State :=
  match s.control.part with
  | .listening => (pieces s.gen.ringBase r).foldl (fun t p => t.takePiece p) s
  | .draining => (pieces s.gen.ringBase r).foldl (fun t p => t.takePieceDraining p) s
  | .dormant => s
  | .loading => s
  | .stopped => s

/-- The slots of a ring write's open writes whose pin count is above zero (R11). -/
def State.pinnedOpens (r : Request) (s : State) : List Nat :=
  ((pieces s.gen.ringBase r).filter fun p => p.class == .openWrite && decide (0 < s.pins p.slot)).map (·.slot)

/-! ### Hand-off (R24) -/

/-- The block of an item that is ready: HOLDING, or in an entry that is DONE (R24). -/
def Intake.ready (k : Intake) (it : Item) : Option Block :=
  match it.place with
  | .buffer i =>
    match k.bufs[i]? with
    | some (.holding b) => some b
    | some .free => none
    | some (.assembling _ _ _ _ _) => none
    | none => none
  | .refetch id =>
    match k.refetch.find? (fun e => e.id == id) with
    | some e => if e.state = .done then some e.block else none
    | none => none

/-- Frees the buffer or the refetch entry of an item taken (R24). -/
def State.freeItem (it : Item) (s : State) : State :=
  match it.place with
  | .buffer i => s.setBufs (s.intake.bufs.set i .free)
  | .refetch id => s.setRefetch (takeUp (s.intake.refetch.filter fun e => e.id != id))

/-- The block offered at the head of a station's hand-off order, with its break mark, and the state without it (R24). -/
def State.takeOffered (st : Nat) (s : State) : Option (Block × Bool × State) :=
  match s.intake.stations[st]? with
  | some si =>
    match si.order with
    | it :: rest =>
      match s.intake.ready it with
      | some b => some (b, it.brk, (s.freeItem it).setStationIntake st fun x => { x with order := rest })
      | none => none
    | [] => none
  | none => none

/-! ### Resets (R4, R9, R25) -/

/-- Intake is made anew for so many slots: at a LOAD that succeeds, at START and at a soft reset. Granted refetch reads complete and are
dropped, and what was on its way to or from the Intake Unit goes with the work discarded (R25; log 7). -/
def State.intakeAnew (slots : Nat) (s : State) : State :=
  let s1 := (s.dropOutstanding (· == .refetch)).setIntake fun k =>
    { k with
      dir := List.replicate slots .fresh, bufs := List.replicate 8 .free, refetch := [],
      stations := List.replicate Config.nStations .fresh, horizon := 0 }
  s1.setWires fun w =>
    { w with
      pins := [], refusedPins := [], cutRequests := [], cutNotes := [], slotFree := [], trailNotes := [], horizonSched := [],
      horizonAssoc := [] }

/-- STOP at the Intake Unit: every ASSEMBLING buffer is released (R9). -/
def State.intakeStop (s : State) : State :=
  s.setBufs (s.intake.bufs.map fun b =>
    match b with
    | .assembling _ _ _ _ _ => .free
    | .holding x => .holding x
    | .free => .free)

/-- The Intake Unit is told that a station is silent (R16, R63). -/
def State.forgetExpected (st : Nat) (s : State) : State := s.setStationIntake st fun si => { si with expected := none }

end Sys2Proof.Machine
end

