-- ==== Sys2Proof/Machine/Associator.lean ====
section
/-! DEFINITION. The Associator: the pick list, the join and coincidence tests, declaration, closures, and the states of an event
(R84 to R102). -/
namespace Sys2Proof.Machine

/-! ### Access -/

/-- The event slots that hold an event, with their numbers, from slot `i`. -/
def heldEvents : Nat → List (Option Event) → List (Nat × Event)
  | _, [] => []
  | i, some e :: rest => (i, e) :: heldEvents (i + 1) rest
  | i, none :: rest => heldEvents (i + 1) rest

/-- The events in ascending event number, with their slots. -/
def State.eventsByNumber (s : State) : List (Nat × Event) := sortBy (fun p => p.2.number) (heldEvents 0 s.assoc.events)

/-- The event of a number, with its slot. -/
def State.findEvent (ev : Nat) (s : State) : Option (Nat × Event) := (heldEvents 0 s.assoc.events).find? fun p => p.2.number == ev

/-- Changes the event in a slot. -/
def State.setEvent (slot : Nat) (f : Event → Event) (s : State) : State :=
  s.setAssoc fun a => { a with events := a.events.modify slot (·.map f) }

/-- The number of event slots that are not FREE (R94, R96). -/
def State.eventsInUse (s : State) : Nat := (heldEvents 0 s.assoc.events).length

/-- The event keeps a drain going (R96, R160). -/
def EventState.drains : EventState → Bool
  | .gathering => true
  | .waitingTail => true
  | .copyQueued => true
  | .copying => true
  | .copied => false
  | .reported => false

/-- The count that the Associator announces to the Control Unit (R96, R160). -/
def State.drainCount (s : State) : Nat := ((heldEvents 0 s.assoc.events).filter fun p => p.2.state.drains).length

/-! ### The pick list (R86 to R88) -/

/-- The zones in use, with their numbers (R84). -/
def zonesInUse : Nat → List Zone → List (Nat × Zone)
  | _, [] => []
  | i, z :: rest => if z.count = 0 then zonesInUse (i + 1) rest else (i, z) :: zonesInUse (i + 1) rest

/-- The zones in use of the effective zone table. -/
def State.zones (s : State) : List (Nat × Zone) :=
  match s.control.setup with
  | some u => zonesInUse 0 u.zones
  | none => []

/-- The greatest window of the zones in use (R88). -/
def State.maxWindow (s : State) : Nat := s.zones.foldl (fun m z => max m z.2.window) 0

/-- The list with room for one more pick: a full one loses its first entry (R87). -/
def pickRoom (ps : List PickEntry) : List PickEntry := if ps.length < 256 then ps else ps.drop 1

/-- A pick entered in the list: it takes the next number, and a full list loses its first entry (R87). -/
def State.enterPick (p : Pick) (s : State) : State :=
  let s1 := if s.assoc.picks.length < 256 then s else (s.count .picksEvicted).raise .pickEvicted
  s1.setAssoc fun a =>
    { a with
      picks := insertBefore (fun e => decide (p.onset < e.copy.pick.onset)) ⟨⟨a.nextPick, p, none⟩, none⟩ (pickRoom a.picks)
      nextPick := (a.nextPick + 1) % 4294967296 }

/-- HORIZON_ADVANCE_ASSOCIATOR (R88). -/
def execHorizonAdvanceAssociator (s : State) : Next :=
  match s.wires.horizonAssoc with
  | h :: rest =>
    let span := (s.maxWindow + s.gen.intakeLatency) * 1000
    let s1 := s.setWires fun w => { w with horizonAssoc := rest }
    if h < span then done s1
    else done (s1.setAssoc fun a => { a with picks := a.picks.filter fun e => decide (h - span ≤ e.copy.pick.onset) })
  | [] => nothing s

/-! ### Events' picks (R93) -/

/-- A copy stands before another in an event: onset order, equal onsets by pick number (R93). -/
def PickCopy.before (c d : PickCopy) : Bool :=
  decide (c.pick.onset < d.pick.onset) || (c.pick.onset == d.pick.onset && decide (c.num < d.num))

/-- The peak a copy counts with (R93). -/
def PickCopy.peak (c : PickCopy) : Nat :=
  match c.closure with
  | some k => k.finalPeak
  | none => c.pick.peak

/-- The peak maximum of an event's picks (R93). -/
def peakMaxOf (cs : List PickCopy) : Nat := cs.foldl (fun m c => max m c.peak) 0

/-- Copies in the order an event holds them (R93). -/
def orderCopies : List PickCopy → List PickCopy
  | [] => []
  | c :: cs => insertBefore (fun d => c.before d) c (orderCopies cs)

/-- The copy of a pick joins an event (R93). -/
def Event.join (c : PickCopy) (e : Event) : Event :=
  let cs := insertBefore (fun d => c.before d) c e.picks
  { e with
    picks := cs, anchor := min e.anchor c.pick.onset, last := max e.last c.pick.onset, peakMax := peakMaxOf cs }

/-! ### Join and coincidence (R91, R92) -/

/-- The distance of two times, in either direction. -/
def distance (a b : Nat) : Nat := if a ≤ b then b - a else a - b

/-- The join test of one event (R91). -/
def Event.takes (z : Nat) (w : Nat) (p : Pick) (e : Event) : Bool :=
  e.state == .gathering && e.zone == z && decide (distance p.onset e.anchor ≤ w * 1000) &&
    !e.picks.any (fun c => c.pick.station == p.station) && decide (e.picks.length < 24)

/-- The candidate set of the coincidence test (R92). -/
def candidates (z : Zone) (t : Nat) (ps : List PickEntry) : List PickCopy :=
  (ps.filter fun e => e.owner.isNone && z.members.contains e.copy.pick.station && decide (distance e.copy.pick.onset t ≤ z.window * 1000)).map
    (·.copy)

/-- The candidates of a station in the window that starts at `s`. -/
def inWindow (z : Zone) (s st : Nat) (cs : List PickCopy) : List PickCopy :=
  cs.filter fun c => c.pick.station == st && decide (s ≤ c.pick.onset) && decide (c.pick.onset ≤ s + z.window * 1000)

/-- The earliest of some picks, of two with one onset the one with the lower number (R92). -/
def earliest : List PickCopy → Option PickCopy
  | [] => none
  | c :: cs =>
    match earliest cs with
    | some d => some (if d.before c then d else c)
    | none => some c

/-- One pick for each member station with a candidate in the window (R92). -/
def windowPicks (z : Zone) (cs : List PickCopy) (s : Nat) : List PickCopy :=
  z.members.filterMap fun st => earliest (inWindow z s st cs)

/-- The window found: the picks of the first candidate start, in ascending order, that counts K stations (R92). -/
def findWindow (z : Zone) (t : Nat) (cs : List PickCopy) : Option (List PickCopy) :=
  let starts := sortBy id ((cs.map fun c => c.pick.onset).filter fun s => decide (s ≤ t))
  (starts.map (windowPicks z cs)).find? fun ps => decide (z.minCount ≤ ps.length)

/-! ### Declaration (R94, R95, R97) -/

/-- Marks list entries as owned by an event (R86, R93, R94). -/
def State.own (ev : Nat) (nums : List Nat) (s : State) : State :=
  s.setAssoc fun a =>
    { a with picks := a.picks.map fun e => if nums.contains e.copy.num then { e with owner := some ev } else e }

/-- EVENT_LOST (R94, R95). -/
def State.loseEvent (s : State) : State := (s.count .eventsLost).raise .eventLost

/-- The record of a new event (R94, R97). -/
def newEvent (number z : Nat) (cs : List PickCopy) (time : TimeState) (now close : Nat) : Event :=
  { number := number, zone := z, state := .gathering,
    anchor := (cs.map fun c => c.pick.onset).foldl min ((cs.map fun c => c.pick.onset).headD 0),
    last := (cs.map fun c => c.pick.onset).foldl max 0,
    picks := orderCopies cs, peakMax := peakMaxOf cs, timeState := time, declaredAt := now, closedAt := none,
    closeDeadline := some close, reason := none, clipFlags := 0, clipUnits := none }

/-- An event is declared in a slot (R94, R95, R97). -/
def State.declareIn (slot z : Nat) (w : Nat) (cs : List PickCopy) (s : State) : State :=
  let n := s.assoc.counter
  let e := newEvent n z cs s.time.state s.now (deadline s.now ((w + s.gen.intakeLatency) * 1000))
  let s1 := s.setAssoc fun a => { a with events := a.events.set slot (some e), counter := n + 1 }
  (((s1.own n (cs.map (·.num))).count .eventsDeclared).raise .eventDeclared).askRewrite

/-- The outcomes of a zone (R90). -/
inductive ZoneOutcome where
  | taken (s : State)
  | neither (s : State)

/-- The coincidence test and what follows it (R92, R94). -/
def State.coincide (z : Nat) (zone : Zone) (p : Pick) (s : State) : ZoneOutcome :=
  match findWindow zone p.onset (candidates zone p.onset s.assoc.picks) with
  | some cs =>
    match placeOf Option.isNone 0 s.assoc.events with
    | some slot => if s.assoc.counter < 4294967296 then .taken (s.declareIn slot z zone.window cs) else .neither s.loseEvent
    | none => .neither s.loseEvent
  | none => .neither s

/-- The join test and, failing it, the coincidence test (R90, R91). -/
def State.tryZone (z : Nat) (zone : Zone) (c : PickCopy) (s : State) : ZoneOutcome :=
  match s.eventsByNumber.find? fun p => p.2.takes z zone.window c.pick with
  | some (slot, e) => .taken ((s.setEvent slot (Event.join c)).own e.number [c.num])
  | none => s.coincide z zone c.pick

/-- Association of an arriving pick over zones in ascending number (R90). -/
def State.associate (c : PickCopy) : List (Nat × Zone) → State → State
  | [], s => s
  | (i, z) :: rest, s =>
    if z.members.contains c.pick.station then
      match s.tryZone i z c with
      | .taken t => t
      | .neither t => t.associate c rest
    else s.associate c rest

/-- The station of a message to the Associator. -/
def AssocMsg.station : AssocMsg → Nat
  | .pick p => p.station
  | .closure st _ _ => st

/-- A pick arrives (R87). -/
def State.takePick (p : Pick) (s : State) : State :=
  if s.control.part = .listening then (s.enterPick p).associate ⟨s.assoc.nextPick, p, none⟩ s.zones else s

/-- PICK_ARRIVAL (R87): the station's next message is taken, if it is a pick. -/
def execPickArrival (st : Nat) (s : State) : Next :=
  match takeFirst (fun m => m.station == st) s.wires.toAssoc with
  | some (.pick p, rest) => done ((s.setWires fun w => { w with toAssoc := rest }).takePick p)
  | some (.closure _ _ _, _) => nothing s
  | none => nothing s

/-! ### Closures (R89) -/

/-- The closure names this copy: its station and onset, and no closure (R89). -/
def PickCopy.named (st onset : Nat) (c : PickCopy) : Bool := c.pick.station == st && c.pick.onset == onset && c.closure.isNone

/-- A copy with the closure filled in, where it is named. -/
def PickCopy.fill (st onset : Nat) (k : Closure) (c : PickCopy) : PickCopy :=
  if c.named st onset then { c with closure := some k } else c

/-- A closure applied to an event that is GATHERING (R89, R93). -/
def Event.fill (st onset : Nat) (k : Closure) (e : Event) : Event :=
  if e.state = .gathering then
    let cs := e.picks.map (PickCopy.fill st onset k)
    { e with picks := cs, peakMax := peakMaxOf cs }
  else e

/-- A closure is applied in the list and in the events (R89). -/
def State.applyClosure (st onset : Nat) (k : Closure) (s : State) : State :=
  s.setAssoc fun a =>
    { a with
      picks := a.picks.map fun e => { e with copy := e.copy.fill st onset k }
      events := a.events.map fun o => o.map (Event.fill st onset k) }

/-- PICK_CLOSURE (R89): the station's next message is taken, if it is a closure; in every part state. -/
def execPickClosure (st : Nat) (s : State) : Next :=
  match takeFirst (fun m => m.station == st) s.wires.toAssoc with
  | some (.closure n onset k, rest) => done ((s.setWires fun w => { w with toAssoc := rest }).applyClosure n onset k)
  | some (.pick _, _) => nothing s
  | none => nothing s

/-! ### States (R96) -/

/-- The event stands in a state from which the requested one follows (R96). -/
def EventState.precedes : EventState → EventState → Bool
  | .gathering, .waitingTail => true
  | .gathering, .copyQueued => true
  | .waitingTail, .copyQueued => true
  | .copyQueued, .copying => true
  | .copying, .copied => true
  | .copied, .reported => true
  | _, _ => false

/-- A state request is applied (R96). -/
def State.applyRequest (ev : Nat) (t : EventState) (s : State) : State :=
  match s.findEvent ev with
  | some (slot, e) => if e.state.precedes t then s.setEvent slot fun x => { x with state := t } else s
  | none => s

/-- EVENT_STATE_REQUEST (R96): the oldest request of the event is taken. -/
def execEventStateRequest (ev : Nat) (s : State) : Next :=
  match takeFirst (fun m => m.1 == ev) s.wires.stateRequests with
  | some ((_, t), rest) => done ((s.setWires fun w => { w with stateRequests := rest }).applyRequest ev t)
  | none => nothing s

/-- Applies every request of an event that is on its way, in order (log 6). -/
def State.flushRequests (ev : Nat) (s : State) : State :=
  let mine := s.wires.stateRequests.filter fun m => m.1 == ev
  let s1 := s.setWires fun w => { w with stateRequests := w.stateRequests.filter fun m => m.1 != ev }
  mine.foldl (fun t m => t.applyRequest ev m.2) s1

/-- An event slot becomes FREE (R96, R143). -/
def State.freeEvent (slot : Nat) (s : State) : State :=
  (s.setAssoc fun a => { a with events := a.events.set slot none }).askRewrite

/-! ### Part states (R86, R101) -/

/-- The pick list and the next pick number are made anew, and messages on their way are dropped (R86, R101; log 7). -/
def State.assocAnew (s : State) : State :=
  (s.setAssoc fun a => { a with picks := [], nextPick := 0 }).setWires fun w => { w with toAssoc := [] }

/-- A soft reset at the Associator (R101). -/
def State.assocSoftReset (s : State) : State :=
  let s1 := s.assocAnew.setAssoc fun a => { a with events := List.replicate 32 none, counter := 1 }
  let s2 := s1.setWires fun w => { w with stateRequests := [] }
  if s.eventsInUse = 0 then s2 else s2.askRewrite

end Sys2Proof.Machine
end

