-- ==== Sys2Proof/Machine/ReportRing.lean ====
section
/-! DEFINITION. The report ring: the record and its writer, freeing and reclaim (R138 to R149, R186). -/
namespace Sys2Proof.Machine

/-! ### The record (R186) -/

/-- Code of a time state (R183). -/
def TimeState.code : TimeState → Nat
  | .unset => 0
  | .aligning => 1
  | .locked => 2
  | .holdover => 3

/-- Code of a close reason (R186); an event that is not closed has none. -/
def reasonCode : Option CloseReason → Nat
  | some .window => 1
  | some .stop => 2
  | none => 0

/-- A flag at a bit position. -/
def bitIf (c : Bool) (i : Nat) : Nat := if c then 2 ^ i else 0

/-- A pick entry of a record (R186). -/
def PickCopy.bytes (c : PickCopy) : List Byte :=
  let f := bitIf c.pick.timeUnsure 0 + bitIf c.pick.desens 1
  match c.closure with
  | some k =>
    leBytes 1 c.pick.station ++ leBytes 1 (f + bitIf true 2 + bitIf k.cut 3) ++ leBytes 2 c.pick.peak ++ leBytes 6 c.pick.onset ++
      leBytes 6 k.endTime ++ leBytes 2 k.finalPeak
  | none => leBytes 1 c.pick.station ++ leBytes 1 f ++ leBytes 2 c.pick.peak ++ leBytes 6 c.pick.onset ++ zeros 8

/-- The record of an event at an index (R141, R186). -/
def recordBytes (index : Nat) (e : Event) : List Byte :=
  let units := e.clipUnits.getD (0, 0)
  leBytes 1 0xB4 ++ leBytes 1 e.zone ++ leBytes 1 (reasonCode e.reason) ++ leBytes 1 e.timeState.code ++ leBytes 1 e.picks.length ++
    zeros 1 ++ leBytes 2 index ++ leBytes 4 e.number ++ leBytes 2 e.peakMax ++ leBytes 2 e.clipFlags.toNat ++ leBytes 6 e.anchor ++
    leBytes 6 e.last ++ leBytes 6 e.declaredAt ++ leBytes 6 (e.closedAt.getD 0) ++ leBytes 4 units.1 ++ leBytes 2 units.2 ++ zeros 2 ++
    fit 432 (e.picks.map PickCopy.bytes).flatten ++ zeros 32

/-! ### Freeing (R114, R143) -/

/-- The number of clip units (R103). -/
def State.unitCount (s : State) : Nat := s.gen.clipSize / 512

/-- Sets the clip pointers; a change of either is announced to the Report Unit (R112). -/
def State.setPointers (a f : Nat) (s : State) : State :=
  if a = s.clip.allocPtr ∧ f = s.clip.freePtr then s
  else (s.setClip fun c => { c with allocPtr := a, freePtr := f }).askRewrite

/-- Gives a region back (R112, R114). -/
def State.freeRegion (r : Region) (s : State) : State :=
  let used := s.clip.used - (r.skip + r.units)
  let next := if r.first + r.units = s.unitCount then 0 else r.first + r.units
  let s1 := s.setClip fun c => { c with used := used }
  if used = 0 then s1.setPointers 0 0 else s1.setPointers s.clip.allocPtr next

/-- The Clip Unit is told that an event has been freed: its plan is dropped, and its region given back (R104, R114). -/
def State.dropPlan (slot : Nat) (s : State) : State :=
  let s1 := s.setClip fun c => { c with plans := c.plans.set slot none }
  match s.clip.plans[slot]? with
  | some (some p) =>
    match p.region with
    | some r => s1.freeRegion r
    | none => s1
  | some none => s1
  | none => s1

/-- The oldest outstanding record is freed, with its event and its clip (R143; log 6). -/
def State.freeRecord (s : State) : State :=
  match s.report.numbers with
  | ev :: rest =>
    let s1 := s.flushRequests ev
    let s2 := match s1.findEvent ev with
      | some (slot, _) => (s1.freeEvent slot).dropPlan slot
      | none => s1
    (s2.setReport fun r =>
      { r with numbers := rest, get := (r.get + 1) % s.gen.reportCap, occupancy := r.occupancy - 1 }).askRewrite
  | [] => s

/-- Frees records from get onward, oldest first (R143). -/
def State.freeRecords : Nat → State → State
  | 0, s => s
  | n + 1, s => s.freeRecord.freeRecords n

/-- Reclaims the oldest outstanding record (R146). -/
def State.reclaimOldest (s : State) : State := (s.freeRecord.count .reportsReclaimed).raise .reportReclaimed

/-! ### The record writer (R140) -/

/-- The writer takes the front event, reserves index put for it and forms its record (R140, R141). -/
def State.takeFront (s : State) : State :=
  match s.report.waitList with
  | ev :: rest =>
    match s.findEvent ev with
    | some (_, e) =>
      s.setReport fun r => { r with waitList := rest, writer := .writing ev r.put (recordBytes r.put e) false }
    | none => s.setReport fun r => { r with waitList := rest }
  | [] => s

/-- The record writer is IDLE. -/
def ReportRing.writerIdle (r : ReportRing) : Bool := r.writer == .idle

/-- The writer looks at the front of the list (R140). `freed` is what follows a reclaim in the same event before the writer takes the
event (R143). -/
def State.lookWith (freed : State → State) (s : State) : State :=
  if s.report.writerIdle && !s.report.waitList.isEmpty then
    if s.report.occupancy < s.gen.reportCap then s.takeFront
    else if s.attend.unattended then
      let t := freed s.reclaimOldest
      if t.report.writerIdle && decide (t.report.occupancy < t.gen.reportCap) then t.takeFront else t
    else s.raise .reportFull
  else s

/-- A COPIED event joins the wait list; the writer looks when the list was empty and the writer is IDLE (R140). No reclaim request is
held when the Clip Unit asks this. -/
def State.joinReport (ev : Nat) (s : State) : State :=
  let s1 := s.setReport fun r => { r with waitList := r.waitList ++ [ev] }
  if s.report.waitList.isEmpty then s1.lookWith id else s1

/-! ### The REPORT claimant (R141, R142) -/

/-- The write that the REPORT claimant offers: address and bytes (R141). -/
def State.reportOffer (s : State) : Option (Nat × List Byte) :=
  match s.report.writer with
  | .writing _ index record second =>
    some (s.gen.reportBase + 512 * index + (if second then 256 else 0), if second then record.drop 256 else record.take 256)
  | .idle => none

/-- The record becomes outstanding (R141). -/
def State.recordOutstanding (ev : Nat) (s : State) : State :=
  let s1 := (s.askState ev .reported).setReport fun r =>
    { r with
      put := (r.put + 1) % s.gen.reportCap, occupancy := r.occupancy + 1, numbers := r.numbers ++ [ev], writer := .idle }
  let s2 := (s1.count .reportsWritten).askRewrite
  let s3 := s2.setStatus fun w => { w with newRecords := w.newRecords + 1 }
  if s.gen.reportWatermark ≤ s1.report.occupancy then s3.raise .reportWatermark else s3

/-- REPORT_WRITE_COMPLETION (R142). -/
def execReportWriteCompletion (code : MemCode) (s : State) : Next :=
  match s.complete (· == .report) with
  | some (o, s1) => done (s1.writeCompleted o code)
  | none => nothing s

/-! ### Part states (R148) -/

/-- The ring state at zero (R148). -/
def State.reportAnew (s : State) : State := (s.setReport fun _ => .reset).askRewrite

/-- The Report Unit at a soft reset: the ring state at zero, and the completion of a record write already granted dropped (R136, R148). -/
def State.reportSoftReset (s : State) : State := s.reportAnew.dropOutstanding (· == .report)

end Sys2Proof.Machine
end

