-- ==== Sys2Proof/Machine/Copier.lean ====
section
/-! DEFINITION. The copy queue, the clip store ring and the copy job; and the Report Unit's answers to the copier's request for space
(R111 to R119, R140, R143 to R147, R187). -/
namespace Sys2Proof.Machine

/-! ### Selections (R104) -/

/-- The selection at a place among a plan's selections, with its station-clip and the station-clip's place, counted from `i`. -/
def selectionAt : Nat → Nat → List StationClip → Option (Nat × StationClip × Selection)
  | _, _, [] => none
  | i, k, c :: cs =>
    match c.sels[k]? with
    | some x => some (i, c, x)
    | none => selectionAt (i + 1) (k - c.sels.length) cs

/-- Changes the selection at a place among a plan's selections, and its station-clip. -/
def modifySelection (f : Selection → Selection) (g : StationClip → StationClip) : Nat → List StationClip → List StationClip
  | _, [] => []
  | k, c :: cs =>
    if k < c.sels.length then { g c with sels := c.sels.modify k f } :: cs
    else c :: modifySelection f g (k - c.sels.length) cs

/-- The number of selections of a plan. -/
def Plan.selectionCount (p : Plan) : Nat := (p.clips.map fun c => c.sels.length).sum

/-- The plan in a slot. -/
def State.plan (s : State) (slot : Nat) : Option Plan :=
  match s.clip.plans[slot]? with
  | some (some p) => some p
  | some none => none
  | none => none

/-- Changes the plan in a slot. -/
def State.setPlan (slot : Nat) (f : Plan → Plan) (s : State) : State :=
  s.setClip fun c => { c with plans := c.plans.modify slot (·.map f) }

/-- Sets the copier's state. -/
def State.setCopier (x : Copier) (s : State) : State := s.setClip fun c => { c with copier := x }

/-- A selection that is CUT, with its station-clip's cut count and flag (R106, R107, R115). -/
def Selection.makeCut (x : Selection) : Selection := { x with status := .cut }

/-- One more cut of a station-clip. -/
def StationClip.addCut (c : StationClip) : StationClip := { c with cutCount := c.cutCount + 1, flags := c.flags ||| flagCut }

/-- A station-clip with a flag set. -/
def StationClip.flag (f : BitVec 8) (c : StationClip) : StationClip := { c with flags := c.flags ||| f }

/-! ### Layouts (R187) -/

/-- The void header of a selection (R116, R187). -/
def voidHeader (event station : Nat) (x : Selection) (cut memerr : Bool) : List Byte :=
  leBytes 1 0xC3 ++ leBytes 1 station ++ leBytes 1 (bitIf cut 0 + bitIf memerr 1) ++ zeros 1 ++ leBytes 4 event ++ leBytes 2 x.slot ++
    leBytes 1 x.gen ++ leBytes 1 x.count ++ leBytes 6 x.first ++ zeros 14

/-- The directory entries of station-clips whose first selection goes to unit `u` (R118, R187). -/
def directoryEntries : Nat → List StationClip → List Byte
  | _, [] => []
  | u, c :: cs =>
    (match c.sels with
      | x :: _ =>
        leBytes 1 c.station ++ leBytes 1 c.flags.toNat ++ leBytes 1 c.cutCount ++ leBytes 1 c.sels.length ++ leBytes 4 u ++
          leBytes 6 x.first ++ zeros 2
      | [] => leBytes 1 c.station ++ leBytes 1 c.flags.toNat ++ leBytes 1 c.cutCount ++ zeros 13) ++
      directoryEntries (u + c.sels.length) cs

/-- The directory unit (R118, R187). -/
def directoryBytes (zone : Nat) (p : Plan) (r : Region) : List Byte :=
  leBytes 1 0x3C ++ leBytes 1 zone ++ leBytes 1 p.clips.length ++ zeros 1 ++ leBytes 4 p.event ++ leBytes 6 p.winStart ++
    leBytes 6 p.winEnd ++ leBytes 2 r.units ++ zeros 10 ++ fit 384 (directoryEntries (r.first + 1) p.clips) ++ zeros 96

/-! ### Units (R115, R116, R118) -/

/-- The address of the data unit of a selection (R115). -/
def State.unitAddr (s : State) (p : Plan) (k : Nat) : Nat :=
  match p.region with
  | some r => s.gen.clipBase + 512 * (r.first + 1 + k)
  | none => s.gen.clipBase

/-- The writes of 512 bytes in writes of `burst` beats (R115, R118). -/
def unitWrites (burst : Nat) (bs : List Byte) : List (List Byte) := chunksOf (8 * burst) (64 / burst) bs

/-- The copier enters DIRECTORY, and the directory unit is formed (R118). That it is formed whole at the entry, and not as its writes are
granted, is the model's choice (log 52). -/
def State.enterDirectory (slot : Nat) (s : State) : State :=
  match s.plan slot, s.assoc.events[slot]? with
  | some p, some (some e) =>
    match p.region with
    | some r =>
      s.setCopier (.directory slot (s.gen.clipBase + 512 * r.first) (unitWrites s.gen.copyBurst (directoryBytes e.zone p r)))
    | none => s
  | _, _ => s

/-- The copier writes a void unit for a selection (R116). -/
def State.writeVoid (slot k : Nat) (p : Plan) (c : StationClip) (x : Selection) (cut memerr : Bool) (s : State) : State :=
  s.setCopier (.unit slot k (.writing (s.unitAddr p k) [voidHeader p.event c.station x cut memerr]))

/-- The copier comes to the selection at place `k`, or to the end of the selections (R115, R118). -/
def State.comeTo (slot k : Nat) (s : State) : State :=
  match s.plan slot with
  | some p =>
    match selectionAt 0 k p.clips with
    | some (_, c, x) =>
      if x.status = .cut then s.writeVoid slot k p c x true false else s.setCopier (.unit slot k (.check s.gen.copyBurst))
    | none => s.enterDirectory slot
  | none => s

/-- Asks for the unpin of a selection that has been read; a cut has taken its pin already (R115, R116). -/
def State.unpinRead (x : Selection) (s : State) : State := if x.cutFlag then s else s.askPins [.unpin x.slot x.gen]

/-- The end of the reads of a selection (R115, R116). -/
def State.endReads (slot k burst : Nat) (data : List Byte) (memerr : Bool) (s : State) : State :=
  match s.plan slot with
  | some p =>
    match selectionAt 0 k p.clips with
    | some (_, c, x) =>
      if memerr then
        let status : SelStatus := if x.cutFlag then .cut else .memerr
        ((s.unpinRead x).setPlan slot fun q =>
          { q with clips := modifySelection (fun y => { y with status := status }) (StationClip.flag flagMemerr) k q.clips }).writeVoid
          slot k p c x x.cutFlag true
      else if x.cutFlag then
        (s.setPlan slot fun q => { q with clips := modifySelection Selection.makeCut id k q.clips }).writeVoid slot k p c x true false
      else
        ((s.unpinRead x).setPlan slot fun q =>
          { q with clips := modifySelection (fun y => { y with status := .copied }) id k q.clips }).setCopier
          (.unit slot k (.writing (s.unitAddr p k) (unitWrites burst data)))
    | none => s
  | none => s

/-- The cut flag of the selection at a place. -/
def State.cutFlagAt (slot k : Nat) (s : State) : Bool :=
  match s.plan slot with
  | some p =>
    match selectionAt 0 k p.clips with
    | some (_, _, x) => x.cutFlag
    | none => false
  | none => false

/-- Ends the reads when none is left to offer and none is outstanding (R115, R116). -/
def State.settleUnit (s : State) : State :=
  match s.clip.copier with
  | .unit slot k (.reading burst granted returned data errors) =>
    if (s.cutFlagAt slot k || errors != 0 || granted == 64 / burst) && returned == granted then s.endReads slot k burst data (errors != 0)
    else s
  | .unit _ _ (.check _) => s
  | .unit _ _ (.writing _ _) => s
  | .idle => s
  | .allocating _ => s
  | .directory _ _ _ => s

/-! ### Jobs (R111, R113, R114, R118) -/

/-- Asks of the Intake Unit to unpin every selection that is PINNED (R114). -/
def Plan.unpins (p : Plan) : List PinMsg :=
  (p.clips.map fun c => (c.sels.filter fun x => x.status == .pinned).map fun x => PinMsg.unpin x.slot x.gen).flatten

/-- A plan whose job has ended for lack of space (R114; log 18). -/
def Plan.withoutSpace (p : Plan) : Plan :=
  { p with
    clips := p.clips.map fun c =>
      { c with sels := c.sels.map fun x => if x.status = .pinned then { x with status := .copied } else x }
    flags := flagClipSpace }

/-- A job ends for lack of space (R114). -/
def State.endForLack (slot : Nat) (p : Plan) (s : State) : State :=
  let s1 := (s.askPins p.unpins).setPlan slot Plan.withoutSpace
  let s2 := s1.setEvent slot fun e => { e with clipFlags := flagClipSpace, clipUnits := some (0, 0) }
  let s3 := ((s2.raise .clipSpace).count .clipSpaceEvents).setCopier .idle
  ((s3.askState p.event .copying).askState p.event .copied).joinReport p.event

/-- The region is taken and the job goes on (R113, R115). -/
def State.takeRegion (slot : Nat) (p : Plan) (r : Region) (s : State) : State :=
  let next := if r.first + r.units = s.unitCount then 0 else r.first + r.units
  let s1 := (s.setPlan slot fun q => { q with region := some r }).setEvent slot fun e => { e with clipUnits := some (r.first, r.units) }
  let s2 := s1.setClip fun c => { c with used := c.used + r.skip + r.units, writesOut := 0, dirError := false }
  let s3 := (s2.setPointers next s2.clip.freePtr).askState p.event .copying
  (s3.announceRange r.first r.units).comeTo slot 0

/-- The region that a job of `n` units would take (R113, steps 2 and 3). -/
def State.regionFor (n : Nat) (s : State) : Region :=
  if s.clip.allocPtr + n ≤ s.unitCount then ⟨s.clip.allocPtr, n, 0⟩ else ⟨0, n, s.unitCount - s.clip.allocPtr⟩

/-- The allocation test (R113). -/
def State.allocate (slot : Nat) (s : State) : State :=
  match s.plan slot with
  | some p =>
    let n := 1 + p.selectionCount
    let r := s.regionFor n
    if s.unitCount < n then s.endForLack slot p
    else if r.skip + n ≤ s.unitCount - s.clip.used then s.takeRegion slot p r
    else if s.attend.unattended then (s.setCopier (.allocating slot)).setReport fun x => { x with reclaim := true }
    else s.endForLack slot p
  | none => s.setCopier .idle

/-- The IDLE copier begins at most `n` of the jobs that the queue holds, as long as it stays IDLE (R111). -/
def State.runQueue : Nat → State → State
  | 0, s => s
  | n + 1, s =>
    match s.clip.copier, s.clip.queue with
    | .idle, ev :: rest =>
      let s1 := s.setClip fun c => { c with queue := rest }
      match s1.findEvent ev with
      | some (slot, _) => (s1.allocate slot).runQueue n
      | none => s1.runQueue n
    | _, _ => s

/-- The IDLE copier begins the jobs that wait (R111): each job begun leaves the queue, so there are no more of them than it holds. -/
abbrev State.runJobs (s : State) : State := s.runQueue s.clip.queue.length

/-- Places an event in the copy queue (R111). -/
def State.enqueue (ev : Nat) (s : State) : State := (s.setClip fun c => { c with queue := c.queue ++ [ev] }).runJobs

/-- The union of the station-clips' flags (R104, R118). -/
def Plan.union (p : Plan) : BitVec 8 := p.clips.foldl (fun f c => f ||| c.flags) 0

/-- The job ends (R118). -/
def State.endJob (slot : Nat) (p : Plan) (s : State) : State :=
  let flags := p.union ||| flagIf s.clip.dirError flagMemerr
  let s1 := (s.setPlan slot fun q => { q with flags := flags }).setEvent slot fun e => { e with clipFlags := flags }
  let s2 := ((s1.askState p.event .copied).withdrawRange).setCopier .idle
  (s2.joinReport p.event).runJobs

/-! ### The COPIER claimant (R115) -/

/-- What the COPIER claimant offers. -/
inductive CopierOffer where
  | read (addr beats : Nat)
  | write (addr : Nat) (bytes : List Byte)
  deriving DecidableEq, Repr

/-- The request that the COPIER claimant offers (R115, R116, R118). -/
def State.copierOffer (s : State) : Option CopierOffer :=
  match s.clip.copier with
  | .unit slot k (.reading burst granted _ _ errors) =>
    if s.cutFlagAt slot k || errors != 0 || granted == 64 / burst then none
    else
      match s.plan slot with
      | some p =>
        match selectionAt 0 k p.clips with
        | some (_, _, x) => some (.read (s.gen.ringBase + 512 * x.slot + 8 * burst * granted) burst)
        | none => none
      | none => none
  | .unit _ _ (.writing addr (c :: _)) => some (.write addr c)
  | .unit _ _ (.writing _ []) => none
  | .unit _ _ (.check _) => none
  | .directory _ addr (c :: _) => some (.write addr c)
  | .directory _ _ [] => none
  | .idle => none
  | .allocating _ => none

/-- A write of the job is carried to memory. -/
def State.sendJobWrite (clip : Option Nat) (addr : Nat) (bytes : List Byte) (s : State) : State :=
  (s.setClip fun c => { c with writesOut := c.writesOut + 1 }).sendWrite (.copierWrite clip) addr bytes

/-- The place of the station-clip of a selection. -/
def State.clipPlaceOf (slot k : Nat) (s : State) : Option Nat :=
  match s.plan slot with
  | some p => (selectionAt 0 k p.clips).map (·.1)
  | none => none

/-- The grant of the COPIER claimant's request (R115, R118). -/
def State.grantCopier (s : State) : State :=
  match s.copierOffer with
  | some (.read addr beats) =>
    match s.clip.copier with
    | .unit slot k (.reading burst granted returned data errors) =>
      (s.setCopier (.unit slot k (.reading burst (granted + 1) returned data errors))).sendRead .copierRead addr beats
    | _ => s
  | some (.write addr bytes) =>
    match s.clip.copier with
    | .unit slot k (.writing _ chunks) =>
      let s1 := s.sendJobWrite (s.clipPlaceOf slot k) addr bytes
      match chunks.drop 1 with
      | c :: cs => s1.setCopier (.unit slot k (.writing (addr + bytes.length) (c :: cs)))
      | [] => s1.comeTo slot (k + 1)
    | .directory slot _ chunks => (s.sendJobWrite none addr bytes).setCopier (.directory slot (addr + bytes.length) (chunks.drop 1))
    | _ => s
  | none => s

/-! ### Slot check and completions (R115 to R117) -/

/-- A pin of the selection is still on its way to the Intake Unit (log 5). -/
def State.pinOnItsWay (p : Plan) (c : StationClip) (x : Selection) (s : State) : Bool :=
  s.wires.pins.any fun m => m == .pin p.event c.station x.slot x.gen

/-- The check of a slot (R115). -/
def State.checkPasses (x : Selection) (s : State) : Bool :=
  match s.slot x.slot with
  | some e => e.gen == x.gen && !e.cutMark
  | none => false

/-- The check of a selection is taken (R115). -/
def State.checkSelection (slot k burst : Nat) (p : Plan) (c : StationClip) (x : Selection) (s : State) : State :=
  if x.status = .cut then s.writeVoid slot k p c x true false
  else if s.checkPasses x then
    (s.setPlan slot fun q =>
      { q with clips := modifySelection (fun y => { y with status := .reading, cutFlag := false }) id k q.clips }).setCopier
      (.unit slot k (.reading burst 0 0 [] 0))
  else
    (s.setPlan slot fun q => { q with clips := modifySelection Selection.makeCut StationClip.addCut k q.clips }).writeVoid slot k p c x
      true false

/-- SLOT_CHECK (R115). -/
def execSlotCheck (s : State) : Next :=
  match s.clip.copier with
  | .unit slot k (.check burst) =>
    match s.plan slot with
    | some p =>
      match selectionAt 0 k p.clips with
      | some (_, c, x) => if s.pinOnItsWay p c x then nothing s else done (s.checkSelection slot k burst p c x)
      | none => nothing s
    | none => nothing s
  | .unit _ _ (.reading _ _ _ _ _) => nothing s
  | .unit _ _ (.writing _ _) => nothing s
  | .idle => nothing s
  | .allocating _ => nothing s
  | .directory _ _ _ => nothing s

/-- A returned read in the unit buffer (R115, R116). -/
def Copier.gotData (beats : Nat) (code : MemCode) (bytes : List Byte) : Copier → Copier
  | .unit slot k (.reading burst granted returned data errors) =>
    .unit slot k (.reading burst granted (returned + 1) (data ++ fit (8 * beats) bytes) (errors + if code = .memerr then 1 else 0))
  | c => c

/-- The MEMERRs returned to the reads of a unit and not yet counted. -/
def Copier.errors : Copier → Nat
  | .unit _ _ (.reading _ _ _ _ errors) => errors
  | .unit _ _ (.check _) => 0
  | .unit _ _ (.writing _ _) => 0
  | .idle => 0
  | .allocating _ => 0
  | .directory _ _ _ => 0

/-- Every granted read of the unit has returned. -/
def Copier.allReturned : Copier → Bool
  | .unit _ _ (.reading _ granted returned _ _) => returned == granted
  | .unit _ _ (.check _) => true
  | .unit _ _ (.writing _ _) => true
  | .idle => true
  | .allocating _ => true
  | .directory _ _ _ => true

/-- Counts the MEMERRs of the unit, once each (R116, R136). -/
def State.countUnitErrors (s : State) : State :=
  if s.clip.copier.errors = 0 then s else s.countBy .memoryErrors s.clip.copier.errors

/-- A read of the unit has returned (R115, R116): the MEMERRs of the unit are counted when its last granted read has. -/
def State.unitReadReturned (beats : Nat) (code : MemCode) (data : List Byte) (s : State) : State :=
  let s1 := s.setCopier (s.clip.copier.gotData beats code data)
  (if s1.clip.copier.allReturned then s1.countUnitErrors else s1).settleUnit

/-- COPIER_READ_COMPLETION (R116); a MEMERR of dropped work counts as it returns (log 14). -/
def execCopierReadCompletion (code : MemCode) (data : List Byte) (s : State) : Next :=
  match s.complete (· == .copierRead) with
  | some (o, s1) => done (if o.dropped then s1.countMemerr code else s1.unitReadReturned o.beats code data)
  | none => nothing s

/-- The slot of the plan that the copier works on. -/
def Copier.slot : Copier → Option Nat
  | .idle => none
  | .allocating p => some p
  | .unit p _ _ => some p
  | .directory p _ _ => some p

/-- A MEMERR returned to a write of the job (R117). -/
def State.flagWriteError (slot : Nat) (clip : Option Nat) (s : State) : State :=
  match clip with
  | some i => s.setPlan slot fun p => { p with clips := p.clips.modify i (StationClip.flag flagMemerr) }
  | none => s.setClip fun c => { c with dirError := true }

/-- The last completion of the job ends it (R118). -/
def State.settleJob (s : State) : State :=
  match s.clip.copier with
  | .directory slot _ [] =>
    if s.clip.writesOut = 0 then
      match s.plan slot with
      | some p => s.endJob slot p
      | none => s
    else s
  | .directory _ _ (_ :: _) => s
  | .idle => s
  | .allocating _ => s
  | .unit _ _ _ => s

/-- The owner is a write of the copy job. -/
def Owner.isCopierWrite : Owner → Option (Option Nat)
  | .copierWrite c => some c
  | _ => none

/-- COPIER_WRITE_COMPLETION (R117, R118). -/
def execCopierWriteCompletion (code : MemCode) (s : State) : Next :=
  match s.complete fun o => o.isCopierWrite.isSome with
  | some (o, s1) =>
    let s2 := s1.writeCompleted o code
    if o.dropped then done s2
    else
      let s3 := s2.setClip fun c => { c with writesOut := c.writesOut - 1 }
      let s4 := match code, s3.clip.copier.slot, o.owner.isCopierWrite with
        | .memerr, some slot, some clip => s3.flagWriteError slot clip
        | _, _, _ => s3
      done s4.settleJob
  | none => nothing s

/-! ### The Report Unit and the copier (R140, R143, R144, R147) -/

/-- The copier is answered that space was freed (R113, R143, R147). -/
def State.answerFreed (s : State) : State :=
  if s.report.reclaim then
    let s1 := s.setReport fun r => { r with reclaim := false }
    match s1.clip.copier with
    | .allocating slot => (s1.allocate slot).runJobs
    | .idle => s1
    | .unit _ _ _ => s1
    | .directory _ _ _ => s1
  else s

/-- The copier is answered that no record is outstanding (R147). -/
def State.answerNone (s : State) : State :=
  let s1 := s.setReport fun r => { r with reclaim := false }
  match s1.clip.copier with
  | .allocating slot =>
    match s1.plan slot with
    | some p => (s1.endForLack slot p).runJobs
    | none => s1
  | .idle => s1
  | .unit _ _ _ => s1
  | .directory _ _ _ => s1

/-- The writer looks at the front of the list (R140); a reclaim it makes answers the copier's request first (R143). -/
def State.writerLook (s : State) : State := s.lookWith State.answerFreed

/-- The grant of the REPORT claimant's write (R141). -/
def State.grantReport (s : State) : State :=
  match s.reportOffer, s.report.writer with
  | some (addr, bytes), .writing ev index record second =>
    let s1 := s.sendWrite .report addr bytes
    if second then (s1.recordOutstanding ev).writerLook
    else s1.setReport fun r => { r with writer := .writing ev index record true }
  | _, _ => s

/-- The ack names an outstanding record (R144). -/
def State.ackNames (index : Nat) (s : State) : Bool :=
  decide (index < s.gen.reportCap) && decide ((index + s.gen.reportCap - s.report.get) % s.gen.reportCap < s.report.occupancy)

/-- The ack word taken by the Report Unit (R143 to R145); before the first LOAD it changes nothing. -/
def State.takeAck (index : Nat) (s : State) : State :=
  if s.loaded = false then s
  else if s.ackNames index then
    (s.freeRecords ((index + s.gen.reportCap - s.report.get) % s.gen.reportCap + 1)).answerFreed.writerLook
  else (s.count .badAcks).raise .badAck

/-- ACK_WORD (R144). -/
def execAckWord (index : BitVec 16) (s : State) : Next := done (s.takeAck index.toNat)

/-- RECLAIM_REQUEST (R147): the request held is taken. -/
def execReclaimRequest (s : State) : Next :=
  if s.report.reclaim = false then nothing s
  else if s.report.occupancy = 0 then done s.answerNone
  else done s.reclaimOldest.answerFreed.writerLook

/-- UNATTENDED_AT_REPORT_UNIT (R177; log 50). -/
def execUnattendedAtReportUnit (s : State) : Next :=
  if s.wires.unattReport = 0 then nothing s
  else done (s.setWires fun w => { w with unattReport := w.unattReport - 1 }).writerLook

/-! ### Cuts (R107) -/

/-- The effect of a cut announcement on a station-clip (R107; log 25). -/
def StationClip.cutBy (slot gen : Nat) (c : StationClip) : StationClip :=
  let hit := fun (x : Selection) => x.slot == slot && x.gen == gen && (x.status == .pinned || x.status == .reading)
  let n := (c.sels.filter hit).length
  if n = 0 then c
  else
    { c with
      cutCount := c.cutCount + n
      flags := c.flags ||| flagCut
      sels := c.sels.map fun x =>
        if hit x then (if x.status = .reading then { x with cutFlag := true } else x.makeCut) else x }

/-- SLOT_CUT_ANNOUNCEMENT (R107, R116): the slot's oldest announcement is taken. -/
def execSlotCutAnnouncement (slot : Nat) (s : State) : Next :=
  match takeFirst (fun m => m.1 == slot) s.wires.cutNotes with
  | some ((n, gen), rest) =>
    let s1 := s.setWires fun w => { w with cutNotes := rest }
    done (s1.setClip fun c =>
      { c with plans := c.plans.map fun o => o.map fun p => { p with clips := p.clips.map (StationClip.cutBy n gen) } }).settleUnit
  | none => nothing s

/-! ### Part states (R112, R120) -/

/-- The clip store ring emptied, no plan, no job (R112, R120). -/
def State.clipAnew (s : State) : State :=
  let s1 := s.dropOutstanding fun o => o == .copierRead || o.isCopierWrite.isSome
  let s2 := (s1.setClip fun _ => .reset).setWires fun w => { w with clipStop := false }
  if s.clip.allocPtr = 0 ∧ s.clip.freePtr = 0 then s2 else s2.askRewrite

end Sys2Proof.Machine
end

