-- ==== Sys2Proof/Machine/Detector.lean ====
section
/-! DEFINITION. The Station Engine: the arithmetic of a sample, the detector's states, picks and closures, silence, and the changes of
`enabled` and of part state (R41 to R64). -/
namespace Sys2Proof.Machine

/-! ### Averages (R45, R46) -/

/-- The greatest energy (R45). -/
abbrev maxEnergy : Nat := 18446744073709551615

/-- The centred value of a sample: the value less the integer part of the mean, rounded toward zero (R45). -/
def centred (mean : Option Int) (v : Int) : Int :=
  match mean with
  | some m => v - m.tdiv 256
  | none => 0

/-- A mean after a sample (R45). -/
def moveMean (mean : Option Int) (v : Int) : Int :=
  match mean with
  | some m => m + (256 * v - m).tdiv 256
  | none => 256 * v

/-- The energy of a sample, held at 2^64 - 1 (R45). -/
def energy (means : List (Option Int)) (vs : List Int) : Nat :=
  min ((means.zip vs).foldl (fun a p => a + (centred p.1 p.2).natAbs * (centred p.1 p.2).natAbs) 0) maxEnergy

/-- The means after a sample; one for which the sample has no component stands (R45). -/
def moveMeans : List (Option Int) → List Int → List (Option Int)
  | m :: ms, v :: vs => some (moveMean m v) :: moveMeans ms vs
  | ms, [] => ms
  | [], _ :: _ => []

/-- An average with 16 fraction bits moved by 2^-k of its difference from an energy, rounded toward negative infinity (R46). -/
def moveAverage (k e a : Nat) : Nat := (a * 2 ^ k + e * 65536 - a) / 2 ^ k

/-- The warm-up exponent of a warm-up count (R46). -/
def warmExp (w : Nat) : Nat := Nat.log2 (max w 1)

/-- A sample outside ONSET and TRIGGERED moves the means and both averages and advances the warm-up count (R45, R46). -/
def Detector.moveAll (t : Tuning) (vs : List Int) (d : Detector) : Detector :=
  let e := energy d.means vs
  let w := min (d.warmUp + 1) 32768
  { d with
    means := moveMeans d.means vs
    short := moveAverage (min t.shortExp (warmExp w)) e d.short
    long := moveAverage (min t.longExp (warmExp w)) e d.long
    warmUp := w }

/-- A sample in ONSET or TRIGGERED moves the means and the short average alone (R46; log 26). -/
def Detector.moveShort (t : Tuning) (vs : List Int) (d : Detector) : Detector :=
  { d with
    means := moveMeans d.means vs
    short := moveAverage (min t.shortExp (warmExp d.warmUp)) (energy d.means vs) d.short }

/-! ### Tests (R47, R48) -/

/-- The long average taken as at least 1.0 (R47). -/
def Detector.longFloor (d : Detector) : Nat := max d.long 65536

/-- The ratio of a sample (R47). -/
def Detector.ratio (d : Detector) : Nat := min (16 * d.short / d.longFloor) 65535

/-- The trigger test, with the sample's desensitise factor (R47). -/
def Detector.triggers (t : Tuning) (factor : Nat) (d : Detector) : Bool :=
  decide (t.onRatio * factor * d.longFloor ≤ 16 * d.short)

/-- The off test finds the ratio below off (R47). -/
def Detector.belowOff (t : Tuning) (d : Detector) : Bool := decide (16 * d.short < t.offRatio * d.longFloor)

/-- An interval applies to a sample of a group at a time (R48). -/
def Interval.applies (group time : Nat) (v : Interval) : Bool :=
  v.mask.getLsbD group && decide (v.beginT ≤ time) &&
    (match v.endT with
      | some t => decide (time < t)
      | none => true)

/-- A MUTE interval applies (R48). -/
def mutedAt (vs : List Interval) (group time : Nat) : Bool := vs.any fun v => v.kind == .mute && v.applies group time

/-- The desensitise factor of an interval. -/
def Interval.factor (v : Interval) : Nat :=
  match v.kind with
  | .mute => 1
  | .desens f => f

/-- The desensitise factor of a sample (R48). -/
def factorAt (vs : List Interval) (group time : Nat) : Nat :=
  (vs.filter fun v => v.applies group time).foldl (fun f v => max f v.factor) 1

/-! ### The transitions of a sample (R50 to R56) -/

/-- A detector with what it has sent and counted since the block was taken. -/
structure Run where
  det         : Detector
  sent        : List AssocMsg
  falseOnsets : Nat
  maxOnCuts   : Nat
  deriving DecidableEq, Repr

/-- What a sample brings: the station, its entry in force, the sample's time, its header's TIME_UNSURE, whether it is muted and its
desensitise factor. -/
structure Sample where
  station    : Nat
  entry      : StationEntry
  time       : Nat
  timeUnsure : Bool
  muted      : Bool
  factor     : Nat
  values     : List Int
  deriving DecidableEq, Repr

/-- The detector goes to a state with state count 0 and no open pick. -/
def Detector.goTo (x : DetState) (d : Detector) : Detector := { d with state := x, count := 0, openPick := none }

/-- The closure of an open pick (R58). -/
def OpenPick.close (p : OpenPick) (st : Nat) (cut : Bool) (endTime : Nat) : AssocMsg := .closure st p.onset ⟨cut, endTime, p.peak⟩

/-- The state after a pick ended, or cut by a mute (R54, R55). -/
def StationEntry.afterPick (e : StationEntry) : DetState := if e.tuning.deadTime = 0 then .listening else .deadtime

/-- Confirms the onset when the state count is at least `min_on` (R53, R57). -/
def Run.confirm (x : Sample) (p : OpenPick) (r : Run) : Run :=
  if x.entry.tuning.minOn ≤ r.det.count then
    { r with
      det := { r.det with state := .triggered, openPick := some { p with confirmed := some p.peak } }
      sent := r.sent ++ [.pick ⟨x.station, p.onset, p.peak, p.timeUnsure, p.desens⟩] }
  else r

/-- A sample in SETTLING (R51). -/
def Run.settling (x : Sample) (r : Run) : Run :=
  let d := r.det.moveAll x.entry.tuning x.values
  if 2 ^ x.entry.tuning.longExp ≤ d.count + 1 then { r with det := d.goTo .listening } else { r with det := { d with count := d.count + 1 } }

/-- A sample in LISTENING (R52). -/
def Run.listening (x : Sample) (r : Run) : Run :=
  let d := r.det.moveAll x.entry.tuning x.values
  if d.triggers x.entry.tuning x.factor ∧ x.muted = false then
    let p : OpenPick := ⟨x.time, d.ratio, none, x.timeUnsure, decide (1 < x.factor)⟩
    Run.confirm x p { r with det := { d with state := .onset, count := 1, openPick := some p } }
  else { r with det := d }

/-- A sample in ONSET (R53). -/
def Run.onset (x : Sample) (p : OpenPick) (r : Run) : Run :=
  let d := r.det.moveShort x.entry.tuning x.values
  if x.muted ∨ d.belowOff x.entry.tuning then { r with det := d.goTo .listening, falseOnsets := r.falseOnsets + 1 }
  else
    let p1 := { p with peak := max p.peak d.ratio }
    Run.confirm x p1 { r with det := { d with count := d.count + 1, openPick := some p1 } }

/-- A sample in TRIGGERED (R54, R55). -/
def Run.triggered (x : Sample) (p : OpenPick) (r : Run) : Run :=
  let d := r.det.moveShort x.entry.tuning x.values
  if x.muted then { r with det := d.goTo x.entry.afterPick, sent := r.sent ++ [p.close x.station true x.time] }
  else if d.belowOff x.entry.tuning then
    { r with det := d.goTo x.entry.afterPick, sent := r.sent ++ [p.close x.station false x.time] }
  else
    let p1 := { p with peak := max p.peak d.ratio }
    if x.entry.tuning.maxOn * x.entry.sampleRate ≤ d.count + 1 then
      { r with det := d.goTo .settling, sent := r.sent ++ [p1.close x.station true x.time], maxOnCuts := r.maxOnCuts + 1 }
    else { r with det := { d with count := d.count + 1, openPick := some p1 } }

/-- A sample in DEADTIME (R56). -/
def Run.deadtime (x : Sample) (r : Run) : Run :=
  let d := r.det.moveAll x.entry.tuning x.values
  if x.entry.tuning.deadTime ≤ d.count + 1 then { r with det := d.goTo .listening } else { r with det := { d with count := d.count + 1 } }

/-- One sample, in the state it finds (R49). -/
def Run.sample (x : Sample) (r : Run) : Run :=
  match r.det.state, r.det.openPick with
  | .off, _ => r
  | .settling, _ => r.settling x
  | .listening, _ => r.listening x
  | .onset, some p => r.onset x p
  | .onset, none => r
  | .triggered, some p => r.triggered x p
  | .triggered, none => r
  | .deadtime, _ => r.deadtime x

/-! ### Gaps (R59) -/

/-- The averages reset (R46). -/
def Detector.resetAverages (d : Detector) : Detector := { d with short := 0, long := 0, warmUp := 0 }

/-- The closure CUT of a pick at the next sample time (R58, R59, R63, R64). -/
def Detector.cutClosure (st : Nat) (d : Detector) : List AssocMsg :=
  match d.state, d.openPick with
  | .triggered, some p => [p.close st true (d.nextTime.getD p.onset)]
  | _, _ => []

/-- A gap (R59). -/
def Detector.gap (d : Detector) : Detector := if d.state = .off then d else d.resetAverages.goTo .settling

/-! ### Taking a block (R43, R49, R50) -/

/-- Nothing stands in the staged copy (R42). -/
def StagedTuning.isEmpty (t : StagedTuning) : Bool := t == StagedTuning.empty

/-- The candidate set (R43). -/
def StagedTuning.candidate (g : StagedTuning) (t : Tuning) : Tuning :=
  { shortExp := g.shortExp.getD t.shortExp, longExp := g.longExp.getD t.longExp, onRatio := g.onRatio.getD t.onRatio,
    offRatio := g.offRatio.getD t.offRatio, minOn := g.minOn.getD t.minOn, deadTime := g.deadTime.getD t.deadTime,
    maxOn := g.maxOn.getD t.maxOn }

/-- Changes the detector record of a station. -/
def State.setDetector (st : Nat) (f : Detector → Detector) (s : State) : State := s.setEngine fun ds => ds.modify st f

/-- The staged fields take effect or are discarded (R43). -/
def State.takeStaged (st : Nat) (s : State) : State :=
  match s.engine[st]?, s.station st with
  | some d, some e =>
    if d.staged.isEmpty then s
    else
      let s1 := s.setDetector st fun x => { x with staged := .empty }
      let c := d.staged.candidate e.tuning
      if c.ok then s1.setStation st fun x => { x with tuning := c } else s1.setupIgnored
  | _, _ => s

/-- The samples of a body, one list of component values each (R180). -/
def samplesOf (components : Nat) : Nat → List Byte → List (List Int)
  | 0, _ => []
  | n + 1, body => ((chunksOf 4 components body).map signed32) :: samplesOf components n (body.drop (4 * components))

/-- The samples of a block with what each brings, from index `i` (R48). -/
def sampleRun (vs : List Interval) (e : StationEntry) (b : Block) : Nat → List (List Int) → List Sample
  | _, [] => []
  | i, v :: rest =>
    let t := sampleTime (b.first + i * e.period)
    ⟨b.station, e, t, b.timeUnsure, mutedAt vs e.noiseGroup t, factorAt vs e.noiseGroup t, v⟩ :: sampleRun vs e b (i + 1) rest

/-- Counts the picks sent (R57). -/
def countPicks (st : Nat) (ms : List AssocMsg) (s : State) : State :=
  ms.foldl (fun t m =>
    match m with
    | .pick _ => (t.count .picks).countStation st fun x => { x with picks := saturate 1 x.picks }
    | .closure _ _ _ => t) s

/-- The detector before the samples: made anew at the first block after enable, or the gap handled (R49, steps 2 and 3). -/
def startRun (st : Nat) (brk : Bool) (d : Detector) : Run :=
  if d.startPending then
    ⟨{ Detector.fresh with state := .settling, silence := d.silence, silent := d.silent, staged := d.staged }, [], 0, 0⟩
  else if brk then ⟨d.gap, d.cutClosure st, 0, 0⟩
  else ⟨d, [], 0, 0⟩

/-- The samples of a block go through a detector (R49, steps 4 and 5); in OFF they are discarded (R50). -/
def Run.block (vs : List Interval) (e : StationEntry) (b : Block) (r : Run) : Run :=
  if r.det.state = .off then r
  else
    let r1 := (sampleRun vs e b 0 (samplesOf e.components b.count b.body)).foldl (fun x smp => x.sample smp) r
    { r1 with det := { r1.det with nextTime := some (sampleTime (b.first + b.count * e.period)) } }

/-- The Station Engine takes a block (R49). -/
def State.detect (st : Nat) (b : Block) (brk : Bool) (s : State) : State :=
  let s1 := s.takeStaged st
  match s1.engine[st]?, s1.station st with
  | some d, some e =>
    let r := Run.block s1.sched.intervals e b (startRun st brk d)
    let s2 := (s1.setDetector st fun _ => r.det).sendAssoc r.sent
    ((countPicks st r.sent s2).countBy .falseOnsets r.falseOnsets).countBy .maxOnCuts r.maxOnCuts
  | _, _ => s1

/-- BLOCK_HANDOFF (R49): the Station Engine takes the block offered at the head of the station's order. -/
def execBlockHandoff (st : Nat) (s : State) : Next :=
  match s.takeOffered st with
  | some (b, brk, s1) => done (s1.detect st b brk)
  | none => nothing s

/-! ### Silence (R62, R63) -/

/-- SILENCE_DEADLINE (R63). -/
def execSilenceDeadline (st : Nat) (s : State) : Next :=
  match s.engine[st]? with
  | some d =>
    if reached s.now d.silence then
      let s1 := (s.setDetector st fun x => { x.gap with silence := none, silent := true }).sendAssoc (d.cutClosure st)
      done ((s1.raise .stationSilent).forgetExpected st)
    else nothing s
  | none => nothing s

/-! ### Enable and disable (R60, R61) -/

/-- The closure CUT of a pick at a disable (R60). -/
def Detector.disableClosure (st : Nat) (d : Detector) : List AssocMsg :=
  match d.state, d.openPick with
  | .triggered, some p => [p.close st true (if d.count ≤ 1 then p.onset else d.nextTime.getD p.onset)]
  | _, _ => []

/-- `enabled` changed to 0 (R60; log 43 for the counts, log 44 for a part that is not LISTENING). -/
def State.disable (st : Nat) (s : State) : State :=
  let s1 := s.setStation st fun e => { e with enabled := false }
  if s.control.part = .listening then
    match s.engine[st]? with
    | some d =>
      (s1.setDetector st fun x => { x with state := .off, openPick := none, startPending := false, silence := none, silent := false })
        |>.sendAssoc (d.disableClosure st)
    | none => s1
  else s1

/-- The field time of a silence deadline set now (R62). -/
def State.silenceAt (s : State) : Nat := deadline s.now (s.gen.silenceLimit * 1000000)

/-- `enabled` changed to 1 (R61). -/
def State.enable (st : Nat) (s : State) : State :=
  let s1 := s.setStation st fun e => { e with enabled := true }
  if s.control.part = .listening then
    s1.setDetector st fun x => { x with startPending := true, silence := some s.silenceAt }
  else s1

/-! ### Part states (R44, R64) -/

/-- A record made anew as OFF, its staged copy kept. -/
def Detector.anew (d : Detector) : Detector := { Detector.fresh with staged := d.staged }

/-- START at a station's detector (R44, R64). -/
def Detector.start (silence : Nat) (enabled : Bool) (d : Detector) : Detector :=
  if enabled then { d.anew with state := .settling, silence := some silence } else d.anew

/-- START at every detector (R64). -/
def State.engineStart (s : State) : State :=
  s.setEngine fun ds => ds.mapIdx fun st d =>
    d.start s.silenceAt (match s.station st with
      | some e => e.enabled
      | none => false)

/-- STOP at a station's detector (R64). -/
def Detector.stop (d : Detector) : Detector := { d.goTo .off with startPending := false, silence := none }

/-- The closures sent at STOP, in station order (R64). -/
def stopClosures (ds : List Detector) : List AssocMsg := (ds.mapIdx fun st d => d.cutClosure st).flatten

/-- STOP at every detector (R64): the closures are on their way. -/
def State.engineStop (s : State) : State := (s.setEngine fun ds => ds.map Detector.stop).sendAssoc (stopClosures s.engine)

/-- A soft reset at every detector (R64). -/
def State.engineSoftReset (s : State) : State := s.setEngine fun ds => ds.map Detector.anew

/-- A LOAD that succeeds, at every detector (R64). -/
def State.engineLoad (s : State) : State := s.setEngine fun ds => ds.map fun _ => Detector.fresh

end Sys2Proof.Machine
end

