-- ==== Sys2Proof/Machine/Schedule.lean ====
section
/-! DEFINITION. The Schedule Unit: bank validity, the cycle, the mute interval list (R65 to R83). -/
namespace Sys2Proof.Machine

/-! ### Access -/

/-- Changes the schedule state; a change is told to the Report Unit (R83). -/
def State.setSchedState (x : SchedState) (s : State) : State :=
  if x = s.sched.state then s else (s.setSched fun c => { c with state := x }).askRewrite

/-- The effective copy of a bank. -/
def Schedule.bank (c : Schedule) : BankName → List BankEntry
  | .a => c.bankA
  | .b => c.bankB

/-- The entries of the active bank. -/
def Schedule.entries (c : Schedule) : List BankEntry :=
  match c.active with
  | some n => c.bank n
  | none => []

/-! ### Bank entries (R67, R185) -/

abbrev actEnd : Nat := 0
abbrev actMuteOn : Nat := 1
abbrev actMuteOff : Nat := 2
abbrev actDesensOn : Nat := 3
abbrev actDesensOff : Nat := 4
abbrev actWatch : Nat := 5

/-- The cycle code is well formed (R68, condition 1). -/
def BankEntry.codeOk (e : BankEntry) : Bool := [1, 2, 4, 8, 16, 32, 64].contains e.rep && decide (e.first < e.rep)

/-- The desensitise factors (R67). -/
def factorOk (f : Nat) : Bool := decide (f = 2 ∨ f = 4 ∨ f = 8)

/-- The entry matches a cycle count (R67). -/
def BankEntry.matchesCycle (e : BankEntry) (count : Nat) : Bool := decide (count % e.rep = e.first)

/-- Two entries share a matching cycle; a WATCH matches every cycle (R68, condition 4). -/
def BankEntry.sharesCycle (e f : BankEntry) : Bool :=
  if e.action = actWatch ∨ f.action = actWatch then true
  else if e.rep ≤ f.rep then decide (f.first % e.rep = e.first)
  else decide (e.first % f.rep = f.first)

/-! ### Validity (R68) -/

/-- A used entry breaks one of conditions 1 to 4, measured against the entries before it. -/
def usedEntryBad (before : List BankEntry) (e : BankEntry) : Bool :=
  decide (actWatch < e.action) || (e.action != actWatch && !e.codeOk) || (e.action == actDesensOn && !factorOk e.factor) ||
    before.any (fun b => decide (e.mark < b.mark)) || before.any (fun b => b.mark == e.mark && b.sharesCycle e)

/-- The bank is found not valid at entry `i` (R68, R156): a missing WATCH is found at the first END, or at entry 47. -/
def entryBad (bank : List BankEntry) (i : Nat) : Bool :=
  let before := bank.take i
  match bank[i]? with
  | some e =>
    if e.action = actEnd then !before.any (fun b => b.action == actEnd) && !before.any (fun b => b.action == actWatch)
    else before.any (fun b => b.action == actEnd) || usedEntryBad before e ||
      (i == 47 && !(before ++ [e]).any (fun b => b.action == actWatch))
  | none => false

/-- The first entry at which a bank is found not valid (R156). -/
def firstBadEntry (bank : List BankEntry) : Option Nat := (List.range 48).find? (entryBad bank)

/-- A bank is valid (R68). -/
def bankValid (bank : List BankEntry) : Bool := (firstBadEntry bank).isNone

/-! ### The mute interval list (R78 to R82) -/

/-- Two kinds are one kind, whatever the factor (R78). -/
def MuteKind.same : MuteKind → MuteKind → Bool
  | .mute, .mute => true
  | .desens _, .desens _ => true
  | .mute, .desens _ => false
  | .desens _, .mute => false

/-- The interval is open. -/
def Interval.isOpen (v : Interval) : Bool := v.endT.isNone

/-- The earliest end time of the closed intervals of a list. -/
def earliestEnd : List Interval → Option Nat
  | [] => none
  | v :: vs =>
    match v.endT, earliestEnd vs with
    | some t, some u => some (min t u)
    | some t, none => some t
    | none, r => r

/-- Makes room in a full list: the closed interval with the earliest end time is removed, of several the one earliest in the list
(R79). -/
def makeRoom (vs : List Interval) : List Interval :=
  if vs.length < 16 then vs
  else
    match earliestEnd vs with
    | some t => vs.eraseP fun v => v.endT == some t
    | none => vs

/-- Places a new open interval after every interval whose begin time is at or before its own (R79). -/
def placeInterval (mask : BitVec 8) (kind : MuteKind) (t : Nat) (vs : List Interval) : List Interval :=
  insertBefore (fun v => decide (t < v.beginT)) ⟨mask, kind, t, none⟩ (makeRoom vs)

/-- The groups for which an interval of a kind is open. -/
def openGroups (kind : MuteKind) (vs : List Interval) : BitVec 8 :=
  (vs.filter fun v => v.isOpen && v.kind.same kind).foldl (fun m v => m ||| v.mask) 0

/-- An ON entry that acts at field time `t` (R79). -/
def openInterval (mask : BitVec 8) (kind : MuteKind) (t : Nat) (vs : List Interval) : List Interval :=
  let rest := mask &&& ~~~ openGroups kind vs
  if rest = 0 then vs else placeInterval rest kind t vs

/-- The interval is open, of the kind, and meets the mask (R80). -/
def Interval.meets (mask : BitVec 8) (kind : MuteKind) (v : Interval) : Bool :=
  v.isOpen && v.kind.same kind && decide (v.mask &&& mask ≠ 0)

/-- An OFF entry that acts at field time `t` (R80): each interval met is closed, and groups outside the mask go on in a new one. Where one OFF
makes several new ones, they are placed in the list order of the intervals they come from (log 47). -/
def closeInterval (mask : BitVec 8) (kind : MuteKind) (t : Nat) (vs : List Interval) : List Interval :=
  let split := vs.filter fun v => v.meets mask kind && decide (v.mask &&& ~~~ mask ≠ 0)
  let closed := vs.map fun v => if v.meets mask kind then { v with endT := some t } else v
  split.foldl (fun us v => placeInterval (v.mask &&& ~~~ mask) v.kind t us) closed

/-- Closes every open interval (R81). -/
def closeAll (t : Nat) (vs : List Interval) : List Interval :=
  vs.map fun v => if v.isOpen then { v with endT := some t } else v

/-- Removes the closed intervals that ended before the horizon less the kept span (R82). -/
def removeOld (horizon span : Nat) (vs : List Interval) : List Interval :=
  if horizon < span then vs
  else vs.filter fun v =>
    match v.endT with
    | some t => decide (horizon - span ≤ t)
    | none => true

/-! ### Taking entries (R76) -/

/-- The effect of an entry that acts at field time `t` on the list (R76). -/
def BankEntry.act (e : BankEntry) (t : Nat) (vs : List Interval) : List Interval :=
  if e.action = actMuteOn then openInterval e.mask .mute t vs
  else if e.action = actMuteOff then closeInterval e.mask .mute t vs
  else if e.action = actDesensOn then openInterval e.mask (.desens e.factor) t vs
  else if e.action = actDesensOff then closeInterval e.mask (.desens e.factor) t vs
  else vs

/-- Takes entries from entry `i`, at most `fuel` of them (R76): a mark already reached acts at once (log 27), and a WATCH waits for its
deadline (R77). A mark deadline is set from the recorded cycle start, which no step of field time moves: after a step within the cycle the
entries whose deadlines are set later act that much short of their marks of running field time (log 51). -/
def takeEntries (now start count : Nat) (entries : List BankEntry) : Nat → Nat → Schedule → Schedule
  | 0, i, c => { c with pointer := some (.stopped i), markDeadline := none }
  | fuel + 1, i, c =>
    match entries[i]? with
    | some e =>
      let d := deadline start (e.mark * 100)
      if e.action = actEnd then { c with pointer := some (.stopped i), markDeadline := none }
      else if e.action = actWatch then { c with pointer := some (.on i), markDeadline := some d }
      else if ¬ e.matchesCycle count then takeEntries now start count entries fuel (i + 1) c
      else if d ≤ now then takeEntries now start count entries fuel (i + 1) { c with intervals := e.act now c.intervals }
      else { c with pointer := some (.on i), markDeadline := some d }
    | none => { c with pointer := some (.stopped i), markDeadline := none }

/-- Takes the entries of the active bank from entry `i` in the present cycle. -/
def State.takeFrom (i : Nat) (s : State) : State :=
  s.setSched fun c => takeEntries s.now (c.cycleStart.getD 0) (c.cycleCount.getD 0) c.entries 49 i c

/-! ### Cycle starts (R74, R75) -/

/-- The staged period is taken or discarded (R66, R74). -/
def State.takeStagedPeriod (s : State) : State :=
  match s.sched.stagedPeriod with
  | some p =>
    let s1 := s.setSched fun c => { c with stagedPeriod := none }
    if 100 ≤ p ∧ p ≤ 65535 then s1.setSched fun c => { c with period := some p } else s1.setupIgnored
  | none => s

/-- The staged `active_bank` is taken (R66, R75). -/
def State.takeStagedBank (s : State) : State :=
  match s.sched.stagedBank with
  | some b =>
    let s1 := s.setSched fun c => { c with stagedBank := none }
    match bankOfByte b with
    | none => s1.setupIgnored
    | some n =>
      if s.sched.active = some n then s1
      else if bankValid (s.sched.bank n) then (s1.setSched fun c => { c with active := some n }).askRewrite
      else s1.raise .scheduleFault
  | none => s

/-- The cycle count after the present one (R74). -/
def State.nextCount (s : State) : Nat :=
  match s.sched.cycleCount with
  | some n => if n < s.gen.cycleMax then n + 1 else 0
  | none => 0

/-- Sets the internal timer from a field time when `ref_source` is INTERNAL (R73). -/
def State.startTimer (t : Nat) (s : State) : State :=
  if s.gen.refSource = .internal then
    s.setSched fun c => { c with timer := some (deadline t (c.period.getD 0 * 100)) }
  else s

/-- A cycle start at the present field time (R74). -/
def State.cycleStart (s : State) : State :=
  let t := s.now
  let s1 := (s.setSched fun c => { c with intervals := closeAll t c.intervals }).takeStagedPeriod.takeStagedBank
  let s2 := s1.setSched fun c => { c with cycleCount := some s1.nextCount, cycleStart := some t }
  (s2.takeFrom 0).startTimer t

/-! ### Conditions (R71) -/

/-- Field time stands on the epoch (R71). -/
def TimeState.onEpoch : TimeState → Bool
  | .unset => false
  | .aligning => false
  | .locked => true
  | .holdover => true

/-- The state is one of WAIT_REF, FOLLOWING and FREE_RUN (R71). -/
def SchedState.running : SchedState → Bool
  | .idle => false
  | .waitTime => false
  | .waitRef => true
  | .following => true
  | .freeRun => true

/-- The schedule leaves its running states (R71, R81). -/
def State.leaveRunning (s : State) : State :=
  s.setSched fun c =>
    { c with
      intervals := closeAll s.now c.intervals, cycleStart := none, pointer := none, markDeadline := none, timer := none,
      lastRef := none, cycleCount := some s.gen.cycleMax }

/-- Entry to WAIT_REF (R71, R73). -/
def State.enterWaitRef (s : State) : State :=
  ((s.setSched fun c => { c with cycleCount := some s.gen.cycleMax, lastRef := none }).startTimer s.now).setSchedState .waitRef

/-- Moves to IDLE or WAIT_TIME. -/
def State.stopSchedule (x : SchedState) (s : State) : State :=
  if s.sched.state.running then s.leaveRunning.setSchedState x else s.setSchedState x

/-- The schedule moves by its three conditions (R71). -/
def State.applyConditions (part : PartState) (time : TimeState) (s : State) : State :=
  if part ≠ .listening ∨ s.gen.scheduleEnable = false then s.stopSchedule .idle
  else if time.onEpoch = false then s.stopSchedule .waitTime
  else if s.sched.state.running then s
  else s.enterWaitRef

/-- SCHEDULE_CONDITION_CHANGE (R71): the oldest announced change is taken; the conditions it does not carry are read as they stand
(log 19). -/
def execScheduleConditionChange (s : State) : Next :=
  match s.wires.sched with
  | .part p :: rest => done ((s.setWires fun w => { w with sched := rest }).applyConditions p s.time.state)
  | .time t :: rest => done ((s.setWires fun w => { w with sched := rest }).applyConditions s.control.part t)
  | [] => nothing s

/-! ### Pulses and deadlines -/

/-- The state becomes FOLLOWING and a cycle starts. -/
def State.follow (s : State) : State := (s.setSchedState .following).cycleStart

/-- A REF pulse is a bounce (R72). -/
def State.bounces (s : State) : Bool :=
  match s.sched.lastRef with
  | some t => decide (s.now - t < s.gen.refMinPeriod * 100)
  | none => false

/-- REF_PULSE (R72). -/
def execRefPulse (s : State) : Next :=
  let s1 := s.count .refPulses
  if s.gen.refSource = .internal ∨ s.sched.state.running = false then done s1
  else if s.bounces then done (s1.count .refBounces)
  else done (s1.setSched fun c => { c with lastRef := some s.now }).follow

/-- INTERNAL_CYCLE_TIMER (R73). -/
def execInternalCycleTimer (s : State) : Next :=
  if reached s.now s.sched.timer ∧ (s.sched.state = .waitRef ∨ s.sched.state = .following) then done s.follow else nothing s

/-- The entry under the pointer, with its place, when its deadline has been reached. -/
def State.dueEntry (s : State) : Option (Nat × BankEntry) :=
  match s.sched.pointer with
  | some (.on i) =>
    if reached s.now s.sched.markDeadline then s.sched.entries[i]?.map fun e => (i, e) else none
  | some (.stopped _) => none
  | none => none

/-- MARK_DEADLINE (R76): the entry acts, and taking goes on. -/
def execMarkDeadline (s : State) : Next :=
  match s.dueEntry with
  | some (i, e) =>
    if e.action = actWatch then nothing s
    else done ((s.setSched fun c => { c with intervals := e.act s.now c.intervals }).takeFrom (i + 1))
  | none => nothing s

/-- A WATCH reached in FOLLOWING or FREE_RUN under REF, at a mark above 0 (R77). -/
def State.watchReached (s : State) : State :=
  let s1 := if s.sched.state = .freeRun then s else (s.setSchedState .freeRun).raise .refMissing
  (s1.count .refMissing).cycleStart

/-- WATCH_DEADLINE (R77). -/
def execWatchDeadline (s : State) : Next :=
  match s.dueEntry with
  | some (i, e) =>
    if e.action ≠ actWatch then nothing s
    else if e.mark = 0 ∨ s.gen.refSource = .internal then
      done (s.setSched fun c => { c with pointer := some (.stopped i), markDeadline := none })
    else done s.watchReached
  | none => nothing s

/-- HORIZON_ADVANCE_SCHEDULE (R82). -/
def execHorizonAdvanceSchedule (s : State) : Next :=
  match s.wires.horizonSched with
  | h :: rest =>
    done ((s.setWires fun w => { w with horizonSched := rest }).setSched fun c =>
      { c with intervals := removeOld h ((s.gen.intakeLatency + 1000) * 1000) c.intervals })
  | [] => nothing s

/-! ### Part states (R70, R78) -/

/-- Drops the cycle, the last taken REF and the mute interval list, and sets the cycle count to `cycle_max`. -/
def State.clearCycle (s : State) : State :=
  s.setSched fun c =>
    { c with
      cycleStart := none, pointer := none, markDeadline := none, timer := none, lastRef := none, intervals := [],
      cycleCount := some s.gen.cycleMax }

/-- Drops the announced changes that a change of part state overtakes (log 7). -/
def State.dropSchedNotes (s : State) : State := s.setWires fun w => { w with sched := [] }

/-- A soft reset at the Schedule Unit (R70, R81). -/
def State.scheduleSoftReset (s : State) : State := s.dropSchedNotes.clearCycle.setSchedState .idle

/-- START at the Schedule Unit (R70, R71, R78): the state it moves to is told to the Report Unit. -/
def State.scheduleStart (s : State) : State := s.scheduleSoftReset.applyConditions .listening s.time.state

/-- A LOAD that succeeds, at the Schedule Unit (R69, R70). -/
def State.scheduleLoad (period : Nat) (bank : BankName) (a b : List BankEntry) (s : State) : State :=
  (s.scheduleSoftReset.setSched fun c =>
    { c with active := some bank, period := some period, stagedPeriod := none, stagedBank := none, bankA := a, bankB := b }).askRewrite

end Sys2Proof.Machine
end

