-- ==== Sys2Proof/Machine/Setup.lean ====
section
/-! DEFINITION. Host writes into the setup areas while a setup is in force: live, staged and locked fields, word by word (R42, R66, R69,
R85, R138, R151, R175). -/
namespace Sys2Proof.Machine

/-- A state, with whether a setup write was not taken (R42, R69, R85, R151; log 15). -/
abbrev Taken := State × Bool

/-- A live value out of range, or a locked field: not taken. -/
def notTaken (s : State) : Taken := (s, true)

/-- A live general field of value `v`: taken in range, not taken otherwise (R151). -/
def liveField (ok : Bool) (f : General → General) (t : Taken) : Taken := if ok then (t.1.setGen f, t.2) else (t.1, true)

/-- A write of `schedule_enable` (R66, R71). -/
def State.writeScheduleEnable (v : Nat) (t : Taken) : Taken :=
  if v ≤ 1 then
    let on := v == 1
    if on = t.1.gen.scheduleEnable then t
    else
      let s := t.1.setGen fun g => { g with scheduleEnable := on }
      (s.applyConditions s.control.part s.time.state, t.2)
  else (t.1, true)

/-- The service deadline is set from now (R175). -/
def State.serviceAt (s : State) : Nat := deadline s.now (s.gen.serviceInterval * 1000)

/-- The part runs a service deadline (R175). -/
def PartState.serviced : PartState → Bool
  | .listening => true
  | .draining => true
  | .dormant => false
  | .loading => false
  | .stopped => false

/-- A write of `service_interval` (R175). -/
def State.writeServiceInterval (v : Nat) (t : Taken) : Taken :=
  if serviceIntervalOk v then
    let s := t.1.setGen fun g => { g with serviceInterval := v }
    if v = 0 then ((s.setAttend fun a => { a with deadline := none }), t.2)
    else if t.1.gen.serviceInterval = 0 ∧ s.control.part.serviced then
      ((s.setAttend fun a => { a with deadline := some s.serviceAt }), t.2)
    else (s, t.2)
  else (t.1, true)

/-- A write of `notice_mask` (R168). -/
def State.writeMask (v : Nat) (t : Taken) : Taken :=
  let m := BitVec.ofNat 24 v
  if m = t.1.gen.noticeMask then t else ((t.1.setGen fun g => { g with noticeMask := m }).maskChanged, t.2)

/-- A word of the general setup at a page offset (R151, R184). -/
def State.generalWord (off : Nat) (w : List Byte) (t : Taken) : Taken :=
  if off < 0x120 then notTaken t.1
  else if off = 0x120 then
    let t1 := liveField (silenceLimitOk (field w 0 1)) (fun g => { g with silenceLimit := field w 0 1 }) t
    let t2 := State.writeScheduleEnable (field w 1 1) t1
    let t3 := liveField true (fun g => { g with refMinPeriod := field w 2 2 }) t2
    let t4 := liveField (intakeLatencyOk (field w 4 2)) (fun g => { g with intakeLatency := field w 4 2 }) t3
    liveField (watermarkOk t.1.gen.reportCap (field w 6 2)) (fun g => { g with reportWatermark := field w 6 2 }) t4
  else if off = 0x128 then
    let t1 := liveField (preOk (field w 0 2)) (fun g => { g with pre := field w 0 2 }) t
    let t2 := liveField (postOk (field w 2 2)) (fun g => { g with post := field w 2 2 }) t1
    let t3 := liveField (tailWaitOk (field w 4 2)) (fun g => { g with tailWait := field w 4 2 }) t2
    State.writeServiceInterval (field w 6 2) t3
  else if off = 0x130 then
    let t1 := liveField (copyBurstOk (field w 0 1)) (fun g => { g with copyBurst := field w 0 1 }) t
    let t2 := liveField (holdLimitOk (field w 1 1)) (fun g => { g with holdLimit := field w 1 1 }) t1
    let t3 := liveField (partShareOk (field w 2 1)) (fun g => { g with partShare := field w 2 1 }) t2
    State.writeMask (field w 4 3) t3
  else if off = 0x138 then
    (t.1.setSched fun c => { c with stagedPeriod := some (field w 0 2), stagedBank := some (field w 2 1) }, t.2)
  else t

/-- Changes the staged copy of a station (R42). -/
def State.stage (st : Nat) (f : StagedTuning → StagedTuning) (s : State) : State :=
  s.setDetector st fun d => { d with staged := f d.staged }

/-- A write of `enabled` (R42, R60, R61). -/
def State.writeEnabled (st v : Nat) (t : Taken) : Taken :=
  match t.1.station st with
  | some e =>
    if v = 0 then (if e.enabled then t.1.disable st else t.1, t.2)
    else if v = 1 then (if e.enabled then t.1 else t.1.enable st, t.2)
    else (t.1, true)
  | none => t

/-- A word of the station table (R42, R185). -/
def State.stationWord (off : Nat) (w : List Byte) (t : Taken) : Taken :=
  let st := (off - 0x200) / 32
  let o := (off - 0x200) % 32
  if o = 0 then notTaken t.1
  else if o = 8 then State.writeEnabled st (field w 0 1) t
  else if o = 16 then
    (t.1.stage st fun g =>
      { g with
        shortExp := some (field w 0 1), longExp := some (field w 1 1), onRatio := some (field w 2 2), offRatio := some (field w 4 2),
        minOn := some (field w 6 1) }, t.2)
  else (t.1.stage st fun g => { g with deadTime := some (field w 0 2), maxOn := some (field w 2 2) }, t.2)

/-- The bank that a page offset lies in (R181). -/
def bankAt (off : Nat) : BankName := if off < 0x1180 then .a else .b

/-- The entry of its bank that a page offset lies in (R181, R185). -/
def entryAt (off : Nat) : Nat := if off < 0x1180 then (off - 0x1000) / 8 else (off - 0x1180) / 8

/-- Writes an entry of a bank. -/
def Schedule.setEntry (n : BankName) (i : Nat) (e : BankEntry) (c : Schedule) : Schedule :=
  match n with
  | .a => { c with bankA := c.bankA.set i e }
  | .b => { c with bankB := c.bankB.set i e }

/-- A word of a schedule bank, one entry (R69). -/
def State.bankWord (off : Nat) (w : List Byte) (t : Taken) : Taken :=
  if t.1.sched.active = some (bankAt off) then notTaken t.1
  else (t.1.setSched (Schedule.setEntry (bankAt off) (entryAt off) (parseBankEntry w)), t.2)

/-- A word of the setup areas with all its strobes set, by its page offset (R126, R151; R42, R69, R85). -/
def State.setupWord (off : Nat) (w : List Byte) (t : Taken) : Taken :=
  if off < 0x100 then t
  else if off < 0x200 then State.generalWord off w t
  else if off < 0xE00 then State.stationWord off w t
  else if off < 0x1000 then notTaken t.1
  else if off < 0x1300 then State.bankWord off w t
  else t

/-- The part takes setup writes by their class (R151). -/
def PartState.takesSetup : PartState → Bool
  | .stopped => true
  | .listening => true
  | .draining => true
  | .dormant => false
  | .loading => false

end Sys2Proof.Machine
end

