-- ==== Sys2Proof/Machine/StatusLine.lean ====
section
/-! DEFINITION. The STATUS claimant: result writes, the status line and the tally dump (R154, R162, R168 to R173, R182, R183, R188). -/
namespace Sys2Proof.Machine

/-! ### The result word (R182) -/

/-- Code of a reason (R182). -/
def Reason.code : Reason → Nat
  | .range => 1
  | .region => 2
  | .tags => 3
  | .bank => 4
  | .changedDuringLoad => 5
  | .memory => 6

/-- Result, reason and offset bytes (R182). -/
def Res.bytes : Res → List Byte
  | .empty => zeros 4
  | .done => leBytes 1 1 ++ zeros 3
  | .refusedBusy => leBytes 1 2 ++ zeros 3
  | .refusedState => leBytes 1 3 ++ zeros 3
  | .badArg => leBytes 1 4 ++ zeros 3
  | .failed reason offset => leBytes 1 5 ++ leBytes 1 reason.code ++ leBytes 2 offset

/-- The result word (R182). -/
def Result.bytes (r : Result) : List Byte := [r.code, r.tag] ++ r.res.bytes ++ zeros 2

/-! ### The status line (R183) -/

/-- Code of a part state (R183). -/
def PartState.code : PartState → Nat
  | .dormant => 0
  | .loading => 1
  | .stopped => 2
  | .listening => 3
  | .draining => 4

/-- Code of a reset cause (R183). -/
def ResetCause.code : ResetCause → Nat
  | .powerOn => 1
  | .resetPin => 2
  | .softReset => 3

/-- Code of a schedule state (R183). -/
def SchedState.code : SchedState → Nat
  | .idle => 0
  | .waitTime => 1
  | .waitRef => 2
  | .following => 3
  | .freeRun => 4

/-- Code of the active bank (R183). -/
def bankCode : Option BankName → Nat
  | some .a => 0
  | some .b => 1
  | none => 0xFF

/-- The status line as every field stands, with the heartbeat it carries (R169, R183). -/
def State.lineBytes (heartbeat : Nat) (s : State) : List Byte :=
  leBytes 1 s.control.part.code ++ leBytes 1 s.control.cause.code ++ leBytes 1 (bitIf s.attend.unattended 0) ++
    leBytes 1 s.time.state.code ++ leBytes 1 s.eventsInUse ++ zeros 3 ++
    leBytes 8 (s.now / 1000000) ++ leBytes 8 heartbeat ++ leBytes 8 (s.status.pending &&& s.mask).toNat ++ leBytes 8 s.status.pending.toNat ++
    leBytes 8 s.report.put ++ leBytes 2 s.report.get ++ leBytes 6 s.report.occupancy ++ leBytes 4 s.clip.allocPtr ++
    leBytes 4 s.clip.freePtr ++ leBytes 1 s.sched.state.code ++ leBytes 7 (bankCode s.sched.active)

/-! ### The snapshot (R173, R188) -/

/-- A station record of the tally area (R188). -/
def stationRecord (t : StationTallies) (silent : Bool) : List Byte :=
  leBytes 4 t.accepted ++ leBytes 4 t.gaps ++ leBytes 4 t.picks ++ leBytes 4 (bitIf silent 0)

/-- The snapshot of DUMP_TALLY, as the bytes of the tally area (R162, R173, R188). -/
def State.snapshot (s : State) : List Byte :=
  leBytes 8 s.now ++ (s.tallies.global.map (leBytes 4)).flatten ++ zeros 112 ++
    ((s.tallies.stations.zip s.engine).map fun p => stationRecord p.1 p.2.silent).flatten

/-! ### Grants (R169 to R171, R173) -/

/-- The first byte of the control page. -/
def State.page (s : State) : Nat := s.control.pageBase.getD 0

/-- The STATUS claimant is free to offer again. -/
def State.offered (s : State) : State := s.setStatus fun w => { w with offer := none }

/-- The grant of a result write (R154, R171). -/
def State.grantResult (r : Result) (s : State) : State :=
  (s.offered.sendWrite .status (s.page + 0x40) r.bytes).raise .commandDone

/-- The grant of a status line write (R169, R171). -/
def State.grantLine (s : State) : State :=
  let h := (s.status.heartbeat + 1) % 4294967296
  let s1 := (s.offered.sendWrite .status (s.page + 0x80) (s.lineBytes h)).setStatus fun w => { w with rewrite := false, heartbeat := h }
  if s.status.newRecords = 0 then s1 else (s1.setStatus fun w => { w with newRecords := 0 }).raise .reportReady

/-- Code of DUMP_TALLY (R182). -/
abbrev codeDumpTally : Byte := 6

/-- The tag of the command in progress, 0 where there is none. -/
def Control.inProgressTag (c : Control) : Byte :=
  match c.inProgress with
  | some (_, t) => t
  | none => 0

/-- The grant of a write of the tally dump; the last one ends the dump (R173). -/
def State.grantDump (d : Dump) (s : State) : State :=
  let s1 := s.offered.sendWrite .status (s.page + d.offset) (d.bytes.take 256)
  if d.bytes.length ≤ 256 then
    ((s1.setStatus fun w => { w with dump := none }).setControl fun c => { c with inProgress := none }).putResult
      ⟨codeDumpTally, s.control.inProgressTag, .done⟩
  else s1.setStatus fun w => { w with dump := some ⟨d.offset + 256, d.bytes.drop 256⟩ }

/-- The grant of the STATUS claimant's write. -/
def State.grantStatus (s : State) : State :=
  match s.status.offer with
  | some (.result r) => s.grantResult r
  | some .line => s.grantLine
  | some .dump =>
    match s.status.dump with
    | some d => s.grantDump d
    | none => s.offered
  | none => s

/-- STATUS_WRITE_COMPLETION (R170). -/
def execStatusWriteCompletion (code : MemCode) (s : State) : Next :=
  match s.complete (· == .status) with
  | some (o, s1) => done (s1.writeCompleted o code)
  | none => nothing s

end Sys2Proof.Machine
end

