-- ==== Sys2Proof/Machine/TimeBase.lean ====
section
/-! DEFINITION. The Time Base: field time, its rate, the pulses on PPS and the holdover deadline (R26 to R40). -/
namespace Sys2Proof.Machine

/-! ### The count (R26) -/

/-- One period of the reference clock: the rate word is added to the fraction, and a carry out of it adds one to the count, which holds
at 2^48 - 1 (R26). -/
def TimeBase.period (t : TimeBase) : TimeBase :=
  { t with count := min (t.count + (t.frac + t.rateWord) / 4294967296) maxTime, frac := (t.frac + t.rateWord) % 4294967296 }

/-- What the part does with no command: one period of CLK, from the release of a full reset onward (R26; log 2). -/
def tick (s : State) : State := if s.control.released then s.setTime TimeBase.period else s

/-- The whole second of a field time (R40). -/
def second (t : Nat) : Nat := t / 1000000

/-! ### Deadlines under a step (R39) -/

/-- A buffer with its deadline moved (R39). -/
def Buf.moved (step : Nat) : Buf → Buf
  | .assembling slot gen next d captured => .assembling slot gen next (deadline d step) captured
  | .free => .free
  | .holding b => .holding b

/-- A held entry with its deadline moved (R39). -/
def Held.moved (step : Nat) (h : Held) : Held :=
  match h.state with
  | .held d => { h with state := .held (Machine.moved step d) }
  | .released _ => h

/-- Moves every deadline pending in the part later by a step: assembly buffers, silence, mark and internal timer, close, tail, hold and
service deadlines. The holdover deadline takes no part, and recorded times are not moved (R39). -/
def State.moveDeadlines (step : Nat) (s : State) : State :=
  { s with
    intake := { s.intake with bufs := s.intake.bufs.map (Buf.moved step) }
    engine := s.engine.map fun d => { d with silence := moved step d.silence }
    sched := { s.sched with markDeadline := moved step s.sched.markDeadline, timer := moved step s.sched.timer }
    assoc := { s.assoc with events := s.assoc.events.map fun e => e.map fun ev => { ev with closeDeadline := moved step ev.closeDeadline } }
    clip := { s.clip with plans := s.clip.plans.map fun p => p.map fun pl => { pl with tail := moved step pl.tail } }
    guard := { s.guard with held := s.guard.held.map (Held.moved step) }
    attend := { s.attend with deadline := moved step s.attend.deadline } }

/-- Announces the whole second to the Report Unit when it differs from the one last announced (R40). -/
def State.announceSecond (s : State) : State :=
  if s.time.announced = second s.time.count then s
  else (s.setTime fun t => { t with announced := second t.count }).askRewrite

/-- A forward step of field time to `t`, which clears the fraction, moves every pending deadline and announces a change of the whole
second once (R26, R32, R34, R39, R40). The count holds at 2^48 - 1 (R26; log 28). -/
def State.stepTime (t : Nat) (s : State) : State :=
  ((s.moveDeadlines (min t maxTime - s.time.count)).setTime fun x => { x with count := min t maxTime, frac := 0 }).announceSecond

/-! ### Rate values (R27, R33, R35) -/

/-- The rate deviation (R27). -/
def General.rateDelta (g : General) : Nat := g.rateNominal * g.rateDev / 1000000
/-- The lower rate limit (R27). -/
def General.rateLow (g : General) : Nat := g.rateNominal - g.rateDelta
/-- The upper rate limit (R27). -/
def General.rateHigh (g : General) : Nat := g.rateNominal + g.rateDelta

/-- A rate value moved to the nearer limit when it lies outside the limits (R27, R33). -/
def General.clampRate (g : General) (r : Nat) : Nat := max g.rateLow (min g.rateHigh r)

/-- The quotient rounded to the nearest whole number, halves up (R33). -/
def roundDiv (a b : Nat) : Nat := (2 * a + b) / (2 * b)

/-- The base rate that the last second measures: the rate word in force times 1,000,000 over the interval D, when D lies from 500,000 to
1,500,000 µs (R33). A pulse in HOLDOVER makes no measurement (R37; log 45). -/
def TimeBase.measured (t : TimeBase) : Nat :=
  match t.lastPulse with
  | some p =>
    let d := t.count - p
    if t.state ≠ .holdover ∧ 500000 ≤ d ∧ d ≤ 1500000 then roundDiv (t.rateWord * 1000000) d else t.baseRate
  | none => t.baseRate

/-- A rate clamped: RATE_LIMIT and its tally (R33, R35). -/
def State.rateLimit (s : State) : State := (s.raise .rateLimit).count .rateLimitHits

/-- The measurement of a discipline pulse (R33): the new base rate, within the limits once a LOAD has succeeded, and its reset value
before. -/
def State.measure (s : State) : State :=
  if s.time.firstLoad then
    let m := s.time.measured
    let c := s.gen.clampRate m
    let s1 := s.setTime fun t => { t with baseRate := c }
    if c = m then s1 else s1.rateLimit
  else s.setTime fun t => { t with baseRate := Config.rateReset }

/-- Sets the rate word, which keeps its reset value until a LOAD has succeeded (R27, R35). -/
def State.setRate (r : Nat) (s : State) : State :=
  s.setTime fun t => { t with rateWord := if t.firstLoad then r else Config.rateReset }

/-- Settles a phase error `e` above 0 with field time left as it is (R35). -/
def State.slew (e : Nat) (s : State) : State :=
  if e ≤ 1000 then
    if s.time.firstLoad then
      let r := s.time.baseRate - (s.time.baseRate * e + 999999) / 1000000
      if r < s.gen.rateLow then (s.setRate s.gen.rateLow).rateLimit else s.setRate r
    else s
  else (s.setRate s.gen.rateLow).raise .timeAhead

/-- Settles the phase (R34, R35): the nearest whole second lies behind field time by at most 500,000 µs, or ahead of it. -/
def State.settlePhase (s : State) : State :=
  let r := s.time.count % 1000000
  if r = 0 then s.setRate s.time.baseRate
  else if r ≤ 500000 then s.slew r
  else (s.stepTime ((second s.time.count + 1) * 1000000)).setRate s.time.baseRate

/-- Records a taken pulse: last taken pulse, holdover deadline, LOCKED (R32, R33). -/
def State.recordPulse (s : State) : State :=
  (s.setTime fun t => { t with lastPulse := some t.count, holdover := some (deadline t.count Config.holdoverTime) }).setTimeState .locked

/-- A discipline pulse (R33, R34, R35, R37). -/
def State.discipline (s : State) : State := s.measure.settlePhase.recordPulse

/-! ### PPS (R31, R32) -/

/-- The aligning pulse (R32). -/
def State.alignPulse (target : Nat) (s : State) : State :=
  let instant := target * 1000000
  let s1 := s.setTime fun t => { t with target := none }
  if s.time.count ≤ instant then (((s1.stepTime instant).setTime fun t => { t with aligned := true }).recordPulse).raise .timeLocked
  else
    let s2 := s1.raise .timeAhead
    if s.time.aligned then ((s2.setTimeState .locked).raise .timeLocked).discipline else s2.setTimeState .unset

/-- What becomes of a pulse (R31). -/
def State.takePulse (s : State) : State :=
  match s.time.state with
  | .unset => s
  | .aligning =>
    match s.time.target with
    | some t => s.alignPulse t
    | none => s
  | .locked =>
    match s.time.lastPulse with
    | some p => if s.time.count - p < 500000 then s else s.discipline
    | none => s.discipline
  | .holdover => s.discipline.raise .timeLocked

/-- PPS_PULSE (R31 to R37): the pulse is counted, and passed over or taken. -/
def execPpsPulse (s : State) : Next := done (s.count .ppsPulses).takePulse

/-- FIELD_TIME_SECOND (R40): a change of the whole second is announced. -/
def execFieldTimeSecond (s : State) : Next :=
  if s.time.announced = second s.time.count then nothing s else done s.announceSecond

/-- HOLDOVER_DEADLINE (R36). -/
def execHoldoverDeadline (s : State) : Next :=
  if s.time.state = .locked ∧ reached s.now s.time.holdover then
    done (((s.setTime fun t => { t with holdover := none }).setTimeState .holdover).raise .timeHoldover)
  else nothing s

/-! ### SET_TIME at the Time Base (R29) -/

/-- Whether the Time Base takes a SET_TIME argument (R29). -/
def State.secondOk (sec : Nat) (s : State) : Bool :=
  decide (sec ≤ Config.maxSecond) &&
    match s.time.state with
    | .unset => true
    | .aligning => true
    | .locked => decide (second s.time.count ≤ sec)
    | .holdover => decide (second s.time.count ≤ sec)

/-- The acceptance of SET_TIME (R29). -/
def State.acceptSecond (sec : Nat) (s : State) : State :=
  (s.setTime fun t => { t with target := some sec, lastPulse := none, holdover := none }).setTimeState .aligning

/-- What a successful LOAD does to the Time Base (R27, R28). -/
def State.loadRates (s : State) : State :=
  s.setTime fun t =>
    { t with baseRate := s.gen.clampRate t.baseRate, rateWord := s.gen.clampRate t.rateWord, lastPulse := none, firstLoad := true }

end Sys2Proof.Machine
end

