-- ==== Sys2Proof/Machine/Loader.lean ====
section
/-! DEFINITION. The loader: its reads, the checks of a LOAD and the two ends of it (R1, R27, R41, R65, R68, R84, R103, R138, R151,
R155 to R158). -/
namespace Sys2Proof.Machine

/-! ### Checks (R156) -/

/-- A check: the page offset of the last byte it needs, its reason, the offset it reports, and whether the bytes fail it. -/
structure Check where
  last   : Nat
  reason : Reason
  offset : Nat
  fails  : List Byte → Bool

/-- A RANGE check of a field (R156). -/
def rangeCheck (off len : Nat) (ok : Nat → Bool) : Check := ⟨off + len - 1, .range, off, fun bs => !ok (pageField bs off len)⟩

def alignedOk (n : Nat) : Bool := n % 4096 == 0
def ringSlotsOk (n : Nat) : Bool := decide (1024 ≤ n ∧ n ≤ 16384) && n % 8 == 0
def rateDevOk (n : Nat) : Bool := decide (1 ≤ n ∧ n ≤ 200)
def rateNominalOk (n : Nat) : Bool := decide (171626893 ≤ n ∧ n ≤ 171970491)
def clipSizeOk (n : Nat) : Bool := decide (262144 ≤ n ∧ n ≤ 67108864) && n % 4096 == 0
def reportCapOk (n : Nat) : Bool := decide (4 ≤ n ∧ n ≤ 256)
def cycleMaxOk (n : Nat) : Bool := [0, 1, 3, 7, 15, 31, 63].contains n
def bitOk (n : Nat) : Bool := decide (n ≤ 1)

/-- RANGE checks of the general setup (R1, R27, R65, R103, R138, R151, R184). -/
def generalChecks : List Check :=
  [ rangeCheck 0x100 4 alignedOk, rangeCheck 0x104 2 ringSlotsOk, rangeCheck 0x10A 2 rateDevOk, rangeCheck 0x10C 4 rateNominalOk,
    rangeCheck 0x110 4 alignedOk, rangeCheck 0x114 4 clipSizeOk, rangeCheck 0x118 4 alignedOk, rangeCheck 0x11C 2 reportCapOk,
    rangeCheck 0x11E 1 bitOk, rangeCheck 0x11F 1 cycleMaxOk, rangeCheck 0x120 1 silenceLimitOk, rangeCheck 0x121 1 bitOk,
    rangeCheck 0x124 2 intakeLatencyOk,
    ⟨0x127, .range, 0x126, fun bs => !watermarkOk (pageField bs 0x11C 2) (pageField bs 0x126 2)⟩ ] ++
  [ rangeCheck 0x128 2 preOk, rangeCheck 0x12A 2 postOk, rangeCheck 0x12C 2 tailWaitOk, rangeCheck 0x12E 2 serviceIntervalOk,
    rangeCheck 0x130 1 copyBurstOk, rangeCheck 0x131 1 holdLimitOk, rangeCheck 0x132 1 partShareOk, rangeCheck 0x138 2 cyclePeriodOk,
    rangeCheck 0x13A 1 bitOk ]

/-- The tag sets are not empty and share no tag (R124, R156). -/
def tagsCheck : Check :=
  ⟨0x109, .tags, 0x108, fun bs =>
    let w := BitVec.ofNat 16 (pageField bs 0x106 2)
    let h := BitVec.ofNat 16 (pageField bs 0x108 2)
    decide (w = 0) || decide (h = 0) || decide (w &&& h ≠ 0)⟩

/-- A region as base and length, when its fields have passed their RANGE checks (R156). -/
def ringRegion (bs : List Byte) : Option (Nat × Nat) :=
  if alignedOk (pageField bs 0x100 4) && ringSlotsOk (pageField bs 0x104 2) then
    some (pageField bs 0x100 4, 512 * pageField bs 0x104 2)
  else none
def clipRegion (bs : List Byte) : Option (Nat × Nat) :=
  if alignedOk (pageField bs 0x110 4) && clipSizeOk (pageField bs 0x114 4) then some (pageField bs 0x110 4, pageField bs 0x114 4)
  else none
def reportRegion (bs : List Byte) : Option (Nat × Nat) :=
  if alignedOk (pageField bs 0x118 4) && reportCapOk (pageField bs 0x11C 2) then
    some (pageField bs 0x118 4, 512 * pageField bs 0x11C 2)
  else none

/-- A region extends beyond the 32-bit address space (R156). -/
def beyondSpace : Option (Nat × Nat) → Bool
  | some (b, n) => decide (4294967296 < b + n)
  | none => false

/-- Two regions overlap (R156). -/
def overlap : Option (Nat × Nat) → Option (Nat × Nat) → Bool
  | some (b, n), some (c, m) => decide (b < c + m ∧ c < b + n)
  | some _, none => false
  | none, _ => false

/-- REGION checks (R156). `page` is the first byte of the control page. -/
def regionChecks (page : Nat) : List Check :=
  let pg : Option (Nat × Nat) := some (page, 8192)
  [ ⟨0x105, .region, 0x100, fun bs => beyondSpace (ringRegion bs) || overlap (ringRegion bs) pg⟩,
    ⟨0x117, .region, 0x110, fun bs =>
      beyondSpace (clipRegion bs) || overlap (ringRegion bs) (clipRegion bs) || overlap (clipRegion bs) pg⟩,
    ⟨0x11D, .region, 0x118, fun bs =>
      beyondSpace (reportRegion bs) || overlap (ringRegion bs) (reportRegion bs) || overlap (clipRegion bs) (reportRegion bs) ||
        overlap (reportRegion bs) pg⟩ ]

/-- Checks of the station entry at a page offset (R41, R185). -/
def stationChecks (off : Nat) : List Check :=
  [ rangeCheck off 1 (fun n => n == 1 || n == 3), rangeCheck (off + 1) 1 (fun n => decide (n ≤ 3)),
    rangeCheck (off + 2) 1 (fun n => decide (n ≤ 7)), rangeCheck (off + 8) 1 bitOk,
    rangeCheck (off + 16) 1 (fun n => decide (1 ≤ n ∧ n ≤ 8)),
    ⟨off + 17, .range, off + 17, fun bs =>
      let n := pageField bs (off + 17) 1
      !decide (6 ≤ n ∧ n ≤ 15) || decide (n < pageField bs (off + 16) 1 + 3)⟩,
    rangeCheck (off + 18) 2 (fun n => decide (24 ≤ n ∧ n ≤ 1024)),
    ⟨off + 21, .range, off + 20, fun bs =>
      let n := pageField bs (off + 20) 2
      decide (n < 16) || decide (pageField bs (off + 18) 2 < n)⟩,
    rangeCheck (off + 22) 1 (fun n => decide (1 ≤ n)), rangeCheck (off + 26) 2 (fun n => decide (1 ≤ n ∧ n ≤ 600)) ]

/-- The check of a member of the zone at a page offset: below 96, and no duplicate of an earlier one (R84, R156). -/
def memberCheck (off j : Nat) : Check :=
  ⟨off + 4 + j, .range, off + 4 + j, fun bs =>
    let m := pageField bs (off + 4 + j) 1
    decide (j < pageField bs off 1) &&
      (decide (96 ≤ m) || (List.range j).any fun i => pageField bs (off + 4 + i) 1 == m)⟩

/-- Checks of the zone at a page offset; nothing else of a zone with member count 0 is checked (R84). -/
def zoneChecks (off : Nat) : List Check :=
  [ rangeCheck off 1 (fun n => n == 0 || decide (2 ≤ n ∧ n ≤ 24)),
    ⟨off + 1, .range, off + 1, fun bs =>
      let n := pageField bs off 1
      let k := pageField bs (off + 1) 1
      n != 0 && !decide (2 ≤ k ∧ k ≤ n)⟩,
    ⟨off + 3, .range, off + 2, fun bs =>
      let w := pageField bs (off + 2) 2
      pageField bs off 1 != 0 && !decide (1 ≤ w ∧ w ≤ 500)⟩ ] ++ (List.range 24).map (memberCheck off)

/-- The check of an entry of the bank at a page offset, when `active_bank` names that bank (R65, R68, R156; log 17). -/
def bankCheck (name off i : Nat) : Check :=
  ⟨off + 8 * i + 7, .bank, off + 8 * i, fun bs => pageField bs 0x13A 1 == name && entryBad (parseBank bs off) i⟩

/-- The checks whose last byte lies in the read of 256 bytes at page offset `lo` (R156). -/
def checksIn (page lo : Nat) : List Check :=
  let all :=
    if lo < 0x200 then generalChecks ++ tagsCheck :: regionChecks page
    else if lo < 0xE00 then ((List.range 8).map fun i => stationChecks (lo + 32 * i)).flatten
    else if lo < 0x1000 then ((List.range 8).map fun i => zoneChecks (lo + 32 * i)).flatten
    else (List.range 48).map (bankCheck 0 0x1000) ++ (List.range 48).map (bankCheck 1 0x1180)
  all.filter fun c => decide (lo ≤ c.last) && decide (c.last < lo + 256)

/-- Order of the reasons (R156). -/
def Reason.rank : Reason → Nat
  | .range => 0
  | .region => 1
  | .tags => 2
  | .bank => 3
  | .changedDuringLoad => 4
  | .memory => 5

/-- The error written of those found in one read: the lowest offset, of two with one offset the earlier reason (R156). -/
def firstError : List (Reason × Nat) → Option (Reason × Nat)
  | [] => none
  | e :: es =>
    match firstError es with
    | some f => some (if f.2 < e.2 ∨ (f.2 = e.2 ∧ f.1.rank < e.1.rank) then f else e)
    | none => some e

/-- The error found when the read at page offset `lo` has returned, with the bytes returned so far (R156). -/
def readError (page lo : Nat) (bs : List Byte) : Option (Reason × Nat) :=
  firstError (((checksIn page lo).filter fun c => c.fails bs).map fun c => (c.reason, c.offset))

/-! ### The two ends of a LOAD (R158) -/

/-- Code of LOAD (R182). -/
abbrev codeLoad : Byte := 1


/-- Tells the Schedule Unit of a part state (R71, R152). -/
def State.tellSchedule (p : PartState) (s : State) : State :=
  s.setWires fun w => { w with sched := w.sched ++ [SchedMsg.part p] }

/-- No command is in progress, and no load record stands. -/
def State.endCommand (s : State) : State := s.setControl fun c => { c with inProgress := none, load := none }

/-- A failed LOAD (R155, R158). -/
def State.failLoad (r : LoadRec) (reason : Reason) (offset : Nat) (s : State) : State :=
  let s1 := ((s.endCommand.setPart r.returnTo).tellSchedule r.returnTo).dropOutstanding (· == .loader)
  s1.putResult ⟨codeLoad, s.control.inProgressTag, .failed reason offset⟩

/-- The setup in the loaded bytes (R158, R184, R185). -/
def parseSetup (bs : List Byte) : Setup := ⟨parseGeneral bs, parseStations bs, parseZones bs⟩

/-- The Path Guard at a LOAD that succeeds, at START and at a soft reset (R131, R132, R137): no unit range stands, and every HELD entry is
released without a cut. -/
def State.guardAnew (s : State) : State := (s.setGuard fun g => { g with range := none }).releaseHeld fun _ => true

/-- A LOAD that succeeds (R158; log 48, log 50). -/
def State.succeedLoad (bs : List Byte) (s : State) : State :=
  let u := parseSetup bs
  let s1 := (s.setControl fun c => { c with setup := some u }).loadRates
  let s2 := ((s1.intakeAnew u.gen.ringSlots).engineLoad).assocAnew
  let bank : BankName := if pageField bs 0x13A 1 = 0 then .a else .b
  let s3 := s2.scheduleLoad (pageField bs 0x138 2) bank (parseBank bs 0x1000) (parseBank bs 0x1180)
  let s4 := s3.guardAnew.reportAnew.clipAnew
  let s5 := (s4.setStatus fun w => { w with newRecords := 0 }).setAttend fun a => { a with deadline := none }
  (s5.endCommand.setPart .stopped).maskChanged.putResult ⟨codeLoad, s.control.inProgressTag, .done⟩

/-! ### Reads (R155) -/

/-- Bytes the loader reads: `0100H` to `12FFH` (R181). -/
abbrev loadBytes : Nat := 4608

/-- The read that the LOADER claimant offers: address and beats (R155; log 16). -/
def State.loaderOffer (s : State) : Option (Nat × Nat) :=
  match s.control.load, s.control.pageBase with
  | some r, some base => if r.extent < loadBytes then some (base + 0x100 + r.extent, 32) else none
  | some _, none => none
  | none, _ => none

/-- Changes the load record. -/
def State.setLoad (f : LoadRec → LoadRec) (s : State) : State :=
  s.setControl fun c => { c with load := c.load.map f }

/-- The grant of the LOADER claimant's read: the read extent grows (R155). -/
def State.grantLoader (s : State) : State :=
  match s.loaderOffer with
  | some (addr, beats) => (s.setLoad fun r => { r with extent := r.extent + 8 * beats }).sendRead .loader addr beats
  | none => s

/-- The load record after a read has returned (R156). -/
def LoadRec.gotData (page beats : Nat) (code : MemCode) (data : List Byte) (r : LoadRec) : LoadRec :=
  let lo := 0x100 + r.data.length
  match code with
  | .memerr => { r with error := some (.memory, lo) }
  | .okay =>
    let bs := r.data ++ fit (8 * beats) data
    { r with data := bs, error := readError page lo bs }

/-- Ends the LOAD when an error has been found, or when the last read has returned (R155). -/
def State.settleLoad (s : State) : State :=
  match s.control.load with
  | some r =>
    match r.error with
    | some (reason, offset) => s.failLoad r reason offset
    | none => if r.data.length < loadBytes then s else s.succeedLoad r.data
  | none => s

/-- LOADER_READ_COMPLETION (R156). -/
def execLoaderReadCompletion (code : MemCode) (data : List Byte) (s : State) : Next :=
  match s.complete (· == .loader) with
  | some (o, s1) =>
    let s2 := s1.countMemerr code
    if o.dropped then done s2
    else done (s2.setLoad (LoadRec.gotData (s.control.pageBase.getD 0) o.beats code data)).settleLoad
  | none => nothing s

/-! ### Writes into the setup areas (R42, R69, R85, R151, R157) -/

/-- The write puts a byte into the read extent (R157; log 35). -/
def touchesExtent (extent : Nat) (w : PageWrite) : Bool :=
  (w.bytes.mapIdx fun i b => b.isSome && decide (0x100 ≤ w.offset + i) && decide (w.offset + i < 0x100 + extent)).any id

/-- A write into the setup areas in LOADING (R157). -/
def State.changeDuringLoad (w : PageWrite) (s : State) : State :=
  match s.control.load with
  | some r =>
    if (r.returnTo = .dormant ∨ s.gen.hostTags.getLsbD w.tag) ∧ touchesExtent r.extent w then
      s.failLoad r .changedDuringLoad w.offset
    else s
  | none => s

/-- The words of a write that lie from `lo` up to, and without, `hi`, taken in address order (R126). -/
def State.takeWords (lo hi : Nat) (w : PageWrite) (s : State) : State :=
  let ws := (wordsFrom (w.bytes.length / 8) w.offset w.bytes).filter fun p => decide (lo ≤ p.1) && decide (p.1 < hi)
  let r := ws.foldl (fun (t : Taken) p =>
    match fullWord p.2 with
    | some bs => State.setupWord p.1 bs t
    | none => t) (s, false)
  if r.2 then r.1.setupIgnored else r.1

/-- A granted write into the setup areas from `lo` up to `hi` (R42, R69, R85, R151, R157): nothing in DORMANT. -/
def State.setupWrite (lo hi : Nat) (w : PageWrite) (s : State) : State :=
  match s.control.part with
  | .dormant => s
  | .loading => s.changeDuringLoad w
  | .stopped => s.takeWords lo hi w
  | .listening => s.takeWords lo hi w
  | .draining => s.takeWords lo hi w

/-- GENERAL_SETUP_WRITE (R151). -/
def execGeneralSetupWrite (w : PageWrite) (s : State) : Next := done (s.setupWrite 0x100 0x200 w)

/-- STATION_TABLE_WRITE (R42). -/
def execStationTableWrite (w : PageWrite) (s : State) : Next := done (s.setupWrite 0x200 0xE00 w)

/-- ZONE_TABLE_WRITE (R85). -/
def execZoneTableWrite (w : PageWrite) (s : State) : Next := done (s.setupWrite 0xE00 0x1000 w)

/-- SCHEDULE_BANK_WRITE (R69). -/
def execScheduleBankWrite (w : PageWrite) (s : State) : Next := done (s.setupWrite 0x1000 0x1300 w)

end Sys2Proof.Machine
end

