-- ==== Sys2Proof/Machine/Planner.lean ====
section
/-! DEFINITION. Closing an event: the clip plan, its pins, tail waits and their ends (R98 to R100, R104 to R110). -/
namespace Sys2Proof.Machine

/-! ### Windows and entries (R105) -/

/-- The span end of a trail entry (R19, R105). -/
def spanEnd (period first count : Nat) : Nat := sampleTime (first + count * period)

/-- The entry meets the window (R105). -/
def TrailEntry.meets (period winStart winEnd : Nat) (e : TrailEntry) : Bool :=
  decide (e.first ≤ winEnd) && decide (winStart < spanEnd period e.first e.count)

/-- The selection of a trail entry (R104, R105). -/
def TrailEntry.select (e : TrailEntry) : Selection := ⟨e.slot, e.gen, e.first, e.count, .pinned, false⟩

/-- The flags that a selected entry sets (R105). -/
def TrailEntry.flags (winStart : Nat) (e : TrailEntry) : BitVec 8 :=
  flagIf (e.brk && decide (winStart < e.first)) flagGap ||| flagIf e.timeUnsure flagTimeUnsure ||| flagIf e.clipped flagDigitizerClip

/-- Some selection's span end is after the window end (R105). -/
def covered (period winEnd : Nat) (xs : List Selection) : Bool := xs.any fun x => decide (winEnd < spanEnd period x.first x.count)

/-- A station's selection is complete: HEAD_SHORT is flagged when the window is not covered at its start (R105). -/
def StationClip.complete (winStart : Nat) (c : StationClip) : StationClip :=
  match c.sels with
  | [] => c.flag flagHeadShort
  | x :: _ => if winStart < x.first then c.flag flagHeadShort else c

/-- The wait of a station-clip ends without its tail (R108, R109, R110). -/
def StationClip.giveUp (winStart : Nat) (c : StationClip) : StationClip :=
  if c.awaiting then ({ c with awaiting := false }.flag flagTailShort).complete winStart else c

/-! ### Planning (R105) -/

/-- The station-clip of a station at a close (R105). -/
def planStation (noWait : Bool) (period winStart winEnd st : Nat) (trail : List TrailEntry) : StationClip :=
  let met := trail.filter (TrailEntry.meets period winStart winEnd)
  let taken := met.take 128
  let full := decide (128 < met.length)
  let sels := sortBy (fun (x : Selection) => x.first) (taken.map TrailEntry.select)
  let flags := taken.foldl (fun f e => f ||| e.flags winStart) (flagIf full flagTailShort)
  let lacks := !full && !covered period winEnd sels
  let c : StationClip := ⟨st, lacks && !noWait, flags ||| flagIf (lacks && noWait) flagTailShort, 0, sels⟩
  if c.awaiting then c else c.complete winStart

/-- The station set of a zone, in ascending station number (R105). -/
def State.stationSet (z : Nat) (s : State) : List Nat :=
  match s.zone z with
  | some zone =>
    sortBy id (zone.members.filter fun st =>
      match s.station st with
      | some e => e.enabled
      | none => false)
  | none => []

/-- The trail of a station. -/
def State.trail (st : Nat) (s : State) : List TrailEntry :=
  match s.intake.stations[st]? with
  | some si => si.trail
  | none => []

/-- The plan of a closing event (R105; log 23). -/
def State.makePlan (e : Event) (s : State) : Plan :=
  let winStart := e.anchor - s.gen.pre * 1000
  let winEnd := sampleTime (e.last + s.gen.post * 1000)
  let noWait := s.clip.draining || s.gen.tailWait == 0
  let clips := (s.stationSet e.zone).map fun st => planStation noWait (s.periodOf st) winStart winEnd st (s.trail st)
  { event := e.number, winStart := winStart, winEnd := winEnd,
    tail := if clips.any (·.awaiting) then some (deadline s.now (s.gen.tailWait * 1000)) else none,
    clips := clips, region := none, flags := 0 }

/-- The pins asked for a plan, in station-clip order (R105). -/
def Plan.pins (p : Plan) : List PinMsg :=
  (p.clips.map fun c => c.sels.map fun x => PinMsg.pin p.event c.station x.slot x.gen).flatten

/-! ### Closing (R98 to R100) -/

/-- An event closes and is handed to the Clip Unit, whose answer is the state it takes (R98, R99, R105). -/
def State.closeEvent (slot : Nat) (e : Event) (reason : CloseReason) (s : State) : State :=
  let p := s.makePlan e
  let answer : EventState := if p.tail.isSome then .waitingTail else .copyQueued
  let s1 := s.setEvent slot fun x => { x with closeDeadline := none, reason := some reason, closedAt := some s.now, state := answer }
  let s2 := (s1.setClip fun c => { c with plans := c.plans.set slot (some p) }).askPins p.pins
  if p.tail.isSome then s2 else s2.enqueue e.number

/-- CLOSE_DEADLINE (R98). -/
def execCloseDeadline (ev : Nat) (s : State) : Next :=
  match s.findEvent ev with
  | some (slot, e) =>
    if e.state = .gathering ∧ reached s.now e.closeDeadline then done (s.closeEvent slot e .window) else nothing s
  | none => nothing s

/-! ### Ends of tail waits (R108 to R110) -/

/-- The plans that wait for a tail, in ascending event number, with their slots. -/
def State.waitingPlans (s : State) : List (Nat × Plan) :=
  s.eventsByNumber.filterMap fun q =>
    match s.plan q.1 with
    | some p => if p.tail.isSome then some (q.1, p) else none
    | none => none

/-- The wait of a plan is over: it enters the copy queue, and COPY_QUEUED is asked (R108, R109, R110). -/
def State.endWait (slot : Nat) (p : Plan) (s : State) : State :=
  ((s.setPlan slot fun q => { q with tail := none }).askState p.event .copyQueued).enqueue p.event

/-- A plan gives up every tail it still awaits (R109, R110). -/
def State.giveUpTails (slot : Nat) (p : Plan) (s : State) : State :=
  (s.setPlan slot fun q => { q with clips := q.clips.map (StationClip.giveUp q.winStart) }).endWait slot p

/-- TAIL_DEADLINE (R109). -/
def execTailDeadline (ev : Nat) (s : State) : Next :=
  match s.findEvent ev with
  | some (slot, _) =>
    match s.plan slot with
    | some p => if reached s.now p.tail then done (s.giveUpTails slot p) else nothing s
    | none => nothing s
  | none => nothing s

/-- The Clip Unit takes STOP (R110). -/
def State.clipTakesStop (s : State) : State :=
  let s1 := (s.setClip fun c => { c with draining := true }).setWires fun w => { w with clipStop := false }
  s1.waitingPlans.foldl (fun t q => t.giveUpTails q.1 q.2) s1

/-- CLIP_UNIT_STOP (R110). -/
def execClipUnitStop (s : State) : Next := if s.wires.clipStop then done s.clipTakesStop else nothing s

/-- A new trail entry at a station-clip that awaits, with whether it becomes a selection (R108). -/
def StationClip.takeEntry (period winStart winEnd : Nat) (e : TrailEntry) (c : StationClip) : StationClip × Bool :=
  if c.sels.any fun x => x.slot == e.slot && x.gen == e.gen then (c, false)
  else if winEnd < e.first then (({ c with awaiting := false }.flag flagTailShort).complete winStart, false)
  else if e.meets period winStart winEnd then
    if 128 ≤ c.sels.length then (({ c with awaiting := false }.flag flagTailShort).complete winStart, false)
    else
      let c1 := { c with
        sels := insertBefore (fun (x : Selection) => decide (e.first < x.first)) e.select c.sels
        flags := c.flags ||| e.flags winStart }
      if winEnd < spanEnd period e.first e.count then ({ c1 with awaiting := false }.complete winStart, true) else (c1, true)
  else (c, false)

/-- The new trail entry at a plan: the station-clips, and the pins asked (R108). -/
def Plan.takeEntry (period st : Nat) (e : TrailEntry) (p : Plan) : Plan × List PinMsg :=
  let r := p.clips.map fun c => if c.station = st ∧ c.awaiting then c.takeEntry period p.winStart p.winEnd e else (c, false)
  ({ p with clips := r.map (·.1) }, if r.any (·.2) then [.pin p.event st e.slot e.gen] else [])

/-- The new trail entry at one plan that waits (R108). -/
def State.planTakesEntry (st : Nat) (e : TrailEntry) (slot : Nat) (p : Plan) (s : State) : State :=
  let r := p.takeEntry (s.periodOf st) st e
  let s1 := (s.setPlan slot fun _ => r.1).askPins r.2
  if r.1.clips.any (·.awaiting) then s1 else s1.endWait slot r.1

/-- NEW_TRAIL_ENTRY (R108; log 24): the station's oldest announcement is taken, by every plan that waits. -/
def execNewTrailEntry (st : Nat) (s : State) : Next :=
  match takeFirst (fun m => m.1 == st) s.wires.trailNotes with
  | some ((n, e), rest) =>
    let s1 := s.setWires fun w => { w with trailNotes := rest }
    done (s1.waitingPlans.foldl (fun t q => t.planTakesEntry n e q.1 q.2) s1)
  | none => nothing s

/-! ### Refused pins (R106) -/

/-- A refused pin at a station-clip (R106). -/
def StationClip.refused (r : RefusedPin) (c : StationClip) : StationClip :=
  let hit := fun (x : Selection) => x.slot == r.slot && x.gen == r.gen && x.status == .pinned
  if c.station = r.station ∧ c.sels.any hit then { c with sels := c.sels.map fun x => if hit x then x.makeCut else x }.addCut else c

/-- PIN_REFUSED (R106): the slot's oldest refusal is taken. -/
def execPinRefused (slot : Nat) (s : State) : Next :=
  match takeFirst (fun (m : RefusedPin) => m.slot == slot) s.wires.refusedPins with
  | some (r, rest) =>
    let s1 := s.setWires fun w => { w with refusedPins := rest }
    match s1.findEvent r.event with
    | some (n, _) => done (s1.setPlan n fun p => { p with clips := p.clips.map (StationClip.refused r) })
    | none => done s1
  | none => nothing s

end Sys2Proof.Machine
end

