-- ==== Sys2Proof/WellFormed.lean ====
section
/-! DEFINITION. Which operands a command may carry. -/
namespace Sys2Proof

/-- A request of R122: aligned to 8 bytes, 1 to 32 beats, inside one 4 KiB page of the 32-bit space, a tag 0 to 15, and one byte entry
per byte of a write. -/
def Request.ok (r : Request) : Bool :=
  r.addr % 8 == 0 && decide (1 ≤ r.beats) && decide (r.beats ≤ 32) && decide (r.addr % 4096 + 8 * r.beats ≤ 4096) &&
    decide (r.addr < 4294967296) && decide (r.tag < 16) &&
    (match r.kind with
      | .read => r.bytes.isEmpty
      | .write => r.bytes.length == 8 * r.beats)

/-- Data that a read can return (R122): 1 to 32 whole words, or nothing with a MEMERR or for a write. -/
def dataOk (data : List Byte) : Bool := data.length % 8 == 0 && decide (data.length ≤ 256)

/-- A write that can be granted into the part of the control page from `lo` up to, and without, `hi`: at least one of its words lies
there, and it has the shape of R122. -/
def PageWrite.ok (w : PageWrite) (lo hi : Nat) : Bool :=
  w.offset % 8 == 0 && w.bytes.length % 8 == 0 && decide (0 < w.bytes.length) && decide (w.bytes.length ≤ 256) &&
    decide (w.offset % 4096 + w.bytes.length ≤ 4096) && decide (w.offset < 8192) && decide (w.tag < 16) &&
    decide (w.offset < hi) && decide (lo < w.offset + w.bytes.length)

/-- The codes that R182 lists. -/
def knownCode (code : Byte) : Bool := decide (1 ≤ code.toNat) && decide (code.toNat ≤ 7)

/-- The checks on each command's operands. -/
def Instr.wellFormed : Instr → Bool
  | .fullReset _ => true
  | .resetRelease _ => true
  | .ppsPulse => true
  | .fieldTimeSecond => true
  | .holdoverDeadline => true
  | .refPulse => true
  | .upstreamRequest r => r.ok
  | .downstreamGrant => true
  | .upstreamCompletion tag _ data => decide (tag < 16) && dataOk data
  | .refetchReadCompletion _ data => dataOk data
  | .copierReadCompletion _ data => dataOk data
  | .copierWriteCompletion _ => true
  | .loaderReadCompletion _ data => dataOk data
  | .reportWriteCompletion _ => true
  | .statusWriteCompletion _ => true
  | .load _ => true
  | .start _ => true
  | .stop _ => true
  | .softReset _ => true
  | .setTime _ => true
  | .dumpTally _ => true
  | .releaseHolds _ => true
  | .unknownCommand code _ => !knownCode code
  | .commandArgumentWrite _ => true
  | .ackWord _ => true
  | .clearWord _ => true
  | .generalSetupWrite w => w.ok 0x100 0x200
  | .stationTableWrite w => w.ok 0x200 0xE00
  | .zoneTableWrite w => w.ok 0xE00 0x1000
  | .scheduleBankWrite w => w.ok 0x1000 0x1300
  | .heartbeatRead => true
  | .serviceDeadline => true
  | .unattendedAtPathGuard => true
  | .unattendedAtReportUnit => true
  | .assemblyTimeout b => decide (b < 8)
  | .blockHandoff st => decide (st < Config.nStations)
  | .silenceDeadline st => decide (st < Config.nStations)
  | .scheduleConditionChange => true
  | .internalCycleTimer => true
  | .markDeadline => true
  | .watchDeadline => true
  | .horizonAdvanceSchedule => true
  | .horizonAdvanceAssociator => true
  | .pickArrival st => decide (st < Config.nStations)
  | .pickClosure st => decide (st < Config.nStations)
  | .closeDeadline ev => decide (0 < ev) && decide (ev < 4294967296)
  | .pinRequest slot => decide (slot < 16384)
  | .pinRefused slot => decide (slot < 16384)
  | .unpin slot => decide (slot < 16384)
  | .cut slot => decide (slot < 16384)
  | .slotCutAnnouncement slot => decide (slot < 16384)
  | .slotFree slot => decide (slot < 16384)
  | .holdLimitExpiry i => decide (i < 4)
  | .readHoldExpiry i => decide (i < 4)
  | .newTrailEntry st => decide (st < Config.nStations)
  | .tailDeadline ev => decide (0 < ev) && decide (ev < 4294967296)
  | .clipUnitStop => true
  | .eventStateRequest ev => decide (0 < ev) && decide (ev < 4294967296)
  | .drainEnd => true
  | .slotCheck => true
  | .reclaimRequest => true

end Sys2Proof
end

