-- ==== Sys2Proof/Machine/Control.lean ====
section
/-! DEFINITION. The host's commands, the drain, the full reset and its release, the clear word and attendance (R29, R152 to R155,
R159 to R164, R167, R175 to R178, R182). -/
namespace Sys2Proof.Machine

/-! ### Deciding a command (R153) -/

abbrev codeStart : Byte := 2
abbrev codeStop : Byte := 3
abbrev codeSoftReset : Byte := 4
abbrev codeSetTime : Byte := 5
abbrev codeReleaseHolds : Byte := 7

/-- A command in progress refuses the new one; a STOP in progress lets some through (R153). -/
def State.busy (throughStop : Bool) (s : State) : Bool :=
  match s.control.inProgress with
  | some (.stop, _) => !throughStop
  | some (.load, _) => true
  | some (.dumpTally, _) => true
  | none => false

/-- The order of R153 for a known code: busy, wrong state, then the command's own act, which makes its own argument check. -/
def State.command (code tag : Byte) (throughStop accepted : Bool) (act : State → State) (s : State) : State :=
  if s.busy throughStop then s.putResult ⟨code, tag, .refusedBusy⟩
  else if accepted = false then s.putResult ⟨code, tag, .refusedState⟩
  else act s

/-- Writes DONE at acceptance. -/
def State.resultDone (code tag : Byte) (s : State) : State := s.putResult ⟨code, tag, .done⟩

/-! ### LOAD (R155) -/

/-- The acceptance of LOAD (R155). -/
def State.acceptLoad (tag : Byte) (s : State) : State :=
  ((s.setControl fun c => { c with inProgress := some (.load, tag), load := some ⟨c.part, 0, [], none⟩ }).setPart .loading).tellSchedule
    .loading

/-- LOAD is accepted in this state (R153). -/
def State.acceptsLoad (s : State) : Bool :=
  match s.control.part with
  | .dormant => true
  | .stopped => s.eventsInUse == 0
  | .loading => false
  | .listening => false
  | .draining => false

/-- LOAD as a command word takes effect. -/
def State.takeLoad (tag : Byte) (s : State) : State := s.command codeLoad tag false s.acceptsLoad (State.acceptLoad tag)

/-- LOAD (R155). -/
def execLoad (tag : Byte) (s : State) : Next := done (s.takeLoad tag)

/-! ### START (R159) -/

/-- The acceptance of START (R25, R64, R101, R137, R159, R175). The completions that it drops (R137) are those of the work
it discards (R136), the refetch reads: the work of the STATUS and REPORT claimants stands (R148, R154, R169), and its completions act (log 48). An
announcement of UNATTENDED on its way still acts (log 50). -/
def State.acceptStart (tag : Byte) (s : State) : State :=
  let s1 := ((s.intakeAnew s.gen.ringSlots).assocAnew).guardAnew
  let s2 := (s1.setPart .listening).engineStart.scheduleStart
  let s3 := s2.setAttend fun a => { a with deadline := if s.gen.serviceInterval = 0 then none else some s.serviceAt }
  s3.resultDone codeStart tag

/-- START as a command word takes effect. -/
def State.takeStart (tag : Byte) (s : State) : State :=
  s.command codeStart tag false (s.control.part == .stopped) (State.acceptStart tag)

/-- START (R159). -/
def execStart (tag : Byte) (s : State) : Next := done (s.takeStart tag)

/-! ### STOP and the drain (R100, R160) -/

/-- The end of a drain (R160, R175; log 8 for a STOP that the Clip Unit has not yet taken). -/
def State.endDrain (s : State) : State :=
  let s1 := ((s.endCommand.setPart .stopped).tellSchedule .stopped).putResult ⟨codeStop, s.control.inProgressTag, .done⟩
  ((s1.setAttend fun a => { a with deadline := none }).setClip fun c => { c with draining := false }).setWires fun w =>
    { w with clipStop := false }

/-- Ends the drain when no event is GATHERING, WAITING_TAIL, COPY_QUEUED or COPYING (R160). -/
def State.settleDrain (s : State) : State := if s.drainCount = 0 then s.endDrain else s

/-- A message on its way to the Associator is taken as its own row would take it (R87, R89). -/
def State.takeMessage (m : AssocMsg) (s : State) : State :=
  match m with
  | .pick p => s.takePick p
  | .closure st onset k => s.applyClosure st onset k

/-- The message is a pick of the station. -/
def AssocMsg.isPickOf (st : Nat) : AssocMsg → Bool
  | .pick p => p.station == st
  | .closure _ _ _ => false

/-- Parts the messages that stand before a pick of their station, or are one, from those that no pick of their station follows, each in
the order sent. -/
def splitAtPicks : List AssocMsg → List AssocMsg × List AssocMsg
  | [] => ([], [])
  | m :: ms =>
    let r := splitAtPicks ms
    if (m :: ms).any (AssocMsg.isPickOf m.station) then (m :: r.1, r.2) else (r.1, m :: r.2)

/-- Every pick sent before STOP reaches the Associator before it, and with it what its station sent ahead of it: no pick made before the
STOP arrives in DRAINING (R58, R87; log 46). The closures that no pick of their station follows stay on their way (R89). -/
def State.takeSentBefore (s : State) : State :=
  (splitAtPicks s.wires.toAssoc).1.foldl (fun t m => t.takeMessage m)
    (s.setWires fun w => { w with toAssoc := (splitAtPicks s.wires.toAssoc).2 })

/-- The closures, those of STOP and those sent before it, that are taken before the Associator closes its events (R89, R100; log 8). -/
def State.closuresFirst (n : Nat) (s : State) : State :=
  let first := fun (m : AssocMsg) => Config.stopClosureFirst n m.station
  let s1 := (s.wires.toAssoc.filter first).foldl (fun t m => t.takeMessage m) s
  s1.setWires fun w => { w with toAssoc := s.wires.toAssoc.filter fun m => !first m }

/-- Closes events with reason STOP, in the order given (R100). -/
def State.closeAtStop (es : List (Nat × Event)) (s : State) : State :=
  es.foldl (fun t q =>
    match t.assoc.events[q.1]? with
    | some (some e) => if e.state = .gathering then t.closeEvent q.1 e .stop else t
    | some none => t
    | none => t) s

/-- The events that STOP closes, in ascending event number (R100). -/
def State.gatheringEvents (s : State) : List (Nat × Event) := s.eventsByNumber.filter fun q => q.2.state == .gathering

/-- STOP closes every event that is GATHERING; the Clip Unit may take STOP between two of the closes (R100, R110; log 8). -/
def State.stopEvents (n : Nat) (s : State) : State :=
  let es := s.gatheringEvents
  let k := Config.stopClosesBeforeClip n
  if k < es.length then ((s.closeAtStop (es.take k)).clipTakesStop).closeAtStop (es.drop k)
  else s.closeAtStop es

/-- The acceptance of STOP (R9, R64, R100, R110, R160). -/
def State.acceptStop (tag : Byte) (s : State) : State :=
  let s0 := s.takeSentBefore
  let s1 := ((s0.setControl fun c => { c with inProgress := some (.stop, tag) }).setPart .draining).tellSchedule .draining
  let s2 := s1.intakeStop.engineStop
  let s3 := { s2.setWires fun w => { w with clipStop := true } with draws := s.draws + 1 }
  ((s3.closuresFirst s.draws).stopEvents s.draws).settleDrain

/-- STOP as a command word takes effect. -/
def State.takeStop (tag : Byte) (s : State) : State :=
  s.command codeStop tag false (s.control.part == .listening) (State.acceptStop tag)

/-- STOP (R160). -/
def execStop (tag : Byte) (s : State) : Next := done (s.takeStop tag)

/-- DRAIN_END (R160). -/
def execDrainEnd (s : State) : Next := if s.control.part = .draining ∧ s.drainCount = 0 then done s.endDrain else nothing s

/-! ### SOFT_RESET (R161) -/

/-- The part state accepts SOFT_RESET (R153). -/
def PartState.acceptsSoftReset : PartState → Bool
  | .stopped => true
  | .listening => true
  | .draining => true
  | .dormant => false
  | .loading => false

/-- Sets the reset cause; a change asks for a rewrite (R152, R169). -/
def State.setCause (c : ResetCause) (s : State) : State :=
  if c = s.control.cause then s else (s.setControl fun x => { x with cause := c }).askRewrite

/-- The acceptance of SOFT_RESET (R25, R64, R81, R101, R120, R137, R148, R161, R166, R171, R175). The requests
that it withdraws and the completions that it drops (R137) are those of the work it discards (R136): the refetch reads, the copier's, and those of
the record writer. What the STATUS claimant has offered is written as offered (R154, R170), and its completions act (log 48). An announcement of
UNATTENDED on its way stands too (log 50). -/
def State.acceptSoftReset (tag : Byte) (s : State) : State :=
  let s1 := s.countUnitErrors.guardAnew.intakeAnew s.gen.ringSlots
  let s2 := s1.engineSoftReset.scheduleSoftReset.assocSoftReset.clipAnew.reportSoftReset
  let s3 := (s2.setStatus fun w => { w with newRecords := 0 }).setAttend fun a => { a with deadline := none }
  (((s3.setPending 0).endCommand.setCause .softReset).setPart .stopped).resultDone codeSoftReset tag

/-- SOFT_RESET as a command word takes effect. -/
def State.takeSoftReset (tag : Byte) (s : State) : State :=
  s.command codeSoftReset tag true s.control.part.acceptsSoftReset (State.acceptSoftReset tag)

/-- SOFT_RESET (R161). -/
def execSoftReset (tag : Byte) (s : State) : Next := done (s.takeSoftReset tag)

/-! ### SET_TIME (R29) -/

/-- SET_TIME with the stored argument, accepted or refused with BAD_ARG (R29). -/
def State.decideSetTime (tag : Byte) (s : State) : State :=
  if s.secondOk s.control.argument.toNat then (s.acceptSecond s.control.argument.toNat).resultDone codeSetTime tag
  else s.putResult ⟨codeSetTime, tag, .badArg⟩

/-- SET_TIME as a command word takes effect. -/
def State.takeSetTime (tag : Byte) (s : State) : State := s.command codeSetTime tag false true (State.decideSetTime tag)

/-- SET_TIME (R29). -/
def execSetTime (tag : Byte) (s : State) : Next := done (s.takeSetTime tag)

/-! ### DUMP_TALLY (R162, R173) -/

/-- The acceptance of DUMP_TALLY (R162): the snapshot first, then the clear that bit 0 of the argument asks for. -/
def State.acceptDump (tag : Byte) (s : State) : State :=
  let s1 := (s.setStatus fun w => { w with dump := some ⟨0x1300, s.snapshot⟩ }).setControl fun c =>
    { c with inProgress := some (.dumpTally, tag) }
  { s1 with tallies := if s.control.argument.getLsbD 0 then .zero else s.tallies }

/-- The part state accepts DUMP_TALLY (R153). -/
def PartState.acceptsDump : PartState → Bool
  | .stopped => true
  | .listening => true
  | .dormant => false
  | .loading => false
  | .draining => false

/-- DUMP_TALLY as a command word takes effect. -/
def State.takeDumpTally (tag : Byte) (s : State) : State :=
  s.command codeDumpTally tag false s.control.part.acceptsDump (State.acceptDump tag)

/-- DUMP_TALLY (R162). -/
def execDumpTally (tag : Byte) (s : State) : Next := done (s.takeDumpTally tag)

/-! ### RELEASE_HOLDS (R163) -/

/-- Cuts every slot whose pin count is above zero (R12). -/
def State.cutAll (s : State) : State := (List.range s.intake.dir.length).foldl (fun t n => t.cutSlot n) s

/-- The acceptance of RELEASE_HOLDS (R12, R132, R163). -/
def State.acceptReleaseHolds (tag : Byte) (s : State) : State := (s.cutAll.releaseHeld Held.isRead).resultDone codeReleaseHolds tag

/-- RELEASE_HOLDS as a command word takes effect. -/
def State.takeReleaseHolds (tag : Byte) (s : State) : State :=
  s.command codeReleaseHolds tag true s.control.part.serviced (State.acceptReleaseHolds tag)

/-- RELEASE_HOLDS (R163). -/
def execReleaseHolds (tag : Byte) (s : State) : Next := done (s.takeReleaseHolds tag)

/-! ### Other words of the control line (R153, R167) -/

/-- A command word with an unknown code (R153). -/
def State.takeUnknown (code tag : Byte) (s : State) : State :=
  if s.busy false then s.putResult ⟨code, tag, .refusedBusy⟩ else s.putResult ⟨code, tag, .badArg⟩

/-- UNKNOWN_COMMAND (R153). A code that R182 lists makes no such command (log 11). -/
def execUnknownCommand (code tag : Byte) (s : State) : Next :=
  if knownCode code then .refused .malformedCommand else done (s.takeUnknown code tag)

/-- The stored argument becomes the argument word (R153). -/
def State.storeArgument (arg : BitVec 64) (s : State) : State := s.setControl fun c => { c with argument := arg }

/-- COMMAND_ARGUMENT_WRITE (R153). -/
def execCommandArgumentWrite (arg : BitVec 64) (s : State) : Next := done (s.storeArgument arg)

/-- The kinds named leave the pending set (R167). -/
def State.clearKinds (kinds : BitVec 24) (s : State) : State := s.setPending (s.status.pending &&& ~~~kinds)

/-- CLEAR_WORD (R167). -/
def execClearWord (kinds : BitVec 24) (s : State) : Next := done (s.clearKinds kinds)

/-- The command word with a code (R153, R182). -/
def State.takeCommand (code tag : Byte) (s : State) : State :=
  if code = codeLoad then s.takeLoad tag
  else if code = codeStart then s.takeStart tag
  else if code = codeStop then s.takeStop tag
  else if code = codeSoftReset then s.takeSoftReset tag
  else if code = codeSetTime then s.takeSetTime tag
  else if code = codeDumpTally then s.takeDumpTally tag
  else if code = codeReleaseHolds then s.takeReleaseHolds tag
  else s.takeUnknown code tag

/-! ### Attendance (R175 to R178) -/

/-- The return to ATTENDED (R178). -/
def State.becomeAttended (s : State) : State :=
  if s.attend.unattended then ((s.setAttend fun a => { a with unattended := false }).raise .attendance).askRewrite else s

/-- A heartbeat read reported by the Path Guard (R175, R178). -/
def State.heartbeatRead (s : State) : State :=
  let s1 := if s.control.part.serviced ∧ s.gen.serviceInterval ≠ 0 then
      s.setAttend fun a => { a with deadline := some s.serviceAt }
    else s
  s1.becomeAttended

/-- HEARTBEAT_READ (R175): without a region map no read is reported (log 37). -/
def execHeartbeatRead (s : State) : Next := if s.loaded then done s.heartbeatRead else nothing s

/-- The change to UNATTENDED, announced to the Path Guard and to the Report Unit (R176, R177). -/
def State.becomeUnattended (s : State) : State :=
  let s1 := (s.setAttend fun a => { a with unattended := true }).setWires fun w =>
    { w with unattGuard := w.unattGuard + 1, unattReport := w.unattReport + 1 }
  ((s1.raise .attendance).count .unattendedEntries).askRewrite

/-- SERVICE_DEADLINE (R176). -/
def execServiceDeadline (s : State) : Next :=
  if reached s.now s.attend.deadline then
    let s1 := s.setAttend fun a => { a with deadline := none }
    done (if s.attend.unattended then s1 else s1.becomeUnattended)
  else nothing s

/-! ### Full reset (R164) -/

/-- The cause a full reset leaves (R152, R164). -/
def resetCause : ResetKind → ResetCause
  | .powerOn => .powerOn
  | .resetPin => .resetPin

/-- FULL_RESET (R164; log 39): every block at its reset value, held in reset until the release. -/
def execFullReset (kind : ResetKind) (s : State) : Next :=
  .next { State.reset with control := { Control.reset with cause := resetCause kind }, draws := s.draws, pending := s.pending }

/-- The release of a full reset (R150, R154, R164, R169). -/
def State.release (setupBase : Byte) (s : State) : State :=
  ((s.setControl fun c => { c with released := true, pageBase := some (setupBase.toNat * 1048576) }).putResult ⟨0, 0, .empty⟩).askRewrite

/-- RESET_RELEASE (R164). -/
def execResetRelease (setupBase : Byte) (s : State) : Next := if s.control.released then nothing s else done (s.release setupBase)

end Sys2Proof.Machine
end

