-- ==== Sys2Proof/Machine/PathGuard.lean ====
section
/-! DEFINITION. The Path Guard: the region map, classification, holds, the arbiter and the upstream port (R122 to R137). -/
namespace Sys2Proof.Machine

/-! ### The region map (R124) -/

/-- The bytes of a request. -/
def reqBytes (r : Request) : Nat := 8 * r.beats

/-- All beats of a request lie in an extent (R124). -/
def liesIn (base len : Nat) (r : Request) : Bool := decide (base ≤ r.addr) && decide (r.addr + reqBytes r ≤ base + len)

/-- Some beat of a request lies in an extent. -/
def touches (base len : Nat) (r : Request) : Bool := decide (r.addr < base + len) && decide (base < r.addr + reqBytes r)

/-- Where a request lies under the region map (R124). -/
inductive Place where
  | ring
  | clipStore
  | reportRing
  | page
  | elsewhere
  | straddles
  deriving DecidableEq, Repr

/-- Where a request lies (R124). -/
def State.place (r : Request) (s : State) : Place :=
  let g := s.gen
  if liesIn g.ringBase (512 * g.ringSlots) r then .ring
  else if liesIn g.clipBase g.clipSize r then .clipStore
  else if liesIn g.reportBase (512 * g.reportCap) r then .reportRing
  else if liesIn s.page 8192 r then .page
  else if touches g.ringBase (512 * g.ringSlots) r || touches g.clipBase g.clipSize r || touches g.reportBase (512 * g.reportCap) r ||
    touches s.page 8192 r then .straddles
  else .elsewhere

/-! ### Classification (R125 to R128, R130, R132, R133) -/

/-- What a classification decides: to grant, after a cut of the slots named; to refuse; or to hold (R128). -/
inductive Verdict128 where
  | grant (cuts : List Nat)
  | refuse
  | hold (kind : HoldKind)
  deriving DecidableEq, Repr

/-- The hold limit in force, in µs (R130). -/
def State.holdLimit (s : State) : Nat := if s.attend.unattended then 0 else s.gen.holdLimit * 1000

/-- A ring write (R125, R130; log 22 for two pinned slots). -/
def State.classifyRingWrite (r : Request) (s : State) : Verdict128 :=
  if s.gen.writerTags.getLsbD r.tag then
    match s.pinnedOpens r with
    | n :: ns => if s.holdLimit = 0 then .grant (n :: ns) else .hold (.write n)
    | [] => .grant []
  else .refuse

/-- The read touches a unit of the announced range (R119, R132). -/
def State.touchesRange (r : Request) (s : State) : Bool :=
  match s.guard.range with
  | some (first, n) => touches (s.gen.clipBase + 512 * first) (512 * n) r
  | none => false

/-- A clip store read (R125, R132, R133). -/
def State.classifyClipRead (releasedRead : Bool) (r : Request) (s : State) : Verdict128 :=
  if !releasedRead && s.gen.hostTags.getLsbD r.tag && s.touchesRange r && s.holdLimit != 0 then .hold (.read false) else .grant []

/-- A control page write touches the result word, the status line or the tally area (R126, R181). -/
def touchesPartArea (off : Nat) (r : Request) : Bool :=
  let q : Request := { r with addr := off }
  touches 0x40 8 q || touches 0x80 72 q || touches 0x1300 3328 q

/-- A control page write (R126). -/
def State.classifyPageWrite (r : Request) (s : State) : Verdict128 :=
  if s.gen.hostTags.getLsbD r.tag && !touchesPartArea (r.addr - s.page) r && r.bytes.all Option.isSome then .grant [] else .refuse

/-- The classification of a request; `releasedRead` is the released-read mark (R125, R126, R133). Without a region map every request
passes. -/
def State.classify (releasedRead : Bool) (r : Request) (s : State) : Verdict128 :=
  if s.loaded then
    match s.place r, r.kind with
    | .ring, .read => .grant []
    | .ring, .write => s.classifyRingWrite r
    | .clipStore, .read => s.classifyClipRead releasedRead r
    | .clipStore, .write => .refuse
    | .reportRing, .read => .grant []
    | .reportRing, .write => .refuse
    | .page, .read => .grant []
    | .page, .write => s.classifyPageWrite r
    | .elsewhere, _ => .grant []
    | .straddles, _ => .refuse
  else .grant []

/-! ### Control page words (R126, R153, R157) -/

/-- A word of the control line, but for the command word (R126, R182). -/
def State.controlWord (off : Nat) (w : List Byte) (s : State) : State :=
  if off = 0x08 then s.storeArgument (BitVec.ofNat 64 (leVal w))
  else if off = 0x10 then s.takeAck (field w 0 2)
  else if off = 0x18 then s.clearKinds (BitVec.ofNat 24 (field w 0 3))
  else s

/-- The command word of a write, once every word has been handed over (R153). -/
def State.commandWord (off : Nat) (w : List Byte) (s : State) : State :=
  if off = 0 then s.takeCommand (w.getD 0 0) (w.getD 1 0) else s

/-- Hands over the words of a control page write with all their strobes set, in address order, the command last (R126, R153, R157). -/
def State.takePageWrite (w : PageWrite) (s : State) : State :=
  let ws := wordsFrom (w.bytes.length / 8) w.offset w.bytes
  let handed := ws.filterMap fun p => (fullWord p.2).map fun bs => (p.1, bs)
  let s1 := handed.foldl (fun t p => t.controlWord p.1 p.2) s
  let s2 := s1.setupWrite 0x100 0x1300 w
  handed.foldl (fun t p => t.commandWord p.1 p.2) s2

/-- A read covers the heartbeat word (R183). -/
def coversHeartbeat (off : Nat) (r : Request) : Bool := decide (off ≤ 0x90) && decide (0x98 ≤ off + reqBytes r)

/-- What the blocks take from a granted request (R2, R126, R128). -/
def State.takeMeaning (r : Request) (s : State) : State :=
  match s.control.pageBase with
  | some base =>
    if liesIn base 8192 r then
      match r.kind with
      | .write => s.takePageWrite ⟨r.tag, r.addr - base, r.bytes⟩
      | .read => if s.loaded && s.gen.hostTags.getLsbD r.tag && coversHeartbeat (r.addr - base) r then s.heartbeatRead else s
    else
      match r.kind with
      | .write => if s.loaded && s.place r == .ring then s.takeRingWrite r else s
      | .read => s
  | none => s

/-! ### Candidates (R128, R129) -/

/-- PASS's candidate (R128). -/
inductive Candidate where
  | held (place : Nat)
  | queued (place : Nat)
  deriving DecidableEq, Repr

/-- The place of the RELEASED entry that was released earliest, counted from `i`, with its number (R128). -/
def earliestReleased : Nat → List Held → Option (Nat × Nat)
  | _, [] => none
  | i, h :: hs =>
    match h.state, earliestReleased (i + 1) hs with
    | .released n, some (j, m) => if m < n then some (j, m) else some (i, n)
    | .released n, none => some (i, n)
    | .held _, r => r

/-- A tag is held back: it has an entry in the held list, or a request waiting for room (R128, R129). -/
def PathGuard.heldBack (g : PathGuard) (tag : Nat) : Bool :=
  g.held.any (fun h => h.req.tag == tag) || g.queue.any (fun q => q.waiting && q.req.tag == tag)

/-- PASS's candidate (R128). -/
def PathGuard.candidate (g : PathGuard) : Option Candidate :=
  match earliestReleased 0 g.held with
  | some (i, _) => some (.held i)
  | none => (placeOf (fun q => !g.heldBack q.req.tag) 0 g.queue).map .queued

/-- The request of a candidate, with its released-read mark. -/
def PathGuard.request (g : PathGuard) : Candidate → Option (Request × Bool)
  | .held i =>
    match g.held[i]? with
    | some h => some (h.req, match h.kind with
      | .read mark => mark
      | .write _ => false)
    | none => none
  | .queued i => (g.queue[i]?).map fun q => (q.req, false)

/-- A candidate leaves the queue or the held list; a place in the held list offers the requests that wait for room anew (R129). -/
def PathGuard.remove (g : PathGuard) : Candidate → PathGuard
  | .held i => { g with held := removeAt i g.held, queue := g.queue.map fun q => { q with waiting := false } }
  | .queued i => { g with queue := removeAt i g.queue }

/-- The oldest unanswered request of a tag that still waits is decided (R122). -/
def decideOldest (tag : Nat) (p : Progress) : List Unanswered → List Unanswered
  | [] => []
  | u :: us => if u.tag = tag ∧ u.prog = .waiting then { u with prog := p } :: us else u :: decideOldest tag p us

/-- Records how a request was decided (R122). -/
def State.decided (tag : Nat) (p : Progress) (s : State) : State :=
  s.setGuard fun g => { g with unanswered := decideOldest tag p g.unanswered }

/-! ### The outcomes that are no grant (R127, R129, R130, R132, R133) -/

/-- REFUSE (R127). -/
def State.refuse (c : Candidate) (r : Request) (s : State) : State :=
  (((s.setGuard fun g => g.remove c).decided r.tag .refused).count .refusedRequests).raise .refusedRequest

/-- The tally of a hold (R130, R132). -/
def HoldKind.tally : HoldKind → Tally
  | .write _ => .holds
  | .read _ => .readHolds

/-- HOLD or WAIT (R128 to R130, R132, R133): a queued request enters the list, or is marked waiting for room when the list is full; a
RELEASED entry returns to HELD in its own place. -/
def State.hold (c : Candidate) (r : Request) (k : HoldKind) (s : State) : State :=
  let d := some (deadline s.now s.holdLimit)
  match c with
  | .held i => (s.setGuard fun g => { g with held := g.held.modify i fun h => { h with kind := k, state := .held d } }).count k.tally
  | .queued i =>
    if s.guard.held.length < 4 then
      (s.setGuard fun g => { g with held := g.held ++ [⟨r, k, .held d⟩], queue := removeAt i g.queue }).count k.tally
    else s.setGuard fun g => { g with queue := g.queue.modify i fun q => { q with waiting := true } }

/-! ### Grants (R134, R135) -/

/-- A grant is counted; the sixteenth ends the frame, and the next one takes the part share in force (R134; log 20). -/
def State.countGrant (s : State) : State :=
  if s.guard.grantCount < 15 then s.setGuard fun g => { g with grantCount := g.grantCount + 1 }
  else s.setGuard fun g => { g with grantCount := 0, shareCount := 0, frameShare := s.gen.partShare }

/-- GRANT to PASS's candidate: the cuts, the request to memory, and what the blocks take from it (R11, R128, R130). -/
def State.grantPass (c : Candidate) (r : Request) (cuts : List Nat) (s : State) : State :=
  let s1 := ((s.setGuard fun g => g.remove c).decided r.tag .granted).sendPass r
  ((cuts.foldl (fun t n => t.cutSlot n) s1).takeMeaning r).countGrant

/-- The claimant waits (R134). -/
def State.waits (s : State) : Claimant → Bool
  | .loader => s.loaderOffer.isSome
  | .status => s.status.offer.isSome
  | .report => s.reportOffer.isSome
  | .refetch => s.refetchOffer.isSome
  | .copier => s.copierOffer.isSome

/-- The claimants in cyclic order after one (R135). -/
def Claimant.after : Claimant → List Claimant
  | .loader => [.status, .report, .refetch, .copier, .loader]
  | .status => [.report, .refetch, .copier, .loader, .status]
  | .report => [.refetch, .copier, .loader, .status, .report]
  | .refetch => [.copier, .loader, .status, .report, .refetch]
  | .copier => [.loader, .status, .report, .refetch, .copier]

/-- The part claimant that R135 chooses. -/
def State.nextClaimant (s : State) : Option Claimant := s.guard.lastServed.after.find? s.waits

/-- The grant of a claimant's request (R22, R115, R141, R155, R169). -/
def State.grantOwn (c : Claimant) (s : State) : State :=
  match c with
  | .loader => s.grantLoader
  | .status => s.grantStatus
  | .report => s.grantReport
  | .refetch =>
    match s.refetchOffer with
    | some (addr, beats) => s.grantRefetch addr beats
    | none => s
  | .copier => s.grantCopier

/-- A grant to a part claimant; `shared` when PASS waited too (R134, R135). -/
def State.grantPart (c : Claimant) (shared : Bool) (s : State) : State :=
  ((s.setGuard fun g => { g with lastServed := c, shareCount := g.shareCount + (if shared then 1 else 0) }).grantOwn c).countGrant

/-- What becomes of a try of PASS's candidate: a grant, or a new choice in the same event (R128). -/
inductive PassOutcome where
  | granted (s : State)
  | again (s : State)

/-- The grant goes to PASS, whose candidate is classified (R128). -/
def State.tryPass (c : Candidate) (s : State) : PassOutcome :=
  match s.guard.request c with
  | some (r, mark) =>
    match s.classify mark r with
    | .grant cuts => .granted (s.grantPass c r cuts)
    | .refuse => .again (s.refuse c r)
    | .hold k => .again (s.hold c r k)
  | none => .granted s

/-- The arbiter decides, and decides again in the same event while PASS's classification ends in no GRANT, at most `n` times (R128,
R134). -/
def State.arbitrate : Nat → State → State
  | 0, s => s
  | n + 1, s =>
    match s.guard.candidate, s.nextClaimant with
    | some c, p =>
      match p, decide (s.guard.shareCount < s.guard.frameShare) with
      | some q, true => s.grantPart q true
      | _, _ =>
        match s.tryPass c with
        | .granted t => t
        | .again t => t.arbitrate n
    | none, some p => s.grantPart p false
    | none, none => s

/-- More tries than one event can make: each takes a request out of the queue, puts one back into the list, or marks one (R129). -/
abbrev tries : Nat := 512

/-- DOWNSTREAM_GRANT (R134): the channel can take a request. -/
def execDownstreamGrant (s : State) : Next :=
  if s.guard.candidate.isNone && s.nextClaimant.isNone then nothing s else done (s.arbitrate tries)

/-! ### The upstream port (R122, R123) -/

/-- UPSTREAM_REQUEST (R123): accepted when the queue holds fewer than 16 requests; otherwise the initiator waits (log 34). A request
that breaks R122 is none (log 11). -/
def execUpstreamRequest (r : Request) (s : State) : Next :=
  if !r.ok then .refused .malformedCommand
  else if s.guard.queue.length < 16 then
    done (s.setGuard fun g =>
      { g with queue := g.queue ++ [⟨r, false⟩], unanswered := g.unanswered ++ [⟨r.tag, r.kind, r.beats, .waiting⟩] })
  else nothing s

/-- The data that goes upstream with a completion of memory (R122; log 10). -/
def Unanswered.data (u : Unanswered) (code : MemCode) (data : List Byte) : List Byte :=
  match u.kind, code with
  | .read, .okay => fit (8 * u.beats) data
  | .read, .memerr => data
  | .write, _ => []

/-- The data of a REFUSED completion (R122). -/
def Unanswered.zeros (u : Unanswered) : List Byte :=
  match u.kind with
  | .read => Machine.zeros (8 * u.beats)
  | .write => []

/-- The code that passes upstream (R122). -/
def upCode : MemCode → Code
  | .okay => .okay
  | .memerr => .memerr

/-- UPSTREAM_COMPLETION (R122, R136; log 32): the oldest unanswered request of the tag is answered. -/
def execUpstreamCompletion (tag : Nat) (code : MemCode) (data : List Byte) (s : State) : Next :=
  match takeFirst (fun (u : Unanswered) => u.tag == tag) s.guard.unanswered with
  | some (u, rest) =>
    let s1 := s.setGuard fun g => { g with unanswered := rest }
    match u.prog with
    | .refused => done (s1.setGuard fun g => { g with upstream := some ⟨tag, .refused, u.zeros⟩ })
    | .granted =>
      match s1.complete (· == .pass tag) with
      | some (_, s2) => done (s2.setGuard fun g => { g with upstream := some ⟨tag, upCode code, u.data code data⟩ })
      | none => nothing s
    | .waiting => nothing s
  | none => nothing s

/-! ### Releases (R131, R132, R177) -/

/-- SLOT_FREE (R131): an announcement that the slot is free releases the writes held for it. -/
def execSlotFree (slot : Nat) (s : State) : Next :=
  match takeFirst (fun m => m == slot) s.wires.slotFree with
  | some (_, rest) => done ((s.setWires fun w => { w with slotFree := rest }).releaseHeld (Held.onSlot slot))
  | none => nothing s

/-- The deadline of a HELD entry has been reached. -/
def Held.due (now : Nat) (h : Held) : Bool :=
  match h.state with
  | .held d => reached now d
  | .released _ => false

/-- HOLD_LIMIT_EXPIRY (R131): a cut of the slot is asked, whose announcement releases the entry (log 21); it stays asked when an unpin releases
the entry first (log 49). -/
def execHoldLimitExpiry (i : Nat) (s : State) : Next :=
  match s.guard.held[i]? with
  | some h =>
    match h.kind with
    | .write slot =>
      if h.due s.now then
        let s1 := s.setGuard fun g => { g with held := g.held.modify i fun x => { x with state := .held none } }
        done (s1.setWires fun w => { w with cutRequests := w.cutRequests ++ [slot] })
      else nothing s
    | .read _ => nothing s
  | none => nothing s

/-- READ_HOLD_EXPIRY (R132). -/
def execReadHoldExpiry (i : Nat) (s : State) : Next :=
  match s.guard.held[i]? with
  | some h =>
    if h.isRead && h.due s.now then
      done (s.setGuard fun g => { g with held := g.held.modify i (Held.release g.releases), releases := g.releases + 1 })
    else nothing s
  | none => nothing s

/-- The slots of the HELD WRITE entries, in list order. -/
def heldSlots : List Held → List Nat
  | [] => []
  | h :: hs =>
    match h.kind with
    | .write n => if h.isHeld then n :: heldSlots hs else heldSlots hs
    | .read _ => heldSlots hs

/-- UNATTENDED_AT_PATH_GUARD (R131, R132, R177): every HELD entry is released, writes with a cut of their slots in list order; so also when the
state has returned to ATTENDED since, or a START, a LOAD or a SOFT_RESET has come between (log 50). -/
def execUnattendedAtPathGuard (s : State) : Next :=
  if s.wires.unattGuard = 0 then nothing s
  else
    let s1 := s.setWires fun w => { w with unattGuard := w.unattGuard - 1 }
    done (((heldSlots s.guard.held).foldl (fun t n => t.cutSlot n) s1).releaseHeld fun _ => true)

end Sys2Proof.Machine
end

