-- ==== Sys2Proof/Machine/Dispatch.lean ====
section
/-! DEFINITION. One arm per command: its meaning, or its rejection by name. -/
namespace Sys2Proof.Machine

/-- The effect of a command on everything but the queue. -/
def exec (i : Instr) (s : State) : Host.Outcome State Fault Refusal :=
  match i with
  | .fullReset kind => Sys2Proof.Machine.execFullReset kind s
  | .resetRelease setupBase => Sys2Proof.Machine.execResetRelease setupBase s
  | .ppsPulse => Sys2Proof.Machine.execPpsPulse s
  | .fieldTimeSecond => Sys2Proof.Machine.execFieldTimeSecond s
  | .holdoverDeadline => Sys2Proof.Machine.execHoldoverDeadline s
  | .refPulse => Sys2Proof.Machine.execRefPulse s
  | .upstreamRequest r => Sys2Proof.Machine.execUpstreamRequest r s
  | .downstreamGrant => Sys2Proof.Machine.execDownstreamGrant s
  | .upstreamCompletion tag code data => Sys2Proof.Machine.execUpstreamCompletion tag code data s
  | .refetchReadCompletion code data => Sys2Proof.Machine.execRefetchReadCompletion code data s
  | .copierReadCompletion code data => Sys2Proof.Machine.execCopierReadCompletion code data s
  | .copierWriteCompletion code => Sys2Proof.Machine.execCopierWriteCompletion code s
  | .loaderReadCompletion code data => Sys2Proof.Machine.execLoaderReadCompletion code data s
  | .reportWriteCompletion code => Sys2Proof.Machine.execReportWriteCompletion code s
  | .statusWriteCompletion code => Sys2Proof.Machine.execStatusWriteCompletion code s
  | .load tag => Sys2Proof.Machine.execLoad tag s
  | .start tag => Sys2Proof.Machine.execStart tag s
  | .stop tag => Sys2Proof.Machine.execStop tag s
  | .softReset tag => Sys2Proof.Machine.execSoftReset tag s
  | .setTime tag => Sys2Proof.Machine.execSetTime tag s
  | .dumpTally tag => Sys2Proof.Machine.execDumpTally tag s
  | .releaseHolds tag => Sys2Proof.Machine.execReleaseHolds tag s
  | .unknownCommand code tag => Sys2Proof.Machine.execUnknownCommand code tag s
  | .commandArgumentWrite arg => Sys2Proof.Machine.execCommandArgumentWrite arg s
  | .ackWord index => Sys2Proof.Machine.execAckWord index s
  | .clearWord kinds => Sys2Proof.Machine.execClearWord kinds s
  | .generalSetupWrite w => Sys2Proof.Machine.execGeneralSetupWrite w s
  | .stationTableWrite w => Sys2Proof.Machine.execStationTableWrite w s
  | .zoneTableWrite w => Sys2Proof.Machine.execZoneTableWrite w s
  | .scheduleBankWrite w => Sys2Proof.Machine.execScheduleBankWrite w s
  | .heartbeatRead => Sys2Proof.Machine.execHeartbeatRead s
  | .serviceDeadline => Sys2Proof.Machine.execServiceDeadline s
  | .unattendedAtPathGuard => Sys2Proof.Machine.execUnattendedAtPathGuard s
  | .unattendedAtReportUnit => Sys2Proof.Machine.execUnattendedAtReportUnit s
  | .assemblyTimeout buffer => Sys2Proof.Machine.execAssemblyTimeout buffer s
  | .blockHandoff station => Sys2Proof.Machine.execBlockHandoff station s
  | .silenceDeadline station => Sys2Proof.Machine.execSilenceDeadline station s
  | .scheduleConditionChange => Sys2Proof.Machine.execScheduleConditionChange s
  | .internalCycleTimer => Sys2Proof.Machine.execInternalCycleTimer s
  | .markDeadline => Sys2Proof.Machine.execMarkDeadline s
  | .watchDeadline => Sys2Proof.Machine.execWatchDeadline s
  | .horizonAdvanceSchedule => Sys2Proof.Machine.execHorizonAdvanceSchedule s
  | .horizonAdvanceAssociator => Sys2Proof.Machine.execHorizonAdvanceAssociator s
  | .pickArrival station => Sys2Proof.Machine.execPickArrival station s
  | .pickClosure station => Sys2Proof.Machine.execPickClosure station s
  | .closeDeadline event => Sys2Proof.Machine.execCloseDeadline event s
  | .pinRequest slot => Sys2Proof.Machine.execPinRequest slot s
  | .pinRefused slot => Sys2Proof.Machine.execPinRefused slot s
  | .unpin slot => Sys2Proof.Machine.execUnpin slot s
  | .cut slot => Sys2Proof.Machine.execCut slot s
  | .slotCutAnnouncement slot => Sys2Proof.Machine.execSlotCutAnnouncement slot s
  | .slotFree slot => Sys2Proof.Machine.execSlotFree slot s
  | .holdLimitExpiry place => Sys2Proof.Machine.execHoldLimitExpiry place s
  | .readHoldExpiry place => Sys2Proof.Machine.execReadHoldExpiry place s
  | .newTrailEntry station => Sys2Proof.Machine.execNewTrailEntry station s
  | .tailDeadline event => Sys2Proof.Machine.execTailDeadline event s
  | .clipUnitStop => Sys2Proof.Machine.execClipUnitStop s
  | .eventStateRequest event => Sys2Proof.Machine.execEventStateRequest event s
  | .drainEnd => Sys2Proof.Machine.execDrainEnd s
  | .slotCheck => Sys2Proof.Machine.execSlotCheck s
  | .reclaimRequest => Sys2Proof.Machine.execReclaimRequest s

end Sys2Proof.Machine
end

