-- ==== Sys2Proof/Safety.lean ====
section
/-! DEFINITION. What claims call a good step and a good state: the laws the manual states of the part, as predicates of a state. -/
namespace Sys2Proof.Machine

/-! ### Frames -/

/-- The parts of the state, for what a command leaves as it was. The status record is three of them: the pending set with IRQ, the status
line writer (rewrite flag, result, offer), and the counts it carries (heartbeat, new records, dump). -/
inductive Area where
  | time
  | control
  | intake
  | engine
  | sched
  | assoc
  | clip
  | guard
  | report
  | notices
  | writer
  | line
  | tallies
  | attend
  | wires
  | draws
  | pending
  deriving DecidableEq, Repr

/-- Two states agree in an area. -/
def Same (s t : State) : Area → Prop
  | .time => t.time = s.time
  | .control => t.control = s.control
  | .intake => t.intake = s.intake
  | .engine => t.engine = s.engine
  | .sched => t.sched = s.sched
  | .assoc => t.assoc = s.assoc
  | .clip => t.clip = s.clip
  | .guard => t.guard = s.guard
  | .report => t.report = s.report
  | .notices => t.status.pending = s.status.pending ∧ t.status.irq = s.status.irq
  | .writer => t.status.rewrite = s.status.rewrite ∧ t.status.result = s.status.result ∧ t.status.offer = s.status.offer
  | .line => t.status.heartbeat = s.status.heartbeat ∧ t.status.newRecords = s.status.newRecords ∧ t.status.dump = s.status.dump
  | .tallies => t.tallies = s.tallies
  | .attend => t.attend = s.attend
  | .wires => t.wires = s.wires
  | .draws => t.draws = s.draws
  | .pending => t.pending = s.pending

/-- Nothing differs but the areas named. -/
def Frame (changed : List Area) (s t : State) : Prop := ∀ a, a ∉ changed → Same s t a

/-- A result stands with the status line writer: waiting, or offered already (R154, R170). -/
def State.hasResult (r : Result) (t : State) : Prop := t.status.result = some r ∨ t.status.offer = some (.result r)

/-- Entries taken from entry `i` at field time `now`, in the cycle `n` that began at `start`, from the mute interval list `vs`, leave the
pointer, the mark deadline and the list of `c` (R76): an entry whose mark is reached acts at once, and taking goes on (log 27); a deadline is
set from the recorded cycle start (log 51). A bank has 48 entries. -/
inductive EntriesTaken (now start n : Nat) (es : List BankEntry) : Nat → List Interval → Schedule → Prop where
  | stops {i : Nat} {vs : List Interval} {c : Schedule} : (∀ e, es[i]? = some e → e.action = 0 ∨ 48 < i) → c.pointer = some (.stopped i) →
      c.markDeadline = none → c.intervals = vs → EntriesTaken now start n es i vs c
  | waits {i : Nat} {vs : List Interval} {c : Schedule} {e : BankEntry} : es[i]? = some e →
      (e.action = 5 ∨ e.action ≠ 0 ∧ n % e.rep = e.first ∧ now < min (start + e.mark * 100) (2 ^ 48 - 1)) → c.pointer = some (.on i) →
      c.markDeadline = some (min (start + e.mark * 100) (2 ^ 48 - 1)) → c.intervals = vs → EntriesTaken now start n es i vs c
  | passes {i : Nat} {vs : List Interval} {c : Schedule} {e : BankEntry} : es[i]? = some e → e.action ≠ 0 → e.action ≠ 5 →
      n % e.rep ≠ e.first → EntriesTaken now start n es (i + 1) vs c → EntriesTaken now start n es i vs c
  | acts {i : Nat} {vs : List Interval} {c : Schedule} {e : BankEntry} : es[i]? = some e → e.action ≠ 0 → e.action ≠ 5 →
      n % e.rep = e.first → min (start + e.mark * 100) (2 ^ 48 - 1) ≤ now → EntriesTaken now start n es (i + 1) (e.act now vs) c →
      EntriesTaken now start n es i vs c

/-- A cycle start (R74, R75), from `s` to `t`, at the field time of `s`: the staged copy is taken or discarded, with its notices and
tallies, the count advances, the cycle start is recorded, every open interval is closed, and entries are taken from entry 0 of the active
bank, so that every interval that is open has been opened in this event. -/
structure CycleStarted (s t : State) : Prop where
  start : t.sched.cycleStart = some s.time.count
  count : t.sched.cycleCount = some (match s.sched.cycleCount with
    | some n => if n < s.gen.cycleMax then n + 1 else 0
    | none => 0)
  period : t.sched.period = match s.sched.stagedPeriod with
    | some p => if 100 ≤ p ∧ p ≤ 65535 then some p else s.sched.period
    | none => s.sched.period
  active : t.sched.active = match s.sched.stagedBank.bind bankOfByte with
    | some n => if s.sched.active = some n ∨ bankValid (s.sched.bank n) then some n else s.sched.active
    | none => s.sched.active
  staged : t.sched.stagedPeriod = none ∧ t.sched.stagedBank = none
  banks : t.sched.bankA = s.sched.bankA ∧ t.sched.bankB = s.sched.bankB
  timer : t.sched.timer = if s.gen.refSource = .internal then some (min (s.time.count + t.sched.period.getD 0 * 100) (2 ^ 48 - 1)) else s.sched.timer
  entries : EntriesTaken s.time.count s.time.count (t.sched.cycleCount.getD 0) t.sched.entries 0
    (s.sched.intervals.map fun v => if v.endT = none then { v with endT := some s.time.count } else v) t.sched
  intervals : ∀ v ∈ t.sched.intervals, v.endT = none → v.beginT = s.time.count
  outcome : ∃ a b c : State,
    a = (if ∃ p, s.sched.stagedPeriod = some p ∧ ¬ (100 ≤ p ∧ p ≤ 65535) then s.setupIgnored else s) ∧
    b = (if ∃ x, s.sched.stagedBank = some x ∧ bankOfByte x = none then a.setupIgnored else a) ∧
    c = (if ∃ n, s.sched.stagedBank.bind bankOfByte = some n ∧ s.sched.active ≠ some n ∧ bankValid (s.sched.bank n) = false then
      b.raise .scheduleFault else b) ∧
    t.status.pending = c.status.pending ∧ t.tallies = c.tallies

/-- The schedule record after a change of its conditions (R71), from the record of `s`, at the field time of `s`: the table's state; on
entry to WAIT_REF, and on leaving the running states, what the rule makes of the record; every other field stands. -/
structure ScheduleMoved (listening enabled onEpoch : Prop) (s : State) (c : Schedule) : Prop where
  idle : ¬ listening ∨ ¬ enabled → c.state = .idle
  waitTime : listening → enabled → ¬ onEpoch → c.state = .waitTime
  waitRef : listening → enabled → onEpoch → s.sched.state = .idle ∨ s.sched.state = .waitTime → c = { s.sched with
    state := .waitRef, cycleCount := some s.gen.cycleMax, lastRef := none,
    timer := if s.gen.refSource = .internal then some (min (s.time.count + s.sched.period.getD 0 * 100) (2 ^ 48 - 1))
      else s.sched.timer }
  kept : listening → enabled → onEpoch → s.sched.state ≠ .idle → s.sched.state ≠ .waitTime → c = s.sched
  left : s.sched.state ≠ .idle → s.sched.state ≠ .waitTime → c.state = .idle ∨ c.state = .waitTime → c = { s.sched with
    state := c.state, cycleStart := none, pointer := none, markDeadline := none, timer := none, lastRef := none,
    cycleCount := some s.gen.cycleMax,
    intervals := s.sched.intervals.map fun v => if v.endT = none then { v with endT := some s.time.count } else v }
  still : s.sched.state = .idle ∨ s.sched.state = .waitTime → c.state = .idle ∨ c.state = .waitTime → c = { s.sched with state := c.state }

/-! ### The record writer and the copy queue (R111, R140) -/

/-- The event stands in a slot, and no other slot holds one of its number. -/
def State.eventAt (s : State) (i : Nat) (e : Event) : Prop :=
  s.assoc.events[i]? = some (some e) ∧ ∀ (j : Nat) (e' : Event), s.assoc.events[j]? = some (some e') → e'.number = e.number → j = i

/-- The record writer looks at the front of its list (R140), from `s` to `t`: with nothing to do it rests; with room it takes the event;
with none it raises REPORT_FULL in ATTENDED, and in UNATTENDED it reclaims one record and takes the event (R146), here with no reclaim request
held. -/
structure WriterLooked (s t : State) : Prop where
  rests : s.report.waitList = [] ∨ s.report.writer ≠ .idle → t = s
  takes : ∀ (i : Nat) (e : Event) (rest : List Nat), s.report.writer = .idle → s.report.waitList = e.number :: rest → s.eventAt i e →
    s.report.occupancy < s.gen.reportCap → t = { s with report := { s.report with
      waitList := rest, writer := .writing e.number s.report.put (recordBytes s.report.put e) false } }
  full : s.report.writer = .idle → s.report.waitList ≠ [] → s.gen.reportCap ≤ s.report.occupancy → s.attend.unattended = false →
    t = s.raise .reportFull
  reclaims : ∀ (i : Nat) (e : Event) (rest older : List Nat) (old : Nat) (r : State), s.report.writer = .idle →
    s.report.waitList = e.number :: rest → s.eventAt i e → s.report.occupancy = s.gen.reportCap → s.attend.unattended = true →
    s.report.reclaim = false → s.report.numbers = old :: older → s.gen.reportCap = older.length + 1 → old ≠ e.number →
    r = (s.freeRecord.count .reportsReclaimed).raise .reportReclaimed → t = { r with report := { r.report with
      waitList := rest, writer := .writing e.number s.report.put (recordBytes s.report.put e) false } }

/-- The event joins the report wait list; the writer looks when the list was empty (R140). -/
def EventJoins (ev : Nat) (s t : State) : Prop :=
  (s.report.waitList ≠ [] → t = { s with report := { s.report with waitList := s.report.waitList ++ [ev] } }) ∧
    (s.report.waitList = [] → WriterLooked { s with report := { s.report with waitList := [ev] } } t)

/-- The job of the plan in slot `i` has ended for lack of space (R114), its event not yet in the report wait list: what stays PINNED is
unpinned and counts as copied (log 18). -/
structure JobLacked (i : Nat) (p : Plan) (s t : State) : Prop where
  clip : t.clip = { s.clip with
    copier := .idle
    plans := s.clip.plans.set i (some { p with
      flags := 128
      clips := p.clips.map fun c => { c with sels := c.sels.map fun x => if x.status = .pinned then { x with status := .copied } else x } }) }
  wires : t.wires = { s.wires with
    pins := s.wires.pins ++ (p.clips.map fun c => (c.sels.filter fun x => x.status == .pinned).map fun x => PinMsg.unpin x.slot x.gen).flatten
    stateRequests := s.wires.stateRequests ++ [(p.event, .copying), (p.event, .copied)] }
  assoc : t.assoc = { s.assoc with events := s.assoc.events.modify i (·.map fun e => { e with clipFlags := 128, clipUnits := some (0, 0) }) }
  pending : t.status.pending = s.status.pending ||| Notice.clipSpace.bit
  tallies : t.tallies = (s.count .clipSpaceEvents).tallies
  frame : Frame [.assoc, .clip, .notices, .writer, .tallies, .wires] s t

/-- The IDLE copier takes the jobs of its queue, front first, and makes the allocation test of each, until it is busy or the queue is empty
(R111); a number that no slot holds names no job. -/
inductive JobsBegun : State → State → Prop where
  | rests {s : State} : s.clip.copier ≠ .idle ∨ s.clip.queue = [] → JobsBegun s s
  | begins {s t : State} {i ev : Nat} {e : Event} {rest : List Nat} : s.clip.copier = .idle → s.clip.queue = ev :: rest →
      s.assoc.events[i]? = some (some e) → e.number = ev →
      (∀ (j : Nat) (e' : Event), j < i → s.assoc.events[j]? = some (some e') → e'.number ≠ ev) →
      JobsBegun (({ s with clip := { s.clip with queue := rest } } : State).allocate i) t → JobsBegun s t
  | passes {s t : State} {ev : Nat} {rest : List Nat} : s.clip.copier = .idle → s.clip.queue = ev :: rest →
      (∀ (j : Nat) (e : Event), s.assoc.events[j]? = some (some e) → e.number ≠ ev) →
      JobsBegun { s with clip := { s.clip with queue := rest } } t → JobsBegun s t

/-- Plans move one after the other, in the order of the list (R108 to R110; log 24): the plan in the slot takes its new form, which `move`
gives from the plan found waiting and the one that stands there, and its pins are asked; a plan whose wait is over is told so and enters the
copy queue, and the IDLE copier takes the jobs there (R111) before the next plan moves. -/
inductive PlansMove (move : Plan → Plan → Plan) (asked : Plan → List PinMsg) (awaitsNone : Plan → Prop) : List (Nat × Plan) → State → State → Prop where
  | none {s : State} : PlansMove move asked awaitsNone [] s s
  | waits {s t : State} {i : Nat} {p : Plan} {l : List (Nat × Plan)} : ¬ awaitsNone p → PlansMove move asked awaitsNone l { s with
      clip := { s.clip with plans := s.clip.plans.modify i (·.map (move p)) }
      wires := { s.wires with pins := s.wires.pins ++ asked p } } t → PlansMove move asked awaitsNone ((i, p) :: l) s t
  | ends {s m t : State} {i : Nat} {p : Plan} {l : List (Nat × Plan)} : awaitsNone p → JobsBegun { s with
      clip := { s.clip with plans := s.clip.plans.modify i (·.map (move p)), queue := s.clip.queue ++ [p.event] }
      wires := { s.wires with
        pins := s.wires.pins ++ asked p
        stateRequests := s.wires.stateRequests ++ [(p.event, .copyQueued)] } } m →
      PlansMove move asked awaitsNone l m t → PlansMove move asked awaitsNone ((i, p) :: l) s t

/-! ### Cuts (R12, R22, R23) -/

/-- A cut of slot `n`, from `s` to `t` (R12). One of a slot without pins changes nothing. Else every pin goes, the cut mark is set, the Clip
Unit and the Path Guard are told, and the blocks in `lost` end as OVERTAKEN, one break and one count for each: the QUEUED refetch entries of
the slot, and the READING one when no granted read of it is outstanding (R23), whereupon the oldest QUEUED entry is taken up (log 30); a
READING one with a read outstanding takes the cut flag. -/
structure SlotCut (n : Nat) (s t : State) : Prop where
  unpinned : (∀ e, s.intake.dir[n]? = some e → e.pins = 0) → t = s
  pinned : ∀ e, s.intake.dir[n]? = some e → e.pins ≠ 0 → ∃ lost : List Refetch,
    t.intake = { s.intake with
      dir := s.intake.dir.set n { e with pins := 0, cutMark := true }, refetch := t.intake.refetch
      stations := lost.foldl (fun ss r => ss.modify r.block.station (·.lose r.id)) s.intake.stations } ∧
    t.wires = { s.wires with cutNotes := s.wires.cutNotes ++ [(n, e.gen)], slotFree := s.wires.slotFree ++ [n] } ∧
    t.status.pending = s.status.pending ||| (if lost = [] then 0 else Notice.blockLost.bit) ||| Notice.holdCut.bit ∧
    t.tallies = ((if lost = [] then s else s.countBy .overtaken lost.length).count .holdCuts).tallies ∧
    ∀ queued : List Refetch, queued = s.intake.refetch.filter (fun x => decide (x.slot = n ∧ x.state = .queued)) →
      (s.intake.refetch.map (·.id)).Nodup →
      ((∀ x ∈ s.intake.refetch, x.state = .reading → x.slot ≠ n) → lost = queued ∧
        t.intake.refetch = s.intake.refetch.filter fun x => decide (x.slot ≠ n ∨ x.state ≠ .queued)) ∧
      ∀ (r : Refetch) (pre post rest : List Refetch), s.intake.refetch = pre ++ r :: post → r.slot = n → r.state = .reading →
        (∀ x ∈ pre, x.state = .done) → (∀ x ∈ post, x.state = .queued) → rest = post.filter (fun x => decide (x.slot ≠ n)) →
        (r.granted ≠ r.returned → lost = queued ∧ t.intake.refetch = pre ++ { r with cutFlag := true } :: rest) ∧
        (r.granted = r.returned → lost = queued ++ [{ r with cutFlag := true }] ∧ t.intake.refetch = pre ++ match rest with
          | [] => []
          | q :: qs => { q with state := .reading } :: qs)
  frame : Frame [.intake, .notices, .writer, .tallies, .wires] s t

/-- Slots are cut one after the other, in the order of the list. -/
inductive SlotsCut : List Nat → State → State → Prop where
  | none {s : State} : SlotsCut [] s s
  | cut {n : Nat} {ns : List Nat} {s m t : State} : SlotCut n s m → SlotsCut ns m t → SlotsCut (n :: ns) s t

/-! ### Association (R91, R92) -/

/-- An event that an arriving pick joins in zone `z` (R91). -/
def Event.mayJoin (z : Nat) (zone : Zone) (p : Pick) (e : Event) : Prop :=
  e.state = .gathering ∧ e.zone = z ∧ p.onset ≤ e.anchor + zone.window * 1000 ∧ e.anchor ≤ p.onset + zone.window * 1000 ∧
    (∀ c ∈ e.picks, c.pick.station ≠ p.station) ∧ e.picks.length < 24

/-- A pick of the candidate set of a zone, at the arrival of a pick (R92). -/
def Zone.candidate (zone : Zone) (p : Pick) (ps : List PickEntry) (c : PickCopy) : Prop :=
  ⟨c, none⟩ ∈ ps ∧ c.pick.station ∈ zone.members ∧ c.pick.onset ≤ p.onset + zone.window * 1000 ∧ p.onset ≤ c.pick.onset + zone.window * 1000

/-- A candidate in the window that starts at `f` (R92). -/
def Zone.reaches (zone : Zone) (p : Pick) (ps : List PickEntry) (f : Nat) (c : PickCopy) : Prop :=
  zone.candidate p ps c ∧ f ≤ c.pick.onset ∧ c.pick.onset ≤ f + zone.window * 1000

/-- A candidate start at which enough stations are counted (R92). -/
def Zone.opensAt (zone : Zone) (p : Pick) (ps : List PickEntry) (f : Nat) : Prop :=
  f ≤ p.onset ∧ (∃ c, zone.candidate p ps c ∧ c.pick.onset = f) ∧
    ∃ sts : List Nat, sts.Nodup ∧ sts.length = zone.minCount ∧ ∀ st ∈ sts, ∃ c, zone.reaches p ps f c ∧ c.pick.station = st

/-! ### Layouts (R179, R182, R183, R186, R187) -/

/-- The result word (R182): its fields, little-endian, and zeros in the reserved bytes. -/
structure ResultWord (r : Result) (bs : List Byte) : Prop where
  length : bs.length = 8
  code : field bs 0 1 = r.code.toNat
  tag : field bs 1 1 = r.tag.toNat
  result : field bs 2 1 = match r.res with
    | .empty => 0
    | .done => 1
    | .refusedBusy => 2
    | .refusedState => 3
    | .badArg => 4
    | .failed _ _ => 5
  reason : field bs 3 1 = match r.res with
    | .failed .range _ => 1
    | .failed .region _ => 2
    | .failed .tags _ => 3
    | .failed .bank _ => 4
    | .failed .changedDuringLoad _ => 5
    | .failed .memory _ => 6
    | .empty | .done | .refusedBusy | .refusedState | .badArg => 0
  offset : field bs 4 2 = match r.res with
    | .failed _ o => o % 2 ^ 16
    | .empty | .done | .refusedBusy | .refusedState | .badArg => 0
  reserved : field bs 6 2 = 0

/-- The status line with the heartbeat it carries (R183), from its first byte at 0080H. The fields after `get` and after the schedule state
run to the end of their words, which hold nothing else. -/
structure StatusLine (s : State) (heartbeat : Nat) (bs : List Byte) : Prop where
  length : bs.length = 72
  part : field bs 0 1 = match s.control.part with
    | .dormant => 0
    | .loading => 1
    | .stopped => 2
    | .listening => 3
    | .draining => 4
  cause : field bs 1 1 = match s.control.cause with
    | .powerOn => 1
    | .resetPin => 2
    | .softReset => 3
  attendance : field bs 2 1 = if s.attend.unattended then 1 else 0
  time : field bs 3 1 = match s.time.state with
    | .unset => 0
    | .aligning => 1
    | .locked => 2
    | .holdover => 3
  events : field bs 4 1 = (s.assoc.events.filter Option.isSome).length % 2 ^ 8
  reserved : field bs 5 3 = 0
  seconds : field bs 8 8 = s.time.count / 1000000 % 2 ^ 64
  heartbeat : field bs 16 8 = heartbeat % 2 ^ 64
  notices : field bs 24 8 = (s.status.pending &&& s.mask).toNat
  raw : field bs 32 8 = s.status.pending.toNat
  put : field bs 40 8 = s.report.put % 2 ^ 64
  get : field bs 48 2 = s.report.get % 2 ^ 16
  occupancy : field bs 50 6 = s.report.occupancy % 2 ^ 48
  allocPtr : field bs 56 4 = s.clip.allocPtr % 2 ^ 32
  freePtr : field bs 60 4 = s.clip.freePtr % 2 ^ 32
  schedule : field bs 64 1 = match s.sched.state with
    | .idle => 0
    | .waitTime => 1
    | .waitRef => 2
    | .following => 3
    | .freeRun => 4
  bank : field bs 65 7 = match s.sched.active with
    | some .a => 0
    | some .b => 1
    | none => 0xFF

/-- The record of an event (R186). -/
structure RecordLayout (index : Nat) (e : Event) (bs : List Byte) : Prop where
  length : bs.length = 512
  marker : field bs 0 1 = 0xB4
  zone : field bs 1 1 = e.zone % 2 ^ 8
  reason : field bs 2 1 = match e.reason with
    | some .window => 1
    | some .stop => 2
    | none => 0
  time : field bs 3 1 = match e.timeState with
    | .unset => 0
    | .aligning => 1
    | .locked => 2
    | .holdover => 3
  count : field bs 4 1 = e.picks.length % 2 ^ 8
  index : field bs 6 2 = index % 2 ^ 16
  number : field bs 8 4 = e.number % 2 ^ 32
  peakMax : field bs 12 2 = e.peakMax % 2 ^ 16
  flags : field bs 14 2 = e.clipFlags.toNat
  anchor : field bs 16 6 = e.anchor % 2 ^ 48
  last : field bs 22 6 = e.last % 2 ^ 48
  declaredAt : field bs 28 6 = e.declaredAt % 2 ^ 48
  closedAt : field bs 34 6 = e.closedAt.getD 0 % 2 ^ 48
  firstUnit : field bs 40 4 = (e.clipUnits.getD (0, 0)).1 % 2 ^ 32
  units : field bs 44 2 = (e.clipUnits.getD (0, 0)).2 % 2 ^ 16
  reserved : field bs 5 1 = 0 ∧ field bs 46 2 = 0 ∧ ∀ o, 480 ≤ o → o < 512 → bs[o]? = some 0
  picks : ∀ (j : Nat) (c : PickCopy), j < 24 → e.picks[j]? = some c →
    field bs (48 + 18 * j) 1 = c.pick.station % 2 ^ 8 ∧
    field bs (49 + 18 * j) 1 = (if c.pick.timeUnsure then 1 else 0) + (if c.pick.desens then 2 else 0) + (match c.closure with
      | some k => 4 + if k.cut then 8 else 0
      | none => 0) ∧
    field bs (50 + 18 * j) 2 = c.pick.peak % 2 ^ 16 ∧ field bs (52 + 18 * j) 6 = c.pick.onset % 2 ^ 48 ∧
    field bs (58 + 18 * j) 6 = (match c.closure with
      | some k => k.endTime % 2 ^ 48
      | none => 0) ∧
    field bs (64 + 18 * j) 2 = match c.closure with
      | some k => k.finalPeak % 2 ^ 16
      | none => 0
  beyond : ∀ o, 48 + 18 * e.picks.length ≤ o → o < 480 → bs[o]? = some 0

/-- The directory unit of a plan with a region (R187). -/
structure DirectoryLayout (zone : Nat) (p : Plan) (r : Region) (bs : List Byte) : Prop where
  length : bs.length = 512
  marker : field bs 0 1 = 0x3C
  zone : field bs 1 1 = zone % 2 ^ 8
  count : field bs 2 1 = p.clips.length % 2 ^ 8
  number : field bs 4 4 = p.event % 2 ^ 32
  winStart : field bs 8 6 = p.winStart % 2 ^ 48
  winEnd : field bs 14 6 = p.winEnd % 2 ^ 48
  units : field bs 20 2 = r.units % 2 ^ 16
  reserved : field bs 3 1 = 0 ∧ (∀ o, 22 ≤ o → o < 32 → bs[o]? = some 0) ∧ ∀ o, 416 ≤ o → o < 512 → bs[o]? = some 0
  entries : ∀ (cs ds : List StationClip) (c : StationClip), p.clips = cs ++ c :: ds → cs.length < 24 →
    field bs (32 + 16 * cs.length) 1 = c.station % 2 ^ 8 ∧ field bs (33 + 16 * cs.length) 1 = c.flags.toNat ∧
    field bs (34 + 16 * cs.length) 1 = c.cutCount % 2 ^ 8 ∧ field bs (35 + 16 * cs.length) 1 = c.sels.length % 2 ^ 8 ∧
    field bs (36 + 16 * cs.length) 4 = (match c.sels with
      | _ :: _ => (r.first + 1 + (cs.map fun d => d.sels.length).sum) % 2 ^ 32
      | [] => 0) ∧
    field bs (40 + 16 * cs.length) 6 = (match c.sels with
      | x :: _ => x.first % 2 ^ 48
      | [] => 0) ∧
    field bs (46 + 16 * cs.length) 2 = 0
  beyond : ∀ o, 32 + 16 * p.clips.length ≤ o → o < 416 → bs[o]? = some 0

/-- The void header of a selection, with its void flags (R187). -/
structure VoidLayout (event station : Nat) (x : Selection) (cut memerr : Bool) (bs : List Byte) : Prop where
  length : bs.length = 32
  marker : field bs 0 1 = 0xC3
  station : field bs 1 1 = station % 2 ^ 8
  flags : field bs 2 1 = (if cut then 1 else 0) + if memerr then 2 else 0
  number : field bs 4 4 = event % 2 ^ 32
  slot : field bs 8 2 = x.slot % 2 ^ 16
  gen : field bs 10 1 = x.gen % 2 ^ 8
  count : field bs 11 1 = x.count % 2 ^ 8
  first : field bs 12 6 = x.first % 2 ^ 48
  reserved : field bs 3 1 = 0 ∧ ∀ o, 18 ≤ o → o < 32 → bs[o]? = some 0

/-- The setup that the bytes of the control page from 0100H hold, field by field (R184, R185): an offset here counts from 0100H. The table has
96 stations, and 16 zones, each of at most 24 members. -/
structure SetupRead (bs : List Byte) (u : Setup) : Prop where
  gen : u.gen = {
    ringBase := field bs 0x00 4, ringSlots := field bs 0x04 2, writerTags := BitVec.ofNat 16 (field bs 0x06 2)
    hostTags := BitVec.ofNat 16 (field bs 0x08 2), rateDev := field bs 0x0A 2, rateNominal := field bs 0x0C 4
    clipBase := field bs 0x10 4, clipSize := field bs 0x14 4
    reportBase := field bs 0x18 4, reportCap := field bs 0x1C 2
    refSource := if field bs 0x1E 1 = 0 then .ref else .internal, cycleMax := field bs 0x1F 1
    silenceLimit := field bs 0x20 1, scheduleEnable := decide (field bs 0x21 1 = 1), refMinPeriod := field bs 0x22 2
    intakeLatency := field bs 0x24 2, reportWatermark := field bs 0x26 2
    pre := field bs 0x28 2, post := field bs 0x2A 2, tailWait := field bs 0x2C 2, serviceInterval := field bs 0x2E 2
    copyBurst := field bs 0x30 1, holdLimit := field bs 0x31 1, partShare := field bs 0x32 1
    noticeMask := BitVec.ofNat 24 (field bs 0x34 4) }
  stations : u.stations.length = 96 ∧ ∀ (st : Nat) (e : StationEntry), u.stations[st]? = some e → e = {
    components := field bs (0x100 + 32 * st) 1
    sampleRate := if field bs (0x101 + 32 * st) 1 = 0 then 250 else if field bs (0x101 + 32 * st) 1 = 1 then 500
      else if field bs (0x101 + 32 * st) 1 = 2 then 1000 else 2000
    noiseGroup := field bs (0x102 + 32 * st) 1
    enabled := decide (field bs (0x108 + 32 * st) 1 = 1)
    tuning := {
      shortExp := field bs (0x110 + 32 * st) 1, longExp := field bs (0x111 + 32 * st) 1, onRatio := field bs (0x112 + 32 * st) 2
      offRatio := field bs (0x114 + 32 * st) 2, minOn := field bs (0x116 + 32 * st) 1
      deadTime := field bs (0x118 + 32 * st) 2, maxOn := field bs (0x11A + 32 * st) 2 } }
  zones : u.zones.length = 16 ∧ ∀ (z : Nat) (e : Zone), u.zones[z]? = some e → e.count = field bs (0xD00 + 32 * z) 1 ∧
    e.minCount = field bs (0xD01 + 32 * z) 1 ∧ e.window = field bs (0xD02 + 32 * z) 2 ∧
    ∀ j m, e.members[j]? = some m ↔ j < e.count ∧ j < 24 ∧ m = field bs (0xD04 + 32 * z + j) 1

/-! ### Requests -/

/-- The HELD entries that `which` names are released (R131, R132): every entry keeps its place and its request; a released one is numbered
after those released before, in list order (R128), and a READ entry takes the released-read mark; the others stand. -/
structure HeldReleased (which : Held → Prop) (g t : PathGuard) : Prop where
  length : t.held.length = g.held.length
  released : ∀ (i : Nat) (h : Held) (d : Option Nat), g.held[i]? = some h → which h → h.state = .held d →
    ∃ n, g.releases ≤ n ∧ n < t.releases ∧ t.held[i]? = some { h with
      state := .released n
      kind := match h.kind with
        | .write slot => .write slot
        | .read _ => .read true }
  stands : ∀ (i : Nat) (h : Held), g.held[i]? = some h → (¬ which h ∨ ∃ n, h.state = .released n) → t.held[i]? = some h
  order : ∀ (i j : Nat) (h k h' k' : Held) (d e : Option Nat) (n m : Nat), i < j → g.held[i]? = some h → h.state = .held d →
    t.held[i]? = some h' → h'.state = .released n → g.held[j]? = some k → k.state = .held e → t.held[j]? = some k' →
    k'.state = .released m → n < m

/-- All beats of a request lie in an extent (R124). -/
def Request.within (r : Request) (base len : Nat) : Prop := base ≤ r.addr ∧ r.addr + 8 * r.beats ≤ base + len

/-- No beat of a request lies in an extent (R124). -/
def Request.apart (r : Request) (base len : Nat) : Prop := r.addr + 8 * r.beats ≤ base ∨ base + len ≤ r.addr

/-- The command that a command word spells by its code and tag (R153, R182). -/
def commandOf (code tag : Byte) : Instr :=
  if code = 1 then .load tag
  else if code = 2 then .start tag
  else if code = 3 then .stop tag
  else if code = 4 then .softReset tag
  else if code = 5 then .setTime tag
  else if code = 6 then .dumpTally tag
  else if code = 7 then .releaseHolds tag
  else .unknownCommand code tag

/-- The command that a granted write of one control line word, or into one setup area, makes, at offset `off` of the control page (R126,
R182): the word of a control line write is handed over with all its strobes set. -/
def pageCommand (tag off : Nat) (bytes : List (Option Byte)) (i : Instr) : Prop :=
  (∃ w : List Byte, bytes = strobed w ∧ w.length = 8 ∧
    (off = 0 ∧ i = commandOf (w.getD 0 0) (w.getD 1 0) ∨ off = 0x08 ∧ i = .commandArgumentWrite (BitVec.ofNat 64 (field w 0 8)) ∨
      off = 0x10 ∧ i = .ackWord (BitVec.ofNat 16 (field w 0 2)) ∨ off = 0x18 ∧ i = .clearWord (BitVec.ofNat 24 (field w 0 3)))) ∨
  0x100 ≤ off ∧ off + bytes.length ≤ 0x200 ∧ i = .generalSetupWrite ⟨tag, off, bytes⟩ ∨
  0x200 ≤ off ∧ off + bytes.length ≤ 0xE00 ∧ i = .stationTableWrite ⟨tag, off, bytes⟩ ∨
  0xE00 ≤ off ∧ off + bytes.length ≤ 0x1000 ∧ i = .zoneTableWrite ⟨tag, off, bytes⟩ ∨
  0x1000 ≤ off ∧ off + bytes.length ≤ 0x1300 ∧ i = .scheduleBankWrite ⟨tag, off, bytes⟩

/-- The control page word at offset `o`, when it is one of the words of a write of `bytes` at offset `off`, with all its strobes set
(R126). -/
def handedWord (off : Nat) (bytes : List (Option Byte)) (o : Nat) : Option (List Byte) :=
  if off ≤ o ∧ (o - off) % 8 = 0 ∧ o + 8 ≤ off + bytes.length then fullWord ((bytes.drop (o - off)).take 8) else none

/-- A setup area takes a write word by word (R126, R151): a write does what the write of its first words and then that of the others do, but
that SETUP_IGNORED is counted once for it (log 15); a word with a strobe clear is not taken. `mk` is the area's command. -/
structure WordByWord (mk : PageWrite → Instr) : Prop where
  words : ∀ (tag off : Nat) (front rest : List (Option Byte)) (s : State), s.control.part.takesSetup = true → front.length % 8 = 0 →
    ∃ t m n, exec (mk ⟨tag, off, front ++ rest⟩) s = .next t ∧ exec (mk ⟨tag, off, front⟩) s = .next m ∧
      exec (mk ⟨tag, off + front.length, rest⟩) m = .next n ∧
      t.tallies = (if m.tallies = s.tallies then n.tallies else m.tallies) ∧ Frame [.writer, .tallies] n t
  strobes : ∀ (tag off : Nat) (word : List (Option Byte)) (s : State), s.control.part.takesSetup = true → word.length = 8 → none ∈ word →
    ∃ t, exec (mk ⟨tag, off, word⟩) s = .next t ∧ Frame [.writer] s t

/-! ### Good steps and good states -/

/-- The step answers a next state. -/
def runs (s : State) : Prop := ∃ t, step s = .next t

/-- IRQ is asserted exactly when the pending set and the mask in force share a kind (R168). -/
def IrqOk (s : State) : Prop := s.status.irq = irqLevel s.status.pending s.mask

/-- Every tally lies within 32 bits (R172). -/
def TalliesOk (t : Tallies) : Prop :=
  (∀ n ∈ t.global, n ≤ maxTally) ∧ ∀ x ∈ t.stations, x.accepted ≤ maxTally ∧ x.gaps ≤ maxTally ∧ x.picks ≤ maxTally

/-- The upstream queue holds at most 16 requests and the held list at most 4 (R123, R129). -/
def QueuesOk (g : PathGuard) : Prop := g.queue.length ≤ 16 ∧ g.held.length ≤ 4

/-- Field time is a 48-bit count and its fraction has 32 bits (R26). -/
def CountOk (t : TimeBase) : Prop := t.count ≤ maxTime ∧ t.frac < 4294967296

/-- The rate values stand within the limits once a LOAD has succeeded, and the rate word at its reset value before (R27). -/
def RatesOk (s : State) : Prop :=
  if s.time.firstLoad then
    (s.gen.rateLow ≤ s.time.baseRate ∧ s.time.baseRate ≤ s.gen.rateHigh) ∧
      s.gen.rateLow ≤ s.time.rateWord ∧ s.time.rateWord ≤ s.gen.rateHigh
  else s.time.rateWord = Config.rateReset

/-- The report ring: never more outstanding records than the ring holds, each with its event number; put is get plus occupancy, modulo
the capacity; and a record being written has a place (R139). -/
def RingOk (s : State) : Prop :=
  s.report.numbers.length = s.report.occupancy ∧ s.report.occupancy ≤ s.gen.reportCap ∧
    s.report.put = (s.report.get + s.report.occupancy) % s.gen.reportCap ∧
    (s.report.writerIdle = false → s.report.occupancy < s.gen.reportCap)

/-- The clip units held never exceed the clip store's unit count (R112). -/
def StoreOk (s : State) : Prop := s.clip.used ≤ s.unitCount

/-- Intake holds eight assembly buffers (R13), at most 16 refetch entries (R21), and for each of the 96 stations a trail of at most 512
entries (R19). -/
def IntakeOk (k : Intake) : Prop :=
  k.bufs.length = 8 ∧ k.refetch.length ≤ 16 ∧ k.stations.length = Config.nStations ∧ ∀ si ∈ k.stations, si.trail.length ≤ 512

/-- The pick list holds at most 256 picks (R86), and the event table has 32 slots (R93). -/
def AssocOk (a : Assoc) : Prop := a.picks.length ≤ 256 ∧ a.events.length = 32

/-- Never more than 16 intervals, each with a non-empty group mask, and never more than one open interval per group and kind (R78). -/
def IntervalsOk (vs : List Interval) : Prop :=
  vs.length ≤ 16 ∧ (∀ v ∈ vs, v.mask ≠ 0) ∧
    vs.Pairwise fun a b => a.isOpen → b.isOpen → a.kind.same b.kind → a.mask &&& b.mask = 0

end Sys2Proof.Machine
end

