-- ==== Sys2Proof/Certificates/Slice0/Obligations.lean ====
section
/-! DEFINITION. The statements for the provers. The name of each says what it states, its docstring the rules and the log entries it rests on. -/
open Sys2Proof Sys2Proof.Machine

/-! ### The queue, the clock and the laws every step keeps -/

/-- O1. A step takes the command at the front of the queue, and runs it with the queue's rest. -/
def Obligations.StepTakesFront : Prop :=
  ∀ (c : Instr) (rest : List Instr) (s : State), s.pending = c :: rest → step s = exec c { s with pending := rest }

/-- O2. On an empty queue the part only keeps time: one period of CLK, by R26, from the release of a full reset onward. That a step on an
empty queue is such a period is the model's choice (log 2). No command touches the queue of the commands that wait behind it. That a full
reset leaves the queue, too, is the model's choice (log 39). -/
def Obligations.QueueWaitsAndClockRuns : Prop :=
  (∀ s : State, s.pending = [] → ∃ t, step s = .next t ∧ Frame [.time] s t ∧ (s.control.released = false → t.time = s.time) ∧
     (s.control.released = true →
       t.time = { s.time with
         count := min (s.time.count + (s.time.frac + s.time.rateWord) / 2 ^ 32) (2 ^ 48 - 1)
         frac := (s.time.frac + s.time.rateWord) % 2 ^ 32 })) ∧
  (∀ (c : Instr) (s t : State), exec c s = .next t → t.pending = s.pending)

/-- O3. At reset every law of the part holds. -/
def Obligations.LawsHoldAtReset : Prop :=
  IrqOk State.reset ∧ TalliesOk State.reset.tallies ∧ QueuesOk State.reset.guard ∧ CountOk State.reset.time ∧ RatesOk State.reset ∧
    RingOk State.reset ∧ StoreOk State.reset ∧ IntervalsOk State.reset.sched.intervals ∧ IntakeOk State.reset.intake ∧
    AssocOk State.reset.assoc

/-- O4. IRQ stands, after every step, exactly as the pending set and the mask in force say (R168). -/
def Obligations.IrqLawKept : Prop := ∀ s t : State, IrqOk s → step s = .next t → IrqOk t

/-- O5. Every tally stays within 32 bits (R172). Queues and lists stay within their sizes: the upstream queue and the held list (R123,
R129), the buffers, the refetch queue and the trails (R13, R19, R21), the pick list and the event table (R86, R93). -/
def Obligations.TalliesAndSizesKept : Prop :=
  (∀ s t : State, TalliesOk s.tallies → step s = .next t → TalliesOk t.tallies) ∧
  (∀ s t : State, step s = .next t →
     (QueuesOk s.guard → QueuesOk t.guard) ∧ (IntakeOk s.intake → IntakeOk t.intake) ∧ (AssocOk s.assoc → AssocOk t.assoc))

/-- O6. Field time never decreases, but for a full reset, and stays a 48-bit count with a 32-bit fraction (R26). The rate word stays
within the limits, once a LOAD has succeeded, and at its reset value before (R27). -/
def Obligations.TimeLawsKept : Prop :=
  (∀ s t : State, CountOk s.time → step s = .next t →
     CountOk t.time ∧ ((∀ k, s.pending.head? ≠ some (.fullReset k)) → s.time.count ≤ t.time.count)) ∧
  (∀ s t : State, RatesOk s → step s = .next t → RatesOk t)

/-- O7. The report ring never holds more records than it has room for, and put stays get plus the occupancy (R139). The clip units held
never exceed the clip store (R112). -/
def Obligations.RingAndStoreLawsKept : Prop :=
  (∀ s t : State, RingOk s → step s = .next t → RingOk t) ∧
  (∀ s t : State, StoreOk s → step s = .next t → StoreOk t)

/-- O8. Never more than 16 mute intervals, each with at least one group, and never more than one open interval for each group and kind
(R78). -/
def Obligations.MuteIntervalLawKept : Prop :=
  ∀ s t : State, IntervalsOk s.sched.intervals → step s = .next t → IntervalsOk t.sched.intervals

/-! ### Full reset, the commands of the host and the words of the control page -/

/-- O9. A full reset leaves every block at its reset value, whatever stood before. The release of a full reset samples SETUP_BASE, which
gives the first MiB of the control page, and writes the result word and the status line; nothing else changes. The values of the model's
own fields, the last second announced among them (log 13), that the queue and the count of STOPs stand (log 39), and the two steps of a
full reset (log 12) are the model's choices. -/
def Obligations.FullResetAndRelease : Prop :=
  (∀ (kind : ResetKind) (s : State), ∃ t, exec (.fullReset kind) s = .next t ∧
     t.control = { part := .dormant, inProgress := none, load := none, argument := 0, setup := none, pageBase := none, released := false
                   cause := if kind = .powerOn then .powerOn else .resetPin } ∧
     t.time = { count := 0, frac := 0, baseRate := 171798692, rateWord := 171798692, state := .unset, aligned := false, target := none
                lastPulse := none, holdover := none, firstLoad := false, announced := 0 } ∧
     t.intake = { dir := [], bufs := List.replicate 8 .free, refetch := [], horizon := 0, nextId := 0
                  stations := List.replicate 96 { expected := none, trail := [], order := [], breakPending := false } } ∧
     t.engine = List.replicate 96
       { state := .off, means := [none, none, none], short := 0, long := 0, warmUp := 0, count := 0, openPick := none, nextTime := none
         startPending := false, silence := none, silent := false, staged := ⟨none, none, none, none, none, none, none⟩ } ∧
     t.sched = { state := .idle, active := none, period := none, cycleCount := none, cycleStart := none, pointer := none, markDeadline := none
                 timer := none, lastRef := none, stagedPeriod := none, stagedBank := none, bankA := [], bankB := [], intervals := [] } ∧
     t.assoc = { picks := [], nextPick := 0, events := List.replicate 32 none, counter := 1 } ∧
     t.clip = { plans := List.replicate 32 none, queue := [], copier := .idle, writesOut := 0, dirError := false, allocPtr := 0, freePtr := 0
                used := 0, draining := false } ∧
     t.guard = { queue := [], held := [], releases := 0, range := none, grantCount := 0, shareCount := 0, frameShare := 8
                 lastServed := .copier, downstream := [], unanswered := [], upstream := none } ∧
     t.report = { put := 0, get := 0, occupancy := 0, numbers := [], waitList := [], writer := .idle, reclaim := false } ∧
     t.status = { pending := 0, irq := false, rewrite := false, heartbeat := 0, newRecords := 0, result := none, offer := none, dump := none } ∧
     t.tallies = ⟨List.replicate 34 0, List.replicate 96 ⟨0, 0, 0⟩⟩ ∧ t.attend = ⟨false, none⟩ ∧
     t.wires = { toAssoc := [], pins := [], refusedPins := [], cutRequests := [], cutNotes := [], slotFree := [], trailNotes := []
                 horizonSched := [], horizonAssoc := [], sched := [], stateRequests := [], unattGuard := 0, unattReport := 0
                 clipStop := false } ∧
     t.draws = s.draws ∧ t.pending = s.pending) ∧
  (∀ (b : Byte) (s : State), s.control.released = false → ∃ t, exec (.resetRelease b) s = .next t ∧
     t.control = { s.control with released := true, pageBase := some (b.toNat * 2 ^ 20) } ∧ t.status.rewrite = true ∧
     t.hasResult ⟨0, 0, .empty⟩ ∧ Frame [.control, .writer] s t)

/-- O10. LOAD, accepted in DORMANT or in STOPPED with every event slot FREE, makes the part LOADING with an empty load record that returns
to the state it found; nothing is read yet. -/
def Obligations.LoadEntersLoading : Prop :=
  ∀ (tag : Byte) (s : State), s.control.inProgress = none →
    (s.control.part = .dormant ∨ s.control.part = .stopped ∧ ∀ e ∈ s.assoc.events, e = none) →
    ∃ t, exec (.load tag) s = .next t ∧
      t.control = { s.control with part := .loading, inProgress := some (.load, tag), load := some ⟨s.control.part, 0, [], none⟩ } ∧
      t.wires = { s.wires with sched := s.wires.sched ++ [.part .loading] } ∧ t.status.rewrite = true ∧
      Frame [.control, .writer, .wires] s t

/-- O11. START, accepted in STOPPED, makes the part LISTENING and answers DONE: intake, the pick list and the mute intervals are made
anew, every enabled detector is SETTLING, the schedule moves by its conditions, and the service deadline begins. Events keep their slots,
clips and records. No unit range stands; each held entry keeps its place and request, and none stays HELD (R137). Announcements of the
work discarded are dropped from the wires (log 7), and of the completions on their way those of the refetch reads alone (log 48). -/
def Obligations.StartMakesListening : Prop :=
  ∀ (tag : Byte) (s : State) (u : Setup), s.control.setup = some u → s.control.part = .stopped → s.control.inProgress = none →
    ∃ t, exec (.start tag) s = .next t ∧ t.control = { s.control with part := .listening } ∧ t.hasResult ⟨2, tag, .done⟩ ∧
      (t.intake.dir = List.replicate u.gen.ringSlots ⟨.empty, 0, 0, false, false⟩ ∧ t.intake.bufs = List.replicate 8 .free ∧
        t.intake.refetch = [] ∧ t.intake.horizon = 0 ∧ t.intake.stations = List.replicate 96 ⟨none, [], [], false⟩) ∧
      (∀ (st : Nat) (d : Detector) (e : StationEntry), s.engine[st]? = some d → u.stations[st]? = some e →
        ∃ d' : Detector, t.engine[st]? = some d' ∧
          (e.enabled = true → d'.state = .settling ∧ d'.count = 0 ∧
            d'.silence = some (min (s.time.count + u.gen.silenceLimit * 1000000) (2 ^ 48 - 1))) ∧
          (e.enabled = false → d'.state = .off ∧ d'.silence = none) ∧
          d'.short = 0 ∧ d'.long = 0 ∧ d'.warmUp = 0 ∧ d'.openPick = none ∧ d'.staged = d.staged) ∧
      t.sched.intervals = [] ∧
      t.sched.state = (if u.gen.scheduleEnable then
        (if s.time.state = .locked ∨ s.time.state = .holdover then .waitRef else .waitTime) else .idle) ∧
      t.assoc = { s.assoc with picks := [], nextPick := 0 } ∧
      t.attend = { s.attend with
        deadline := if u.gen.serviceInterval = 0 then none
          else some (min (s.time.count + u.gen.serviceInterval * 1000) (2 ^ 48 - 1)) } ∧
      t.guard = { s.guard with
        range := none, held := t.guard.held, releases := t.guard.releases
        downstream := s.guard.downstream.map fun o => match o.owner with
          | .refetch => { o with dropped := true }
          | .loader | .status | .report | .copierRead | .copierWrite _ | .pass _ => o } ∧
      HeldReleased (fun _ => True) s.guard t.guard ∧ (∀ h ∈ t.guard.held, ∃ n, h.state = .released n) ∧
      t.wires = { s.wires with
        toAssoc := [], pins := [], refusedPins := [], cutRequests := [], cutNotes := [], slotFree := [], trailNotes := [], horizonSched := []
        horizonAssoc := [], sched := [] } ∧
      Frame [.control, .intake, .engine, .sched, .assoc, .guard, .attend, .wires, .writer] s t

/-- O12. SOFT_RESET, accepted in STOPPED, LISTENING or DRAINING, leaves the part STOPPED and every unit of work made anew, answers DONE,
and keeps field time, the setup, the staged copies, the heartbeat and the tallies. What discarded work had on its way is dropped (log 7),
and so are the completions of the refetch, copier and record requests; what the STATUS claimant has offered stands, and so do its
completions (log 48); an announcement of UNATTENDED stands (log 50). A MEMERR of the unit that was read counts (log 14). -/
def Obligations.SoftResetMakesStopped : Prop :=
  ∀ (tag : Byte) (s : State), (s.control.part = .stopped ∨ s.control.part = .listening ∨ s.control.part = .draining) →
    (s.control.inProgress = none ∨ ∃ g, s.control.inProgress = some (.stop, g)) →
    ∃ t, exec (.softReset tag) s = .next t ∧
      t.control = { s.control with part := .stopped, cause := .softReset, inProgress := none, load := none } ∧
      t.hasResult ⟨4, tag, .done⟩ ∧ (s.status.offer = none → t.status.offer = some (.result ⟨4, tag, .done⟩) ∧ t.status.result = none) ∧
      (∀ o, s.status.offer = some o → t.status.offer = some o ∧ t.status.result = some ⟨4, tag, .done⟩) ∧
      t.status.pending = 0 ∧ (IrqOk s → t.status.irq = false) ∧ t.status.newRecords = 0 ∧
      t.status.heartbeat = s.status.heartbeat ∧ t.status.dump = s.status.dump ∧
      t.intake = { s.intake with
        dir := List.replicate s.gen.ringSlots ⟨.empty, 0, 0, false, false⟩, bufs := List.replicate 8 .free, refetch := [], horizon := 0
        stations := List.replicate 96 ⟨none, [], [], false⟩ } ∧
      t.engine = s.engine.map (fun d =>
        { state := .off, means := [none, none, none], short := 0, long := 0, warmUp := 0, count := 0, openPick := none, nextTime := none
          startPending := false, silence := none, silent := false, staged := d.staged }) ∧
      t.sched = { s.sched with
        state := .idle, cycleCount := some s.gen.cycleMax, cycleStart := none, pointer := none, markDeadline := none, timer := none
        lastRef := none, intervals := [] } ∧
      t.assoc = { picks := [], nextPick := 0, events := List.replicate 32 none, counter := 1 } ∧
      t.clip = { plans := List.replicate 32 none, queue := [], copier := .idle, writesOut := 0, dirError := false, allocPtr := 0
                 freePtr := 0, used := 0, draining := false } ∧
      t.report = { put := 0, get := 0, occupancy := 0, numbers := [], waitList := [], writer := .idle, reclaim := false } ∧
      t.guard = { s.guard with
        range := none, held := t.guard.held, releases := t.guard.releases
        downstream := s.guard.downstream.map fun o => match o.owner with
          | .refetch | .copierRead | .copierWrite _ | .report => { o with dropped := true }
          | .loader | .status | .pass _ => o } ∧
      HeldReleased (fun _ => True) s.guard t.guard ∧
      t.attend = { s.attend with deadline := none } ∧
      t.tallies = (match s.clip.copier with
        | .unit _ _ (.reading _ _ _ _ errors) => if errors = 0 then s else s.countBy .memoryErrors errors
        | _ => s).tallies ∧
      t.wires = { Wires.empty with unattGuard := s.wires.unattGuard, unattReport := s.wires.unattReport } ∧
      Frame [.control, .intake, .engine, .sched, .assoc, .clip, .guard, .report, .notices, .writer, .line, .tallies, .attend, .wires] s t

/-- O13. SET_TIME takes the stored argument as the target second, when it fits in field time and, in LOCKED and HOLDOVER, does not lie
before the current second; it is refused with BAD_ARG otherwise, with the time record unchanged. -/
def Obligations.SetTimeAligns : Prop :=
  ∀ (tag : Byte) (s : State), s.control.inProgress = none →
    ((s.control.argument.toNat ≤ 281474976 ∧
        ((s.time.state = .locked ∨ s.time.state = .holdover) → s.time.count / 1000000 ≤ s.control.argument.toNat)) →
      ∃ t, exec (.setTime tag) s = .next t ∧
        t.time = { s.time with target := some s.control.argument.toNat, lastPulse := none, holdover := none, state := .aligning } ∧
        t.hasResult ⟨5, tag, .done⟩ ∧ Frame [.time, .writer, .wires] s t) ∧
    (281474976 < s.control.argument.toNat ∨
        (s.time.state = .locked ∨ s.time.state = .holdover) ∧ s.control.argument.toNat < s.time.count / 1000000 →
      ∃ t, exec (.setTime tag) s = .next t ∧ t.hasResult ⟨5, tag, .badArg⟩ ∧ Frame [.writer] s t)

/-- O14. DUMP_TALLY, accepted in STOPPED or LISTENING, takes the snapshot that it will write from page offset 1300H, and then clears the
tallies when bit 0 of the stored argument is set. -/
def Obligations.DumpTakesSnapshot : Prop :=
  ∀ (tag : Byte) (s : State), s.control.inProgress = none → (s.control.part = .stopped ∨ s.control.part = .listening) →
    ∃ (t : State) (d : Dump), exec (.dumpTally tag) s = .next t ∧ t.control = { s.control with inProgress := some (.dumpTally, tag) } ∧
      t.status.dump = some d ∧ d.offset = 0x1300 ∧
      (s.tallies.global.length = 34 → s.tallies.stations.length = 96 → s.engine.length = 96 → d.bytes.length = 1792 ∧
        field d.bytes 0 8 = s.time.count % 2 ^ 64 ∧
        (∀ k v, s.tallies.global[k]? = some v → field d.bytes (8 + 4 * k) 4 = v % 2 ^ 32) ∧
        (∀ o, 0x90 ≤ o → o < 0x100 → d.bytes[o]? = some 0) ∧
        (∀ (st : Nat) (x : StationTallies) (y : Detector), s.tallies.stations[st]? = some x → s.engine[st]? = some y →
          field d.bytes (0x100 + 16 * st) 4 = x.accepted % 2 ^ 32 ∧ field d.bytes (0x104 + 16 * st) 4 = x.gaps % 2 ^ 32 ∧
          field d.bytes (0x108 + 16 * st) 4 = x.picks % 2 ^ 32 ∧ field d.bytes (0x10C + 16 * st) 4 = if y.silent then 1 else 0)) ∧
      t.tallies = (if s.control.argument.getLsbD 0 then ⟨List.replicate 34 0, List.replicate 96 ⟨0, 0, 0⟩⟩ else s.tallies) ∧
      t.status.heartbeat = s.status.heartbeat ∧ t.status.newRecords = s.status.newRecords ∧ t.engine = s.engine ∧
      Frame [.control, .line, .writer, .tallies] s t

/-- O15. The command argument word becomes the stored argument. A command word with a code that is not listed answers BAD_ARG, or
REFUSED_BUSY while a command is in progress, and changes nothing else. -/
def Obligations.ArgumentAndUnknownCode : Prop :=
  (∀ (arg : BitVec 64) (s : State), ∃ t, exec (.commandArgumentWrite arg) s = .next t ∧ t.control = { s.control with argument := arg } ∧
     Frame [.control, .writer] s t) ∧
  (∀ (code tag : Byte) (s : State), (code.toNat = 0 ∨ 7 < code.toNat) → ∃ t, exec (.unknownCommand code tag) s = .next t ∧
     t.hasResult ⟨code, tag, if s.control.inProgress.isSome then .refusedBusy else .badArg⟩ ∧ Frame [.writer] s t)

/-- O16. The clear word removes from the pending set every kind it names, in every part state, and IRQ follows; naming no pending kind
changes nothing. A raise adds its kind, whether it is pending or not, so the two may be taken in either order (R167). -/
def Obligations.ClearWordRemovesKinds : Prop :=
  (∀ (kinds : BitVec 24) (s : State), IrqOk s → ∃ t, exec (.clearWord kinds) s = .next t ∧
    t.status.pending = s.status.pending &&& ~~~kinds ∧ t.status.irq = decide ((s.status.pending &&& ~~~kinds) &&& s.mask ≠ 0) ∧
    Frame [.notices, .writer] s t ∧ (s.status.pending &&& kinds = 0 → Frame [.writer] s t ∧ t.status.rewrite = s.status.rewrite)) ∧
  ∀ (n : Notice) (s : State), (s.raise n).status.pending = s.status.pending ||| n.bit

/-- O17. Commands are refused in order: REFUSED_BUSY while a command is in progress, but for SOFT_RESET and RELEASE_HOLDS during a STOP;
then REFUSED_STATE in a part state that does not accept them. A refusal changes nothing else. -/
def Obligations.CommandsAreRefused : Prop :=
  ∀ (tag : Byte) (s : State),
    ((∃ c g, s.control.inProgress = some (c, g)) →
      (∃ t, exec (.load tag) s = .next t ∧ t.hasResult ⟨1, tag, .refusedBusy⟩ ∧ Frame [.writer] s t) ∧
      (∃ t, exec (.start tag) s = .next t ∧ t.hasResult ⟨2, tag, .refusedBusy⟩ ∧ Frame [.writer] s t) ∧
      (∃ t, exec (.stop tag) s = .next t ∧ t.hasResult ⟨3, tag, .refusedBusy⟩ ∧ Frame [.writer] s t) ∧
      (∃ t, exec (.setTime tag) s = .next t ∧ t.hasResult ⟨5, tag, .refusedBusy⟩ ∧ Frame [.writer] s t) ∧
      (∃ t, exec (.dumpTally tag) s = .next t ∧ t.hasResult ⟨6, tag, .refusedBusy⟩ ∧ Frame [.writer] s t)) ∧
    ((∃ c g, s.control.inProgress = some (c, g) ∧ c ≠ .stop) →
      (∃ t, exec (.softReset tag) s = .next t ∧ t.hasResult ⟨4, tag, .refusedBusy⟩ ∧ Frame [.writer] s t) ∧
      (∃ t, exec (.releaseHolds tag) s = .next t ∧ t.hasResult ⟨7, tag, .refusedBusy⟩ ∧ Frame [.writer] s t)) ∧
    (s.control.inProgress = none →
      (s.control.part = .loading ∨ s.control.part = .listening ∨ s.control.part = .draining ∨
          s.control.part = .stopped ∧ (∃ e ∈ s.assoc.events, e ≠ none) →
        ∃ t, exec (.load tag) s = .next t ∧ t.hasResult ⟨1, tag, .refusedState⟩ ∧ Frame [.writer] s t) ∧
      (s.control.part ≠ .stopped → ∃ t, exec (.start tag) s = .next t ∧ t.hasResult ⟨2, tag, .refusedState⟩ ∧ Frame [.writer] s t) ∧
      (s.control.part ≠ .listening → ∃ t, exec (.stop tag) s = .next t ∧ t.hasResult ⟨3, tag, .refusedState⟩ ∧ Frame [.writer] s t) ∧
      (s.control.part = .dormant ∨ s.control.part = .loading →
        ∃ t, exec (.softReset tag) s = .next t ∧ t.hasResult ⟨4, tag, .refusedState⟩ ∧ Frame [.writer] s t) ∧
      (s.control.part ≠ .stopped → s.control.part ≠ .listening →
        ∃ t, exec (.dumpTally tag) s = .next t ∧ t.hasResult ⟨6, tag, .refusedState⟩ ∧ Frame [.writer] s t) ∧
      (s.control.part ≠ .listening → s.control.part ≠ .draining →
        ∃ t, exec (.releaseHolds tag) s = .next t ∧ t.hasResult ⟨7, tag, .refusedState⟩ ∧ Frame [.writer] s t))

/-- O18. STOP, accepted in LISTENING, takes every detector to OFF, frees every buffer that is ASSEMBLING and closes every event that is
GATHERING with reason STOP, to WAITING_TAIL or COPY_QUEUED, its plan in the slot; an event past GATHERING stands but for what its clip
fills in. With an event left before COPIED the part is DRAINING with the command in progress; with none it is STOPPED with DONE. A pick
whose detector is TRIGGERED is closed CUT at the detector's next sample time: the closure is on its way, or it stands in the event
already. Once the Clip Unit has taken STOP no plan of an event waits for a tail. The order in which STOP reaches the blocks is free (log
8), and picks sent before STOP are taken first (log 46): this holds for each order. -/
def Obligations.StopDrains : Prop :=
  ∀ (tag : Byte) (s : State), s.control.part = .listening → s.control.inProgress = none → ∃ t, exec (.stop tag) s = .next t ∧
    ((∃ e, some e ∈ t.assoc.events ∧ e.state ≠ .copied ∧ e.state ≠ .reported) →
      t.control = { s.control with part := .draining, inProgress := some (.stop, tag) } ∧ t.attend = s.attend ∧
        (t.wires.clipStop = true ∧ t.clip.draining = s.clip.draining ∨
          t.clip.draining = true ∧ ∀ (i : Nat) (e : Event) (p : Plan), t.assoc.events[i]? = some (some e) →
            t.clip.plans[i]? = some (some p) → p.tail = none)) ∧
    ((∀ e, some e ∈ t.assoc.events → e.state = .copied ∨ e.state = .reported) →
      t.control = { s.control with part := .stopped, inProgress := none, load := none } ∧ t.hasResult ⟨3, tag, .done⟩ ∧
        t.attend = { s.attend with deadline := none } ∧ t.clip.draining = false ∧ t.wires.clipStop = false) ∧
    (t.engine = s.engine.map fun d => { d with state := .off, count := 0, openPick := none, startPending := false, silence := none }) ∧
    (t.intake = { s.intake with bufs := s.intake.bufs.map fun b => match b with
      | .assembling _ _ _ _ _ => .free
      | .holding x => .holding x
      | .free => .free }) ∧
    (∀ e, some e ∈ t.assoc.events → e.state ≠ .gathering) ∧
    (∀ (i : Nat) (e : Event), s.assoc.events[i]? = some (some e) → e.number ∉ s.report.numbers →
      (e.state ≠ .gathering → ∃ e' : Event, t.assoc.events[i]? = some (some e') ∧
        e' = { e with clipFlags := e'.clipFlags, clipUnits := e'.clipUnits }) ∧
      (e.state = .gathering → ∃ e' : Event, t.assoc.events[i]? = some (some e') ∧
        (e'.state = .waitingTail ∨ e'.state = .copyQueued) ∧
        e' = { e with
          closeDeadline := none, reason := some .stop, closedAt := some s.time.count, state := e'.state, picks := e'.picks
          anchor := e'.anchor, last := e'.last, peakMax := e'.peakMax, clipFlags := e'.clipFlags, clipUnits := e'.clipUnits } ∧
        (i < s.clip.plans.length → ∃ p : Plan, t.clip.plans[i]? = some (some p) ∧ p.event = e.number) ∧
        (s.wires.toAssoc = [] → e'.anchor = e.anchor ∧ e'.last = e.last ∧ e'.picks.length = e.picks.length ∧
          ∀ (j : Nat) (c : PickCopy), e.picks[j]? = some c →
            (∀ (d : Detector) (p : OpenPick) (last : Nat), s.engine[c.pick.station]? = some d → d.state = .triggered →
              d.openPick = some p → d.nextTime = some last → p.onset = c.pick.onset → c.closure = none →
              Config.stopClosureFirst s.draws c.pick.station = true →
                e'.picks[j]? = some { c with closure := some ⟨true, last, p.peak⟩ }) ∧
            (c.closure ≠ none ∨ Config.stopClosureFirst s.draws c.pick.station = false ∨
              (∀ (d : Detector) (p : OpenPick), s.engine[c.pick.station]? = some d → d.state = .triggered → d.openPick = some p →
                p.onset ≠ c.pick.onset) → e'.picks[j]? = some c)))) ∧
    (∀ (st : Nat) (d : Detector) (p : OpenPick) (last : Nat), s.engine[st]? = some d → d.state = .triggered → d.openPick = some p →
      d.nextTime = some last → Config.stopClosureFirst s.draws st = false →
        .closure st p.onset ⟨true, last, p.peak⟩ ∈ t.wires.toAssoc) ∧
    Frame [.control, .intake, .engine, .assoc, .clip, .guard, .report, .notices, .writer, .tallies, .attend, .wires, .draws] s t

/-- O19. A drain ends when no event is left before COPIED: the part becomes STOPPED, DONE is written for the STOP, and the service
deadline is dropped. -/
def Obligations.DrainEnds : Prop :=
  ∀ (tag : Byte) (s : State), s.control.part = .draining → s.control.inProgress = some (.stop, tag) →
    (∀ e, some e ∈ s.assoc.events → e.state = .copied ∨ e.state = .reported) → ∃ t, exec .drainEnd s = .next t ∧
      t.control = { s.control with part := .stopped, inProgress := none, load := none } ∧ t.hasResult ⟨3, tag, .done⟩ ∧
      t.attend = { s.attend with deadline := none } ∧ t.status.rewrite = true ∧ Frame [.control, .clip, .writer, .attend, .wires] s t

/-- O20. RELEASE_HOLDS, accepted in LISTENING or DRAINING, cuts the slots in ascending order: each slot that was pinned has count zero and
the cut mark, the others stand, the Path Guard is told of each, HOLD_CUT is raised and counted once for each, and its refetch entries are
cancelled. Every READ entry is released with its mark, at its place and with its request; WRITE entries stand. DONE is written. A cut
takes up the next refetch entry in the same event (log 30). -/
def Obligations.ReleaseHoldsCutsAll : Prop :=
  ∀ (tag : Byte) (s : State), (s.control.part = .listening ∨ s.control.part = .draining) →
    (s.control.inProgress = none ∨ ∃ g, s.control.inProgress = some (.stop, g)) → ∃ (t c : State) (lost n : Nat),
      exec (.releaseHolds tag) s = .next t ∧ t.hasResult ⟨7, tag, .done⟩ ∧ t.control = s.control ∧
      SlotsCut (List.range s.intake.dir.length) s c ∧ Frame [.guard, .writer] c t ∧
      (∀ (n : Nat) (e : Slot), s.intake.dir[n]? = some e → ∃ e' : Slot, t.intake.dir[n]? = some e' ∧ e'.pins = 0 ∧
        e'.gen = e.gen ∧ e'.state = e.state ∧ (0 < e.pins → e'.cutMark = true ∧ n ∈ t.wires.slotFree ∧ (n, e.gen) ∈ t.wires.cutNotes) ∧
        (e.pins = 0 → e' = e)) ∧
      n = (s.intake.dir.filter fun e => decide (0 < e.pins)).length ∧
      t.status.pending = s.status.pending ||| (if lost = 0 then 0 else Notice.blockLost.bit) ||| (if n = 0 then 0 else Notice.holdCut.bit) ∧
      t.tallies = (if n = 0 then (if lost = 0 then s else s.countBy .overtaken lost)
        else (if lost = 0 then s else s.countBy .overtaken lost).countBy .holdCuts n).tallies ∧
      t.guard = { s.guard with held := t.guard.held, releases := t.guard.releases } ∧
      HeldReleased (fun h => ∃ marked, h.kind = .read marked) s.guard t.guard ∧
      Frame [.intake, .guard, .notices, .writer, .tallies, .wires] s t

/-- O21. Writes into the setup areas by part state: in DORMANT they change nothing; in LOADING one from a host tag, or from any tag when
the LOAD began in DORMANT, that puts a byte into what the loader has read fails the LOAD with CHANGED_DURING_LOAD, and any other changes
nothing. The offset written with the failure is the model's reading (log 35). -/
def Obligations.SetupWritesBeforeALoadEnds : Prop :=
  ∀ (w : PageWrite) (s : State),
    (s.control.part = .dormant → ∀ c, (c = Instr.generalSetupWrite w ∨ c = Instr.stationTableWrite w ∨ c = Instr.zoneTableWrite w ∨
      c = Instr.scheduleBankWrite w) → ∃ t, exec c s = .next t ∧ Frame [.writer] s t) ∧
    (∀ r : LoadRec, s.control.part = .loading → s.control.load = some r → ∀ c, (c = Instr.generalSetupWrite w ∨
      c = Instr.stationTableWrite w ∨ c = Instr.zoneTableWrite w ∨ c = Instr.scheduleBankWrite w) → ∃ t, exec c s = .next t ∧
        ((r.returnTo = .dormant ∨ s.gen.hostTags.getLsbD w.tag = true) ∧
            (∃ i b, w.bytes[i]? = some (some b) ∧ 0x100 ≤ w.offset + i ∧ w.offset + i < 0x100 + r.extent) →
          r.returnTo ≠ .loading → t.control.part = r.returnTo ∧ t.control.load = none ∧ t.control.inProgress = none ∧
            t.control.setup = s.control.setup ∧
            t.hasResult ⟨1, s.control.inProgressTag, .failed .changedDuringLoad w.offset⟩ ∧
            Frame [.control, .guard, .writer, .wires] s t) ∧
        (¬ ((r.returnTo = .dormant ∨ s.gen.hostTags.getLsbD w.tag = true) ∧
            ∃ i b, w.bytes[i]? = some (some b) ∧ 0x100 ≤ w.offset + i ∧ w.offset + i < 0x100 + r.extent) → Frame [.writer] s t))

/-- O22. A word of the general setup, with all its strobes set, in STOPPED, LISTENING or DRAINING: each live field in range takes effect
and one out of range does not, the staged word enters the staged copy, the locked words change nothing; SETUP_IGNORED and its tally follow
once when some field was not taken. A change of schedule_enable moves the schedule (R71), and a change of service_interval drops the
service deadline or sets it (R175); the schedule record and the attendance record stand for every other word. A write of several words
acts word by word, with one SETUP_IGNORED counted (log 15), and a word with a strobe clear is not taken. -/
def Obligations.GeneralWordByClass : Prop :=
  WordByWord .generalSetupWrite ∧
  ∀ (tag off : Nat) (w : List Byte) (s : State) (u : Setup), s.control.setup = some u → s.control.part.takesSetup = true →
    w.length = 8 → off % 8 = 0 → 0x100 ≤ off → off < 0x200 →
    ∃ (t : State) (g : General), exec (.generalSetupWrite ⟨tag, off, strobed w⟩) s = .next t ∧
      t.control = { s.control with setup := some { u with gen := g } } ∧
      g = (if off = 0x120 then
          { u.gen with
            silenceLimit := if 1 ≤ field w 0 1 ∧ field w 0 1 ≤ 60 then field w 0 1 else u.gen.silenceLimit
            scheduleEnable := if field w 1 1 ≤ 1 then field w 1 1 == 1 else u.gen.scheduleEnable
            refMinPeriod := field w 2 2
            intakeLatency := if field w 4 2 ≤ 5000 then field w 4 2 else u.gen.intakeLatency
            reportWatermark := if 1 ≤ field w 6 2 ∧ field w 6 2 ≤ u.gen.reportCap then field w 6 2 else u.gen.reportWatermark }
        else if off = 0x128 then
          { u.gen with
            pre := if field w 0 2 ≤ 2000 then field w 0 2 else u.gen.pre
            post := if 100 ≤ field w 2 2 ∧ field w 2 2 ≤ 4000 then field w 2 2 else u.gen.post
            tailWait := if field w 4 2 ≤ 10000 then field w 4 2 else u.gen.tailWait
            serviceInterval := if field w 6 2 = 0 ∨ 100 ≤ field w 6 2 ∧ field w 6 2 ≤ 60000 then field w 6 2 else u.gen.serviceInterval }
        else if off = 0x130 then
          { u.gen with
            copyBurst := if field w 0 1 = 8 ∨ field w 0 1 = 16 ∨ field w 0 1 = 32 then field w 0 1 else u.gen.copyBurst
            holdLimit := if field w 1 1 ≤ 100 then field w 1 1 else u.gen.holdLimit
            partShare := if 1 ≤ field w 2 1 ∧ field w 2 1 ≤ 8 then field w 2 1 else u.gen.partShare
            noticeMask := BitVec.ofNat 24 (field w 4 3) }
        else u.gen) ∧
      (off = 0x138 → t.sched = { s.sched with stagedPeriod := some (field w 0 2), stagedBank := some (field w 2 1) }) ∧
      (off = 0x120 → field w 1 1 ≤ 1 → (u.gen.scheduleEnable = true ↔ field w 1 1 ≠ 1) → ScheduleMoved (s.control.part = .listening)
        (field w 1 1 = 1) (s.time.state = .locked ∨ s.time.state = .holdover) s t.sched) ∧
      (off ≠ 0x138 → ¬ (off = 0x120 ∧ field w 1 1 ≤ 1 ∧ (u.gen.scheduleEnable = true ↔ field w 1 1 ≠ 1)) → t.sched = s.sched) ∧
      t.attend = (if off = 0x128 ∧ field w 6 2 = 0 then { s.attend with deadline := none }
        else if off = 0x128 ∧ 100 ≤ field w 6 2 ∧ field w 6 2 ≤ 60000 ∧ u.gen.serviceInterval = 0 ∧
            (s.control.part = .listening ∨ s.control.part = .draining) then
          { s.attend with deadline := some (min (s.time.count + field w 6 2 * 1000) (2 ^ 48 - 1)) }
        else s.attend) ∧
      (if off < 0x120 ∨
          off = 0x120 ∧ ¬ ((1 ≤ field w 0 1 ∧ field w 0 1 ≤ 60) ∧ field w 1 1 ≤ 1 ∧ field w 4 2 ≤ 5000 ∧ 1 ≤ field w 6 2 ∧
            field w 6 2 ≤ u.gen.reportCap) ∨
          off = 0x128 ∧ ¬ (field w 0 2 ≤ 2000 ∧ (100 ≤ field w 2 2 ∧ field w 2 2 ≤ 4000) ∧ field w 4 2 ≤ 10000 ∧
            (field w 6 2 = 0 ∨ 100 ≤ field w 6 2 ∧ field w 6 2 ≤ 60000)) ∨
          off = 0x130 ∧ ¬ ((field w 0 1 = 8 ∨ field w 0 1 = 16 ∨ field w 0 1 = 32) ∧ field w 1 1 ≤ 100 ∧ 1 ≤ field w 2 1 ∧
            field w 2 1 ≤ 8)
        then t.status.pending = s.status.pending ||| Notice.setupIgnored.bit ∧ t.tallies = (s.count .setupIgnored).tallies
        else t.status.pending = s.status.pending ∧ t.tallies = s.tallies) ∧
      Frame [.control, .sched, .attend, .notices, .writer, .tallies] s t

/-- O23. A word of the station table, with all its strobes set, in STOPPED, LISTENING or DRAINING: the locked word changes nothing in
force, `enabled` takes effect at once, a value above 1 is not taken (SETUP_IGNORED), and the two staged words enter the staged copy, the
entry in force standing. A disable in LISTENING of a detector that is TRIGGERED sends the closure of its pick, CUT (R60): at its onset
when no sample has followed it, the state count being 1 (R53). That the detector stands outside LISTENING is log 44. A write of several
words acts word by word, with one SETUP_IGNORED counted (log 15), and a word with a strobe clear is not taken. What else a disable leaves
standing is log 43. -/
def Obligations.StationWordByClass : Prop :=
  WordByWord .stationTableWrite ∧
  ∀ (tag st o : Nat) (w : List Byte) (s : State) (u : Setup) (e : StationEntry) (d : Detector), s.control.setup = some u →
    s.control.part.takesSetup = true → w.length = 8 → st < 96 → u.stations[st]? = some e → s.engine[st]? = some d →
    (o = 0 → ∃ t, exec (.stationTableWrite ⟨tag, 0x200 + 32 * st + o, strobed w⟩) s = .next t ∧
      t.status.pending = s.status.pending ||| Notice.setupIgnored.bit ∧ t.tallies = (s.count .setupIgnored).tallies ∧
      Frame [.notices, .writer, .tallies] s t) ∧
    (o = 8 → ∃ (t : State) (d' : Detector), exec (.stationTableWrite ⟨tag, 0x200 + 32 * st + o, strobed w⟩) s = .next t ∧
      t.engine = s.engine.set st d' ∧
      (∃ v : Bool, v = (if field w 0 1 = 0 then false else if field w 0 1 = 1 then true else e.enabled) ∧
        t.control = { s.control with setup := some { u with stations := u.stations.set st { e with enabled := v } } }) ∧
      (if field w 0 1 = 0 ∧ e.enabled = true ∧ s.control.part = .listening then
          d' = { d with state := .off, openPick := none, startPending := false, silence := none, silent := false }
        else if field w 0 1 = 1 ∧ e.enabled = false ∧ s.control.part = .listening then
          d' = { d with startPending := true, silence := some (min (s.time.count + u.gen.silenceLimit * 1000000) (2 ^ 48 - 1)) }
        else d' = d) ∧
      (∃ sent : List AssocMsg, t.wires = { s.wires with toAssoc := s.wires.toAssoc ++ sent } ∧
        (∀ (p : OpenPick) (last : Nat), field w 0 1 = 0 → e.enabled = true → s.control.part = .listening → d.state = .triggered →
          d.openPick = some p → d.nextTime = some last →
            sent = [.closure st p.onset ⟨true, if d.count ≤ 1 then p.onset else last, p.peak⟩]) ∧
        (field w 0 1 ≠ 0 ∨ e.enabled = false ∨ s.control.part ≠ .listening ∨ d.state ≠ .triggered → sent = [])) ∧
      (if 1 < field w 0 1 then t.status.pending = s.status.pending ||| Notice.setupIgnored.bit ∧ t.tallies = (s.count .setupIgnored).tallies
        else t.status.pending = s.status.pending ∧ t.tallies = s.tallies) ∧
      Frame [.control, .engine, .wires, .notices, .writer, .tallies] s t) ∧
    (o = 16 → ∃ (t : State), exec (.stationTableWrite ⟨tag, 0x200 + 32 * st + o, strobed w⟩) s = .next t ∧
      t.engine = s.engine.set st { d with staged := { d.staged with
        shortExp := some (field w 0 1), longExp := some (field w 1 1), onRatio := some (field w 2 2), offRatio := some (field w 4 2),
        minOn := some (field w 6 1) } } ∧ Frame [.engine, .writer] s t) ∧
    (o = 24 → ∃ (t : State), exec (.stationTableWrite ⟨tag, 0x200 + 32 * st + o, strobed w⟩) s = .next t ∧
      t.engine = s.engine.set st { d with staged := { d.staged with
        deadTime := some (field w 0 2), maxOn := some (field w 2 2) } } ∧ Frame [.engine, .writer] s t)

/-- O24. The zone table is locked, and so is the active schedule bank; an entry of the inactive bank is replaced at once, the others
standing. In STOPPED, LISTENING or DRAINING, with all strobes set. A write of several words acts word by word, with one SETUP_IGNORED
counted (log 15), and a word with a strobe clear is not taken. -/
def Obligations.ZoneAndBankWordsByClass : Prop :=
  WordByWord .zoneTableWrite ∧ WordByWord .scheduleBankWrite ∧
  ∀ (tag off : Nat) (w : List Byte) (s : State), s.control.part.takesSetup = true → w.length = 8 → off % 8 = 0 →
    (0xE00 ≤ off → off < 0x1000 → ∃ t, exec (.zoneTableWrite ⟨tag, off, strobed w⟩) s = .next t ∧
      t.status.pending = s.status.pending ||| Notice.setupIgnored.bit ∧ t.tallies = (s.count .setupIgnored).tallies ∧
      Frame [.notices, .writer, .tallies] s t) ∧
    (0x1000 ≤ off → off < 0x1180 →
      (s.sched.active = some .a → ∃ t, exec (.scheduleBankWrite ⟨tag, off, strobed w⟩) s = .next t ∧
        t.status.pending = s.status.pending ||| Notice.setupIgnored.bit ∧ t.tallies = (s.count .setupIgnored).tallies ∧
        Frame [.notices, .writer, .tallies] s t) ∧
      (s.sched.active ≠ some .a → ∃ t, exec (.scheduleBankWrite ⟨tag, off, strobed w⟩) s = .next t ∧
        (∃ e : BankEntry, t.sched = { s.sched with bankA := s.sched.bankA.set ((off - 0x1000) / 8) e } ∧ e =
          ⟨field w 0 2, field w 2 1, field w 3 1, field w 4 1, field w 5 1, BitVec.ofNat 8 (field w 6 1)⟩) ∧
        Frame [.sched, .writer] s t)) ∧
    (0x1180 ≤ off → off < 0x1300 →
      (s.sched.active = some .b → ∃ t, exec (.scheduleBankWrite ⟨tag, off, strobed w⟩) s = .next t ∧
        t.status.pending = s.status.pending ||| Notice.setupIgnored.bit ∧ t.tallies = (s.count .setupIgnored).tallies ∧
        Frame [.notices, .writer, .tallies] s t) ∧
      (s.sched.active ≠ some .b → ∃ t, exec (.scheduleBankWrite ⟨tag, off, strobed w⟩) s = .next t ∧
        (∃ e : BankEntry, t.sched = { s.sched with bankB := s.sched.bankB.set ((off - 0x1180) / 8) e } ∧ e =
          ⟨field w 0 2, field w 2 1, field w 3 1, field w 4 1, field w 5 1, BitVec.ofNat 8 (field w 6 1)⟩) ∧
        Frame [.sched, .writer] s t))

/-- O25. A heartbeat read from the host sets the service deadline anew in LISTENING and DRAINING, and makes the part ATTENDED; the service
deadline, when reached, is dropped and makes it UNATTENDED, which is told to the Path Guard and to the Report Unit. -/
def Obligations.AttendanceMoves : Prop :=
  ∀ (s : State) (u : Setup), s.control.setup = some u →
    (∃ t, exec .heartbeatRead s = .next t ∧
      t.attend = ⟨false, if (s.control.part = .listening ∨ s.control.part = .draining) ∧ u.gen.serviceInterval ≠ 0 then
        some (min (s.time.count + u.gen.serviceInterval * 1000) (2 ^ 48 - 1)) else s.attend.deadline⟩ ∧
      t.status.pending = (if s.attend.unattended then s.status.pending ||| Notice.attendance.bit else s.status.pending) ∧
      Frame [.attend, .notices, .writer] s t) ∧
    (∀ d, s.attend.deadline = some d → d ≤ s.time.count → ∃ t, exec .serviceDeadline s = .next t ∧ t.attend = ⟨true, none⟩ ∧
      (if s.attend.unattended then Frame [.attend, .writer] s t
        else t.status.pending = s.status.pending ||| Notice.attendance.bit ∧ t.tallies = (s.count .unattendedEntries).tallies ∧
          t.wires = { s.wires with unattGuard := s.wires.unattGuard + 1, unattReport := s.wires.unattReport + 1 } ∧
          Frame [.attend, .notices, .writer, .tallies, .wires] s t))

/-! ### Field time -/

/-- O26. A pulse on PPS in UNSET, or in LOCKED less than 500,000 µs of field time after the last taken one, is counted and passed over. A
change of the whole second is announced once, with the new second: the status line is to be rewritten. With no change to announce nothing
happens. That the command then leaves the state as it is, is the model's choice (log 1). -/
def Obligations.PassedPulseAndSecond : Prop :=
  (∀ s : State, (s.time.state = .unset ∨ s.time.state = .locked ∧ ∃ p, s.time.lastPulse = some p ∧ s.time.count - p < 500000) →
     ∃ t, exec .ppsPulse s = .next t ∧ t.tallies = (s.count .ppsPulses).tallies ∧ Frame [.writer, .tallies] s t) ∧
  (∀ s : State,
     (s.time.announced ≠ s.time.count / 1000000 → ∃ t, exec .fieldTimeSecond s = .next t ∧
       t.time = { s.time with announced := s.time.count / 1000000 } ∧ t.status.rewrite = true ∧ Frame [.time, .writer] s t ∧
       exec .fieldTimeSecond t = .next t) ∧
     (s.time.announced = s.time.count / 1000000 → exec .fieldTimeSecond s = .next s))

/-- O27. The aligning pulse. A target instant at or after field time is taken: field time steps to it, the part is LOCKED and aligned, the
rate values stand, and every pending deadline moves later by the step. A target instant that field time has passed is dropped with
TIME_AHEAD: a part never aligned returns to UNSET, and one aligned before is LOCKED and takes the pulse as a discipline pulse. The step
announces its second itself (log 42). -/
def Obligations.AligningPulse : Prop :=
  ∀ (sec : Nat) (s : State), s.time.state = .aligning → s.time.target = some sec → sec ≤ 281474976 →
    (s.time.count ≤ sec * 1000000 → ∃ (t : State) (later : Option Nat → Option Nat), exec .ppsPulse s = .next t ∧
      later = Option.map (fun d => min (d + (sec * 1000000 - s.time.count)) (2 ^ 48 - 1)) ∧
      t.time = { s.time with count := sec * 1000000, frac := 0, state := .locked, aligned := true, target := none,
                             lastPulse := some (sec * 1000000), holdover := some (min (sec * 1000000 + 1500000) (2 ^ 48 - 1)),
                             announced := sec } ∧
      t.status.pending = s.status.pending ||| Notice.timeLocked.bit ∧ t.tallies = (s.count .ppsPulses).tallies ∧
      t.wires = { s.wires with sched := s.wires.sched ++ [.time .locked] } ∧
      t.intake = { s.intake with bufs := s.intake.bufs.map (Buf.moved (sec * 1000000 - s.time.count)) } ∧
      t.engine = s.engine.map (fun d => { d with silence := later d.silence }) ∧
      t.sched = { s.sched with markDeadline := later s.sched.markDeadline, timer := later s.sched.timer } ∧
      t.assoc = { s.assoc with events := s.assoc.events.map (Option.map fun e => { e with closeDeadline := later e.closeDeadline }) } ∧
      t.clip = { s.clip with plans := s.clip.plans.map (Option.map fun p => { p with tail := later p.tail }) } ∧
      t.guard = { s.guard with held := s.guard.held.map (Held.moved (sec * 1000000 - s.time.count)) } ∧
      t.attend = { s.attend with deadline := later s.attend.deadline } ∧
      Frame [.time, .intake, .engine, .sched, .assoc, .clip, .guard, .notices, .writer, .tallies, .attend, .wires] s t) ∧
    (sec * 1000000 < s.time.count → s.time.aligned = false → ∃ t, exec .ppsPulse s = .next t ∧
      t.time = { s.time with state := .unset, target := none } ∧
      t.status.pending = s.status.pending ||| Notice.timeAhead.bit ∧ t.tallies = (s.count .ppsPulses).tallies ∧
      t.wires = { s.wires with sched := s.wires.sched ++ [.time .unset] } ∧
      Frame [.time, .notices, .writer, .tallies, .wires] s t) ∧
    (sec * 1000000 < s.time.count → s.time.aligned = true → s.time.lastPulse = none → ∃ u t,
      exec .ppsPulse { s with time := { s.time with state := .locked, target := none } } = .next u ∧ exec .ppsPulse s = .next t ∧
      t.status.pending = u.status.pending ||| Notice.timeAhead.bit ||| Notice.timeLocked.bit ∧
      t.wires = { u.wires with sched := u.wires.sched ++ [.time .locked] } ∧ Frame [.notices, .writer, .wires] u t)

/-- O28. A discipline pulse: one taken in LOCKED or HOLDOVER. With `B` the base rate it leaves and `r` the µs of field time past the last
whole second: the rate is measured over an interval of 500,000 to 1,500,000 µs in LOCKED, to the nearest whole number with halves up, and
clamped to the limits; field time behind the pulse steps forward to the whole second, its deadlines with it; field time ahead is slewed
back, at the lower limit with TIME_AHEAD above 1000 µs. Before a LOAD has succeeded both rate values stand at their reset value. That a
step is held at 2^48 - 1 is the model's choice (log 28); that a pulse in HOLDOVER measures nothing is log 45, and that the step announces
its second itself log 42. -/
def Obligations.DisciplinePulse : Prop :=
  ∀ s : State, RatesOk s →
    (s.time.state = .locked ∧ (∀ p, s.time.lastPulse = some p → 500000 ≤ s.time.count - p) ∨ s.time.state = .holdover) →
    ∃ (t : State) (low high measured base r lost : Nat), exec .ppsPulse s = .next t ∧
      low = s.gen.rateNominal - s.gen.rateNominal * s.gen.rateDev / 1000000 ∧
      high = s.gen.rateNominal + s.gen.rateNominal * s.gen.rateDev / 1000000 ∧
      (∀ p, s.time.lastPulse = some p → s.time.state = .locked → s.time.count - p ≤ 1500000 →
        measured = (2 * (s.time.rateWord * 1000000) + (s.time.count - p)) / (2 * (s.time.count - p))) ∧
      ((s.time.lastPulse = none ∨ s.time.state = .holdover ∨ ∃ p, s.time.lastPulse = some p ∧ 1500000 < s.time.count - p) →
        measured = s.time.baseRate) ∧
      base = (if s.time.firstLoad then max low (min high measured) else 171798692) ∧
      r = s.time.count % 1000000 ∧ lost = (base * r + 999999) / 1000000 ∧
      t.time = { s.time with
        count := if r ≤ 500000 then s.time.count else min ((s.time.count / 1000000 + 1) * 1000000) (2 ^ 48 - 1)
        frac := if r ≤ 500000 then s.time.frac else 0
        baseRate := base
        rateWord := if s.time.firstLoad = false then 171798692 else if r = 0 ∨ 500000 < r then base
          else if r ≤ 1000 then max low (base - lost) else low
        state := .locked
        lastPulse := some t.time.count
        holdover := some (min (t.time.count + 1500000) (2 ^ 48 - 1))
        announced := if r ≤ 500000 then s.time.announced else t.time.count / 1000000 } ∧
      t.status.pending = (s.status.pending |||
        (if s.time.firstLoad ∧ (base ≠ measured ∨ 0 < r ∧ r ≤ 1000 ∧ base - lost < low) then Notice.rateLimit.bit else 0) |||
        (if 1000 < r ∧ r ≤ 500000 then Notice.timeAhead.bit else 0)) |||
        (if s.time.state = .holdover then Notice.timeLocked.bit else 0) ∧
      (∃ a b : State, a = (if s.time.firstLoad ∧ base ≠ measured then (s.count .ppsPulses).count .rateLimitHits else s.count .ppsPulses) ∧
        b = (if s.time.firstLoad ∧ 0 < r ∧ r ≤ 1000 ∧ base - lost < low then a.count .rateLimitHits else a) ∧ t.tallies = b.tallies) ∧
      t.wires = { s.wires with sched := s.wires.sched ++ if s.time.state = .holdover then [.time .locked] else [] } ∧
      (if r ≤ 500000 then Frame [.time, .notices, .writer, .tallies, .wires] s t
        else Frame [.time, .notices, .writer, .tallies, .wires] (s.moveDeadlines (t.time.count - s.time.count)) t)

/-- O29. The holdover deadline, reached in LOCKED, makes the time state HOLDOVER with TIME_HOLDOVER, is dropped, and leaves the rate
values and the last taken pulse as they stood; a pulse taken after it returns the state to LOCKED, with both notices raised. A pulse taken
first sets a new deadline, so the old one does not expire. In another state than LOCKED nothing expires. That a deadline absent or not
reached leaves the state as it is, is the model's choice (log 1). -/
def Obligations.HoldoverDeadlineExpires : Prop :=
  (∀ (d : Nat) (s : State), s.time.state = .locked → s.time.holdover = some d → d ≤ s.time.count →
    (∃ t, exec .holdoverDeadline s = .next t ∧ t.time = { s.time with state := .holdover, holdover := none } ∧
      t.status.pending = s.status.pending ||| Notice.timeHoldover.bit ∧
      t.wires = { s.wires with sched := s.wires.sched ++ [.time .holdover] } ∧ Frame [.time, .notices, .writer, .wires] s t ∧
      ∃ u, exec .ppsPulse t = .next u ∧ u.time.state = .locked ∧
        u.status.pending &&& Notice.timeHoldover.bit = Notice.timeHoldover.bit ∧
        u.status.pending &&& Notice.timeLocked.bit = Notice.timeLocked.bit) ∧
    ((∀ p, s.time.lastPulse = some p → 500000 ≤ s.time.count - p) → ∃ u, exec .ppsPulse s = .next u ∧ u.time.state = .locked ∧
      u.time.holdover = some (min (u.time.count + 1500000) (2 ^ 48 - 1)) ∧
      (u.time.count < 2 ^ 48 - 1 → exec .holdoverDeadline u = .next u))) ∧
  ∀ s : State, (s.time.state ≠ .locked ∨ s.time.holdover = none ∨ ∃ d, s.time.holdover = some d ∧ s.time.count < d) →
    exec .holdoverDeadline s = .next s

/-! ### The schedule -/

/-- O30. A pulse on REF is counted; it does nothing more under INTERNAL or out of the running states, is a bounce less than
`ref_min_period` after the last taken one, and else is taken: the schedule follows it, and a cycle starts. -/
def Obligations.RefPulseIsTaken : Prop :=
  ∀ s : State,
    (s.gen.refSource = .internal ∨ s.sched.state = .idle ∨ s.sched.state = .waitTime → ∃ t, exec .refPulse s = .next t ∧
      t.tallies = (s.count .refPulses).tallies ∧ Frame [.writer, .tallies] s t) ∧
    (s.gen.refSource = .ref → s.sched.state ≠ .idle → s.sched.state ≠ .waitTime →
      (∀ p, s.sched.lastRef = some p → s.time.count - p < s.gen.refMinPeriod * 100 → ∃ t, exec .refPulse s = .next t ∧
        t.tallies = ((s.count .refPulses).count .refBounces).tallies ∧ Frame [.writer, .tallies] s t) ∧
      ((∀ p, s.sched.lastRef = some p → s.gen.refMinPeriod * 100 ≤ s.time.count - p) → ∃ t, exec .refPulse s = .next t ∧
        CycleStarted (s.count .refPulses) t ∧ t.sched.state = .following ∧ t.sched.lastRef = some s.time.count ∧
        Frame [.sched, .notices, .writer, .tallies] s t))

/-- O31. The other starts of a cycle: the internal timer, reached in WAIT_REF or FOLLOWING, makes the state FOLLOWING; a WATCH reached
under REF, at a mark above 0, makes it FREE_RUN, with REF_MISSING on the entry and the REF missing tally at each. Under INTERNAL, or at
mark 0, the pointer stops at the WATCH. The last taken REF stands. -/
def Obligations.TimerAndWatchStartCycles : Prop :=
  ∀ s : State,
    (∀ d, s.sched.timer = some d → d ≤ s.time.count → (s.sched.state = .waitRef ∨ s.sched.state = .following) →
      ∃ t, exec .internalCycleTimer s = .next t ∧ CycleStarted s t ∧ t.sched.state = .following ∧ t.sched.lastRef = s.sched.lastRef ∧
        Frame [.sched, .notices, .writer, .tallies] s t) ∧
    (∀ i d e, s.sched.pointer = some (.on i) → s.sched.markDeadline = some d → d ≤ s.time.count → s.sched.entries[i]? = some e →
      e.action = 5 →
      (e.mark = 0 ∨ s.gen.refSource = .internal → ∃ t, exec .watchDeadline s = .next t ∧
        t.sched = { s.sched with pointer := some (.stopped i), markDeadline := none } ∧ Frame [.sched, .writer] s t) ∧
      (e.mark ≠ 0 → s.gen.refSource = .ref → ∃ t, exec .watchDeadline s = .next t ∧
        CycleStarted ((if s.sched.state = .freeRun then s else s.raise .refMissing).count .refMissing) t ∧
        t.sched.state = .freeRun ∧ t.sched.lastRef = s.sched.lastRef ∧ Frame [.sched, .notices, .writer, .tallies] s t))

/-- O32. An announced change of part state or time state moves the schedule by its three conditions: IDLE unless the part is LISTENING and
the schedule enabled, WAIT_TIME unless field time stands on the epoch, WAIT_REF from either of the two, and a running state is kept.
Leaving a running state closes every open interval and drops the cycle. Which of the conditions the message carries is the model's choice
(log 19). -/
def Obligations.ConditionsMoveTheSchedule : Prop :=
  ∀ (m : SchedMsg) (rest : List SchedMsg) (s : State) (p : PartState) (x : TimeState), s.wires.sched = m :: rest →
    (p = match m with | .part q => q | .time _ => s.control.part) → (x = match m with | .part _ => s.time.state | .time y => y) →
    ∃ t, exec .scheduleConditionChange s = .next t ∧ t.wires = { s.wires with sched := rest } ∧
      (p ≠ .listening ∨ s.gen.scheduleEnable = false → t.sched.state = .idle) ∧
      (p = .listening → s.gen.scheduleEnable = true → (x = .unset ∨ x = .aligning) → t.sched.state = .waitTime) ∧
      (p = .listening → s.gen.scheduleEnable = true → (x = .locked ∨ x = .holdover) →
        (s.sched.state = .idle ∨ s.sched.state = .waitTime) → t.sched = { s.sched with
          state := .waitRef, cycleCount := some s.gen.cycleMax, lastRef := none,
          timer := if s.gen.refSource = .internal then some (min (s.time.count + s.sched.period.getD 0 * 100) (2 ^ 48 - 1))
            else s.sched.timer }) ∧
      (p = .listening → s.gen.scheduleEnable = true → (x = .locked ∨ x = .holdover) →
        s.sched.state ≠ .idle → s.sched.state ≠ .waitTime → t.sched = s.sched) ∧
      (s.sched.state ≠ .idle → s.sched.state ≠ .waitTime → (t.sched.state = .idle ∨ t.sched.state = .waitTime) →
        t.sched = { s.sched with
          state := t.sched.state, cycleStart := none, pointer := none, markDeadline := none, timer := none, lastRef := none,
          cycleCount := some s.gen.cycleMax,
          intervals := s.sched.intervals.map fun v => if v.endT = none then { v with endT := some s.time.count } else v }) ∧
      ((s.sched.state = .idle ∨ s.sched.state = .waitTime) → (t.sched.state = .idle ∨ t.sched.state = .waitTime) →
        t.sched = { s.sched with state := t.sched.state }) ∧
      Frame [.sched, .writer, .wires] s t

/-- O33. A mark deadline reached: the entry under the pointer acts, and taking goes on from the next. A WATCH or an entry of this cycle
that lies ahead has its deadline set, an END stops the pointer, and entries of other cycles are passed over. Marks at or before field time
act in the same event (log 27), and a deadline is set from the recorded cycle start, also after a step of field time (log 51). -/
def Obligations.MarkDeadlineActs : Prop :=
  ∀ (i d start n : Nat) (e : BankEntry) (s : State), s.sched.pointer = some (.on i) → s.sched.markDeadline = some d →
    d ≤ s.time.count → s.sched.entries[i]? = some e → e.action ≠ 5 → s.sched.cycleStart = some start → s.sched.cycleCount = some n →
    ∃ t, exec .markDeadline s = .next t ∧
      t.sched = takeEntries s.time.count start n s.sched.entries 49 (i + 1)
        { s.sched with intervals := e.act s.time.count s.sched.intervals } ∧ Frame [.sched, .writer] s t ∧
      EntriesTaken s.time.count start n s.sched.entries (i + 1) (e.act s.time.count s.sched.intervals) t.sched ∧
      ∀ (k : Nat) (f : BankEntry), (∀ j g, i < j → j < i + 1 + k → s.sched.entries[j]? = some g → g.action ≠ 0 ∧ g.action ≠ 5 ∧ n % g.rep ≠ g.first) →
        k < 49 → s.sched.entries[i + 1 + k]? = some f →
        (f.action = 0 → t.sched = { s.sched with
          pointer := some (.stopped (i + 1 + k)), markDeadline := none, intervals := e.act s.time.count s.sched.intervals }) ∧
        (f.action = 5 ∨ f.action ≠ 0 ∧ n % f.rep = f.first ∧ s.time.count < min (start + f.mark * 100) (2 ^ 48 - 1) →
          t.sched = { s.sched with
            pointer := some (.on (i + 1 + k)), markDeadline := some (min (start + f.mark * 100) (2 ^ 48 - 1)),
            intervals := e.act s.time.count s.sched.intervals })

/-- O34. What an entry does to the mute interval list. After an ON entry each group of its mask is open, for its kind; what stood still
does, and at most one interval is new, open from this field time for the groups of the mask that were not open. After an OFF entry no
group of its mask is open, for its kind: each interval met is closed at this field time, and what of its groups the mask leaves out goes
on in a new one. A list that holds 16 loses the closed interval with the earliest end, one for each new interval that finds no room. The
list keeps its order of begin times. Where one OFF splits several intervals, their order in the list is the model's choice (log 47). -/
def Obligations.MuteEntriesAct : Prop :=
  ∀ (e : BankEntry) (now : Nat) (vs : List Interval), IntervalsOk vs →
    (∀ k : MuteKind, (e.action = 1 ∧ k = .mute ∨ e.action = 3 ∧ k = .desens e.factor) →
      (∀ g, e.mask.getLsbD g = true → ∃ v ∈ e.act now vs, v.isOpen ∧ v.kind.same k ∧ v.mask.getLsbD g = true) ∧
      (∀ v ∈ vs, v.isOpen → v ∈ e.act now vs) ∧
      (∀ v ∈ e.act now vs, v ∈ vs ∨ v.beginT = now ∧ v.endT = none ∧ v.kind = k ∧ v.mask &&& ~~~e.mask = 0) ∧
      ∃ new dropped : List Interval, (e.act now vs ++ dropped).Perm (vs ++ new) ∧ new.length ≤ 1 ∧
        (∀ v ∈ new, v.beginT = now ∧ v.endT = none ∧ v.kind = k ∧ ∀ g, v.mask.getLsbD g = true ↔
          e.mask.getLsbD g = true ∧ ∀ w ∈ vs, w.isOpen → w.kind.same k → w.mask.getLsbD g = false) ∧
        (vs.length + new.length ≤ 16 → dropped = []) ∧ (dropped ≠ [] → (e.act now vs).length = 16) ∧
        (∀ d ∈ dropped, ∃ u, d.endT = some u ∧ (∀ v ∈ e.act now vs, ∀ w, v.endT = some w → u ≤ w) ∧
          ∃ a b : List Interval, vs = a ++ d :: b ∧ ∀ v ∈ a, v.endT ≠ some u)) ∧
    (∀ k : MuteKind, (e.action = 2 ∧ k = .mute ∨ e.action = 4 ∧ k = .desens e.factor) →
      (∀ v ∈ e.act now vs, v.isOpen → v.kind.same k → v.mask &&& e.mask = 0) ∧
      (∀ v ∈ vs, v.isOpen → ∀ g, v.mask.getLsbD g = true → (v.kind.same k → e.mask.getLsbD g = false) →
        ∃ w ∈ e.act now vs, w.isOpen ∧ w.kind = v.kind ∧ w.mask.getLsbD g = true) ∧
      ∃ new dropped : List Interval,
        new = ((vs.filter fun v => v.isOpen ∧ v.kind.same k ∧ v.mask &&& e.mask ≠ 0 ∧ v.mask &&& ~~~e.mask ≠ 0).map fun v =>
          ⟨v.mask &&& ~~~e.mask, v.kind, now, none⟩) ∧
        (e.act now vs ++ dropped).Perm ((vs.map fun v =>
          if v.isOpen ∧ v.kind.same k ∧ v.mask &&& e.mask ≠ 0 then { v with endT := some now } else v) ++ new) ∧
        (vs.length + new.length ≤ 16 → dropped = []) ∧ (dropped ≠ [] → (e.act now vs).length = 16) ∧
        (∀ d ∈ dropped, ∃ u, d.endT = some u ∧ ∀ v ∈ e.act now vs, ∀ w, v.endT = some w → u ≤ w)) ∧
    ((e.action = 0 ∨ 5 ≤ e.action) → e.act now vs = vs) ∧
    (vs.Pairwise (fun v w => v.beginT ≤ w.beginT) → (e.act now vs).Pairwise fun v w => v.beginT ≤ w.beginT)

/-- O35. R82. An advance of the sample horizon removes from the mute interval list every closed interval whose end lies before the horizon
less (intake_latency + 1000) × 1000 µs; none is removed when the horizon is smaller, and an open interval is never removed. -/
def Obligations.HorizonRemovesOldIntervals : Prop :=
  ∀ (h : Nat) (rest : List Nat) (s : State), s.wires.horizonSched = h :: rest → ∃ t, exec .horizonAdvanceSchedule s = .next t ∧
    (∀ v, v ∈ t.sched.intervals ↔ v ∈ s.sched.intervals ∧
      (v.endT = none ∨ h < (s.gen.intakeLatency + 1000) * 1000 ∨ ∃ u, v.endT = some u ∧ h - (s.gen.intakeLatency + 1000) * 1000 ≤ u)) ∧
    t.sched.intervals.Sublist s.sched.intervals ∧ t.sched = { s.sched with intervals := t.sched.intervals } ∧
    t.wires = { s.wires with horizonSched := rest } ∧ Frame [.sched, .writer, .wires] s t

/-! ### The memory path -/

/-- O36. The upstream port accepts a request while the queue holds fewer than 16, behind those that wait; with 16 it accepts none, and the
initiator waits outside (log 34). What breaks R122's form is no request, and the model refuses it as a command (log 11). Completions go
upstream in the order of their tag's requests: a refused request is answered REFUSED, a read of it with zeros, and a granted one with what
memory returned, unchanged, with no notice and no tally. While the tag's oldest request is undecided nothing is returned for it. That one
command shows one completion, and that it changes nothing while the request is undecided, is the model's choice (logs 32, 1). -/
def Obligations.UpstreamPort : Prop :=
  (∀ (r : Request) (s : State),
     (r.ok = true → s.guard.queue.length < 16 → ∃ t, exec (.upstreamRequest r) s = .next t ∧
       t.guard = { s.guard with queue := s.guard.queue ++ [⟨r, false⟩],
                                unanswered := s.guard.unanswered ++ [⟨r.tag, r.kind, r.beats, .waiting⟩] } ∧
       Frame [.guard, .writer] s t) ∧
     (r.ok = true → 16 ≤ s.guard.queue.length → exec (.upstreamRequest r) s = .next s) ∧
     (r.ok = false → exec (.upstreamRequest r) s = .refused .malformedCommand)) ∧
  (∀ (tag : Nat) (code : MemCode) (data : List Byte) (s : State) (pre post : List Unanswered) (u : Unanswered),
     s.guard.unanswered = pre ++ u :: post → (∀ x ∈ pre, x.tag ≠ tag) → u.tag = tag →
     (u.prog = .refused → ∃ t, exec (.upstreamCompletion tag code data) s = .next t ∧
       t.guard = { s.guard with
         unanswered := pre ++ post
         upstream := some ⟨tag, .refused, if u.kind = .read then List.replicate (8 * u.beats) 0 else []⟩ } ∧ Frame [.guard, .writer] s t) ∧
     (∀ o rest, u.prog = .granted → s.guard.downstream = o :: rest → o.owner = .pass tag →
       data.length = (if u.kind = .read ∧ code = .okay then 8 * u.beats else 0) → ∃ t, exec (.upstreamCompletion tag code data) s = .next t ∧
       t.guard = { s.guard with
         unanswered := pre ++ post
         downstream := rest
         upstream := some ⟨tag, if code = .okay then .okay else .memerr, data⟩ } ∧ Frame [.guard, .writer] s t) ∧
     (u.prog = .waiting → exec (.upstreamCompletion tag code data) s = .next s))

/-- O37. A grant to the part's claimants: when PASS does not wait, or the share of the frame is not used up, it goes to the first waiting
claimant in the cyclic order after the one served last. It is counted in the frame of 16, and carries that claimant's request to memory.
Which part share the next frame takes is the model's reading (log 20), and that the loader reads 32 beats (log 16), and that the directory
is formed as the copier comes to it (log 52), its choices. -/
def Obligations.PartClaimantIsGranted : Prop :=
  ∀ (q : Claimant) (s : State), s.guard.lastServed.after.find? s.waits = some q →
    (s.guard.candidate = none ∨ s.guard.shareCount < s.guard.frameShare) → ∃ t, exec .downstreamGrant s = .next t ∧
      t.guard.lastServed = q ∧ t.guard.queue = s.guard.queue ∧ t.guard.held = s.guard.held ∧
      (if s.guard.grantCount < 15 then t.guard.grantCount = s.guard.grantCount + 1 ∧ t.guard.frameShare = s.guard.frameShare ∧
          t.guard.shareCount = s.guard.shareCount + (if s.guard.candidate.isSome then 1 else 0)
        else t.guard.grantCount = 0 ∧ t.guard.shareCount = 0 ∧ t.guard.frameShare = s.gen.partShare) ∧
      (∀ r base, q = .loader → s.control.load = some r → s.control.pageBase = some base →
        t.guard.downstream = s.guard.downstream ++ [⟨.loader, .read, base + 0x100 + r.extent, 32, [], false⟩] ∧
        t.control = { s.control with load := some { r with extent := r.extent + 256 } }) ∧
      (∀ r, q = .status → s.status.offer = some (.result r) →
        t.guard.downstream = s.guard.downstream ++ [⟨.status, .write, s.page + 0x40, 1, strobed r.bytes, false⟩] ∧
        ResultWord r r.bytes ∧ t.status.pending = s.status.pending ||| Notice.commandDone.bit) ∧
      (q = .status → s.status.offer = some .line →
        t.guard.downstream = s.guard.downstream ++
          [⟨.status, .write, s.page + 0x80, 9, strobed (s.lineBytes ((s.status.heartbeat + 1) % 2 ^ 32)), false⟩] ∧
        StatusLine s ((s.status.heartbeat + 1) % 2 ^ 32) (s.lineBytes ((s.status.heartbeat + 1) % 2 ^ 32)) ∧
        t.status.heartbeat = (s.status.heartbeat + 1) % 2 ^ 32 ∧ t.status.rewrite = decide (s.status.newRecords ≠ 0 ∧
          s.status.pending ||| Notice.reportReady.bit ≠ s.status.pending) ∧ t.status.newRecords = 0 ∧
        t.status.pending = if s.status.newRecords = 0 then s.status.pending else s.status.pending ||| Notice.reportReady.bit) ∧
      (∀ d, q = .status → s.status.offer = some .dump → s.status.dump = some d →
        t.guard.downstream = s.guard.downstream ++
          [⟨.status, .write, s.page + d.offset, (d.bytes.take 256).length / 8, strobed (d.bytes.take 256), false⟩] ∧
        (d.bytes.length ≤ 256 → t.status.dump = none ∧ t.control = { s.control with inProgress := none } ∧
          t.hasResult ⟨6, s.control.inProgressTag, .done⟩) ∧
        (256 < d.bytes.length → t.status.dump = some ⟨d.offset + 256, d.bytes.drop 256⟩)) ∧
      (∀ ev index record, q = .report → s.report.writer = .writing ev index record false →
        t.guard.downstream = s.guard.downstream ++ [⟨.report, .write, s.gen.reportBase + 512 * index, (record.take 256).length / 8,
          strobed (record.take 256), false⟩] ∧ t.report = { s.report with writer := .writing ev index record true }) ∧
      (∀ ev index record, q = .report → s.report.writer = .writing ev index record true → ∃ a b : State,
        a.guard.downstream = s.guard.downstream ++ [⟨.report, .write, s.gen.reportBase + 512 * index + 256, (record.drop 256).length / 8,
          strobed (record.drop 256), false⟩] ∧
        a.report = { s.report with
          writer := .idle
          put := (s.report.put + 1) % s.gen.reportCap
          occupancy := s.report.occupancy + 1
          numbers := s.report.numbers ++ [ev] } ∧
        a.wires = { s.wires with stateRequests := s.wires.stateRequests ++ [(ev, .reported)] } ∧
        a.tallies = (s.count .reportsWritten).tallies ∧ a.status.newRecords = s.status.newRecords + 1 ∧
        a.status.heartbeat = s.status.heartbeat ∧ a.status.dump = s.status.dump ∧ a.status.rewrite = true ∧
        a.status.pending = (if s.gen.reportWatermark ≤ s.report.occupancy + 1 then s.status.pending ||| Notice.reportWatermark.bit
          else s.status.pending) ∧
        Frame [.guard, .report, .notices, .writer, .line, .tallies, .wires] s a ∧ WriterLooked a b ∧ Frame [.guard, .writer] b t ∧
        t.guard.downstream = a.guard.downstream) ∧
      (∀ e, q = .refetch → s.intake.refetch.find? (fun x => x.state == .reading) = some e →
        t.guard.downstream = s.guard.downstream ++ [⟨.refetch, .read, s.gen.ringBase + 512 * e.slot + 32 + 256 * e.granted,
          if e.granted = 0 then min e.beats 32 else e.beats - 32, [], false⟩] ∧
        t.intake = { s.intake with
          refetch := s.intake.refetch.map fun x => if x.state = .reading then { x with granted := x.granted + 1 } else x }) ∧
      (∀ (p k m : Nat) (pl : Plan) (cs ds : List StationClip) (c : StationClip) (x : Selection), q = .copier →
        s.clip.plans[p]? = some (some pl) → pl.clips = cs ++ c :: ds → c.sels[m]? = some x →
        k = (cs.map fun c => c.sels.length).sum + m →
        (∀ burst granted returned data err, s.clip.copier = .unit p k (.reading burst granted returned data err) →
          t.guard.downstream = s.guard.downstream ++
            [⟨.copierRead, .read, s.gen.ringBase + 512 * x.slot + 8 * burst * granted, burst, [], false⟩] ∧
          t.clip = { s.clip with copier := .unit p k (.reading burst (granted + 1) returned data err) }) ∧
        (∀ addr piece rest, s.clip.copier = .unit p k (.writing addr (piece :: rest)) →
          t.guard.downstream = s.guard.downstream ++
            [⟨.copierWrite (some cs.length), .write, addr, piece.length / 8, strobed piece, false⟩] ∧
          (rest ≠ [] → t.clip = { s.clip with
            writesOut := s.clip.writesOut + 1, copier := .unit p k (.writing (addr + piece.length) rest) }) ∧
          (∀ (m' : Nat) (r : Region) (cs' ds' : List StationClip) (c' : StationClip) (x' : Selection), rest = [] → pl.region = some r →
            pl.clips = cs' ++ c' :: ds' → c'.sels[m']? = some x' → k + 1 = (cs'.map fun c => c.sels.length).sum + m' →
            t.clip = { s.clip with
              writesOut := s.clip.writesOut + 1
              copier := if x'.status = .cut then .unit p (k + 1) (.writing (s.gen.clipBase + 512 * (r.first + 1 + (k + 1)))
                [voidHeader pl.event c'.station x' true false]) else .unit p (k + 1) (.check s.gen.copyBurst) }) ∧
          (∀ (r : Region) (e : Event), rest = [] → pl.region = some r → k + 1 = (pl.clips.map fun c => c.sels.length).sum →
            s.assoc.events[p]? = some (some e) → t.clip = { s.clip with
              writesOut := s.clip.writesOut + 1
              copier := .directory p (s.gen.clipBase + 512 * r.first)
                (chunksOf (8 * s.gen.copyBurst) (64 / s.gen.copyBurst) (directoryBytes e.zone pl r)) }))) ∧
      (∀ p addr piece rest, q = .copier → s.clip.copier = .directory p addr (piece :: rest) →
        t.guard.downstream = s.guard.downstream ++ [⟨.copierWrite none, .write, addr, piece.length / 8, strobed piece, false⟩] ∧
        t.clip = { s.clip with writesOut := s.clip.writesOut + 1, copier := .directory p (addr + piece.length) rest }) ∧
      (q = .loader → Frame [.control, .guard, .writer] s t) ∧ (q = .refetch → Frame [.intake, .guard, .writer] s t) ∧
      (q = .copier → Frame [.clip, .guard, .writer] s t) ∧ (q = .status → Frame [.control, .guard, .notices, .writer, .line] s t)

/-- O38. A grant to PASS, to its candidate, when no claimant waits or the share of the frame is used up. What lies elsewhere, a read that
is not held, and every request without a region map but for what follows, is carried to memory and counted in the frame. A write of the
control page that may pass, and a host tag's read of the heartbeat word, are carried too, and what is handed over takes effect in the same
event: one word, or one setup area, as its own command does; several words of the control line with the argument, the ack and the clear
before the command, wherever the write begins; words that no area names carry nothing; a write across two areas acts in the first, then in
the second, with one SETUP_IGNORED (log 15). A refused request (it straddles, writes the clip store or the report ring, the sample ring
without a writer tag, or the control page without a host tag, over the part's own areas or with a strobe clear) takes no grant:
REFUSED_REQUEST is raised and counted, here when nothing else waits. Which part share the next frame takes is the model's reading (log
20). -/
def Obligations.PassIsGrantedOrRefused : Prop :=
  ∀ (s sent : State) (c : Candidate) (r : Request) (mark : Bool) (pre post : List Unanswered) (u : Unanswered) (g : General)
    (counted : State → PathGuard), s.gen = g → r.ok = true → s.guard.candidate = some c → s.guard.request c = some (r, mark) →
    s.guard.unanswered = pre ++ u :: post → u.tag = r.tag → u.prog = .waiting →
    (∀ x ∈ pre, x.tag = r.tag → x.prog ≠ .waiting) →
    sent = { s with guard := { s.guard.remove c with
      unanswered := pre ++ { u with prog := .granted } :: post
      downstream := s.guard.downstream ++ [⟨.pass r.tag, r.kind, r.addr, r.beats, r.bytes, false⟩] } } →
    (∀ h : State, counted h = { h.guard with
      grantCount := if h.guard.grantCount < 15 then h.guard.grantCount + 1 else 0
      shareCount := if h.guard.grantCount < 15 then h.guard.shareCount else 0
      frameShare := if h.guard.grantCount < 15 then h.guard.frameShare else h.gen.partShare }) →
    (s.guard.lastServed.after.find? s.waits = none ∨ s.guard.frameShare ≤ s.guard.shareCount →
      (s.loaded = true ∧ Request.apart r g.ringBase (512 * g.ringSlots) ∧ Request.apart r g.clipBase g.clipSize ∧
          Request.apart r g.reportBase (512 * g.reportCap) ∧ Request.apart r s.page 8192 ∨
        s.loaded = true ∧ r.kind = .read ∧ ¬ (Request.within r s.page 8192 ∧ g.hostTags.getLsbD r.tag = true ∧ r.addr ≤ s.page + 0x90 ∧
            s.page + 0x98 ≤ r.addr + 8 * r.beats) ∧
          (Request.within r g.ringBase (512 * g.ringSlots) ∨ ¬ Request.within r g.ringBase (512 * g.ringSlots) ∧
            (Request.within r g.clipBase g.clipSize ∧ (mark = true ∨ g.hostTags.getLsbD r.tag = false ∨
                (∀ first n, s.guard.range = some (first, n) → Request.apart r (g.clipBase + 512 * first) (512 * n)) ∨
                s.attend.unattended = true ∨ g.holdLimit = 0) ∨
              ¬ Request.within r g.clipBase g.clipSize ∧
                (Request.within r g.reportBase (512 * g.reportCap) ∨ Request.within r s.page 8192))) ∨
        s.loaded = false ∧ (s.control.pageBase = none ∨ Request.apart r s.page 8192 ∨ r.kind = .read ∨
          r.addr < s.page + 0x20 ∧ r.beats = 1 ∧ none ∈ r.bytes) →
        ∃ t, exec .downstreamGrant s = .next t ∧ t.guard = counted sent ∧ Frame [.guard, .writer] s t) ∧
      (∀ base, s.control.pageBase = some base → Request.within r base 8192 →
        (s.loaded = true → g.hostTags.getLsbD r.tag = true ∧ ¬ Request.within r g.ringBase (512 * g.ringSlots) ∧
          ¬ Request.within r g.clipBase g.clipSize ∧ ¬ Request.within r g.reportBase (512 * g.reportCap)) →
        (r.kind = .write → s.loaded = true → none ∉ r.bytes ∧ Request.apart r (base + 0x40) 8 ∧ Request.apart r (base + 0x80) 72 ∧
          Request.apart r (base + 0x1300) 3328) →
        (∀ i, (r.kind = .read ∧ s.loaded = true ∧ r.addr ≤ base + 0x90 ∧ base + 0x98 ≤ r.addr + 8 * r.beats ∧ i = .heartbeatRead ∨
            r.kind = .write ∧ pageCommand r.tag (r.addr - base) r.bytes i) →
          ∃ t h, exec .downstreamGrant s = .next t ∧ exec i sent = .next h ∧ t.guard = counted h ∧ Frame [.guard] h t) ∧
        (∀ (off : Nat) (a b d : State), r.kind = .write → off = r.addr - base →
          a = (match handedWord off r.bytes 0x08 with
            | some v => { sent with control := { s.control with argument := BitVec.ofNat 64 (field v 0 8) } }
            | none => sent) →
          b = (match handedWord off r.bytes 0x10 with
            | some v => a.takeAck (field v 0 2)
            | none => a) →
          d = (match handedWord off r.bytes 0x18 with
            | some v => b.clearKinds (BitVec.ofNat 24 (field v 0 3))
            | none => b) →
          (off + 8 * r.beats ≤ 0x100 → ∃ t, exec .downstreamGrant s = .next t ∧ match handedWord off r.bytes 0 with
            | some v => ∃ h, exec (commandOf (v.getD 0 0) (v.getD 1 0)) d = .next h ∧ t.guard = counted h ∧ Frame [.guard] h t
            | none => t.guard = counted d ∧ Frame [.guard, .writer] d t) ∧
          (s.control.part.takesSetup = false → 0x100 < off + 8 * r.beats → ∀ mk : PageWrite → Instr, (mk = .generalSetupWrite ∨
            mk = .stationTableWrite ∨ mk = .zoneTableWrite ∨ mk = .scheduleBankWrite) → ∃ t h, exec .downstreamGrant s = .next t ∧
              exec (mk ⟨r.tag, off, r.bytes⟩) d = .next h ∧ t.guard = counted h ∧ Frame [.guard] h t) ∧
          (∀ front rest : List (Option Byte), s.control.part.takesSetup = true → r.bytes = front ++ rest → front.length % 8 = 0 →
            (off + front.length = 0x100 → rest ≠ [] → ∃ t h, exec .downstreamGrant s = .next t ∧
              exec (.generalSetupWrite ⟨r.tag, 0x100, rest⟩) d = .next h ∧ t.guard = counted h ∧ Frame [.guard] h t) ∧
            (∀ i j, 0x100 ≤ off → pageCommand r.tag off front i →
              pageCommand r.tag (off + front.length) rest j → ∃ t m n, exec .downstreamGrant s = .next t ∧ exec i sent = .next m ∧
                exec j m = .next n ∧ t.guard = counted n ∧ t.tallies = (if m.tallies = s.tallies then n.tallies else m.tallies) ∧
                Frame [.guard, .writer, .tallies] n t))))) ∧
    (s.loaded = true → s.guard.lastServed.after.find? s.waits = none →
      (r.kind = .write ∧ (Request.within r g.ringBase (512 * g.ringSlots) ∧ g.writerTags.getLsbD r.tag = false ∨
        ¬ Request.within r g.ringBase (512 * g.ringSlots) ∧ (Request.within r g.clipBase g.clipSize ∨ Request.within r g.reportBase (512 * g.reportCap) ∨
          Request.within r s.page 8192 ∧ (g.hostTags.getLsbD r.tag = false ∨ none ∈ r.bytes ∨ ¬ Request.apart r (s.page + 0x40) 8 ∨
            ¬ Request.apart r (s.page + 0x80) 72 ∨ ¬ Request.apart r (s.page + 0x1300) 3328))) ∨
      (¬ Request.within r g.ringBase (512 * g.ringSlots) ∧ ¬ Request.within r g.clipBase g.clipSize ∧
        ¬ Request.within r g.reportBase (512 * g.reportCap) ∧ ¬ Request.within r s.page 8192 ∧
        ¬ (Request.apart r g.ringBase (512 * g.ringSlots) ∧ Request.apart r g.clipBase g.clipSize ∧
          Request.apart r g.reportBase (512 * g.reportCap) ∧ Request.apart r s.page 8192))) → (s.guard.remove c).candidate = none →
      ∃ t, exec .downstreamGrant s = .next t ∧ t.guard = { s.guard.remove c with unanswered := pre ++ { u with prog := .refused } :: post } ∧
        t.status.pending = s.status.pending ||| Notice.refusedRequest.bit ∧ t.tallies = (s.count .refusedRequests).tallies ∧
        Frame [.guard, .notices, .writer, .tallies] s t)

/-- O39. An open write from a writer tag to a pinned slot, classified when no part claimant waits. Limit 0: each pinned slot of it is cut,
in slot order, then the write is granted, and its pieces are taken in LISTENING and DRAINING. Above 0 with room: it is held, with a
deadline. Above 0 without room: it is marked as waiting for room. A RELEASED one is classified anew, and held again in its own place. A
host tag's read of a unit of the announced range is held in the same way, or waits for room; with limit 0, or the released-read mark, it
passes, as a grant to PASS says. For a request with nothing else to offer behind it. The slot is the first of the request's (log 22). -/
def Obligations.OpenWriteToPinnedSlot : Prop :=
  (∀ (s : State) (i n : Nat) (ns : List Nat) (r : Request) (limit : Nat), s.loaded = true → r.ok = true → r.kind = .write →
    s.guard.candidate = some (.queued i) → s.guard.queue[i]? = some ⟨r, false⟩ → s.guard.lastServed.after.find? s.waits = none →
    Request.within r s.gen.ringBase (512 * s.gen.ringSlots) → Request.apart r s.page 8192 → s.gen.writerTags.getLsbD r.tag = true → s.pinnedOpens r = n :: ns →
    limit = (if s.attend.unattended then 0 else s.gen.holdLimit * 1000) →
    (limit = 0 → ∃ t, exec .downstreamGrant s = .next t ∧
      (∀ m ∈ n :: ns, ∀ e, s.intake.dir[m]? = some e → (m, e.gen) ∈ t.wires.cutNotes ∧ m ∈ t.wires.slotFree) ∧
      t.guard.queue = removeAt i s.guard.queue ∧
      t.guard.downstream = s.guard.downstream ++ [⟨.pass r.tag, .write, r.addr, r.beats, r.bytes, false⟩]) ∧
    (limit ≠ 0 → s.guard.held.length < 4 →
      ({ s.guard with held := s.guard.held ++ [⟨r, .write n, .held none⟩], queue := removeAt i s.guard.queue } : PathGuard).candidate = none →
      ∃ t, exec .downstreamGrant s = .next t ∧ t.guard = { s.guard with
          held := s.guard.held ++ [⟨r, .write n, .held (some (min (s.time.count + limit) (2 ^ 48 - 1)))⟩], queue := removeAt i s.guard.queue } ∧
        t.tallies = (s.count .holds).tallies ∧ Frame [.guard, .writer, .tallies] s t) ∧
    (limit ≠ 0 → 4 ≤ s.guard.held.length → ({ s.guard with queue := s.guard.queue.set i ⟨r, true⟩ } : PathGuard).candidate = none →
      ∃ t, exec .downstreamGrant s = .next t ∧ t.guard = { s.guard with queue := s.guard.queue.set i ⟨r, true⟩ } ∧
        Frame [.guard, .writer] s t)) ∧
  (∀ (s sent : State) (c : Candidate) (n : Nat) (ns : List Nat) (r : Request) (limit : Nat) (d : Option Nat) (pre post : List Unanswered)
      (u : Unanswered), s.loaded = true → r.ok = true → r.kind = .write → s.guard.candidate = some c → s.guard.request c = some (r, false) →
    s.guard.lastServed.after.find? s.waits = none → Request.within r s.gen.ringBase (512 * s.gen.ringSlots) → s.gen.writerTags.getLsbD r.tag = true →
    s.pinnedOpens r = n :: ns → limit = (if s.attend.unattended then 0 else s.gen.holdLimit * 1000) →
    d = some (min (s.time.count + limit) (2 ^ 48 - 1)) → s.guard.unanswered = pre ++ u :: post → u.tag = r.tag → u.prog = .waiting →
    (∀ x ∈ pre, x.tag = r.tag → x.prog ≠ .waiting) →
    sent = { s with guard := { s.guard.remove c with
      unanswered := pre ++ { u with prog := .granted } :: post
      downstream := s.guard.downstream ++ [⟨.pass r.tag, .write, r.addr, r.beats, r.bytes, false⟩] } } →
    (∀ base, limit = 0 → s.control.pageBase = some base → Request.apart r base 8192 → ∃ t x : State, exec .downstreamGrant s = .next t ∧
      x = (n :: ns).foldl (fun y m => y.cutSlot m) sent ∧
      (∀ (m : Nat) (e : Slot), s.intake.dir[m]? = some e → ∃ e' : Slot, x.intake.dir[m]? = some e' ∧ (m ∉ n :: ns → e' = e) ∧
        (m ∈ n :: ns → e' = { e with pins := 0, cutMark := true })) ∧
      Frame [.intake, .notices, .writer, .tallies, .wires] sent x ∧
      t.guard.queue = sent.guard.queue ∧ t.guard.held = sent.guard.held ∧ t.guard.downstream = sent.guard.downstream ∧
      t.guard.unanswered = sent.guard.unanswered ∧
      Frame [.guard, .writer] (match s.control.part with
        | .listening => (pieces s.gen.ringBase r).foldl (fun x p => x.takePiece p) x
        | .draining => (pieces s.gen.ringBase r).foldl (fun x p => x.takePieceDraining p) x
        | _ => x) t) ∧
    (∀ (j k m : Nat), limit ≠ 0 → c = .held j → s.guard.held[j]? = some ⟨r, .write m, .released k⟩ →
      ({ s.guard with held := s.guard.held.set j ⟨r, .write n, .held d⟩ } : PathGuard).candidate = none →
      ∃ t, exec .downstreamGrant s = .next t ∧ t.guard = { s.guard with held := s.guard.held.set j ⟨r, .write n, .held d⟩ } ∧
        t.tallies = (s.count .holds).tallies ∧ Frame [.guard, .writer, .tallies] s t)) ∧
  (∀ (s : State) (i limit first units : Nat) (d : Option Nat) (r : Request), s.loaded = true → r.kind = .read →
    s.guard.candidate = some (.queued i) → s.guard.queue[i]? = some ⟨r, false⟩ → s.guard.lastServed.after.find? s.waits = none →
    ¬ Request.within r s.gen.ringBase (512 * s.gen.ringSlots) → Request.within r s.gen.clipBase s.gen.clipSize →
    s.gen.hostTags.getLsbD r.tag = true → s.guard.range = some (first, units) →
    ¬ Request.apart r (s.gen.clipBase + 512 * first) (512 * units) →
    limit = (if s.attend.unattended then 0 else s.gen.holdLimit * 1000) → limit ≠ 0 → d = some (min (s.time.count + limit) (2 ^ 48 - 1)) →
    (s.guard.held.length < 4 →
      ({ s.guard with held := s.guard.held ++ [⟨r, .read false, .held d⟩], queue := removeAt i s.guard.queue } : PathGuard).candidate = none →
      ∃ t, exec .downstreamGrant s = .next t ∧
        t.guard = { s.guard with held := s.guard.held ++ [⟨r, .read false, .held d⟩], queue := removeAt i s.guard.queue } ∧
        t.tallies = (s.count .readHolds).tallies ∧ Frame [.guard, .writer, .tallies] s t) ∧
    (4 ≤ s.guard.held.length → ({ s.guard with queue := s.guard.queue.set i ⟨r, true⟩ } : PathGuard).candidate = none →
      ∃ t, exec .downstreamGrant s = .next t ∧ t.guard = { s.guard with queue := s.guard.queue.set i ⟨r, true⟩ } ∧
        Frame [.guard, .writer] s t))

/-- O40. Releases. An announcement that a slot is free releases each write held for it, without a cut; a hold limit that expires asks for
a cut of the slot, whose announcement releases the entry (log 21); a read hold that expires releases the read with its mark; UNATTENDED
releases every entry, the slots of the writes being cut in list order. Each entry keeps its place and its request. An announcement that is
not on its way and a deadline that does not stand, or is not reached, change nothing (log 1). An UNATTENDED announced acts whenever it is
taken (log 50), a cut asked stays asked (log 49), and a cut takes up the next refetch entry in the same event (log 30). -/
def Obligations.HeldEntriesAreReleased : Prop :=
  ∀ s : State,
    (∀ n, (n ∈ s.wires.slotFree → ∃ t, exec (.slotFree n) s = .next t ∧ t.wires = { s.wires with slotFree := s.wires.slotFree.erase n } ∧
        t.guard = { s.guard with held := t.guard.held, releases := t.guard.releases } ∧
        HeldReleased (fun h => h.kind = .write n) s.guard t.guard ∧ Frame [.guard, .writer, .wires] s t) ∧
      (n ∉ s.wires.slotFree → exec (.slotFree n) s = .next s)) ∧
    (∀ (i n d : Nat) (r : Request), s.guard.held[i]? = some ⟨r, .write n, .held (some d)⟩ → d ≤ s.time.count →
      ∃ t, exec (.holdLimitExpiry i) s = .next t ∧ t.guard = { s.guard with held := s.guard.held.set i ⟨r, .write n, .held none⟩ } ∧
        t.wires = { s.wires with cutRequests := s.wires.cutRequests ++ [n] } ∧ Frame [.guard, .writer, .wires] s t) ∧
    (∀ i, (∀ (h : Held) (n d : Nat), s.guard.held[i]? = some h → h.kind = .write n → h.state = .held (some d) → s.time.count < d) →
      exec (.holdLimitExpiry i) s = .next s) ∧
    (∀ (i d : Nat) (r : Request) (m : Bool), s.guard.held[i]? = some ⟨r, .read m, .held (some d)⟩ → d ≤ s.time.count →
      ∃ t, exec (.readHoldExpiry i) s = .next t ∧
        t.guard = { s.guard with held := s.guard.held.set i ⟨r, .read true, .released s.guard.releases⟩, releases := s.guard.releases + 1 } ∧
        Frame [.guard, .writer] s t) ∧
    (∀ i, (∀ (h : Held) (m : Bool) (d : Nat), s.guard.held[i]? = some h → h.kind = .read m → h.state = .held (some d) → s.time.count < d) →
      exec (.readHoldExpiry i) s = .next s) ∧
    (s.wires.unattGuard ≠ 0 → ∃ (t m : State) (slots : List Nat), exec .unattendedAtPathGuard s = .next t ∧
      slots = s.guard.held.filterMap (fun h => match h.kind, h.state with
        | .write n, .held _ => some n
        | _, _ => none) ∧
      SlotsCut slots { s with wires := { s.wires with unattGuard := s.wires.unattGuard - 1 } } m ∧ Frame [.guard, .writer] m t ∧
      t.guard = { s.guard with held := t.guard.held, releases := t.guard.releases } ∧ HeldReleased (fun _ => True) s.guard t.guard) ∧
    (s.wires.unattGuard = 0 → exec .unattendedAtPathGuard s = .next s)

/-! ### Slots, blocks and detectors -/

/-- O41. Pins, unpins and cuts. A pin is placed when the generation matches and no cut mark stands, and refused to the Clip Unit else. An
unpin with a matching generation lowers a count above zero, and at zero the Path Guard is told. A cut of a pinned slot takes every pin,
sets the mark, tells the Clip Unit and the Path Guard, and cancels a refetch: a QUEUED entry, and a READING one with no granted read
outstanding, ends as OVERTAKEN in the same event, another READING one takes the cut flag; one of a slot without pins changes nothing.
Requests on one slot are taken in the order sent (log 5). A cut asked is taken whatever has become of the slot since (log 49), and takes
up the next refetch entry in the same event (log 30). -/
def Obligations.PinsUnpinsAndCuts : Prop :=
  ∀ (n : Nat) (e : Slot) (s : State), s.intake.dir[n]? = some e →
    (∀ (ev st gen : Nat) (pre post : List PinMsg), s.wires.pins = pre ++ .pin ev st n gen :: post → (∀ m ∈ pre, m.slot ≠ n) →
      (gen = e.gen → e.cutMark = false → ∃ t, exec (.pinRequest n) s = .next t ∧ t.wires = { s.wires with pins := pre ++ post } ∧
        t.intake = { s.intake with dir := s.intake.dir.set n { e with pins := e.pins + 1 } } ∧ Frame [.intake, .writer, .wires] s t) ∧
      (gen ≠ e.gen ∨ e.cutMark = true → ∃ t, exec (.pinRequest n) s = .next t ∧ t.wires = { s.wires with
        pins := pre ++ post, refusedPins := s.wires.refusedPins ++ [⟨ev, st, n, gen⟩] } ∧ Frame [.writer, .wires] s t)) ∧
    (∀ (gen : Nat) (pre post : List PinMsg), s.wires.pins = pre ++ .unpin n gen :: post → (∀ m ∈ pre, m.slot ≠ n) →
      (gen = e.gen → e.pins ≠ 0 → ∃ t, exec (.unpin n) s = .next t ∧
        t.wires = { s.wires with pins := pre ++ post, slotFree := if e.pins = 1 then s.wires.slotFree ++ [n] else s.wires.slotFree } ∧
        t.intake = { s.intake with dir := s.intake.dir.set n { e with pins := e.pins - 1 } } ∧ Frame [.intake, .writer, .wires] s t) ∧
      (gen ≠ e.gen ∨ e.pins = 0 → ∃ t, exec (.unpin n) s = .next t ∧ t.wires = { s.wires with pins := pre ++ post } ∧
        Frame [.writer, .wires] s t)) ∧
    (n ∈ s.wires.cutRequests → ∃ t m, exec (.cut n) s = .next t ∧
      SlotCut n { s with wires := { s.wires with cutRequests := s.wires.cutRequests.erase n } } m ∧ Frame [.writer] m t)

/-- O42. Two deadlines. A buffer still ASSEMBLING at its deadline is freed, and its slot's block will be read back. A station at its
silence deadline is silent: the notice, no expected sequence, a gap in its detector, and its pick closed CUT at the next sample time.
Neither acts before it is reached. That the command changes nothing before that is the model's choice (log 1). -/
def Obligations.AssemblyAndSilenceDeadlines : Prop :=
  ∀ s : State,
    (∀ (i n gen next d : Nat) (got : List Byte), s.intake.bufs[i]? = some (.assembling n gen next d got) →
      (d ≤ s.time.count → ∃ t, exec (.assemblyTimeout i) s = .next t ∧ t.intake = { s.intake with
          bufs := s.intake.bufs.set i .free, dir := s.intake.dir.modify n fun e => { e with refetchNeeded := true } } ∧
        t.tallies = (s.count .assemblyTimeouts).tallies ∧ Frame [.intake, .writer, .tallies] s t) ∧
      (s.time.count < d → exec (.assemblyTimeout i) s = .next s)) ∧
    (∀ (st d : Nat) (x : Detector), s.engine[st]? = some x → x.silence = some d →
      (d ≤ s.time.count → ∃ t, exec (.silenceDeadline st) s = .next t ∧
        t.engine = s.engine.set st (if x.state = .off then { x with silence := none, silent := true } else
          { x with state := .settling, count := 0, openPick := none, short := 0, long := 0, warmUp := 0, silence := none, silent := true }) ∧
        t.intake = { s.intake with stations := s.intake.stations.modify st fun si => { si with expected := none } } ∧
        (x.state ≠ .triggered → t.wires = s.wires) ∧
        (∀ p last, x.state = .triggered → x.openPick = some p → x.nextTime = some last →
          t.wires = { s.wires with toAssoc := s.wires.toAssoc ++ [.closure st p.onset ⟨true, last, p.peak⟩] }) ∧
        t.status.pending = s.status.pending ||| Notice.stationSilent.bit ∧ Frame [.intake, .engine, .notices, .writer, .wires] s t) ∧
      (s.time.count < d → exec (.silenceDeadline st) s = .next s))

/-- O43. A block handed off: the head of its station's order, HOLDING or DONE, leaves it. Staged fields, with those in force for fields
not staged, take effect or are discarded whole, by the ranges of the station entry; then the record is made anew when start is pending, or
else a break is a gap; then the samples go through, in order, each with its time and what the intervals say of it; what they send goes to
the Associator. In OFF the samples are discarded. A sample time above 48 bits is a free value (log 9). -/
def Obligations.BlockIsTaken : Prop :=
  ∀ (st : Nat) (it : Item) (rest : List Item) (b : Block) (si : StationIntake) (x : Detector) (e : StationEntry) (s : State)
    (cand : Tuning) (good : Bool),
    s.intake.stations[st]? = some si → si.order = it :: rest → s.engine[st]? = some x → s.station st = some e →
    (∀ i, it.place = .buffer i → s.intake.bufs[i]? = some (.holding b)) →
    (∀ id, it.place = .refetch id → ∃ r, s.intake.refetch.find? (fun y => y.id == id) = some r ∧ r.state = .done ∧ r.block = b) →
    cand = {
      shortExp := x.staged.shortExp.getD e.tuning.shortExp, longExp := x.staged.longExp.getD e.tuning.longExp
      onRatio := x.staged.onRatio.getD e.tuning.onRatio, offRatio := x.staged.offRatio.getD e.tuning.offRatio
      minOn := x.staged.minOn.getD e.tuning.minOn, deadTime := x.staged.deadTime.getD e.tuning.deadTime
      maxOn := x.staged.maxOn.getD e.tuning.maxOn } →
    (good = true ↔ (1 ≤ cand.shortExp ∧ cand.shortExp ≤ 8) ∧ (6 ≤ cand.longExp ∧ cand.longExp ≤ 15 ∧ cand.shortExp + 3 ≤ cand.longExp) ∧
      (24 ≤ cand.onRatio ∧ cand.onRatio ≤ 1024) ∧ (16 ≤ cand.offRatio ∧ cand.offRatio ≤ cand.onRatio) ∧
      (1 ≤ cand.minOn ∧ cand.minOn ≤ 255) ∧ cand.deadTime ≤ 65535 ∧ 1 ≤ cand.maxOn ∧ cand.maxOn ≤ 600) →
    ∃ (t : State) (tuning : Tuning) (r r' : Run) (zs : List Sample) (m n : State) (picks : Nat), exec (.blockHandoff st) s = .next t ∧
      t.intake = { s.intake with
        stations := s.intake.stations.set st { si with order := rest }, bufs := t.intake.bufs, refetch := t.intake.refetch } ∧
      (∀ i, it.place = .buffer i → t.intake.bufs = s.intake.bufs.set i .free ∧ t.intake.refetch = s.intake.refetch) ∧
      (∀ id, it.place = .refetch id → t.intake.bufs = s.intake.bufs ∧ t.intake.refetch = takeUp (s.intake.refetch.filter fun y => y.id != id)) ∧
      tuning = (if good then cand else e.tuning) ∧
      t.station st = some { e with tuning := tuning } ∧
      (∀ u : Setup, s.control.setup = some u → t.control = { s.control with
        setup := some { u with stations := u.stations.set st { e with tuning := tuning } } }) ∧
      t.status.pending = (if x.staged = .empty ∨ good = true then s.status.pending else
        s.status.pending ||| Notice.setupIgnored.bit) ∧
      r = (if x.startPending then ⟨{ Detector.fresh with state := .settling, silence := x.silence, silent := x.silent }, [], 0, 0⟩
        else if it.brk = true ∧ x.state ≠ .off then
          ⟨{ x with staged := .empty, state := .settling, count := 0, openPick := none, short := 0, long := 0, warmUp := 0 }, x.cutClosure st, 0, 0⟩
        else ⟨{ x with staged := .empty }, [], 0, 0⟩) ∧
      zs.length = b.count ∧
      (∀ (k : Nat) (z : Sample), zs[k]? = some z → z.station = b.station ∧ z.entry = { e with tuning := tuning } ∧
        z.time = sampleTime (b.first + k * e.period) ∧ z.timeUnsure = b.timeUnsure ∧
        z.values = (chunksOf 4 e.components (b.body.drop (4 * e.components * k))).map signed32 ∧
        ∀ ap : Interval → Prop, (∀ v, ap v ↔ v ∈ s.sched.intervals ∧ v.mask.getLsbD e.noiseGroup = true ∧ v.beginT ≤ z.time ∧
            ∀ d, v.endT = some d → z.time < d) →
          (z.muted = true ↔ ∃ v, ap v ∧ v.kind = .mute) ∧ (∀ v f, ap v → v.kind = .desens f → f ≤ z.factor) ∧
          1 ≤ z.factor ∧ (z.factor = 1 ∨ ∃ v, ap v ∧ v.kind = .desens z.factor)) ∧
      r' = (if r.det.state = .off then r else zs.foldl (fun y z => y.sample z) r) ∧
      t.engine = s.engine.set st (if r.det.state = .off then r.det else
        { r'.det with nextTime := some (sampleTime (b.first + b.count * e.period)) }) ∧
      t.wires = { s.wires with toAssoc := s.wires.toAssoc ++ r'.sent } ∧
      picks = (r'.sent.filter fun m => match m with
        | .pick _ => true
        | .closure _ _ _ => false).length ∧
      m = (if x.staged = .empty ∨ good = true then s else s.setupIgnored) ∧
      n = (if picks = 0 then m else (m.countBy .picks picks).countStation st fun k => { k with picks := min (k.picks + picks) (2 ^ 32 - 1) }) ∧
      t.tallies = ((n.countBy .falseOnsets r'.falseOnsets).countBy .maxOnCuts r'.maxOnCuts).tallies ∧
      Frame [.control, .intake, .engine, .notices, .writer, .tallies, .wires] s t

/-- O44. A sample. Its energy is that of the values less the means before it, held at 2^64 - 1; the means and the short average move, and
outside ONSET and TRIGGERED the long average and the warm-up count. Then the transition of the state it finds is made. Inside ONSET and
TRIGGERED the short average moves by the warm-up count as it stands (log 26). -/
def Obligations.SampleRules : Prop :=
  ∀ (x : Sample) (r : Run) (a z : Detector), a = r.det.moveAll x.entry.tuning x.values → z = r.det.moveShort x.entry.tuning x.values →
    (∀ en : Nat, (en : Int) = min (((r.det.means.zip x.values).map fun p =>
        match p.1 with
        | some m => (p.2 - m.tdiv 256) ^ 2
        | none => 0).sum) (2 ^ 64 - 1) →
      a.warmUp = min (r.det.warmUp + 1) 32768 ∧
      (∀ k, k = min x.entry.tuning.shortExp (Nat.log2 a.warmUp) → (a.short : Int) = r.det.short + ((en : Int) * 65536 - r.det.short) / 2 ^ k) ∧
      (∀ k, k = min x.entry.tuning.longExp (Nat.log2 a.warmUp) → (a.long : Int) = r.det.long + ((en : Int) * 65536 - r.det.long) / 2 ^ k) ∧
      (∀ k, 1 ≤ r.det.warmUp → k = min x.entry.tuning.shortExp (Nat.log2 r.det.warmUp) →
        (z.short : Int) = r.det.short + ((en : Int) * 65536 - r.det.short) / 2 ^ k)) ∧
    z.long = r.det.long ∧ z.warmUp = r.det.warmUp ∧ z.means = a.means ∧
    (∀ (c : Nat) (m : Option Int), r.det.means[c]? = some m → a.means[c]? = some (match x.values[c]?, m with
      | some v, some m => some (m + (256 * v - m).tdiv 256)
      | some v, none => some (256 * v)
      | none, m => m)) ∧
    (r.det.state = .off → r.sample x = r) ∧
    (r.det.state = .settling → r.sample x = { r with det :=
      if 2 ^ x.entry.tuning.longExp ≤ r.det.count + 1 then { a with state := .listening, count := 0, openPick := none }
      else { a with count := r.det.count + 1 } }) ∧
    (r.det.state = .deadtime → r.sample x = { r with det :=
      if x.entry.tuning.deadTime ≤ r.det.count + 1 then { a with state := .listening, count := 0, openPick := none }
      else { a with count := r.det.count + 1 } }) ∧
    (r.det.state = .listening →
      (x.muted = true ∨ 16 * a.short < x.entry.tuning.onRatio * x.factor * max a.long 65536 → r.sample x = { r with det := a }) ∧
      (∀ p : OpenPick, x.muted = false → x.entry.tuning.onRatio * x.factor * max a.long 65536 ≤ 16 * a.short →
        p = ⟨x.time, min (16 * a.short / max a.long 65536) 65535, none, x.timeUnsure, decide (1 < x.factor)⟩ →
        (1 < x.entry.tuning.minOn → r.sample x = { r with det := { a with state := .onset, count := 1, openPick := some p } }) ∧
        (x.entry.tuning.minOn ≤ 1 → r.sample x = { r with
          det := { a with state := .triggered, count := 1, openPick := some { p with confirmed := some p.peak } },
          sent := r.sent ++ [.pick ⟨x.station, p.onset, p.peak, p.timeUnsure, p.desens⟩] }))) ∧
    (∀ p q : OpenPick, r.det.openPick = some p → q = { p with peak := max p.peak (min (16 * z.short / max z.long 65536) 65535) } →
      (r.det.state = .onset →
        (x.muted = true ∨ 16 * z.short < x.entry.tuning.offRatio * max z.long 65536 → r.sample x = { r with
          det := { z with state := .listening, count := 0, openPick := none }, falseOnsets := r.falseOnsets + 1 }) ∧
        (x.muted = false → x.entry.tuning.offRatio * max z.long 65536 ≤ 16 * z.short →
          (r.det.count + 1 < x.entry.tuning.minOn → r.sample x = { r with det := { z with count := r.det.count + 1, openPick := some q } }) ∧
          (x.entry.tuning.minOn ≤ r.det.count + 1 → r.sample x = { r with
            det := { z with state := .triggered, count := r.det.count + 1, openPick := some { q with confirmed := some q.peak } },
            sent := r.sent ++ [.pick ⟨x.station, q.onset, q.peak, q.timeUnsure, q.desens⟩] }))) ∧
      (r.det.state = .triggered → ∀ after, after = (if x.entry.tuning.deadTime = 0 then DetState.listening else .deadtime) →
        (x.muted = true → r.sample x = { r with
          det := { z with state := after, count := 0, openPick := none },
          sent := r.sent ++ [.closure x.station p.onset ⟨true, x.time, p.peak⟩] }) ∧
        (x.muted = false → 16 * z.short < x.entry.tuning.offRatio * max z.long 65536 → r.sample x = { r with
          det := { z with state := after, count := 0, openPick := none },
          sent := r.sent ++ [.closure x.station p.onset ⟨false, x.time, p.peak⟩] }) ∧
        (x.muted = false → x.entry.tuning.offRatio * max z.long 65536 ≤ 16 * z.short →
          (x.entry.tuning.maxOn * x.entry.sampleRate ≤ r.det.count + 1 → r.sample x = { r with
            det := { z with state := .settling, count := 0, openPick := none },
            sent := r.sent ++ [.closure x.station p.onset ⟨true, x.time, q.peak⟩], maxOnCuts := r.maxOnCuts + 1 }) ∧
          (r.det.count + 1 < x.entry.tuning.maxOn * x.entry.sampleRate → r.sample x = { r with
            det := { z with count := r.det.count + 1, openPick := some q } }))))

/-- O45. A refetch read returns. One of dropped work only counts its MEMERR. Else the entry keeps the bytes, and ends when it offers no
more reads and none is outstanding: lost as OVERTAKEN when cut or of another generation, lost when a read failed, else DONE; the oldest
QUEUED entry is taken up in the same event (log 30). A block lost leaves a break at its place in the order. That a MEMERR of dropped work
counts is the model's reading (log 14). Data of another length than the read is padded or cut (log 10). -/
def Obligations.RefetchReadReturns : Prop :=
  (∀ (code : MemCode) (data : List Byte) (o : Outstanding) (rest : List Outstanding) (s m : State),
    s.guard.downstream = o :: rest → o.owner = .refetch → m = (if code = .memerr then s.count .memoryErrors else s) →
    (o.dropped = true → ∃ t, exec (.refetchReadCompletion code data) s = .next t ∧ t.guard = { s.guard with downstream := rest } ∧
      t.tallies = m.tallies ∧ Frame [.guard, .writer, .tallies] s t) ∧
    (∀ (e e' : Refetch) (pre post next : List Refetch) (g : Slot) (lst : Bool), o.dropped = false → s.intake.refetch = pre ++ e :: post →
      e.state = .reading → (∀ x ∈ pre, x.state = .done ∧ x.id ≠ e.id) → (∀ x ∈ post, x.state = .queued ∧ x.id ≠ e.id) →
      s.intake.dir[e.slot]? = some g →
      next = (match post with
        | [] => []
        | q :: qs => { q with state := .reading } :: qs) →
      e' = { e with
        returned := e.returned + 1
        memerr := e.memerr || code == .memerr
        block := { e.block with body := e.block.body ++ fit (8 * o.beats) data } } →
      lst = (e.cutFlag || e'.memerr || e.granted == if e.beats ≤ 32 then 1 else 2) →
      ∃ t, exec (.refetchReadCompletion code data) s = .next t ∧ t.guard = { s.guard with downstream := rest } ∧
        Frame [.intake, .guard, .notices, .writer, .tallies, .wires] s t ∧
        (lst = false ∨ e'.returned ≠ e.granted → t.intake = { s.intake with refetch := pre ++ e' :: post } ∧
          t.status.pending = s.status.pending ∧ t.tallies = m.tallies ∧ t.wires = s.wires) ∧
        (lst = true → e'.returned = e.granted →
          (e.cutFlag = true ∨ g.gen ≠ e.gen → t.intake = { s.intake with
              refetch := pre ++ next, stations := s.intake.stations.modify e.block.station (·.lose e.id) } ∧
            t.status.pending = s.status.pending ||| Notice.blockLost.bit ∧ t.tallies = (m.count .overtaken).tallies ∧ t.wires = s.wires) ∧
          (∀ (d : List Slot) (w : Wires), e.cutFlag = false → g.gen = e.gen →
            d = s.intake.dir.set e.slot { g with pins := g.pins - 1 } →
            w = { s.wires with slotFree := if g.pins = 1 then s.wires.slotFree ++ [e.slot] else s.wires.slotFree } →
            (e'.memerr = true → t.intake = { s.intake with
                dir := d, refetch := pre ++ next, stations := s.intake.stations.modify e.block.station (·.lose e.id) } ∧
              t.status.pending = s.status.pending ||| Notice.blockLost.bit ∧ t.tallies = m.tallies ∧ t.wires = w) ∧
            (e'.memerr = false → t.intake = { s.intake with dir := d, refetch := pre ++ { e' with state := .done } :: next } ∧
              t.status.pending = s.status.pending ∧ t.tallies = m.tallies ∧ t.wires = w))))) ∧
  (∀ (id : Nat) (b : Bool) (pre post : List Item) (it : Item) (si : StationIntake), (∀ x ∈ pre, x.place ≠ .refetch id) →
    (si.order = pre ++ ⟨.refetch id, b⟩ :: it :: post → si.lose id = { si with order := pre ++ { it with brk := true } :: post }) ∧
    (si.order = pre ++ [⟨.refetch id, b⟩] → si.lose id = { si with order := pre, breakPending := true }))

/-! ### Picks and events -/

/-- O46. R88. An advance of the sample horizon removes from the pick list every entry whose onset lies before the horizon less the
greatest window of the zones in use and `intake_latency`, free and owned alike, with no notice and no tally; none is removed when the
horizon is smaller. -/
def Obligations.HorizonRemovesOldPicks : Prop :=
  ∀ (h w : Nat) (rest : List Nat) (u : Setup) (s : State), s.wires.horizonAssoc = h :: rest → s.control.setup = some u →
    (∀ z ∈ u.zones, z.count ≠ 0 → z.window ≤ w) → (w = 0 ∨ ∃ z ∈ u.zones, z.count ≠ 0 ∧ z.window = w) →
    ∃ t, exec .horizonAdvanceAssociator s = .next t ∧ t.wires = { s.wires with horizonAssoc := rest } ∧
      (∀ e, e ∈ t.assoc.picks ↔ e ∈ s.assoc.picks ∧ ¬ e.copy.pick.onset + (w + u.gen.intakeLatency) * 1000 < h) ∧
      t.assoc.picks.Sublist s.assoc.picks ∧ (h < (w + u.gen.intakeLatency) * 1000 → t.assoc = s.assoc) ∧
      t.assoc = { s.assoc with picks := t.assoc.picks } ∧ Frame [.assoc, .writer, .wires] s t

/-- O47. Messages to the Associator, taken in the order their station sent them. A pick that arrives in LISTENING takes the next number
and its place by onset, the first entry leaving a full list; in another part state it is dropped. A closure fills the entry it names, and
the copy in an event that is GATHERING. A state request moves an event on from the state before the one asked, and changes nothing else.
-/
def Obligations.MessagesReachTheAssociator : Prop :=
  ∀ s : State,
    (∀ (p : Pick) (pre post : List AssocMsg), s.wires.toAssoc = pre ++ .pick p :: post → (∀ m ∈ pre, m.station ≠ p.station) →
      (s.control.part ≠ .listening → ∃ t, exec (.pickArrival p.station) s = .next t ∧ t.wires = { s.wires with toAssoc := pre ++ post } ∧
        Frame [.writer, .wires] s t) ∧
      (s.control.part = .listening → ∃ (t : State) (kept l r : List PickEntry), exec (.pickArrival p.station) s = .next t ∧
        t.wires = { s.wires with toAssoc := pre ++ post } ∧ t.assoc.nextPick = (s.assoc.nextPick + 1) % 2 ^ 32 ∧
        kept = (if s.assoc.picks.length < 256 then s.assoc.picks else s.assoc.picks.drop 1) ∧ kept = l ++ r ∧
        (∀ x ∈ l, x.copy.pick.onset ≤ p.onset) ∧ (∀ y, r.head? = some y → p.onset < y.copy.pick.onset) ∧
        t.assoc.picks.map (·.copy) = l.map (·.copy) ++ ⟨s.assoc.nextPick, p, none⟩ :: r.map (·.copy) ∧
        Frame [.assoc, .notices, .writer, .tallies, .wires] s t)) ∧
    (∀ (st onset : Nat) (k : Closure) (pre post : List AssocMsg), s.wires.toAssoc = pre ++ .closure st onset k :: post →
      (∀ m ∈ pre, m.station ≠ st) → ∃ (t : State) (fill : PickCopy → PickCopy),
        (∀ c, fill c = if c.pick.station = st ∧ c.pick.onset = onset ∧ c.closure = none then { c with closure := some k } else c) ∧
        exec (.pickClosure st) s = .next t ∧ t.wires = { s.wires with toAssoc := pre ++ post } ∧
        t.assoc.picks = (s.assoc.picks.map fun e => { e with copy := fill e.copy }) ∧
        t.assoc.events.length = s.assoc.events.length ∧
        (∀ i : Nat, s.assoc.events[i]? = some none → t.assoc.events[i]? = some none) ∧
        (∀ (i : Nat) (e : Event), s.assoc.events[i]? = some (some e) → ∃ e' : Event, t.assoc.events[i]? = some (some e') ∧
          (e.state ≠ .gathering → e' = e) ∧
          (e.state = .gathering → e' = { e with picks := e.picks.map fill, peakMax := e'.peakMax } ∧
            (∀ c ∈ e'.picks, c.peak ≤ e'.peakMax) ∧ (e'.picks ≠ [] → ∃ c ∈ e'.picks, c.peak = e'.peakMax))) ∧
        t.assoc = { s.assoc with picks := t.assoc.picks, events := t.assoc.events } ∧ Frame [.assoc, .writer, .wires] s t) ∧
    (∀ (ev i : Nat) (x : EventState) (e : Event) (pre post : List (Nat × EventState)), s.wires.stateRequests = pre ++ (ev, x) :: post →
      (∀ m ∈ pre, m.1 ≠ ev) → s.assoc.events[i]? = some (some e) → e.number = ev →
      (∀ (j : Nat) (e' : Event), s.assoc.events[j]? = some (some e') → e'.number = ev → j = i) →
      ∃ t, exec (.eventStateRequest ev) s = .next t ∧ t.wires = { s.wires with stateRequests := pre ++ post } ∧
        ((e.state = .gathering ∧ x = .waitingTail ∨ e.state = .gathering ∧ x = .copyQueued ∨ e.state = .waitingTail ∧ x = .copyQueued ∨
            e.state = .copyQueued ∧ x = .copying ∨ e.state = .copying ∧ x = .copied ∨ e.state = .copied ∧ x = .reported →
          t.assoc = { s.assoc with events := s.assoc.events.set i (some { e with state := x }) }) ∧
          (¬ (e.state = .gathering ∧ x = .waitingTail ∨ e.state = .gathering ∧ x = .copyQueued ∨ e.state = .waitingTail ∧ x = .copyQueued ∨
            e.state = .copyQueued ∧ x = .copying ∨ e.state = .copying ∧ x = .copied ∨ e.state = .copied ∧ x = .reported) →
          t.assoc = s.assoc)) ∧ Frame [.assoc, .writer, .wires] s t)

/-- O48. A pick that arrives enters the list, the first entry leaving a full one with PICK_EVICTED; then the zones in use that have its
station are tried in ascending order. In a zone whose earlier ones were left with neither, each with EVENT_LOST when a window was found
there: the pick joins the GATHERING event of the lowest number that is near and takes it; else the first window that counts enough
stations declares an event in the lowest FREE slot, with the earliest free pick of each station counted, or is lost when there is no slot
or no number, and the next zone is tried. Picks taken are owned. With no zone left the pick stays free. -/
def Obligations.PickIsAssociated : Prop :=
  ∀ (p : Pick) (pre post : List AssocMsg) (s a : State) (u : Setup), s.wires.toAssoc = pre ++ .pick p :: post →
    (∀ m ∈ pre, m.station ≠ p.station) → s.control.part = .listening → s.control.setup = some u →
    (∀ y ∈ u.zones, y.members.Nodup) → a = s.enterPick p →
    a.status.pending = (if s.assoc.picks.length < 256 then s.status.pending else s.status.pending ||| Notice.pickEvicted.bit) ∧
    a.tallies = (if s.assoc.picks.length < 256 then s else s.count .picksEvicted).tallies ∧
    (∃ l r, (if s.assoc.picks.length < 256 then s.assoc.picks else s.assoc.picks.drop 1) = l ++ r ∧
      (∀ x ∈ l, x.copy.pick.onset ≤ p.onset) ∧ (∀ y, r.head? = some y → p.onset < y.copy.pick.onset) ∧
      a.assoc = { s.assoc with nextPick := (s.assoc.nextPick + 1) % 2 ^ 32, picks := l ++ ⟨⟨s.assoc.nextPick, p, none⟩, none⟩ :: r }) ∧
    ∃ t, exec (.pickArrival p.station) s = .next t ∧ t.wires = { s.wires with toAssoc := pre ++ post } ∧
      Frame [.assoc, .notices, .writer, .tallies, .wires] s t ∧
      ((∀ y ∈ u.zones, y.count = 0 ∨ p.station ∉ y.members) → t.assoc = a.assoc ∧ t.status.pending = a.status.pending ∧ t.tallies = a.tallies) ∧
      (∀ (b : State) (z : Nat) (zone : Zone) (lost : List Nat) (full : Prop), u.zones[z]? = some zone → zone.count ≠ 0 →
        p.station ∈ zone.members → (full ↔ (∀ i : Nat, s.assoc.events[i]? ≠ some none) ∨ 2 ^ 32 ≤ s.assoc.counter) →
        (∀ (i : Nat) (y : Zone), i < z → u.zones[i]? = some y → y.count ≠ 0 → p.station ∈ y.members →
          (∀ (k : Nat) (e : Event), s.assoc.events[k]? = some (some e) → ¬ e.mayJoin i y p) ∧ ((∃ f, y.opensAt p a.assoc.picks f) → full)) →
        lost.Nodup → (∀ i, i ∈ lost ↔ i < z ∧ ∃ y, u.zones[i]? = some y ∧ y.count ≠ 0 ∧ p.station ∈ y.members ∧
          ∃ f, y.opensAt p a.assoc.picks f) →
        b = lost.foldl (fun x _ => (x.count .eventsLost).raise .eventLost) a →
        (∀ (i : Nat) (e : Event), s.assoc.events[i]? = some (some e) → e.mayJoin z zone p →
          (∀ (j : Nat) (e' : Event), s.assoc.events[j]? = some (some e') → e'.mayJoin z zone p → j ≠ i → e.number < e'.number) →
          ∃ e' l r, t.assoc = { a.assoc with
            events := s.assoc.events.set i (some e')
            picks := a.assoc.picks.map fun x => if x.copy.num = s.assoc.nextPick then { x with owner := some e.number } else x } ∧
          e.picks = l ++ r ∧ e' = { e with
            picks := l ++ ⟨s.assoc.nextPick, p, none⟩ :: r, anchor := min e.anchor p.onset, last := max e.last p.onset, peakMax := e'.peakMax } ∧
          (∀ c ∈ l, ¬ (p.onset < c.pick.onset ∨ p.onset = c.pick.onset ∧ s.assoc.nextPick < c.num)) ∧
          (∀ c, r.head? = some c → p.onset < c.pick.onset ∨ p.onset = c.pick.onset ∧ s.assoc.nextPick < c.num) ∧
          (∀ c ∈ e'.picks, c.peak ≤ e'.peakMax) ∧ (∃ c ∈ e'.picks, c.peak = e'.peakMax) ∧
          t.status.pending = b.status.pending ∧ t.tallies = b.tallies) ∧
        ((∀ (i : Nat) (e : Event), s.assoc.events[i]? = some (some e) → ¬ e.mayJoin z zone p) →
          (∀ f i : Nat, zone.opensAt p a.assoc.picks f → (∀ g, g < f → ¬ zone.opensAt p a.assoc.picks g) → s.assoc.events[i]? = some none →
            (∀ j, j < i → s.assoc.events[j]? ≠ some none) → s.assoc.counter < 2 ^ 32 → ∃ e : Event,
            t.assoc = { a.assoc with
              events := s.assoc.events.set i (some e)
              counter := s.assoc.counter + 1
              picks := a.assoc.picks.map fun x => if x.copy.num ∈ e.picks.map (·.num) then { x with owner := some s.assoc.counter } else x } ∧
            (∀ c ∈ e.picks, zone.reaches p a.assoc.picks f c ∧ ∀ d, zone.reaches p a.assoc.picks f d → d.pick.station = c.pick.station →
              ¬ (d.pick.onset < c.pick.onset ∨ d.pick.onset = c.pick.onset ∧ d.num < c.num)) ∧
            (∀ d, zone.reaches p a.assoc.picks f d → ∃ c ∈ e.picks, c.pick.station = d.pick.station) ∧
            e.picks.Pairwise (fun c d => c.pick.station ≠ d.pick.station ∧ ¬ (d.pick.onset < c.pick.onset ∨ d.pick.onset = c.pick.onset ∧ d.num < c.num)) ∧
            (∃ c ∈ e.picks, c.pick.onset = e.anchor) ∧ (∃ c ∈ e.picks, c.pick.onset = e.last) ∧
            (∀ c ∈ e.picks, e.anchor ≤ c.pick.onset ∧ c.pick.onset ≤ e.last ∧ c.peak ≤ e.peakMax) ∧ (∃ c ∈ e.picks, c.peak = e.peakMax) ∧
            e.number = s.assoc.counter ∧ e.zone = z ∧ e.state = .gathering ∧ e.timeState = s.time.state ∧ e.declaredAt = s.time.count ∧
            e.closedAt = none ∧ e.reason = none ∧ e.clipFlags = 0 ∧ e.clipUnits = none ∧
            e.closeDeadline = some (min (s.time.count + (zone.window + s.gen.intakeLatency) * 1000) (2 ^ 48 - 1)) ∧
            t.status.pending = b.status.pending ||| Notice.eventDeclared.bit ∧ t.tallies = (b.count .eventsDeclared).tallies) ∧
          ((∀ (i : Nat) (y : Zone), z < i → u.zones[i]? = some y → y.count = 0 ∨ p.station ∉ y.members) →
            ((∃ f, zone.opensAt p a.assoc.picks f) → full → t.assoc = a.assoc ∧
              t.status.pending = b.status.pending ||| Notice.eventLost.bit ∧ t.tallies = (b.count .eventsLost).tallies) ∧
            ((∀ f, ¬ zone.opensAt p a.assoc.picks f) → t.assoc = a.assoc ∧ t.status.pending = b.status.pending ∧ t.tallies = b.tallies))))

/-- O49. An event that reaches its close deadline in GATHERING closes with reason WINDOW, and its clip is planned: a station-clip for each
enabled member of its zone; for each, the first 128 trail entries that meet the window, pinned and in order of first sample; its flags;
and whether its tail is awaited. It waits for a tail, or enters the copy queue, where an IDLE copier makes the allocation test. A time
above 48 bits is a free value (log 9); that the command changes nothing before the deadline is the model's choice (log 1); whether the
Clip Unit has taken STOP is its own view (log 23). -/
def Obligations.EventCloses : Prop :=
  ∀ (i d : Nat) (e : Event) (u : Setup) (zone : Zone) (s : State) (w0 w1 : Nat) (noWait : Prop),
    s.assoc.events[i]? = some (some e) → (∀ (j : Nat) (e' : Event), s.assoc.events[j]? = some (some e') → e'.number = e.number → j = i) →
    e.state = .gathering → e.closeDeadline = some d → s.control.setup = some u → u.zones[e.zone]? = some zone →
    w0 = e.anchor - u.gen.pre * 1000 → w1 = sampleTime (e.last + u.gen.post * 1000) →
    (noWait ↔ s.clip.draining = true ∨ u.gen.tailWait = 0) →
    (s.time.count < d → exec (.closeDeadline e.number) s = .next s) ∧
    (d ≤ s.time.count → ∃ (t s0 : State) (p : Plan) (e' : Event), exec (.closeDeadline e.number) s = .next t ∧
      s0 = { s with
        assoc := { s.assoc with events := s.assoc.events.set i (some e') }
        clip := { s.clip with plans := s.clip.plans.set i (some p) }
        wires := { s.wires with
          pins := s.wires.pins ++ (p.clips.map fun c => c.sels.map fun x => PinMsg.pin e.number c.station x.slot x.gen).flatten } } ∧
      e' = { e with
        closeDeadline := none, reason := some .window, closedAt := some s.time.count
        state := if ∃ c ∈ p.clips, c.awaiting = true then .waitingTail else .copyQueued } ∧
      p.event = e.number ∧ p.winStart = w0 ∧ p.winEnd = w1 ∧ p.region = none ∧ p.flags = 0 ∧
      p.tail = (if ∃ c ∈ p.clips, c.awaiting = true then some (min (s.time.count + u.gen.tailWait * 1000) (2 ^ 48 - 1)) else none) ∧
      (∀ st, (∃ c ∈ p.clips, c.station = st) ↔ st ∈ zone.members ∧ ∃ y, u.stations[st]? = some y ∧ y.enabled = true) ∧
      p.clips.Pairwise (fun a b => a.station ≤ b.station) ∧
      (∀ (c : StationClip) (si : StationIntake) (y : StationEntry) (met : List TrailEntry), c ∈ p.clips →
        s.intake.stations[c.station]? = some si → u.stations[c.station]? = some y →
        met = si.trail.filter (fun x => decide (x.first ≤ w1 ∧ w0 < sampleTime (x.first + x.count * (1000000 / y.sampleRate)))) →
        c.cutCount = 0 ∧ c.sels.Pairwise (fun a b => a.first ≤ b.first) ∧
        c.sels.Perm ((met.take 128).map fun x => ⟨x.slot, x.gen, x.first, x.count, .pinned, false⟩) ∧
        (c.awaiting = true ↔ ¬ noWait ∧ met.length ≤ 128 ∧ ∀ x ∈ met, sampleTime (x.first + x.count * (1000000 / y.sampleRate)) ≤ w1) ∧
        (c.flags.getLsbD 0 = true ↔ c.awaiting = false ∧ ∀ x ∈ c.sels, w0 < x.first) ∧
        (c.flags.getLsbD 1 = true ↔ ∃ x ∈ met.take 128, x.brk = true ∧ w0 < x.first) ∧
        (c.flags.getLsbD 2 = true ↔ 128 < met.length ∨ noWait ∧ ∀ x ∈ met, sampleTime (x.first + x.count * (1000000 / y.sampleRate)) ≤ w1) ∧
        c.flags.getLsbD 3 = false ∧ c.flags.getLsbD 4 = false ∧ c.flags.getLsbD 7 = false ∧
        (c.flags.getLsbD 5 = true ↔ ∃ x ∈ met.take 128, x.timeUnsure = true) ∧
        (c.flags.getLsbD 6 = true ↔ ∃ x ∈ met.take 128, x.clipped = true)) ∧
      (e'.state = .waitingTail → t.assoc = s0.assoc ∧ t.clip = s0.clip ∧ t.wires = s0.wires ∧ Frame [.assoc, .clip, .wires, .writer] s t) ∧
      (e'.state = .copyQueued → s.clip.copier ≠ .idle → t.assoc = s0.assoc ∧ t.clip = { s0.clip with queue := s.clip.queue ++ [e.number] } ∧
        t.wires = s0.wires ∧ Frame [.assoc, .clip, .wires, .writer] s t) ∧
      (e'.state = .copyQueued → s.clip.copier = .idle → s.clip.queue = [] → t = (s0.allocate i).settle))

/-! ### Event clips -/

/-- O50. The allocation test of a job, of one unit for the directory and one for each selection. What fits before the ring's end is taken
there; what would cross it is taken at unit 0, the skip wasted: COPYING is asked, the range announced, and the copier comes to the first
selection. What does not fit ends the job for lack of space, when it can never fit or the part is ATTENDED, and its event joins the wait
list, where the writer looks at once when it was empty; UNATTENDED, the copier waits for a reclaim. What stays PINNED is unpinned there,
and counts as copied (log 18). That the directory of a plan without selections is formed there is the model's choice (log 52). -/
def Obligations.AllocationTest : Prop :=
  ∀ (i n units : Nat) (p : Plan) (r : Region) (s t : State), s.clip.plans[i]? = some (some p) → n = 1 + (p.clips.map fun c => c.sels.length).sum →
    units = s.gen.clipSize / 512 → t = s.allocate i →
    r = (if s.clip.allocPtr + n ≤ units then ⟨s.clip.allocPtr, n, 0⟩ else ⟨0, n, units - s.clip.allocPtr⟩) →
    (n ≤ units → r.skip + n ≤ units - s.clip.used →
      t.clip.used = s.clip.used + r.skip + n ∧ t.clip.allocPtr = (if r.first + n = units then 0 else r.first + n) ∧ t.clip.freePtr = s.clip.freePtr ∧
      t.clip.plans = s.clip.plans.set i (some { p with region := some r }) ∧ t.clip.queue = s.clip.queue ∧ t.clip.writesOut = 0 ∧
      t.clip.dirError = false ∧ t.assoc = { s.assoc with events := s.assoc.events.modify i (·.map fun e => { e with clipUnits := some (r.first, n) }) } ∧
      t.wires = { s.wires with stateRequests := s.wires.stateRequests ++ [(p.event, .copying)] } ∧
      t.guard = { s.guard with range := some (r.first, n) } ∧
      (∀ c cs x xs, p.clips = c :: cs → c.sels = x :: xs →
        (x.status ≠ .cut → t.clip.copier = .unit i 0 (.check s.gen.copyBurst)) ∧
        (x.status = .cut → t.clip.copier = .unit i 0 (.writing (s.gen.clipBase + 512 * (r.first + 1))
          [voidHeader p.event c.station x true false]))) ∧
      (∀ e : Event, (∀ c ∈ p.clips, c.sels = []) → s.assoc.events[i]? = some (some e) → ∃ bytes : List Byte,
        bytes = directoryBytes e.zone { p with region := some r } r ∧ DirectoryLayout e.zone { p with region := some r } r bytes ∧
        t.clip.copier = .directory i (s.gen.clipBase + 512 * r.first) (chunksOf (8 * s.gen.copyBurst) (64 / s.gen.copyBurst) bytes)) ∧
      Frame [.assoc, .clip, .guard, .writer, .wires] s t) ∧
    (n ≤ units → units - s.clip.used < r.skip + n → s.attend.unattended = true → t.clip = { s.clip with copier := .allocating i } ∧
      t.report = { s.report with reclaim := true } ∧ Frame [.clip, .report] s t) ∧
    (units < n ∨ units - s.clip.used < r.skip + n ∧ s.attend.unattended = false → ∃ m, JobLacked i p s m ∧ EventJoins p.event m t)

/-- O51. The tails that plans wait for. A new trail entry of a station that awaits is taken by each plan that waits: selected and pinned
when it meets the window, the wait over when it covers its end, lies past it, or there is no room. A tail deadline reached, and the Clip
Unit's STOP, give up what is still awaited. The plans move in ascending event number (log 24), and one that awaits no more enters the copy
queue, where an IDLE copier makes its allocation test before the next plan moves; while a job runs, the queue is all that grows. A tail
deadline before its time changes nothing (log 1), and an entry's end above 48 bits is a free value (log 9). -/
def Obligations.TailWaits : Prop :=
  ∀ (s : State) (waits : Nat → Plan → Prop) (giveUp : Plan → Plan),
    (∀ i p, waits i p ↔ s.clip.plans[i]? = some (some p) ∧ p.tail ≠ none ∧ ∃ e, s.assoc.events[i]? = some (some e)) →
    (∀ p, giveUp p = { p with
      tail := none
      clips := p.clips.map fun c => if c.awaiting = true then { c with
        awaiting := false
        flags := c.flags ||| 4 ||| if c.sels.head?.all (fun z => decide (p.winStart < z.first)) then 1 else 0 } else c }) →
    ∃ ws : List (Nat × Plan), (∀ q : Nat × Plan, q ∈ ws ↔ waits q.1 q.2) ∧ (ws.map (·.1)).Nodup ∧
    ws.Pairwise (fun a b => ∀ ea eb : Event, s.assoc.events[a.1]? = some (some ea) → s.assoc.events[b.1]? = some (some eb) →
      ea.number ≤ eb.number) ∧
    (∀ (st : Nat) (x : TrailEntry) (pre post : List (Nat × TrailEntry)) (y : StationEntry) (endT : Nat) (met : Plan → Prop)
      (held : StationClip → Prop), s.wires.trailNotes = pre ++ (st, x) :: post → (∀ m ∈ pre, m.1 ≠ st) → s.station st = some y →
      endT = sampleTime (x.first + x.count * (1000000 / y.sampleRate)) → (∀ p, met p ↔ x.first ≤ p.winEnd ∧ p.winStart < endT) →
      (∀ c, held c ↔ c.station ≠ st ∨ c.awaiting = false ∨ ∃ z ∈ c.sels, z.slot = x.slot ∧ z.gen = x.gen) →
      ∃ (t m : State) (new : Plan → Plan) (asks : Plan → List PinMsg), exec (.newTrailEntry st) s = .next t ∧
        (∀ p, (new p).clips.length = p.clips.length ∧ new p = { p with
          clips := (new p).clips, tail := if ∃ c ∈ (new p).clips, c.awaiting = true then p.tail else none }) ∧
        (∀ (p : Plan) (j : Nat) (c : StationClip), p.clips[j]? = some c → ∃ c' : StationClip, (new p).clips[j]? = some c' ∧
          (held c ∨ ¬ met p ∧ x.first ≤ p.winEnd → c' = c) ∧
          (¬ held c → p.winEnd < x.first ∨ met p ∧ 128 ≤ c.sels.length → c' = { c with
            awaiting := false
            flags := c.flags ||| 4 ||| if c.sels.head?.all (fun z => decide (p.winStart < z.first)) then 1 else 0 }) ∧
          (¬ held c → met p → c.sels.length < 128 → ∃ l r, c.sels = l ++ r ∧ (∀ z ∈ l, ¬ x.first < z.first) ∧
            (∀ z, r.head? = some z → x.first < z.first) ∧ c' = { c with
              sels := l ++ ⟨x.slot, x.gen, x.first, x.count, .pinned, false⟩ :: r
              awaiting := decide (endT ≤ p.winEnd)
              flags := c.flags ||| (if x.brk = true ∧ p.winStart < x.first then 2 else 0) ||| (if x.timeUnsure then 32 else 0) |||
                (if x.clipped then 64 else 0) ||| if p.winEnd < endT ∧
                  (l ++ ⟨x.slot, x.gen, x.first, x.count, .pinned, false⟩ :: r).head?.all (fun z => decide (p.winStart < z.first)) then 1 else 0 })) ∧
        (∀ p, met p → (∃ c ∈ p.clips, ¬ held c ∧ c.sels.length < 128) → asks p = [.pin p.event st x.slot x.gen]) ∧
        (∀ p, (met p → ∀ c ∈ p.clips, ¬ held c → 128 ≤ c.sels.length) → asks p = []) ∧
        PlansMove (fun p _ => new p) asks (fun p => ∀ c ∈ (new p).clips, c.awaiting = false) ws
          { s with wires := { s.wires with trailNotes := pre ++ post } } m ∧ Frame [.writer] m t ∧
        (s.clip.copier ≠ .idle → ∃ ended : List (Nat × Plan), ended.Sublist ws ∧
          (∀ q : Nat × Plan, q ∈ ended ↔ waits q.1 q.2 ∧ ∀ c ∈ (new q.2).clips, c.awaiting = false) ∧
          (∀ i p, waits i p → t.clip.plans[i]? = some (some (new p))) ∧
          (∀ i, (∀ p, ¬ waits i p) → t.clip.plans[i]? = s.clip.plans[i]?) ∧
          t.clip = { s.clip with plans := t.clip.plans, queue := s.clip.queue ++ ended.map (·.2.event) } ∧
          t.wires = { s.wires with
            trailNotes := pre ++ post, pins := s.wires.pins ++ (ws.map fun q => asks q.2).flatten
            stateRequests := s.wires.stateRequests ++ ended.map fun q => (q.2.event, .copyQueued) } ∧ Frame [.clip, .writer, .wires] s t)) ∧
    (∀ (i d : Nat) (e : Event) (p : Plan), s.assoc.events[i]? = some (some e) →
      (∀ (j : Nat) (e' : Event), s.assoc.events[j]? = some (some e') → e'.number = e.number → j = i) → s.clip.plans[i]? = some (some p) →
      p.tail = some d →
      (d ≤ s.time.count → ∃ t m, exec (.tailDeadline e.number) s = .next t ∧ JobsBegun { s with
        clip := { s.clip with plans := s.clip.plans.set i (some (giveUp p)), queue := s.clip.queue ++ [p.event] }
        wires := { s.wires with stateRequests := s.wires.stateRequests ++ [(p.event, .copyQueued)] } } m ∧ Frame [.writer] m t) ∧
      (s.time.count < d → exec (.tailDeadline e.number) s = .next s)) ∧
    (s.wires.clipStop = true → ∃ t m, exec .clipUnitStop s = .next t ∧
      PlansMove (fun _ => giveUp) (fun _ => []) (fun _ => True) ws { s with
        clip := { s.clip with draining := true }, wires := { s.wires with clipStop := false } } m ∧ Frame [.writer] m t ∧
      (s.clip.copier ≠ .idle → (∀ i p, waits i p → t.clip.plans[i]? = some (some (giveUp p))) ∧
        (∀ i, (∀ p, ¬ waits i p) → t.clip.plans[i]? = s.clip.plans[i]?) ∧
        t.clip = { s.clip with plans := t.clip.plans, queue := s.clip.queue ++ ws.map (·.2.event), draining := true } ∧
        t.wires = { s.wires with
          clipStop := false, stateRequests := s.wires.stateRequests ++ ws.map fun q => (q.2.event, .copyQueued) } ∧
        Frame [.clip, .writer, .wires] s t))

/-- O52. Refusals and cuts at the plans. A refused pin makes the selection CUT while it is PINNED, with one more cut and the CUT flag; a
cut announced makes each PINNED selection of the slot and generation CUT, counted, and sets the cut flag of a READING one, whose unit ends
in the same event when no granted read is outstanding. Its cut is counted at the announcement (log 25). -/
def Obligations.CutsReachPlans : Prop :=
  ∀ s : State,
    (∀ (r : RefusedPin) (pre post : List RefusedPin) (hit : Selection → Prop), s.wires.refusedPins = pre ++ r :: post →
      (∀ m ∈ pre, m.slot ≠ r.slot) → (∀ x, hit x ↔ x.slot = r.slot ∧ x.gen = r.gen ∧ x.status = .pinned) →
      ∃ t, exec (.pinRefused r.slot) s = .next t ∧ t.wires = { s.wires with refusedPins := pre ++ post } ∧ Frame [.clip, .writer, .wires] s t ∧
        ((∀ (i : Nat) (e : Event), s.assoc.events[i]? = some (some e) → e.number ≠ r.event) → t.clip = s.clip) ∧
        (∀ (i : Nat) (e : Event) (p : Plan), s.assoc.events[i]? = some (some e) → e.number = r.event →
          (∀ (j : Nat) (e' : Event), s.assoc.events[j]? = some (some e') → e'.number = e.number → j = i) → s.clip.plans[i]? = some (some p) →
          ∃ p' : Plan, t.clip = { s.clip with plans := s.clip.plans.set i (some p') } ∧ p' = { p with clips := p'.clips } ∧
            p'.clips.length = p.clips.length ∧ ∀ (j : Nat) (c : StationClip), p.clips[j]? = some c → ∃ c' : StationClip, p'.clips[j]? = some c' ∧
              (c.station ≠ r.station ∨ (∀ x ∈ c.sels, ¬ hit x) → c' = c) ∧
              (c.station = r.station → (∃ x ∈ c.sels, hit x) → c' = { c with
                cutCount := c.cutCount + 1, flags := c.flags ||| 8, sels := c'.sels } ∧ c'.sels.length = c.sels.length ∧
                ∀ (k : Nat) (x : Selection), c.sels[k]? = some x → ∃ x' : Selection, c'.sels[k]? = some x' ∧ (¬ hit x → x' = x) ∧
                  (hit x → x' = { x with status := .cut })))) ∧
    (∀ (n gen : Nat) (pre post : List (Nat × Nat)) (hit : Selection → Prop), s.wires.cutNotes = pre ++ (n, gen) :: post →
      (∀ m ∈ pre, m.1 ≠ n) → (∀ x, hit x ↔ x.slot = n ∧ x.gen = gen) →
      ∃ (t : State) (cut : StationClip → StationClip) (ps : List (Option Plan)), exec (.slotCutAnnouncement n) s = .next t ∧
        t.wires = { s.wires with cutNotes := pre ++ post, pins := t.wires.pins } ∧ Frame [.clip, .writer, .wires] s t ∧
        (∀ c : StationClip, (cut c).sels.length = c.sels.length ∧ (cut c).station = c.station ∧ (cut c).awaiting = c.awaiting ∧
          (∀ (k : Nat) (x : Selection), c.sels[k]? = some x → ∃ x' : Selection, (cut c).sels[k]? = some x' ∧
            (hit x → x.status = .pinned → x' = { x with status := .cut }) ∧ (hit x → x.status = .reading → x' = { x with cutFlag := true }) ∧
            (¬ hit x ∨ x.status ≠ .pinned ∧ x.status ≠ .reading → x' = x)) ∧
          ((∀ x ∈ c.sels, hit x → x.status ≠ .pinned ∧ x.status ≠ .reading) → cut c = c) ∧
          ((∃ x ∈ c.sels, hit x ∧ (x.status = .pinned ∨ x.status = .reading)) → (cut c).flags = c.flags ||| 8 ∧ c.cutCount < (cut c).cutCount) ∧
          (∀ (xs ys : List Selection) (x : Selection), c.sels = xs ++ x :: ys → hit x → (x.status = .pinned ∨ x.status = .reading) →
            (∀ y ∈ xs ++ ys, hit y → y.status ≠ .pinned ∧ y.status ≠ .reading) → (cut c).cutCount = c.cutCount + 1)) ∧
        ps = s.clip.plans.map (fun o => o.map fun p => { p with clips := p.clips.map cut }) ∧
        ((∀ i k burst granted data err, s.clip.copier ≠ .unit i k (.reading burst granted granted data err)) →
          t.clip = { s.clip with plans := ps } ∧ t.wires.pins = s.wires.pins) ∧
        (∀ (i m burst granted : Nat) (data : List Byte) (p : Plan) (r : Region) (cs ds : List StationClip) (c : StationClip) (x : Selection),
          s.clip.copier = .unit i ((cs.map fun c => c.sels.length).sum + m) (.reading burst granted granted data 0) →
          s.clip.plans[i]? = some (some p) → p.region = some r → p.clips = cs ++ c :: ds → c.sels[m]? = some x → hit x → x.status = .reading →
          t.wires.pins = s.wires.pins ∧ t.clip = { s.clip with
            plans := ps.set i (some { p with
              clips := cs.map cut ++ { cut c with sels := (cut c).sels.set m { x with cutFlag := true, status := .cut } } :: ds.map cut })
            copier := .unit i ((cs.map fun c => c.sels.length).sum + m) (.writing (s.gen.clipBase + 512 * (r.first + 1 +
              ((cs.map fun c => c.sels.length).sum + m))) [voidHeader p.event c.station x true false]) }))

/-- O53. The copier at a selection, the one of place `m` in its station-clip. The check of its slot starts its reads, or makes it CUT,
counted, with a void unit; it waits while the pin is on its way (log 5). A read returned is kept; the last one ends the reads: COPIED with
its unpin and the writes of the unit, or a void unit for a cut or an error; the errors of its reads are counted there. A write returned is
counted off; an error flags the station-clip, or the directory; the last one of the job ends it, with or without a selection: the unit
range is withdrawn and every held read released, the event joins the wait list, where the writer looks at once when it was empty, and the
IDLE copier begins the jobs that wait. That a MEMERR of dropped work counts is the model's reading (log 14). Data of another length than
the read is padded or cut (log 10). -/
def Obligations.CopierWorks : Prop :=
  (∀ (i m k : Nat) (p : Plan) (r : Region) (cs ds : List StationClip) (c : StationClip) (x : Selection) (s : State)
    (void : Bool → Bool → Copier) (plan' : StationClip → List (Option Plan)), s.clip.plans[i]? = some (some p) → p.region = some r →
    p.clips = cs ++ c :: ds → c.sels[m]? = some x → k = (cs.map fun c => c.sels.length).sum + m →
    (∀ a b, void a b = .unit i k (.writing (s.gen.clipBase + 512 * (r.first + 1 + k)) [voidHeader p.event c.station x a b])) →
    (∀ c', plan' c' = s.clip.plans.set i (some { p with clips := cs ++ c' :: ds })) →
    (∀ a b, VoidLayout p.event c.station x a b (voidHeader p.event c.station x a b)) ∧
    (∀ burst, s.clip.copier = .unit i k (.check burst) →
      (.pin p.event c.station x.slot x.gen ∈ s.wires.pins → exec .slotCheck s = .next s) ∧
      (.pin p.event c.station x.slot x.gen ∉ s.wires.pins →
        (x.status = .cut → ∃ t, exec .slotCheck s = .next t ∧ t.clip = { s.clip with copier := void true false } ∧ Frame [.clip, .writer] s t) ∧
        (∀ e : Slot, x.status ≠ .cut → s.intake.dir[x.slot]? = some e → e.gen = x.gen → e.cutMark = false → ∃ t, exec .slotCheck s = .next t ∧
          t.clip = { s.clip with
            copier := .unit i k (.reading burst 0 0 [] 0)
            plans := plan' { c with sels := c.sels.set m { x with status := .reading, cutFlag := false } } } ∧ Frame [.clip, .writer] s t) ∧
        (∀ e : Slot, x.status ≠ .cut → s.intake.dir[x.slot]? = some e → e.gen ≠ x.gen ∨ e.cutMark = true → ∃ t, exec .slotCheck s = .next t ∧
          t.clip = { s.clip with
            copier := void true false
            plans := plan' { c with
              cutCount := c.cutCount + 1, flags := c.flags ||| 8, sels := c.sels.set m { x with status := .cut } } } ∧
          Frame [.clip, .writer] s t))) ∧
    (∀ (code : MemCode) (data got all : List Byte) (o : Outstanding) (rest : List Outstanding) (burst granted returned : Nat) (err err' : Nat),
      s.guard.downstream = o :: rest → o.owner = .copierRead →
      (o.dropped = true → ∃ t, exec (.copierReadCompletion code data) s = .next t ∧ t.guard = { s.guard with downstream := rest } ∧
        t.tallies = (if code = .memerr then s.count .memoryErrors else s).tallies ∧ Frame [.guard, .writer, .tallies] s t) ∧
      (o.dropped = false → s.clip.copier = .unit i k (.reading burst granted returned got err) → all = got ++ fit (8 * o.beats) data →
        err' = (if code = .memerr then err + 1 else err) → ∃ t, exec (.copierReadCompletion code data) s = .next t ∧
        t.guard = { s.guard with downstream := rest } ∧
        t.tallies = (if returned + 1 = granted ∧ err' ≠ 0 then s.countBy .memoryErrors err' else s).tallies ∧
        Frame [.clip, .guard, .writer, .tallies, .wires] s t ∧
        (returned + 1 ≠ granted ∨ x.cutFlag = false ∧ err' = 0 ∧ granted ≠ 64 / burst → t.wires = s.wires ∧
          t.clip = { s.clip with copier := .unit i k (.reading burst granted (returned + 1) all err') }) ∧
        (returned + 1 = granted → err' ≠ 0 → t.clip = { s.clip with
            copier := void x.cutFlag true
            plans := plan' { c with flags := c.flags ||| 16, sels := c.sels.set m { x with status := if x.cutFlag then .cut else .memerr } } } ∧
          t.wires = { s.wires with pins := if x.cutFlag then s.wires.pins else s.wires.pins ++ [.unpin x.slot x.gen] }) ∧
        (returned + 1 = granted → err' = 0 → x.cutFlag = true → t.wires = s.wires ∧ t.clip = { s.clip with
            copier := void true false, plans := plan' { c with sels := c.sels.set m { x with status := .cut } } }) ∧
        (returned + 1 = granted → err' = 0 → x.cutFlag = false → granted = 64 / burst → t.clip = { s.clip with
            copier := .unit i k (.writing (s.gen.clipBase + 512 * (r.first + 1 + k)) (chunksOf (8 * burst) (64 / burst) all))
            plans := plan' { c with sels := c.sels.set m { x with status := .copied } } } ∧
          t.wires = { s.wires with pins := s.wires.pins ++ [.unpin x.slot x.gen] })))) ∧
  ∀ (i : Nat) (p : Plan) (s : State) (code : MemCode) (clip : Option Nat) (o : Outstanding) (rest : List Outstanding) (n : State) (dir : Bool)
    (q : Plan), s.clip.plans[i]? = some (some p) →
    s.guard.downstream = o :: rest → o.owner = .copierWrite clip →
    n = (if code = .memerr then (s.count .memoryErrors) else s) →
    dir = (s.clip.dirError || (code == .memerr && clip == none)) →
    q = (match clip with
      | some j => if code = .memerr then { p with clips := p.clips.modify j fun c => { c with flags := c.flags ||| 16 } } else p
      | none => p) →
    (o.dropped = true → ∃ t, exec (.copierWriteCompletion code) s = .next t ∧ t.guard = { s.guard with downstream := rest } ∧
      t.tallies = n.tallies ∧ Frame [.guard, .writer, .tallies] s t) ∧
    (o.dropped = false → s.clip.copier.slot = some i →
      ((∀ addr, s.clip.copier = .directory i addr [] → s.clip.writesOut ≠ 1) → (∀ addr, s.clip.copier = .directory i addr [] → s.clip.writesOut ≠ 0) →
        ∃ t, exec (.copierWriteCompletion code) s = .next t ∧
        t.guard = { s.guard with downstream := rest } ∧ t.tallies = n.tallies ∧
        t.status.pending = (if code = .memerr then s.status.pending ||| Notice.memFault.bit else s.status.pending) ∧
        t.clip = { s.clip with writesOut := s.clip.writesOut - 1, dirError := dir, plans := s.clip.plans.set i (some q) } ∧
        Frame [.clip, .guard, .notices, .writer, .tallies] s t) ∧
      (∀ addr, s.clip.copier = .directory i addr [] → s.clip.writesOut = 1 →
        ∃ (t u w v : State) (flags : BitVec 8), exec (.copierWriteCompletion code) s = .next t ∧
        flags = (q.clips.foldl (fun f c => f ||| c.flags) 0 ||| if dir then 16 else 0) ∧
        u.clip = { s.clip with
          writesOut := 0, dirError := dir, copier := .idle, plans := s.clip.plans.set i (some { q with flags := flags }) } ∧
        u.assoc = { s.assoc with events := s.assoc.events.modify i (·.map fun e => { e with clipFlags := flags }) } ∧
        u.wires = { s.wires with stateRequests := s.wires.stateRequests ++ [(p.event, .copied)] } ∧
        u.guard = { s.guard with range := none, downstream := rest, held := u.guard.held, releases := u.guard.releases } ∧
        HeldReleased (fun h => ∃ marked, h.kind = .read marked) s.guard u.guard ∧
        u.tallies = n.tallies ∧
        u.status.pending = (if code = .memerr then s.status.pending ||| Notice.memFault.bit else s.status.pending) ∧
        Frame [.assoc, .clip, .guard, .notices, .writer, .tallies, .wires] s u ∧
        EventJoins p.event u w ∧ JobsBegun w v ∧ Frame [.writer] v t))

/-! ### The report ring, the loader and the sample ring -/

/-- O54. A write of the record writer or of the STATUS claimant returns from memory. A MEMERR counts, and raises MEM_FAULT when the work
it belongs to stands; it is not repeated, the record stays outstanding and its event as it is. That a MEMERR of dropped work counts,
without MEM_FAULT, is the model's reading (log 14), as is which work a soft reset drops (log 48). -/
def Obligations.RecordAndStatusWritesReturn : Prop :=
  ∀ (code : MemCode) (o : Outstanding) (rest : List Outstanding) (s m : State) (c : Instr), s.guard.downstream = o :: rest →
    (o.owner = .report ∧ c = .reportWriteCompletion code ∨ o.owner = .status ∧ c = .statusWriteCompletion code) →
    m = (if code = .memerr then s.count .memoryErrors else s) →
    ∃ t, exec c s = .next t ∧ t.guard = { s.guard with downstream := rest } ∧ t.tallies = m.tallies ∧
      t.status.pending = (if code = .memerr ∧ o.dropped = false then s.status.pending ||| Notice.memFault.bit else s.status.pending) ∧
      Frame [.guard, .notices, .writer, .tallies] s t

/-- O55. The ack word. Before a LOAD has succeeded it changes nothing; one that names no outstanding record is ignored, with BAD_ACK; one
that does frees every record from get up to it: its event, with the event's requests still on their way (log 6), its plan, and its clip
region, oldest first. A reclaim request held is answered then: a copier that allocates tests anew, and, once IDLE, begins the jobs that
wait; and the writer looks. -/
def Obligations.AcksFreeRecords : Prop :=
  ∀ (s : State) (index : BitVec 16),
    (s.control.setup = none → ∃ t, exec (.ackWord index) s = .next t ∧ Frame [.writer] s t) ∧
    (∀ (u : Setup) (k : Nat), s.control.setup = some u → RingOk s → k = (index.toNat + u.gen.reportCap - s.report.get) % u.gen.reportCap →
      (¬ (index.toNat < u.gen.reportCap ∧ k < s.report.occupancy) → ∃ t, exec (.ackWord index) s = .next t ∧
        t.status.pending = s.status.pending ||| Notice.badAck.bit ∧ t.tallies = (s.count .badAcks).tallies ∧
        Frame [.notices, .writer, .tallies] s t) ∧
      (index.toNat < u.gen.reportCap → k < s.report.occupancy → ∃ t f, exec (.ackWord index) s = .next t ∧ f = s.freeRecords (k + 1) ∧
        f.status.rewrite = true ∧
        (s.report.reclaim = false → ∃ w, WriterLooked f w ∧ Frame [.writer] w t) ∧
        (∀ i, s.report.reclaim = true → s.clip.copier = .allocating i → ∃ x w,
          JobsBegun (({ f with report := { f.report with reclaim := false } } : State).allocate i) x ∧ WriterLooked x w ∧ Frame [.writer] w t) ∧
        (s.report.reclaim = true → (∀ i, s.clip.copier ≠ .allocating i) →
          ∃ w, WriterLooked { f with report := { f.report with reclaim := false } } w ∧ Frame [.writer] w t) ∧
        (s.report.reclaim = false → s.report.waitList = [] ∨ s.report.writer ≠ .idle → Frame [.writer] f t ∧ t.status.rewrite = true) ∧
        f.report = { s.report with
          numbers := s.report.numbers.drop (k + 1), get := f.report.get, occupancy := s.report.occupancy - (k + 1) } ∧
        (s.report.get < u.gen.reportCap → f.report.get = (index.toNat + 1) % u.gen.reportCap) ∧
        f.wires = { s.wires with stateRequests := s.wires.stateRequests.filter fun m => !(s.report.numbers.take (k + 1)).contains m.1 } ∧
        (∀ (i : Nat) (e : Event), s.assoc.events[i]? = some (some e) →
          (∀ (j : Nat) (e' : Event), s.assoc.events[j]? = some (some e') → e'.number = e.number → j = i) →
          (e.number ∈ s.report.numbers.take (k + 1) → f.assoc.events[i]? = some none ∧
            (i < s.clip.plans.length → f.clip.plans[i]? = some none)) ∧
          (e.number ∉ s.report.numbers.take (k + 1) → f.assoc.events[i]? = some (some e) ∧ f.clip.plans[i]? = s.clip.plans[i]?)) ∧
        (∀ (es : List (Nat × Event × Plan)) (give : Clip → Region → Clip), es.map (·.2.1.number) = s.report.numbers.take (k + 1) →
          (es.map (·.2.1.number)).Nodup → (∀ q ∈ es, s.eventAt q.1 q.2.1 ∧ s.clip.plans[q.1]? = some (some q.2.2)) →
          (∀ (c : Clip) (r : Region) (left : Nat), left = c.used - (r.skip + r.units) → give c r = { c with
            used := left
            allocPtr := if left = 0 then 0 else c.allocPtr
            freePtr := if left = 0 ∨ r.first + r.units = s.gen.clipSize / 512 then 0 else r.first + r.units }) →
          f.clip = { (es.filterMap (·.2.2.region)).foldl give s.clip with plans := f.clip.plans }) ∧
        Frame [.assoc, .clip, .report, .writer, .wires] s f))

/-- O56. The copier's reclaim request, taken: with no record outstanding its job ends for lack of space; with one, the oldest is freed
with REPORT_RECLAIMED, and the copier tests anew; either way the copier, IDLE, begins the jobs that wait. The announcement of UNATTENDED
makes the writer look at the front of its list: it takes the event while there is room, raises REPORT_FULL in ATTENDED, and reclaims one
record in UNATTENDED. With no request held the command changes nothing (log 1); an UNATTENDED announced acts whenever it is taken (log
50). -/
def Obligations.ReclaimsAndTheWriter : Prop :=
  ∀ s : State,
    (s.report.reclaim = false → exec .reclaimRequest s = .next s) ∧
    (∀ (i : Nat) (p : Plan), s.report.reclaim = true → s.clip.copier = .allocating i → s.clip.plans[i]? = some (some p) →
      (s.report.occupancy = 0 → ∃ t m w x, exec .reclaimRequest s = .next t ∧
        JobLacked i p { s with report := { s.report with reclaim := false } } m ∧ EventJoins p.event m w ∧ JobsBegun w x ∧ Frame [.writer] x t) ∧
      (s.report.occupancy ≠ 0 → ∃ t b x w, exec .reclaimRequest s = .next t ∧ b.report = { s.freeRecord.report with reclaim := false } ∧
        b.status.pending = s.status.pending ||| Notice.reportReclaimed.bit ∧ b.tallies = (s.count .reportsReclaimed).tallies ∧
        Frame [.report, .notices, .writer, .tallies] s.freeRecord b ∧ JobsBegun (b.allocate i) x ∧ w = x.writerLook ∧ WriterLooked x w ∧
        Frame [.writer] w t)) ∧
    (∀ (index : Nat) (e : Event), RecordLayout index e (recordBytes index e)) ∧
    (s.wires.unattReport ≠ 0 → ∃ t, exec .unattendedAtReportUnit s = .next t ∧
      (s.report.waitList = [] ∨ s.report.writer ≠ .idle → t.wires = { s.wires with unattReport := s.wires.unattReport - 1 } ∧
        Frame [.wires, .writer] s t) ∧
      (∀ (i : Nat) (e : Event) (rest : List Nat), s.report.writer = .idle → s.report.waitList = e.number :: rest →
        s.assoc.events[i]? = some (some e) →
        (∀ (j : Nat) (e' : Event), s.assoc.events[j]? = some (some e') → e'.number = e.number → j = i) →
        (s.report.occupancy < s.gen.reportCap → t.wires = { s.wires with unattReport := s.wires.unattReport - 1 } ∧
          t.report = { s.report with waitList := rest, writer := .writing e.number s.report.put (recordBytes s.report.put e) false } ∧
          Frame [.report, .wires, .writer] s t) ∧
        (s.gen.reportCap ≤ s.report.occupancy → s.attend.unattended = false →
          t.wires = { s.wires with unattReport := s.wires.unattReport - 1 } ∧
          t.status.pending = s.status.pending ||| Notice.reportFull.bit ∧ Frame [.notices, .wires, .writer] s t) ∧
        (∀ (old : Nat) (older : List Nat) (a : State), a = State.freeRecord { s with wires := { s.wires with unattReport := s.wires.unattReport - 1 } } →
          s.report.occupancy = s.gen.reportCap → s.attend.unattended = true → s.report.reclaim = false →
          s.report.numbers = old :: older → s.gen.reportCap = older.length + 1 → old ≠ e.number →
          t.report = { a.report with waitList := rest, writer := .writing e.number s.report.put (recordBytes s.report.put e) false } ∧
          t.assoc = a.assoc ∧ t.clip = a.clip ∧ t.wires = a.wires ∧ t.status.pending = s.status.pending ||| Notice.reportReclaimed.bit ∧
          t.tallies = (s.count .reportsReclaimed).tallies ∧ Frame [.assoc, .clip, .report, .notices, .writer, .tallies, .wires] s t)))

/-- O57. A read of the loader returns. A MEMERR fails the LOAD with MEMORY at the read's first byte; else the checks whose last byte it
holds are made: of those that fail, the one with the lowest offset, and of two at one offset the earlier reason, is written. With none the
LOAD goes on, or ends in success when the whole setup has returned: it is in force, and every unit of work is made anew. How the reads are
cut, what a check of a bank needs, that the announcements of UNATTENDED stand, and which requests are dropped, is the model's reading
(logs 16, 17, 50, 48, 7), as is that a MEMERR of dropped work counts (log 14). Data of another length than the read is padded or cut (log
10). -/
def Obligations.LoaderReadReturns : Prop :=
  ∀ (code : MemCode) (data bs : List Byte) (o : Outstanding) (rest : List Outstanding) (s m : State) (r : LoadRec) (page off : Nat)
    (bad : List Check), s.guard.downstream = o :: rest → o.owner = .loader → m = (if code = .memerr then s.count .memoryErrors else s) →
    (o.dropped = true → ∃ t, exec (.loaderReadCompletion code data) s = .next t ∧ t.guard = { s.guard with downstream := rest } ∧
      t.tallies = m.tallies ∧ Frame [.guard, .writer, .tallies] s t) ∧
    (o.dropped = false → s.control.load = some r → r.error = none → s.control.pageBase = some page → off = 0x100 + r.data.length →
      bs = r.data ++ fit (8 * o.beats) data → bad = (checksIn page off).filter (fun c => c.fails bs) →
      (∀ (why : Reason) (place : Nat), (code = .memerr ∧ why = .memory ∧ place = off ∨ code = .okay ∧ ∃ c ∈ bad, c.reason = why ∧ c.offset = place ∧
          ∀ d ∈ bad, place < d.offset ∨ place = d.offset ∧ why.rank ≤ d.reason.rank) →
        ∃ t, exec (.loaderReadCompletion code data) s = .next t ∧
          t.control = { s.control with part := r.returnTo, inProgress := none, load := none } ∧
          t.hasResult ⟨1, s.control.inProgressTag, .failed why place⟩ ∧ t.tallies = m.tallies ∧
          t.guard = { s.guard with downstream := rest.map fun q => if q.owner = .loader then { q with dropped := true } else q } ∧
          t.wires = { s.wires with sched := s.wires.sched ++ [.part r.returnTo] } ∧ Frame [.control, .guard, .writer, .tallies, .wires] s t) ∧
      (code = .okay → bad = [] → bs.length < 4608 → ∃ t, exec (.loaderReadCompletion code data) s = .next t ∧
        t.control = { s.control with load := some { r with data := bs } } ∧ t.guard = { s.guard with downstream := rest } ∧
        Frame [.control, .guard, .writer] s t) ∧
      (code = .okay → bad = [] → 4608 ≤ bs.length → ∃ (t : State) (u : Setup), exec (.loaderReadCompletion code data) s = .next t ∧
        SetupRead bs u ∧
        t.control = { s.control with setup := some u, part := .stopped, inProgress := none, load := none } ∧
        t.hasResult ⟨1, s.control.inProgressTag, .done⟩ ∧
        t.time = { s.time with
          baseRate := max u.gen.rateLow (min u.gen.rateHigh s.time.baseRate), rateWord := max u.gen.rateLow (min u.gen.rateHigh s.time.rateWord)
          lastPulse := none, firstLoad := true } ∧
        (t.intake.dir = List.replicate u.gen.ringSlots ⟨.empty, 0, 0, false, false⟩ ∧ t.intake.bufs = List.replicate 8 .free ∧
          t.intake.refetch = [] ∧ t.intake.horizon = 0 ∧ t.intake.stations = List.replicate 96 ⟨none, [], [], false⟩ ∧
          t.intake.nextId = s.intake.nextId) ∧
        t.engine.length = s.engine.length ∧ (∀ d ∈ t.engine, d.state = .off ∧ d.openPick = none ∧ d.silence = none ∧ d.silent = false ∧
          d.startPending = false ∧ d.short = 0 ∧ d.long = 0 ∧ d.warmUp = 0 ∧ d.staged = .empty ∧ d.means = [none, none, none] ∧ d.count = 0 ∧
          d.nextTime = none) ∧
        (t.sched.state = .idle ∧ t.sched.active = some (if field bs 0x3A 1 = 0 then .a else .b) ∧ t.sched.period = some (field bs 0x38 2) ∧
          t.sched.stagedPeriod = none ∧ t.sched.stagedBank = none ∧ t.sched.bankA = parseBank bs 0x1000 ∧ t.sched.bankB = parseBank bs 0x1180 ∧
          t.sched.intervals = [] ∧ t.sched.cycleCount = some u.gen.cycleMax ∧ t.sched.cycleStart = none ∧ t.sched.pointer = none ∧
          t.sched.markDeadline = none ∧ t.sched.timer = none ∧ t.sched.lastRef = none) ∧
        t.assoc = { s.assoc with picks := [], nextPick := 0 } ∧ t.clip = Clip.reset ∧
        (t.report.put = 0 ∧ t.report.get = 0 ∧ t.report.occupancy = 0 ∧ t.report.writer = .idle ∧ t.report.waitList = [] ∧
          t.report.numbers = [] ∧ t.report.reclaim = false) ∧
        (HeldReleased (fun _ => True) s.guard t.guard ∧ (∀ h ∈ t.guard.held, ∃ n, h.state = .released n) ∧
          t.guard = { s.guard with
            range := none, held := t.guard.held, releases := t.guard.releases, downstream := rest.map fun q => { q with
              dropped := match q.owner with
                | .refetch | .copierRead | .copierWrite _ => true
                | .loader | .status | .report | .pass _ => q.dropped } }) ∧
        t.attend = { s.attend with deadline := none } ∧
        t.wires = { s.wires with
          toAssoc := [], pins := [], refusedPins := [], cutRequests := [], cutNotes := [], slotFree := [], trailNotes := [], horizonSched := []
          horizonAssoc := [], sched := [], clipStop := false } ∧
        (t.status.heartbeat = s.status.heartbeat ∧ t.status.newRecords = 0 ∧ t.status.dump = s.status.dump) ∧
        t.status.pending = s.status.pending ∧ t.status.irq = decide (s.status.pending &&& u.gen.noticeMask ≠ 0) ∧ t.status.rewrite = true ∧
        Frame [.time, .control, .intake, .engine, .sched, .assoc, .clip, .guard, .report, .notices, .writer, .line, .attend, .wires] s t))

/-- O58. What a LOAD accepts, read by read, and which reason and offset a failing check reports. The first read holds the general setup,
with its pairings, its tag sets and its regions, each region checked once the fields it uses are in range; each later read holds eight
station entries or eight zone entries, or entries of the banks, of which the bank named is checked, entry by entry. A bank is valid by the
six conditions. A zone with member count 0 has nothing else checked. How the reads are cut is the model's choice (log 16), and that the
check of a bank's entry needs the entries up to it its reading (log 17). -/
def Obligations.SetupIsChecked : Prop :=
  (∀ (page : Nat) (bs : List Byte) (f : Nat → Nat → Nat) (apart : Nat → Nat → Nat → Nat → Prop) (bad : Nat → Reason → Nat → Prop)
    (ring clip report : Prop), (∀ o n, f o n = field bs (o - 0x100) n) → (∀ a m b n, apart a m b n ↔ a + m ≤ b ∨ b + n ≤ a) →
    (∀ lo why place, bad lo why place ↔ ∃ c ∈ (checksIn page lo).filter (fun c => c.fails bs), c.reason = why ∧ c.offset = place) →
    (ring ↔ f 0x100 4 % 4096 = 0 ∧ (1024 ≤ f 0x104 2 ∧ f 0x104 2 ≤ 16384) ∧ f 0x104 2 % 8 = 0) →
    (clip ↔ f 0x110 4 % 4096 = 0 ∧ (262144 ≤ f 0x114 4 ∧ f 0x114 4 ≤ 67108864) ∧ f 0x114 4 % 4096 = 0) →
    (report ↔ f 0x118 4 % 4096 = 0 ∧ (4 ≤ f 0x11C 2 ∧ f 0x11C 2 ≤ 256)) →
    ((checksIn page 0x100).filter (fun c => c.fails bs) = [] ↔ (ring ∧ clip ∧ report) ∧
      (BitVec.ofNat 16 (f 0x106 2) ≠ 0 ∧ BitVec.ofNat 16 (f 0x108 2) ≠ 0 ∧ BitVec.ofNat 16 (f 0x106 2) &&& BitVec.ofNat 16 (f 0x108 2) = 0) ∧
      ((1 ≤ f 0x10A 2 ∧ f 0x10A 2 ≤ 200) ∧ (171626893 ≤ f 0x10C 4 ∧ f 0x10C 4 ≤ 171970491) ∧ f 0x11E 1 ≤ 1 ∧
        f 0x11F 1 ∈ [0, 1, 3, 7, 15, 31, 63] ∧ (1 ≤ f 0x120 1 ∧ f 0x120 1 ≤ 60) ∧ f 0x121 1 ≤ 1 ∧ f 0x124 2 ≤ 5000 ∧
        (1 ≤ f 0x126 2 ∧ f 0x126 2 ≤ f 0x11C 2) ∧ f 0x128 2 ≤ 2000 ∧ (100 ≤ f 0x12A 2 ∧ f 0x12A 2 ≤ 4000) ∧ f 0x12C 2 ≤ 10000 ∧
        (f 0x12E 2 = 0 ∨ 100 ≤ f 0x12E 2 ∧ f 0x12E 2 ≤ 60000) ∧ (f 0x130 1 = 8 ∨ f 0x130 1 = 16 ∨ f 0x130 1 = 32) ∧ f 0x131 1 ≤ 100 ∧
        (1 ≤ f 0x132 1 ∧ f 0x132 1 ≤ 8) ∧ (100 ≤ f 0x138 2 ∧ f 0x138 2 ≤ 65535) ∧ f 0x13A 1 ≤ 1) ∧
      (f 0x100 4 + 512 * f 0x104 2 ≤ 2 ^ 32 ∧ f 0x110 4 + f 0x114 4 ≤ 2 ^ 32 ∧ f 0x118 4 + 512 * f 0x11C 2 ≤ 2 ^ 32 ∧
        apart (f 0x100 4) (512 * f 0x104 2) page 8192 ∧ apart (f 0x100 4) (512 * f 0x104 2) (f 0x110 4) (f 0x114 4) ∧
        apart (f 0x110 4) (f 0x114 4) page 8192 ∧ apart (f 0x100 4) (512 * f 0x104 2) (f 0x118 4) (512 * f 0x11C 2) ∧
        apart (f 0x110 4) (f 0x114 4) (f 0x118 4) (512 * f 0x11C 2) ∧ apart (f 0x118 4) (512 * f 0x11C 2) page 8192)) ∧
    (∀ place, bad 0x100 .range place ↔ place = 0x100 ∧ ¬ f 0x100 4 % 4096 = 0 ∨
      place = 0x104 ∧ ¬ ((1024 ≤ f 0x104 2 ∧ f 0x104 2 ≤ 16384) ∧ f 0x104 2 % 8 = 0) ∨ place = 0x10A ∧ ¬ (1 ≤ f 0x10A 2 ∧ f 0x10A 2 ≤ 200) ∨
      place = 0x10C ∧ ¬ (171626893 ≤ f 0x10C 4 ∧ f 0x10C 4 ≤ 171970491) ∨ place = 0x110 ∧ ¬ f 0x110 4 % 4096 = 0 ∨
      place = 0x114 ∧ ¬ ((262144 ≤ f 0x114 4 ∧ f 0x114 4 ≤ 67108864) ∧ f 0x114 4 % 4096 = 0) ∨ place = 0x118 ∧ ¬ f 0x118 4 % 4096 = 0 ∨
      place = 0x11C ∧ ¬ (4 ≤ f 0x11C 2 ∧ f 0x11C 2 ≤ 256) ∨ place = 0x11E ∧ ¬ f 0x11E 1 ≤ 1 ∨
      place = 0x11F ∧ f 0x11F 1 ∉ [0, 1, 3, 7, 15, 31, 63] ∨ place = 0x120 ∧ ¬ (1 ≤ f 0x120 1 ∧ f 0x120 1 ≤ 60) ∨
      place = 0x121 ∧ ¬ f 0x121 1 ≤ 1 ∨ place = 0x124 ∧ ¬ f 0x124 2 ≤ 5000 ∨ place = 0x126 ∧ ¬ (1 ≤ f 0x126 2 ∧ f 0x126 2 ≤ f 0x11C 2) ∨
      place = 0x128 ∧ ¬ f 0x128 2 ≤ 2000 ∨ place = 0x12A ∧ ¬ (100 ≤ f 0x12A 2 ∧ f 0x12A 2 ≤ 4000) ∨ place = 0x12C ∧ ¬ f 0x12C 2 ≤ 10000 ∨
      place = 0x12E ∧ ¬ (f 0x12E 2 = 0 ∨ 100 ≤ f 0x12E 2 ∧ f 0x12E 2 ≤ 60000) ∨
      place = 0x130 ∧ ¬ (f 0x130 1 = 8 ∨ f 0x130 1 = 16 ∨ f 0x130 1 = 32) ∨ place = 0x131 ∧ ¬ f 0x131 1 ≤ 100 ∨
      place = 0x132 ∧ ¬ (1 ≤ f 0x132 1 ∧ f 0x132 1 ≤ 8) ∨ place = 0x138 ∧ ¬ (100 ≤ f 0x138 2 ∧ f 0x138 2 ≤ 65535) ∨
      place = 0x13A ∧ ¬ f 0x13A 1 ≤ 1) ∧
    (∀ place, bad 0x100 .tags place ↔ place = 0x108 ∧ (BitVec.ofNat 16 (f 0x106 2) = 0 ∨ BitVec.ofNat 16 (f 0x108 2) = 0 ∨
      BitVec.ofNat 16 (f 0x106 2) &&& BitVec.ofNat 16 (f 0x108 2) ≠ 0)) ∧
    (∀ place, bad 0x100 .region place ↔
      place = 0x100 ∧ ring ∧ (2 ^ 32 < f 0x100 4 + 512 * f 0x104 2 ∨ ¬ apart (f 0x100 4) (512 * f 0x104 2) page 8192) ∨
      place = 0x110 ∧ clip ∧ (2 ^ 32 < f 0x110 4 + f 0x114 4 ∨ ring ∧ ¬ apart (f 0x100 4) (512 * f 0x104 2) (f 0x110 4) (f 0x114 4) ∨
        ¬ apart (f 0x110 4) (f 0x114 4) page 8192) ∨
      place = 0x118 ∧ report ∧ (2 ^ 32 < f 0x118 4 + 512 * f 0x11C 2 ∨
        ring ∧ ¬ apart (f 0x100 4) (512 * f 0x104 2) (f 0x118 4) (512 * f 0x11C 2) ∨
        clip ∧ ¬ apart (f 0x110 4) (f 0x114 4) (f 0x118 4) (512 * f 0x11C 2) ∨ ¬ apart (f 0x118 4) (512 * f 0x11C 2) page 8192)) ∧
    (∀ lo why place, bad lo why place → lo = 0x100 ∨ 0x200 ≤ lo →
      if lo = 0x100 then why = .range ∨ why = .tags ∨ why = .region else if lo < 0x1000 then why = .range else why = .bank) ∧
    (∀ lo place, 0x200 ≤ lo → lo < 0xE00 → lo % 256 = 0 → (bad lo .range place ↔ ∃ (i e : Nat) (g : Nat → Nat → Nat), i < 8 ∧ e = lo + 32 * i ∧
      (∀ o n, g o n = f (e + o) n) ∧ (place = e ∧ ¬ (g 0 1 = 1 ∨ g 0 1 = 3) ∨ place = e + 1 ∧ ¬ g 1 1 ≤ 3 ∨ place = e + 2 ∧ ¬ g 2 1 ≤ 7 ∨
        place = e + 8 ∧ ¬ g 8 1 ≤ 1 ∨ place = e + 16 ∧ ¬ (1 ≤ g 16 1 ∧ g 16 1 ≤ 8) ∨
        place = e + 17 ∧ ¬ ((6 ≤ g 17 1 ∧ g 17 1 ≤ 15) ∧ g 16 1 + 3 ≤ g 17 1) ∨ place = e + 18 ∧ ¬ (24 ≤ g 18 2 ∧ g 18 2 ≤ 1024) ∨
        place = e + 20 ∧ ¬ (16 ≤ g 20 2 ∧ g 20 2 ≤ g 18 2) ∨ place = e + 22 ∧ ¬ 1 ≤ g 22 1 ∨ place = e + 26 ∧ ¬ (1 ≤ g 26 2 ∧ g 26 2 ≤ 600)))) ∧
    (∀ lo place, 0xE00 ≤ lo → lo < 0x1000 → lo % 256 = 0 → (bad lo .range place ↔ ∃ (i e : Nat) (g : Nat → Nat → Nat), i < 8 ∧ e = lo + 32 * i ∧
      (∀ o n, g o n = f (e + o) n) ∧ g 0 1 ≠ 0 ∧ (place = e ∧ ¬ (2 ≤ g 0 1 ∧ g 0 1 ≤ 24) ∨ place = e + 1 ∧ ¬ (2 ≤ g 1 1 ∧ g 1 1 ≤ g 0 1) ∨
        place = e + 2 ∧ ¬ (1 ≤ g 2 2 ∧ g 2 2 ≤ 500) ∨
        ∃ j, j < 24 ∧ j < g 0 1 ∧ place = e + 4 + j ∧ (96 ≤ g (4 + j) 1 ∨ ∃ i, i < j ∧ g (4 + i) 1 = g (4 + j) 1)))) ∧
    (∀ lo place, 0x1000 ≤ lo → (bad lo .bank place ↔ ∃ (off i : Nat) (bank : List BankEntry), i < 48 ∧
      (off = 0x1000 ∧ f 0x13A 1 = 0 ∨ off = 0x1180 ∧ f 0x13A 1 = 1) ∧ bank = parseBank bs off ∧ place = off + 8 * i ∧ lo ≤ place + 7 ∧
      place + 7 < lo + 256 ∧ entryBad bank i = true)) ∧
    ∀ (off i : Nat) (e : BankEntry), 0x100 ≤ off → ((parseBank bs off)[i]? = some e ↔ i < 48 ∧ e = ⟨f (off + 8 * i) 2, f (off + 8 * i + 2) 1,
      f (off + 8 * i + 3) 1, f (off + 8 * i + 4) 1, f (off + 8 * i + 5) 1, BitVec.ofNat 8 (f (off + 8 * i + 6) 1)⟩)) ∧
  ∀ (bank : List BankEntry) (used : Nat → Prop) (share meet : BankEntry → BankEntry → Prop), bank.length = 48 →
    (∀ i, used i ↔ i < 48 ∧ ∀ j e, j ≤ i → bank[j]? = some e → e.action ≠ 0) →
    (∀ e f, share e f ↔ e.action = 5 ∨ f.action = 5 ∨ e.rep ≤ f.rep ∧ f.first % e.rep = e.first ∨ f.rep ≤ e.rep ∧ e.first % f.rep = f.first) →
    (∀ e f, meet e f ↔ e.action = 5 ∨ f.action = 5 ∨ e.rep ≤ f.rep ∧ f.first % e.rep = e.first ∨ f.rep < e.rep ∧ e.first % f.rep = f.first) →
    (∀ (i : Nat) (e : BankEntry), bank[i]? = some e → (entryBad bank i = true ↔
      e.action = 0 ∧ (∀ j x, j < i → bank[j]? = some x → x.action ≠ 0 ∧ x.action ≠ 5) ∨
      e.action ≠ 0 ∧ ((∃ j x, j < i ∧ bank[j]? = some x ∧ (x.action = 0 ∨ e.mark < x.mark ∨ x.mark = e.mark ∧ meet x e)) ∨ 5 < e.action ∨
        e.action ≠ 5 ∧ ¬ (e.rep ∈ [1, 2, 4, 8, 16, 32, 64] ∧ e.first < e.rep) ∨ e.action = 3 ∧ ¬ (e.factor = 2 ∨ e.factor = 4 ∨ e.factor = 8) ∨
        i = 47 ∧ ∀ j x, j ≤ 47 → bank[j]? = some x → x.action ≠ 5))) ∧
    (bankValid bank = true ↔ ∀ i, i < 48 → entryBad bank i = false) ∧
    (bankValid bank = true ↔
      (∀ (i : Nat) (e : BankEntry), used i → bank[i]? = some e → (e.action ≠ 5 → e.rep ∈ [1, 2, 4, 8, 16, 32, 64] ∧ e.first < e.rep) ∧
        e.action ≤ 5 ∧ (e.action = 3 → e.factor = 2 ∨ e.factor = 4 ∨ e.factor = 8)) ∧
      (∀ (i j : Nat) (e f : BankEntry), i < j → used j → bank[i]? = some e → bank[j]? = some f → e.mark ≤ f.mark ∧ (e.mark = f.mark → ¬ share e f)) ∧
      (∃ (i : Nat) (e : BankEntry), used i ∧ bank[i]? = some e ∧ e.action = 5) ∧
      ∀ (i j : Nat) (e f : BankEntry), i < j → bank[i]? = some e → bank[j]? = some f → e.action = 0 → f.action = 0)

/-- O59. A write into the sample ring from a writer tag, with no open write to a pinned slot, is granted, and in LISTENING and DRAINING
its pieces are taken in the same event, lower slot first; in another part state it changes no intake state. An open write takes the slot
anew, with the lowest FREE buffer or none; a body write is captured, or releases the buffer, or is a rejection NO_OPEN; a bad marker
rejects the slot; a header write changes nothing. A piece with no written byte falls with the header writes (log 41). -/
def Obligations.RingWritesAreTaken : Prop :=
  (∀ (s a : State) (c : Candidate) (r : Request) (mark : Bool) (pre post : List Unanswered) (u : Unanswered) (base : Nat), s.loaded = true →
    s.control.pageBase = some base → r.ok = true → r.kind = .write → s.guard.candidate = some c → s.guard.request c = some (r, mark) →
    s.guard.lastServed.after.find? s.waits = none → s.guard.unanswered = pre ++ u :: post → u.tag = r.tag → u.prog = .waiting →
    (∀ x ∈ pre, x.tag = r.tag → x.prog ≠ .waiting) → Request.within r s.gen.ringBase (512 * s.gen.ringSlots) → Request.apart r base 8192 →
    s.gen.writerTags.getLsbD r.tag = true → s.pinnedOpens r = [] →
    a = { s with guard := { s.guard.remove c with
      unanswered := pre ++ { u with prog := .granted } :: post
      downstream := s.guard.downstream ++ [⟨.pass r.tag, r.kind, r.addr, r.beats, r.bytes, false⟩] } } →
    ∃ t, exec .downstreamGrant s = .next t ∧ t.guard.queue = a.guard.queue ∧ t.guard.held = a.guard.held ∧
      t.guard.downstream = a.guard.downstream ∧ t.guard.unanswered = a.guard.unanswered ∧
      Frame [.guard, .writer] (match s.control.part with
        | .listening => (pieces s.gen.ringBase r).foldl (fun x p => x.takePiece p) a
        | .draining => (pieces s.gen.ringBase r).foldl (fun x p => x.takePieceDraining p) a
        | _ => a) t) ∧
  (∀ (p : Piece) (e : Slot) (s : State), s.intake.dir[p.slot]? = some e →
    (∀ (bufs : List Buf) (opened : Slot), p.byteAt 0 = some 0xA5 →
      (∀ (i : Nat) (b : Buf), s.intake.bufs[i]? = some b → ∃ b', bufs[i]? = some b' ∧
        ((∃ g n d got, b = .assembling p.slot g n d got) → b' = .free) ∧ ((∀ g n d got, b ≠ .assembling p.slot g n d got) → b' = b)) →
      bufs.length = s.intake.bufs.length →
      opened = { e with state := .opened, gen := (e.gen + 1) % 256, refetchNeeded := !bufs.any (fun b => b == .free), cutMark := false } →
      (p.reachesBody = false → s.takePiece p = { s with intake := { s.intake with
        dir := s.intake.dir.set p.slot opened
        bufs := match bufs.findIdx? (fun b => b == .free) with
          | some i => bufs.set i (.assembling p.slot ((e.gen + 1) % 256) 32 (min (s.time.count + 250000) (2 ^ 48 - 1)) [])
          | none => bufs } }) ∧
      (p.reachesBody = true → s.takePiece p =
        (s.takePiece { p with bytes := p.bytes.take 32 }).takePiece ⟨p.slot, 32, p.bytes.drop 32⟩) ∧
      s.takePieceDraining p = { s with intake := { s.intake with dir := s.intake.dir.set p.slot { opened with refetchNeeded := false } } }) ∧
    (∀ m : Byte, p.byteAt 0 = some m → m ≠ 0xA5 → ¬ (m = 0x5A ∧ p.writesHeader = true) →
      s.takePieceDraining p = { s with intake := { s.intake with dir := s.intake.dir.set p.slot { e with state := .empty } } } ∧
      (s.takePiece p).intake.dir = s.intake.dir.set p.slot { e with state := .rejected, refetchNeeded := false } ∧
      (s.takePiece p).intake.bufs = releaseBuf p.slot s.intake.bufs ∧
      (s.takePiece p).status.pending = s.status.pending ||| Notice.blockRejected.bit ∧
      (s.takePiece p).tallies = (s.count .rejectedBadMarker).tallies ∧ Frame [.intake, .notices, .writer, .tallies] s (s.takePiece p)) ∧
    (p.byteAt 0 = none → s.takePieceDraining p = s ∧ (p.reachesBody = false → s.takePiece p = s) ∧
      (p.reachesBody = true →
        ((e.state = .rejected ∨ e.state = .opened ∧ (∀ b ∈ s.intake.bufs, b.assembles p.slot = false)) → s.takePiece p = s) ∧
        ((e.state = .empty ∨ e.state = .sealed) → (s.takePiece p).intake.dir = s.intake.dir.set p.slot { e with state := .rejected } ∧
          (s.takePiece p).intake.bufs = s.intake.bufs ∧ (s.takePiece p).status.pending = s.status.pending ||| Notice.blockRejected.bit ∧
          (s.takePiece p).tallies = (s.count .rejectedNoOpen).tallies ∧ Frame [.intake, .notices, .writer, .tallies] s (s.takePiece p)) ∧
        (∀ (i g n d : Nat) (got : List Byte), e.state = .opened → s.intake.bufs[i]? = some (.assembling p.slot g n d got) →
          (∀ (j : Nat) (b : Buf), j < i → s.intake.bufs[j]? = some b → b.assembles p.slot = false) →
          (∀ bs : List Byte, p.off = n → p.bytes = bs.map some → s.takePiece p = { s with intake := { s.intake with
            bufs := s.intake.bufs.set i (.assembling p.slot g (n + bs.length) d (got ++ bs)) } }) ∧
          (p.off ≠ n ∨ none ∈ p.bytes → s.takePiece p = { s with intake := { s.intake with
            bufs := s.intake.bufs.set i .free, dir := s.intake.dir.set p.slot { e with refetchNeeded := true } } })))))

/-- O60. A seal write in LISTENING. To an EMPTY or SEALED slot it is a rejection NO_OPEN, to a REJECTED one nothing. To an OPEN slot the
block is checked, in order, by its header: it is rejected for the first reason that stands, or accepted, as a GAP when samples are
missing. An accepted block seals its slot and moves its station on; it goes to HOLDING when its buffer holds it whole, else to refetch, or
is lost when that queue is full. In DRAINING a seal write leaves its slot EMPTY. An expected time above 48 bits is a free value (log 9);
that a refetch entry is taken up in the same event is log 30. -/
def Obligations.SealIsValidated : Prop :=
  ∀ (n : Nat) (bs : List Byte) (more : List (Option Byte)) (p : Piece) (e : Slot) (s : State), p = ⟨n, 0, bs.map some ++ more⟩ → bs.length = 32 →
    (∀ b ∈ more, b = none) → bs[0]? = some 0x5A → s.intake.dir[n]? = some e →
    s.takePieceDraining p = { s with intake := { s.intake with dir := s.intake.dir.set n { e with state := .empty } } } ∧
    (e.state = .rejected → s.takePiece p = s) ∧
    (e.state = .empty ∨ e.state = .sealed → (s.takePiece p).intake.dir = s.intake.dir.set n { e with state := .rejected } ∧
      (s.takePiece p).status.pending = s.status.pending ||| Notice.blockRejected.bit ∧
      (s.takePiece p).tallies = (s.count .rejectedNoOpen).tallies ∧ Frame [.intake, .notices, .writer, .tallies] s (s.takePiece p)) ∧
    (∀ (st seq count comps first : Nat) (y : StationEntry) (si : StationIntake) (why : Option Tally) (gap brk : Bool), e.state = .opened →
      st = field bs 1 1 → seq = field bs 2 2 → count = field bs 4 1 → comps = field bs 5 1 → first = field bs 8 6 →
      (st < 96 → s.station st = some y ∧ s.intake.stations[st]? = some si) →
      why = (if 96 ≤ st then some .rejectedHeader else if y.enabled = false then some .rejectedStationOff
        else if ¬ ((comps = 1 ∨ comps = 3) ∧ comps = y.components) then some .rejectedHeader
        else if count < 1 ∨ (if y.components = 1 then 120 else 40) < count then some .rejectedHeader
        else match si.expected with
          | none => none
          | some (q, x) => if seq = q then (if first + 1000000 / y.sampleRate / 2 < x then some .rejectedOverlap else none)
            else if (seq + 65536 - q) % 65536 ≤ 32767 then none else some .rejectedStale) →
      gap = (match si.expected with
        | none => false
        | some (q, x) => if seq = q then decide (x + 1000000 / y.sampleRate / 2 < first) else true) →
      brk = (gap || si.expected == none) → (∀ q x, si.expected = some (q, x) → q < 65536) →
      (∀ w, why = some w → (s.takePiece p).intake.dir = s.intake.dir.set n { e with state := .rejected, refetchNeeded := false } ∧
        (s.takePiece p).intake.bufs = releaseBuf n s.intake.bufs ∧ (s.takePiece p).tallies = (s.count w).tallies ∧
        (s.takePiece p).status.pending = (if w = .rejectedStationOff then s.status.pending else s.status.pending ||| Notice.blockRejected.bit) ∧
        (s.takePiece p).intake.stations = s.intake.stations ∧ (s.takePiece p).intake.horizon = s.intake.horizon ∧
        Frame [.intake, .notices, .writer, .tallies] s (s.takePiece p)) ∧
      (why = none → ∀ (z : TrailEntry) (b : Block) (a : State) (t : State) (si' : StationIntake), t = s.takePiece p →
        z = ⟨n, e.gen, first, count, (field bs 6 1).testBit 0, (field bs 6 1).testBit 1, brk⟩ →
        b = ⟨st, seq, first, count, (field bs 6 1).testBit 0, (field bs 6 1).testBit 1, []⟩ →
        a = (State.countStation st (fun k => { k with
            accepted := min (k.accepted + 1) (2 ^ 32 - 1), gaps := if gap then min (k.gaps + 1) (2 ^ 32 - 1) else k.gaps })
          (if gap then (s.count .blocksAccepted).count .gaps else s.count .blocksAccepted)) →
        si' = { si with
          expected := some ((seq + 1) % 65536, sampleTime (first + count * (1000000 / y.sampleRate)))
          trail := (if si.trail.length < 512 then si.trail else si.trail.drop 1) ++ [z] } →
        t.intake.horizon = max s.intake.horizon first ∧
        t.wires = { s.wires with
          trailNotes := s.wires.trailNotes ++ [(st, z)]
          horizonSched := if s.intake.horizon < first then s.wires.horizonSched ++ [first] else s.wires.horizonSched
          horizonAssoc := if s.intake.horizon < first then s.wires.horizonAssoc ++ [first] else s.wires.horizonAssoc } ∧
        t.engine = s.engine.modify st (fun d => { d with
          silence := some (min (s.time.count + s.gen.silenceLimit * 1000000) (2 ^ 48 - 1)), silent := false }) ∧
        Frame [.intake, .engine, .notices, .writer, .tallies, .wires] s t ∧
        (∀ (i g next d : Nat) (got : List Byte), s.intake.bufs[i]? = some (.assembling n g next d got) →
          (∀ (j : Nat) (x : Buf), j < i → s.intake.bufs[j]? = some x → x.assembles n = false) → 32 + 4 * count * comps ≤ next →
          t.intake.bufs = s.intake.bufs.set i (.holding { b with body := got.take (4 * count * comps) }) ∧ t.intake.refetch = s.intake.refetch ∧
          t.intake.stations = s.intake.stations.set st { si' with
            order := si.order ++ [⟨.buffer i, brk || si.breakPending⟩], breakPending := false } ∧
          t.intake.dir = s.intake.dir.set n { e with state := .sealed } ∧ t.tallies = a.tallies ∧ t.status.pending = s.status.pending) ∧
        (∀ (bufs : List Buf),
          ((∀ x ∈ s.intake.bufs, x.assembles n = false) ∧ bufs = s.intake.bufs ∨
            (∃ (i g next d : Nat) (got : List Byte), s.intake.bufs[i]? = some (.assembling n g next d got) ∧
              (∀ (j : Nat) (x : Buf), j < i → s.intake.bufs[j]? = some x → x.assembles n = false) ∧ next < 32 + 4 * count * comps ∧
              bufs = s.intake.bufs.set i .free)) → t.intake.bufs = bufs ∧
          (s.intake.refetch.length < 16 →
            t.intake.refetch = takeUp (s.intake.refetch ++
              [⟨s.intake.nextId, n, e.gen, b, (4 * count * comps + 7) / 8, .queued, false, 0, 0, false⟩]) ∧
            t.intake.nextId = s.intake.nextId + 1 ∧ t.intake.stations = s.intake.stations.set st { si' with
              order := si.order ++ [⟨.refetch s.intake.nextId, brk || si.breakPending⟩], breakPending := false } ∧
            t.intake.dir = s.intake.dir.set n { e with state := .sealed, pins := e.pins + 1, refetchNeeded := false } ∧
            t.tallies = (a.count .refetches).tallies ∧ t.status.pending = s.status.pending) ∧
          (16 ≤ s.intake.refetch.length → t.intake.refetch = s.intake.refetch ∧
            t.intake.stations = s.intake.stations.set st { si' with breakPending := true } ∧
            t.intake.dir = s.intake.dir.set n { e with state := .sealed } ∧ t.tallies = (a.count .refetchFull).tallies ∧
            t.status.pending = s.status.pending ||| Notice.blockLost.bit))))
end

