-- ==== Sys2Proof/Laws/State.lean ====
section
/-! SUPPORT. One lemma per field for each named update of the state: what it sets, and what it leaves. -/
-- One lemma after another: elaborated side by side, the package as one text would need too many threads.
set_option Elab.async false
namespace Sys2Proof.Machine

@[simp] theorem State.setTime_time (f : TimeBase → TimeBase) (s : State) : (s.setTime f).time = f s.time := rfl
@[simp] theorem State.setTime_control (f : TimeBase → TimeBase) (s : State) : (s.setTime f).control = s.control := rfl
@[simp] theorem State.setTime_intake (f : TimeBase → TimeBase) (s : State) : (s.setTime f).intake = s.intake := rfl
@[simp] theorem State.setTime_engine (f : TimeBase → TimeBase) (s : State) : (s.setTime f).engine = s.engine := rfl
@[simp] theorem State.setTime_sched (f : TimeBase → TimeBase) (s : State) : (s.setTime f).sched = s.sched := rfl
@[simp] theorem State.setTime_assoc (f : TimeBase → TimeBase) (s : State) : (s.setTime f).assoc = s.assoc := rfl
@[simp] theorem State.setTime_clip (f : TimeBase → TimeBase) (s : State) : (s.setTime f).clip = s.clip := rfl
@[simp] theorem State.setTime_guard (f : TimeBase → TimeBase) (s : State) : (s.setTime f).guard = s.guard := rfl
@[simp] theorem State.setTime_report (f : TimeBase → TimeBase) (s : State) : (s.setTime f).report = s.report := rfl
@[simp] theorem State.setTime_status (f : TimeBase → TimeBase) (s : State) : (s.setTime f).status = s.status := rfl
@[simp] theorem State.setTime_tallies (f : TimeBase → TimeBase) (s : State) : (s.setTime f).tallies = s.tallies := rfl
@[simp] theorem State.setTime_attend (f : TimeBase → TimeBase) (s : State) : (s.setTime f).attend = s.attend := rfl
@[simp] theorem State.setTime_wires (f : TimeBase → TimeBase) (s : State) : (s.setTime f).wires = s.wires := rfl
@[simp] theorem State.setTime_draws (f : TimeBase → TimeBase) (s : State) : (s.setTime f).draws = s.draws := rfl
@[simp] theorem State.setTime_pending (f : TimeBase → TimeBase) (s : State) : (s.setTime f).pending = s.pending := rfl
@[simp] theorem State.setTime_gen (f : TimeBase → TimeBase) (s : State) : (s.setTime f).gen = s.gen := rfl
@[simp] theorem State.setTime_mask (f : TimeBase → TimeBase) (s : State) : (s.setTime f).mask = s.mask := rfl

@[simp] theorem State.setIntake_time (f : Intake → Intake) (s : State) : (s.setIntake f).time = s.time := rfl
@[simp] theorem State.setIntake_control (f : Intake → Intake) (s : State) : (s.setIntake f).control = s.control := rfl
@[simp] theorem State.setIntake_intake (f : Intake → Intake) (s : State) : (s.setIntake f).intake = f s.intake := rfl
@[simp] theorem State.setIntake_engine (f : Intake → Intake) (s : State) : (s.setIntake f).engine = s.engine := rfl
@[simp] theorem State.setIntake_sched (f : Intake → Intake) (s : State) : (s.setIntake f).sched = s.sched := rfl
@[simp] theorem State.setIntake_assoc (f : Intake → Intake) (s : State) : (s.setIntake f).assoc = s.assoc := rfl
@[simp] theorem State.setIntake_clip (f : Intake → Intake) (s : State) : (s.setIntake f).clip = s.clip := rfl
@[simp] theorem State.setIntake_guard (f : Intake → Intake) (s : State) : (s.setIntake f).guard = s.guard := rfl
@[simp] theorem State.setIntake_report (f : Intake → Intake) (s : State) : (s.setIntake f).report = s.report := rfl
@[simp] theorem State.setIntake_status (f : Intake → Intake) (s : State) : (s.setIntake f).status = s.status := rfl
@[simp] theorem State.setIntake_tallies (f : Intake → Intake) (s : State) : (s.setIntake f).tallies = s.tallies := rfl
@[simp] theorem State.setIntake_attend (f : Intake → Intake) (s : State) : (s.setIntake f).attend = s.attend := rfl
@[simp] theorem State.setIntake_wires (f : Intake → Intake) (s : State) : (s.setIntake f).wires = s.wires := rfl
@[simp] theorem State.setIntake_draws (f : Intake → Intake) (s : State) : (s.setIntake f).draws = s.draws := rfl
@[simp] theorem State.setIntake_pending (f : Intake → Intake) (s : State) : (s.setIntake f).pending = s.pending := rfl
@[simp] theorem State.setIntake_gen (f : Intake → Intake) (s : State) : (s.setIntake f).gen = s.gen := rfl
@[simp] theorem State.setIntake_mask (f : Intake → Intake) (s : State) : (s.setIntake f).mask = s.mask := rfl
@[simp] theorem State.setIntake_now (f : Intake → Intake) (s : State) : (s.setIntake f).now = s.now := rfl

@[simp] theorem State.setEngine_time (f : List Detector → List Detector) (s : State) : (s.setEngine f).time = s.time := rfl
@[simp] theorem State.setEngine_control (f : List Detector → List Detector) (s : State) : (s.setEngine f).control = s.control := rfl
@[simp] theorem State.setEngine_intake (f : List Detector → List Detector) (s : State) : (s.setEngine f).intake = s.intake := rfl
@[simp] theorem State.setEngine_engine (f : List Detector → List Detector) (s : State) : (s.setEngine f).engine = f s.engine := rfl
@[simp] theorem State.setEngine_sched (f : List Detector → List Detector) (s : State) : (s.setEngine f).sched = s.sched := rfl
@[simp] theorem State.setEngine_assoc (f : List Detector → List Detector) (s : State) : (s.setEngine f).assoc = s.assoc := rfl
@[simp] theorem State.setEngine_clip (f : List Detector → List Detector) (s : State) : (s.setEngine f).clip = s.clip := rfl
@[simp] theorem State.setEngine_guard (f : List Detector → List Detector) (s : State) : (s.setEngine f).guard = s.guard := rfl
@[simp] theorem State.setEngine_report (f : List Detector → List Detector) (s : State) : (s.setEngine f).report = s.report := rfl
@[simp] theorem State.setEngine_status (f : List Detector → List Detector) (s : State) : (s.setEngine f).status = s.status := rfl
@[simp] theorem State.setEngine_tallies (f : List Detector → List Detector) (s : State) : (s.setEngine f).tallies = s.tallies := rfl
@[simp] theorem State.setEngine_attend (f : List Detector → List Detector) (s : State) : (s.setEngine f).attend = s.attend := rfl
@[simp] theorem State.setEngine_wires (f : List Detector → List Detector) (s : State) : (s.setEngine f).wires = s.wires := rfl
@[simp] theorem State.setEngine_draws (f : List Detector → List Detector) (s : State) : (s.setEngine f).draws = s.draws := rfl
@[simp] theorem State.setEngine_pending (f : List Detector → List Detector) (s : State) : (s.setEngine f).pending = s.pending := rfl
@[simp] theorem State.setEngine_gen (f : List Detector → List Detector) (s : State) : (s.setEngine f).gen = s.gen := rfl
@[simp] theorem State.setEngine_mask (f : List Detector → List Detector) (s : State) : (s.setEngine f).mask = s.mask := rfl
@[simp] theorem State.setEngine_now (f : List Detector → List Detector) (s : State) : (s.setEngine f).now = s.now := rfl

@[simp] theorem State.setAttend_time (f : Attend → Attend) (s : State) : (s.setAttend f).time = s.time := rfl
@[simp] theorem State.setAttend_control (f : Attend → Attend) (s : State) : (s.setAttend f).control = s.control := rfl
@[simp] theorem State.setAttend_intake (f : Attend → Attend) (s : State) : (s.setAttend f).intake = s.intake := rfl
@[simp] theorem State.setAttend_engine (f : Attend → Attend) (s : State) : (s.setAttend f).engine = s.engine := rfl
@[simp] theorem State.setAttend_sched (f : Attend → Attend) (s : State) : (s.setAttend f).sched = s.sched := rfl
@[simp] theorem State.setAttend_assoc (f : Attend → Attend) (s : State) : (s.setAttend f).assoc = s.assoc := rfl
@[simp] theorem State.setAttend_clip (f : Attend → Attend) (s : State) : (s.setAttend f).clip = s.clip := rfl
@[simp] theorem State.setAttend_guard (f : Attend → Attend) (s : State) : (s.setAttend f).guard = s.guard := rfl
@[simp] theorem State.setAttend_report (f : Attend → Attend) (s : State) : (s.setAttend f).report = s.report := rfl
@[simp] theorem State.setAttend_status (f : Attend → Attend) (s : State) : (s.setAttend f).status = s.status := rfl
@[simp] theorem State.setAttend_tallies (f : Attend → Attend) (s : State) : (s.setAttend f).tallies = s.tallies := rfl
@[simp] theorem State.setAttend_attend (f : Attend → Attend) (s : State) : (s.setAttend f).attend = f s.attend := rfl
@[simp] theorem State.setAttend_wires (f : Attend → Attend) (s : State) : (s.setAttend f).wires = s.wires := rfl
@[simp] theorem State.setAttend_draws (f : Attend → Attend) (s : State) : (s.setAttend f).draws = s.draws := rfl
@[simp] theorem State.setAttend_pending (f : Attend → Attend) (s : State) : (s.setAttend f).pending = s.pending := rfl
@[simp] theorem State.setAttend_gen (f : Attend → Attend) (s : State) : (s.setAttend f).gen = s.gen := rfl
@[simp] theorem State.setAttend_mask (f : Attend → Attend) (s : State) : (s.setAttend f).mask = s.mask := rfl
@[simp] theorem State.setAttend_now (f : Attend → Attend) (s : State) : (s.setAttend f).now = s.now := rfl

@[simp] theorem State.setWires_time (f : Wires → Wires) (s : State) : (s.setWires f).time = s.time := rfl
@[simp] theorem State.setWires_control (f : Wires → Wires) (s : State) : (s.setWires f).control = s.control := rfl
@[simp] theorem State.setWires_intake (f : Wires → Wires) (s : State) : (s.setWires f).intake = s.intake := rfl
@[simp] theorem State.setWires_engine (f : Wires → Wires) (s : State) : (s.setWires f).engine = s.engine := rfl
@[simp] theorem State.setWires_sched (f : Wires → Wires) (s : State) : (s.setWires f).sched = s.sched := rfl
@[simp] theorem State.setWires_assoc (f : Wires → Wires) (s : State) : (s.setWires f).assoc = s.assoc := rfl
@[simp] theorem State.setWires_clip (f : Wires → Wires) (s : State) : (s.setWires f).clip = s.clip := rfl
@[simp] theorem State.setWires_guard (f : Wires → Wires) (s : State) : (s.setWires f).guard = s.guard := rfl
@[simp] theorem State.setWires_report (f : Wires → Wires) (s : State) : (s.setWires f).report = s.report := rfl
@[simp] theorem State.setWires_status (f : Wires → Wires) (s : State) : (s.setWires f).status = s.status := rfl
@[simp] theorem State.setWires_tallies (f : Wires → Wires) (s : State) : (s.setWires f).tallies = s.tallies := rfl
@[simp] theorem State.setWires_attend (f : Wires → Wires) (s : State) : (s.setWires f).attend = s.attend := rfl
@[simp] theorem State.setWires_wires (f : Wires → Wires) (s : State) : (s.setWires f).wires = f s.wires := rfl
@[simp] theorem State.setWires_draws (f : Wires → Wires) (s : State) : (s.setWires f).draws = s.draws := rfl
@[simp] theorem State.setWires_pending (f : Wires → Wires) (s : State) : (s.setWires f).pending = s.pending := rfl
@[simp] theorem State.setWires_gen (f : Wires → Wires) (s : State) : (s.setWires f).gen = s.gen := rfl
@[simp] theorem State.setWires_mask (f : Wires → Wires) (s : State) : (s.setWires f).mask = s.mask := rfl
@[simp] theorem State.setWires_now (f : Wires → Wires) (s : State) : (s.setWires f).now = s.now := rfl

@[simp] theorem State.setSched_time (f : Schedule → Schedule) (s : State) : (s.setSched f).time = s.time := rfl
@[simp] theorem State.setSched_control (f : Schedule → Schedule) (s : State) : (s.setSched f).control = s.control := rfl
@[simp] theorem State.setSched_intake (f : Schedule → Schedule) (s : State) : (s.setSched f).intake = s.intake := rfl
@[simp] theorem State.setSched_engine (f : Schedule → Schedule) (s : State) : (s.setSched f).engine = s.engine := rfl
@[simp] theorem State.setSched_sched (f : Schedule → Schedule) (s : State) : (s.setSched f).sched = f s.sched := rfl
@[simp] theorem State.setSched_assoc (f : Schedule → Schedule) (s : State) : (s.setSched f).assoc = s.assoc := rfl
@[simp] theorem State.setSched_clip (f : Schedule → Schedule) (s : State) : (s.setSched f).clip = s.clip := rfl
@[simp] theorem State.setSched_guard (f : Schedule → Schedule) (s : State) : (s.setSched f).guard = s.guard := rfl
@[simp] theorem State.setSched_report (f : Schedule → Schedule) (s : State) : (s.setSched f).report = s.report := rfl
@[simp] theorem State.setSched_status (f : Schedule → Schedule) (s : State) : (s.setSched f).status = s.status := rfl
@[simp] theorem State.setSched_tallies (f : Schedule → Schedule) (s : State) : (s.setSched f).tallies = s.tallies := rfl
@[simp] theorem State.setSched_attend (f : Schedule → Schedule) (s : State) : (s.setSched f).attend = s.attend := rfl
@[simp] theorem State.setSched_wires (f : Schedule → Schedule) (s : State) : (s.setSched f).wires = s.wires := rfl
@[simp] theorem State.setSched_draws (f : Schedule → Schedule) (s : State) : (s.setSched f).draws = s.draws := rfl
@[simp] theorem State.setSched_pending (f : Schedule → Schedule) (s : State) : (s.setSched f).pending = s.pending := rfl
@[simp] theorem State.setSched_gen (f : Schedule → Schedule) (s : State) : (s.setSched f).gen = s.gen := rfl
@[simp] theorem State.setSched_mask (f : Schedule → Schedule) (s : State) : (s.setSched f).mask = s.mask := rfl
@[simp] theorem State.setSched_now (f : Schedule → Schedule) (s : State) : (s.setSched f).now = s.now := rfl

@[simp] theorem State.setAssoc_time (f : Assoc → Assoc) (s : State) : (s.setAssoc f).time = s.time := rfl
@[simp] theorem State.setAssoc_control (f : Assoc → Assoc) (s : State) : (s.setAssoc f).control = s.control := rfl
@[simp] theorem State.setAssoc_intake (f : Assoc → Assoc) (s : State) : (s.setAssoc f).intake = s.intake := rfl
@[simp] theorem State.setAssoc_engine (f : Assoc → Assoc) (s : State) : (s.setAssoc f).engine = s.engine := rfl
@[simp] theorem State.setAssoc_sched (f : Assoc → Assoc) (s : State) : (s.setAssoc f).sched = s.sched := rfl
@[simp] theorem State.setAssoc_assoc (f : Assoc → Assoc) (s : State) : (s.setAssoc f).assoc = f s.assoc := rfl
@[simp] theorem State.setAssoc_clip (f : Assoc → Assoc) (s : State) : (s.setAssoc f).clip = s.clip := rfl
@[simp] theorem State.setAssoc_guard (f : Assoc → Assoc) (s : State) : (s.setAssoc f).guard = s.guard := rfl
@[simp] theorem State.setAssoc_report (f : Assoc → Assoc) (s : State) : (s.setAssoc f).report = s.report := rfl
@[simp] theorem State.setAssoc_status (f : Assoc → Assoc) (s : State) : (s.setAssoc f).status = s.status := rfl
@[simp] theorem State.setAssoc_tallies (f : Assoc → Assoc) (s : State) : (s.setAssoc f).tallies = s.tallies := rfl
@[simp] theorem State.setAssoc_attend (f : Assoc → Assoc) (s : State) : (s.setAssoc f).attend = s.attend := rfl
@[simp] theorem State.setAssoc_wires (f : Assoc → Assoc) (s : State) : (s.setAssoc f).wires = s.wires := rfl
@[simp] theorem State.setAssoc_draws (f : Assoc → Assoc) (s : State) : (s.setAssoc f).draws = s.draws := rfl
@[simp] theorem State.setAssoc_pending (f : Assoc → Assoc) (s : State) : (s.setAssoc f).pending = s.pending := rfl
@[simp] theorem State.setAssoc_gen (f : Assoc → Assoc) (s : State) : (s.setAssoc f).gen = s.gen := rfl
@[simp] theorem State.setAssoc_mask (f : Assoc → Assoc) (s : State) : (s.setAssoc f).mask = s.mask := rfl
@[simp] theorem State.setAssoc_now (f : Assoc → Assoc) (s : State) : (s.setAssoc f).now = s.now := rfl

@[simp] theorem State.setClip_time (f : Clip → Clip) (s : State) : (s.setClip f).time = s.time := rfl
@[simp] theorem State.setClip_control (f : Clip → Clip) (s : State) : (s.setClip f).control = s.control := rfl
@[simp] theorem State.setClip_intake (f : Clip → Clip) (s : State) : (s.setClip f).intake = s.intake := rfl
@[simp] theorem State.setClip_engine (f : Clip → Clip) (s : State) : (s.setClip f).engine = s.engine := rfl
@[simp] theorem State.setClip_sched (f : Clip → Clip) (s : State) : (s.setClip f).sched = s.sched := rfl
@[simp] theorem State.setClip_assoc (f : Clip → Clip) (s : State) : (s.setClip f).assoc = s.assoc := rfl
@[simp] theorem State.setClip_clip (f : Clip → Clip) (s : State) : (s.setClip f).clip = f s.clip := rfl
@[simp] theorem State.setClip_guard (f : Clip → Clip) (s : State) : (s.setClip f).guard = s.guard := rfl
@[simp] theorem State.setClip_report (f : Clip → Clip) (s : State) : (s.setClip f).report = s.report := rfl
@[simp] theorem State.setClip_status (f : Clip → Clip) (s : State) : (s.setClip f).status = s.status := rfl
@[simp] theorem State.setClip_tallies (f : Clip → Clip) (s : State) : (s.setClip f).tallies = s.tallies := rfl
@[simp] theorem State.setClip_attend (f : Clip → Clip) (s : State) : (s.setClip f).attend = s.attend := rfl
@[simp] theorem State.setClip_wires (f : Clip → Clip) (s : State) : (s.setClip f).wires = s.wires := rfl
@[simp] theorem State.setClip_draws (f : Clip → Clip) (s : State) : (s.setClip f).draws = s.draws := rfl
@[simp] theorem State.setClip_pending (f : Clip → Clip) (s : State) : (s.setClip f).pending = s.pending := rfl
@[simp] theorem State.setClip_gen (f : Clip → Clip) (s : State) : (s.setClip f).gen = s.gen := rfl
@[simp] theorem State.setClip_mask (f : Clip → Clip) (s : State) : (s.setClip f).mask = s.mask := rfl
@[simp] theorem State.setClip_now (f : Clip → Clip) (s : State) : (s.setClip f).now = s.now := rfl

@[simp] theorem State.setGuard_time (f : PathGuard → PathGuard) (s : State) : (s.setGuard f).time = s.time := rfl
@[simp] theorem State.setGuard_control (f : PathGuard → PathGuard) (s : State) : (s.setGuard f).control = s.control := rfl
@[simp] theorem State.setGuard_intake (f : PathGuard → PathGuard) (s : State) : (s.setGuard f).intake = s.intake := rfl
@[simp] theorem State.setGuard_engine (f : PathGuard → PathGuard) (s : State) : (s.setGuard f).engine = s.engine := rfl
@[simp] theorem State.setGuard_sched (f : PathGuard → PathGuard) (s : State) : (s.setGuard f).sched = s.sched := rfl
@[simp] theorem State.setGuard_assoc (f : PathGuard → PathGuard) (s : State) : (s.setGuard f).assoc = s.assoc := rfl
@[simp] theorem State.setGuard_clip (f : PathGuard → PathGuard) (s : State) : (s.setGuard f).clip = s.clip := rfl
@[simp] theorem State.setGuard_guard (f : PathGuard → PathGuard) (s : State) : (s.setGuard f).guard = f s.guard := rfl
@[simp] theorem State.setGuard_report (f : PathGuard → PathGuard) (s : State) : (s.setGuard f).report = s.report := rfl
@[simp] theorem State.setGuard_status (f : PathGuard → PathGuard) (s : State) : (s.setGuard f).status = s.status := rfl
@[simp] theorem State.setGuard_tallies (f : PathGuard → PathGuard) (s : State) : (s.setGuard f).tallies = s.tallies := rfl
@[simp] theorem State.setGuard_attend (f : PathGuard → PathGuard) (s : State) : (s.setGuard f).attend = s.attend := rfl
@[simp] theorem State.setGuard_wires (f : PathGuard → PathGuard) (s : State) : (s.setGuard f).wires = s.wires := rfl
@[simp] theorem State.setGuard_draws (f : PathGuard → PathGuard) (s : State) : (s.setGuard f).draws = s.draws := rfl
@[simp] theorem State.setGuard_pending (f : PathGuard → PathGuard) (s : State) : (s.setGuard f).pending = s.pending := rfl
@[simp] theorem State.setGuard_gen (f : PathGuard → PathGuard) (s : State) : (s.setGuard f).gen = s.gen := rfl
@[simp] theorem State.setGuard_mask (f : PathGuard → PathGuard) (s : State) : (s.setGuard f).mask = s.mask := rfl
@[simp] theorem State.setGuard_now (f : PathGuard → PathGuard) (s : State) : (s.setGuard f).now = s.now := rfl

@[simp] theorem State.setReport_time (f : ReportRing → ReportRing) (s : State) : (s.setReport f).time = s.time := rfl
@[simp] theorem State.setReport_control (f : ReportRing → ReportRing) (s : State) : (s.setReport f).control = s.control := rfl
@[simp] theorem State.setReport_intake (f : ReportRing → ReportRing) (s : State) : (s.setReport f).intake = s.intake := rfl
@[simp] theorem State.setReport_engine (f : ReportRing → ReportRing) (s : State) : (s.setReport f).engine = s.engine := rfl
@[simp] theorem State.setReport_sched (f : ReportRing → ReportRing) (s : State) : (s.setReport f).sched = s.sched := rfl
@[simp] theorem State.setReport_assoc (f : ReportRing → ReportRing) (s : State) : (s.setReport f).assoc = s.assoc := rfl
@[simp] theorem State.setReport_clip (f : ReportRing → ReportRing) (s : State) : (s.setReport f).clip = s.clip := rfl
@[simp] theorem State.setReport_guard (f : ReportRing → ReportRing) (s : State) : (s.setReport f).guard = s.guard := rfl
@[simp] theorem State.setReport_report (f : ReportRing → ReportRing) (s : State) : (s.setReport f).report = f s.report := rfl
@[simp] theorem State.setReport_status (f : ReportRing → ReportRing) (s : State) : (s.setReport f).status = s.status := rfl
@[simp] theorem State.setReport_tallies (f : ReportRing → ReportRing) (s : State) : (s.setReport f).tallies = s.tallies := rfl
@[simp] theorem State.setReport_attend (f : ReportRing → ReportRing) (s : State) : (s.setReport f).attend = s.attend := rfl
@[simp] theorem State.setReport_wires (f : ReportRing → ReportRing) (s : State) : (s.setReport f).wires = s.wires := rfl
@[simp] theorem State.setReport_draws (f : ReportRing → ReportRing) (s : State) : (s.setReport f).draws = s.draws := rfl
@[simp] theorem State.setReport_pending (f : ReportRing → ReportRing) (s : State) : (s.setReport f).pending = s.pending := rfl
@[simp] theorem State.setReport_gen (f : ReportRing → ReportRing) (s : State) : (s.setReport f).gen = s.gen := rfl
@[simp] theorem State.setReport_mask (f : ReportRing → ReportRing) (s : State) : (s.setReport f).mask = s.mask := rfl
@[simp] theorem State.setReport_now (f : ReportRing → ReportRing) (s : State) : (s.setReport f).now = s.now := rfl

@[simp] theorem State.setStatus_time (f : Status → Status) (s : State) : (s.setStatus f).time = s.time := rfl
@[simp] theorem State.setStatus_control (f : Status → Status) (s : State) : (s.setStatus f).control = s.control := rfl
@[simp] theorem State.setStatus_intake (f : Status → Status) (s : State) : (s.setStatus f).intake = s.intake := rfl
@[simp] theorem State.setStatus_engine (f : Status → Status) (s : State) : (s.setStatus f).engine = s.engine := rfl
@[simp] theorem State.setStatus_sched (f : Status → Status) (s : State) : (s.setStatus f).sched = s.sched := rfl
@[simp] theorem State.setStatus_assoc (f : Status → Status) (s : State) : (s.setStatus f).assoc = s.assoc := rfl
@[simp] theorem State.setStatus_clip (f : Status → Status) (s : State) : (s.setStatus f).clip = s.clip := rfl
@[simp] theorem State.setStatus_guard (f : Status → Status) (s : State) : (s.setStatus f).guard = s.guard := rfl
@[simp] theorem State.setStatus_report (f : Status → Status) (s : State) : (s.setStatus f).report = s.report := rfl
@[simp] theorem State.setStatus_status (f : Status → Status) (s : State) : (s.setStatus f).status = f s.status := rfl
@[simp] theorem State.setStatus_tallies (f : Status → Status) (s : State) : (s.setStatus f).tallies = s.tallies := rfl
@[simp] theorem State.setStatus_attend (f : Status → Status) (s : State) : (s.setStatus f).attend = s.attend := rfl
@[simp] theorem State.setStatus_wires (f : Status → Status) (s : State) : (s.setStatus f).wires = s.wires := rfl
@[simp] theorem State.setStatus_draws (f : Status → Status) (s : State) : (s.setStatus f).draws = s.draws := rfl
@[simp] theorem State.setStatus_pending (f : Status → Status) (s : State) : (s.setStatus f).pending = s.pending := rfl
@[simp] theorem State.setStatus_gen (f : Status → Status) (s : State) : (s.setStatus f).gen = s.gen := rfl
@[simp] theorem State.setStatus_mask (f : Status → Status) (s : State) : (s.setStatus f).mask = s.mask := rfl
@[simp] theorem State.setStatus_now (f : Status → Status) (s : State) : (s.setStatus f).now = s.now := rfl

@[simp] theorem State.setControl_time (f : Control → Control) (s : State) : (s.setControl f).time = s.time := rfl
@[simp] theorem State.setControl_control (f : Control → Control) (s : State) : (s.setControl f).control = f s.control := rfl
@[simp] theorem State.setControl_intake (f : Control → Control) (s : State) : (s.setControl f).intake = s.intake := rfl
@[simp] theorem State.setControl_engine (f : Control → Control) (s : State) : (s.setControl f).engine = s.engine := rfl
@[simp] theorem State.setControl_sched (f : Control → Control) (s : State) : (s.setControl f).sched = s.sched := rfl
@[simp] theorem State.setControl_assoc (f : Control → Control) (s : State) : (s.setControl f).assoc = s.assoc := rfl
@[simp] theorem State.setControl_clip (f : Control → Control) (s : State) : (s.setControl f).clip = s.clip := rfl
@[simp] theorem State.setControl_guard (f : Control → Control) (s : State) : (s.setControl f).guard = s.guard := rfl
@[simp] theorem State.setControl_report (f : Control → Control) (s : State) : (s.setControl f).report = s.report := rfl
@[simp] theorem State.setControl_status (f : Control → Control) (s : State) : (s.setControl f).status = s.status := rfl
@[simp] theorem State.setControl_tallies (f : Control → Control) (s : State) : (s.setControl f).tallies = s.tallies := rfl
@[simp] theorem State.setControl_attend (f : Control → Control) (s : State) : (s.setControl f).attend = s.attend := rfl
@[simp] theorem State.setControl_wires (f : Control → Control) (s : State) : (s.setControl f).wires = s.wires := rfl
@[simp] theorem State.setControl_draws (f : Control → Control) (s : State) : (s.setControl f).draws = s.draws := rfl
@[simp] theorem State.setControl_pending (f : Control → Control) (s : State) : (s.setControl f).pending = s.pending := rfl
@[simp] theorem State.setControl_now (f : Control → Control) (s : State) : (s.setControl f).now = s.now := rfl

@[simp] theorem State.setSlot_time (n : Nat) (f : Slot → Slot) (s : State) : (s.setSlot n f).time = s.time := rfl
@[simp] theorem State.setSlot_control (n : Nat) (f : Slot → Slot) (s : State) : (s.setSlot n f).control = s.control := rfl
@[simp] theorem State.setSlot_intake (n : Nat) (f : Slot → Slot) (s : State) : (s.setSlot n f).intake = { s.intake with dir := s.intake.dir.modify n f } := rfl
@[simp] theorem State.setSlot_engine (n : Nat) (f : Slot → Slot) (s : State) : (s.setSlot n f).engine = s.engine := rfl
@[simp] theorem State.setSlot_sched (n : Nat) (f : Slot → Slot) (s : State) : (s.setSlot n f).sched = s.sched := rfl
@[simp] theorem State.setSlot_assoc (n : Nat) (f : Slot → Slot) (s : State) : (s.setSlot n f).assoc = s.assoc := rfl
@[simp] theorem State.setSlot_clip (n : Nat) (f : Slot → Slot) (s : State) : (s.setSlot n f).clip = s.clip := rfl
@[simp] theorem State.setSlot_guard (n : Nat) (f : Slot → Slot) (s : State) : (s.setSlot n f).guard = s.guard := rfl
@[simp] theorem State.setSlot_report (n : Nat) (f : Slot → Slot) (s : State) : (s.setSlot n f).report = s.report := rfl
@[simp] theorem State.setSlot_status (n : Nat) (f : Slot → Slot) (s : State) : (s.setSlot n f).status = s.status := rfl
@[simp] theorem State.setSlot_tallies (n : Nat) (f : Slot → Slot) (s : State) : (s.setSlot n f).tallies = s.tallies := rfl
@[simp] theorem State.setSlot_attend (n : Nat) (f : Slot → Slot) (s : State) : (s.setSlot n f).attend = s.attend := rfl
@[simp] theorem State.setSlot_wires (n : Nat) (f : Slot → Slot) (s : State) : (s.setSlot n f).wires = s.wires := rfl
@[simp] theorem State.setSlot_draws (n : Nat) (f : Slot → Slot) (s : State) : (s.setSlot n f).draws = s.draws := rfl
@[simp] theorem State.setSlot_pending (n : Nat) (f : Slot → Slot) (s : State) : (s.setSlot n f).pending = s.pending := rfl
@[simp] theorem State.setSlot_gen (n : Nat) (f : Slot → Slot) (s : State) : (s.setSlot n f).gen = s.gen := rfl
@[simp] theorem State.setSlot_mask (n : Nat) (f : Slot → Slot) (s : State) : (s.setSlot n f).mask = s.mask := rfl
@[simp] theorem State.setSlot_now (n : Nat) (f : Slot → Slot) (s : State) : (s.setSlot n f).now = s.now := rfl

@[simp] theorem State.setStationIntake_time (n : Nat) (f : StationIntake → StationIntake) (s : State) : (s.setStationIntake n f).time = s.time := rfl
@[simp] theorem State.setStationIntake_control (n : Nat) (f : StationIntake → StationIntake) (s : State) : (s.setStationIntake n f).control = s.control := rfl
@[simp] theorem State.setStationIntake_intake (n : Nat) (f : StationIntake → StationIntake) (s : State) : (s.setStationIntake n f).intake = { s.intake with stations := s.intake.stations.modify n f } := rfl
@[simp] theorem State.setStationIntake_engine (n : Nat) (f : StationIntake → StationIntake) (s : State) : (s.setStationIntake n f).engine = s.engine := rfl
@[simp] theorem State.setStationIntake_sched (n : Nat) (f : StationIntake → StationIntake) (s : State) : (s.setStationIntake n f).sched = s.sched := rfl
@[simp] theorem State.setStationIntake_assoc (n : Nat) (f : StationIntake → StationIntake) (s : State) : (s.setStationIntake n f).assoc = s.assoc := rfl
@[simp] theorem State.setStationIntake_clip (n : Nat) (f : StationIntake → StationIntake) (s : State) : (s.setStationIntake n f).clip = s.clip := rfl
@[simp] theorem State.setStationIntake_guard (n : Nat) (f : StationIntake → StationIntake) (s : State) : (s.setStationIntake n f).guard = s.guard := rfl
@[simp] theorem State.setStationIntake_report (n : Nat) (f : StationIntake → StationIntake) (s : State) : (s.setStationIntake n f).report = s.report := rfl
@[simp] theorem State.setStationIntake_status (n : Nat) (f : StationIntake → StationIntake) (s : State) : (s.setStationIntake n f).status = s.status := rfl
@[simp] theorem State.setStationIntake_tallies (n : Nat) (f : StationIntake → StationIntake) (s : State) : (s.setStationIntake n f).tallies = s.tallies := rfl
@[simp] theorem State.setStationIntake_attend (n : Nat) (f : StationIntake → StationIntake) (s : State) : (s.setStationIntake n f).attend = s.attend := rfl
@[simp] theorem State.setStationIntake_wires (n : Nat) (f : StationIntake → StationIntake) (s : State) : (s.setStationIntake n f).wires = s.wires := rfl
@[simp] theorem State.setStationIntake_draws (n : Nat) (f : StationIntake → StationIntake) (s : State) : (s.setStationIntake n f).draws = s.draws := rfl
@[simp] theorem State.setStationIntake_pending (n : Nat) (f : StationIntake → StationIntake) (s : State) : (s.setStationIntake n f).pending = s.pending := rfl
@[simp] theorem State.setStationIntake_gen (n : Nat) (f : StationIntake → StationIntake) (s : State) : (s.setStationIntake n f).gen = s.gen := rfl
@[simp] theorem State.setStationIntake_mask (n : Nat) (f : StationIntake → StationIntake) (s : State) : (s.setStationIntake n f).mask = s.mask := rfl
@[simp] theorem State.setStationIntake_now (n : Nat) (f : StationIntake → StationIntake) (s : State) : (s.setStationIntake n f).now = s.now := rfl

@[simp] theorem State.setBufs_time (b : List Buf) (s : State) : (s.setBufs b).time = s.time := rfl
@[simp] theorem State.setBufs_control (b : List Buf) (s : State) : (s.setBufs b).control = s.control := rfl
@[simp] theorem State.setBufs_intake (b : List Buf) (s : State) : (s.setBufs b).intake = { s.intake with bufs := b } := rfl
@[simp] theorem State.setBufs_engine (b : List Buf) (s : State) : (s.setBufs b).engine = s.engine := rfl
@[simp] theorem State.setBufs_sched (b : List Buf) (s : State) : (s.setBufs b).sched = s.sched := rfl
@[simp] theorem State.setBufs_assoc (b : List Buf) (s : State) : (s.setBufs b).assoc = s.assoc := rfl
@[simp] theorem State.setBufs_clip (b : List Buf) (s : State) : (s.setBufs b).clip = s.clip := rfl
@[simp] theorem State.setBufs_guard (b : List Buf) (s : State) : (s.setBufs b).guard = s.guard := rfl
@[simp] theorem State.setBufs_report (b : List Buf) (s : State) : (s.setBufs b).report = s.report := rfl
@[simp] theorem State.setBufs_status (b : List Buf) (s : State) : (s.setBufs b).status = s.status := rfl
@[simp] theorem State.setBufs_tallies (b : List Buf) (s : State) : (s.setBufs b).tallies = s.tallies := rfl
@[simp] theorem State.setBufs_attend (b : List Buf) (s : State) : (s.setBufs b).attend = s.attend := rfl
@[simp] theorem State.setBufs_wires (b : List Buf) (s : State) : (s.setBufs b).wires = s.wires := rfl
@[simp] theorem State.setBufs_draws (b : List Buf) (s : State) : (s.setBufs b).draws = s.draws := rfl
@[simp] theorem State.setBufs_pending (b : List Buf) (s : State) : (s.setBufs b).pending = s.pending := rfl
@[simp] theorem State.setBufs_gen (b : List Buf) (s : State) : (s.setBufs b).gen = s.gen := rfl
@[simp] theorem State.setBufs_mask (b : List Buf) (s : State) : (s.setBufs b).mask = s.mask := rfl
@[simp] theorem State.setBufs_now (b : List Buf) (s : State) : (s.setBufs b).now = s.now := rfl

@[simp] theorem State.setRefetch_time (q : List Refetch) (s : State) : (s.setRefetch q).time = s.time := rfl
@[simp] theorem State.setRefetch_control (q : List Refetch) (s : State) : (s.setRefetch q).control = s.control := rfl
@[simp] theorem State.setRefetch_intake (q : List Refetch) (s : State) : (s.setRefetch q).intake = { s.intake with refetch := q } := rfl
@[simp] theorem State.setRefetch_engine (q : List Refetch) (s : State) : (s.setRefetch q).engine = s.engine := rfl
@[simp] theorem State.setRefetch_sched (q : List Refetch) (s : State) : (s.setRefetch q).sched = s.sched := rfl
@[simp] theorem State.setRefetch_assoc (q : List Refetch) (s : State) : (s.setRefetch q).assoc = s.assoc := rfl
@[simp] theorem State.setRefetch_clip (q : List Refetch) (s : State) : (s.setRefetch q).clip = s.clip := rfl
@[simp] theorem State.setRefetch_guard (q : List Refetch) (s : State) : (s.setRefetch q).guard = s.guard := rfl
@[simp] theorem State.setRefetch_report (q : List Refetch) (s : State) : (s.setRefetch q).report = s.report := rfl
@[simp] theorem State.setRefetch_status (q : List Refetch) (s : State) : (s.setRefetch q).status = s.status := rfl
@[simp] theorem State.setRefetch_tallies (q : List Refetch) (s : State) : (s.setRefetch q).tallies = s.tallies := rfl
@[simp] theorem State.setRefetch_attend (q : List Refetch) (s : State) : (s.setRefetch q).attend = s.attend := rfl
@[simp] theorem State.setRefetch_wires (q : List Refetch) (s : State) : (s.setRefetch q).wires = s.wires := rfl
@[simp] theorem State.setRefetch_draws (q : List Refetch) (s : State) : (s.setRefetch q).draws = s.draws := rfl
@[simp] theorem State.setRefetch_pending (q : List Refetch) (s : State) : (s.setRefetch q).pending = s.pending := rfl
@[simp] theorem State.setRefetch_gen (q : List Refetch) (s : State) : (s.setRefetch q).gen = s.gen := rfl
@[simp] theorem State.setRefetch_mask (q : List Refetch) (s : State) : (s.setRefetch q).mask = s.mask := rfl
@[simp] theorem State.setRefetch_now (q : List Refetch) (s : State) : (s.setRefetch q).now = s.now := rfl

@[simp] theorem State.setDetector_time (n : Nat) (f : Detector → Detector) (s : State) : (s.setDetector n f).time = s.time := rfl
@[simp] theorem State.setDetector_control (n : Nat) (f : Detector → Detector) (s : State) : (s.setDetector n f).control = s.control := rfl
@[simp] theorem State.setDetector_intake (n : Nat) (f : Detector → Detector) (s : State) : (s.setDetector n f).intake = s.intake := rfl
@[simp] theorem State.setDetector_engine (n : Nat) (f : Detector → Detector) (s : State) : (s.setDetector n f).engine = s.engine.modify n f := rfl
@[simp] theorem State.setDetector_sched (n : Nat) (f : Detector → Detector) (s : State) : (s.setDetector n f).sched = s.sched := rfl
@[simp] theorem State.setDetector_assoc (n : Nat) (f : Detector → Detector) (s : State) : (s.setDetector n f).assoc = s.assoc := rfl
@[simp] theorem State.setDetector_clip (n : Nat) (f : Detector → Detector) (s : State) : (s.setDetector n f).clip = s.clip := rfl
@[simp] theorem State.setDetector_guard (n : Nat) (f : Detector → Detector) (s : State) : (s.setDetector n f).guard = s.guard := rfl
@[simp] theorem State.setDetector_report (n : Nat) (f : Detector → Detector) (s : State) : (s.setDetector n f).report = s.report := rfl
@[simp] theorem State.setDetector_status (n : Nat) (f : Detector → Detector) (s : State) : (s.setDetector n f).status = s.status := rfl
@[simp] theorem State.setDetector_tallies (n : Nat) (f : Detector → Detector) (s : State) : (s.setDetector n f).tallies = s.tallies := rfl
@[simp] theorem State.setDetector_attend (n : Nat) (f : Detector → Detector) (s : State) : (s.setDetector n f).attend = s.attend := rfl
@[simp] theorem State.setDetector_wires (n : Nat) (f : Detector → Detector) (s : State) : (s.setDetector n f).wires = s.wires := rfl
@[simp] theorem State.setDetector_draws (n : Nat) (f : Detector → Detector) (s : State) : (s.setDetector n f).draws = s.draws := rfl
@[simp] theorem State.setDetector_pending (n : Nat) (f : Detector → Detector) (s : State) : (s.setDetector n f).pending = s.pending := rfl
@[simp] theorem State.setDetector_gen (n : Nat) (f : Detector → Detector) (s : State) : (s.setDetector n f).gen = s.gen := rfl
@[simp] theorem State.setDetector_mask (n : Nat) (f : Detector → Detector) (s : State) : (s.setDetector n f).mask = s.mask := rfl
@[simp] theorem State.setDetector_now (n : Nat) (f : Detector → Detector) (s : State) : (s.setDetector n f).now = s.now := rfl

@[simp] theorem State.setEvent_time (n : Nat) (f : Event → Event) (s : State) : (s.setEvent n f).time = s.time := rfl
@[simp] theorem State.setEvent_control (n : Nat) (f : Event → Event) (s : State) : (s.setEvent n f).control = s.control := rfl
@[simp] theorem State.setEvent_intake (n : Nat) (f : Event → Event) (s : State) : (s.setEvent n f).intake = s.intake := rfl
@[simp] theorem State.setEvent_engine (n : Nat) (f : Event → Event) (s : State) : (s.setEvent n f).engine = s.engine := rfl
@[simp] theorem State.setEvent_sched (n : Nat) (f : Event → Event) (s : State) : (s.setEvent n f).sched = s.sched := rfl
@[simp] theorem State.setEvent_assoc (n : Nat) (f : Event → Event) (s : State) : (s.setEvent n f).assoc = { s.assoc with events := s.assoc.events.modify n (·.map f) } := rfl
@[simp] theorem State.setEvent_clip (n : Nat) (f : Event → Event) (s : State) : (s.setEvent n f).clip = s.clip := rfl
@[simp] theorem State.setEvent_guard (n : Nat) (f : Event → Event) (s : State) : (s.setEvent n f).guard = s.guard := rfl
@[simp] theorem State.setEvent_report (n : Nat) (f : Event → Event) (s : State) : (s.setEvent n f).report = s.report := rfl
@[simp] theorem State.setEvent_status (n : Nat) (f : Event → Event) (s : State) : (s.setEvent n f).status = s.status := rfl
@[simp] theorem State.setEvent_tallies (n : Nat) (f : Event → Event) (s : State) : (s.setEvent n f).tallies = s.tallies := rfl
@[simp] theorem State.setEvent_attend (n : Nat) (f : Event → Event) (s : State) : (s.setEvent n f).attend = s.attend := rfl
@[simp] theorem State.setEvent_wires (n : Nat) (f : Event → Event) (s : State) : (s.setEvent n f).wires = s.wires := rfl
@[simp] theorem State.setEvent_draws (n : Nat) (f : Event → Event) (s : State) : (s.setEvent n f).draws = s.draws := rfl
@[simp] theorem State.setEvent_pending (n : Nat) (f : Event → Event) (s : State) : (s.setEvent n f).pending = s.pending := rfl
@[simp] theorem State.setEvent_gen (n : Nat) (f : Event → Event) (s : State) : (s.setEvent n f).gen = s.gen := rfl
@[simp] theorem State.setEvent_mask (n : Nat) (f : Event → Event) (s : State) : (s.setEvent n f).mask = s.mask := rfl
@[simp] theorem State.setEvent_now (n : Nat) (f : Event → Event) (s : State) : (s.setEvent n f).now = s.now := rfl

@[simp] theorem State.setPlan_time (n : Nat) (f : Plan → Plan) (s : State) : (s.setPlan n f).time = s.time := rfl
@[simp] theorem State.setPlan_control (n : Nat) (f : Plan → Plan) (s : State) : (s.setPlan n f).control = s.control := rfl
@[simp] theorem State.setPlan_intake (n : Nat) (f : Plan → Plan) (s : State) : (s.setPlan n f).intake = s.intake := rfl
@[simp] theorem State.setPlan_engine (n : Nat) (f : Plan → Plan) (s : State) : (s.setPlan n f).engine = s.engine := rfl
@[simp] theorem State.setPlan_sched (n : Nat) (f : Plan → Plan) (s : State) : (s.setPlan n f).sched = s.sched := rfl
@[simp] theorem State.setPlan_assoc (n : Nat) (f : Plan → Plan) (s : State) : (s.setPlan n f).assoc = s.assoc := rfl
@[simp] theorem State.setPlan_clip (n : Nat) (f : Plan → Plan) (s : State) : (s.setPlan n f).clip = { s.clip with plans := s.clip.plans.modify n (·.map f) } := rfl
@[simp] theorem State.setPlan_guard (n : Nat) (f : Plan → Plan) (s : State) : (s.setPlan n f).guard = s.guard := rfl
@[simp] theorem State.setPlan_report (n : Nat) (f : Plan → Plan) (s : State) : (s.setPlan n f).report = s.report := rfl
@[simp] theorem State.setPlan_status (n : Nat) (f : Plan → Plan) (s : State) : (s.setPlan n f).status = s.status := rfl
@[simp] theorem State.setPlan_tallies (n : Nat) (f : Plan → Plan) (s : State) : (s.setPlan n f).tallies = s.tallies := rfl
@[simp] theorem State.setPlan_attend (n : Nat) (f : Plan → Plan) (s : State) : (s.setPlan n f).attend = s.attend := rfl
@[simp] theorem State.setPlan_wires (n : Nat) (f : Plan → Plan) (s : State) : (s.setPlan n f).wires = s.wires := rfl
@[simp] theorem State.setPlan_draws (n : Nat) (f : Plan → Plan) (s : State) : (s.setPlan n f).draws = s.draws := rfl
@[simp] theorem State.setPlan_pending (n : Nat) (f : Plan → Plan) (s : State) : (s.setPlan n f).pending = s.pending := rfl
@[simp] theorem State.setPlan_gen (n : Nat) (f : Plan → Plan) (s : State) : (s.setPlan n f).gen = s.gen := rfl
@[simp] theorem State.setPlan_mask (n : Nat) (f : Plan → Plan) (s : State) : (s.setPlan n f).mask = s.mask := rfl
@[simp] theorem State.setPlan_now (n : Nat) (f : Plan → Plan) (s : State) : (s.setPlan n f).now = s.now := rfl

@[simp] theorem State.setCopier_time (c : Copier) (s : State) : (s.setCopier c).time = s.time := rfl
@[simp] theorem State.setCopier_control (c : Copier) (s : State) : (s.setCopier c).control = s.control := rfl
@[simp] theorem State.setCopier_intake (c : Copier) (s : State) : (s.setCopier c).intake = s.intake := rfl
@[simp] theorem State.setCopier_engine (c : Copier) (s : State) : (s.setCopier c).engine = s.engine := rfl
@[simp] theorem State.setCopier_sched (c : Copier) (s : State) : (s.setCopier c).sched = s.sched := rfl
@[simp] theorem State.setCopier_assoc (c : Copier) (s : State) : (s.setCopier c).assoc = s.assoc := rfl
@[simp] theorem State.setCopier_clip (c : Copier) (s : State) : (s.setCopier c).clip = { s.clip with copier := c } := rfl
@[simp] theorem State.setCopier_guard (c : Copier) (s : State) : (s.setCopier c).guard = s.guard := rfl
@[simp] theorem State.setCopier_report (c : Copier) (s : State) : (s.setCopier c).report = s.report := rfl
@[simp] theorem State.setCopier_status (c : Copier) (s : State) : (s.setCopier c).status = s.status := rfl
@[simp] theorem State.setCopier_tallies (c : Copier) (s : State) : (s.setCopier c).tallies = s.tallies := rfl
@[simp] theorem State.setCopier_attend (c : Copier) (s : State) : (s.setCopier c).attend = s.attend := rfl
@[simp] theorem State.setCopier_wires (c : Copier) (s : State) : (s.setCopier c).wires = s.wires := rfl
@[simp] theorem State.setCopier_draws (c : Copier) (s : State) : (s.setCopier c).draws = s.draws := rfl
@[simp] theorem State.setCopier_pending (c : Copier) (s : State) : (s.setCopier c).pending = s.pending := rfl
@[simp] theorem State.setCopier_gen (c : Copier) (s : State) : (s.setCopier c).gen = s.gen := rfl
@[simp] theorem State.setCopier_mask (c : Copier) (s : State) : (s.setCopier c).mask = s.mask := rfl
@[simp] theorem State.setCopier_now (c : Copier) (s : State) : (s.setCopier c).now = s.now := rfl

@[simp] theorem State.setStation_time (n : Nat) (f : StationEntry → StationEntry) (s : State) : (s.setStation n f).time = s.time := rfl
@[simp] theorem State.setStation_intake (n : Nat) (f : StationEntry → StationEntry) (s : State) : (s.setStation n f).intake = s.intake := rfl
@[simp] theorem State.setStation_engine (n : Nat) (f : StationEntry → StationEntry) (s : State) : (s.setStation n f).engine = s.engine := rfl
@[simp] theorem State.setStation_sched (n : Nat) (f : StationEntry → StationEntry) (s : State) : (s.setStation n f).sched = s.sched := rfl
@[simp] theorem State.setStation_assoc (n : Nat) (f : StationEntry → StationEntry) (s : State) : (s.setStation n f).assoc = s.assoc := rfl
@[simp] theorem State.setStation_clip (n : Nat) (f : StationEntry → StationEntry) (s : State) : (s.setStation n f).clip = s.clip := rfl
@[simp] theorem State.setStation_guard (n : Nat) (f : StationEntry → StationEntry) (s : State) : (s.setStation n f).guard = s.guard := rfl
@[simp] theorem State.setStation_report (n : Nat) (f : StationEntry → StationEntry) (s : State) : (s.setStation n f).report = s.report := rfl
@[simp] theorem State.setStation_status (n : Nat) (f : StationEntry → StationEntry) (s : State) : (s.setStation n f).status = s.status := rfl
@[simp] theorem State.setStation_tallies (n : Nat) (f : StationEntry → StationEntry) (s : State) : (s.setStation n f).tallies = s.tallies := rfl
@[simp] theorem State.setStation_attend (n : Nat) (f : StationEntry → StationEntry) (s : State) : (s.setStation n f).attend = s.attend := rfl
@[simp] theorem State.setStation_wires (n : Nat) (f : StationEntry → StationEntry) (s : State) : (s.setStation n f).wires = s.wires := rfl
@[simp] theorem State.setStation_draws (n : Nat) (f : StationEntry → StationEntry) (s : State) : (s.setStation n f).draws = s.draws := rfl
@[simp] theorem State.setStation_pending (n : Nat) (f : StationEntry → StationEntry) (s : State) : (s.setStation n f).pending = s.pending := rfl
@[simp] theorem State.setStation_now (n : Nat) (f : StationEntry → StationEntry) (s : State) : (s.setStation n f).now = s.now := rfl

@[simp] theorem State.setGen_time (f : General → General) (s : State) : (s.setGen f).time = s.time := rfl
@[simp] theorem State.setGen_intake (f : General → General) (s : State) : (s.setGen f).intake = s.intake := rfl
@[simp] theorem State.setGen_engine (f : General → General) (s : State) : (s.setGen f).engine = s.engine := rfl
@[simp] theorem State.setGen_sched (f : General → General) (s : State) : (s.setGen f).sched = s.sched := rfl
@[simp] theorem State.setGen_assoc (f : General → General) (s : State) : (s.setGen f).assoc = s.assoc := rfl
@[simp] theorem State.setGen_clip (f : General → General) (s : State) : (s.setGen f).clip = s.clip := rfl
@[simp] theorem State.setGen_guard (f : General → General) (s : State) : (s.setGen f).guard = s.guard := rfl
@[simp] theorem State.setGen_report (f : General → General) (s : State) : (s.setGen f).report = s.report := rfl
@[simp] theorem State.setGen_status (f : General → General) (s : State) : (s.setGen f).status = s.status := rfl
@[simp] theorem State.setGen_tallies (f : General → General) (s : State) : (s.setGen f).tallies = s.tallies := rfl
@[simp] theorem State.setGen_attend (f : General → General) (s : State) : (s.setGen f).attend = s.attend := rfl
@[simp] theorem State.setGen_wires (f : General → General) (s : State) : (s.setGen f).wires = s.wires := rfl
@[simp] theorem State.setGen_draws (f : General → General) (s : State) : (s.setGen f).draws = s.draws := rfl
@[simp] theorem State.setGen_pending (f : General → General) (s : State) : (s.setGen f).pending = s.pending := rfl
@[simp] theorem State.setGen_now (f : General → General) (s : State) : (s.setGen f).now = s.now := rfl

@[simp] theorem State.setLoad_time (f : LoadRec → LoadRec) (s : State) : (s.setLoad f).time = s.time := rfl
@[simp] theorem State.setLoad_control (f : LoadRec → LoadRec) (s : State) : (s.setLoad f).control = { s.control with load := s.control.load.map f } := rfl
@[simp] theorem State.setLoad_intake (f : LoadRec → LoadRec) (s : State) : (s.setLoad f).intake = s.intake := rfl
@[simp] theorem State.setLoad_engine (f : LoadRec → LoadRec) (s : State) : (s.setLoad f).engine = s.engine := rfl
@[simp] theorem State.setLoad_sched (f : LoadRec → LoadRec) (s : State) : (s.setLoad f).sched = s.sched := rfl
@[simp] theorem State.setLoad_assoc (f : LoadRec → LoadRec) (s : State) : (s.setLoad f).assoc = s.assoc := rfl
@[simp] theorem State.setLoad_clip (f : LoadRec → LoadRec) (s : State) : (s.setLoad f).clip = s.clip := rfl
@[simp] theorem State.setLoad_guard (f : LoadRec → LoadRec) (s : State) : (s.setLoad f).guard = s.guard := rfl
@[simp] theorem State.setLoad_report (f : LoadRec → LoadRec) (s : State) : (s.setLoad f).report = s.report := rfl
@[simp] theorem State.setLoad_status (f : LoadRec → LoadRec) (s : State) : (s.setLoad f).status = s.status := rfl
@[simp] theorem State.setLoad_tallies (f : LoadRec → LoadRec) (s : State) : (s.setLoad f).tallies = s.tallies := rfl
@[simp] theorem State.setLoad_attend (f : LoadRec → LoadRec) (s : State) : (s.setLoad f).attend = s.attend := rfl
@[simp] theorem State.setLoad_wires (f : LoadRec → LoadRec) (s : State) : (s.setLoad f).wires = s.wires := rfl
@[simp] theorem State.setLoad_draws (f : LoadRec → LoadRec) (s : State) : (s.setLoad f).draws = s.draws := rfl
@[simp] theorem State.setLoad_pending (f : LoadRec → LoadRec) (s : State) : (s.setLoad f).pending = s.pending := rfl
@[simp] theorem State.setLoad_now (f : LoadRec → LoadRec) (s : State) : (s.setLoad f).now = s.now := rfl

@[simp] theorem State.sendAssoc_time (ms : List AssocMsg) (s : State) : (s.sendAssoc ms).time = s.time := rfl
@[simp] theorem State.sendAssoc_control (ms : List AssocMsg) (s : State) : (s.sendAssoc ms).control = s.control := rfl
@[simp] theorem State.sendAssoc_intake (ms : List AssocMsg) (s : State) : (s.sendAssoc ms).intake = s.intake := rfl
@[simp] theorem State.sendAssoc_engine (ms : List AssocMsg) (s : State) : (s.sendAssoc ms).engine = s.engine := rfl
@[simp] theorem State.sendAssoc_sched (ms : List AssocMsg) (s : State) : (s.sendAssoc ms).sched = s.sched := rfl
@[simp] theorem State.sendAssoc_assoc (ms : List AssocMsg) (s : State) : (s.sendAssoc ms).assoc = s.assoc := rfl
@[simp] theorem State.sendAssoc_clip (ms : List AssocMsg) (s : State) : (s.sendAssoc ms).clip = s.clip := rfl
@[simp] theorem State.sendAssoc_guard (ms : List AssocMsg) (s : State) : (s.sendAssoc ms).guard = s.guard := rfl
@[simp] theorem State.sendAssoc_report (ms : List AssocMsg) (s : State) : (s.sendAssoc ms).report = s.report := rfl
@[simp] theorem State.sendAssoc_status (ms : List AssocMsg) (s : State) : (s.sendAssoc ms).status = s.status := rfl
@[simp] theorem State.sendAssoc_tallies (ms : List AssocMsg) (s : State) : (s.sendAssoc ms).tallies = s.tallies := rfl
@[simp] theorem State.sendAssoc_attend (ms : List AssocMsg) (s : State) : (s.sendAssoc ms).attend = s.attend := rfl
@[simp] theorem State.sendAssoc_wires (ms : List AssocMsg) (s : State) : (s.sendAssoc ms).wires = { s.wires with toAssoc := s.wires.toAssoc ++ ms } := rfl
@[simp] theorem State.sendAssoc_draws (ms : List AssocMsg) (s : State) : (s.sendAssoc ms).draws = s.draws := rfl
@[simp] theorem State.sendAssoc_pending (ms : List AssocMsg) (s : State) : (s.sendAssoc ms).pending = s.pending := rfl
@[simp] theorem State.sendAssoc_gen (ms : List AssocMsg) (s : State) : (s.sendAssoc ms).gen = s.gen := rfl
@[simp] theorem State.sendAssoc_mask (ms : List AssocMsg) (s : State) : (s.sendAssoc ms).mask = s.mask := rfl
@[simp] theorem State.sendAssoc_now (ms : List AssocMsg) (s : State) : (s.sendAssoc ms).now = s.now := rfl

@[simp] theorem State.askPins_time (ms : List PinMsg) (s : State) : (s.askPins ms).time = s.time := rfl
@[simp] theorem State.askPins_control (ms : List PinMsg) (s : State) : (s.askPins ms).control = s.control := rfl
@[simp] theorem State.askPins_intake (ms : List PinMsg) (s : State) : (s.askPins ms).intake = s.intake := rfl
@[simp] theorem State.askPins_engine (ms : List PinMsg) (s : State) : (s.askPins ms).engine = s.engine := rfl
@[simp] theorem State.askPins_sched (ms : List PinMsg) (s : State) : (s.askPins ms).sched = s.sched := rfl
@[simp] theorem State.askPins_assoc (ms : List PinMsg) (s : State) : (s.askPins ms).assoc = s.assoc := rfl
@[simp] theorem State.askPins_clip (ms : List PinMsg) (s : State) : (s.askPins ms).clip = s.clip := rfl
@[simp] theorem State.askPins_guard (ms : List PinMsg) (s : State) : (s.askPins ms).guard = s.guard := rfl
@[simp] theorem State.askPins_report (ms : List PinMsg) (s : State) : (s.askPins ms).report = s.report := rfl
@[simp] theorem State.askPins_status (ms : List PinMsg) (s : State) : (s.askPins ms).status = s.status := rfl
@[simp] theorem State.askPins_tallies (ms : List PinMsg) (s : State) : (s.askPins ms).tallies = s.tallies := rfl
@[simp] theorem State.askPins_attend (ms : List PinMsg) (s : State) : (s.askPins ms).attend = s.attend := rfl
@[simp] theorem State.askPins_wires (ms : List PinMsg) (s : State) : (s.askPins ms).wires = { s.wires with pins := s.wires.pins ++ ms } := rfl
@[simp] theorem State.askPins_draws (ms : List PinMsg) (s : State) : (s.askPins ms).draws = s.draws := rfl
@[simp] theorem State.askPins_pending (ms : List PinMsg) (s : State) : (s.askPins ms).pending = s.pending := rfl
@[simp] theorem State.askPins_gen (ms : List PinMsg) (s : State) : (s.askPins ms).gen = s.gen := rfl
@[simp] theorem State.askPins_mask (ms : List PinMsg) (s : State) : (s.askPins ms).mask = s.mask := rfl
@[simp] theorem State.askPins_now (ms : List PinMsg) (s : State) : (s.askPins ms).now = s.now := rfl

@[simp] theorem State.tellSlotFree_time (n : Nat) (s : State) : (s.tellSlotFree n).time = s.time := rfl
@[simp] theorem State.tellSlotFree_control (n : Nat) (s : State) : (s.tellSlotFree n).control = s.control := rfl
@[simp] theorem State.tellSlotFree_intake (n : Nat) (s : State) : (s.tellSlotFree n).intake = s.intake := rfl
@[simp] theorem State.tellSlotFree_engine (n : Nat) (s : State) : (s.tellSlotFree n).engine = s.engine := rfl
@[simp] theorem State.tellSlotFree_sched (n : Nat) (s : State) : (s.tellSlotFree n).sched = s.sched := rfl
@[simp] theorem State.tellSlotFree_assoc (n : Nat) (s : State) : (s.tellSlotFree n).assoc = s.assoc := rfl
@[simp] theorem State.tellSlotFree_clip (n : Nat) (s : State) : (s.tellSlotFree n).clip = s.clip := rfl
@[simp] theorem State.tellSlotFree_guard (n : Nat) (s : State) : (s.tellSlotFree n).guard = s.guard := rfl
@[simp] theorem State.tellSlotFree_report (n : Nat) (s : State) : (s.tellSlotFree n).report = s.report := rfl
@[simp] theorem State.tellSlotFree_status (n : Nat) (s : State) : (s.tellSlotFree n).status = s.status := rfl
@[simp] theorem State.tellSlotFree_tallies (n : Nat) (s : State) : (s.tellSlotFree n).tallies = s.tallies := rfl
@[simp] theorem State.tellSlotFree_attend (n : Nat) (s : State) : (s.tellSlotFree n).attend = s.attend := rfl
@[simp] theorem State.tellSlotFree_wires (n : Nat) (s : State) : (s.tellSlotFree n).wires = { s.wires with slotFree := s.wires.slotFree ++ [n] } := rfl
@[simp] theorem State.tellSlotFree_draws (n : Nat) (s : State) : (s.tellSlotFree n).draws = s.draws := rfl
@[simp] theorem State.tellSlotFree_pending (n : Nat) (s : State) : (s.tellSlotFree n).pending = s.pending := rfl
@[simp] theorem State.tellSlotFree_gen (n : Nat) (s : State) : (s.tellSlotFree n).gen = s.gen := rfl
@[simp] theorem State.tellSlotFree_mask (n : Nat) (s : State) : (s.tellSlotFree n).mask = s.mask := rfl
@[simp] theorem State.tellSlotFree_now (n : Nat) (s : State) : (s.tellSlotFree n).now = s.now := rfl

@[simp] theorem State.askState_time (n : Nat) (t : EventState) (s : State) : (s.askState n t).time = s.time := rfl
@[simp] theorem State.askState_control (n : Nat) (t : EventState) (s : State) : (s.askState n t).control = s.control := rfl
@[simp] theorem State.askState_intake (n : Nat) (t : EventState) (s : State) : (s.askState n t).intake = s.intake := rfl
@[simp] theorem State.askState_engine (n : Nat) (t : EventState) (s : State) : (s.askState n t).engine = s.engine := rfl
@[simp] theorem State.askState_sched (n : Nat) (t : EventState) (s : State) : (s.askState n t).sched = s.sched := rfl
@[simp] theorem State.askState_assoc (n : Nat) (t : EventState) (s : State) : (s.askState n t).assoc = s.assoc := rfl
@[simp] theorem State.askState_clip (n : Nat) (t : EventState) (s : State) : (s.askState n t).clip = s.clip := rfl
@[simp] theorem State.askState_guard (n : Nat) (t : EventState) (s : State) : (s.askState n t).guard = s.guard := rfl
@[simp] theorem State.askState_report (n : Nat) (t : EventState) (s : State) : (s.askState n t).report = s.report := rfl
@[simp] theorem State.askState_status (n : Nat) (t : EventState) (s : State) : (s.askState n t).status = s.status := rfl
@[simp] theorem State.askState_tallies (n : Nat) (t : EventState) (s : State) : (s.askState n t).tallies = s.tallies := rfl
@[simp] theorem State.askState_attend (n : Nat) (t : EventState) (s : State) : (s.askState n t).attend = s.attend := rfl
@[simp] theorem State.askState_wires (n : Nat) (t : EventState) (s : State) : (s.askState n t).wires = { s.wires with stateRequests := s.wires.stateRequests ++ [(n, t)] } := rfl
@[simp] theorem State.askState_draws (n : Nat) (t : EventState) (s : State) : (s.askState n t).draws = s.draws := rfl
@[simp] theorem State.askState_pending (n : Nat) (t : EventState) (s : State) : (s.askState n t).pending = s.pending := rfl
@[simp] theorem State.askState_gen (n : Nat) (t : EventState) (s : State) : (s.askState n t).gen = s.gen := rfl
@[simp] theorem State.askState_mask (n : Nat) (t : EventState) (s : State) : (s.askState n t).mask = s.mask := rfl
@[simp] theorem State.askState_now (n : Nat) (t : EventState) (s : State) : (s.askState n t).now = s.now := rfl

@[simp] theorem State.tellSchedule_time (p : PartState) (s : State) : (s.tellSchedule p).time = s.time := rfl
@[simp] theorem State.tellSchedule_control (p : PartState) (s : State) : (s.tellSchedule p).control = s.control := rfl
@[simp] theorem State.tellSchedule_intake (p : PartState) (s : State) : (s.tellSchedule p).intake = s.intake := rfl
@[simp] theorem State.tellSchedule_engine (p : PartState) (s : State) : (s.tellSchedule p).engine = s.engine := rfl
@[simp] theorem State.tellSchedule_sched (p : PartState) (s : State) : (s.tellSchedule p).sched = s.sched := rfl
@[simp] theorem State.tellSchedule_assoc (p : PartState) (s : State) : (s.tellSchedule p).assoc = s.assoc := rfl
@[simp] theorem State.tellSchedule_clip (p : PartState) (s : State) : (s.tellSchedule p).clip = s.clip := rfl
@[simp] theorem State.tellSchedule_guard (p : PartState) (s : State) : (s.tellSchedule p).guard = s.guard := rfl
@[simp] theorem State.tellSchedule_report (p : PartState) (s : State) : (s.tellSchedule p).report = s.report := rfl
@[simp] theorem State.tellSchedule_status (p : PartState) (s : State) : (s.tellSchedule p).status = s.status := rfl
@[simp] theorem State.tellSchedule_tallies (p : PartState) (s : State) : (s.tellSchedule p).tallies = s.tallies := rfl
@[simp] theorem State.tellSchedule_attend (p : PartState) (s : State) : (s.tellSchedule p).attend = s.attend := rfl
@[simp] theorem State.tellSchedule_wires (p : PartState) (s : State) : (s.tellSchedule p).wires = { s.wires with sched := s.wires.sched ++ [SchedMsg.part p] } := rfl
@[simp] theorem State.tellSchedule_draws (p : PartState) (s : State) : (s.tellSchedule p).draws = s.draws := rfl
@[simp] theorem State.tellSchedule_pending (p : PartState) (s : State) : (s.tellSchedule p).pending = s.pending := rfl
@[simp] theorem State.tellSchedule_gen (p : PartState) (s : State) : (s.tellSchedule p).gen = s.gen := rfl
@[simp] theorem State.tellSchedule_mask (p : PartState) (s : State) : (s.tellSchedule p).mask = s.mask := rfl
@[simp] theorem State.tellSchedule_now (p : PartState) (s : State) : (s.tellSchedule p).now = s.now := rfl

@[simp] theorem State.askRewrite_time (s : State) : (s.askRewrite).time = s.time := rfl
@[simp] theorem State.askRewrite_control (s : State) : (s.askRewrite).control = s.control := rfl
@[simp] theorem State.askRewrite_intake (s : State) : (s.askRewrite).intake = s.intake := rfl
@[simp] theorem State.askRewrite_engine (s : State) : (s.askRewrite).engine = s.engine := rfl
@[simp] theorem State.askRewrite_sched (s : State) : (s.askRewrite).sched = s.sched := rfl
@[simp] theorem State.askRewrite_assoc (s : State) : (s.askRewrite).assoc = s.assoc := rfl
@[simp] theorem State.askRewrite_clip (s : State) : (s.askRewrite).clip = s.clip := rfl
@[simp] theorem State.askRewrite_guard (s : State) : (s.askRewrite).guard = s.guard := rfl
@[simp] theorem State.askRewrite_report (s : State) : (s.askRewrite).report = s.report := rfl
@[simp] theorem State.askRewrite_status (s : State) : (s.askRewrite).status = { s.status with rewrite := true } := rfl
@[simp] theorem State.askRewrite_tallies (s : State) : (s.askRewrite).tallies = s.tallies := rfl
@[simp] theorem State.askRewrite_attend (s : State) : (s.askRewrite).attend = s.attend := rfl
@[simp] theorem State.askRewrite_wires (s : State) : (s.askRewrite).wires = s.wires := rfl
@[simp] theorem State.askRewrite_draws (s : State) : (s.askRewrite).draws = s.draws := rfl
@[simp] theorem State.askRewrite_pending (s : State) : (s.askRewrite).pending = s.pending := rfl
@[simp] theorem State.askRewrite_gen (s : State) : (s.askRewrite).gen = s.gen := rfl
@[simp] theorem State.askRewrite_mask (s : State) : (s.askRewrite).mask = s.mask := rfl
@[simp] theorem State.askRewrite_now (s : State) : (s.askRewrite).now = s.now := rfl

@[simp] theorem State.putResult_time (r : Result) (s : State) : (s.putResult r).time = s.time := rfl
@[simp] theorem State.putResult_control (r : Result) (s : State) : (s.putResult r).control = s.control := rfl
@[simp] theorem State.putResult_intake (r : Result) (s : State) : (s.putResult r).intake = s.intake := rfl
@[simp] theorem State.putResult_engine (r : Result) (s : State) : (s.putResult r).engine = s.engine := rfl
@[simp] theorem State.putResult_sched (r : Result) (s : State) : (s.putResult r).sched = s.sched := rfl
@[simp] theorem State.putResult_assoc (r : Result) (s : State) : (s.putResult r).assoc = s.assoc := rfl
@[simp] theorem State.putResult_clip (r : Result) (s : State) : (s.putResult r).clip = s.clip := rfl
@[simp] theorem State.putResult_guard (r : Result) (s : State) : (s.putResult r).guard = s.guard := rfl
@[simp] theorem State.putResult_report (r : Result) (s : State) : (s.putResult r).report = s.report := rfl
@[simp] theorem State.putResult_status (r : Result) (s : State) : (s.putResult r).status = { s.status with result := some r } := rfl
@[simp] theorem State.putResult_tallies (r : Result) (s : State) : (s.putResult r).tallies = s.tallies := rfl
@[simp] theorem State.putResult_attend (r : Result) (s : State) : (s.putResult r).attend = s.attend := rfl
@[simp] theorem State.putResult_wires (r : Result) (s : State) : (s.putResult r).wires = s.wires := rfl
@[simp] theorem State.putResult_draws (r : Result) (s : State) : (s.putResult r).draws = s.draws := rfl
@[simp] theorem State.putResult_pending (r : Result) (s : State) : (s.putResult r).pending = s.pending := rfl
@[simp] theorem State.putResult_gen (r : Result) (s : State) : (s.putResult r).gen = s.gen := rfl
@[simp] theorem State.putResult_mask (r : Result) (s : State) : (s.putResult r).mask = s.mask := rfl
@[simp] theorem State.putResult_now (r : Result) (s : State) : (s.putResult r).now = s.now := rfl

@[simp] theorem State.settle_time (s : State) : (s.settle).time = s.time := rfl
@[simp] theorem State.settle_control (s : State) : (s.settle).control = s.control := rfl
@[simp] theorem State.settle_intake (s : State) : (s.settle).intake = s.intake := rfl
@[simp] theorem State.settle_engine (s : State) : (s.settle).engine = s.engine := rfl
@[simp] theorem State.settle_sched (s : State) : (s.settle).sched = s.sched := rfl
@[simp] theorem State.settle_assoc (s : State) : (s.settle).assoc = s.assoc := rfl
@[simp] theorem State.settle_clip (s : State) : (s.settle).clip = s.clip := rfl
@[simp] theorem State.settle_guard (s : State) : (s.settle).guard = s.guard := rfl
@[simp] theorem State.settle_report (s : State) : (s.settle).report = s.report := rfl
@[simp] theorem State.settle_status (s : State) : (s.settle).status = s.status.choose := rfl
@[simp] theorem State.settle_tallies (s : State) : (s.settle).tallies = s.tallies := rfl
@[simp] theorem State.settle_attend (s : State) : (s.settle).attend = s.attend := rfl
@[simp] theorem State.settle_wires (s : State) : (s.settle).wires = s.wires := rfl
@[simp] theorem State.settle_draws (s : State) : (s.settle).draws = s.draws := rfl
@[simp] theorem State.settle_pending (s : State) : (s.settle).pending = s.pending := rfl
@[simp] theorem State.settle_gen (s : State) : (s.settle).gen = s.gen := rfl
@[simp] theorem State.settle_mask (s : State) : (s.settle).mask = s.mask := rfl
@[simp] theorem State.settle_now (s : State) : (s.settle).now = s.now := rfl

@[simp] theorem State.maskChanged_time (s : State) : (s.maskChanged).time = s.time := rfl
@[simp] theorem State.maskChanged_control (s : State) : (s.maskChanged).control = s.control := rfl
@[simp] theorem State.maskChanged_intake (s : State) : (s.maskChanged).intake = s.intake := rfl
@[simp] theorem State.maskChanged_engine (s : State) : (s.maskChanged).engine = s.engine := rfl
@[simp] theorem State.maskChanged_sched (s : State) : (s.maskChanged).sched = s.sched := rfl
@[simp] theorem State.maskChanged_assoc (s : State) : (s.maskChanged).assoc = s.assoc := rfl
@[simp] theorem State.maskChanged_clip (s : State) : (s.maskChanged).clip = s.clip := rfl
@[simp] theorem State.maskChanged_guard (s : State) : (s.maskChanged).guard = s.guard := rfl
@[simp] theorem State.maskChanged_report (s : State) : (s.maskChanged).report = s.report := rfl
@[simp] theorem State.maskChanged_status (s : State) : (s.maskChanged).status = { s.status with irq := irqLevel s.status.pending s.mask, rewrite := true } := rfl
@[simp] theorem State.maskChanged_tallies (s : State) : (s.maskChanged).tallies = s.tallies := rfl
@[simp] theorem State.maskChanged_attend (s : State) : (s.maskChanged).attend = s.attend := rfl
@[simp] theorem State.maskChanged_wires (s : State) : (s.maskChanged).wires = s.wires := rfl
@[simp] theorem State.maskChanged_draws (s : State) : (s.maskChanged).draws = s.draws := rfl
@[simp] theorem State.maskChanged_pending (s : State) : (s.maskChanged).pending = s.pending := rfl
@[simp] theorem State.maskChanged_gen (s : State) : (s.maskChanged).gen = s.gen := rfl
@[simp] theorem State.maskChanged_mask (s : State) : (s.maskChanged).mask = s.mask := rfl
@[simp] theorem State.maskChanged_now (s : State) : (s.maskChanged).now = s.now := rfl

@[simp] theorem State.countBy_time (t : Tally) (k : Nat) (s : State) : (s.countBy t k).time = s.time := rfl
@[simp] theorem State.countBy_control (t : Tally) (k : Nat) (s : State) : (s.countBy t k).control = s.control := rfl
@[simp] theorem State.countBy_intake (t : Tally) (k : Nat) (s : State) : (s.countBy t k).intake = s.intake := rfl
@[simp] theorem State.countBy_engine (t : Tally) (k : Nat) (s : State) : (s.countBy t k).engine = s.engine := rfl
@[simp] theorem State.countBy_sched (t : Tally) (k : Nat) (s : State) : (s.countBy t k).sched = s.sched := rfl
@[simp] theorem State.countBy_assoc (t : Tally) (k : Nat) (s : State) : (s.countBy t k).assoc = s.assoc := rfl
@[simp] theorem State.countBy_clip (t : Tally) (k : Nat) (s : State) : (s.countBy t k).clip = s.clip := rfl
@[simp] theorem State.countBy_guard (t : Tally) (k : Nat) (s : State) : (s.countBy t k).guard = s.guard := rfl
@[simp] theorem State.countBy_report (t : Tally) (k : Nat) (s : State) : (s.countBy t k).report = s.report := rfl
@[simp] theorem State.countBy_status (t : Tally) (k : Nat) (s : State) : (s.countBy t k).status = s.status := rfl
@[simp] theorem State.countBy_tallies (t : Tally) (k : Nat) (s : State) : (s.countBy t k).tallies = { s.tallies with global := s.tallies.global.modify t.slot (saturate k) } := rfl
@[simp] theorem State.countBy_attend (t : Tally) (k : Nat) (s : State) : (s.countBy t k).attend = s.attend := rfl
@[simp] theorem State.countBy_wires (t : Tally) (k : Nat) (s : State) : (s.countBy t k).wires = s.wires := rfl
@[simp] theorem State.countBy_draws (t : Tally) (k : Nat) (s : State) : (s.countBy t k).draws = s.draws := rfl
@[simp] theorem State.countBy_pending (t : Tally) (k : Nat) (s : State) : (s.countBy t k).pending = s.pending := rfl
@[simp] theorem State.countBy_gen (t : Tally) (k : Nat) (s : State) : (s.countBy t k).gen = s.gen := rfl
@[simp] theorem State.countBy_mask (t : Tally) (k : Nat) (s : State) : (s.countBy t k).mask = s.mask := rfl
@[simp] theorem State.countBy_now (t : Tally) (k : Nat) (s : State) : (s.countBy t k).now = s.now := rfl

@[simp] theorem State.count_time (t : Tally) (s : State) : (s.count t).time = s.time := rfl
@[simp] theorem State.count_control (t : Tally) (s : State) : (s.count t).control = s.control := rfl
@[simp] theorem State.count_intake (t : Tally) (s : State) : (s.count t).intake = s.intake := rfl
@[simp] theorem State.count_engine (t : Tally) (s : State) : (s.count t).engine = s.engine := rfl
@[simp] theorem State.count_sched (t : Tally) (s : State) : (s.count t).sched = s.sched := rfl
@[simp] theorem State.count_assoc (t : Tally) (s : State) : (s.count t).assoc = s.assoc := rfl
@[simp] theorem State.count_clip (t : Tally) (s : State) : (s.count t).clip = s.clip := rfl
@[simp] theorem State.count_guard (t : Tally) (s : State) : (s.count t).guard = s.guard := rfl
@[simp] theorem State.count_report (t : Tally) (s : State) : (s.count t).report = s.report := rfl
@[simp] theorem State.count_status (t : Tally) (s : State) : (s.count t).status = s.status := rfl
@[simp] theorem State.count_tallies (t : Tally) (s : State) : (s.count t).tallies = { s.tallies with global := s.tallies.global.modify t.slot (saturate 1) } := rfl
@[simp] theorem State.count_attend (t : Tally) (s : State) : (s.count t).attend = s.attend := rfl
@[simp] theorem State.count_wires (t : Tally) (s : State) : (s.count t).wires = s.wires := rfl
@[simp] theorem State.count_draws (t : Tally) (s : State) : (s.count t).draws = s.draws := rfl
@[simp] theorem State.count_pending (t : Tally) (s : State) : (s.count t).pending = s.pending := rfl
@[simp] theorem State.count_gen (t : Tally) (s : State) : (s.count t).gen = s.gen := rfl
@[simp] theorem State.count_mask (t : Tally) (s : State) : (s.count t).mask = s.mask := rfl
@[simp] theorem State.count_now (t : Tally) (s : State) : (s.count t).now = s.now := rfl

@[simp] theorem State.countStation_time (n : Nat) (f : StationTallies → StationTallies) (s : State) : (s.countStation n f).time = s.time := rfl
@[simp] theorem State.countStation_control (n : Nat) (f : StationTallies → StationTallies) (s : State) : (s.countStation n f).control = s.control := rfl
@[simp] theorem State.countStation_intake (n : Nat) (f : StationTallies → StationTallies) (s : State) : (s.countStation n f).intake = s.intake := rfl
@[simp] theorem State.countStation_engine (n : Nat) (f : StationTallies → StationTallies) (s : State) : (s.countStation n f).engine = s.engine := rfl
@[simp] theorem State.countStation_sched (n : Nat) (f : StationTallies → StationTallies) (s : State) : (s.countStation n f).sched = s.sched := rfl
@[simp] theorem State.countStation_assoc (n : Nat) (f : StationTallies → StationTallies) (s : State) : (s.countStation n f).assoc = s.assoc := rfl
@[simp] theorem State.countStation_clip (n : Nat) (f : StationTallies → StationTallies) (s : State) : (s.countStation n f).clip = s.clip := rfl
@[simp] theorem State.countStation_guard (n : Nat) (f : StationTallies → StationTallies) (s : State) : (s.countStation n f).guard = s.guard := rfl
@[simp] theorem State.countStation_report (n : Nat) (f : StationTallies → StationTallies) (s : State) : (s.countStation n f).report = s.report := rfl
@[simp] theorem State.countStation_status (n : Nat) (f : StationTallies → StationTallies) (s : State) : (s.countStation n f).status = s.status := rfl
@[simp] theorem State.countStation_tallies (n : Nat) (f : StationTallies → StationTallies) (s : State) : (s.countStation n f).tallies = { s.tallies with stations := s.tallies.stations.modify n f } := rfl
@[simp] theorem State.countStation_attend (n : Nat) (f : StationTallies → StationTallies) (s : State) : (s.countStation n f).attend = s.attend := rfl
@[simp] theorem State.countStation_wires (n : Nat) (f : StationTallies → StationTallies) (s : State) : (s.countStation n f).wires = s.wires := rfl
@[simp] theorem State.countStation_draws (n : Nat) (f : StationTallies → StationTallies) (s : State) : (s.countStation n f).draws = s.draws := rfl
@[simp] theorem State.countStation_pending (n : Nat) (f : StationTallies → StationTallies) (s : State) : (s.countStation n f).pending = s.pending := rfl
@[simp] theorem State.countStation_gen (n : Nat) (f : StationTallies → StationTallies) (s : State) : (s.countStation n f).gen = s.gen := rfl
@[simp] theorem State.countStation_mask (n : Nat) (f : StationTallies → StationTallies) (s : State) : (s.countStation n f).mask = s.mask := rfl
@[simp] theorem State.countStation_now (n : Nat) (f : StationTallies → StationTallies) (s : State) : (s.countStation n f).now = s.now := rfl

@[simp] theorem State.sendRead_time (o : Owner) (a b : Nat) (s : State) : (s.sendRead o a b).time = s.time := rfl
@[simp] theorem State.sendRead_control (o : Owner) (a b : Nat) (s : State) : (s.sendRead o a b).control = s.control := rfl
@[simp] theorem State.sendRead_intake (o : Owner) (a b : Nat) (s : State) : (s.sendRead o a b).intake = s.intake := rfl
@[simp] theorem State.sendRead_engine (o : Owner) (a b : Nat) (s : State) : (s.sendRead o a b).engine = s.engine := rfl
@[simp] theorem State.sendRead_sched (o : Owner) (a b : Nat) (s : State) : (s.sendRead o a b).sched = s.sched := rfl
@[simp] theorem State.sendRead_assoc (o : Owner) (a b : Nat) (s : State) : (s.sendRead o a b).assoc = s.assoc := rfl
@[simp] theorem State.sendRead_clip (o : Owner) (a b : Nat) (s : State) : (s.sendRead o a b).clip = s.clip := rfl
@[simp] theorem State.sendRead_report (o : Owner) (a b : Nat) (s : State) : (s.sendRead o a b).report = s.report := rfl
@[simp] theorem State.sendRead_status (o : Owner) (a b : Nat) (s : State) : (s.sendRead o a b).status = s.status := rfl
@[simp] theorem State.sendRead_tallies (o : Owner) (a b : Nat) (s : State) : (s.sendRead o a b).tallies = s.tallies := rfl
@[simp] theorem State.sendRead_attend (o : Owner) (a b : Nat) (s : State) : (s.sendRead o a b).attend = s.attend := rfl
@[simp] theorem State.sendRead_wires (o : Owner) (a b : Nat) (s : State) : (s.sendRead o a b).wires = s.wires := rfl
@[simp] theorem State.sendRead_draws (o : Owner) (a b : Nat) (s : State) : (s.sendRead o a b).draws = s.draws := rfl
@[simp] theorem State.sendRead_pending (o : Owner) (a b : Nat) (s : State) : (s.sendRead o a b).pending = s.pending := rfl
@[simp] theorem State.sendRead_gen (o : Owner) (a b : Nat) (s : State) : (s.sendRead o a b).gen = s.gen := rfl
@[simp] theorem State.sendRead_mask (o : Owner) (a b : Nat) (s : State) : (s.sendRead o a b).mask = s.mask := rfl
@[simp] theorem State.sendRead_now (o : Owner) (a b : Nat) (s : State) : (s.sendRead o a b).now = s.now := rfl

@[simp] theorem State.sendWrite_time (o : Owner) (a : Nat) (b : List Byte) (s : State) : (s.sendWrite o a b).time = s.time := rfl
@[simp] theorem State.sendWrite_control (o : Owner) (a : Nat) (b : List Byte) (s : State) : (s.sendWrite o a b).control = s.control := rfl
@[simp] theorem State.sendWrite_intake (o : Owner) (a : Nat) (b : List Byte) (s : State) : (s.sendWrite o a b).intake = s.intake := rfl
@[simp] theorem State.sendWrite_engine (o : Owner) (a : Nat) (b : List Byte) (s : State) : (s.sendWrite o a b).engine = s.engine := rfl
@[simp] theorem State.sendWrite_sched (o : Owner) (a : Nat) (b : List Byte) (s : State) : (s.sendWrite o a b).sched = s.sched := rfl
@[simp] theorem State.sendWrite_assoc (o : Owner) (a : Nat) (b : List Byte) (s : State) : (s.sendWrite o a b).assoc = s.assoc := rfl
@[simp] theorem State.sendWrite_clip (o : Owner) (a : Nat) (b : List Byte) (s : State) : (s.sendWrite o a b).clip = s.clip := rfl
@[simp] theorem State.sendWrite_report (o : Owner) (a : Nat) (b : List Byte) (s : State) : (s.sendWrite o a b).report = s.report := rfl
@[simp] theorem State.sendWrite_status (o : Owner) (a : Nat) (b : List Byte) (s : State) : (s.sendWrite o a b).status = s.status := rfl
@[simp] theorem State.sendWrite_tallies (o : Owner) (a : Nat) (b : List Byte) (s : State) : (s.sendWrite o a b).tallies = s.tallies := rfl
@[simp] theorem State.sendWrite_attend (o : Owner) (a : Nat) (b : List Byte) (s : State) : (s.sendWrite o a b).attend = s.attend := rfl
@[simp] theorem State.sendWrite_wires (o : Owner) (a : Nat) (b : List Byte) (s : State) : (s.sendWrite o a b).wires = s.wires := rfl
@[simp] theorem State.sendWrite_draws (o : Owner) (a : Nat) (b : List Byte) (s : State) : (s.sendWrite o a b).draws = s.draws := rfl
@[simp] theorem State.sendWrite_pending (o : Owner) (a : Nat) (b : List Byte) (s : State) : (s.sendWrite o a b).pending = s.pending := rfl
@[simp] theorem State.sendWrite_gen (o : Owner) (a : Nat) (b : List Byte) (s : State) : (s.sendWrite o a b).gen = s.gen := rfl
@[simp] theorem State.sendWrite_mask (o : Owner) (a : Nat) (b : List Byte) (s : State) : (s.sendWrite o a b).mask = s.mask := rfl
@[simp] theorem State.sendWrite_now (o : Owner) (a : Nat) (b : List Byte) (s : State) : (s.sendWrite o a b).now = s.now := rfl

@[simp] theorem State.sendPass_time (r : Request) (s : State) : (s.sendPass r).time = s.time := rfl
@[simp] theorem State.sendPass_control (r : Request) (s : State) : (s.sendPass r).control = s.control := rfl
@[simp] theorem State.sendPass_intake (r : Request) (s : State) : (s.sendPass r).intake = s.intake := rfl
@[simp] theorem State.sendPass_engine (r : Request) (s : State) : (s.sendPass r).engine = s.engine := rfl
@[simp] theorem State.sendPass_sched (r : Request) (s : State) : (s.sendPass r).sched = s.sched := rfl
@[simp] theorem State.sendPass_assoc (r : Request) (s : State) : (s.sendPass r).assoc = s.assoc := rfl
@[simp] theorem State.sendPass_clip (r : Request) (s : State) : (s.sendPass r).clip = s.clip := rfl
@[simp] theorem State.sendPass_report (r : Request) (s : State) : (s.sendPass r).report = s.report := rfl
@[simp] theorem State.sendPass_status (r : Request) (s : State) : (s.sendPass r).status = s.status := rfl
@[simp] theorem State.sendPass_tallies (r : Request) (s : State) : (s.sendPass r).tallies = s.tallies := rfl
@[simp] theorem State.sendPass_attend (r : Request) (s : State) : (s.sendPass r).attend = s.attend := rfl
@[simp] theorem State.sendPass_wires (r : Request) (s : State) : (s.sendPass r).wires = s.wires := rfl
@[simp] theorem State.sendPass_draws (r : Request) (s : State) : (s.sendPass r).draws = s.draws := rfl
@[simp] theorem State.sendPass_pending (r : Request) (s : State) : (s.sendPass r).pending = s.pending := rfl
@[simp] theorem State.sendPass_gen (r : Request) (s : State) : (s.sendPass r).gen = s.gen := rfl
@[simp] theorem State.sendPass_mask (r : Request) (s : State) : (s.sendPass r).mask = s.mask := rfl
@[simp] theorem State.sendPass_now (r : Request) (s : State) : (s.sendPass r).now = s.now := rfl

@[simp] theorem State.dropOutstanding_time (p : Owner → Bool) (s : State) : (s.dropOutstanding p).time = s.time := rfl
@[simp] theorem State.dropOutstanding_control (p : Owner → Bool) (s : State) : (s.dropOutstanding p).control = s.control := rfl
@[simp] theorem State.dropOutstanding_intake (p : Owner → Bool) (s : State) : (s.dropOutstanding p).intake = s.intake := rfl
@[simp] theorem State.dropOutstanding_engine (p : Owner → Bool) (s : State) : (s.dropOutstanding p).engine = s.engine := rfl
@[simp] theorem State.dropOutstanding_sched (p : Owner → Bool) (s : State) : (s.dropOutstanding p).sched = s.sched := rfl
@[simp] theorem State.dropOutstanding_assoc (p : Owner → Bool) (s : State) : (s.dropOutstanding p).assoc = s.assoc := rfl
@[simp] theorem State.dropOutstanding_clip (p : Owner → Bool) (s : State) : (s.dropOutstanding p).clip = s.clip := rfl
@[simp] theorem State.dropOutstanding_report (p : Owner → Bool) (s : State) : (s.dropOutstanding p).report = s.report := rfl
@[simp] theorem State.dropOutstanding_status (p : Owner → Bool) (s : State) : (s.dropOutstanding p).status = s.status := rfl
@[simp] theorem State.dropOutstanding_tallies (p : Owner → Bool) (s : State) : (s.dropOutstanding p).tallies = s.tallies := rfl
@[simp] theorem State.dropOutstanding_attend (p : Owner → Bool) (s : State) : (s.dropOutstanding p).attend = s.attend := rfl
@[simp] theorem State.dropOutstanding_wires (p : Owner → Bool) (s : State) : (s.dropOutstanding p).wires = s.wires := rfl
@[simp] theorem State.dropOutstanding_draws (p : Owner → Bool) (s : State) : (s.dropOutstanding p).draws = s.draws := rfl
@[simp] theorem State.dropOutstanding_pending (p : Owner → Bool) (s : State) : (s.dropOutstanding p).pending = s.pending := rfl
@[simp] theorem State.dropOutstanding_gen (p : Owner → Bool) (s : State) : (s.dropOutstanding p).gen = s.gen := rfl
@[simp] theorem State.dropOutstanding_mask (p : Owner → Bool) (s : State) : (s.dropOutstanding p).mask = s.mask := rfl
@[simp] theorem State.dropOutstanding_now (p : Owner → Bool) (s : State) : (s.dropOutstanding p).now = s.now := rfl

@[simp] theorem State.announceRange_time (a b : Nat) (s : State) : (s.announceRange a b).time = s.time := rfl
@[simp] theorem State.announceRange_control (a b : Nat) (s : State) : (s.announceRange a b).control = s.control := rfl
@[simp] theorem State.announceRange_intake (a b : Nat) (s : State) : (s.announceRange a b).intake = s.intake := rfl
@[simp] theorem State.announceRange_engine (a b : Nat) (s : State) : (s.announceRange a b).engine = s.engine := rfl
@[simp] theorem State.announceRange_sched (a b : Nat) (s : State) : (s.announceRange a b).sched = s.sched := rfl
@[simp] theorem State.announceRange_assoc (a b : Nat) (s : State) : (s.announceRange a b).assoc = s.assoc := rfl
@[simp] theorem State.announceRange_clip (a b : Nat) (s : State) : (s.announceRange a b).clip = s.clip := rfl
@[simp] theorem State.announceRange_guard (a b : Nat) (s : State) : (s.announceRange a b).guard = { s.guard with range := some (a, b) } := rfl
@[simp] theorem State.announceRange_report (a b : Nat) (s : State) : (s.announceRange a b).report = s.report := rfl
@[simp] theorem State.announceRange_status (a b : Nat) (s : State) : (s.announceRange a b).status = s.status := rfl
@[simp] theorem State.announceRange_tallies (a b : Nat) (s : State) : (s.announceRange a b).tallies = s.tallies := rfl
@[simp] theorem State.announceRange_attend (a b : Nat) (s : State) : (s.announceRange a b).attend = s.attend := rfl
@[simp] theorem State.announceRange_wires (a b : Nat) (s : State) : (s.announceRange a b).wires = s.wires := rfl
@[simp] theorem State.announceRange_draws (a b : Nat) (s : State) : (s.announceRange a b).draws = s.draws := rfl
@[simp] theorem State.announceRange_pending (a b : Nat) (s : State) : (s.announceRange a b).pending = s.pending := rfl
@[simp] theorem State.announceRange_gen (a b : Nat) (s : State) : (s.announceRange a b).gen = s.gen := rfl
@[simp] theorem State.announceRange_mask (a b : Nat) (s : State) : (s.announceRange a b).mask = s.mask := rfl
@[simp] theorem State.announceRange_now (a b : Nat) (s : State) : (s.announceRange a b).now = s.now := rfl

@[simp] theorem State.own_time (n : Nat) (l : List Nat) (s : State) : (s.own n l).time = s.time := rfl
@[simp] theorem State.own_control (n : Nat) (l : List Nat) (s : State) : (s.own n l).control = s.control := rfl
@[simp] theorem State.own_intake (n : Nat) (l : List Nat) (s : State) : (s.own n l).intake = s.intake := rfl
@[simp] theorem State.own_engine (n : Nat) (l : List Nat) (s : State) : (s.own n l).engine = s.engine := rfl
@[simp] theorem State.own_sched (n : Nat) (l : List Nat) (s : State) : (s.own n l).sched = s.sched := rfl
@[simp] theorem State.own_clip (n : Nat) (l : List Nat) (s : State) : (s.own n l).clip = s.clip := rfl
@[simp] theorem State.own_guard (n : Nat) (l : List Nat) (s : State) : (s.own n l).guard = s.guard := rfl
@[simp] theorem State.own_report (n : Nat) (l : List Nat) (s : State) : (s.own n l).report = s.report := rfl
@[simp] theorem State.own_status (n : Nat) (l : List Nat) (s : State) : (s.own n l).status = s.status := rfl
@[simp] theorem State.own_tallies (n : Nat) (l : List Nat) (s : State) : (s.own n l).tallies = s.tallies := rfl
@[simp] theorem State.own_attend (n : Nat) (l : List Nat) (s : State) : (s.own n l).attend = s.attend := rfl
@[simp] theorem State.own_wires (n : Nat) (l : List Nat) (s : State) : (s.own n l).wires = s.wires := rfl
@[simp] theorem State.own_draws (n : Nat) (l : List Nat) (s : State) : (s.own n l).draws = s.draws := rfl
@[simp] theorem State.own_pending (n : Nat) (l : List Nat) (s : State) : (s.own n l).pending = s.pending := rfl
@[simp] theorem State.own_gen (n : Nat) (l : List Nat) (s : State) : (s.own n l).gen = s.gen := rfl
@[simp] theorem State.own_mask (n : Nat) (l : List Nat) (s : State) : (s.own n l).mask = s.mask := rfl
@[simp] theorem State.own_now (n : Nat) (l : List Nat) (s : State) : (s.own n l).now = s.now := rfl

@[simp] theorem State.storeArgument_time (a : BitVec 64) (s : State) : (s.storeArgument a).time = s.time := rfl
@[simp] theorem State.storeArgument_control (a : BitVec 64) (s : State) : (s.storeArgument a).control = { s.control with argument := a } := rfl
@[simp] theorem State.storeArgument_intake (a : BitVec 64) (s : State) : (s.storeArgument a).intake = s.intake := rfl
@[simp] theorem State.storeArgument_engine (a : BitVec 64) (s : State) : (s.storeArgument a).engine = s.engine := rfl
@[simp] theorem State.storeArgument_sched (a : BitVec 64) (s : State) : (s.storeArgument a).sched = s.sched := rfl
@[simp] theorem State.storeArgument_assoc (a : BitVec 64) (s : State) : (s.storeArgument a).assoc = s.assoc := rfl
@[simp] theorem State.storeArgument_clip (a : BitVec 64) (s : State) : (s.storeArgument a).clip = s.clip := rfl
@[simp] theorem State.storeArgument_guard (a : BitVec 64) (s : State) : (s.storeArgument a).guard = s.guard := rfl
@[simp] theorem State.storeArgument_report (a : BitVec 64) (s : State) : (s.storeArgument a).report = s.report := rfl
@[simp] theorem State.storeArgument_status (a : BitVec 64) (s : State) : (s.storeArgument a).status = s.status := rfl
@[simp] theorem State.storeArgument_tallies (a : BitVec 64) (s : State) : (s.storeArgument a).tallies = s.tallies := rfl
@[simp] theorem State.storeArgument_attend (a : BitVec 64) (s : State) : (s.storeArgument a).attend = s.attend := rfl
@[simp] theorem State.storeArgument_wires (a : BitVec 64) (s : State) : (s.storeArgument a).wires = s.wires := rfl
@[simp] theorem State.storeArgument_draws (a : BitVec 64) (s : State) : (s.storeArgument a).draws = s.draws := rfl
@[simp] theorem State.storeArgument_pending (a : BitVec 64) (s : State) : (s.storeArgument a).pending = s.pending := rfl
@[simp] theorem State.storeArgument_now (a : BitVec 64) (s : State) : (s.storeArgument a).now = s.now := rfl

end Sys2Proof.Machine
end

