-- ==== Sys2Proof/Laws/Keeps.lean ====
section
/-! SUPPORT. What no operation of the part breaks: one relation between a state and the state after an operation, with the narrower
relations of the operations that change one block alone, and their lemmas for what every block uses. -/
-- One lemma after another: elaborated side by side, the package as one text would need too many threads.
set_option Elab.async false
namespace Sys2Proof.Machine

/-! ### The relations -/

/-- The second state keeps every law that the first one has: IRQ (R168), the tallies (R172), the Path Guard's queues (R123, R129), the
count, which never decreases (R26), the rates (R27), the report ring (R139), the clip store (R112), the mute intervals (R78), the
bounds of the Intake Unit (R13, R19, R21) and of the Associator (R86, R93); and the queue of commands is the same. -/
structure Keeps (s t : State) : Prop where
  irq       : IrqOk s → IrqOk t := by exact fun h => h
  tallies   : TalliesOk s.tallies → TalliesOk t.tallies := by exact fun h => h
  queues    : QueuesOk s.guard → QueuesOk t.guard := by exact fun h => h
  count     : CountOk s.time → CountOk t.time ∧ s.time.count ≤ t.time.count := by exact fun h => ⟨h, le_refl _⟩
  rates     : RatesOk s → RatesOk t := by exact fun h => h
  ring      : RingOk s → RingOk t := by exact fun h => h
  store     : StoreOk s → StoreOk t := by exact fun h => h
  intervals : IntervalsOk s.sched.intervals → IntervalsOk t.sched.intervals := by exact fun h => h
  intakeOk  : IntakeOk s.intake → IntakeOk t.intake := by exact fun h => h
  assocOk   : AssocOk s.assoc → AssocOk t.assoc := by exact fun h => h
  pending   : t.pending = s.pending := by rfl

theorem Keeps.refl (s : State) : Keeps s s := {}

theorem Keeps.trans {s t u : State} (h : Keeps s t) (k : Keeps t u) : Keeps s u where
  irq := k.irq ∘ h.irq
  tallies := k.tallies ∘ h.tallies
  queues := k.queues ∘ h.queues
  count c := ⟨(k.count (h.count c).1).1, (h.count c).2.trans (k.count (h.count c).1).2⟩
  rates := k.rates ∘ h.rates
  ring := k.ring ∘ h.ring
  store := k.store ∘ h.store
  intervals := k.intervals ∘ h.intervals
  intakeOk := k.intakeOk ∘ h.intakeOk
  assocOk := k.assocOk ∘ h.assocOk
  pending := k.pending.trans h.pending

/-- Only what a block tells the Report Unit has changed: notices, tallies, results and the status line writer. -/
structure Told (s t : State) : Prop extends Keeps s t where
  time    : t.time = s.time := by rfl
  control : t.control = s.control := by rfl
  intake  : t.intake = s.intake := by rfl
  engine  : t.engine = s.engine := by rfl
  sched   : t.sched = s.sched := by rfl
  assoc   : t.assoc = s.assoc := by rfl
  clip    : t.clip = s.clip := by rfl
  guard   : t.guard = s.guard := by rfl
  report  : t.report = s.report := by rfl
  attend  : t.attend = s.attend := by rfl
  wires   : t.wires = s.wires := by rfl
  draws   : t.draws = s.draws := by rfl

theorem Told.refl (s : State) : Told s s := {}

theorem Told.trans {s t u : State} (h : Told s t) (k : Told t u) : Told s u where
  toKeeps := h.toKeeps.trans k.toKeeps
  time := k.time.trans h.time
  control := k.control.trans h.control
  intake := k.intake.trans h.intake
  engine := k.engine.trans h.engine
  sched := k.sched.trans h.sched
  assoc := k.assoc.trans h.assoc
  clip := k.clip.trans h.clip
  guard := k.guard.trans h.guard
  report := k.report.trans h.report
  attend := k.attend.trans h.attend
  wires := k.wires.trans h.wires
  draws := k.draws.trans h.draws

/-- Beside that, only the Schedule Unit has changed. -/
structure OnSched (s t : State) : Prop extends Keeps s t where
  time    : t.time = s.time := by rfl
  control : t.control = s.control := by rfl
  intake  : t.intake = s.intake := by rfl
  engine  : t.engine = s.engine := by rfl
  assoc   : t.assoc = s.assoc := by rfl
  clip    : t.clip = s.clip := by rfl
  guard   : t.guard = s.guard := by rfl
  report  : t.report = s.report := by rfl
  attend  : t.attend = s.attend := by rfl
  wires   : t.wires = s.wires := by rfl
  draws   : t.draws = s.draws := by rfl

theorem OnSched.trans {s t u : State} (h : OnSched s t) (k : OnSched t u) : OnSched s u where
  toKeeps := h.toKeeps.trans k.toKeeps
  time := k.time.trans h.time
  control := k.control.trans h.control
  intake := k.intake.trans h.intake
  engine := k.engine.trans h.engine
  assoc := k.assoc.trans h.assoc
  clip := k.clip.trans h.clip
  guard := k.guard.trans h.guard
  report := k.report.trans h.report
  attend := k.attend.trans h.attend
  wires := k.wires.trans h.wires
  draws := k.draws.trans h.draws

theorem Told.onSched {s t : State} (h : Told s t) : OnSched s t where
  toKeeps := h.toKeeps
  time := h.time
  control := h.control
  intake := h.intake
  engine := h.engine
  assoc := h.assoc
  clip := h.clip
  guard := h.guard
  report := h.report
  attend := h.attend
  wires := h.wires
  draws := h.draws

/-- Beside that, only the Intake Unit, the detectors and what is on its way between blocks have changed. -/
structure OnIntake (s t : State) : Prop extends Keeps s t where
  time    : t.time = s.time := by rfl
  control : t.control = s.control := by rfl
  sched   : t.sched = s.sched := by rfl
  assoc   : t.assoc = s.assoc := by rfl
  clip    : t.clip = s.clip := by rfl
  guard   : t.guard = s.guard := by rfl
  report  : t.report = s.report := by rfl
  attend  : t.attend = s.attend := by rfl
  draws   : t.draws = s.draws := by rfl

theorem OnIntake.refl (s : State) : OnIntake s s := {}

theorem OnIntake.trans {s t u : State} (h : OnIntake s t) (k : OnIntake t u) : OnIntake s u where
  toKeeps := h.toKeeps.trans k.toKeeps
  time := k.time.trans h.time
  control := k.control.trans h.control
  sched := k.sched.trans h.sched
  assoc := k.assoc.trans h.assoc
  clip := k.clip.trans h.clip
  guard := k.guard.trans h.guard
  report := k.report.trans h.report
  attend := k.attend.trans h.attend
  draws := k.draws.trans h.draws

theorem Told.onIntake {s t : State} (h : Told s t) : OnIntake s t where
  toKeeps := h.toKeeps
  time := h.time
  control := h.control
  sched := h.sched
  assoc := h.assoc
  clip := h.clip
  guard := h.guard
  report := h.report
  attend := h.attend
  draws := h.draws

/-- Beside that, only the Associator, the Clip Unit, the Path Guard, the report ring and what is on its way between blocks have
changed; and of the Path Guard neither the upstream queue nor the number of entries in the held list. -/
structure OnReport (s t : State) : Prop extends Keeps s t where
  time    : t.time = s.time := by rfl
  control : t.control = s.control := by rfl
  intake  : t.intake = s.intake := by rfl
  engine  : t.engine = s.engine := by rfl
  sched   : t.sched = s.sched := by rfl
  attend  : t.attend = s.attend := by rfl
  draws   : t.draws = s.draws := by rfl
  queue   : t.guard.queue = s.guard.queue := by rfl

theorem OnReport.refl (s : State) : OnReport s s := {}

theorem OnReport.trans {s t u : State} (h : OnReport s t) (k : OnReport t u) : OnReport s u where
  toKeeps := h.toKeeps.trans k.toKeeps
  time := k.time.trans h.time
  control := k.control.trans h.control
  intake := k.intake.trans h.intake
  engine := k.engine.trans h.engine
  sched := k.sched.trans h.sched
  attend := k.attend.trans h.attend
  draws := k.draws.trans h.draws
  queue := k.queue.trans h.queue

theorem Told.onReport {s t : State} (h : Told s t) : OnReport s t where
  toKeeps := h.toKeeps
  time := h.time
  control := h.control
  intake := h.intake
  engine := h.engine
  sched := h.sched
  attend := h.attend
  draws := h.draws
  queue := congrArg PathGuard.queue h.guard

/-! ### Folds -/

/-- A law of every item holds of a fold over them. -/
theorem Keeps.foldl {α : Type} {f : State → α → State} (h : ∀ s a, Keeps s (f s a)) (l : List α) (s : State) :
    Keeps s (l.foldl f s) := by
  induction l generalizing s with
  | nil => exact Keeps.refl s
  | cons a l ih => exact (h s a).trans (ih _)

theorem Told.foldl {α : Type} {f : State → α → State} (h : ∀ s a, Told s (f s a)) (l : List α) (s : State) :
    Told s (l.foldl f s) := by
  induction l generalizing s with
  | nil => exact Told.refl s
  | cons a l ih => exact (h s a).trans (ih _)

theorem OnIntake.foldl {α : Type} {f : State → α → State} (h : ∀ s a, OnIntake s (f s a)) (l : List α) (s : State) :
    OnIntake s (l.foldl f s) := by
  induction l generalizing s with
  | nil => exact OnIntake.refl s
  | cons a l ih => exact (h s a).trans (ih _)

theorem OnReport.foldl {α : Type} {f : State → α → State} (h : ∀ s a, OnReport s (f s a)) (l : List α) (s : State) :
    OnReport s (l.foldl f s) := by
  induction l generalizing s with
  | nil => exact OnReport.refl s
  | cons a l ih => exact (h s a).trans (ih _)

/-! ### What every block tells the Report Unit -/

theorem State.askRewrite_told (s : State) : Told s s.askRewrite := {}

theorem State.putResult_told (r : Result) (s : State) : Told s (s.putResult r) := {}

theorem State.setPending_told (p : BitVec 24) (s : State) : Told s (s.setPending p) := by
  unfold State.setPending
  split
  · exact Told.refl s
  · exact { irq := fun _ => rfl }

theorem State.raise_told (n : Notice) (s : State) : Told s (s.raise n) := s.setPending_told _

theorem saturate_le (k n : Nat) : saturate k n ≤ maxTally := min_le_right _ _

theorem Status.choose_pending (w : Status) : w.choose.pending = w.pending ∧ w.choose.irq = w.irq := by
  unfold Status.choose
  repeat' split
  all_goals exact ⟨rfl, rfl⟩

theorem State.settle_told (s : State) : Told s s.settle where
  irq h := by
    have c := s.status.choose_pending
    unfold IrqOk at h ⊢
    exact c.2.trans (h.trans (by rw [← c.1]; rfl))

theorem modify_forall {α : Type} {P : α → Prop} {f : α → α} (hf : ∀ a, P a → P (f a)) :
    ∀ (l : List α) (i : Nat), (∀ a ∈ l, P a) → ∀ a ∈ l.modify i f, P a := by
  intro l
  induction l with
  | nil => intro i _ a ha; cases i <;> simp at ha
  | cons x l ih =>
    intro i h a ha
    cases i with
    | zero =>
      simp only [List.modify_zero_cons, List.mem_cons] at ha
      rcases ha with rfl | ha
      · exact hf _ (h x (List.mem_cons_self ..))
      · exact h a (List.mem_cons_of_mem _ ha)
    | succ i =>
      simp only [List.modify_succ_cons, List.mem_cons] at ha
      rcases ha with rfl | ha
      · exact h _ (List.mem_cons_self ..)
      · exact ih i (fun b hb => h b (List.mem_cons_of_mem _ hb)) a ha

theorem State.countBy_told (t : Tally) (k : Nat) (s : State) : Told s (s.countBy t k) where
  tallies h := ⟨modify_forall (P := fun n => n ≤ maxTally) (fun _ _ => saturate_le _ _) _ _ h.1, h.2⟩

theorem State.count_told (t : Tally) (s : State) : Told s (s.count t) := s.countBy_told t 1

/-- The counts of one station stay within 32 bits when the change keeps them there (R172). -/
theorem State.countStation_told (st : Nat) (f : StationTallies → StationTallies)
    (hf : ∀ x : StationTallies, x.accepted ≤ maxTally ∧ x.gaps ≤ maxTally ∧ x.picks ≤ maxTally →
      (f x).accepted ≤ maxTally ∧ (f x).gaps ≤ maxTally ∧ (f x).picks ≤ maxTally) (s : State) :
    Told s (s.countStation st f) where
  tallies h := ⟨h.1, modify_forall hf _ _ h.2⟩

theorem State.memFault_told (s : State) : Told s s.memFault := s.raise_told _

theorem State.setupIgnored_told (s : State) : Told s s.setupIgnored := (s.raise_told _).trans (State.count_told _ _)

theorem State.rateLimit_told (s : State) : Told s s.rateLimit := (s.raise_told _).trans (State.count_told _ _)

/-- A command that took effect keeps what its effect keeps. -/
theorem done_keeps {s t u : State} (h : Keeps s t) (e : done t = .next u) : Keeps s u := by
  unfold done at e
  injection e with e
  exact e ▸ h.trans t.settle_told.toKeeps

theorem nothing_keeps {s u : State} (e : nothing s = .next u) : Keeps s u := by
  unfold nothing at e
  injection e with e
  exact e ▸ Keeps.refl s

/-! ### Announcements -/

theorem State.sendAssoc_onIntake (ms : List AssocMsg) (s : State) : OnIntake s (s.sendAssoc ms) := {}
theorem State.tellSlotFree_onIntake (n : Nat) (s : State) : OnIntake s (s.tellSlotFree n) := {}
theorem State.askPins_onReport (ms : List PinMsg) (s : State) : OnReport s (s.askPins ms) := {}
theorem State.askState_onReport (ev : Nat) (t : EventState) (s : State) : OnReport s (s.askState ev t) := {}
theorem State.tellSchedule_onIntake (p : PartState) (s : State) : OnIntake s (s.tellSchedule p) := {}

/-- A change of what is on its way between blocks alone keeps every law. -/
theorem State.setWires_onIntake (f : Wires → Wires) (s : State) : OnIntake s (s.setWires f) := {}
theorem State.setWires_onReport (f : Wires → Wires) (s : State) : OnReport s (s.setWires f) := {}
theorem State.setWires_keeps (f : Wires → Wires) (s : State) : Keeps s (s.setWires f) := {}
theorem State.setAttend_keeps (f : Attend → Attend) (s : State) : Keeps s (s.setAttend f) := {}
theorem State.setEngine_onIntake (f : List Detector → List Detector) (s : State) : OnIntake s (s.setEngine f) := {}

theorem State.setTimeState_keeps (t : TimeState) (s : State) : Keeps s (s.setTimeState t) := by
  unfold State.setTimeState
  split
  · exact Keeps.refl s
  · exact {}

theorem State.setPart_keeps (p : PartState) (s : State) : Keeps s (s.setPart p) := by
  unfold State.setPart
  split
  · exact Keeps.refl s
  · exact {}

/-! ### Setup in force -/

/-- The setup after a change of one station entry. -/
theorem State.setStation_setup (st : Nat) (f : StationEntry → StationEntry) (s : State) :
    (s.setStation st f).control.setup = s.control.setup.map fun u => { u with stations := u.stations.modify st f } := rfl

/-- The setup after a change of the general fields. -/
theorem State.setGen_setup (f : General → General) (s : State) :
    (s.setGen f).control.setup = s.control.setup.map fun u => { u with gen := f u.gen } := rfl

theorem State.setStation_keeps (st : Nat) (f : StationEntry → StationEntry) (s : State) : Keeps s (s.setStation st f) := by
  have g : (s.setStation st f).gen = s.gen := by
    unfold State.gen
    rw [State.setStation_setup]
    cases s.control.setup <;> rfl
  have m : (s.setStation st f).mask = s.mask := by
    unfold State.mask
    rw [State.setStation_setup]
    cases s.control.setup <;> rfl
  exact {
    irq := fun h => by unfold IrqOk at h ⊢; rw [m]; exact h
    rates := fun h => by unfold RatesOk at h ⊢; rw [g]; exact h
    ring := fun h => by unfold RingOk at h ⊢; rw [g]; exact h
    store := fun h => by unfold StoreOk State.unitCount at h ⊢; rw [g]; exact h }

/-- A live general field but `notice_mask` (R151): the locked fields stand. -/
theorem State.setGen_keeps (f : General → General) (hm : ∀ g, (f g).noticeMask = g.noticeMask)
    (hr : ∀ g, (f g).rateNominal = g.rateNominal ∧ (f g).rateDev = g.rateDev ∧ (f g).reportCap = g.reportCap ∧ (f g).clipSize = g.clipSize)
    (s : State) : Keeps s (s.setGen f) := by
  rcases hs : s.control.setup with _ | u
  · have e : s.setGen f = s := by
      cases s with | mk time control intake engine sched assoc clip guard report status tallies attend wires draws pending =>
      cases control
      unfold State.setGen State.setControl
      simp only at hs
      subst hs
      rfl
    rw [e]
    exact Keeps.refl s
  · have g0 : s.gen = u.gen := by unfold State.gen; rw [hs]
    have g1 : (s.setGen f).gen = f u.gen := by unfold State.gen; simp only [State.setGen_setup, hs, Option.map_some]
    have m0 : s.mask = u.gen.noticeMask := by unfold State.mask; rw [hs]
    have m1 : (s.setGen f).mask = (f u.gen).noticeMask := by unfold State.mask; simp only [State.setGen_setup, hs, Option.map_some]
    obtain ⟨r1, r2, r3, r4⟩ := hr u.gen
    exact {
      irq := fun h => by unfold IrqOk at h ⊢; rw [m1, hm]; rw [m0] at h; exact h
      rates := fun h => by
        unfold RatesOk General.rateLow General.rateHigh General.rateDelta at h ⊢
        rw [g1, r1, r2]; rw [g0] at h; exact h
      ring := fun h => by unfold RingOk at h ⊢; rw [g1, r3]; rw [g0] at h; exact h
      store := fun h => by unfold StoreOk State.unitCount at h ⊢; rw [g1, r4]; rw [g0] at h; exact h }

end Sys2Proof.Machine
end

