-- ==== Sys2Proof/Laws/Associator.lean ====
section
/-! SUPPORT. What the operations of the Associator do: each changes events, picks, requests on their way and what the Report Unit is told,
and the bounds of the Associator hold. -/
-- One lemma after another: elaborated side by side, the package as one text would need too many threads.
set_option Elab.async false
namespace Sys2Proof.Machine

/-- Beside what is told, only the Associator, the Clip Unit and what is on its way between blocks have changed. -/
structure OnEvents (s t : State) : Prop extends Keeps s t where
  time    : t.time = s.time := by rfl
  control : t.control = s.control := by rfl
  intake  : t.intake = s.intake := by rfl
  engine  : t.engine = s.engine := by rfl
  sched   : t.sched = s.sched := by rfl
  guard   : t.guard = s.guard := by rfl
  report  : t.report = s.report := by rfl
  attend  : t.attend = s.attend := by rfl
  draws   : t.draws = s.draws := by rfl

theorem OnEvents.refl (s : State) : OnEvents s s := {}

theorem OnEvents.trans {s t u : State} (h : OnEvents s t) (k : OnEvents t u) : OnEvents s u where
  toKeeps := h.toKeeps.trans k.toKeeps
  time := k.time.trans h.time
  control := k.control.trans h.control
  intake := k.intake.trans h.intake
  engine := k.engine.trans h.engine
  sched := k.sched.trans h.sched
  guard := k.guard.trans h.guard
  report := k.report.trans h.report
  attend := k.attend.trans h.attend
  draws := k.draws.trans h.draws

theorem Told.onEvents {s t : State} (h : Told s t) : OnEvents s t where
  toKeeps := h.toKeeps
  time := h.time
  control := h.control
  intake := h.intake
  engine := h.engine
  sched := h.sched
  guard := h.guard
  report := h.report
  attend := h.attend
  draws := h.draws

theorem OnEvents.onReport {s t : State} (h : OnEvents s t) : OnReport s t where
  toKeeps := h.toKeeps
  time := h.time
  control := h.control
  intake := h.intake
  engine := h.engine
  sched := h.sched
  attend := h.attend
  draws := h.draws
  queue := congrArg PathGuard.queue h.guard

theorem OnEvents.foldl {α : Type} {f : State → α → State} (h : ∀ s a, OnEvents s (f s a)) (l : List α) (s : State) :
    OnEvents s (l.foldl f s) := by
  induction l generalizing s with
  | nil => exact OnEvents.refl s
  | cons a l ih => exact (h s a).trans (ih _)

/-! ### Named updates -/

/-- A change of the Associator that keeps its bounds. -/
theorem State.setAssoc_onEvents (f : Assoc → Assoc) (s : State) (h : AssocOk s.assoc → AssocOk (f s.assoc)) :
    OnEvents s (s.setAssoc f) where
  assocOk := h

theorem State.setEvent_onEvents (slot : Nat) (f : Event → Event) (s : State) : OnEvents s (s.setEvent slot f) :=
  State.setAssoc_onEvents _ _ fun h => ⟨h.1, by simpa using h.2⟩

theorem State.setWires_onEvents (f : Wires → Wires) (s : State) : OnEvents s (s.setWires f) := {}
theorem State.askPins_onEvents (ms : List PinMsg) (s : State) : OnEvents s (s.askPins ms) := {}
theorem State.askState_onEvents (ev : Nat) (t : EventState) (s : State) : OnEvents s (s.askState ev t) := {}

/-! ### Picks -/

theorem insertBefore_length {α : Type} (p : α → Bool) (x : α) (l : List α) : (insertBefore p x l).length = l.length + 1 := by
  induction l with
  | nil => rfl
  | cons y ys ih =>
    unfold insertBefore
    split
    · rfl
    · simp [ih]

theorem State.own_onEvents (ev : Nat) (nums : List Nat) (s : State) : OnEvents s (s.own ev nums) :=
  State.setAssoc_onEvents _ _ fun h => ⟨by simpa using h.1, h.2⟩

theorem pickRoom_length (ps : List PickEntry) (h : ps.length ≤ 256) : (pickRoom ps).length < 256 := by
  unfold pickRoom
  split
  · assumption
  · rw [List.length_drop]
    omega

/-- A pick enters the list, and the list still holds at most 256 picks (R87). -/
theorem State.enterPick_onEvents (p : Pick) (s : State) : OnEvents s (s.enterPick p) := by
  unfold State.enterPick
  simp only
  refine OnEvents.trans ?_ (State.setAssoc_onEvents _ _ fun k => ⟨?_, k.2⟩)
  · split
    · exact OnEvents.refl s
    · exact ((State.count_told _ _).trans (State.raise_told _ _)).onEvents
  · rw [insertBefore_length]
    exact Nat.succ_le_of_lt (pickRoom_length _ k.1)

theorem State.loseEvent_onEvents (s : State) : OnEvents s s.loseEvent := ((State.count_told _ _).trans (State.raise_told _ _)).onEvents

theorem State.declareIn_onEvents (slot z w : Nat) (cs : List PickCopy) (s : State) : OnEvents s (s.declareIn slot z w cs) := by
  unfold State.declareIn
  simp only
  refine OnEvents.trans ?_ (State.askRewrite_told _).onEvents
  refine OnEvents.trans ?_ (State.raise_told _ _).onEvents
  refine OnEvents.trans ?_ (State.count_told _ _).onEvents
  refine OnEvents.trans ?_ (State.own_onEvents _ _ _)
  exact State.setAssoc_onEvents _ _ fun k => ⟨k.1, by simpa using k.2⟩

/-- The state of an outcome of a zone. -/
def ZoneOutcome.state : ZoneOutcome → State
  | .taken s => s
  | .neither s => s

theorem State.coincide_onEvents (z : Nat) (zone : Zone) (p : Pick) (s : State) : OnEvents s (s.coincide z zone p).state := by
  unfold State.coincide
  split
  · split
    · split
      · exact State.declareIn_onEvents _ _ _ _ _
      · exact State.loseEvent_onEvents _
    · exact State.loseEvent_onEvents _
  · exact OnEvents.refl s

theorem State.tryZone_onEvents (z : Nat) (zone : Zone) (c : PickCopy) (s : State) : OnEvents s (s.tryZone z zone c).state := by
  unfold State.tryZone
  split
  · exact (State.setEvent_onEvents _ _ _).trans (State.own_onEvents _ _ _)
  · exact State.coincide_onEvents _ _ _ _

/-- Association changes events, the picks' owners and what is told, and nothing else (R90). -/
theorem State.associate_onEvents (c : PickCopy) (zs : List (Nat × Zone)) (s : State) : OnEvents s (s.associate c zs) := by
  induction zs generalizing s with
  | nil => exact OnEvents.refl s
  | cons z zs ih =>
    unfold State.associate
    split
    · have k := s.tryZone_onEvents z.1 z.2 c
      split
      next h => rw [h] at k; exact k
      next h => rw [h] at k; exact OnEvents.trans k (ih _)
    · exact ih s

theorem State.takePick_onEvents (p : Pick) (s : State) : OnEvents s (s.takePick p) := by
  unfold State.takePick
  split
  · exact (State.enterPick_onEvents _ _).trans (State.associate_onEvents _ _ _)
  · exact OnEvents.refl s

theorem State.applyClosure_onEvents (st onset : Nat) (k : Closure) (s : State) : OnEvents s (s.applyClosure st onset k) :=
  State.setAssoc_onEvents _ _ fun h => ⟨by simpa using h.1, by simpa using h.2⟩

/-! ### States of an event -/

theorem State.applyRequest_onEvents (ev : Nat) (t : EventState) (s : State) : OnEvents s (s.applyRequest ev t) := by
  unfold State.applyRequest
  split
  · split
    · exact State.setEvent_onEvents _ _ _
    · exact OnEvents.refl s
  · exact OnEvents.refl s

theorem State.flushRequests_onEvents (ev : Nat) (s : State) : OnEvents s (s.flushRequests ev) := by
  unfold State.flushRequests
  simp only
  refine OnEvents.trans (State.setWires_onEvents (fun w => { w with stateRequests := w.stateRequests.filter fun m => m.1 != ev }) s) ?_
  exact OnEvents.foldl (fun t m => State.applyRequest_onEvents _ _ _) _ _

theorem State.freeEvent_onEvents (slot : Nat) (s : State) : OnEvents s (s.freeEvent slot) := by
  unfold State.freeEvent
  refine OnEvents.trans ?_ (State.askRewrite_told _).onEvents
  exact State.setAssoc_onEvents _ _ fun h => ⟨h.1, by simpa using h.2⟩

theorem State.assocAnew_onEvents (s : State) : OnEvents s s.assocAnew := by
  unfold State.assocAnew
  refine OnEvents.trans ?_ (State.setWires_onEvents _ _)
  exact State.setAssoc_onEvents _ _ fun h => ⟨Nat.zero_le _, h.2⟩

theorem State.assocSoftReset_onEvents (s : State) : OnEvents s s.assocSoftReset := by
  have k : OnEvents s ((s.assocAnew.setAssoc fun a => { a with events := List.replicate 32 none, counter := 1 }).setWires fun w =>
      { w with stateRequests := [] }) := by
    refine OnEvents.trans ?_ (State.setWires_onEvents _ _)
    refine s.assocAnew_onEvents.trans ?_
    exact State.setAssoc_onEvents _ _ fun h => ⟨h.1, by simp⟩
  unfold State.assocSoftReset
  simp only
  split
  · exact k
  · exact k.trans (State.askRewrite_told _).onEvents

/-! ### The commands -/

/-- A command of the Associator that takes effect changes events, picks and what is told. -/
theorem done_onEvents {s t u : State} (h : OnEvents s t) (e : done t = .next u) : OnEvents s u := by
  unfold done at e
  injection e with e
  exact e ▸ h.trans t.settle_told.onEvents

theorem nothing_onEvents {s u : State} (e : nothing s = .next u) : OnEvents s u := by
  unfold nothing at e
  injection e with e
  exact e ▸ OnEvents.refl s

theorem execHorizonAdvanceAssociator_onEvents {s u : State} (e : execHorizonAdvanceAssociator s = .next u) : OnEvents s u := by
  unfold execHorizonAdvanceAssociator at e
  split at e
  · simp only at e
    split at e
    · exact done_onEvents (State.setWires_onEvents _ _) e
    · refine done_onEvents (OnEvents.trans (State.setWires_onEvents _ _) (State.setAssoc_onEvents _ _ ?_)) e
      exact fun h => ⟨(List.length_filter_le _ _).trans h.1, h.2⟩
  · exact nothing_onEvents e

theorem execPickArrival_onEvents {st : Nat} {s u : State} (e : execPickArrival st s = .next u) : OnEvents s u := by
  unfold execPickArrival at e
  split at e
  · exact done_onEvents ((State.setWires_onEvents _ _).trans (State.takePick_onEvents _ _)) e
  · exact nothing_onEvents e
  · exact nothing_onEvents e

theorem execPickClosure_onEvents {st : Nat} {s u : State} (e : execPickClosure st s = .next u) : OnEvents s u := by
  unfold execPickClosure at e
  split at e
  · exact done_onEvents ((State.setWires_onEvents _ _).trans (State.applyClosure_onEvents _ _ _ _)) e
  · exact nothing_onEvents e
  · exact nothing_onEvents e

theorem execEventStateRequest_onEvents {ev : Nat} {s u : State} (e : execEventStateRequest ev s = .next u) : OnEvents s u := by
  unfold execEventStateRequest at e
  split at e
  · exact done_onEvents ((State.setWires_onEvents _ _).trans (State.applyRequest_onEvents _ _ _)) e
  · exact nothing_onEvents e

end Sys2Proof.Machine
end

