-- ==== Sys2Proof/Laws/Bytes.lean ====
section
/-! SUPPORT. What a layout built of fields holds: the length of each piece, and the field found at an offset (R179). -/
set_option Elab.async false
namespace Sys2Proof.Machine

theorem leBytes_length (n v : Nat) : (leBytes n v).length = n := by
  induction n generalizing v with
  | zero => rfl
  | succ n ih => simp [leBytes, ih]

theorem zeros_length (n : Nat) : (zeros n).length = n := by simp [zeros]

theorem fit_length (n : Nat) (bs : List Byte) : (fit n bs).length = n := by simp [fit, zeros_length]

theorem fit_of_length {n : Nat} {bs : List Byte} (h : bs.length = n) : fit n bs = bs := by simp [fit, ← h]

/-- The bytes of a value spell it, modulo what they can hold. -/
theorem leVal_leBytes (n v : Nat) : leVal (leBytes n v) = v % 256 ^ n := by
  induction n generalizing v with
  | zero => simp [leBytes, leVal, Nat.mod_one]
  | succ n ih =>
    rw [leBytes, leVal, ih, Nat.pow_succ, Nat.mul_comm (256 ^ n) 256, Nat.mod_mul]
    simp

theorem leVal_zeros (n : Nat) : leVal (zeros n) = 0 := by
  induction n with
  | zero => rfl
  | succ n ih => simpa [zeros, List.replicate_succ, leVal] using ih

/-- A field that lies in the first piece. -/
theorem field_append_left {a b : List Byte} {off n : Nat} (h : off + n ≤ a.length) : field (a ++ b) off n = field a off n := by
  unfold field
  rw [List.drop_append_of_le_length (by omega), List.take_append_of_le_length (by simp; omega)]

/-- A field that lies behind the first piece. -/
theorem field_append_right {a b : List Byte} {off n : Nat} (h : a.length ≤ off) : field (a ++ b) off n = field b (off - a.length) n := by
  unfold field
  rw [List.drop_append, List.drop_eq_nil_of_le h, List.nil_append]

/-- A piece that is the field asked for. -/
theorem field_whole (n v : Nat) : field (leBytes n v) 0 n = v % 256 ^ n := by
  unfold field
  rw [List.drop_zero, List.take_of_length_le (by simp [leBytes_length]), leVal_leBytes]

/-- The field at the front of a layout. -/
theorem field_front (n v : Nat) (b : List Byte) : field (leBytes n v ++ b) 0 n = v % 256 ^ n := by
  rw [field_append_left (by simp [leBytes_length]), field_whole]

/-- A field behind the front piece of a layout. -/
theorem field_behind (m v off n : Nat) (b : List Byte) (h : m ≤ off) : field (leBytes m v ++ b) off n = field b (off - m) n := by
  rw [field_append_right (by simpa [leBytes_length] using h)]; simp [leBytes_length]

/-- A field behind a run of zeros. -/
theorem field_behind_zeros (m off n : Nat) (b : List Byte) (h : m ≤ off) : field (zeros m ++ b) off n = field b (off - m) n := by
  rw [field_append_right (by simpa [zeros_length] using h)]; simp [zeros_length]

/-- Pieces of one length, laid one behind the other, have their places at its multiples. -/
theorem flatten_length {w : Nat} (xs : List (List Byte)) (h : ∀ x ∈ xs, x.length = w) : xs.flatten.length = w * xs.length := by
  induction xs with
  | nil => simp
  | cons x xs ih =>
    rw [List.flatten_cons, List.length_append, h x (by simp), ih fun y hy => h y (List.mem_cons_of_mem _ hy), List.length_cons]
    rw [Nat.mul_succ]; omega

/-- A field of the piece at place `k`. -/
theorem field_flatten {w : Nat} (xs : List (List Byte)) (h : ∀ x ∈ xs, x.length = w) {k off n : Nat} {x : List Byte}
    (hx : xs[k]? = some x) (hoff : off + n ≤ w) : field xs.flatten (w * k + off) n = field x off n := by
  induction xs generalizing k with
  | nil => simp at hx
  | cons y ys ih =>
    rw [List.flatten_cons]
    cases k with
    | zero =>
      simp only [List.getElem?_cons_zero, Option.some.injEq] at hx
      subst hx
      rw [Nat.mul_zero, Nat.zero_add, field_append_left (by rw [h y (by simp)]; exact hoff)]
    | succ k =>
      have hy := h y (by simp)
      rw [field_append_right (by rw [hy, Nat.mul_succ]; omega)]
      have e : w * (k + 1) + off - y.length = w * k + off := by rw [hy, Nat.mul_succ]; omega
      rw [e]
      exact ih (fun z hz => h z (List.mem_cons_of_mem _ hz)) (by simpa using hx)

end Sys2Proof.Machine
end

