-- ==== Sys2Proof/Laws/Told.lean ====
section
/-! SUPPORT. One lemma per field for the operations that first ask whether there is a change: notices, part state, time state and the
other announced states. -/
-- One lemma after another: elaborated side by side, the package as one text would need too many threads.
set_option Elab.async false
namespace Sys2Proof.Machine

@[simp] theorem State.setPending_time (p : BitVec 24) (s : State) : (s.setPending p).time = s.time := by
  unfold State.setPending
  split <;> rfl
@[simp] theorem State.setPending_control (p : BitVec 24) (s : State) : (s.setPending p).control = s.control := by
  unfold State.setPending
  split <;> rfl
@[simp] theorem State.setPending_intake (p : BitVec 24) (s : State) : (s.setPending p).intake = s.intake := by
  unfold State.setPending
  split <;> rfl
@[simp] theorem State.setPending_engine (p : BitVec 24) (s : State) : (s.setPending p).engine = s.engine := by
  unfold State.setPending
  split <;> rfl
@[simp] theorem State.setPending_sched (p : BitVec 24) (s : State) : (s.setPending p).sched = s.sched := by
  unfold State.setPending
  split <;> rfl
@[simp] theorem State.setPending_assoc (p : BitVec 24) (s : State) : (s.setPending p).assoc = s.assoc := by
  unfold State.setPending
  split <;> rfl
@[simp] theorem State.setPending_clip (p : BitVec 24) (s : State) : (s.setPending p).clip = s.clip := by
  unfold State.setPending
  split <;> rfl
@[simp] theorem State.setPending_guard (p : BitVec 24) (s : State) : (s.setPending p).guard = s.guard := by
  unfold State.setPending
  split <;> rfl
@[simp] theorem State.setPending_report (p : BitVec 24) (s : State) : (s.setPending p).report = s.report := by
  unfold State.setPending
  split <;> rfl
@[simp] theorem State.setPending_tallies (p : BitVec 24) (s : State) : (s.setPending p).tallies = s.tallies := by
  unfold State.setPending
  split <;> rfl
@[simp] theorem State.setPending_attend (p : BitVec 24) (s : State) : (s.setPending p).attend = s.attend := by
  unfold State.setPending
  split <;> rfl
@[simp] theorem State.setPending_wires (p : BitVec 24) (s : State) : (s.setPending p).wires = s.wires := by
  unfold State.setPending
  split <;> rfl
@[simp] theorem State.setPending_draws (p : BitVec 24) (s : State) : (s.setPending p).draws = s.draws := by
  unfold State.setPending
  split <;> rfl
@[simp] theorem State.setPending_pending (p : BitVec 24) (s : State) : (s.setPending p).pending = s.pending := by
  unfold State.setPending
  split <;> rfl

@[simp] theorem State.raise_time (n : Notice) (s : State) : (s.raise n).time = s.time := by
  exact State.setPending_time _ _
@[simp] theorem State.raise_control (n : Notice) (s : State) : (s.raise n).control = s.control := by
  exact State.setPending_control _ _
@[simp] theorem State.raise_intake (n : Notice) (s : State) : (s.raise n).intake = s.intake := by
  exact State.setPending_intake _ _
@[simp] theorem State.raise_engine (n : Notice) (s : State) : (s.raise n).engine = s.engine := by
  exact State.setPending_engine _ _
@[simp] theorem State.raise_sched (n : Notice) (s : State) : (s.raise n).sched = s.sched := by
  exact State.setPending_sched _ _
@[simp] theorem State.raise_assoc (n : Notice) (s : State) : (s.raise n).assoc = s.assoc := by
  exact State.setPending_assoc _ _
@[simp] theorem State.raise_clip (n : Notice) (s : State) : (s.raise n).clip = s.clip := by
  exact State.setPending_clip _ _
@[simp] theorem State.raise_guard (n : Notice) (s : State) : (s.raise n).guard = s.guard := by
  exact State.setPending_guard _ _
@[simp] theorem State.raise_report (n : Notice) (s : State) : (s.raise n).report = s.report := by
  exact State.setPending_report _ _
@[simp] theorem State.raise_tallies (n : Notice) (s : State) : (s.raise n).tallies = s.tallies := by
  exact State.setPending_tallies _ _
@[simp] theorem State.raise_attend (n : Notice) (s : State) : (s.raise n).attend = s.attend := by
  exact State.setPending_attend _ _
@[simp] theorem State.raise_wires (n : Notice) (s : State) : (s.raise n).wires = s.wires := by
  exact State.setPending_wires _ _
@[simp] theorem State.raise_draws (n : Notice) (s : State) : (s.raise n).draws = s.draws := by
  exact State.setPending_draws _ _
@[simp] theorem State.raise_pending (n : Notice) (s : State) : (s.raise n).pending = s.pending := by
  exact State.setPending_pending _ _

@[simp] theorem State.memFault_time (s : State) : (s.memFault).time = s.time := by
  exact State.raise_time _ _
@[simp] theorem State.memFault_control (s : State) : (s.memFault).control = s.control := by
  exact State.raise_control _ _
@[simp] theorem State.memFault_intake (s : State) : (s.memFault).intake = s.intake := by
  exact State.raise_intake _ _
@[simp] theorem State.memFault_engine (s : State) : (s.memFault).engine = s.engine := by
  exact State.raise_engine _ _
@[simp] theorem State.memFault_sched (s : State) : (s.memFault).sched = s.sched := by
  exact State.raise_sched _ _
@[simp] theorem State.memFault_assoc (s : State) : (s.memFault).assoc = s.assoc := by
  exact State.raise_assoc _ _
@[simp] theorem State.memFault_clip (s : State) : (s.memFault).clip = s.clip := by
  exact State.raise_clip _ _
@[simp] theorem State.memFault_guard (s : State) : (s.memFault).guard = s.guard := by
  exact State.raise_guard _ _
@[simp] theorem State.memFault_report (s : State) : (s.memFault).report = s.report := by
  exact State.raise_report _ _
@[simp] theorem State.memFault_tallies (s : State) : (s.memFault).tallies = s.tallies := by
  exact State.raise_tallies _ _
@[simp] theorem State.memFault_attend (s : State) : (s.memFault).attend = s.attend := by
  exact State.raise_attend _ _
@[simp] theorem State.memFault_wires (s : State) : (s.memFault).wires = s.wires := by
  exact State.raise_wires _ _
@[simp] theorem State.memFault_draws (s : State) : (s.memFault).draws = s.draws := by
  exact State.raise_draws _ _
@[simp] theorem State.memFault_pending (s : State) : (s.memFault).pending = s.pending := by
  exact State.raise_pending _ _

@[simp] theorem State.clearKinds_time (p : BitVec 24) (s : State) : (s.clearKinds p).time = s.time := by
  exact State.setPending_time _ _
@[simp] theorem State.clearKinds_control (p : BitVec 24) (s : State) : (s.clearKinds p).control = s.control := by
  exact State.setPending_control _ _
@[simp] theorem State.clearKinds_intake (p : BitVec 24) (s : State) : (s.clearKinds p).intake = s.intake := by
  exact State.setPending_intake _ _
@[simp] theorem State.clearKinds_engine (p : BitVec 24) (s : State) : (s.clearKinds p).engine = s.engine := by
  exact State.setPending_engine _ _
@[simp] theorem State.clearKinds_sched (p : BitVec 24) (s : State) : (s.clearKinds p).sched = s.sched := by
  exact State.setPending_sched _ _
@[simp] theorem State.clearKinds_assoc (p : BitVec 24) (s : State) : (s.clearKinds p).assoc = s.assoc := by
  exact State.setPending_assoc _ _
@[simp] theorem State.clearKinds_clip (p : BitVec 24) (s : State) : (s.clearKinds p).clip = s.clip := by
  exact State.setPending_clip _ _
@[simp] theorem State.clearKinds_guard (p : BitVec 24) (s : State) : (s.clearKinds p).guard = s.guard := by
  exact State.setPending_guard _ _
@[simp] theorem State.clearKinds_report (p : BitVec 24) (s : State) : (s.clearKinds p).report = s.report := by
  exact State.setPending_report _ _
@[simp] theorem State.clearKinds_tallies (p : BitVec 24) (s : State) : (s.clearKinds p).tallies = s.tallies := by
  exact State.setPending_tallies _ _
@[simp] theorem State.clearKinds_attend (p : BitVec 24) (s : State) : (s.clearKinds p).attend = s.attend := by
  exact State.setPending_attend _ _
@[simp] theorem State.clearKinds_wires (p : BitVec 24) (s : State) : (s.clearKinds p).wires = s.wires := by
  exact State.setPending_wires _ _
@[simp] theorem State.clearKinds_draws (p : BitVec 24) (s : State) : (s.clearKinds p).draws = s.draws := by
  exact State.setPending_draws _ _
@[simp] theorem State.clearKinds_pending (p : BitVec 24) (s : State) : (s.clearKinds p).pending = s.pending := by
  exact State.setPending_pending _ _

@[simp] theorem State.setupIgnored_time (s : State) : (s.setupIgnored).time = s.time := by
  simp [State.setupIgnored]
@[simp] theorem State.setupIgnored_control (s : State) : (s.setupIgnored).control = s.control := by
  simp [State.setupIgnored]
@[simp] theorem State.setupIgnored_intake (s : State) : (s.setupIgnored).intake = s.intake := by
  simp [State.setupIgnored]
@[simp] theorem State.setupIgnored_engine (s : State) : (s.setupIgnored).engine = s.engine := by
  simp [State.setupIgnored]
@[simp] theorem State.setupIgnored_sched (s : State) : (s.setupIgnored).sched = s.sched := by
  simp [State.setupIgnored]
@[simp] theorem State.setupIgnored_assoc (s : State) : (s.setupIgnored).assoc = s.assoc := by
  simp [State.setupIgnored]
@[simp] theorem State.setupIgnored_clip (s : State) : (s.setupIgnored).clip = s.clip := by
  simp [State.setupIgnored]
@[simp] theorem State.setupIgnored_guard (s : State) : (s.setupIgnored).guard = s.guard := by
  simp [State.setupIgnored]
@[simp] theorem State.setupIgnored_report (s : State) : (s.setupIgnored).report = s.report := by
  simp [State.setupIgnored]
@[simp] theorem State.setupIgnored_attend (s : State) : (s.setupIgnored).attend = s.attend := by
  simp [State.setupIgnored]
@[simp] theorem State.setupIgnored_wires (s : State) : (s.setupIgnored).wires = s.wires := by
  simp [State.setupIgnored]
@[simp] theorem State.setupIgnored_draws (s : State) : (s.setupIgnored).draws = s.draws := by
  simp [State.setupIgnored]
@[simp] theorem State.setupIgnored_pending (s : State) : (s.setupIgnored).pending = s.pending := by
  simp [State.setupIgnored]

@[simp] theorem State.rateLimit_time (s : State) : (s.rateLimit).time = s.time := by
  simp [State.rateLimit]
@[simp] theorem State.rateLimit_control (s : State) : (s.rateLimit).control = s.control := by
  simp [State.rateLimit]
@[simp] theorem State.rateLimit_intake (s : State) : (s.rateLimit).intake = s.intake := by
  simp [State.rateLimit]
@[simp] theorem State.rateLimit_engine (s : State) : (s.rateLimit).engine = s.engine := by
  simp [State.rateLimit]
@[simp] theorem State.rateLimit_sched (s : State) : (s.rateLimit).sched = s.sched := by
  simp [State.rateLimit]
@[simp] theorem State.rateLimit_assoc (s : State) : (s.rateLimit).assoc = s.assoc := by
  simp [State.rateLimit]
@[simp] theorem State.rateLimit_clip (s : State) : (s.rateLimit).clip = s.clip := by
  simp [State.rateLimit]
@[simp] theorem State.rateLimit_guard (s : State) : (s.rateLimit).guard = s.guard := by
  simp [State.rateLimit]
@[simp] theorem State.rateLimit_report (s : State) : (s.rateLimit).report = s.report := by
  simp [State.rateLimit]
@[simp] theorem State.rateLimit_attend (s : State) : (s.rateLimit).attend = s.attend := by
  simp [State.rateLimit]
@[simp] theorem State.rateLimit_wires (s : State) : (s.rateLimit).wires = s.wires := by
  simp [State.rateLimit]
@[simp] theorem State.rateLimit_draws (s : State) : (s.rateLimit).draws = s.draws := by
  simp [State.rateLimit]
@[simp] theorem State.rateLimit_pending (s : State) : (s.rateLimit).pending = s.pending := by
  simp [State.rateLimit]

@[simp] theorem State.loseEvent_time (s : State) : (s.loseEvent).time = s.time := by
  simp [State.loseEvent]
@[simp] theorem State.loseEvent_control (s : State) : (s.loseEvent).control = s.control := by
  simp [State.loseEvent]
@[simp] theorem State.loseEvent_intake (s : State) : (s.loseEvent).intake = s.intake := by
  simp [State.loseEvent]
@[simp] theorem State.loseEvent_engine (s : State) : (s.loseEvent).engine = s.engine := by
  simp [State.loseEvent]
@[simp] theorem State.loseEvent_sched (s : State) : (s.loseEvent).sched = s.sched := by
  simp [State.loseEvent]
@[simp] theorem State.loseEvent_assoc (s : State) : (s.loseEvent).assoc = s.assoc := by
  simp [State.loseEvent]
@[simp] theorem State.loseEvent_clip (s : State) : (s.loseEvent).clip = s.clip := by
  simp [State.loseEvent]
@[simp] theorem State.loseEvent_guard (s : State) : (s.loseEvent).guard = s.guard := by
  simp [State.loseEvent]
@[simp] theorem State.loseEvent_report (s : State) : (s.loseEvent).report = s.report := by
  simp [State.loseEvent]
@[simp] theorem State.loseEvent_attend (s : State) : (s.loseEvent).attend = s.attend := by
  simp [State.loseEvent]
@[simp] theorem State.loseEvent_wires (s : State) : (s.loseEvent).wires = s.wires := by
  simp [State.loseEvent]
@[simp] theorem State.loseEvent_draws (s : State) : (s.loseEvent).draws = s.draws := by
  simp [State.loseEvent]
@[simp] theorem State.loseEvent_pending (s : State) : (s.loseEvent).pending = s.pending := by
  simp [State.loseEvent]

@[simp] theorem State.setPart_time (p : PartState) (s : State) : (s.setPart p).time = s.time := by
  unfold State.setPart
  split <;> rfl
@[simp] theorem State.setPart_intake (p : PartState) (s : State) : (s.setPart p).intake = s.intake := by
  unfold State.setPart
  split <;> rfl
@[simp] theorem State.setPart_engine (p : PartState) (s : State) : (s.setPart p).engine = s.engine := by
  unfold State.setPart
  split <;> rfl
@[simp] theorem State.setPart_sched (p : PartState) (s : State) : (s.setPart p).sched = s.sched := by
  unfold State.setPart
  split <;> rfl
@[simp] theorem State.setPart_assoc (p : PartState) (s : State) : (s.setPart p).assoc = s.assoc := by
  unfold State.setPart
  split <;> rfl
@[simp] theorem State.setPart_clip (p : PartState) (s : State) : (s.setPart p).clip = s.clip := by
  unfold State.setPart
  split <;> rfl
@[simp] theorem State.setPart_guard (p : PartState) (s : State) : (s.setPart p).guard = s.guard := by
  unfold State.setPart
  split <;> rfl
@[simp] theorem State.setPart_report (p : PartState) (s : State) : (s.setPart p).report = s.report := by
  unfold State.setPart
  split <;> rfl
@[simp] theorem State.setPart_tallies (p : PartState) (s : State) : (s.setPart p).tallies = s.tallies := by
  unfold State.setPart
  split <;> rfl
@[simp] theorem State.setPart_attend (p : PartState) (s : State) : (s.setPart p).attend = s.attend := by
  unfold State.setPart
  split <;> rfl
@[simp] theorem State.setPart_wires (p : PartState) (s : State) : (s.setPart p).wires = s.wires := by
  unfold State.setPart
  split <;> rfl
@[simp] theorem State.setPart_draws (p : PartState) (s : State) : (s.setPart p).draws = s.draws := by
  unfold State.setPart
  split <;> rfl
@[simp] theorem State.setPart_pending (p : PartState) (s : State) : (s.setPart p).pending = s.pending := by
  unfold State.setPart
  split <;> rfl

@[simp] theorem State.setTimeState_control (t : TimeState) (s : State) : (s.setTimeState t).control = s.control := by
  unfold State.setTimeState
  split <;> rfl
@[simp] theorem State.setTimeState_intake (t : TimeState) (s : State) : (s.setTimeState t).intake = s.intake := by
  unfold State.setTimeState
  split <;> rfl
@[simp] theorem State.setTimeState_engine (t : TimeState) (s : State) : (s.setTimeState t).engine = s.engine := by
  unfold State.setTimeState
  split <;> rfl
@[simp] theorem State.setTimeState_sched (t : TimeState) (s : State) : (s.setTimeState t).sched = s.sched := by
  unfold State.setTimeState
  split <;> rfl
@[simp] theorem State.setTimeState_assoc (t : TimeState) (s : State) : (s.setTimeState t).assoc = s.assoc := by
  unfold State.setTimeState
  split <;> rfl
@[simp] theorem State.setTimeState_clip (t : TimeState) (s : State) : (s.setTimeState t).clip = s.clip := by
  unfold State.setTimeState
  split <;> rfl
@[simp] theorem State.setTimeState_guard (t : TimeState) (s : State) : (s.setTimeState t).guard = s.guard := by
  unfold State.setTimeState
  split <;> rfl
@[simp] theorem State.setTimeState_report (t : TimeState) (s : State) : (s.setTimeState t).report = s.report := by
  unfold State.setTimeState
  split <;> rfl
@[simp] theorem State.setTimeState_tallies (t : TimeState) (s : State) : (s.setTimeState t).tallies = s.tallies := by
  unfold State.setTimeState
  split <;> rfl
@[simp] theorem State.setTimeState_attend (t : TimeState) (s : State) : (s.setTimeState t).attend = s.attend := by
  unfold State.setTimeState
  split <;> rfl
@[simp] theorem State.setTimeState_draws (t : TimeState) (s : State) : (s.setTimeState t).draws = s.draws := by
  unfold State.setTimeState
  split <;> rfl
@[simp] theorem State.setTimeState_pending (t : TimeState) (s : State) : (s.setTimeState t).pending = s.pending := by
  unfold State.setTimeState
  split <;> rfl

@[simp] theorem State.setSchedState_time (x : SchedState) (s : State) : (s.setSchedState x).time = s.time := by
  unfold State.setSchedState
  split <;> rfl
@[simp] theorem State.setSchedState_control (x : SchedState) (s : State) : (s.setSchedState x).control = s.control := by
  unfold State.setSchedState
  split <;> rfl
@[simp] theorem State.setSchedState_intake (x : SchedState) (s : State) : (s.setSchedState x).intake = s.intake := by
  unfold State.setSchedState
  split <;> rfl
@[simp] theorem State.setSchedState_engine (x : SchedState) (s : State) : (s.setSchedState x).engine = s.engine := by
  unfold State.setSchedState
  split <;> rfl
@[simp] theorem State.setSchedState_assoc (x : SchedState) (s : State) : (s.setSchedState x).assoc = s.assoc := by
  unfold State.setSchedState
  split <;> rfl
@[simp] theorem State.setSchedState_clip (x : SchedState) (s : State) : (s.setSchedState x).clip = s.clip := by
  unfold State.setSchedState
  split <;> rfl
@[simp] theorem State.setSchedState_guard (x : SchedState) (s : State) : (s.setSchedState x).guard = s.guard := by
  unfold State.setSchedState
  split <;> rfl
@[simp] theorem State.setSchedState_report (x : SchedState) (s : State) : (s.setSchedState x).report = s.report := by
  unfold State.setSchedState
  split <;> rfl
@[simp] theorem State.setSchedState_tallies (x : SchedState) (s : State) : (s.setSchedState x).tallies = s.tallies := by
  unfold State.setSchedState
  split <;> rfl
@[simp] theorem State.setSchedState_attend (x : SchedState) (s : State) : (s.setSchedState x).attend = s.attend := by
  unfold State.setSchedState
  split <;> rfl
@[simp] theorem State.setSchedState_wires (x : SchedState) (s : State) : (s.setSchedState x).wires = s.wires := by
  unfold State.setSchedState
  split <;> rfl
@[simp] theorem State.setSchedState_draws (x : SchedState) (s : State) : (s.setSchedState x).draws = s.draws := by
  unfold State.setSchedState
  split <;> rfl
@[simp] theorem State.setSchedState_pending (x : SchedState) (s : State) : (s.setSchedState x).pending = s.pending := by
  unfold State.setSchedState
  split <;> rfl

@[simp] theorem State.setPointers_time (a b : Nat) (s : State) : (s.setPointers a b).time = s.time := by
  unfold State.setPointers
  split <;> rfl
@[simp] theorem State.setPointers_control (a b : Nat) (s : State) : (s.setPointers a b).control = s.control := by
  unfold State.setPointers
  split <;> rfl
@[simp] theorem State.setPointers_intake (a b : Nat) (s : State) : (s.setPointers a b).intake = s.intake := by
  unfold State.setPointers
  split <;> rfl
@[simp] theorem State.setPointers_engine (a b : Nat) (s : State) : (s.setPointers a b).engine = s.engine := by
  unfold State.setPointers
  split <;> rfl
@[simp] theorem State.setPointers_sched (a b : Nat) (s : State) : (s.setPointers a b).sched = s.sched := by
  unfold State.setPointers
  split <;> rfl
@[simp] theorem State.setPointers_assoc (a b : Nat) (s : State) : (s.setPointers a b).assoc = s.assoc := by
  unfold State.setPointers
  split <;> rfl
@[simp] theorem State.setPointers_guard (a b : Nat) (s : State) : (s.setPointers a b).guard = s.guard := by
  unfold State.setPointers
  split <;> rfl
@[simp] theorem State.setPointers_report (a b : Nat) (s : State) : (s.setPointers a b).report = s.report := by
  unfold State.setPointers
  split <;> rfl
@[simp] theorem State.setPointers_tallies (a b : Nat) (s : State) : (s.setPointers a b).tallies = s.tallies := by
  unfold State.setPointers
  split <;> rfl
@[simp] theorem State.setPointers_attend (a b : Nat) (s : State) : (s.setPointers a b).attend = s.attend := by
  unfold State.setPointers
  split <;> rfl
@[simp] theorem State.setPointers_wires (a b : Nat) (s : State) : (s.setPointers a b).wires = s.wires := by
  unfold State.setPointers
  split <;> rfl
@[simp] theorem State.setPointers_draws (a b : Nat) (s : State) : (s.setPointers a b).draws = s.draws := by
  unfold State.setPointers
  split <;> rfl
@[simp] theorem State.setPointers_pending (a b : Nat) (s : State) : (s.setPointers a b).pending = s.pending := by
  unfold State.setPointers
  split <;> rfl

@[simp] theorem State.setCause_time (c : ResetCause) (s : State) : (s.setCause c).time = s.time := by
  unfold State.setCause
  split <;> rfl
@[simp] theorem State.setCause_intake (c : ResetCause) (s : State) : (s.setCause c).intake = s.intake := by
  unfold State.setCause
  split <;> rfl
@[simp] theorem State.setCause_engine (c : ResetCause) (s : State) : (s.setCause c).engine = s.engine := by
  unfold State.setCause
  split <;> rfl
@[simp] theorem State.setCause_sched (c : ResetCause) (s : State) : (s.setCause c).sched = s.sched := by
  unfold State.setCause
  split <;> rfl
@[simp] theorem State.setCause_assoc (c : ResetCause) (s : State) : (s.setCause c).assoc = s.assoc := by
  unfold State.setCause
  split <;> rfl
@[simp] theorem State.setCause_clip (c : ResetCause) (s : State) : (s.setCause c).clip = s.clip := by
  unfold State.setCause
  split <;> rfl
@[simp] theorem State.setCause_guard (c : ResetCause) (s : State) : (s.setCause c).guard = s.guard := by
  unfold State.setCause
  split <;> rfl
@[simp] theorem State.setCause_report (c : ResetCause) (s : State) : (s.setCause c).report = s.report := by
  unfold State.setCause
  split <;> rfl
@[simp] theorem State.setCause_tallies (c : ResetCause) (s : State) : (s.setCause c).tallies = s.tallies := by
  unfold State.setCause
  split <;> rfl
@[simp] theorem State.setCause_attend (c : ResetCause) (s : State) : (s.setCause c).attend = s.attend := by
  unfold State.setCause
  split <;> rfl
@[simp] theorem State.setCause_wires (c : ResetCause) (s : State) : (s.setCause c).wires = s.wires := by
  unfold State.setCause
  split <;> rfl
@[simp] theorem State.setCause_draws (c : ResetCause) (s : State) : (s.setCause c).draws = s.draws := by
  unfold State.setCause
  split <;> rfl
@[simp] theorem State.setCause_pending (c : ResetCause) (s : State) : (s.setCause c).pending = s.pending := by
  unfold State.setCause
  split <;> rfl

@[simp] theorem State.announceSecond_control (s : State) : (s.announceSecond).control = s.control := by
  unfold State.announceSecond
  split <;> rfl
@[simp] theorem State.announceSecond_intake (s : State) : (s.announceSecond).intake = s.intake := by
  unfold State.announceSecond
  split <;> rfl
@[simp] theorem State.announceSecond_engine (s : State) : (s.announceSecond).engine = s.engine := by
  unfold State.announceSecond
  split <;> rfl
@[simp] theorem State.announceSecond_sched (s : State) : (s.announceSecond).sched = s.sched := by
  unfold State.announceSecond
  split <;> rfl
@[simp] theorem State.announceSecond_assoc (s : State) : (s.announceSecond).assoc = s.assoc := by
  unfold State.announceSecond
  split <;> rfl
@[simp] theorem State.announceSecond_clip (s : State) : (s.announceSecond).clip = s.clip := by
  unfold State.announceSecond
  split <;> rfl
@[simp] theorem State.announceSecond_guard (s : State) : (s.announceSecond).guard = s.guard := by
  unfold State.announceSecond
  split <;> rfl
@[simp] theorem State.announceSecond_report (s : State) : (s.announceSecond).report = s.report := by
  unfold State.announceSecond
  split <;> rfl
@[simp] theorem State.announceSecond_tallies (s : State) : (s.announceSecond).tallies = s.tallies := by
  unfold State.announceSecond
  split <;> rfl
@[simp] theorem State.announceSecond_attend (s : State) : (s.announceSecond).attend = s.attend := by
  unfold State.announceSecond
  split <;> rfl
@[simp] theorem State.announceSecond_wires (s : State) : (s.announceSecond).wires = s.wires := by
  unfold State.announceSecond
  split <;> rfl
@[simp] theorem State.announceSecond_draws (s : State) : (s.announceSecond).draws = s.draws := by
  unfold State.announceSecond
  split <;> rfl
@[simp] theorem State.announceSecond_pending (s : State) : (s.announceSecond).pending = s.pending := by
  unfold State.announceSecond
  split <;> rfl

@[simp] theorem State.countMemerr_time (m : MemCode) (s : State) : (s.countMemerr m).time = s.time := by
  cases m <;> rfl
@[simp] theorem State.countMemerr_control (m : MemCode) (s : State) : (s.countMemerr m).control = s.control := by
  cases m <;> rfl
@[simp] theorem State.countMemerr_intake (m : MemCode) (s : State) : (s.countMemerr m).intake = s.intake := by
  cases m <;> rfl
@[simp] theorem State.countMemerr_engine (m : MemCode) (s : State) : (s.countMemerr m).engine = s.engine := by
  cases m <;> rfl
@[simp] theorem State.countMemerr_sched (m : MemCode) (s : State) : (s.countMemerr m).sched = s.sched := by
  cases m <;> rfl
@[simp] theorem State.countMemerr_assoc (m : MemCode) (s : State) : (s.countMemerr m).assoc = s.assoc := by
  cases m <;> rfl
@[simp] theorem State.countMemerr_clip (m : MemCode) (s : State) : (s.countMemerr m).clip = s.clip := by
  cases m <;> rfl
@[simp] theorem State.countMemerr_guard (m : MemCode) (s : State) : (s.countMemerr m).guard = s.guard := by
  cases m <;> rfl
@[simp] theorem State.countMemerr_report (m : MemCode) (s : State) : (s.countMemerr m).report = s.report := by
  cases m <;> rfl
@[simp] theorem State.countMemerr_attend (m : MemCode) (s : State) : (s.countMemerr m).attend = s.attend := by
  cases m <;> rfl
@[simp] theorem State.countMemerr_wires (m : MemCode) (s : State) : (s.countMemerr m).wires = s.wires := by
  cases m <;> rfl
@[simp] theorem State.countMemerr_draws (m : MemCode) (s : State) : (s.countMemerr m).draws = s.draws := by
  cases m <;> rfl
@[simp] theorem State.countMemerr_pending (m : MemCode) (s : State) : (s.countMemerr m).pending = s.pending := by
  cases m <;> rfl

@[simp] theorem State.writeCompleted_time (o : Outstanding) (m : MemCode) (s : State) : (s.writeCompleted o m).time = s.time := by
  unfold State.writeCompleted
  cases m
  · simp
  · simp only
    split <;> simp
@[simp] theorem State.writeCompleted_control (o : Outstanding) (m : MemCode) (s : State) : (s.writeCompleted o m).control = s.control := by
  unfold State.writeCompleted
  cases m
  · simp
  · simp only
    split <;> simp
@[simp] theorem State.writeCompleted_intake (o : Outstanding) (m : MemCode) (s : State) : (s.writeCompleted o m).intake = s.intake := by
  unfold State.writeCompleted
  cases m
  · simp
  · simp only
    split <;> simp
@[simp] theorem State.writeCompleted_engine (o : Outstanding) (m : MemCode) (s : State) : (s.writeCompleted o m).engine = s.engine := by
  unfold State.writeCompleted
  cases m
  · simp
  · simp only
    split <;> simp
@[simp] theorem State.writeCompleted_sched (o : Outstanding) (m : MemCode) (s : State) : (s.writeCompleted o m).sched = s.sched := by
  unfold State.writeCompleted
  cases m
  · simp
  · simp only
    split <;> simp
@[simp] theorem State.writeCompleted_assoc (o : Outstanding) (m : MemCode) (s : State) : (s.writeCompleted o m).assoc = s.assoc := by
  unfold State.writeCompleted
  cases m
  · simp
  · simp only
    split <;> simp
@[simp] theorem State.writeCompleted_clip (o : Outstanding) (m : MemCode) (s : State) : (s.writeCompleted o m).clip = s.clip := by
  unfold State.writeCompleted
  cases m
  · simp
  · simp only
    split <;> simp
@[simp] theorem State.writeCompleted_guard (o : Outstanding) (m : MemCode) (s : State) : (s.writeCompleted o m).guard = s.guard := by
  unfold State.writeCompleted
  cases m
  · simp
  · simp only
    split <;> simp
@[simp] theorem State.writeCompleted_report (o : Outstanding) (m : MemCode) (s : State) : (s.writeCompleted o m).report = s.report := by
  unfold State.writeCompleted
  cases m
  · simp
  · simp only
    split <;> simp
@[simp] theorem State.writeCompleted_attend (o : Outstanding) (m : MemCode) (s : State) : (s.writeCompleted o m).attend = s.attend := by
  unfold State.writeCompleted
  cases m
  · simp
  · simp only
    split <;> simp
@[simp] theorem State.writeCompleted_wires (o : Outstanding) (m : MemCode) (s : State) : (s.writeCompleted o m).wires = s.wires := by
  unfold State.writeCompleted
  cases m
  · simp
  · simp only
    split <;> simp
@[simp] theorem State.writeCompleted_draws (o : Outstanding) (m : MemCode) (s : State) : (s.writeCompleted o m).draws = s.draws := by
  unfold State.writeCompleted
  cases m
  · simp
  · simp only
    split <;> simp
@[simp] theorem State.writeCompleted_pending (o : Outstanding) (m : MemCode) (s : State) : (s.writeCompleted o m).pending = s.pending := by
  unfold State.writeCompleted
  cases m
  · simp
  · simp only
    split <;> simp

/-! ### What they set -/

@[simp] theorem State.setPending_status_pending (p : BitVec 24) (s : State) : (s.setPending p).status.pending = p := by
  unfold State.setPending
  split
  next h => exact h.symm
  · rfl

@[simp] theorem State.raise_status_pending (n : Notice) (s : State) :
    (s.raise n).status.pending = s.status.pending ||| n.bit := State.setPending_status_pending _ _

@[simp] theorem State.clearKinds_status_pending (k : BitVec 24) (s : State) :
    (s.clearKinds k).status.pending = s.status.pending &&& ~~~k := State.setPending_status_pending _ _

/-- What a change of the pending set leaves of the status record (R166). -/
@[simp] theorem State.setPending_status_rest (p : BitVec 24) (s : State) :
    (s.setPending p).status.heartbeat = s.status.heartbeat ∧ (s.setPending p).status.newRecords = s.status.newRecords ∧
      (s.setPending p).status.dump = s.status.dump ∧ (s.setPending p).status.result = s.status.result ∧
      (s.setPending p).status.offer = s.status.offer := by
  unfold State.setPending
  split <;> exact ⟨rfl, rfl, rfl, rfl, rfl⟩

/-- What the end of an event leaves of the status record: the choice of the STATUS claimant touches the offer and the result alone
(R170). -/
@[simp] theorem Status.choose_rest (w : Status) :
    w.choose.pending = w.pending ∧ w.choose.irq = w.irq ∧ w.choose.rewrite = w.rewrite ∧ w.choose.heartbeat = w.heartbeat ∧
      w.choose.newRecords = w.newRecords ∧ w.choose.dump = w.dump := by
  unfold Status.choose
  repeat' split
  all_goals exact ⟨rfl, rfl, rfl, rfl, rfl, rfl⟩

/-- A result handed over stands with the writer at the end of the event (R154, R170). -/
theorem State.settle_hasResult (r : Result) (s : State) (h : s.status.result = some r) : s.settle.hasResult r := by
  unfold State.hasResult
  rw [State.settle_status]
  unfold Status.choose
  split
  · exact Or.inl h
  · rw [h]
    exact Or.inr rfl

/-- The general fields, station entries and mask of a setup in force (R158). -/
theorem State.gen_of_setup {s : State} {u : Setup} (h : s.control.setup = some u) : s.gen = u.gen := by
  unfold State.gen
  rw [h]
theorem State.station_of_setup {s : State} {u : Setup} (h : s.control.setup = some u) (st : Nat) :
    s.station st = u.stations[st]? := by
  unfold State.station
  rw [h]
theorem State.mask_of_setup {s : State} {u : Setup} (h : s.control.setup = some u) : s.mask = u.gen.noticeMask := by
  unfold State.mask
  rw [h]

/-- A command that took effect answers a next state. -/
theorem done_next (s : State) : done s = .next s.settle := rfl

theorem nothing_next (s : State) : nothing s = .next s := rfl

end Sys2Proof.Machine
end

