-- ==== Sys2Proof/Laws/Frames.lean ====
section
/-! SUPPORT. What each operation leaves as it was: one lemma per operation, that names the areas it may change. -/
-- One lemma after another: elaborated side by side, the package as one text would need too many threads.
set_option Elab.async false
namespace Sys2Proof.Machine

/-! ### Frames compose -/

theorem Frame.refl (l : List Area) (s : State) : Frame l s s := by
  intro a _
  cases a <;> simp [Same]

theorem Same.trans {s t u : State} {a : Area} (h : Same s t a) (k : Same t u a) : Same s u a := by
  cases a <;> simp_all [Same]

theorem Frame.trans {l : List Area} {s t u : State} (h : Frame l s t) (k : Frame l t u) : Frame l s u :=
  fun a m => Same.trans (h a m) (k a m)

theorem Frame.mono {l m : List Area} {s t : State} (h : Frame l s t) (k : l ⊆ m) : Frame m s t :=
  fun a n => h a fun x => n (k x)

/-- A second operation, whose areas are among those named. -/
theorem Frame.andThen {l m : List Area} {s t u : State} (h : Frame m s t) (k : Frame l t u) (q : l ⊆ m) : Frame m s u :=
  h.trans (k.mono q)

theorem Frame.foldl {α : Type} {l : List Area} {s t : State} {f : State → α → State} (h : ∀ t a, Frame l t (f t a)) (xs : List α)
    (k : Frame l s t) : Frame l s (xs.foldl f t) := by
  induction xs generalizing t with
  | nil => exact k
  | cons x xs ih => exact ih (k.trans (h _ _))

/-! ### The operations -/

theorem State.setTime_frame (f : TimeBase → TimeBase) {al : List Area} {s₀ s : State} (fr : Frame al s₀ s) (sub : [.time] ⊆ al) :
    Frame al s₀ (State.setTime f s) := by
  refine fr.andThen ?_ sub
  intro a n
  unfold State.setTime
  try dsimp only
  repeat' split
  all_goals cases a <;> simp_all [Same]
theorem State.setControl_frame (f : Control → Control) {al : List Area} {s₀ s : State} (fr : Frame al s₀ s) (sub : [.control] ⊆ al) :
    Frame al s₀ (State.setControl f s) := by
  refine fr.andThen ?_ sub
  intro a n
  unfold State.setControl
  try dsimp only
  repeat' split
  all_goals cases a <;> simp_all [Same]
theorem State.setIntake_frame (f : Intake → Intake) {al : List Area} {s₀ s : State} (fr : Frame al s₀ s) (sub : [.intake] ⊆ al) :
    Frame al s₀ (State.setIntake f s) := by
  refine fr.andThen ?_ sub
  intro a n
  unfold State.setIntake
  try dsimp only
  repeat' split
  all_goals cases a <;> simp_all [Same]
theorem State.setEngine_frame (f : List Detector → List Detector) {al : List Area} {s₀ s : State} (fr : Frame al s₀ s)
    (sub : [.engine] ⊆ al) : Frame al s₀ (State.setEngine f s) := by
  refine fr.andThen ?_ sub
  intro a n
  unfold State.setEngine
  try dsimp only
  repeat' split
  all_goals cases a <;> simp_all [Same]
theorem State.setSched_frame (f : Schedule → Schedule) {al : List Area} {s₀ s : State} (fr : Frame al s₀ s) (sub : [.sched] ⊆ al) :
    Frame al s₀ (State.setSched f s) := by
  refine fr.andThen ?_ sub
  intro a n
  unfold State.setSched
  try dsimp only
  repeat' split
  all_goals cases a <;> simp_all [Same]
theorem State.setAssoc_frame (f : Assoc → Assoc) {al : List Area} {s₀ s : State} (fr : Frame al s₀ s) (sub : [.assoc] ⊆ al) :
    Frame al s₀ (State.setAssoc f s) := by
  refine fr.andThen ?_ sub
  intro a n
  unfold State.setAssoc
  try dsimp only
  repeat' split
  all_goals cases a <;> simp_all [Same]
theorem State.setClip_frame (f : Clip → Clip) {al : List Area} {s₀ s : State} (fr : Frame al s₀ s) (sub : [.clip] ⊆ al) :
    Frame al s₀ (State.setClip f s) := by
  refine fr.andThen ?_ sub
  intro a n
  unfold State.setClip
  try dsimp only
  repeat' split
  all_goals cases a <;> simp_all [Same]
theorem State.setGuard_frame (f : PathGuard → PathGuard) {al : List Area} {s₀ s : State} (fr : Frame al s₀ s) (sub : [.guard] ⊆ al) :
    Frame al s₀ (State.setGuard f s) := by
  refine fr.andThen ?_ sub
  intro a n
  unfold State.setGuard
  try dsimp only
  repeat' split
  all_goals cases a <;> simp_all [Same]
theorem State.setReport_frame (f : ReportRing → ReportRing) {al : List Area} {s₀ s : State} (fr : Frame al s₀ s) (sub : [.report] ⊆ al) :
    Frame al s₀ (State.setReport f s) := by
  refine fr.andThen ?_ sub
  intro a n
  unfold State.setReport
  try dsimp only
  repeat' split
  all_goals cases a <;> simp_all [Same]
theorem State.setStatus_frame (f : Status → Status) {al : List Area} {s₀ s : State} (fr : Frame al s₀ s)
    (sub : [.notices, .writer, .line] ⊆ al) : Frame al s₀ (State.setStatus f s) := by
  refine fr.andThen ?_ sub
  intro a n
  unfold State.setStatus
  try dsimp only
  repeat' split
  all_goals cases a <;> simp_all [Same]
theorem State.setAttend_frame (f : Attend → Attend) {al : List Area} {s₀ s : State} (fr : Frame al s₀ s) (sub : [.attend] ⊆ al) :
    Frame al s₀ (State.setAttend f s) := by
  refine fr.andThen ?_ sub
  intro a n
  unfold State.setAttend
  try dsimp only
  repeat' split
  all_goals cases a <;> simp_all [Same]
theorem State.setWires_frame (f : Wires → Wires) {al : List Area} {s₀ s : State} (fr : Frame al s₀ s) (sub : [.wires] ⊆ al) :
    Frame al s₀ (State.setWires f s) := by
  refine fr.andThen ?_ sub
  intro a n
  unfold State.setWires
  try dsimp only
  repeat' split
  all_goals cases a <;> simp_all [Same]
theorem State.askRewrite_frame {al : List Area} {s₀ s : State} (fr : Frame al s₀ s) (sub : [.writer] ⊆ al) :
    Frame al s₀ (State.askRewrite s) := by
  refine fr.andThen ?_ sub
  intro a n
  unfold State.askRewrite
  try dsimp only
  repeat' split
  all_goals cases a <;> simp_all [Same]
theorem State.setPending_frame (p : BitVec 24) {al : List Area} {s₀ s : State} (fr : Frame al s₀ s) (sub : [.notices, .writer] ⊆ al) :
    Frame al s₀ (State.setPending p s) := by
  refine fr.andThen ?_ sub
  intro a n
  unfold State.setPending
  try dsimp only
  repeat' split
  all_goals cases a <;> simp_all [Same]
theorem State.raise_frame (n : Notice) {al : List Area} {s₀ s : State} (fr : Frame al s₀ s) (sub : [.notices, .writer] ⊆ al) :
    Frame al s₀ (State.raise n s) := by
  refine fr.andThen ?_ sub
  unfold State.raise
  try dsimp only
  repeat' first
    | with_reducible exact Frame.refl _ _
    | with_reducible apply State.setPending_frame
    | split
  all_goals decide
theorem State.maskChanged_frame {al : List Area} {s₀ s : State} (fr : Frame al s₀ s) (sub : [.notices, .writer] ⊆ al) :
    Frame al s₀ (State.maskChanged s) := by
  refine fr.andThen ?_ sub
  intro a n
  unfold State.maskChanged
  try dsimp only
  repeat' split
  all_goals cases a <;> simp_all [Same]
theorem State.countBy_frame (t : Tally) (k : Nat) {al : List Area} {s₀ s : State} (fr : Frame al s₀ s) (sub : [.tallies] ⊆ al) :
    Frame al s₀ (State.countBy t k s) := by
  refine fr.andThen ?_ sub
  intro a n
  unfold State.countBy
  try dsimp only
  repeat' split
  all_goals cases a <;> simp_all [Same]
theorem State.count_frame (t : Tally) {al : List Area} {s₀ s : State} (fr : Frame al s₀ s) (sub : [.tallies] ⊆ al) :
    Frame al s₀ (State.count t s) := by
  refine fr.andThen ?_ sub
  unfold State.count
  try dsimp only
  repeat' first
    | with_reducible exact Frame.refl _ _
    | with_reducible apply State.countBy_frame
    | split
  all_goals decide
theorem State.countStation_frame (st : Nat) (f : StationTallies → StationTallies) {al : List Area} {s₀ s : State} (fr : Frame al s₀ s)
    (sub : [.tallies] ⊆ al) : Frame al s₀ (State.countStation st f s) := by
  refine fr.andThen ?_ sub
  intro a n
  unfold State.countStation
  try dsimp only
  repeat' split
  all_goals cases a <;> simp_all [Same]
theorem State.memFault_frame {al : List Area} {s₀ s : State} (fr : Frame al s₀ s) (sub : [.notices, .writer] ⊆ al) :
    Frame al s₀ (State.memFault s) := by
  refine fr.andThen ?_ sub
  unfold State.memFault
  try dsimp only
  repeat' first
    | with_reducible exact Frame.refl _ _
    | with_reducible apply State.raise_frame
    | split
  all_goals decide
theorem State.setupIgnored_frame {al : List Area} {s₀ s : State} (fr : Frame al s₀ s) (sub : [.notices, .writer, .tallies] ⊆ al) :
    Frame al s₀ (State.setupIgnored s) := by
  refine fr.andThen ?_ sub
  unfold State.setupIgnored
  try dsimp only
  repeat' first
    | with_reducible exact Frame.refl _ _
    | with_reducible apply State.raise_frame
    | with_reducible apply State.count_frame
    | split
  all_goals decide
theorem State.putResult_frame (r : Result) {al : List Area} {s₀ s : State} (fr : Frame al s₀ s) (sub : [.writer] ⊆ al) :
    Frame al s₀ (State.putResult r s) := by
  refine fr.andThen ?_ sub
  intro a n
  unfold State.putResult
  try dsimp only
  repeat' split
  all_goals cases a <;> simp_all [Same]
theorem State.settle_frame {al : List Area} {s₀ s : State} (fr : Frame al s₀ s) (sub : [.writer] ⊆ al) : Frame al s₀ (State.settle s) := by
  refine fr.andThen ?_ sub
  intro a n
  unfold State.settle
  try dsimp only
  repeat' split
  all_goals cases a <;> simp_all [Same]
theorem State.setStation_frame (st : Nat) (f : StationEntry → StationEntry) {al : List Area} {s₀ s : State} (fr : Frame al s₀ s)
    (sub : [.control] ⊆ al) : Frame al s₀ (State.setStation st f s) := by
  refine fr.andThen ?_ sub
  unfold State.setStation
  try dsimp only
  repeat' first
    | with_reducible exact Frame.refl _ _
    | with_reducible apply State.setControl_frame
    | split
  all_goals decide
theorem State.setGen_frame (f : General → General) {al : List Area} {s₀ s : State} (fr : Frame al s₀ s) (sub : [.control] ⊆ al) :
    Frame al s₀ (State.setGen f s) := by
  refine fr.andThen ?_ sub
  unfold State.setGen
  try dsimp only
  repeat' first
    | with_reducible exact Frame.refl _ _
    | with_reducible apply State.setControl_frame
    | split
  all_goals decide
theorem State.setPart_frame (p : PartState) {al : List Area} {s₀ s : State} (fr : Frame al s₀ s) (sub : [.control, .writer] ⊆ al) :
    Frame al s₀ (State.setPart p s) := by
  refine fr.andThen ?_ sub
  unfold State.setPart
  try dsimp only
  repeat' first
    | with_reducible exact Frame.refl _ _
    | with_reducible apply State.setControl_frame
    | with_reducible apply State.askRewrite_frame
    | split
  all_goals decide
theorem State.setTimeState_frame (t : TimeState) {al : List Area} {s₀ s : State} (fr : Frame al s₀ s)
    (sub : [.time, .writer, .wires] ⊆ al) : Frame al s₀ (State.setTimeState t s) := by
  refine fr.andThen ?_ sub
  unfold State.setTimeState
  try dsimp only
  repeat' first
    | with_reducible exact Frame.refl _ _
    | with_reducible apply State.setTime_frame
    | with_reducible apply State.setWires_frame
    | with_reducible apply State.askRewrite_frame
    | split
  all_goals decide
theorem State.sendAssoc_frame (ms : List AssocMsg) {al : List Area} {s₀ s : State} (fr : Frame al s₀ s) (sub : [.wires] ⊆ al) :
    Frame al s₀ (State.sendAssoc ms s) := by
  refine fr.andThen ?_ sub
  unfold State.sendAssoc
  try dsimp only
  repeat' first
    | with_reducible exact Frame.refl _ _
    | with_reducible apply State.setWires_frame
    | split
  all_goals decide
theorem State.askPins_frame (ms : List PinMsg) {al : List Area} {s₀ s : State} (fr : Frame al s₀ s) (sub : [.wires] ⊆ al) :
    Frame al s₀ (State.askPins ms s) := by
  refine fr.andThen ?_ sub
  unfold State.askPins
  try dsimp only
  repeat' first
    | with_reducible exact Frame.refl _ _
    | with_reducible apply State.setWires_frame
    | split
  all_goals decide
theorem State.tellSlotFree_frame (slot : Nat) {al : List Area} {s₀ s : State} (fr : Frame al s₀ s) (sub : [.wires] ⊆ al) :
    Frame al s₀ (State.tellSlotFree slot s) := by
  refine fr.andThen ?_ sub
  unfold State.tellSlotFree
  try dsimp only
  repeat' first
    | with_reducible exact Frame.refl _ _
    | with_reducible apply State.setWires_frame
    | split
  all_goals decide
theorem State.askState_frame (ev : Nat) (t : EventState) {al : List Area} {s₀ s : State} (fr : Frame al s₀ s) (sub : [.wires] ⊆ al) :
    Frame al s₀ (State.askState ev t s) := by
  refine fr.andThen ?_ sub
  unfold State.askState
  try dsimp only
  repeat' first
    | with_reducible exact Frame.refl _ _
    | with_reducible apply State.setWires_frame
    | split
  all_goals decide
theorem State.moveDeadlines_frame (step : Nat) {al : List Area} {s₀ s : State} (fr : Frame al s₀ s)
    (sub : [.intake, .engine, .sched, .assoc, .clip, .guard, .attend] ⊆ al) : Frame al s₀ (State.moveDeadlines step s) := by
  refine fr.andThen ?_ sub
  intro a n
  unfold State.moveDeadlines
  try dsimp only
  repeat' split
  all_goals cases a <;> simp_all [Same]
theorem State.announceSecond_frame {al : List Area} {s₀ s : State} (fr : Frame al s₀ s) (sub : [.time, .writer] ⊆ al) :
    Frame al s₀ (State.announceSecond s) := by
  refine fr.andThen ?_ sub
  unfold State.announceSecond
  try dsimp only
  repeat' first
    | with_reducible exact Frame.refl _ _
    | with_reducible apply State.setTime_frame
    | with_reducible apply State.askRewrite_frame
    | with_reducible apply State.count_frame
    | split
  all_goals decide
theorem State.stepTime_frame (t : Nat) {al : List Area} {s₀ s : State} (fr : Frame al s₀ s)
    (sub : [.time, .intake, .engine, .sched, .assoc, .clip, .guard, .writer, .attend] ⊆ al) : Frame al s₀ (State.stepTime t s) := by
  refine fr.andThen ?_ sub
  unfold State.stepTime
  try dsimp only
  repeat' first
    | with_reducible exact Frame.refl _ _
    | with_reducible apply State.setTime_frame
    | with_reducible apply State.count_frame
    | with_reducible apply State.moveDeadlines_frame
    | with_reducible apply State.announceSecond_frame
    | split
  all_goals decide
theorem State.rateLimit_frame {al : List Area} {s₀ s : State} (fr : Frame al s₀ s) (sub : [.notices, .writer, .tallies] ⊆ al) :
    Frame al s₀ (State.rateLimit s) := by
  refine fr.andThen ?_ sub
  unfold State.rateLimit
  try dsimp only
  repeat' first
    | with_reducible exact Frame.refl _ _
    | with_reducible apply State.raise_frame
    | with_reducible apply State.count_frame
    | split
  all_goals decide
theorem State.measure_frame {al : List Area} {s₀ s : State} (fr : Frame al s₀ s) (sub : [.time, .notices, .writer, .tallies] ⊆ al) :
    Frame al s₀ (State.measure s) := by
  refine fr.andThen ?_ sub
  unfold State.measure
  try dsimp only
  repeat' first
    | with_reducible exact Frame.refl _ _
    | with_reducible apply State.setTime_frame
    | with_reducible apply State.rateLimit_frame
    | split
  all_goals decide
theorem State.setRate_frame (r : Nat) {al : List Area} {s₀ s : State} (fr : Frame al s₀ s) (sub : [.time] ⊆ al) :
    Frame al s₀ (State.setRate r s) := by
  refine fr.andThen ?_ sub
  unfold State.setRate
  try dsimp only
  repeat' first
    | with_reducible exact Frame.refl _ _
    | with_reducible apply State.setTime_frame
    | split
  all_goals decide
theorem State.slew_frame (e : Nat) {al : List Area} {s₀ s : State} (fr : Frame al s₀ s)
    (sub : [.time, .notices, .writer, .tallies] ⊆ al) : Frame al s₀ (State.slew e s) := by
  refine fr.andThen ?_ sub
  unfold State.slew
  try dsimp only
  repeat' first
    | with_reducible exact Frame.refl _ _
    | with_reducible apply State.raise_frame
    | with_reducible apply State.rateLimit_frame
    | with_reducible apply State.setRate_frame
    | split
  all_goals decide
theorem State.settlePhase_frame {al : List Area} {s₀ s : State} (fr : Frame al s₀ s)
    (sub : [.time, .intake, .engine, .sched, .assoc, .clip, .guard, .notices, .writer, .tallies, .attend] ⊆ al) :
    Frame al s₀ (State.settlePhase s) := by
  refine fr.andThen ?_ sub
  unfold State.settlePhase
  try dsimp only
  repeat' first
    | with_reducible exact Frame.refl _ _
    | with_reducible apply State.count_frame
    | with_reducible apply State.stepTime_frame
    | with_reducible apply State.setRate_frame
    | with_reducible apply State.slew_frame
    | split
  all_goals decide
theorem State.recordPulse_frame {al : List Area} {s₀ s : State} (fr : Frame al s₀ s) (sub : [.time, .writer, .wires] ⊆ al) :
    Frame al s₀ (State.recordPulse s) := by
  refine fr.andThen ?_ sub
  unfold State.recordPulse
  try dsimp only
  repeat' first
    | with_reducible exact Frame.refl _ _
    | with_reducible apply State.setTime_frame
    | with_reducible apply State.count_frame
    | with_reducible apply State.setTimeState_frame
    | split
  all_goals decide
theorem State.discipline_frame {al : List Area} {s₀ s : State} (fr : Frame al s₀ s)
    (sub : [.time, .intake, .engine, .sched, .assoc, .clip, .guard, .notices, .writer, .tallies, .attend, .wires] ⊆ al) :
    Frame al s₀ (State.discipline s) := by
  refine fr.andThen ?_ sub
  unfold State.discipline
  try dsimp only
  repeat' first
    | with_reducible exact Frame.refl _ _
    | with_reducible apply State.measure_frame
    | with_reducible apply State.settlePhase_frame
    | with_reducible apply State.recordPulse_frame
    | split
  all_goals decide
theorem State.alignPulse_frame (target : Nat) {al : List Area} {s₀ s : State} (fr : Frame al s₀ s)
    (sub : [.time, .intake, .engine, .sched, .assoc, .clip, .guard, .notices, .writer, .tallies, .attend, .wires] ⊆ al) :
    Frame al s₀ (State.alignPulse target s) := by
  refine fr.andThen ?_ sub
  unfold State.alignPulse
  try dsimp only
  repeat' first
    | with_reducible exact Frame.refl _ _
    | with_reducible apply State.setTime_frame
    | with_reducible apply State.raise_frame
    | with_reducible apply State.count_frame
    | with_reducible apply State.setTimeState_frame
    | with_reducible apply State.stepTime_frame
    | with_reducible apply State.recordPulse_frame
    | with_reducible apply State.discipline_frame
    | split
  all_goals decide
theorem State.takePulse_frame {al : List Area} {s₀ s : State} (fr : Frame al s₀ s)
    (sub : [.time, .intake, .engine, .sched, .assoc, .clip, .guard, .notices, .writer, .tallies, .attend, .wires] ⊆ al) :
    Frame al s₀ (State.takePulse s) := by
  refine fr.andThen ?_ sub
  unfold State.takePulse
  try dsimp only
  repeat' first
    | with_reducible exact Frame.refl _ _
    | with_reducible apply State.raise_frame
    | with_reducible apply State.count_frame
    | with_reducible apply State.discipline_frame
    | with_reducible apply State.alignPulse_frame
    | split
  all_goals decide
theorem State.acceptSecond_frame (sec : Nat) {al : List Area} {s₀ s : State} (fr : Frame al s₀ s) (sub : [.time, .writer, .wires] ⊆ al) :
    Frame al s₀ (State.acceptSecond sec s) := by
  refine fr.andThen ?_ sub
  unfold State.acceptSecond
  try dsimp only
  repeat' first
    | with_reducible exact Frame.refl _ _
    | with_reducible apply State.setTime_frame
    | with_reducible apply State.setTimeState_frame
    | split
  all_goals decide
theorem State.loadRates_frame {al : List Area} {s₀ s : State} (fr : Frame al s₀ s) (sub : [.time] ⊆ al) :
    Frame al s₀ (State.loadRates s) := by
  refine fr.andThen ?_ sub
  unfold State.loadRates
  try dsimp only
  repeat' first
    | with_reducible exact Frame.refl _ _
    | with_reducible apply State.setTime_frame
    | split
  all_goals decide
theorem State.setSchedState_frame (x : SchedState) {al : List Area} {s₀ s : State} (fr : Frame al s₀ s) (sub : [.sched, .writer] ⊆ al) :
    Frame al s₀ (State.setSchedState x s) := by
  refine fr.andThen ?_ sub
  unfold State.setSchedState
  try dsimp only
  repeat' first
    | with_reducible exact Frame.refl _ _
    | with_reducible apply State.setSched_frame
    | with_reducible apply State.askRewrite_frame
    | split
  all_goals decide
theorem State.takeFrom_frame (i : Nat) {al : List Area} {s₀ s : State} (fr : Frame al s₀ s) (sub : [.sched] ⊆ al) :
    Frame al s₀ (State.takeFrom i s) := by
  refine fr.andThen ?_ sub
  unfold State.takeFrom
  try dsimp only
  repeat' first
    | with_reducible exact Frame.refl _ _
    | with_reducible apply State.setSched_frame
    | split
  all_goals decide
theorem State.takeStagedPeriod_frame {al : List Area} {s₀ s : State} (fr : Frame al s₀ s)
    (sub : [.sched, .notices, .writer, .tallies] ⊆ al) : Frame al s₀ (State.takeStagedPeriod s) := by
  refine fr.andThen ?_ sub
  unfold State.takeStagedPeriod
  try dsimp only
  repeat' first
    | with_reducible exact Frame.refl _ _
    | with_reducible apply State.setSched_frame
    | with_reducible apply State.setupIgnored_frame
    | split
  all_goals decide
theorem State.takeStagedBank_frame {al : List Area} {s₀ s : State} (fr : Frame al s₀ s)
    (sub : [.sched, .notices, .writer, .tallies] ⊆ al) : Frame al s₀ (State.takeStagedBank s) := by
  refine fr.andThen ?_ sub
  unfold State.takeStagedBank
  try dsimp only
  repeat' first
    | with_reducible exact Frame.refl _ _
    | with_reducible apply State.setSched_frame
    | with_reducible apply State.askRewrite_frame
    | with_reducible apply State.raise_frame
    | with_reducible apply State.setupIgnored_frame
    | split
  all_goals decide
theorem State.startTimer_frame (t : Nat) {al : List Area} {s₀ s : State} (fr : Frame al s₀ s) (sub : [.sched] ⊆ al) :
    Frame al s₀ (State.startTimer t s) := by
  refine fr.andThen ?_ sub
  unfold State.startTimer
  try dsimp only
  repeat' first
    | with_reducible exact Frame.refl _ _
    | with_reducible apply State.setSched_frame
    | split
  all_goals decide
theorem State.cycleStart_frame {al : List Area} {s₀ s : State} (fr : Frame al s₀ s) (sub : [.sched, .notices, .writer, .tallies] ⊆ al) :
    Frame al s₀ (State.cycleStart s) := by
  refine fr.andThen ?_ sub
  unfold State.cycleStart
  try dsimp only
  repeat' first
    | with_reducible exact Frame.refl _ _
    | with_reducible apply State.setSched_frame
    | with_reducible apply State.takeFrom_frame
    | with_reducible apply State.takeStagedPeriod_frame
    | with_reducible apply State.takeStagedBank_frame
    | with_reducible apply State.startTimer_frame
    | split
  all_goals decide
theorem State.leaveRunning_frame {al : List Area} {s₀ s : State} (fr : Frame al s₀ s) (sub : [.sched] ⊆ al) :
    Frame al s₀ (State.leaveRunning s) := by
  refine fr.andThen ?_ sub
  unfold State.leaveRunning
  try dsimp only
  repeat' first
    | with_reducible exact Frame.refl _ _
    | with_reducible apply State.setSched_frame
    | with_reducible apply State.cycleStart_frame
    | split
  all_goals decide
theorem State.enterWaitRef_frame {al : List Area} {s₀ s : State} (fr : Frame al s₀ s) (sub : [.sched, .writer] ⊆ al) :
    Frame al s₀ (State.enterWaitRef s) := by
  refine fr.andThen ?_ sub
  unfold State.enterWaitRef
  try dsimp only
  repeat' first
    | with_reducible exact Frame.refl _ _
    | with_reducible apply State.setSched_frame
    | with_reducible apply State.setSchedState_frame
    | with_reducible apply State.startTimer_frame
    | split
  all_goals decide
theorem State.stopSchedule_frame (x : SchedState) {al : List Area} {s₀ s : State} (fr : Frame al s₀ s) (sub : [.sched, .writer] ⊆ al) :
    Frame al s₀ (State.stopSchedule x s) := by
  refine fr.andThen ?_ sub
  unfold State.stopSchedule
  try dsimp only
  repeat' first
    | with_reducible exact Frame.refl _ _
    | with_reducible apply State.setSchedState_frame
    | with_reducible apply State.leaveRunning_frame
    | split
  all_goals decide
theorem State.applyConditions_frame (part : PartState) (time : TimeState) {al : List Area} {s₀ s : State} (fr : Frame al s₀ s)
    (sub : [.sched, .writer] ⊆ al) : Frame al s₀ (State.applyConditions part time s) := by
  refine fr.andThen ?_ sub
  unfold State.applyConditions
  try dsimp only
  repeat' first
    | with_reducible exact Frame.refl _ _
    | with_reducible apply State.enterWaitRef_frame
    | with_reducible apply State.stopSchedule_frame
    | split
  all_goals decide
theorem State.follow_frame {al : List Area} {s₀ s : State} (fr : Frame al s₀ s) (sub : [.sched, .notices, .writer, .tallies] ⊆ al) :
    Frame al s₀ (State.follow s) := by
  refine fr.andThen ?_ sub
  unfold State.follow
  try dsimp only
  repeat' first
    | with_reducible exact Frame.refl _ _
    | with_reducible apply State.setSchedState_frame
    | with_reducible apply State.cycleStart_frame
    | split
  all_goals decide
theorem State.watchReached_frame {al : List Area} {s₀ s : State} (fr : Frame al s₀ s) (sub : [.sched, .notices, .writer, .tallies] ⊆ al) :
    Frame al s₀ (State.watchReached s) := by
  refine fr.andThen ?_ sub
  unfold State.watchReached
  try dsimp only
  repeat' first
    | with_reducible exact Frame.refl _ _
    | with_reducible apply State.raise_frame
    | with_reducible apply State.count_frame
    | with_reducible apply State.setSchedState_frame
    | with_reducible apply State.cycleStart_frame
    | split
  all_goals decide
theorem State.clearCycle_frame {al : List Area} {s₀ s : State} (fr : Frame al s₀ s) (sub : [.sched] ⊆ al) :
    Frame al s₀ (State.clearCycle s) := by
  refine fr.andThen ?_ sub
  unfold State.clearCycle
  try dsimp only
  repeat' first
    | with_reducible exact Frame.refl _ _
    | with_reducible apply State.setSched_frame
    | with_reducible apply State.cycleStart_frame
    | split
  all_goals decide
theorem State.dropSchedNotes_frame {al : List Area} {s₀ s : State} (fr : Frame al s₀ s) (sub : [.wires] ⊆ al) :
    Frame al s₀ (State.dropSchedNotes s) := by
  refine fr.andThen ?_ sub
  unfold State.dropSchedNotes
  try dsimp only
  repeat' first
    | with_reducible exact Frame.refl _ _
    | with_reducible apply State.setWires_frame
    | split
  all_goals decide
theorem State.scheduleSoftReset_frame {al : List Area} {s₀ s : State} (fr : Frame al s₀ s) (sub : [.sched, .writer, .wires] ⊆ al) :
    Frame al s₀ (State.scheduleSoftReset s) := by
  refine fr.andThen ?_ sub
  unfold State.scheduleSoftReset
  try dsimp only
  repeat' first
    | with_reducible exact Frame.refl _ _
    | with_reducible apply State.setSchedState_frame
    | with_reducible apply State.clearCycle_frame
    | with_reducible apply State.dropSchedNotes_frame
    | split
  all_goals decide
theorem State.scheduleStart_frame {al : List Area} {s₀ s : State} (fr : Frame al s₀ s) (sub : [.sched, .writer, .wires] ⊆ al) :
    Frame al s₀ (State.scheduleStart s) := by
  refine fr.andThen ?_ sub
  unfold State.scheduleStart
  try dsimp only
  repeat' first
    | with_reducible exact Frame.refl _ _
    | with_reducible apply State.applyConditions_frame
    | with_reducible apply State.scheduleSoftReset_frame
    | split
  all_goals decide
theorem State.scheduleLoad_frame (period : Nat) (bank : BankName) (a b : List BankEntry)
    {al : List Area} {s₀ s : State}
    (fr : Frame al s₀ s) (sub : [.sched, .writer, .wires] ⊆ al) : Frame al s₀ (State.scheduleLoad period bank a b s) := by
  refine fr.andThen ?_ sub
  unfold State.scheduleLoad
  try dsimp only
  repeat' first
    | with_reducible exact Frame.refl _ _
    | with_reducible apply State.setSched_frame
    | with_reducible apply State.askRewrite_frame
    | with_reducible apply State.scheduleSoftReset_frame
    | split
  all_goals decide
theorem State.sendRead_frame (o : Owner) (addr beats : Nat) {al : List Area} {s₀ s : State} (fr : Frame al s₀ s) (sub : [.guard] ⊆ al) :
    Frame al s₀ (State.sendRead o addr beats s) := by
  refine fr.andThen ?_ sub
  unfold State.sendRead
  try dsimp only
  repeat' first
    | with_reducible exact Frame.refl _ _
    | with_reducible apply State.setGuard_frame
    | split
  all_goals decide
theorem State.sendWrite_frame (o : Owner) (addr : Nat) (bytes : List Byte) {al : List Area} {s₀ s : State} (fr : Frame al s₀ s)
    (sub : [.guard] ⊆ al) : Frame al s₀ (State.sendWrite o addr bytes s) := by
  refine fr.andThen ?_ sub
  unfold State.sendWrite
  try dsimp only
  repeat' first
    | with_reducible exact Frame.refl _ _
    | with_reducible apply State.setGuard_frame
    | split
  all_goals decide
theorem State.sendPass_frame (r : Request) {al : List Area} {s₀ s : State} (fr : Frame al s₀ s) (sub : [.guard] ⊆ al) :
    Frame al s₀ (State.sendPass r s) := by
  refine fr.andThen ?_ sub
  unfold State.sendPass
  try dsimp only
  repeat' first
    | with_reducible exact Frame.refl _ _
    | with_reducible apply State.setGuard_frame
    | split
  all_goals decide
theorem State.complete_frame {p : Owner → Bool} {s t : State} {o : Outstanding} (e : s.complete p = some (o, t)) :
    Frame [.guard] s t := by
  unfold State.complete at e
  split at e
  · split at e
    · simp only [Option.some.injEq, Prod.mk.injEq] at e
      rw [← e.2]
      exact State.setGuard_frame _ (Frame.refl _ _) (by decide)
    · cases e
  · cases e
theorem State.countMemerr_frame (code : MemCode) {al : List Area} {s₀ s : State} (fr : Frame al s₀ s) (sub : [.tallies] ⊆ al) :
    Frame al s₀ (State.countMemerr code s) := by
  refine fr.andThen ?_ sub
  unfold State.countMemerr
  try dsimp only
  repeat' first
    | with_reducible exact Frame.refl _ _
    | with_reducible apply State.count_frame
    | split
  all_goals decide
theorem State.dropOutstanding_frame (p : Owner → Bool) {al : List Area} {s₀ s : State} (fr : Frame al s₀ s) (sub : [.guard] ⊆ al) :
    Frame al s₀ (State.dropOutstanding p s) := by
  refine fr.andThen ?_ sub
  unfold State.dropOutstanding
  try dsimp only
  repeat' first
    | with_reducible exact Frame.refl _ _
    | with_reducible apply State.setGuard_frame
    | split
  all_goals decide
theorem State.writeCompleted_frame (o : Outstanding) (code : MemCode) {al : List Area} {s₀ s : State} (fr : Frame al s₀ s)
    (sub : [.notices, .writer, .tallies] ⊆ al) : Frame al s₀ (State.writeCompleted o code s) := by
  refine fr.andThen ?_ sub
  unfold State.writeCompleted
  try dsimp only
  repeat' first
    | with_reducible exact Frame.refl _ _
    | with_reducible apply State.memFault_frame
    | with_reducible apply State.countMemerr_frame
    | split
  all_goals decide
theorem State.releaseHeld_frame (p : Held → Bool) {al : List Area} {s₀ s : State} (fr : Frame al s₀ s) (sub : [.guard] ⊆ al) :
    Frame al s₀ (State.releaseHeld p s) := by
  refine fr.andThen ?_ sub
  unfold State.releaseHeld
  try dsimp only
  repeat' first
    | with_reducible exact Frame.refl _ _
    | with_reducible apply State.setGuard_frame
    | split
  all_goals decide
theorem State.withdrawRange_frame {al : List Area} {s₀ s : State} (fr : Frame al s₀ s) (sub : [.guard] ⊆ al) :
    Frame al s₀ (State.withdrawRange s) := by
  refine fr.andThen ?_ sub
  unfold State.withdrawRange
  try dsimp only
  repeat' first
    | with_reducible exact Frame.refl _ _
    | with_reducible apply State.setGuard_frame
    | with_reducible apply State.releaseHeld_frame
    | split
  all_goals decide
theorem State.announceRange_frame (first n : Nat) {al : List Area} {s₀ s : State} (fr : Frame al s₀ s) (sub : [.guard] ⊆ al) :
    Frame al s₀ (State.announceRange first n s) := by
  refine fr.andThen ?_ sub
  unfold State.announceRange
  try dsimp only
  repeat' first
    | with_reducible exact Frame.refl _ _
    | with_reducible apply State.setGuard_frame
    | split
  all_goals decide
theorem State.setSlot_frame (n : Nat) (f : Slot → Slot) {al : List Area} {s₀ s : State} (fr : Frame al s₀ s) (sub : [.intake] ⊆ al) :
    Frame al s₀ (State.setSlot n f s) := by
  refine fr.andThen ?_ sub
  unfold State.setSlot
  try dsimp only
  repeat' first
    | with_reducible exact Frame.refl _ _
    | with_reducible apply State.setIntake_frame
    | split
  all_goals decide
theorem State.setStationIntake_frame (st : Nat) (f : StationIntake → StationIntake) {al : List Area} {s₀ s : State} (fr : Frame al s₀ s)
    (sub : [.intake] ⊆ al) : Frame al s₀ (State.setStationIntake st f s) := by
  refine fr.andThen ?_ sub
  unfold State.setStationIntake
  try dsimp only
  repeat' first
    | with_reducible exact Frame.refl _ _
    | with_reducible apply State.setIntake_frame
    | split
  all_goals decide
theorem State.setBufs_frame (bs : List Buf) {al : List Area} {s₀ s : State} (fr : Frame al s₀ s) (sub : [.intake] ⊆ al) :
    Frame al s₀ (State.setBufs bs s) := by
  refine fr.andThen ?_ sub
  unfold State.setBufs
  try dsimp only
  repeat' first
    | with_reducible exact Frame.refl _ _
    | with_reducible apply State.setIntake_frame
    | split
  all_goals decide
theorem State.setRefetch_frame (q : List Refetch) {al : List Area} {s₀ s : State} (fr : Frame al s₀ s) (sub : [.intake] ⊆ al) :
    Frame al s₀ (State.setRefetch q s) := by
  refine fr.andThen ?_ sub
  unfold State.setRefetch
  try dsimp only
  repeat' first
    | with_reducible exact Frame.refl _ _
    | with_reducible apply State.setIntake_frame
    | split
  all_goals decide
theorem State.loseRefetch_frame (e : Refetch) {al : List Area} {s₀ s : State} (fr : Frame al s₀ s)
    (sub : [.intake, .notices, .writer] ⊆ al) : Frame al s₀ (State.loseRefetch e s) := by
  refine fr.andThen ?_ sub
  unfold State.loseRefetch
  try dsimp only
  repeat' first
    | with_reducible exact Frame.refl _ _
    | with_reducible apply State.raise_frame
    | with_reducible apply State.setStationIntake_frame
    | with_reducible apply State.setRefetch_frame
    | split
  all_goals decide
theorem State.unpinSlot_frame (n gen : Nat) {al : List Area} {s₀ s : State} (fr : Frame al s₀ s) (sub : [.intake, .wires] ⊆ al) :
    Frame al s₀ (State.unpinSlot n gen s) := by
  refine fr.andThen ?_ sub
  unfold State.unpinSlot
  try dsimp only
  repeat' first
    | with_reducible exact Frame.refl _ _
    | with_reducible apply State.tellSlotFree_frame
    | with_reducible apply State.setSlot_frame
    | split
  all_goals decide
theorem State.endRefetch_frame (e : Refetch) {al : List Area} {s₀ s : State} (fr : Frame al s₀ s)
    (sub : [.intake, .notices, .writer, .tallies, .wires] ⊆ al) : Frame al s₀ (State.endRefetch e s) := by
  refine fr.andThen ?_ sub
  unfold State.endRefetch
  try dsimp only
  repeat' first
    | with_reducible exact Frame.refl _ _
    | with_reducible apply State.count_frame
    | with_reducible apply State.setRefetch_frame
    | with_reducible apply State.loseRefetch_frame
    | with_reducible apply State.unpinSlot_frame
    | split
  all_goals decide
theorem State.settleRefetch_frame {al : List Area} {s₀ s : State} (fr : Frame al s₀ s)
    (sub : [.intake, .notices, .writer, .tallies, .wires] ⊆ al) : Frame al s₀ (State.settleRefetch s) := by
  refine fr.andThen ?_ sub
  unfold State.settleRefetch
  try dsimp only
  repeat' first
    | with_reducible exact Frame.refl _ _
    | with_reducible apply State.setRefetch_frame
    | with_reducible apply State.endRefetch_frame
    | split
  all_goals decide
theorem State.setReading_frame (f : Refetch → Refetch) {al : List Area} {s₀ s : State} (fr : Frame al s₀ s) (sub : [.intake] ⊆ al) :
    Frame al s₀ (State.setReading f s) := by
  refine fr.andThen ?_ sub
  unfold State.setReading
  try dsimp only
  repeat' first
    | with_reducible exact Frame.refl _ _
    | with_reducible apply State.setRefetch_frame
    | split
  all_goals decide
theorem State.grantRefetch_frame (addr beats : Nat) {al : List Area} {s₀ s : State} (fr : Frame al s₀ s) (sub : [.intake, .guard] ⊆ al) :
    Frame al s₀ (State.grantRefetch addr beats s) := by
  refine fr.andThen ?_ sub
  unfold State.grantRefetch
  try dsimp only
  repeat' first
    | with_reducible exact Frame.refl _ _
    | with_reducible apply State.sendRead_frame
    | with_reducible apply State.setReading_frame
    | split
  all_goals decide
theorem State.settleCut_frame (n : Nat) {al : List Area} {s₀ s : State} (fr : Frame al s₀ s)
    (sub : [.intake, .notices, .writer, .tallies, .wires] ⊆ al) : Frame al s₀ (State.settleCut n s) := by
  refine fr.andThen ?_ sub
  unfold State.settleCut
  try dsimp only
  repeat' first
    | with_reducible exact Frame.refl _ _
    | with_reducible apply State.settleRefetch_frame
    | split
  all_goals decide
theorem State.cancelRefetch_frame (n : Nat) {al : List Area} {s₀ s : State} (fr : Frame al s₀ s)
    (sub : [.intake, .notices, .writer, .tallies, .wires] ⊆ al) : Frame al s₀ (State.cancelRefetch n s) := by
  refine fr.andThen ?_ sub
  unfold State.cancelRefetch
  try dsimp only
  repeat' first
    | with_reducible exact Frame.refl _ _
    | with_reducible apply State.count_frame
    | with_reducible apply State.setRefetch_frame
    | with_reducible apply State.loseRefetch_frame
    | with_reducible apply State.settleCut_frame
    | with_reducible refine Frame.foldl (fun _ _ => ?_) _ ?_
    | split
  all_goals decide
theorem State.cutSlot_frame (n : Nat) {al : List Area} {s₀ s : State} (fr : Frame al s₀ s)
    (sub : [.intake, .notices, .writer, .tallies, .wires] ⊆ al) : Frame al s₀ (State.cutSlot n s) := by
  refine fr.andThen ?_ sub
  unfold State.cutSlot
  try dsimp only
  repeat' first
    | with_reducible exact Frame.refl _ _
    | with_reducible apply State.setWires_frame
    | with_reducible apply State.raise_frame
    | with_reducible apply State.count_frame
    | with_reducible apply State.tellSlotFree_frame
    | with_reducible apply State.setSlot_frame
    | with_reducible apply State.cancelRefetch_frame
    | split
  all_goals decide
theorem State.answerPin_frame (ev st n gen : Nat) {al : List Area} {s₀ s : State} (fr : Frame al s₀ s) (sub : [.intake, .wires] ⊆ al) :
    Frame al s₀ (State.answerPin ev st n gen s) := by
  refine fr.andThen ?_ sub
  unfold State.answerPin
  try dsimp only
  repeat' first
    | with_reducible exact Frame.refl _ _
    | with_reducible apply State.setWires_frame
    | with_reducible apply State.setSlot_frame
    | split
  all_goals decide
theorem State.openWrite_frame (n : Nat) {al : List Area} {s₀ s : State} (fr : Frame al s₀ s) (sub : [.intake] ⊆ al) :
    Frame al s₀ (State.openWrite n s) := by
  refine fr.andThen ?_ sub
  unfold State.openWrite
  try dsimp only
  repeat' first
    | with_reducible exact Frame.refl _ _
    | with_reducible apply State.setSlot_frame
    | with_reducible apply State.setBufs_frame
    | split
  all_goals decide
theorem State.rejectNoOpen_frame (n : Nat) {al : List Area} {s₀ s : State} (fr : Frame al s₀ s)
    (sub : [.intake, .notices, .writer, .tallies] ⊆ al) : Frame al s₀ (State.rejectNoOpen n s) := by
  refine fr.andThen ?_ sub
  unfold State.rejectNoOpen
  try dsimp only
  repeat' first
    | with_reducible exact Frame.refl _ _
    | with_reducible apply State.raise_frame
    | with_reducible apply State.count_frame
    | with_reducible apply State.setSlot_frame
    | split
  all_goals decide
theorem State.captureBody_frame (p : Piece) {al : List Area} {s₀ s : State} (fr : Frame al s₀ s) (sub : [.intake] ⊆ al) :
    Frame al s₀ (State.captureBody p s) := by
  refine fr.andThen ?_ sub
  unfold State.captureBody
  try dsimp only
  repeat' first
    | with_reducible exact Frame.refl _ _
    | with_reducible apply State.setSlot_frame
    | with_reducible apply State.setBufs_frame
    | split
  all_goals decide
theorem State.bodyWrite_frame (p : Piece) {al : List Area} {s₀ s : State} (fr : Frame al s₀ s)
    (sub : [.intake, .notices, .writer, .tallies] ⊆ al) : Frame al s₀ (State.bodyWrite p s) := by
  refine fr.andThen ?_ sub
  unfold State.bodyWrite
  try dsimp only
  repeat' first
    | with_reducible exact Frame.refl _ _
    | with_reducible apply State.rejectNoOpen_frame
    | with_reducible apply State.captureBody_frame
    | split
  all_goals decide
theorem State.badMarkerWrite_frame (n : Nat) {al : List Area} {s₀ s : State} (fr : Frame al s₀ s)
    (sub : [.intake, .notices, .writer, .tallies] ⊆ al) : Frame al s₀ (State.badMarkerWrite n s) := by
  refine fr.andThen ?_ sub
  unfold State.badMarkerWrite
  try dsimp only
  repeat' first
    | with_reducible exact Frame.refl _ _
    | with_reducible apply State.raise_frame
    | with_reducible apply State.count_frame
    | with_reducible apply State.setSlot_frame
    | with_reducible apply State.setBufs_frame
    | split
  all_goals decide
theorem State.rejectBlock_frame (n : Nat) (r : RejectReason) {al : List Area} {s₀ s : State} (fr : Frame al s₀ s)
    (sub : [.intake, .notices, .writer, .tallies] ⊆ al) : Frame al s₀ (State.rejectBlock n r s) := by
  refine fr.andThen ?_ sub
  unfold State.rejectBlock
  try dsimp only
  repeat' first
    | with_reducible exact Frame.refl _ _
    | with_reducible apply State.raise_frame
    | with_reducible apply State.count_frame
    | with_reducible apply State.setSlot_frame
    | with_reducible apply State.setBufs_frame
    | split
  all_goals decide
theorem State.advanceHorizon_frame (first : Nat) {al : List Area} {s₀ s : State} (fr : Frame al s₀ s) (sub : [.intake, .wires] ⊆ al) :
    Frame al s₀ (State.advanceHorizon first s) := by
  refine fr.andThen ?_ sub
  unfold State.advanceHorizon
  try dsimp only
  repeat' first
    | with_reducible exact Frame.refl _ _
    | with_reducible apply State.setIntake_frame
    | with_reducible apply State.setWires_frame
    | split
  all_goals decide
theorem State.restartSilence_frame (st : Nat) {al : List Area} {s₀ s : State} (fr : Frame al s₀ s) (sub : [.engine] ⊆ al) :
    Frame al s₀ (State.restartSilence st s) := by
  refine fr.andThen ?_ sub
  unfold State.restartSilence
  try dsimp only
  repeat' first
    | with_reducible exact Frame.refl _ _
    | with_reducible apply State.setEngine_frame
    | split
  all_goals decide
theorem State.enterRefetch_frame (n gen beats : Nat) (b : Block) (brk : Bool) {al : List Area} {s₀ s : State} (fr : Frame al s₀ s)
    (sub : [.intake, .notices, .writer, .tallies] ⊆ al) : Frame al s₀ (State.enterRefetch n gen beats b brk s) := by
  refine fr.andThen ?_ sub
  unfold State.enterRefetch
  try dsimp only
  repeat' first
    | with_reducible exact Frame.refl _ _
    | with_reducible apply State.setIntake_frame
    | with_reducible apply State.raise_frame
    | with_reducible apply State.count_frame
    | with_reducible apply State.setSlot_frame
    | with_reducible apply State.setStationIntake_frame
    | split
  all_goals decide
theorem State.routeBlock_frame (n gen needed : Nat) (b : Block) (brk : Bool) {al : List Area} {s₀ s : State} (fr : Frame al s₀ s)
    (sub : [.intake, .notices, .writer, .tallies] ⊆ al) : Frame al s₀ (State.routeBlock n gen needed b brk s) := by
  refine fr.andThen ?_ sub
  unfold State.routeBlock
  try dsimp only
  repeat' first
    | with_reducible exact Frame.refl _ _
    | with_reducible apply State.setStationIntake_frame
    | with_reducible apply State.setBufs_frame
    | with_reducible apply State.enterRefetch_frame
    | split
  all_goals decide
theorem State.acceptBlock_frame (n gen : Nat) (h : Header) (gap brk : Bool) {al : List Area} {s₀ s : State} (fr : Frame al s₀ s)
    (sub : [.intake, .engine, .notices, .writer, .tallies, .wires] ⊆ al) : Frame al s₀ (State.acceptBlock n gen h gap brk s) := by
  refine fr.andThen ?_ sub
  unfold State.acceptBlock
  try dsimp only
  repeat' first
    | with_reducible exact Frame.refl _ _
    | with_reducible apply State.setWires_frame
    | with_reducible apply State.count_frame
    | with_reducible apply State.countStation_frame
    | with_reducible apply State.setSlot_frame
    | with_reducible apply State.setStationIntake_frame
    | with_reducible apply State.advanceHorizon_frame
    | with_reducible apply State.restartSilence_frame
    | with_reducible apply State.routeBlock_frame
    | split
  all_goals decide
theorem State.sealWrite_frame (p : Piece) {al : List Area} {s₀ s : State} (fr : Frame al s₀ s)
    (sub : [.intake, .engine, .notices, .writer, .tallies, .wires] ⊆ al) : Frame al s₀ (State.sealWrite p s) := by
  refine fr.andThen ?_ sub
  unfold State.sealWrite
  try dsimp only
  repeat' first
    | with_reducible exact Frame.refl _ _
    | with_reducible apply State.rejectNoOpen_frame
    | with_reducible apply State.rejectBlock_frame
    | with_reducible apply State.acceptBlock_frame
    | split
  all_goals decide
theorem State.takePiece_frame (p : Piece) {al : List Area} {s₀ s : State} (fr : Frame al s₀ s)
    (sub : [.intake, .engine, .notices, .writer, .tallies, .wires] ⊆ al) : Frame al s₀ (State.takePiece p s) := by
  refine fr.andThen ?_ sub
  unfold State.takePiece
  try dsimp only
  repeat' first
    | with_reducible exact Frame.refl _ _
    | with_reducible apply State.openWrite_frame
    | with_reducible apply State.bodyWrite_frame
    | with_reducible apply State.badMarkerWrite_frame
    | with_reducible apply State.sealWrite_frame
    | split
  all_goals decide
theorem State.takePieceDraining_frame (p : Piece) {al : List Area} {s₀ s : State} (fr : Frame al s₀ s)
    (sub : [.intake, .engine, .notices, .writer, .tallies, .wires] ⊆ al) : Frame al s₀ (State.takePieceDraining p s) := by
  refine fr.andThen ?_ sub
  unfold State.takePieceDraining
  try dsimp only
  repeat' first
    | with_reducible exact Frame.refl _ _
    | with_reducible apply State.setSlot_frame
    | with_reducible apply State.openWrite_frame
    | with_reducible apply State.sealWrite_frame
    | split
  all_goals decide
theorem State.takeRingWrite_frame (r : Request) {m : List Area} {s₀ s : State} (h : Frame m s₀ s)
    (q : [.intake, .engine, .notices, .writer, .tallies, .wires] ⊆ m) : Frame m s₀ (State.takeRingWrite r s) := by
  unfold State.takeRingWrite
  split
  · exact Frame.foldl (fun _ _ => State.takePiece_frame _ (Frame.refl _ _) q) _ h
  · exact Frame.foldl (fun _ _ => State.takePieceDraining_frame _ (Frame.refl _ _) fun _ x => q (by simp_all)) _ h
  · exact h
  · exact h
  · exact h
theorem State.freeItem_frame (it : Item) {al : List Area} {s₀ s : State} (fr : Frame al s₀ s) (sub : [.intake] ⊆ al) :
    Frame al s₀ (State.freeItem it s) := by
  refine fr.andThen ?_ sub
  unfold State.freeItem
  try dsimp only
  repeat' first
    | with_reducible exact Frame.refl _ _
    | with_reducible apply State.setBufs_frame
    | with_reducible apply State.setRefetch_frame
    | split
  all_goals decide
theorem State.takeOffered_frame {st : Nat} {s t : State} {b : Block} {k : Bool} (e : s.takeOffered st = some (b, k, t)) :
    Frame [.intake] s t := by
  unfold State.takeOffered at e
  repeat' split at e
  all_goals simp only [Option.some.injEq, Prod.mk.injEq, reduceCtorEq] at e
  rw [← e.2.2]
  exact State.setStationIntake_frame _ _ (State.freeItem_frame _ (Frame.refl _ _) (by decide)) (by decide)
theorem State.intakeAnew_frame (slots : Nat) {al : List Area} {s₀ s : State} (fr : Frame al s₀ s) (sub : [.intake, .guard, .wires] ⊆ al) :
    Frame al s₀ (State.intakeAnew slots s) := by
  refine fr.andThen ?_ sub
  unfold State.intakeAnew
  try dsimp only
  repeat' first
    | with_reducible exact Frame.refl _ _
    | with_reducible apply State.setIntake_frame
    | with_reducible apply State.setWires_frame
    | with_reducible apply State.dropOutstanding_frame
    | split
  all_goals decide
theorem State.intakeStop_frame {al : List Area} {s₀ s : State} (fr : Frame al s₀ s) (sub : [.intake] ⊆ al) :
    Frame al s₀ (State.intakeStop s) := by
  refine fr.andThen ?_ sub
  unfold State.intakeStop
  try dsimp only
  repeat' first
    | with_reducible exact Frame.refl _ _
    | with_reducible apply State.setBufs_frame
    | split
  all_goals decide
theorem State.forgetExpected_frame (st : Nat) {al : List Area} {s₀ s : State} (fr : Frame al s₀ s) (sub : [.intake] ⊆ al) :
    Frame al s₀ (State.forgetExpected st s) := by
  refine fr.andThen ?_ sub
  unfold State.forgetExpected
  try dsimp only
  repeat' first
    | with_reducible exact Frame.refl _ _
    | with_reducible apply State.setStationIntake_frame
    | split
  all_goals decide
theorem State.setDetector_frame (st : Nat) (f : Detector → Detector) {al : List Area} {s₀ s : State} (fr : Frame al s₀ s)
    (sub : [.engine] ⊆ al) : Frame al s₀ (State.setDetector st f s) := by
  refine fr.andThen ?_ sub
  unfold State.setDetector
  try dsimp only
  repeat' first
    | with_reducible exact Frame.refl _ _
    | with_reducible apply State.setEngine_frame
    | split
  all_goals decide
theorem State.takeStaged_frame (st : Nat) {al : List Area} {s₀ s : State} (fr : Frame al s₀ s)
    (sub : [.control, .engine, .notices, .writer, .tallies] ⊆ al) : Frame al s₀ (State.takeStaged st s) := by
  refine fr.andThen ?_ sub
  unfold State.takeStaged
  try dsimp only
  repeat' first
    | with_reducible exact Frame.refl _ _
    | with_reducible apply State.setupIgnored_frame
    | with_reducible apply State.setStation_frame
    | with_reducible apply State.setDetector_frame
    | split
  all_goals decide
theorem countPicks_frame (st : Nat) (ms : List AssocMsg) {al : List Area} {s₀ s : State} (fr : Frame al s₀ s) (sub : [.tallies] ⊆ al) :
    Frame al s₀ (countPicks st ms s) := by
  refine fr.andThen ?_ sub
  unfold countPicks
  try dsimp only
  repeat' first
    | with_reducible exact Frame.refl _ _
    | with_reducible apply State.count_frame
    | with_reducible apply State.countStation_frame
    | with_reducible refine Frame.foldl (fun _ _ => ?_) _ ?_
    | split
  all_goals decide
theorem State.detect_frame (st : Nat) (b : Block) (brk : Bool) {al : List Area} {s₀ s : State} (fr : Frame al s₀ s)
    (sub : [.control, .engine, .notices, .writer, .tallies, .wires] ⊆ al) : Frame al s₀ (State.detect st b brk s) := by
  refine fr.andThen ?_ sub
  unfold State.detect
  try dsimp only
  repeat' first
    | with_reducible exact Frame.refl _ _
    | with_reducible apply State.countBy_frame
    | with_reducible apply State.sendAssoc_frame
    | with_reducible apply State.setDetector_frame
    | with_reducible apply State.takeStaged_frame
    | with_reducible apply countPicks_frame
    | split
  all_goals decide
theorem State.disable_frame (st : Nat) {al : List Area} {s₀ s : State} (fr : Frame al s₀ s) (sub : [.control, .engine, .wires] ⊆ al) :
    Frame al s₀ (State.disable st s) := by
  refine fr.andThen ?_ sub
  unfold State.disable
  try dsimp only
  repeat' first
    | with_reducible exact Frame.refl _ _
    | with_reducible apply State.setStation_frame
    | with_reducible apply State.sendAssoc_frame
    | with_reducible apply State.setDetector_frame
    | split
  all_goals decide
theorem State.enable_frame (st : Nat) {al : List Area} {s₀ s : State} (fr : Frame al s₀ s) (sub : [.control, .engine] ⊆ al) :
    Frame al s₀ (State.enable st s) := by
  refine fr.andThen ?_ sub
  unfold State.enable
  try dsimp only
  repeat' first
    | with_reducible exact Frame.refl _ _
    | with_reducible apply State.setStation_frame
    | with_reducible apply State.setDetector_frame
    | split
  all_goals decide
theorem State.engineStart_frame {al : List Area} {s₀ s : State} (fr : Frame al s₀ s) (sub : [.engine] ⊆ al) :
    Frame al s₀ (State.engineStart s) := by
  refine fr.andThen ?_ sub
  unfold State.engineStart
  try dsimp only
  repeat' first
    | with_reducible exact Frame.refl _ _
    | with_reducible apply State.setEngine_frame
    | split
  all_goals decide
theorem State.engineStop_frame {al : List Area} {s₀ s : State} (fr : Frame al s₀ s) (sub : [.engine, .wires] ⊆ al) :
    Frame al s₀ (State.engineStop s) := by
  refine fr.andThen ?_ sub
  unfold State.engineStop
  try dsimp only
  repeat' first
    | with_reducible exact Frame.refl _ _
    | with_reducible apply State.setEngine_frame
    | with_reducible apply State.sendAssoc_frame
    | split
  all_goals decide
theorem State.engineSoftReset_frame {al : List Area} {s₀ s : State} (fr : Frame al s₀ s) (sub : [.engine] ⊆ al) :
    Frame al s₀ (State.engineSoftReset s) := by
  refine fr.andThen ?_ sub
  unfold State.engineSoftReset
  try dsimp only
  repeat' first
    | with_reducible exact Frame.refl _ _
    | with_reducible apply State.setEngine_frame
    | split
  all_goals decide
theorem State.engineLoad_frame {al : List Area} {s₀ s : State} (fr : Frame al s₀ s) (sub : [.engine] ⊆ al) :
    Frame al s₀ (State.engineLoad s) := by
  refine fr.andThen ?_ sub
  unfold State.engineLoad
  try dsimp only
  repeat' first
    | with_reducible exact Frame.refl _ _
    | with_reducible apply State.setEngine_frame
    | split
  all_goals decide
theorem State.setEvent_frame (slot : Nat) (f : Event → Event) {al : List Area} {s₀ s : State} (fr : Frame al s₀ s) (sub : [.assoc] ⊆ al) :
    Frame al s₀ (State.setEvent slot f s) := by
  refine fr.andThen ?_ sub
  unfold State.setEvent
  try dsimp only
  repeat' first
    | with_reducible exact Frame.refl _ _
    | with_reducible apply State.setAssoc_frame
    | split
  all_goals decide
theorem State.enterPick_frame (p : Pick) {al : List Area} {s₀ s : State} (fr : Frame al s₀ s)
    (sub : [.assoc, .notices, .writer, .tallies] ⊆ al) : Frame al s₀ (State.enterPick p s) := by
  refine fr.andThen ?_ sub
  unfold State.enterPick
  try dsimp only
  repeat' first
    | with_reducible exact Frame.refl _ _
    | with_reducible apply State.setAssoc_frame
    | with_reducible apply State.raise_frame
    | with_reducible apply State.count_frame
    | split
  all_goals decide
theorem State.own_frame (ev : Nat) (nums : List Nat) {al : List Area} {s₀ s : State} (fr : Frame al s₀ s) (sub : [.assoc] ⊆ al) :
    Frame al s₀ (State.own ev nums s) := by
  refine fr.andThen ?_ sub
  unfold State.own
  try dsimp only
  repeat' first
    | with_reducible exact Frame.refl _ _
    | with_reducible apply State.setAssoc_frame
    | split
  all_goals decide
theorem State.loseEvent_frame {al : List Area} {s₀ s : State} (fr : Frame al s₀ s) (sub : [.notices, .writer, .tallies] ⊆ al) :
    Frame al s₀ (State.loseEvent s) := by
  refine fr.andThen ?_ sub
  unfold State.loseEvent
  try dsimp only
  repeat' first
    | with_reducible exact Frame.refl _ _
    | with_reducible apply State.raise_frame
    | with_reducible apply State.count_frame
    | split
  all_goals decide
theorem State.declareIn_frame (slot z : Nat) (w : Nat) (cs : List PickCopy) {al : List Area} {s₀ s : State} (fr : Frame al s₀ s)
    (sub : [.assoc, .notices, .writer, .tallies] ⊆ al) : Frame al s₀ (State.declareIn slot z w cs s) := by
  refine fr.andThen ?_ sub
  unfold State.declareIn
  try dsimp only
  repeat' first
    | with_reducible exact Frame.refl _ _
    | with_reducible apply State.setAssoc_frame
    | with_reducible apply State.askRewrite_frame
    | with_reducible apply State.raise_frame
    | with_reducible apply State.count_frame
    | with_reducible apply State.own_frame
    | split
  all_goals decide
theorem State.coincide_frame (z : Nat) (zone : Zone) (p : Pick) (s : State) :
    Frame [.assoc, .notices, .writer, .tallies] s (State.coincide z zone p s).state := by
  unfold State.coincide
  repeat' split
  · exact State.declareIn_frame _ _ _ _ (Frame.refl _ _) (by decide)
  · exact State.loseEvent_frame (Frame.refl _ _) (by decide)
  · exact State.loseEvent_frame (Frame.refl _ _) (by decide)
  · exact Frame.refl _ _
theorem State.tryZone_frame (z : Nat) (zone : Zone) (c : PickCopy) (s : State) :
    Frame [.assoc, .notices, .writer, .tallies] s (State.tryZone z zone c s).state := by
  unfold State.tryZone
  split
  · exact State.own_frame _ _ (State.setEvent_frame _ _ (Frame.refl _ _) (by decide)) (by decide)
  · exact State.coincide_frame _ _ _ _
theorem State.associate_frame (c : PickCopy) (zs : List (Nat × Zone)) {m : List Area} {s₀ s : State} (h : Frame m s₀ s)
    (q : [.assoc, .notices, .writer, .tallies] ⊆ m) : Frame m s₀ (State.associate c zs s) := by
  induction zs generalizing s with
  | nil => exact h
  | cons z zs ih =>
    unfold State.associate
    split
    · have k := h.andThen (State.tryZone_frame z.1 z.2 c s) q
      split
      next e => rw [e] at k; exact k
      next e => rw [e] at k; exact ih k
    · exact ih h
theorem State.takePick_frame (p : Pick) {al : List Area} {s₀ s : State} (fr : Frame al s₀ s)
    (sub : [.assoc, .notices, .writer, .tallies] ⊆ al) : Frame al s₀ (State.takePick p s) := by
  refine fr.andThen ?_ sub
  unfold State.takePick
  try dsimp only
  repeat' first
    | with_reducible exact Frame.refl _ _
    | with_reducible apply State.enterPick_frame
    | with_reducible apply State.associate_frame
    | split
  all_goals decide
theorem State.applyClosure_frame (st onset : Nat) (k : Closure) {al : List Area} {s₀ s : State} (fr : Frame al s₀ s)
    (sub : [.assoc] ⊆ al) : Frame al s₀ (State.applyClosure st onset k s) := by
  refine fr.andThen ?_ sub
  unfold State.applyClosure
  try dsimp only
  repeat' first
    | with_reducible exact Frame.refl _ _
    | with_reducible apply State.setAssoc_frame
    | split
  all_goals decide
theorem State.applyRequest_frame (ev : Nat) (t : EventState) {al : List Area} {s₀ s : State} (fr : Frame al s₀ s) (sub : [.assoc] ⊆ al) :
    Frame al s₀ (State.applyRequest ev t s) := by
  refine fr.andThen ?_ sub
  unfold State.applyRequest
  try dsimp only
  repeat' first
    | with_reducible exact Frame.refl _ _
    | with_reducible apply State.setEvent_frame
    | split
  all_goals decide
theorem State.flushRequests_frame (ev : Nat) {al : List Area} {s₀ s : State} (fr : Frame al s₀ s) (sub : [.assoc, .wires] ⊆ al) :
    Frame al s₀ (State.flushRequests ev s) := by
  refine fr.andThen ?_ sub
  unfold State.flushRequests
  try dsimp only
  repeat' first
    | with_reducible exact Frame.refl _ _
    | with_reducible apply State.setWires_frame
    | with_reducible apply State.applyRequest_frame
    | with_reducible refine Frame.foldl (fun _ _ => ?_) _ ?_
    | split
  all_goals decide
theorem State.freeEvent_frame (slot : Nat) {al : List Area} {s₀ s : State} (fr : Frame al s₀ s) (sub : [.assoc, .writer] ⊆ al) :
    Frame al s₀ (State.freeEvent slot s) := by
  refine fr.andThen ?_ sub
  unfold State.freeEvent
  try dsimp only
  repeat' first
    | with_reducible exact Frame.refl _ _
    | with_reducible apply State.setAssoc_frame
    | with_reducible apply State.askRewrite_frame
    | split
  all_goals decide
theorem State.assocAnew_frame {al : List Area} {s₀ s : State} (fr : Frame al s₀ s) (sub : [.assoc, .wires] ⊆ al) :
    Frame al s₀ (State.assocAnew s) := by
  refine fr.andThen ?_ sub
  unfold State.assocAnew
  try dsimp only
  repeat' first
    | with_reducible exact Frame.refl _ _
    | with_reducible apply State.setAssoc_frame
    | with_reducible apply State.setWires_frame
    | split
  all_goals decide
theorem State.assocSoftReset_frame {al : List Area} {s₀ s : State} (fr : Frame al s₀ s) (sub : [.assoc, .writer, .wires] ⊆ al) :
    Frame al s₀ (State.assocSoftReset s) := by
  refine fr.andThen ?_ sub
  unfold State.assocSoftReset
  try dsimp only
  repeat' first
    | with_reducible exact Frame.refl _ _
    | with_reducible apply State.setAssoc_frame
    | with_reducible apply State.setWires_frame
    | with_reducible apply State.askRewrite_frame
    | with_reducible apply State.assocAnew_frame
    | split
  all_goals decide
theorem State.setPointers_frame (a f : Nat) {al : List Area} {s₀ s : State} (fr : Frame al s₀ s) (sub : [.clip, .writer] ⊆ al) :
    Frame al s₀ (State.setPointers a f s) := by
  refine fr.andThen ?_ sub
  unfold State.setPointers
  try dsimp only
  repeat' first
    | with_reducible exact Frame.refl _ _
    | with_reducible apply State.setClip_frame
    | with_reducible apply State.askRewrite_frame
    | split
  all_goals decide
theorem State.freeRegion_frame (r : Region) {al : List Area} {s₀ s : State} (fr : Frame al s₀ s) (sub : [.clip, .writer] ⊆ al) :
    Frame al s₀ (State.freeRegion r s) := by
  refine fr.andThen ?_ sub
  unfold State.freeRegion
  try dsimp only
  repeat' first
    | with_reducible exact Frame.refl _ _
    | with_reducible apply State.setClip_frame
    | with_reducible apply State.setPointers_frame
    | split
  all_goals decide
theorem State.dropPlan_frame (slot : Nat) {al : List Area} {s₀ s : State} (fr : Frame al s₀ s) (sub : [.clip, .writer] ⊆ al) :
    Frame al s₀ (State.dropPlan slot s) := by
  refine fr.andThen ?_ sub
  unfold State.dropPlan
  try dsimp only
  repeat' first
    | with_reducible exact Frame.refl _ _
    | with_reducible apply State.setClip_frame
    | with_reducible apply State.freeRegion_frame
    | split
  all_goals decide
theorem State.freeRecord_frame {al : List Area} {s₀ s : State} (fr : Frame al s₀ s)
    (sub : [.assoc, .clip, .report, .writer, .wires] ⊆ al) : Frame al s₀ (State.freeRecord s) := by
  refine fr.andThen ?_ sub
  unfold State.freeRecord
  try dsimp only
  repeat' first
    | with_reducible exact Frame.refl _ _
    | with_reducible apply State.setReport_frame
    | with_reducible apply State.askRewrite_frame
    | with_reducible apply State.flushRequests_frame
    | with_reducible apply State.freeEvent_frame
    | with_reducible apply State.dropPlan_frame
    | split
  all_goals decide
theorem State.freeRecords_frame (n : Nat) {m : List Area} {s₀ s : State} (h : Frame m s₀ s)
    (q : [.assoc, .clip, .report, .writer, .wires] ⊆ m) : Frame m s₀ (State.freeRecords n s) := by
  induction n generalizing s with
  | zero => exact h
  | succ n ih => exact ih (State.freeRecord_frame h q)
theorem State.reclaimOldest_frame {al : List Area} {s₀ s : State} (fr : Frame al s₀ s)
    (sub : [.assoc, .clip, .report, .notices, .writer, .tallies, .wires] ⊆ al) : Frame al s₀ (State.reclaimOldest s) := by
  refine fr.andThen ?_ sub
  unfold State.reclaimOldest
  try dsimp only
  repeat' first
    | with_reducible exact Frame.refl _ _
    | with_reducible apply State.raise_frame
    | with_reducible apply State.count_frame
    | with_reducible apply State.freeRecord_frame
    | split
  all_goals decide
theorem State.takeFront_frame {al : List Area} {s₀ s : State} (fr : Frame al s₀ s) (sub : [.report] ⊆ al) :
    Frame al s₀ (State.takeFront s) := by
  refine fr.andThen ?_ sub
  unfold State.takeFront
  try dsimp only
  repeat' first
    | with_reducible exact Frame.refl _ _
    | with_reducible apply State.setReport_frame
    | split
  all_goals decide
theorem State.lookWith_frame (freed : State → State) {m : List Area} {s₀ s : State} (h : Frame m s₀ s) (k : ∀ t, Frame m t (freed t))
    (q : [.assoc, .clip, .report, .notices, .writer, .tallies, .wires] ⊆ m) : Frame m s₀ (State.lookWith freed s) := by
  have front : ∀ {t}, Frame m s₀ t → Frame m s₀ t.takeFront := fun x =>
    x.andThen ((State.takeFront_frame (Frame.refl _ _) fun _ x => x).mono (by decide)) q
  have r : Frame m s₀ (freed s.reclaimOldest) := (State.reclaimOldest_frame h q).trans (k _)
  unfold State.lookWith
  split
  · split
    · exact front h
    · split
      · dsimp only
        split
        · exact front r
        · exact r
      · exact h.andThen ((State.raise_frame _ (Frame.refl _ _) fun _ x => x).mono (by decide)) q
  · exact h
theorem State.joinReport_frame (ev : Nat) {m : List Area} {s₀ s : State} (h : Frame m s₀ s)
    (q : [.assoc, .clip, .report, .notices, .writer, .tallies, .wires] ⊆ m) : Frame m s₀ (State.joinReport ev s) := by
  refine h.andThen ?_ q
  unfold State.joinReport
  dsimp only
  split
  · exact State.lookWith_frame _ (State.setReport_frame _ (Frame.refl _ _) (by decide)) (fun _ => Frame.refl _ _) (by decide)
  · exact State.setReport_frame _ (Frame.refl _ _) (by decide)
theorem State.recordOutstanding_frame (ev : Nat) {al : List Area} {s₀ s : State} (fr : Frame al s₀ s)
    (sub : [.report, .notices, .writer, .line, .tallies, .wires] ⊆ al) : Frame al s₀ (State.recordOutstanding ev s) := by
  refine fr.andThen ?_ sub
  unfold State.recordOutstanding
  have k : ∀ f g, Frame [.report, .notices, .writer, .line, .tallies, .wires] s
      (((((s.askState ev .reported).setReport f).count .reportsWritten).askRewrite).setStatus g) := fun f g =>
    State.setStatus_frame g (State.askRewrite_frame (State.count_frame _ (State.setReport_frame f (State.askState_frame _ _
      (Frame.refl _ _) (by decide)) (by decide)) (by decide)) (by decide)) (by decide)
  dsimp only
  split
  · exact State.raise_frame _ (k _ _) (by decide)
  · exact k _ _
theorem State.reportAnew_frame {al : List Area} {s₀ s : State} (fr : Frame al s₀ s) (sub : [.report, .writer] ⊆ al) :
    Frame al s₀ (State.reportAnew s) := by
  refine fr.andThen ?_ sub
  unfold State.reportAnew
  try dsimp only
  repeat' first
    | with_reducible exact Frame.refl _ _
    | with_reducible apply State.setReport_frame
    | with_reducible apply State.askRewrite_frame
    | split
  all_goals decide
theorem State.reportSoftReset_frame {al : List Area} {s₀ s : State} (fr : Frame al s₀ s) (sub : [.guard, .report, .writer] ⊆ al) :
    Frame al s₀ (State.reportSoftReset s) :=
  State.dropOutstanding_frame _ (State.reportAnew_frame fr (List.Subset.trans (by decide) sub)) (List.Subset.trans (by decide) sub)
theorem State.offered_frame {al : List Area} {s₀ s : State} (fr : Frame al s₀ s) (sub : [.writer] ⊆ al) :
    Frame al s₀ (State.offered s) := by
  refine fr.andThen ?_ sub
  intro a n
  unfold State.offered
  try dsimp only
  repeat' split
  all_goals cases a <;> simp_all [Same]
theorem State.grantResult_frame (r : Result) {al : List Area} {s₀ s : State} (fr : Frame al s₀ s)
    (sub : [.guard, .notices, .writer] ⊆ al) : Frame al s₀ (State.grantResult r s) := by
  refine fr.andThen ?_ sub
  unfold State.grantResult
  try dsimp only
  repeat' first
    | with_reducible exact Frame.refl _ _
    | with_reducible apply State.raise_frame
    | with_reducible apply State.sendWrite_frame
    | with_reducible apply State.offered_frame
    | split
  all_goals decide
theorem State.grantLine_frame {al : List Area} {s₀ s : State} (fr : Frame al s₀ s)
    (sub : [.guard, .notices, .writer, .line] ⊆ al) : Frame al s₀ (State.grantLine s) := by
  refine fr.andThen ?_ sub
  unfold State.grantLine
  have k : ∀ f, Frame [.guard, .notices, .writer, .line] s ((s.offered.sendWrite .status (s.page + 0x80)
      (s.lineBytes ((s.status.heartbeat + 1) % 4294967296))).setStatus f) := fun f =>
    State.setStatus_frame f (State.sendWrite_frame _ _ _ (State.offered_frame (Frame.refl _ _) (by decide)) (by decide)) (by decide)
  dsimp only
  split
  · exact k _
  · exact State.raise_frame _ (State.setStatus_frame _ (k _) (by decide)) (by decide)
theorem State.grantDump_frame (d : Dump) {m : List Area} {s₀ s : State} (h : Frame m s₀ s)
    (q : [.control, .guard, .writer, .line] ⊆ m) : Frame m s₀ (State.grantDump d s) := by
  refine h.andThen ?_ q
  intro a n
  unfold State.grantDump
  dsimp only
  split <;> cases a <;> simp_all [Same, State.offered]
theorem State.grantStatus_frame {al : List Area} {s₀ s : State} (fr : Frame al s₀ s)
    (sub : [.control, .guard, .notices, .writer, .line] ⊆ al) : Frame al s₀ (State.grantStatus s) := by
  refine fr.andThen ?_ sub
  unfold State.grantStatus
  try dsimp only
  repeat' first
    | with_reducible exact Frame.refl _ _
    | with_reducible apply State.offered_frame
    | with_reducible apply State.grantResult_frame
    | with_reducible apply State.grantLine_frame
    | with_reducible apply State.grantDump_frame
    | split
  all_goals decide
theorem State.setPlan_frame (slot : Nat) (f : Plan → Plan) {al : List Area} {s₀ s : State} (fr : Frame al s₀ s) (sub : [.clip] ⊆ al) :
    Frame al s₀ (State.setPlan slot f s) := by
  refine fr.andThen ?_ sub
  unfold State.setPlan
  try dsimp only
  repeat' first
    | with_reducible exact Frame.refl _ _
    | with_reducible apply State.setClip_frame
    | split
  all_goals decide
theorem State.setCopier_frame (x : Copier) {al : List Area} {s₀ s : State} (fr : Frame al s₀ s) (sub : [.clip] ⊆ al) :
    Frame al s₀ (State.setCopier x s) := by
  refine fr.andThen ?_ sub
  unfold State.setCopier
  try dsimp only
  repeat' first
    | with_reducible exact Frame.refl _ _
    | with_reducible apply State.setClip_frame
    | split
  all_goals decide
theorem State.enterDirectory_frame (slot : Nat) {al : List Area} {s₀ s : State} (fr : Frame al s₀ s) (sub : [.clip] ⊆ al) :
    Frame al s₀ (State.enterDirectory slot s) := by
  refine fr.andThen ?_ sub
  unfold State.enterDirectory
  try dsimp only
  repeat' first
    | with_reducible exact Frame.refl _ _
    | with_reducible apply State.setCopier_frame
    | split
  all_goals decide
theorem State.writeVoid_frame (slot k : Nat) (p : Plan) (c : StationClip) (x : Selection) (cut memerr : Bool)
    {al : List Area} {s₀ s : State}
    (fr : Frame al s₀ s) (sub : [.clip] ⊆ al) : Frame al s₀ (State.writeVoid slot k p c x cut memerr s) := by
  refine fr.andThen ?_ sub
  unfold State.writeVoid
  try dsimp only
  repeat' first
    | with_reducible exact Frame.refl _ _
    | with_reducible apply State.setCopier_frame
    | split
  all_goals decide
theorem State.comeTo_frame (slot k : Nat) {al : List Area} {s₀ s : State} (fr : Frame al s₀ s) (sub : [.clip] ⊆ al) :
    Frame al s₀ (State.comeTo slot k s) := by
  refine fr.andThen ?_ sub
  unfold State.comeTo
  try dsimp only
  repeat' first
    | with_reducible exact Frame.refl _ _
    | with_reducible apply State.setCopier_frame
    | with_reducible apply State.enterDirectory_frame
    | with_reducible apply State.writeVoid_frame
    | split
  all_goals decide
theorem State.unpinRead_frame (x : Selection) {al : List Area} {s₀ s : State} (fr : Frame al s₀ s) (sub : [.wires] ⊆ al) :
    Frame al s₀ (State.unpinRead x s) := by
  refine fr.andThen ?_ sub
  unfold State.unpinRead
  try dsimp only
  repeat' first
    | with_reducible exact Frame.refl _ _
    | with_reducible apply State.askPins_frame
    | split
  all_goals decide
theorem State.endReads_frame (slot k burst : Nat) (data : List Byte) (memerr : Bool)
    {al : List Area} {s₀ s : State}
    (fr : Frame al s₀ s) (sub : [.clip, .wires] ⊆ al) : Frame al s₀ (State.endReads slot k burst data memerr s) := by
  refine fr.andThen ?_ sub
  unfold State.endReads
  try dsimp only
  repeat' first
    | with_reducible exact Frame.refl _ _
    | with_reducible apply State.setPlan_frame
    | with_reducible apply State.setCopier_frame
    | with_reducible apply State.writeVoid_frame
    | with_reducible apply State.unpinRead_frame
    | split
  all_goals decide
theorem State.settleUnit_frame {al : List Area} {s₀ s : State} (fr : Frame al s₀ s) (sub : [.clip, .wires] ⊆ al) :
    Frame al s₀ (State.settleUnit s) := by
  refine fr.andThen ?_ sub
  unfold State.settleUnit
  try dsimp only
  repeat' first
    | with_reducible exact Frame.refl _ _
    | with_reducible apply State.endReads_frame
    | split
  all_goals decide
theorem State.endForLack_frame (slot : Nat) (p : Plan) {al : List Area} {s₀ s : State} (fr : Frame al s₀ s)
    (sub : [.assoc, .clip, .report, .notices, .writer, .tallies, .wires] ⊆ al) : Frame al s₀ (State.endForLack slot p s) := by
  refine fr.andThen ?_ sub
  unfold State.endForLack
  try dsimp only
  repeat' first
    | with_reducible exact Frame.refl _ _
    | with_reducible apply State.raise_frame
    | with_reducible apply State.count_frame
    | with_reducible apply State.askPins_frame
    | with_reducible apply State.askState_frame
    | with_reducible apply State.setEvent_frame
    | with_reducible apply State.joinReport_frame
    | with_reducible apply State.setPlan_frame
    | with_reducible apply State.setCopier_frame
    | split
  all_goals decide
theorem State.takeRegion_frame (slot : Nat) (p : Plan) (r : Region) {al : List Area} {s₀ s : State} (fr : Frame al s₀ s)
    (sub : [.assoc, .clip, .guard, .writer, .wires] ⊆ al) : Frame al s₀ (State.takeRegion slot p r s) := by
  refine fr.andThen ?_ sub
  unfold State.takeRegion
  try dsimp only
  repeat' first
    | with_reducible exact Frame.refl _ _
    | with_reducible apply State.setClip_frame
    | with_reducible apply State.askState_frame
    | with_reducible apply State.announceRange_frame
    | with_reducible apply State.setEvent_frame
    | with_reducible apply State.setPointers_frame
    | with_reducible apply State.setPlan_frame
    | with_reducible apply State.comeTo_frame
    | split
  all_goals decide
theorem State.allocate_frame (slot : Nat) {al : List Area} {s₀ s : State} (fr : Frame al s₀ s)
    (sub : [.assoc, .clip, .guard, .report, .notices, .writer, .tallies, .wires] ⊆ al) : Frame al s₀ (State.allocate slot s) := by
  refine fr.andThen ?_ sub
  unfold State.allocate
  try dsimp only
  repeat' first
    | with_reducible exact Frame.refl _ _
    | with_reducible apply State.setReport_frame
    | with_reducible apply State.setCopier_frame
    | with_reducible apply State.endForLack_frame
    | with_reducible apply State.takeRegion_frame
    | split
  all_goals decide
theorem State.runQueue_frame (n : Nat) {m : List Area} {s₀ s : State} (h : Frame m s₀ s)
    (q : [.assoc, .clip, .guard, .report, .notices, .writer, .tallies, .wires] ⊆ m) : Frame m s₀ (State.runQueue n s) := by
  induction n generalizing s with
  | zero => exact h
  | succ n ih =>
    unfold State.runQueue
    split
    · dsimp only
      have k : ∀ f, Frame m s₀ (s.setClip f) := fun f =>
        h.andThen ((State.setClip_frame f (Frame.refl _ _) fun _ x => x).mono (by decide)) q
      split
      · exact ih (State.allocate_frame _ (k _) q)
      · exact ih (k _)
    · exact h
theorem State.enqueue_frame (ev : Nat) {al : List Area} {s₀ s : State} (fr : Frame al s₀ s)
    (sub : [.assoc, .clip, .guard, .report, .notices, .writer, .tallies, .wires] ⊆ al) : Frame al s₀ (State.enqueue ev s) := by
  refine fr.andThen ?_ sub
  unfold State.enqueue
  try dsimp only
  repeat' first
    | with_reducible exact Frame.refl _ _
    | with_reducible apply State.setClip_frame
    | with_reducible apply State.runQueue_frame
    | split
  all_goals decide
theorem State.endJob_frame (slot : Nat) (p : Plan) {al : List Area} {s₀ s : State} (fr : Frame al s₀ s)
    (sub : [.assoc, .clip, .guard, .report, .notices, .writer, .tallies, .wires] ⊆ al) : Frame al s₀ (State.endJob slot p s) := by
  refine fr.andThen ?_ sub
  unfold State.endJob
  try dsimp only
  repeat' first
    | with_reducible exact Frame.refl _ _
    | with_reducible apply State.askState_frame
    | with_reducible apply State.withdrawRange_frame
    | with_reducible apply State.setEvent_frame
    | with_reducible apply State.joinReport_frame
    | with_reducible apply State.setPlan_frame
    | with_reducible apply State.setCopier_frame
    | with_reducible apply State.runQueue_frame
    | split
  all_goals decide
theorem State.sendJobWrite_frame (clip : Option Nat) (addr : Nat) (bytes : List Byte)
    {al : List Area} {s₀ s : State}
    (fr : Frame al s₀ s) (sub : [.clip, .guard] ⊆ al) : Frame al s₀ (State.sendJobWrite clip addr bytes s) := by
  refine fr.andThen ?_ sub
  unfold State.sendJobWrite
  try dsimp only
  repeat' first
    | with_reducible exact Frame.refl _ _
    | with_reducible apply State.setClip_frame
    | with_reducible apply State.sendWrite_frame
    | split
  all_goals decide
theorem State.grantCopier_frame {al : List Area} {s₀ s : State} (fr : Frame al s₀ s) (sub : [.clip, .guard] ⊆ al) :
    Frame al s₀ (State.grantCopier s) := by
  refine fr.andThen ?_ sub
  unfold State.grantCopier
  try dsimp only
  repeat' first
    | with_reducible exact Frame.refl _ _
    | with_reducible apply State.sendRead_frame
    | with_reducible apply State.setCopier_frame
    | with_reducible apply State.comeTo_frame
    | with_reducible apply State.sendJobWrite_frame
    | split
  all_goals decide
theorem State.checkSelection_frame (slot k burst : Nat) (p : Plan) (c : StationClip) (x : Selection)
    {al : List Area} {s₀ s : State}
    (fr : Frame al s₀ s) (sub : [.clip] ⊆ al) : Frame al s₀ (State.checkSelection slot k burst p c x s) := by
  refine fr.andThen ?_ sub
  unfold State.checkSelection
  try dsimp only
  repeat' first
    | with_reducible exact Frame.refl _ _
    | with_reducible apply State.setPlan_frame
    | with_reducible apply State.setCopier_frame
    | with_reducible apply State.writeVoid_frame
    | split
  all_goals decide
theorem State.flagWriteError_frame (slot : Nat) (clip : Option Nat) {al : List Area} {s₀ s : State} (fr : Frame al s₀ s)
    (sub : [.clip] ⊆ al) : Frame al s₀ (State.flagWriteError slot clip s) := by
  refine fr.andThen ?_ sub
  unfold State.flagWriteError
  try dsimp only
  repeat' first
    | with_reducible exact Frame.refl _ _
    | with_reducible apply State.setClip_frame
    | with_reducible apply State.setPlan_frame
    | split
  all_goals decide
theorem State.settleJob_frame {al : List Area} {s₀ s : State} (fr : Frame al s₀ s)
    (sub : [.assoc, .clip, .guard, .report, .notices, .writer, .tallies, .wires] ⊆ al) : Frame al s₀ (State.settleJob s) := by
  refine fr.andThen ?_ sub
  unfold State.settleJob
  try dsimp only
  repeat' first
    | with_reducible exact Frame.refl _ _
    | with_reducible apply State.endJob_frame
    | split
  all_goals decide
theorem State.answerFreed_frame {al : List Area} {s₀ s : State} (fr : Frame al s₀ s)
    (sub : [.assoc, .clip, .guard, .report, .notices, .writer, .tallies, .wires] ⊆ al) : Frame al s₀ (State.answerFreed s) := by
  refine fr.andThen ?_ sub
  unfold State.answerFreed
  try dsimp only
  repeat' first
    | with_reducible exact Frame.refl _ _
    | with_reducible apply State.setReport_frame
    | with_reducible apply State.allocate_frame
    | with_reducible apply State.runQueue_frame
    | split
  all_goals decide
theorem State.answerNone_frame {al : List Area} {s₀ s : State} (fr : Frame al s₀ s)
    (sub : [.assoc, .clip, .guard, .report, .notices, .writer, .tallies, .wires] ⊆ al) : Frame al s₀ (State.answerNone s) := by
  refine fr.andThen ?_ sub
  unfold State.answerNone
  try dsimp only
  repeat' first
    | with_reducible exact Frame.refl _ _
    | with_reducible apply State.setReport_frame
    | with_reducible apply State.endForLack_frame
    | with_reducible apply State.runQueue_frame
    | split
  all_goals decide
theorem State.writerLook_frame {al : List Area} {s₀ s : State} (fr : Frame al s₀ s)
    (sub : [.assoc, .clip, .guard, .report, .notices, .writer, .tallies, .wires] ⊆ al) : Frame al s₀ (State.writerLook s) := by
  refine fr.andThen ?_ sub
  exact State.lookWith_frame _ (Frame.refl _ _) (fun _ => State.answerFreed_frame (Frame.refl _ _) (by decide)) (by decide)
theorem State.takeAck_frame (index : Nat) {al : List Area} {s₀ s : State} (fr : Frame al s₀ s)
    (sub : [.assoc, .clip, .guard, .report, .notices, .writer, .tallies, .wires] ⊆ al) : Frame al s₀ (State.takeAck index s) := by
  refine fr.andThen ?_ sub
  unfold State.takeAck
  try dsimp only
  repeat' first
    | with_reducible exact Frame.refl _ _
    | with_reducible apply State.raise_frame
    | with_reducible apply State.count_frame
    | with_reducible apply State.freeRecords_frame
    | with_reducible apply State.answerFreed_frame
    | with_reducible apply State.writerLook_frame
    | split
  all_goals decide
theorem State.clipAnew_frame {al : List Area} {s₀ s : State} (fr : Frame al s₀ s) (sub : [.clip, .guard, .writer, .wires] ⊆ al) :
    Frame al s₀ (State.clipAnew s) := by
  refine fr.andThen ?_ sub
  unfold State.clipAnew
  try dsimp only
  repeat' first
    | with_reducible exact Frame.refl _ _
    | with_reducible apply State.setClip_frame
    | with_reducible apply State.setWires_frame
    | with_reducible apply State.askRewrite_frame
    | with_reducible apply State.dropOutstanding_frame
    | split
  all_goals decide
theorem State.closeEvent_frame (slot : Nat) (e : Event) (reason : CloseReason) {al : List Area} {s₀ s : State} (fr : Frame al s₀ s)
    (sub : [.assoc, .clip, .guard, .report, .notices, .writer, .tallies, .wires] ⊆ al) :
    Frame al s₀ (State.closeEvent slot e reason s) := by
  refine fr.andThen ?_ sub
  unfold State.closeEvent
  try dsimp only
  repeat' first
    | with_reducible exact Frame.refl _ _
    | with_reducible apply State.setClip_frame
    | with_reducible apply State.askPins_frame
    | with_reducible apply State.setEvent_frame
    | with_reducible apply State.enqueue_frame
    | split
  all_goals decide
theorem State.endWait_frame (slot : Nat) (p : Plan) {al : List Area} {s₀ s : State} (fr : Frame al s₀ s)
    (sub : [.assoc, .clip, .guard, .report, .notices, .writer, .tallies, .wires] ⊆ al) : Frame al s₀ (State.endWait slot p s) := by
  refine fr.andThen ?_ sub
  unfold State.endWait
  try dsimp only
  repeat' first
    | with_reducible exact Frame.refl _ _
    | with_reducible apply State.askState_frame
    | with_reducible apply State.setPlan_frame
    | with_reducible apply State.enqueue_frame
    | split
  all_goals decide
theorem State.giveUpTails_frame (slot : Nat) (p : Plan) {al : List Area} {s₀ s : State} (fr : Frame al s₀ s)
    (sub : [.assoc, .clip, .guard, .report, .notices, .writer, .tallies, .wires] ⊆ al) : Frame al s₀ (State.giveUpTails slot p s) := by
  refine fr.andThen ?_ sub
  unfold State.giveUpTails
  try dsimp only
  repeat' first
    | with_reducible exact Frame.refl _ _
    | with_reducible apply State.setPlan_frame
    | with_reducible apply State.endWait_frame
    | split
  all_goals decide
theorem State.clipTakesStop_frame {al : List Area} {s₀ s : State} (fr : Frame al s₀ s)
    (sub : [.assoc, .clip, .guard, .report, .notices, .writer, .tallies, .wires] ⊆ al) : Frame al s₀ (State.clipTakesStop s) := by
  refine fr.andThen ?_ sub
  unfold State.clipTakesStop
  try dsimp only
  repeat' first
    | with_reducible exact Frame.refl _ _
    | with_reducible apply State.setClip_frame
    | with_reducible apply State.setWires_frame
    | with_reducible apply State.giveUpTails_frame
    | with_reducible refine Frame.foldl (fun _ _ => ?_) _ ?_
    | split
  all_goals decide
theorem State.planTakesEntry_frame (st : Nat) (e : TrailEntry) (slot : Nat) (p : Plan)
    {al : List Area} {s₀ s : State}
    (fr : Frame al s₀ s) (sub : [.assoc, .clip, .guard, .report, .notices, .writer, .tallies, .wires] ⊆ al) :
    Frame al s₀ (State.planTakesEntry st e slot p s) := by
  refine fr.andThen ?_ sub
  unfold State.planTakesEntry
  try dsimp only
  repeat' first
    | with_reducible exact Frame.refl _ _
    | with_reducible apply State.askPins_frame
    | with_reducible apply State.setPlan_frame
    | with_reducible apply State.endWait_frame
    | split
  all_goals decide
theorem State.stage_frame (st : Nat) (f : StagedTuning → StagedTuning) {al : List Area} {s₀ s : State} (fr : Frame al s₀ s)
    (sub : [.engine] ⊆ al) : Frame al s₀ (State.stage st f s) := by
  refine fr.andThen ?_ sub
  unfold State.stage
  try dsimp only
  repeat' first
    | with_reducible exact Frame.refl _ _
    | with_reducible apply State.setDetector_frame
    | split
  all_goals decide
theorem State.tellSchedule_frame (p : PartState) {al : List Area} {s₀ s : State} (fr : Frame al s₀ s) (sub : [.wires] ⊆ al) :
    Frame al s₀ (State.tellSchedule p s) := by
  refine fr.andThen ?_ sub
  unfold State.tellSchedule
  try dsimp only
  repeat' first
    | with_reducible exact Frame.refl _ _
    | with_reducible apply State.setWires_frame
    | split
  all_goals decide
theorem State.endCommand_frame {al : List Area} {s₀ s : State} (fr : Frame al s₀ s) (sub : [.control] ⊆ al) :
    Frame al s₀ (State.endCommand s) := by
  refine fr.andThen ?_ sub
  unfold State.endCommand
  try dsimp only
  repeat' first
    | with_reducible exact Frame.refl _ _
    | with_reducible apply State.setControl_frame
    | split
  all_goals decide
theorem State.failLoad_frame (r : LoadRec) (reason : Reason) (offset : Nat) {al : List Area} {s₀ s : State} (fr : Frame al s₀ s)
    (sub : [.control, .guard, .writer, .wires] ⊆ al) : Frame al s₀ (State.failLoad r reason offset s) := by
  refine fr.andThen ?_ sub
  unfold State.failLoad
  try dsimp only
  repeat' first
    | with_reducible exact Frame.refl _ _
    | with_reducible apply State.putResult_frame
    | with_reducible apply State.setPart_frame
    | with_reducible apply State.dropOutstanding_frame
    | with_reducible apply State.tellSchedule_frame
    | with_reducible apply State.endCommand_frame
    | split
  all_goals decide
theorem State.guardAnew_frame {al : List Area} {s₀ s : State} (fr : Frame al s₀ s) (sub : [.guard] ⊆ al) :
    Frame al s₀ (State.guardAnew s) := by
  refine fr.andThen ?_ sub
  unfold State.guardAnew
  try dsimp only
  repeat' first
    | with_reducible exact Frame.refl _ _
    | with_reducible apply State.setGuard_frame
    | with_reducible apply State.releaseHeld_frame
    | split
  all_goals decide
theorem State.succeedLoad_frame (bs : List Byte) {al : List Area} {s₀ s : State} (fr : Frame al s₀ s)
    (sub : [.time, .control, .intake, .engine, .sched, .assoc, .clip, .guard, .report, .notices, .writer, .line, .attend, .wires] ⊆ al) :
    Frame al s₀ (State.succeedLoad bs s) := by
  refine fr.andThen ?_ sub
  unfold State.succeedLoad
  try dsimp only
  repeat' first
    | with_reducible exact Frame.refl _ _
    | with_reducible apply State.setControl_frame
    | with_reducible apply State.setStatus_frame
    | with_reducible apply State.setAttend_frame
    | with_reducible apply State.maskChanged_frame
    | with_reducible apply State.putResult_frame
    | with_reducible apply State.setPart_frame
    | with_reducible apply State.loadRates_frame
    | with_reducible apply State.scheduleLoad_frame
    | with_reducible apply State.intakeAnew_frame
    | with_reducible apply State.engineLoad_frame
    | with_reducible apply State.assocAnew_frame
    | with_reducible apply State.reportAnew_frame
    | with_reducible apply State.clipAnew_frame
    | with_reducible apply State.endCommand_frame
    | with_reducible apply State.guardAnew_frame
    | split
  all_goals decide
theorem State.setLoad_frame (f : LoadRec → LoadRec) {al : List Area} {s₀ s : State} (fr : Frame al s₀ s) (sub : [.control] ⊆ al) :
    Frame al s₀ (State.setLoad f s) := by
  refine fr.andThen ?_ sub
  unfold State.setLoad
  try dsimp only
  repeat' first
    | with_reducible exact Frame.refl _ _
    | with_reducible apply State.setControl_frame
    | split
  all_goals decide
theorem State.grantLoader_frame {al : List Area} {s₀ s : State} (fr : Frame al s₀ s) (sub : [.control, .guard] ⊆ al) :
    Frame al s₀ (State.grantLoader s) := by
  refine fr.andThen ?_ sub
  unfold State.grantLoader
  try dsimp only
  repeat' first
    | with_reducible exact Frame.refl _ _
    | with_reducible apply State.sendRead_frame
    | with_reducible apply State.setLoad_frame
    | split
  all_goals decide
theorem State.settleLoad_frame {al : List Area} {s₀ s : State} (fr : Frame al s₀ s)
    (sub : [.time, .control, .intake, .engine, .sched, .assoc, .clip, .guard, .report, .notices, .writer, .line, .attend, .wires] ⊆ al) :
    Frame al s₀ (State.settleLoad s) := by
  refine fr.andThen ?_ sub
  unfold State.settleLoad
  try dsimp only
  repeat' first
    | with_reducible exact Frame.refl _ _
    | with_reducible apply State.failLoad_frame
    | with_reducible apply State.succeedLoad_frame
    | split
  all_goals decide
theorem State.changeDuringLoad_frame (w : PageWrite) {al : List Area} {s₀ s : State} (fr : Frame al s₀ s)
    (sub : [.control, .guard, .writer, .wires] ⊆ al) : Frame al s₀ (State.changeDuringLoad w s) := by
  refine fr.andThen ?_ sub
  unfold State.changeDuringLoad
  try dsimp only
  repeat' first
    | with_reducible exact Frame.refl _ _
    | with_reducible apply State.failLoad_frame
    | split
  all_goals decide
theorem State.command_frame (code tag : Byte) (thr acc : Bool) (act : State → State) {al : List Area} {s₀ s : State}
    (fr : Frame al s₀ s) (k : Frame al s₀ (act s)) (sub : [.writer] ⊆ al) : Frame al s₀ (State.command code tag thr acc act s) := by
  unfold State.command
  split
  · exact State.putResult_frame _ fr sub
  · split
    · exact State.putResult_frame _ fr sub
    · exact k
theorem State.resultDone_frame (code tag : Byte) {al : List Area} {s₀ s : State} (fr : Frame al s₀ s) (sub : [.writer] ⊆ al) :
    Frame al s₀ (State.resultDone code tag s) := by
  refine fr.andThen ?_ sub
  unfold State.resultDone
  try dsimp only
  repeat' first
    | with_reducible exact Frame.refl _ _
    | with_reducible apply State.putResult_frame
    | split
  all_goals decide
theorem State.acceptLoad_frame (tag : Byte) {al : List Area} {s₀ s : State} (fr : Frame al s₀ s)
    (sub : [.control, .writer, .wires] ⊆ al) : Frame al s₀ (State.acceptLoad tag s) := by
  refine fr.andThen ?_ sub
  unfold State.acceptLoad
  try dsimp only
  repeat' first
    | with_reducible exact Frame.refl _ _
    | with_reducible apply State.setControl_frame
    | with_reducible apply State.setPart_frame
    | with_reducible apply State.tellSchedule_frame
    | split
  all_goals decide
theorem State.takeLoad_frame (tag : Byte) {al : List Area} {s₀ s : State} (fr : Frame al s₀ s) (sub : [.control, .writer, .wires] ⊆ al) :
    Frame al s₀ (State.takeLoad tag s) := by
  refine fr.andThen ?_ sub
  unfold State.takeLoad
  try dsimp only
  repeat' first
    | with_reducible exact Frame.refl _ _
    | with_reducible apply State.acceptLoad_frame
    | with_reducible apply State.command_frame
    | split
  all_goals decide
theorem State.acceptStart_frame (tag : Byte) {al : List Area} {s₀ s : State} (fr : Frame al s₀ s)
    (sub : [.control, .intake, .engine, .sched, .assoc, .guard, .writer, .attend, .wires] ⊆ al) :
    Frame al s₀ (State.acceptStart tag s) := by
  refine fr.andThen ?_ sub
  unfold State.acceptStart
  try dsimp only
  repeat' first
    | with_reducible exact Frame.refl _ _
    | with_reducible apply State.setAttend_frame
    | with_reducible apply State.setPart_frame
    | with_reducible apply State.scheduleStart_frame
    | with_reducible apply State.intakeAnew_frame
    | with_reducible apply State.engineStart_frame
    | with_reducible apply State.assocAnew_frame
    | with_reducible apply State.guardAnew_frame
    | with_reducible apply State.resultDone_frame
    | split
  all_goals decide
theorem State.takeStart_frame (tag : Byte) {al : List Area} {s₀ s : State} (fr : Frame al s₀ s)
    (sub : [.control, .intake, .engine, .sched, .assoc, .guard, .writer, .attend, .wires] ⊆ al) : Frame al s₀ (State.takeStart tag s) := by
  refine fr.andThen ?_ sub
  unfold State.takeStart
  try dsimp only
  repeat' first
    | with_reducible exact Frame.refl _ _
    | with_reducible apply State.acceptStart_frame
    | with_reducible apply State.command_frame
    | split
  all_goals decide
theorem State.endDrain_frame {al : List Area} {s₀ s : State} (fr : Frame al s₀ s)
    (sub : [.control, .clip, .writer, .attend, .wires] ⊆ al) : Frame al s₀ (State.endDrain s) := by
  refine fr.andThen ?_ sub
  unfold State.endDrain
  try dsimp only
  repeat' first
    | with_reducible exact Frame.refl _ _
    | with_reducible apply State.setClip_frame
    | with_reducible apply State.setAttend_frame
    | with_reducible apply State.setWires_frame
    | with_reducible apply State.putResult_frame
    | with_reducible apply State.setPart_frame
    | with_reducible apply State.tellSchedule_frame
    | with_reducible apply State.endCommand_frame
    | split
  all_goals decide
theorem State.settleDrain_frame {al : List Area} {s₀ s : State} (fr : Frame al s₀ s)
    (sub : [.control, .clip, .writer, .attend, .wires] ⊆ al) : Frame al s₀ (State.settleDrain s) := by
  refine fr.andThen ?_ sub
  unfold State.settleDrain
  try dsimp only
  repeat' first
    | with_reducible exact Frame.refl _ _
    | with_reducible apply State.endDrain_frame
    | split
  all_goals decide
theorem State.takeMessage_frame (m : AssocMsg) {al : List Area} {s₀ s : State} (fr : Frame al s₀ s)
    (sub : [.assoc, .notices, .writer, .tallies] ⊆ al) : Frame al s₀ (State.takeMessage m s) := by
  refine fr.andThen ?_ sub
  unfold State.takeMessage
  try dsimp only
  repeat' first
    | with_reducible exact Frame.refl _ _
    | with_reducible apply State.takePick_frame
    | with_reducible apply State.applyClosure_frame
    | split
  all_goals decide
theorem State.takeSentBefore_frame {al : List Area} {s₀ s : State} (fr : Frame al s₀ s)
    (sub : [.assoc, .notices, .writer, .tallies, .wires] ⊆ al) : Frame al s₀ (State.takeSentBefore s) := by
  refine fr.andThen ?_ sub
  unfold State.takeSentBefore
  try dsimp only
  repeat' first
    | with_reducible exact Frame.refl _ _
    | with_reducible apply State.setWires_frame
    | with_reducible apply State.takeMessage_frame
    | with_reducible refine Frame.foldl (fun _ _ => ?_) _ ?_
    | split
  all_goals decide
theorem State.closuresFirst_frame (n : Nat) {al : List Area} {s₀ s : State} (fr : Frame al s₀ s)
    (sub : [.assoc, .notices, .writer, .tallies, .wires] ⊆ al) : Frame al s₀ (State.closuresFirst n s) := by
  refine fr.andThen ?_ sub
  unfold State.closuresFirst
  try dsimp only
  repeat' first
    | with_reducible exact Frame.refl _ _
    | with_reducible apply State.setWires_frame
    | with_reducible apply State.takeMessage_frame
    | with_reducible refine Frame.foldl (fun _ _ => ?_) _ ?_
    | split
  all_goals decide
theorem State.closeAtStop_frame (es : List (Nat × Event)) {al : List Area} {s₀ s : State} (fr : Frame al s₀ s)
    (sub : [.assoc, .clip, .guard, .report, .notices, .writer, .tallies, .wires] ⊆ al) : Frame al s₀ (State.closeAtStop es s) := by
  refine fr.andThen ?_ sub
  unfold State.closeAtStop
  try dsimp only
  repeat' first
    | with_reducible exact Frame.refl _ _
    | with_reducible apply State.closeEvent_frame
    | with_reducible refine Frame.foldl (fun _ _ => ?_) _ ?_
    | split
  all_goals decide
theorem State.stopEvents_frame (n : Nat) {al : List Area} {s₀ s : State} (fr : Frame al s₀ s)
    (sub : [.assoc, .clip, .guard, .report, .notices, .writer, .tallies, .wires] ⊆ al) : Frame al s₀ (State.stopEvents n s) := by
  refine fr.andThen ?_ sub
  unfold State.stopEvents
  try dsimp only
  repeat' first
    | with_reducible exact Frame.refl _ _
    | with_reducible apply State.clipTakesStop_frame
    | with_reducible apply State.closeAtStop_frame
    | split
  all_goals decide
theorem State.setCause_frame (c : ResetCause) {al : List Area} {s₀ s : State} (fr : Frame al s₀ s) (sub : [.control, .writer] ⊆ al) :
    Frame al s₀ (State.setCause c s) := by
  refine fr.andThen ?_ sub
  unfold State.setCause
  try dsimp only
  repeat' first
    | with_reducible exact Frame.refl _ _
    | with_reducible apply State.setControl_frame
    | with_reducible apply State.askRewrite_frame
    | split
  all_goals decide
theorem State.countUnitErrors_frame {al : List Area} {s₀ s : State} (fr : Frame al s₀ s) (sub : [.tallies] ⊆ al) :
    Frame al s₀ (State.countUnitErrors s) := by
  refine fr.andThen ?_ sub
  unfold State.countUnitErrors
  repeat' first
    | with_reducible exact Frame.refl _ _
    | with_reducible apply State.countBy_frame
    | split
  all_goals decide
theorem State.acceptSoftReset_frame (tag : Byte) {al : List Area} {s₀ s : State} (fr : Frame al s₀ s)
    (sub : [.control, .intake, .engine, .sched, .assoc, .clip, .guard, .report, .notices, .writer, .line, .tallies, .attend, .wires] ⊆ al) :
    Frame al s₀ (State.acceptSoftReset tag s) := by
  refine fr.andThen ?_ sub
  unfold State.acceptSoftReset
  try dsimp only
  repeat' first
    | with_reducible exact Frame.refl _ _
    | with_reducible apply State.setGuard_frame
    | with_reducible apply State.setStatus_frame
    | with_reducible apply State.setAttend_frame
    | with_reducible apply State.setPending_frame
    | with_reducible apply State.setPart_frame
    | with_reducible apply State.scheduleSoftReset_frame
    | with_reducible apply State.releaseHeld_frame
    | with_reducible apply State.intakeAnew_frame
    | with_reducible apply State.engineSoftReset_frame
    | with_reducible apply State.assocSoftReset_frame
    | with_reducible apply State.reportSoftReset_frame
    | with_reducible apply State.clipAnew_frame
    | with_reducible apply State.endCommand_frame
    | with_reducible apply State.resultDone_frame
    | with_reducible apply State.setCause_frame
    | with_reducible apply State.guardAnew_frame
    | with_reducible apply State.countUnitErrors_frame
    | split
  all_goals decide
theorem State.takeSoftReset_frame (tag : Byte) {al : List Area} {s₀ s : State} (fr : Frame al s₀ s)
    (sub : [.control, .intake, .engine, .sched, .assoc, .clip, .guard, .report, .notices, .writer, .line, .tallies, .attend, .wires] ⊆ al) :
    Frame al s₀ (State.takeSoftReset tag s) := by
  refine fr.andThen ?_ sub
  unfold State.takeSoftReset
  try dsimp only
  repeat' first
    | with_reducible exact Frame.refl _ _
    | with_reducible apply State.acceptSoftReset_frame
    | with_reducible apply State.command_frame
    | split
  all_goals decide
theorem State.decideSetTime_frame (tag : Byte) {al : List Area} {s₀ s : State} (fr : Frame al s₀ s)
    (sub : [.time, .writer, .wires] ⊆ al) : Frame al s₀ (State.decideSetTime tag s) := by
  refine fr.andThen ?_ sub
  unfold State.decideSetTime
  try dsimp only
  repeat' first
    | with_reducible exact Frame.refl _ _
    | with_reducible apply State.putResult_frame
    | with_reducible apply State.acceptSecond_frame
    | with_reducible apply State.resultDone_frame
    | split
  all_goals decide
theorem State.takeSetTime_frame (tag : Byte) {al : List Area} {s₀ s : State} (fr : Frame al s₀ s) (sub : [.time, .writer, .wires] ⊆ al) :
    Frame al s₀ (State.takeSetTime tag s) := by
  refine fr.andThen ?_ sub
  unfold State.takeSetTime
  try dsimp only
  repeat' first
    | with_reducible exact Frame.refl _ _
    | with_reducible apply State.decideSetTime_frame
    | with_reducible apply State.command_frame
    | split
  all_goals decide
theorem State.acceptDump_frame (tag : Byte) {al : List Area} {s₀ s : State} (fr : Frame al s₀ s)
    (sub : [.control, .line, .tallies] ⊆ al) : Frame al s₀ (State.acceptDump tag s) := by
  refine fr.andThen ?_ sub
  intro a n
  unfold State.acceptDump
  try dsimp only
  repeat' split
  all_goals cases a <;> simp_all [Same]
theorem State.takeDumpTally_frame (tag : Byte) {al : List Area} {s₀ s : State} (fr : Frame al s₀ s)
    (sub : [.control, .writer, .line, .tallies] ⊆ al) : Frame al s₀ (State.takeDumpTally tag s) := by
  refine fr.andThen ?_ sub
  unfold State.takeDumpTally
  try dsimp only
  repeat' first
    | with_reducible exact Frame.refl _ _
    | with_reducible apply State.acceptDump_frame
    | with_reducible apply State.command_frame
    | split
  all_goals decide
theorem State.cutAll_frame {al : List Area} {s₀ s : State} (fr : Frame al s₀ s)
    (sub : [.intake, .notices, .writer, .tallies, .wires] ⊆ al) : Frame al s₀ (State.cutAll s) := by
  refine fr.andThen ?_ sub
  unfold State.cutAll
  try dsimp only
  repeat' first
    | with_reducible exact Frame.refl _ _
    | with_reducible apply State.cutSlot_frame
    | with_reducible refine Frame.foldl (fun _ _ => ?_) _ ?_
    | split
  all_goals decide
theorem State.acceptReleaseHolds_frame (tag : Byte) {al : List Area} {s₀ s : State} (fr : Frame al s₀ s)
    (sub : [.intake, .guard, .notices, .writer, .tallies, .wires] ⊆ al) : Frame al s₀ (State.acceptReleaseHolds tag s) := by
  refine fr.andThen ?_ sub
  unfold State.acceptReleaseHolds
  try dsimp only
  repeat' first
    | with_reducible exact Frame.refl _ _
    | with_reducible apply State.releaseHeld_frame
    | with_reducible apply State.resultDone_frame
    | with_reducible apply State.cutAll_frame
    | split
  all_goals decide
theorem State.takeReleaseHolds_frame (tag : Byte) {al : List Area} {s₀ s : State} (fr : Frame al s₀ s)
    (sub : [.intake, .guard, .notices, .writer, .tallies, .wires] ⊆ al) : Frame al s₀ (State.takeReleaseHolds tag s) := by
  refine fr.andThen ?_ sub
  unfold State.takeReleaseHolds
  try dsimp only
  repeat' first
    | with_reducible exact Frame.refl _ _
    | with_reducible apply State.acceptReleaseHolds_frame
    | with_reducible apply State.command_frame
    | split
  all_goals decide
theorem State.takeUnknown_frame (code tag : Byte) {al : List Area} {s₀ s : State} (fr : Frame al s₀ s) (sub : [.writer] ⊆ al) :
    Frame al s₀ (State.takeUnknown code tag s) := by
  refine fr.andThen ?_ sub
  unfold State.takeUnknown
  try dsimp only
  repeat' first
    | with_reducible exact Frame.refl _ _
    | with_reducible apply State.putResult_frame
    | split
  all_goals decide
theorem State.storeArgument_frame (arg : BitVec 64) {al : List Area} {s₀ s : State} (fr : Frame al s₀ s) (sub : [.control] ⊆ al) :
    Frame al s₀ (State.storeArgument arg s) := by
  refine fr.andThen ?_ sub
  unfold State.storeArgument
  try dsimp only
  repeat' first
    | with_reducible exact Frame.refl _ _
    | with_reducible apply State.setControl_frame
    | split
  all_goals decide
theorem State.clearKinds_frame (kinds : BitVec 24) {al : List Area} {s₀ s : State} (fr : Frame al s₀ s) (sub : [.notices, .writer] ⊆ al) :
    Frame al s₀ (State.clearKinds kinds s) := by
  refine fr.andThen ?_ sub
  unfold State.clearKinds
  try dsimp only
  repeat' first
    | with_reducible exact Frame.refl _ _
    | with_reducible apply State.setPending_frame
    | split
  all_goals decide
theorem State.becomeAttended_frame {al : List Area} {s₀ s : State} (fr : Frame al s₀ s) (sub : [.notices, .writer, .attend] ⊆ al) :
    Frame al s₀ (State.becomeAttended s) := by
  refine fr.andThen ?_ sub
  unfold State.becomeAttended
  try dsimp only
  repeat' first
    | with_reducible exact Frame.refl _ _
    | with_reducible apply State.setAttend_frame
    | with_reducible apply State.askRewrite_frame
    | with_reducible apply State.raise_frame
    | split
  all_goals decide
theorem State.heartbeatRead_frame {al : List Area} {s₀ s : State} (fr : Frame al s₀ s) (sub : [.notices, .writer, .attend] ⊆ al) :
    Frame al s₀ (State.heartbeatRead s) := by
  refine fr.andThen ?_ sub
  unfold State.heartbeatRead
  try dsimp only
  repeat' first
    | with_reducible exact Frame.refl _ _
    | with_reducible apply State.setAttend_frame
    | with_reducible apply State.becomeAttended_frame
    | split
  all_goals decide
theorem State.becomeUnattended_frame {al : List Area} {s₀ s : State} (fr : Frame al s₀ s)
    (sub : [.notices, .writer, .tallies, .attend, .wires] ⊆ al) : Frame al s₀ (State.becomeUnattended s) := by
  refine fr.andThen ?_ sub
  unfold State.becomeUnattended
  try dsimp only
  repeat' first
    | with_reducible exact Frame.refl _ _
    | with_reducible apply State.setAttend_frame
    | with_reducible apply State.setWires_frame
    | with_reducible apply State.askRewrite_frame
    | with_reducible apply State.raise_frame
    | with_reducible apply State.count_frame
    | split
  all_goals decide
theorem State.release_frame (setupBase : Byte) {al : List Area} {s₀ s : State} (fr : Frame al s₀ s) (sub : [.control, .writer] ⊆ al) :
    Frame al s₀ (State.release setupBase s) := by
  refine fr.andThen ?_ sub
  unfold State.release
  try dsimp only
  repeat' first
    | with_reducible exact Frame.refl _ _
    | with_reducible apply State.setControl_frame
    | with_reducible apply State.askRewrite_frame
    | with_reducible apply State.putResult_frame
    | split
  all_goals decide
theorem State.decided_frame (tag : Nat) (p : Progress) {al : List Area} {s₀ s : State} (fr : Frame al s₀ s) (sub : [.guard] ⊆ al) :
    Frame al s₀ (State.decided tag p s) := by
  refine fr.andThen ?_ sub
  unfold State.decided
  try dsimp only
  repeat' first
    | with_reducible exact Frame.refl _ _
    | with_reducible apply State.setGuard_frame
    | split
  all_goals decide
theorem State.refuse_frame (c : Candidate) (r : Request) {al : List Area} {s₀ s : State} (fr : Frame al s₀ s)
    (sub : [.guard, .notices, .writer, .tallies] ⊆ al) : Frame al s₀ (State.refuse c r s) := by
  refine fr.andThen ?_ sub
  unfold State.refuse
  try dsimp only
  repeat' first
    | with_reducible exact Frame.refl _ _
    | with_reducible apply State.setGuard_frame
    | with_reducible apply State.raise_frame
    | with_reducible apply State.count_frame
    | with_reducible apply State.decided_frame
    | split
  all_goals decide
theorem State.hold_frame (c : Candidate) (r : Request) (k : HoldKind) {al : List Area} {s₀ s : State} (fr : Frame al s₀ s)
    (sub : [.guard, .tallies] ⊆ al) : Frame al s₀ (State.hold c r k s) := by
  refine fr.andThen ?_ sub
  unfold State.hold
  try dsimp only
  repeat' first
    | with_reducible exact Frame.refl _ _
    | with_reducible apply State.setGuard_frame
    | with_reducible apply State.count_frame
    | split
  all_goals decide
theorem State.countGrant_frame {al : List Area} {s₀ s : State} (fr : Frame al s₀ s) (sub : [.guard] ⊆ al) :
    Frame al s₀ (State.countGrant s) := by
  refine fr.andThen ?_ sub
  unfold State.countGrant
  try dsimp only
  repeat' first
    | with_reducible exact Frame.refl _ _
    | with_reducible apply State.setGuard_frame
    | split
  all_goals decide


/-! ### STOP and the setup words -/

theorem State.acceptStop_frame (tag : Byte) {al : List Area} {s₀ s : State} (fr : Frame al s₀ s)
    (sub : [.control, .intake, .engine, .assoc, .clip, .guard, .report, .notices, .writer, .tallies, .attend, .wires, .draws] ⊆ al) :
    Frame al s₀ (State.acceptStop tag s) := by
  refine fr.andThen ?_ sub
  have k : ∀ {l : List Area} {t : State} (n : Nat), Frame l s t → Area.draws ∈ l → Frame l s { t with draws := n } := by
    intro l t n h d a m
    have := h a m
    cases a <;> simp_all [Same]
  unfold State.acceptStop
  refine State.settleDrain_frame (State.stopEvents_frame _ (State.closuresFirst_frame _ (k _ (State.setWires_frame _
    (State.engineStop_frame (State.intakeStop_frame (State.tellSchedule_frame _ (State.setPart_frame _ (State.setControl_frame _
      (State.takeSentBefore_frame (Frame.refl _ _) ?_) ?_) ?_) ?_) ?_) ?_) ?_) ?_) ?_) ?_) ?_
  all_goals decide

/-- What a word of the setup areas may change. -/
abbrev setupAreas : List Area := [.control, .engine, .sched, .attend, .notices, .writer, .tallies, .wires]

theorem liveField_frame (ok : Bool) (f : General → General) (t : Taken) {s₀ : State} (fr : Frame setupAreas s₀ t.1) :
    Frame setupAreas s₀ (liveField ok f t).1 := by
  unfold liveField
  split
  · exact State.setGen_frame _ fr (by decide)
  · exact fr

theorem State.generalWord_frame (off : Nat) (w : List Byte) (t : Taken) {s₀ : State} (fr : Frame setupAreas s₀ t.1) :
    Frame setupAreas s₀ (State.generalWord off w t).1 := by
  have e : ∀ (v : Nat) (t : Taken), Frame setupAreas s₀ t.1 → Frame setupAreas s₀ (State.writeScheduleEnable v t).1 := by
    intro v t h
    unfold State.writeScheduleEnable
    split
    · dsimp only
      split
      · exact h
      · exact State.applyConditions_frame _ _ (State.setGen_frame _ h (by decide)) (by decide)
    · exact h
  have i : ∀ (v : Nat) (t : Taken), Frame setupAreas s₀ t.1 → Frame setupAreas s₀ (State.writeServiceInterval v t).1 := by
    intro v t h
    have k := State.setGen_frame (fun g => { g with serviceInterval := v }) h (by decide)
    unfold State.writeServiceInterval
    dsimp only
    repeat' split
    · exact State.setAttend_frame _ k (by decide)
    · exact State.setAttend_frame _ k (by decide)
    · exact k
    · exact h
  have m : ∀ (v : Nat) (t : Taken), Frame setupAreas s₀ t.1 → Frame setupAreas s₀ (State.writeMask v t).1 := by
    intro v t h
    unfold State.writeMask
    dsimp only
    split
    · exact h
    · exact State.maskChanged_frame (State.setGen_frame _ h (by decide)) (by decide)
  unfold State.generalWord
  split
  · exact fr
  · split
    · exact liveField_frame _ _ _ (liveField_frame _ _ _ (liveField_frame _ _ _ (e _ _ (liveField_frame _ _ _ fr))))
    · split
      · exact i _ _ (liveField_frame _ _ _ (liveField_frame _ _ _ (liveField_frame _ _ _ fr)))
      · split
        · exact m _ _ (liveField_frame _ _ _ (liveField_frame _ _ _ (liveField_frame _ _ _ fr)))
        · split
          · exact State.setSched_frame _ fr (by decide)
          · exact fr

theorem State.setupWord_frame (off : Nat) (w : List Byte) (t : Taken) {s₀ : State} (fr : Frame setupAreas s₀ t.1) :
    Frame setupAreas s₀ (State.setupWord off w t).1 := by
  unfold State.setupWord
  split
  · exact fr
  · split
    · exact State.generalWord_frame _ _ _ fr
    · split
      · unfold State.stationWord State.writeEnabled
        dsimp only
        repeat' split
        all_goals first
          | exact fr
          | exact State.disable_frame _ fr (by decide)
          | exact State.enable_frame _ fr (by decide)
          | exact State.stage_frame _ _ fr (by decide)
      · split
        · exact fr
        · split
          · unfold State.bankWord
            split
            · exact fr
            · exact State.setSched_frame _ fr (by decide)
          · exact fr

theorem State.takeWords_frame (lo hi : Nat) (w : PageWrite) {s₀ s : State} (fr : Frame setupAreas s₀ s) :
    Frame setupAreas s₀ (State.takeWords lo hi w s) := by
  have k : ∀ (ws : List (Nat × List (Option Byte))) (t : Taken), Frame setupAreas s₀ t.1 →
      Frame setupAreas s₀ (ws.foldl (fun (t : Taken) p =>
        match fullWord p.2 with
        | some bs => State.setupWord p.1 bs t
        | none => t) t).1 := by
    intro ws
    induction ws with
    | nil => exact fun _ h => h
    | cons p ws ih =>
      intro t h
      refine ih _ ?_
      dsimp only
      split
      · exact State.setupWord_frame _ _ _ h
      · exact h
  unfold State.takeWords
  dsimp only
  split
  · exact State.setupIgnored_frame (k _ _ fr) (by decide)
  · exact k _ _ fr

end Sys2Proof.Machine
end

