-- ==== Sys2Proof/Laws/Schedule.lean ====
section
/-! SUPPORT. What the operations of the Schedule Unit do: the mute interval list keeps R78's law, and each operation changes the Schedule
Unit alone. -/
-- One lemma after another: elaborated side by side, the package as one text would need too many threads.
set_option Elab.async false
namespace Sys2Proof.Machine

/-! ### The mute interval list (R78 to R82) -/

/-- Two intervals do not share a group, when both are open and of one kind (R78). -/
def Apart (a b : Interval) : Prop := a.isOpen → b.isOpen → a.kind.same b.kind → a.mask &&& b.mask = 0

theorem MuteKind.same_comm (a b : MuteKind) : a.same b = b.same a := by
  cases a <;> cases b <;> rfl

theorem MuteKind.same_trans (a b c : MuteKind) (h : a.same b) (k : b.same c) : a.same c := by
  cases a <;> cases b <;> cases c <;> simp_all [MuteKind.same]

theorem Apart.symm {a b : Interval} (h : Apart a b) : Apart b a := fun oa ob k => by
  rw [BitVec.and_comm]
  exact h ob oa (by rwa [MuteKind.same_comm])

theorem intervalsOk_nil : IntervalsOk [] := ⟨by decide, by simp, List.Pairwise.nil⟩

theorem IntervalsOk.sublist {vs us : List Interval} (h : IntervalsOk vs) (k : us.Sublist vs) : IntervalsOk us :=
  ⟨k.length_le.trans h.1, fun v hv => h.2.1 v (k.mem hv), List.Pairwise.sublist k h.2.2⟩

theorem IntervalsOk.apart {vs : List Interval} (h : IntervalsOk vs) : vs.Pairwise Apart := h.2.2

/-- A non-empty set of groups names one. -/
theorem group_of_mask {m : BitVec 8} (h : m ≠ 0) : ∃ i : Fin 8, m.getLsbD i = true := by
  by_contra c
  push Not at c
  refine h (BitVec.eq_of_getLsbD_eq fun i hi => ?_)
  have := c ⟨i, hi⟩
  simpa using this

/-- Of one kind at most eight intervals are open: each holds a group of its own (R79). -/
theorem open_le_eight {l : List Interval} (hp : l.Pairwise fun a b => a.mask &&& b.mask = 0) (hm : ∀ v ∈ l, v.mask ≠ 0) : l.length ≤ 8 := by
  classical
  let f : Interval → Fin 8 := fun v => if h : v.mask ≠ 0 then (group_of_mask h).choose else 0
  have hf : ∀ v : Interval, v.mask ≠ 0 → v.mask.getLsbD (f v) = true := fun v h => by
    have : f v = (group_of_mask h).choose := dif_pos h
    rw [this]
    exact (group_of_mask h).choose_spec
  have nd : (l.map f).Nodup := by
    refine List.pairwise_map.2 ((List.Pairwise.and_mem.1 hp).imp ?_)
    rintro a b ⟨ha, hb, z⟩ e
    have k1 := hf a (hm a ha)
    have k2 := hf b (hm b hb)
    rw [← e] at k2
    have : (a.mask &&& b.mask).getLsbD (f a) = true := by simp [k1, k2]
    rw [z] at this
    simp at this
  have := nd.length_le_card
  simpa using this

/-- A list that stands apart and holds no closed interval has at most 16 intervals (R79). -/
theorem open_le_sixteen {l : List Interval} (hp : l.Pairwise Apart) (hm : ∀ v ∈ l, v.mask ≠ 0) (ho : ∀ v ∈ l, v.isOpen) : l.length ≤ 16 := by
  have one : ∀ k : MuteKind, (l.filter fun v => k.same v.kind).length ≤ 8 := fun k => by
    refine open_le_eight ?_ fun v hv => hm v (List.mem_filter.1 hv).1
    refine (List.Pairwise.and_mem.1 (hp.filter _)).imp ?_
    rintro a b ⟨ha, hb, z⟩
    obtain ⟨ha, ka⟩ := List.mem_filter.1 ha
    obtain ⟨hb, kb⟩ := List.mem_filter.1 hb
    exact z (ho a ha) (ho b hb) (MuteKind.same_trans _ k _ (by rw [MuteKind.same_comm]; exact ka) kb)
  have sum : l.length = (l.filter fun v => MuteKind.mute.same v.kind).length + (l.filter fun v => (MuteKind.desens 0).same v.kind).length := by
    have : ∀ v : Interval, (MuteKind.desens 0).same v.kind = !MuteKind.mute.same v.kind := fun v => by cases v.kind <;> rfl
    simp only [this]
    clear one ho hm hp
    induction l with
    | nil => rfl
    | cons v l ih => by_cases h : MuteKind.mute.same v.kind = true <;> simp [h, ih] <;> omega
  have := one .mute
  have := one (.desens 0)
  omega

theorem earliestEnd_mem (vs : List Interval) : ∀ t, earliestEnd vs = some t → ∃ v ∈ vs, v.endT = some t := by
  induction vs with
  | nil => intro t h; cases h
  | cons v vs ih =>
    intro t h
    unfold earliestEnd at h
    cases hv : v.endT <;> cases hr : earliestEnd vs <;> rw [hv, hr] at h
    · cases h
    · obtain ⟨w, m, k⟩ := ih t (by rw [hr]; exact h)
      exact ⟨w, List.mem_cons_of_mem _ m, k⟩
    · exact ⟨v, List.mem_cons_self .., by rw [hv]; exact h⟩
    next a b =>
      have h : min a b = t := Option.some.inj h
      by_cases c : a ≤ b
      · exact ⟨v, List.mem_cons_self .., by rw [hv, ← h, min_eq_left c]⟩
      · obtain ⟨w, m, k⟩ := ih b hr
        exact ⟨w, List.mem_cons_of_mem _ m, by rw [k, ← h, min_eq_right (by omega)]⟩

theorem earliestEnd_none (vs : List Interval) (h : earliestEnd vs = none) : ∀ v ∈ vs, v.isOpen := by
  induction vs with
  | nil => intro v m; cases m
  | cons v vs ih =>
    unfold earliestEnd at h
    cases hv : v.endT <;> cases hr : earliestEnd vs <;> rw [hv, hr] at h <;> try cases h
    intro w m
    rcases List.mem_cons.1 m with r | r
    · rw [r]
      simp [Interval.isOpen, hv]
    · exact ih hr w r

theorem insertBefore_perm {α : Type} (p : α → Bool) (x : α) (l : List α) : (insertBefore p x l).Perm (x :: l) := by
  induction l with
  | nil => exact List.Perm.refl _
  | cons y ys ih =>
    unfold insertBefore
    split
    · exact List.Perm.refl _
    · exact (ih.cons y).trans (List.Perm.swap x y ys)

theorem makeRoom_sublist (vs : List Interval) : (makeRoom vs).Sublist vs := by
  unfold makeRoom
  split
  · exact List.Sublist.refl _
  · split
    · exact List.eraseP_sublist
    · exact List.Sublist.refl _

/-- Every interval of the list after a new one is placed is the new one or stood before (R79). -/
theorem mem_placeInterval {m : BitVec 8} {k : MuteKind} {t : Nat} {vs : List Interval} {v : Interval}
    (h : v ∈ placeInterval m k t vs) : v = ⟨m, k, t, none⟩ ∨ v ∈ vs := by
  unfold placeInterval at h
  have := (insertBefore_perm _ _ _).mem_iff.1 h
  rcases List.mem_cons.1 this with e | e
  · exact Or.inl e
  · exact Or.inr ((makeRoom_sublist vs).mem e)

theorem placeInterval_ok {m : BitVec 8} {k : MuteKind} {t : Nat} {vs : List Interval} (h : IntervalsOk vs) (m0 : m ≠ 0)
    (n : ∀ v ∈ vs, Apart ⟨m, k, t, none⟩ v) : IntervalsOk (placeInterval m k t vs) := by
  have p := (insertBefore_perm (fun v => decide (t < v.beginT)) (⟨m, k, t, none⟩ : Interval) (makeRoom vs))
  refine ⟨?_, fun v hv => ?_, ?_⟩
  · unfold placeInterval
    rw [p.length_eq, List.length_cons]
    unfold makeRoom
    split
    next c => omega
    next c =>
      have h1 := h.1
      split
      next u he =>
        obtain ⟨v, hv, e⟩ := earliestEnd_mem vs _ he
        have := List.length_eraseP_of_mem (p := fun v : Interval => v.endT == some u) hv (by simp [e])
        omega
      next he =>
        have all := earliestEnd_none vs he
        have := open_le_sixteen (l := ⟨m, k, t, none⟩ :: vs) (List.pairwise_cons.2 ⟨n, h.apart⟩)
          (fun v hv => (List.mem_cons.1 hv).elim (fun e => e ▸ m0) (h.2.1 v))
          (fun v hv => (List.mem_cons.1 hv).elim (fun e => e ▸ rfl) (all v))
        rw [List.length_cons] at this
        omega
  · rcases mem_placeInterval hv with e | e
    · rw [e]; exact m0
    · exact h.2.1 v e
  · refine (p.pairwise_iff (R := Apart) (fun h => h.symm)).2 ?_
    exact List.pairwise_cons.2 ⟨fun v hv => n v ((makeRoom_sublist vs).mem hv), (h.sublist (makeRoom_sublist vs)).apart⟩

theorem foldl_or_ge (l : List Interval) (m : BitVec 8) (i : Nat) (h : m.getLsbD i = true) :
    (l.foldl (fun m v => m ||| v.mask) m).getLsbD i = true := by
  induction l generalizing m with
  | nil => exact h
  | cons x l ih => exact ih _ (by simp [h])

theorem mem_foldl_or (l : List Interval) (m : BitVec 8) (v : Interval) (hv : v ∈ l) (i : Nat) (h : v.mask.getLsbD i = true) :
    (l.foldl (fun m v => m ||| v.mask) m).getLsbD i = true := by
  induction l generalizing m with
  | nil => cases hv
  | cons x l ih =>
    rcases List.mem_cons.1 hv with rfl | hv
    · exact foldl_or_ge l _ i (by simp [h])
    · exact ih _ hv

/-- An ON entry keeps the law (R78, R79). -/
theorem openInterval_ok (m : BitVec 8) (k : MuteKind) (t : Nat) (vs : List Interval) (h : IntervalsOk vs) :
    IntervalsOk (openInterval m k t vs) := by
  unfold openInterval
  simp only
  split
  · exact h
  next m0 =>
    refine placeInterval_ok h m0 fun v hv _ ov sk => ?_
    have hm : v ∈ vs.filter fun v => v.isOpen && v.kind.same k := by
      refine List.mem_filter.2 ⟨hv, ?_⟩
      rw [ov, MuteKind.same_comm]
      exact sk
    refine BitVec.eq_of_getLsbD_eq fun i hi => ?_
    simp only [BitVec.getLsbD_and]
    by_cases b : v.mask.getLsbD i = true
    · have : (openGroups k vs).getLsbD i = true := mem_foldl_or _ 0 v hm i b
      simp [this]
    · simp [b]

theorem Interval.meets_open {m : BitVec 8} {k : MuteKind} {v : Interval} (h : v.meets m k = true) : v.isOpen = true := by
  unfold Interval.meets at h
  simp only [Bool.and_eq_true] at h
  exact h.1.1

/-- The groups left of intervals that stand apart are placed in turn (R80). -/
theorem placeSplit_ok (mask : BitVec 8) (t : Nat) (l : List Interval) (us : List Interval) (hu : IntervalsOk us)
    (hl : l.Pairwise Apart) (ho : ∀ v ∈ l, v.isOpen) (hz : ∀ v ∈ l, v.mask &&& ~~~mask ≠ 0)
    (hx : ∀ v ∈ l, ∀ u ∈ us, u.isOpen → v.kind.same u.kind → v.mask &&& ~~~mask &&& u.mask = 0) :
    IntervalsOk (l.foldl (fun us v => placeInterval (v.mask &&& ~~~mask) v.kind t us) us) := by
  induction l generalizing us with
  | nil => exact hu
  | cons v l ih =>
    obtain ⟨hv, hl'⟩ := List.pairwise_cons.1 hl
    refine ih _ (placeInterval_ok hu (hz v (List.mem_cons_self ..)) fun u m _ ou sk => hx v (List.mem_cons_self ..) u m ou sk) hl'
      (fun w m => ho w (List.mem_cons_of_mem _ m)) (fun w m => hz w (List.mem_cons_of_mem _ m)) fun w mw u mu ou sk => ?_
    rcases mem_placeInterval mu with rfl | mu
    · have z := hv w mw (ho v (List.mem_cons_self ..)) (ho w (List.mem_cons_of_mem _ mw)) (by rw [MuteKind.same_comm]; exact sk)
      refine BitVec.eq_of_getLsbD_eq fun i hi => ?_
      have zi : (v.mask &&& w.mask).getLsbD i = (0 : BitVec 8).getLsbD i := by rw [z]
      simp only [BitVec.getLsbD_and] at zi ⊢
      cases h1 : v.mask.getLsbD i <;> cases h2 : w.mask.getLsbD i <;> simp_all
    · exact hx w (List.mem_cons_of_mem _ mw) u mu ou sk

/-- An OFF entry keeps the law (R78, R80). -/
theorem closeInterval_ok (m : BitVec 8) (k : MuteKind) (t : Nat) (vs : List Interval) (h : IntervalsOk vs) :
    IntervalsOk (closeInterval m k t vs) := by
  unfold closeInterval
  refine placeSplit_ok m t _ _ ⟨by rw [List.length_map]; exact h.1, ?_, ?_⟩ ?_ ?_ ?_ ?_
  · intro v hv
    obtain ⟨w, hw, rfl⟩ := List.mem_map.1 hv
    split <;> exact h.2.1 w hw
  · refine List.Pairwise.map (R := Apart) _ ?_ h.2.2
    intro a b ab oa ob sk
    have ha : ¬ a.meets m k = true := by
      intro c
      simp [c, Interval.isOpen] at oa
    have hb : ¬ b.meets m k = true := by
      intro c
      simp [c, Interval.isOpen] at ob
    simp only [ha, hb, Bool.false_eq_true, ↓reduceIte] at oa ob sk ⊢
    exact ab oa ob sk
  · exact List.Pairwise.filter _ h.2.2
  · intro v hv
    have := (List.mem_filter.1 hv).2
    simp only [Bool.and_eq_true] at this
    exact Interval.meets_open this.1
  · intro v hv
    have := (List.mem_filter.1 hv).2
    simp only [Bool.and_eq_true] at this
    exact of_decide_eq_true this.2
  · intro v hv u hu ou sk
    obtain ⟨hv1, hv2⟩ := List.mem_filter.1 hv
    simp only [Bool.and_eq_true] at hv2
    obtain ⟨w, hw, rfl⟩ := List.mem_map.1 hu
    have hn : ¬ w.meets m k = true := by
      intro c
      simp [c, Interval.isOpen] at ou
    simp only [hn, Bool.false_eq_true, ↓reduceIte] at ou sk ⊢
    have ne : v ≠ w := fun e => hn (e ▸ hv2.1)
    have : Std.Symm Apart := ⟨fun _ _ k => k.symm⟩
    have z : v.mask &&& w.mask = 0 := (List.Pairwise.forall (R := Apart) h.apart) hv1 hw ne (Interval.meets_open hv2.1) ou sk
    refine BitVec.eq_of_getLsbD_eq fun i hi => ?_
    have zi : (v.mask &&& w.mask).getLsbD i = (0 : BitVec 8).getLsbD i := by rw [z]
    simp only [BitVec.getLsbD_and] at zi ⊢
    cases h1 : v.mask.getLsbD i <;> cases h2 : w.mask.getLsbD i <;> simp_all

theorem closeAll_ok (t : Nat) (vs : List Interval) (h : IntervalsOk vs) : IntervalsOk (closeAll t vs) := by
  unfold closeAll
  refine ⟨by rw [List.length_map]; exact h.1, ?_, ?_⟩
  · intro v hv
    obtain ⟨w, hw, rfl⟩ := List.mem_map.1 hv
    split <;> exact h.2.1 w hw
  refine List.Pairwise.map (R := Apart) _ ?_ h.2.2
  intro a b _ oa
  exfalso
  by_cases c : a.isOpen = true
  · rw [if_pos c] at oa
    exact Bool.false_ne_true oa
  · rw [if_neg c] at oa
    exact c oa

/-- No interval is open after every open interval has been closed (R81). -/
theorem closeAll_closed (t : Nat) (vs : List Interval) : ∀ v ∈ closeAll t vs, v.isOpen = false := by
  intro v hv
  obtain ⟨w, -, rfl⟩ := List.mem_map.1 hv
  by_cases c : w.isOpen = true
  · rw [if_pos c]
    rfl
  · rw [if_neg c]
    exact Bool.eq_false_iff.2 c

theorem removeOld_ok (horizon span : Nat) (vs : List Interval) (h : IntervalsOk vs) : IntervalsOk (removeOld horizon span vs) := by
  unfold removeOld
  split
  · exact h
  · exact h.sublist List.filter_sublist

theorem BankEntry.act_ok (e : BankEntry) (t : Nat) (vs : List Interval) (h : IntervalsOk vs) : IntervalsOk (e.act t vs) := by
  unfold BankEntry.act
  repeat' split
  · exact openInterval_ok _ _ _ _ h
  · exact closeInterval_ok _ _ _ _ h
  · exact openInterval_ok _ _ _ _ h
  · exact closeInterval_ok _ _ _ _ h
  · exact h

theorem takeEntries_ok (now start count : Nat) (entries : List BankEntry) :
    ∀ (fuel i : Nat) (c : Schedule), IntervalsOk c.intervals →
      IntervalsOk (takeEntries now start count entries fuel i c).intervals := by
  intro fuel
  induction fuel with
  | zero => intro i c h; exact h
  | succ n ih =>
    intro i c h
    unfold takeEntries
    split
    · simp only
      split
      · exact h
      · split
        · exact h
        · split
          · exact ih _ _ h
          · split
            · exact ih _ _ (BankEntry.act_ok _ _ _ h)
            · exact h
    · exact h

/-! ### Operations on the schedule record -/

/-- A change of the schedule record that keeps the law of the list changes the Schedule Unit alone. -/
theorem State.setSched_onSched (f : Schedule → Schedule) (s : State)
    (h : IntervalsOk s.sched.intervals → IntervalsOk (f s.sched).intervals) : OnSched s (s.setSched f) where
  intervals := h

theorem State.setSchedState_onSched (x : SchedState) (s : State) : OnSched s (s.setSchedState x) := by
  unfold State.setSchedState
  split
  · exact (Told.refl s).onSched
  · refine OnSched.trans ?_ (State.askRewrite_told _).onSched
    exact s.setSched_onSched _ fun h => h

theorem State.takeFrom_onSched (i : Nat) (s : State) : OnSched s (s.takeFrom i) :=
  s.setSched_onSched _ fun h => takeEntries_ok _ _ _ _ _ _ _ h

theorem State.takeStagedPeriod_onSched (s : State) : OnSched s s.takeStagedPeriod := by
  unfold State.takeStagedPeriod
  split
  · simp only
    split
    · refine OnSched.trans ?_ (State.setSched_onSched _ _ fun h => h)
      exact State.setSched_onSched _ _ fun h => h
    · refine OnSched.trans ?_ (State.setupIgnored_told _).onSched
      exact State.setSched_onSched _ _ fun h => h
  · exact (Told.refl s).onSched

theorem State.takeStagedBank_onSched (s : State) : OnSched s s.takeStagedBank := by
  unfold State.takeStagedBank
  split
  · have k : OnSched s (s.setSched fun c => { c with stagedBank := none }) := State.setSched_onSched _ _ fun h => h
    simp only
    split
    · exact k.trans (State.setupIgnored_told _).onSched
    · split
      · exact k
      · split
        · refine OnSched.trans ?_ (State.askRewrite_told _).onSched
          exact k.trans (State.setSched_onSched _ _ fun h => h)
        · exact k.trans (State.raise_told _ _).onSched
  · exact (Told.refl s).onSched

theorem State.startTimer_onSched (t : Nat) (s : State) : OnSched s (s.startTimer t) := by
  unfold State.startTimer
  split
  · exact State.setSched_onSched _ _ fun h => h
  · exact (Told.refl s).onSched

theorem State.cycleStart_onSched (s : State) : OnSched s s.cycleStart := by
  unfold State.cycleStart
  simp only
  refine OnSched.trans ?_ (State.startTimer_onSched _ _)
  refine OnSched.trans ?_ (State.takeFrom_onSched _ _)
  refine OnSched.trans ?_ (State.setSched_onSched _ _ fun h => h)
  refine OnSched.trans ?_ (State.takeStagedBank_onSched _)
  refine OnSched.trans ?_ (State.takeStagedPeriod_onSched _)
  exact State.setSched_onSched _ _ fun h => closeAll_ok _ _ h

theorem State.leaveRunning_onSched (s : State) : OnSched s s.leaveRunning :=
  s.setSched_onSched _ fun h => closeAll_ok _ _ h

theorem State.enterWaitRef_onSched (s : State) : OnSched s s.enterWaitRef := by
  unfold State.enterWaitRef
  refine OnSched.trans ?_ (State.setSchedState_onSched _ _)
  refine OnSched.trans ?_ (State.startTimer_onSched _ _)
  exact State.setSched_onSched _ _ fun h => h

theorem State.stopSchedule_onSched (x : SchedState) (s : State) : OnSched s (s.stopSchedule x) := by
  unfold State.stopSchedule
  split
  · exact s.leaveRunning_onSched.trans (State.setSchedState_onSched _ _)
  · exact State.setSchedState_onSched _ _

/-- The three conditions move the Schedule Unit alone (R71). -/
theorem State.applyConditions_onSched (p : PartState) (t : TimeState) (s : State) : OnSched s (s.applyConditions p t) := by
  unfold State.applyConditions
  repeat' split
  · exact State.stopSchedule_onSched _ _
  · exact State.stopSchedule_onSched _ _
  · exact (Told.refl s).onSched
  · exact State.enterWaitRef_onSched _

theorem State.follow_onSched (s : State) : OnSched s s.follow :=
  (State.setSchedState_onSched _ _).trans (State.cycleStart_onSched _)

theorem State.watchReached_onSched (s : State) : OnSched s s.watchReached := by
  unfold State.watchReached
  simp only
  refine OnSched.trans ?_ (State.cycleStart_onSched _)
  refine OnSched.trans ?_ (State.count_told _ _).onSched
  split
  · exact (Told.refl s).onSched
  · exact (State.setSchedState_onSched _ _).trans (State.raise_told _ _).onSched

theorem State.clearCycle_onSched (s : State) : OnSched s s.clearCycle :=
  s.setSched_onSched _ fun _ => intervalsOk_nil

theorem State.scheduleSoftReset_keeps (s : State) : Keeps s s.scheduleSoftReset := by
  unfold State.scheduleSoftReset
  refine Keeps.trans ?_ (State.setSchedState_onSched _ _).toKeeps
  refine Keeps.trans ?_ (State.clearCycle_onSched _).toKeeps
  exact State.setWires_keeps _ _

theorem State.scheduleStart_keeps (s : State) : Keeps s s.scheduleStart :=
  s.scheduleSoftReset_keeps.trans (State.applyConditions_onSched _ _ _).toKeeps

theorem State.scheduleLoad_keeps (p : Nat) (n : BankName) (a b : List BankEntry) (s : State) : Keeps s (s.scheduleLoad p n a b) := by
  unfold State.scheduleLoad
  refine Keeps.trans ?_ (State.askRewrite_told _).toKeeps
  exact s.scheduleSoftReset_keeps.trans (State.setSched_onSched _ _ fun h => h).toKeeps

/-! ### The commands -/

/-- A command of the Schedule Unit that takes effect changes that unit alone. -/
theorem done_onSched {s t u : State} (h : OnSched s t) (e : done t = .next u) : OnSched s u := by
  unfold done at e
  injection e with e
  exact e ▸ h.trans t.settle_told.onSched

theorem nothing_onSched {s u : State} (e : nothing s = .next u) : OnSched s u := by
  unfold nothing at e
  injection e with e
  exact e ▸ (Told.refl s).onSched

theorem execRefPulse_onSched {s u : State} (e : execRefPulse s = .next u) : OnSched s u := by
  unfold execRefPulse at e
  simp only at e
  have k : OnSched s (s.count .refPulses) := (State.count_told _ _).onSched
  split at e
  · exact done_onSched k e
  · split at e
    · exact done_onSched (k.trans (State.count_told _ _).onSched) e
    · refine done_onSched (OnSched.trans (OnSched.trans k ?_) (State.follow_onSched _)) e
      exact State.setSched_onSched _ _ fun h => h

theorem execInternalCycleTimer_onSched {s u : State} (e : execInternalCycleTimer s = .next u) : OnSched s u := by
  unfold execInternalCycleTimer at e
  split at e
  · exact done_onSched s.follow_onSched e
  · exact nothing_onSched e

theorem execMarkDeadline_onSched {s u : State} (e : execMarkDeadline s = .next u) : OnSched s u := by
  unfold execMarkDeadline at e
  split at e
  · split at e
    · exact nothing_onSched e
    · refine done_onSched (OnSched.trans ?_ (State.takeFrom_onSched _ _)) e
      exact State.setSched_onSched _ _ fun h => BankEntry.act_ok _ _ _ h
  · exact nothing_onSched e

theorem execWatchDeadline_onSched {s u : State} (e : execWatchDeadline s = .next u) : OnSched s u := by
  unfold execWatchDeadline at e
  split at e
  · split at e
    · exact nothing_onSched e
    · split at e
      · refine done_onSched ?_ e
        exact State.setSched_onSched _ _ fun h => h
      · exact done_onSched s.watchReached_onSched e
  · exact nothing_onSched e

theorem execScheduleConditionChange_keeps {s u : State} (e : execScheduleConditionChange s = .next u) : Keeps s u := by
  unfold execScheduleConditionChange at e
  split at e
  · refine done_keeps (Keeps.trans ?_ (State.applyConditions_onSched _ _ _).toKeeps) e
    exact State.setWires_keeps _ _
  · refine done_keeps (Keeps.trans ?_ (State.applyConditions_onSched _ _ _).toKeeps) e
    exact State.setWires_keeps _ _
  · exact nothing_keeps e

theorem execHorizonAdvanceSchedule_keeps {s u : State} (e : execHorizonAdvanceSchedule s = .next u) : Keeps s u := by
  unfold execHorizonAdvanceSchedule at e
  split at e
  · refine done_keeps (Keeps.trans (State.setWires_keeps _ _) (State.setSched_onSched _ _ ?_).toKeeps) e
    exact fun h => removeOld_ok _ _ _ h
  · exact nothing_keeps e

/-! ### What a soft reset and a START leave of the schedule record -/

/-- A soft reset at the Schedule Unit keeps the active bank, the period in force, the staged copy and the banks (R70, R81). -/
theorem State.scheduleSoftReset_sched (s : State) :
    s.scheduleSoftReset.sched = { s.sched with
      state := .idle, cycleStart := none, pointer := none, markDeadline := none, timer := none, lastRef := none, intervals := [],
      cycleCount := some s.gen.cycleMax } := by
  unfold State.scheduleSoftReset State.setSchedState State.dropSchedNotes State.clearCycle
  by_cases c : SchedState.idle = s.sched.state
  · simp [c]
  · simp [c]

theorem State.scheduleSoftReset_gen (s : State) : s.scheduleSoftReset.gen = s.gen := by
  unfold State.scheduleSoftReset State.setSchedState State.dropSchedNotes State.clearCycle
  split <;> rfl

/-- START at the Schedule Unit: no interval stands, and the state is the one its conditions give (R70, R71, R78). -/
theorem State.scheduleStart_sched (s : State) :
    s.scheduleStart.sched.intervals = [] ∧
      s.scheduleStart.sched.state =
        (if s.gen.scheduleEnable then (if s.time.state.onEpoch then .waitRef else .waitTime) else .idle) := by
  have e := s.scheduleSoftReset_sched
  have g := s.scheduleSoftReset_gen
  unfold State.scheduleStart
  generalize s.scheduleSoftReset = y at *
  unfold State.applyConditions State.stopSchedule State.enterWaitRef State.startTimer State.setSchedState
  cases h1 : s.gen.scheduleEnable <;> cases h2 : s.time.state.onEpoch <;> cases h3 : s.gen.refSource <;>
    simp_all [SchedState.running]

end Sys2Proof.Machine
end

