-- ==== Sys2Proof/Laws/Closing.lean ====
section
/-! SUPPORT. What a close and what follows it do to the events that are GATHERING: none is added, and the one that closes is past it
(R96 to R100, R143). -/
-- One lemma after another: elaborated side by side, the package as one text would need too many threads.
set_option Elab.async false
namespace Sys2Proof.Machine

/-- Every event that is GATHERING was so already, in the same slot. -/
def Fewer (s t : State) : Prop :=
  ∀ (i : Nat) (e : Event), t.assoc.events[i]? = some (some e) → e.state = .gathering → ∃ d : Event, s.assoc.events[i]? = some (some d) ∧ d.state = .gathering

theorem Fewer.refl (s : State) : Fewer s s := fun _ e h g => ⟨e, h, g⟩

theorem Fewer.trans {s t u : State} (h : Fewer s t) (k : Fewer t u) : Fewer s u := fun i e he hg =>
  let ⟨d, hd, hdg⟩ := k i e he hg
  h i d hd hdg

/-- What leaves the Associator as it stands adds no event. -/
theorem Fewer.frame {l : List Area} {s₀ s t : State} (k : Frame l s t) (n : Area.assoc ∉ l) (h : Fewer s₀ s) : Fewer s₀ t := by
  have e : t.assoc = s.assoc := k .assoc n
  intro i x hx
  rw [e] at hx
  exact h i x hx

theorem Fewer.foldl {α : Type} {s₀ s : State} {f : State → α → State} (h : ∀ t a, Fewer s₀ t → Fewer s₀ (f t a)) (xs : List α)
    (k : Fewer s₀ s) : Fewer s₀ (xs.foldl f s) := by
  induction xs generalizing s with
  | nil => exact k
  | cons x xs ih => exact ih (h _ _ k)

/-- A change of one event adds no event that is GATHERING when it makes none GATHERING. -/
theorem State.setEvent_fewer (slot : Nat) (f : Event → Event) (hf : ∀ e, (f e).state = .gathering → e.state = .gathering)
    {s₀ s : State} (h : Fewer s₀ s) : Fewer s₀ (s.setEvent slot f) := by
  intro i e he hg
  have he : (s.assoc.events.modify slot (·.map f))[i]? = some (some e) := he
  rw [List.getElem?_modify] at he
  cases hx : s.assoc.events[i]? with
  | none => rw [hx] at he; cases he
  | some x =>
    rw [hx] at he
    cases x with
    | none => split at he <;> cases he
    | some v =>
      split at he
      · simp only [Option.map_eq_map, Option.map_some, Option.some.injEq] at he
        subst he
        exact h i v hx (hf v hg)
      · simp only [Option.map_eq_map, Option.map_some, Option.some.injEq, id_eq] at he
        subst he
        exact h i v hx hg

theorem EventState.precedes_gathering (x t : EventState) (h : x.precedes t = true) : t ≠ .gathering := by
  cases x <;> cases t <;> simp_all [EventState.precedes]

theorem State.applyRequest_fewer (ev : Nat) (t : EventState) {s₀ s : State} (h : Fewer s₀ s) : Fewer s₀ (s.applyRequest ev t) := by
  unfold State.applyRequest
  split
  · split
    next c => exact State.setEvent_fewer _ _ (fun e q => absurd q (EventState.precedes_gathering _ _ c)) h
    · exact h
  · exact h

theorem State.setWires_fewer (f : Wires → Wires) {s₀ s : State} (h : Fewer s₀ s) :
    Fewer s₀ (State.setWires f s) :=
  Fewer.frame (State.setWires_frame _ (Frame.refl [.wires] _) (by decide)) (by decide) h

theorem State.flushRequests_fewer (ev : Nat) {s₀ s : State} (h : Fewer s₀ s) :
    Fewer s₀ (State.flushRequests ev s) := by
  unfold State.flushRequests
  try dsimp only
  repeat' first
    | with_reducible exact h
    | with_reducible apply State.applyRequest_fewer
    | with_reducible apply State.setWires_fewer
    | with_reducible refine Fewer.foldl (fun _ _ k => ?_) _ ?_
    | with_reducible assumption
    | split

theorem State.freeEvent_fewer (slot : Nat) {s₀ s : State} (h : Fewer s₀ s) : Fewer s₀ (s.freeEvent slot) := by
  intro i e he hg
  have he : (s.assoc.events.set slot none)[i]? = some (some e) := he
  rw [List.getElem?_set] at he
  split at he
  · split at he <;> cases he
  · exact h i e he hg

theorem State.setReport_fewer (f : ReportRing → ReportRing) {s₀ s : State} (h : Fewer s₀ s) :
    Fewer s₀ (State.setReport f s) :=
  Fewer.frame (State.setReport_frame _ (Frame.refl [.report] _) (by decide)) (by decide) h

theorem State.askRewrite_fewer {s₀ s : State} (h : Fewer s₀ s) :
    Fewer s₀ (State.askRewrite s) :=
  Fewer.frame (State.askRewrite_frame (Frame.refl [.writer] _) (by decide)) (by decide) h

theorem State.dropPlan_fewer (slot : Nat) {s₀ s : State} (h : Fewer s₀ s) :
    Fewer s₀ (State.dropPlan slot s) :=
  Fewer.frame (State.dropPlan_frame _ (Frame.refl [.clip, .writer] _) (by decide)) (by decide) h

theorem State.freeRecord_fewer {s₀ s : State} (h : Fewer s₀ s) :
    Fewer s₀ (State.freeRecord s) := by
  unfold State.freeRecord
  try dsimp only
  repeat' first
    | with_reducible exact h
    | with_reducible apply State.flushRequests_fewer
    | with_reducible apply State.freeEvent_fewer
    | with_reducible apply State.setReport_fewer
    | with_reducible apply State.askRewrite_fewer
    | with_reducible apply State.dropPlan_fewer
    | with_reducible assumption
    | split

theorem State.freeRecords_fewer (n : Nat) {s₀ s : State} (h : Fewer s₀ s) : Fewer s₀ (s.freeRecords n) := by
  induction n generalizing s with
  | zero => exact h
  | succ n ih => exact ih (State.freeRecord_fewer h)

theorem State.raise_fewer (n : Notice) {s₀ s : State} (h : Fewer s₀ s) :
    Fewer s₀ (State.raise n s) :=
  Fewer.frame (State.raise_frame _ (Frame.refl [.notices, .writer] _) (by decide)) (by decide) h

theorem State.count_fewer (t : Tally) {s₀ s : State} (h : Fewer s₀ s) :
    Fewer s₀ (State.count t s) :=
  Fewer.frame (State.count_frame _ (Frame.refl [.tallies] _) (by decide)) (by decide) h

theorem State.reclaimOldest_fewer {s₀ s : State} (h : Fewer s₀ s) :
    Fewer s₀ (State.reclaimOldest s) := by
  unfold State.reclaimOldest
  try dsimp only
  repeat' first
    | with_reducible exact h
    | with_reducible apply State.freeRecord_fewer
    | with_reducible apply State.raise_fewer
    | with_reducible apply State.count_fewer
    | with_reducible assumption
    | split

theorem State.lookWith_fewer (freed : State → State) {s₀ : State} (k : ∀ t, Fewer s₀ t → Fewer s₀ (freed t)) {s : State} (h : Fewer s₀ s) :
    Fewer s₀ (s.lookWith freed) := by
  unfold State.lookWith
  split
  · split
    · exact Fewer.frame (State.takeFront_frame (Frame.refl [.report] _) (by decide)) (by decide) h
    · split
      · have r := k _ (State.reclaimOldest_fewer h)
        dsimp only
        split
        · exact Fewer.frame (State.takeFront_frame (Frame.refl [.report] _) (by decide)) (by decide) r
        · exact r
      · exact Fewer.frame (State.raise_frame _ (Frame.refl [.notices, .writer] _) (by decide)) (by decide) h
  · exact h

theorem State.joinReport_fewer (ev : Nat) {s₀ s : State} (h : Fewer s₀ s) : Fewer s₀ (s.joinReport ev) := by
  have k : ∀ f, Fewer s₀ (s.setReport f) := fun f => Fewer.frame (State.setReport_frame f (Frame.refl [.report] s) (by decide)) (by decide) h
  unfold State.joinReport
  dsimp only
  split
  · exact State.lookWith_fewer _ (fun _ x => x) (k _)
  · exact k _

theorem State.askPins_fewer (ms : List PinMsg) {s₀ s : State} (h : Fewer s₀ s) :
    Fewer s₀ (State.askPins ms s) :=
  Fewer.frame (State.askPins_frame _ (Frame.refl [.wires] _) (by decide)) (by decide) h

theorem State.askState_fewer (ev : Nat) (t : EventState) {s₀ s : State} (h : Fewer s₀ s) :
    Fewer s₀ (State.askState ev t s) :=
  Fewer.frame (State.askState_frame _ _ (Frame.refl [.wires] _) (by decide)) (by decide) h

theorem State.setPlan_fewer (slot : Nat) (f : Plan → Plan) {s₀ s : State} (h : Fewer s₀ s) :
    Fewer s₀ (State.setPlan slot f s) :=
  Fewer.frame (State.setPlan_frame _ _ (Frame.refl [.clip] _) (by decide)) (by decide) h

theorem State.setCopier_fewer (x : Copier) {s₀ s : State} (h : Fewer s₀ s) :
    Fewer s₀ (State.setCopier x s) :=
  Fewer.frame (State.setCopier_frame _ (Frame.refl [.clip] _) (by decide)) (by decide) h

theorem State.endForLack_fewer (slot : Nat) (p : Plan) {s₀ s : State} (h : Fewer s₀ s) :
    Fewer s₀ (State.endForLack slot p s) := by
  unfold State.endForLack
  try dsimp only
  repeat' first
    | with_reducible exact h
    | with_reducible apply State.joinReport_fewer
    | (refine State.setEvent_fewer _ _ ?_ ?_; exact fun _ x => x)
    | with_reducible apply State.raise_fewer
    | with_reducible apply State.count_fewer
    | with_reducible apply State.askPins_fewer
    | with_reducible apply State.askState_fewer
    | with_reducible apply State.setPlan_fewer
    | with_reducible apply State.setCopier_fewer
    | with_reducible assumption
    | split

theorem State.setClip_fewer (f : Clip → Clip) {s₀ s : State} (h : Fewer s₀ s) :
    Fewer s₀ (State.setClip f s) :=
  Fewer.frame (State.setClip_frame _ (Frame.refl [.clip] _) (by decide)) (by decide) h

theorem State.announceRange_fewer (first n : Nat) {s₀ s : State} (h : Fewer s₀ s) :
    Fewer s₀ (State.announceRange first n s) :=
  Fewer.frame (State.announceRange_frame _ _ (Frame.refl [.guard] _) (by decide)) (by decide) h

theorem State.setPointers_fewer (a f : Nat) {s₀ s : State} (h : Fewer s₀ s) :
    Fewer s₀ (State.setPointers a f s) :=
  Fewer.frame (State.setPointers_frame _ _ (Frame.refl [.clip, .writer] _) (by decide)) (by decide) h

theorem State.comeTo_fewer (slot k : Nat) {s₀ s : State} (h : Fewer s₀ s) :
    Fewer s₀ (State.comeTo slot k s) :=
  Fewer.frame (State.comeTo_frame _ _ (Frame.refl [.clip] _) (by decide)) (by decide) h

theorem State.takeRegion_fewer (slot : Nat) (p : Plan) (r : Region) {s₀ s : State} (h : Fewer s₀ s) :
    Fewer s₀ (State.takeRegion slot p r s) := by
  unfold State.takeRegion
  try dsimp only
  repeat' first
    | with_reducible exact h
    | (refine State.setEvent_fewer _ _ ?_ ?_; exact fun _ x => x)
    | with_reducible apply State.setClip_fewer
    | with_reducible apply State.askState_fewer
    | with_reducible apply State.announceRange_fewer
    | with_reducible apply State.setPointers_fewer
    | with_reducible apply State.setPlan_fewer
    | with_reducible apply State.comeTo_fewer
    | with_reducible assumption
    | split

theorem State.allocate_fewer (slot : Nat) {s₀ s : State} (h : Fewer s₀ s) :
    Fewer s₀ (State.allocate slot s) := by
  unfold State.allocate
  try dsimp only
  repeat' first
    | with_reducible exact h
    | with_reducible apply State.endForLack_fewer
    | with_reducible apply State.takeRegion_fewer
    | with_reducible apply State.setReport_fewer
    | with_reducible apply State.setCopier_fewer
    | with_reducible assumption
    | split

theorem State.runQueue_fewer (n : Nat) {s₀ s : State} (h : Fewer s₀ s) : Fewer s₀ (s.runQueue n) := by
  induction n generalizing s with
  | zero => exact h
  | succ n ih =>
    have k : ∀ f, Fewer s₀ (s.setClip f) := fun f => Fewer.frame (State.setClip_frame f (Frame.refl [.clip] s) (by decide)) (by decide) h
    unfold State.runQueue
    split
    · dsimp only
      split
      · exact ih (State.allocate_fewer _ (k _))
      · exact ih (k _)
    · exact h

theorem State.enqueue_fewer (ev : Nat) {s₀ s : State} (h : Fewer s₀ s) :
    Fewer s₀ (State.enqueue ev s) := by
  unfold State.enqueue
  try dsimp only
  repeat' first
    | with_reducible exact h
    | with_reducible apply State.runQueue_fewer
    | with_reducible apply State.setClip_fewer
    | with_reducible assumption
    | split

theorem State.endWait_fewer (slot : Nat) (p : Plan) {s₀ s : State} (h : Fewer s₀ s) :
    Fewer s₀ (State.endWait slot p s) := by
  unfold State.endWait
  try dsimp only
  repeat' first
    | with_reducible exact h
    | with_reducible apply State.enqueue_fewer
    | with_reducible apply State.askState_fewer
    | with_reducible apply State.setPlan_fewer
    | with_reducible assumption
    | split

theorem State.giveUpTails_fewer (slot : Nat) (p : Plan) {s₀ s : State} (h : Fewer s₀ s) :
    Fewer s₀ (State.giveUpTails slot p s) := by
  unfold State.giveUpTails
  try dsimp only
  repeat' first
    | with_reducible exact h
    | with_reducible apply State.endWait_fewer
    | with_reducible apply State.setPlan_fewer
    | with_reducible assumption
    | split

theorem State.clipTakesStop_fewer {s₀ s : State} (h : Fewer s₀ s) :
    Fewer s₀ (State.clipTakesStop s) := by
  unfold State.clipTakesStop
  try dsimp only
  repeat' first
    | with_reducible exact h
    | with_reducible apply State.giveUpTails_fewer
    | with_reducible apply State.setClip_fewer
    | with_reducible apply State.setWires_fewer
    | with_reducible refine Fewer.foldl (fun _ _ k => ?_) _ ?_
    | with_reducible assumption
    | split

/-- A close leaves its own event past GATHERING, and adds no event that is GATHERING (R98, R99). -/
theorem State.closeEvent_fewer (slot : Nat) (e : Event) (r : CloseReason) {s₀ s : State} (h : Fewer s₀ s) :
    Fewer s₀ (s.closeEvent slot e r) ∧ ∀ v, (s.closeEvent slot e r).assoc.events[slot]? = some (some v) → v.state ≠ .gathering := by
  have k : ∀ (f : Event → Event) (g : Clip → Clip) (ms : List PinMsg) (s₁ : State), Fewer s₁ (s.setEvent slot f) →
      Fewer s₁ (((s.setEvent slot f).setClip g).askPins ms) := fun f g ms s₁ q =>
    Fewer.frame (State.askPins_frame ms (Frame.refl [.wires] _) (by decide)) (by decide)
      (Fewer.frame (State.setClip_frame g (Frame.refl [.clip] _) (by decide)) (by decide) q)
  have done : ∀ s₁, (∀ (f : Event → Event), (∀ x, (f x).state ≠ .gathering) → Fewer s₁ (s.setEvent slot f)) → Fewer s₁ (s.closeEvent slot e r) := by
    intro s₁ q
    unfold State.closeEvent
    dsimp only
    split
    · exact k _ _ _ _ (q _ fun x => by simp)
    · exact State.enqueue_fewer _ (k _ _ _ _ (q _ fun x => by simp))
  refine ⟨done _ fun f hf => State.setEvent_fewer _ _ (fun x c => absurd c (hf x)) h, fun v hv hg => ?_⟩
  have q := done { s with assoc := { s.assoc with events := s.assoc.events.set slot none } } fun f hf i x hx hxg => by
    have hx : (s.assoc.events.modify slot (·.map f))[i]? = some (some x) := hx
    show ∃ y, (s.assoc.events.set slot none)[i]? = some (some y) ∧ _
    rw [List.getElem?_modify] at hx
    rw [List.getElem?_set]
    by_cases c : slot = i
    · subst c
      cases hy : s.assoc.events[slot]? with
      | none => rw [hy] at hx; cases hx
      | some y =>
        rw [hy] at hx
        cases y with
        | none => simp at hx
        | some w =>
          simp only [if_true, Option.map_eq_map, Option.map_some, Option.some.injEq] at hx
          exact absurd (hx ▸ hxg) (hf w)
    · simp only [if_neg c, Option.map_eq_map, Option.map_id_fun', id_eq] at hx
      rw [if_neg c]
      exact ⟨x, hx, hxg⟩
  obtain ⟨y, hy, -⟩ := q slot v hv hg
  have hy : (s.assoc.events.set slot none)[slot]? = some (some y) := hy
  rw [List.getElem?_set] at hy
  simp only [if_true] at hy
  split at hy <;> cases hy

/-! ### The closes of STOP (R100) -/

/-- Of the events in the slots named, none is GATHERING any more; and none is added. -/
theorem State.closeAtStop_fewer (es : List (Nat × Event)) (s : State) :
    Fewer s (s.closeAtStop es) ∧ ∀ q ∈ es, ∀ v, (s.closeAtStop es).assoc.events[q.1]? = some (some v) → v.state ≠ .gathering := by
  induction es generalizing s with
  | nil => exact ⟨Fewer.refl s, fun q h => by cases h⟩
  | cons p es ih =>
    have one : Fewer s (s.closeAtStop [p]) ∧ ∀ v, (s.closeAtStop [p]).assoc.events[p.1]? = some (some v) → v.state ≠ .gathering := by
      unfold State.closeAtStop
      rw [List.foldl_cons, List.foldl_nil]
      split
      next e he =>
        split
        · exact State.closeEvent_fewer _ _ _ (Fewer.refl s)
        next c =>
          refine ⟨Fewer.refl s, fun v hv => ?_⟩
          rw [he] at hv
          simp only [Option.some.injEq] at hv
          exact hv ▸ c
      next he => exact ⟨Fewer.refl s, fun v hv => by rw [he] at hv; cases hv⟩
      next he => exact ⟨Fewer.refl s, fun v hv => by rw [he] at hv; cases hv⟩
    have two : s.closeAtStop (p :: es) = (s.closeAtStop [p]).closeAtStop es := rfl
    rw [two]
    obtain ⟨i1, i2⟩ := ih (s.closeAtStop [p])
    refine ⟨one.1.trans i1, fun q hq v hv hg => ?_⟩
    rcases List.mem_cons.1 hq with r | r
    · subst r
      obtain ⟨d, hd, hdg⟩ := i1 _ _ hv hg
      exact one.2 d hd hdg
    · exact i2 q r v hv hg

theorem mem_heldEvents {i j : Nat} {e : Event} {l : List (Option Event)} (h : l[j]? = some (some e)) : (i + j, e) ∈ heldEvents i l := by
  induction l generalizing i j with
  | nil => simp at h
  | cons x l ih =>
    cases j with
    | zero =>
      simp only [List.getElem?_cons_zero, Option.some.injEq] at h
      subst h
      exact List.mem_cons_self ..
    | succ j =>
      rw [List.getElem?_cons_succ] at h
      have := ih (i := i + 1) h
      rw [show i + (j + 1) = i + 1 + j by omega]
      cases x with
      | none => exact this
      | some v => exact List.mem_cons_of_mem _ this

theorem sortBy_perm {α : Type} (key : α → Nat) (l : List α) : (sortBy key l).Perm l := by
  induction l with
  | nil => exact List.Perm.refl _
  | cons x l ih => exact (insertBefore_perm _ _ _).trans (List.Perm.cons x ih)

/-- STOP leaves no event GATHERING, in whatever order it reaches the Associator and the Clip Unit (R100, R110; log 8). -/
theorem State.stopEvents_none (n : Nat) (s : State) : ∀ e, some e ∈ (s.stopEvents n).assoc.events → e.state ≠ .gathering := by
  have all : ∀ t, Fewer s t → (∀ q ∈ s.gatheringEvents, ∀ v, t.assoc.events[q.1]? = some (some v) → v.state ≠ .gathering) →
      ∀ e, some e ∈ t.assoc.events → e.state ≠ .gathering := by
    intro t f c e he hg
    obtain ⟨i, hi⟩ := List.mem_iff_getElem?.1 he
    obtain ⟨d, hd, hdg⟩ := f i e hi hg
    refine c (i, d) ?_ e hi hg
    unfold State.gatheringEvents State.eventsByNumber
    refine List.mem_filter.2 ⟨(sortBy_perm _ _).mem_iff.2 ?_, by simp [hdg]⟩
    have := mem_heldEvents (i := 0) hd
    rwa [Nat.zero_add] at this
  unfold State.stopEvents
  dsimp only
  split
  · obtain ⟨a1, a2⟩ := State.closeAtStop_fewer (s.gatheringEvents.take (Config.stopClosesBeforeClip n)) s
    have b := State.clipTakesStop_fewer (Fewer.refl (s.closeAtStop (s.gatheringEvents.take (Config.stopClosesBeforeClip n))))
    obtain ⟨c1, c2⟩ := State.closeAtStop_fewer (s.gatheringEvents.drop (Config.stopClosesBeforeClip n))
      (s.closeAtStop (s.gatheringEvents.take (Config.stopClosesBeforeClip n))).clipTakesStop
    refine all _ ((a1.trans b).trans c1) fun q hq v hv hg => ?_
    rw [← List.take_append_drop (Config.stopClosesBeforeClip n) s.gatheringEvents] at hq
    rcases List.mem_append.1 hq with r | r
    · obtain ⟨d, hd, hdg⟩ := (b.trans c1) _ _ hv hg
      exact a2 q r d hd hdg
    · exact c2 q r v hv hg
  · obtain ⟨a1, a2⟩ := State.closeAtStop_fewer s.gatheringEvents s
    exact all _ a1 a2

end Sys2Proof.Machine
end

