-- ==== Sys2Proof/Laws/Intake.lean ====
section
/-! SUPPORT. What the operations of the Intake Unit and of the Station Engine do: each changes its own block alone, and the bounds of the
Intake Unit hold. -/
-- One lemma after another: elaborated side by side, the package as one text would need too many threads.
set_option Elab.async false
namespace Sys2Proof.Machine

/-! ### Bounds (R13, R19, R21) -/

/-- A change of a station's intake state that keeps the bound of its trail keeps the bounds of the Intake Unit. -/
theorem IntakeOk.modifyStation {k : Intake} (h : IntakeOk k) (st : Nat) (f : StationIntake → StationIntake)
    (hf : ∀ si : StationIntake, si.trail.length ≤ 512 → (f si).trail.length ≤ 512) :
    IntakeOk { k with stations := k.stations.modify st f } :=
  ⟨h.1, h.2.1, by simpa using h.2.2.1, modify_forall (P := fun si : StationIntake => si.trail.length ≤ 512) hf _ _ h.2.2.2⟩

theorem takeUp_length (q : List Refetch) : (takeUp q).length = q.length := by
  induction q with
  | nil => rfl
  | cons e q ih =>
    unfold takeUp
    split
    · rfl
    · split <;> rfl
    · simp [ih]

theorem appendTrail_length (t : List TrailEntry) (e : TrailEntry) (h : t.length ≤ 512) : (appendTrail t e).length ≤ 512 := by
  unfold appendTrail
  split <;> simp <;> omega

theorem releaseBuf_length (n : Nat) (bs : List Buf) : (releaseBuf n bs).length = bs.length := by
  unfold releaseBuf
  simp

/-! ### Named updates -/

theorem State.setSlot_onIntake (n : Nat) (f : Slot → Slot) (s : State) : OnIntake s (s.setSlot n f) := {}

theorem State.setStationIntake_onIntake (st : Nat) (f : StationIntake → StationIntake)
    (hf : ∀ si : StationIntake, si.trail.length ≤ 512 → (f si).trail.length ≤ 512) (s : State) :
    OnIntake s (s.setStationIntake st f) where
  intakeOk h := h.modifyStation st f hf

theorem State.setBufs_onIntake (bs : List Buf) (s : State) (h : bs.length = s.intake.bufs.length) : OnIntake s (s.setBufs bs) where
  intakeOk k := ⟨h.trans k.1, k.2⟩

theorem State.setRefetch_onIntake (q : List Refetch) (s : State) (h : q.length ≤ s.intake.refetch.length) :
    OnIntake s (s.setRefetch q) where
  intakeOk k := ⟨k.1, h.trans k.2.1, k.2.2⟩

theorem State.forgetExpected_onIntake (st : Nat) (s : State) : OnIntake s (s.forgetExpected st) := by
  refine State.setStationIntake_onIntake _ _ ?_ s
  exact fun _ h => h

theorem State.restartSilence_onIntake (st : Nat) (s : State) : OnIntake s (s.restartSilence st) := {}

/-! ### Unpins, refetch and cuts -/

theorem State.unpinSlot_onIntake (n gen : Nat) (s : State) : OnIntake s (s.unpinSlot n gen) := by
  unfold State.unpinSlot
  split
  · split
    · simp only
      split
      · exact (State.setSlot_onIntake _ _ _).trans (State.tellSlotFree_onIntake _ _)
      · exact State.setSlot_onIntake _ _ _
    · exact OnIntake.refl s
  · exact OnIntake.refl s

theorem State.loseRefetch_onIntake (e : Refetch) (s : State) : OnIntake s (s.loseRefetch e) := by
  unfold State.loseRefetch
  refine OnIntake.trans ?_ (State.raise_told _ _).onIntake
  refine OnIntake.trans ?_ (State.setStationIntake_onIntake _ _ ?_ _)
  · exact State.setRefetch_onIntake _ _ (List.length_filter_le _ _)
  · exact fun _ h => h

theorem State.endRefetch_onIntake (e : Refetch) (s : State) : OnIntake s (s.endRefetch e) := by
  unfold State.endRefetch
  split
  · exact (State.loseRefetch_onIntake _ _).trans (State.count_told _ _).onIntake
  · split
    · exact (State.loseRefetch_onIntake _ _).trans (State.unpinSlot_onIntake _ _ _)
    · refine OnIntake.trans ?_ (State.unpinSlot_onIntake _ _ _)
      exact State.setRefetch_onIntake _ _ (by simp)

theorem State.settleRefetch_onIntake (s : State) : OnIntake s s.settleRefetch := by
  unfold State.settleRefetch
  split
  · split
    · refine (State.endRefetch_onIntake _ _).trans (State.setRefetch_onIntake _ _ ?_)
      exact le_of_eq (takeUp_length _)
    · exact OnIntake.refl s
  · exact State.setRefetch_onIntake _ _ (le_of_eq (takeUp_length _))

theorem State.setReading_onIntake (f : Refetch → Refetch) (s : State) : OnIntake s (s.setReading f) :=
  State.setRefetch_onIntake _ _ (by simp)

theorem State.settleCut_onIntake (n : Nat) (s : State) : OnIntake s (s.settleCut n) := by
  unfold State.settleCut
  split
  · split
    · exact State.settleRefetch_onIntake _
    · exact OnIntake.refl s
  · exact OnIntake.refl s

theorem State.cancelRefetch_onIntake (n : Nat) (s : State) : OnIntake s (s.cancelRefetch n) := by
  unfold State.cancelRefetch
  simp only
  refine OnIntake.trans ?_ (State.settleCut_onIntake _ _)
  refine OnIntake.trans ?_ (State.setRefetch_onIntake _ _ (by simp))
  exact OnIntake.foldl (fun t e => (State.loseRefetch_onIntake e t).trans (State.count_told _ _).onIntake) _ _

theorem State.loseRefetch_dir (e : Refetch) (s : State) :
    (s.loseRefetch e).intake.dir = s.intake.dir ∧ (s.loseRefetch e).wires = s.wires := by
  unfold State.loseRefetch State.raise State.setPending
  split <;> exact ⟨rfl, rfl⟩

theorem loseAll_dir (l : List Refetch) (s : State) :
    (l.foldl (fun t e => (t.loseRefetch e).count .overtaken) s).intake.dir = s.intake.dir ∧
      (l.foldl (fun t e => (t.loseRefetch e).count .overtaken) s).wires = s.wires := by
  induction l generalizing s with
  | nil => exact ⟨rfl, rfl⟩
  | cons e l ih =>
    have k := ih ((s.loseRefetch e).count .overtaken)
    exact ⟨k.1.trans (s.loseRefetch_dir e).1, k.2.trans (s.loseRefetch_dir e).2⟩

/-- Cancelling a refetch leaves the directory as it stands, and announces nothing: the block is lost, and its pin went with the cut
(R12, R22, R23). -/
theorem State.cancelRefetch_dir (n : Nat) (s : State) :
    (s.cancelRefetch n).intake.dir = s.intake.dir ∧ (s.cancelRefetch n).wires = s.wires := by
  unfold State.cancelRefetch State.settleCut
  dsimp only
  have l := loseAll_dir (s.intake.refetch.filter fun e => e.slot == n && e.state == .queued) s
  generalize (s.intake.refetch.filter fun e => e.slot == n && e.state == .queued).foldl
    (fun t e => (t.loseRefetch e).count .overtaken) s = s1 at l
  split
  next e h =>
    split
    next c =>
      have m := List.mem_of_find?_eq_some h
      have r := List.find?_some h
      rw [State.setRefetch_intake] at m
      obtain ⟨f, -, hf⟩ := List.mem_map.1 m
      have cf : e.cutFlag = true := by
        rw [← hf]
        by_cases q : f.slot = n ∧ f.state = .reading
        · rw [if_pos q]
        · rw [if_neg q] at hf
          subst hf
          exact absurd ⟨c, by simpa using r⟩ q
      unfold State.settleRefetch
      rw [h]
      dsimp only
      split
      · unfold State.endRefetch
        rw [cf, Bool.true_or, if_pos rfl]
        exact ⟨(State.loseRefetch_dir e _).1.trans l.1, (State.loseRefetch_dir e _).2.trans l.2⟩
      · exact l
    · exact l
  · exact l

/-- What a cut does to the directory and to what is announced (R12): a slot that is pinned loses every pin and takes the cut mark, and
the Clip Unit and the Path Guard are told; nothing changes otherwise. -/
theorem State.cutSlot_spec (n : Nat) (s : State) :
    ((s.cutSlot n).intake.dir = s.intake.dir.modify n fun e => if e.pins = 0 then e else { e with pins := 0, cutMark := true }) ∧
      (∀ e, s.intake.dir[n]? = some e → e.pins ≠ 0 →
        (s.cutSlot n).wires.cutNotes = s.wires.cutNotes ++ [(n, e.gen)] ∧ (s.cutSlot n).wires.slotFree = s.wires.slotFree ++ [n]) ∧
      (∀ e, s.intake.dir[n]? = some e → e.pins = 0 → s.cutSlot n = s) := by
  unfold State.cutSlot State.slot
  cases h : s.intake.dir[n]? with
  | none =>
    refine ⟨?_, fun e k => by simp at k, fun e k => by simp at k⟩
    apply List.ext_getElem?
    intro j
    rw [List.getElem?_modify]
    by_cases c : n = j
    · subst c
      simp [h]
    · simp [c]
  | some e =>
    dsimp only
    by_cases p : e.pins = 0
    · rw [if_pos p]
      refine ⟨?_, fun f k q => absurd (by simp only [Option.some.injEq] at k; rw [← k]; exact p) q, fun _ _ _ => rfl⟩
      apply List.ext_getElem?
      intro j
      rw [List.getElem?_modify]
      by_cases c : n = j
      · subst c
        simp [h, p]
      · simp [c]
    · rw [if_neg p]
      have d := State.cancelRefetch_dir n ((s.setSlot n fun x => { x with pins := 0, cutMark := true }).setWires fun w =>
        { w with cutNotes := w.cutNotes ++ [(n, e.gen)] })
      refine ⟨?_, fun f k q => ?_, fun f k q => absurd (by simp only [Option.some.injEq] at k; rw [k]; exact q) p⟩
      · unfold State.tellSlotFree State.raise State.setPending
        have e1 : s.intake.dir.modify n (fun x => { x with pins := 0, cutMark := true }) =
            s.intake.dir.modify n fun x => if x.pins = 0 then x else { x with pins := 0, cutMark := true } := by
          apply List.ext_getElem?
          intro j
          rw [List.getElem?_modify, List.getElem?_modify]
          by_cases c : n = j
          · subst c
            simp [h, p]
          · simp [c]
        rw [← e1]
        split <;> exact d.1
      · simp only [Option.some.injEq] at k
        subst k
        unfold State.tellSlotFree State.raise State.setPending
        split <;> simp [d.2]

/-- A cut changes the Intake Unit, what it announces and what it tells the Report Unit, and nothing else (R12). -/
theorem State.cutSlot_onIntake (n : Nat) (s : State) : OnIntake s (s.cutSlot n) := by
  unfold State.cutSlot
  split
  · split
    · exact OnIntake.refl s
    · simp only
      refine OnIntake.trans ?_ (State.tellSlotFree_onIntake _ _)
      refine OnIntake.trans ?_ (State.raise_told _ _).onIntake
      refine OnIntake.trans ?_ (State.count_told _ _).onIntake
      refine OnIntake.trans ?_ (State.cancelRefetch_onIntake _ _)
      exact (State.setSlot_onIntake _ _ _).trans (State.setWires_onIntake _ _)
  · exact OnIntake.refl s

theorem State.answerPin_onIntake (ev st n gen : Nat) (s : State) : OnIntake s (s.answerPin ev st n gen) := by
  unfold State.answerPin
  split
  · split
    · exact State.setSlot_onIntake _ _ _
    · exact State.setWires_onIntake _ _
  · exact State.setWires_onIntake _ _

/-! ### Assembly and validation -/

theorem State.openWrite_onIntake (n : Nat) (s : State) : OnIntake s (s.openWrite n) := by
  unfold State.openWrite
  split
  · simp only
    split
    · refine (State.setSlot_onIntake _ _ _).trans (State.setBufs_onIntake _ _ ?_)
      simp [releaseBuf_length]
    · refine (State.setSlot_onIntake _ _ _).trans (State.setBufs_onIntake _ _ ?_)
      simp [releaseBuf_length]
  · exact OnIntake.refl s

theorem State.rejectNoOpen_onIntake (n : Nat) (s : State) : OnIntake s (s.rejectNoOpen n) := by
  unfold State.rejectNoOpen
  refine OnIntake.trans ?_ (State.raise_told _ _).onIntake
  exact (State.setSlot_onIntake _ _ _).trans (State.count_told _ _).onIntake

theorem State.captureBody_onIntake (p : Piece) (s : State) : OnIntake s (s.captureBody p) := by
  unfold State.captureBody
  split
  · split
    · split
      · exact State.setBufs_onIntake _ _ (by simp)
      · exact (State.setBufs_onIntake _ _ (by simp)).trans (State.setSlot_onIntake _ _ _)
    · exact OnIntake.refl s
    · exact OnIntake.refl s
    · exact OnIntake.refl s
  · exact OnIntake.refl s

theorem State.bodyWrite_onIntake (p : Piece) (s : State) : OnIntake s (s.bodyWrite p) := by
  unfold State.bodyWrite
  split
  · split
    · exact s.captureBody_onIntake p
    · exact s.rejectNoOpen_onIntake _
    · exact s.rejectNoOpen_onIntake _
    · exact OnIntake.refl s
  · exact OnIntake.refl s

theorem State.badMarkerWrite_onIntake (n : Nat) (s : State) : OnIntake s (s.badMarkerWrite n) := by
  unfold State.badMarkerWrite
  refine OnIntake.trans ?_ (State.raise_told _ _).onIntake
  refine OnIntake.trans ?_ (State.count_told _ _).onIntake
  exact (State.setSlot_onIntake _ _ _).trans (State.setBufs_onIntake _ _ (releaseBuf_length _ _))

theorem State.rejectBlock_onIntake (n : Nat) (r : RejectReason) (s : State) : OnIntake s (s.rejectBlock n r) := by
  have k : OnIntake s (((s.setSlot n fun x => { x with state := .rejected, refetchNeeded := false }).setBufs
      (releaseBuf n s.intake.bufs)).count r.tally) := by
    refine OnIntake.trans ?_ (State.count_told _ _).onIntake
    exact (State.setSlot_onIntake _ _ _).trans (State.setBufs_onIntake _ _ (releaseBuf_length _ _))
  unfold State.rejectBlock
  simp only
  split
  · exact k
  · exact k.trans (State.raise_told _ _).onIntake

theorem State.advanceHorizon_onIntake (first : Nat) (s : State) : OnIntake s (s.advanceHorizon first) := by
  unfold State.advanceHorizon
  split
  · refine OnIntake.trans ?_ (State.setWires_onIntake _ _)
    exact {}
  · exact OnIntake.refl s

theorem State.enterRefetch_onIntake (n gen beats : Nat) (b : Block) (brk : Bool) (s : State) :
    OnIntake s (s.enterRefetch n gen beats b brk) := by
  unfold State.enterRefetch
  split
  next h =>
    simp only
    refine OnIntake.trans ?_ (State.count_told _ _).onIntake
    refine OnIntake.trans ?_ (State.setStationIntake_onIntake _ _ ?_ _)
    swap
    · exact fun _ h => h
    refine OnIntake.trans ?_ (State.setSlot_onIntake _ _ _)
    have l : (takeUp (s.intake.refetch ++ [⟨s.intake.nextId, n, gen, b, beats, .queued, false, 0, 0, false⟩])).length ≤ 16 := by
      rw [takeUp_length, List.length_append, List.length_singleton]
      omega
    exact { intakeOk := fun k => ⟨k.1, l, k.2.2⟩ }
  · refine OnIntake.trans ?_ (State.raise_told _ _).onIntake
    refine OnIntake.trans ?_ (State.count_told _ _).onIntake
    refine State.setStationIntake_onIntake _ _ ?_ _
    exact fun _ h => h

theorem State.routeBlock_onIntake (n gen needed : Nat) (b : Block) (brk : Bool) (s : State) :
    OnIntake s (s.routeBlock n gen needed b brk) := by
  unfold State.routeBlock
  split
  · split
    · split
      · refine OnIntake.trans ?_ (State.setStationIntake_onIntake _ _ ?_ _)
        · exact State.setBufs_onIntake _ _ (by simp)
        · exact fun _ h => h
      · exact (State.setBufs_onIntake _ _ (by simp)).trans (State.enterRefetch_onIntake _ _ _ _ _ _)
    · exact OnIntake.refl s
    · exact OnIntake.refl s
    · exact OnIntake.refl s
  · exact State.enterRefetch_onIntake _ _ _ _ _ _

/-- Acceptance of a block changes the Intake Unit, a silence timer, what is announced and the tallies, and nothing else (R18). -/
theorem State.acceptBlock_onIntake (n gen : Nat) (h : Header) (gap brk : Bool) (s : State) :
    OnIntake s (s.acceptBlock n gen h gap brk) := by
  have acc : ∀ (x : StationTallies), x.accepted ≤ maxTally ∧ x.gaps ≤ maxTally ∧ x.picks ≤ maxTally →
      saturate 1 x.accepted ≤ maxTally ∧ x.gaps ≤ maxTally ∧ x.picks ≤ maxTally := fun x k => ⟨saturate_le _ _, k.2⟩
  have gp : ∀ (x : StationTallies), x.accepted ≤ maxTally ∧ x.gaps ≤ maxTally ∧ x.picks ≤ maxTally →
      x.accepted ≤ maxTally ∧ saturate 1 x.gaps ≤ maxTally ∧ x.picks ≤ maxTally := fun x k => ⟨k.1, saturate_le _ _, k.2.2⟩
  unfold State.acceptBlock
  simp only
  refine OnIntake.trans ?_ (State.routeBlock_onIntake _ _ _ _ _ _)
  have k5 : ∀ t : State, OnIntake t ((t.count .blocksAccepted).countStation h.station fun t => { t with accepted := saturate 1 t.accepted }) :=
    fun t => ((State.count_told _ _).trans (State.countStation_told _ _ acc _)).onIntake
  have k6 : ∀ t : State, OnIntake t ((t.count .gaps).countStation h.station fun t => { t with gaps := saturate 1 t.gaps }) :=
    fun t => ((State.count_told _ _).trans (State.countStation_told _ _ gp _)).onIntake
  have k4 : ∀ t : State, OnIntake s t → OnIntake s (((t.advanceHorizon h.first).restartSilence h.station).setWires fun w =>
      { w with trailNotes := w.trailNotes ++ [(h.station, ⟨n, gen, h.first, h.count, h.timeUnsure, h.clipped, brk⟩)] }) := fun t k =>
    OnIntake.trans (OnIntake.trans (k.trans (State.advanceHorizon_onIntake _ _)) (State.restartSilence_onIntake _ _))
      (State.setWires_onIntake _ _)
  have k2 : OnIntake s ((s.setSlot n fun x => { x with state := .sealed }).setStationIntake h.station fun si =>
      { si with
        expected := some ((h.seq + 1) % 65536, sampleTime (h.first + h.count * s.periodOf h.station))
        trail := appendTrail si.trail ⟨n, gen, h.first, h.count, h.timeUnsure, h.clipped, brk⟩ }) :=
    (State.setSlot_onIntake _ _ _).trans (State.setStationIntake_onIntake _ _ (fun _ k => appendTrail_length _ _ k) _)
  split
  · refine OnIntake.trans ?_ (k6 _)
    refine OnIntake.trans ?_ (k5 _)
    exact k4 _ k2
  · refine OnIntake.trans ?_ (k5 _)
    exact k4 _ k2

theorem State.sealWrite_onIntake (p : Piece) (s : State) : OnIntake s (s.sealWrite p) := by
  unfold State.sealWrite
  split
  · split
    · simp only
      split
      · exact State.acceptBlock_onIntake _ _ _ _ _ _
      · exact State.acceptBlock_onIntake _ _ _ _ _ _
      · exact State.acceptBlock_onIntake _ _ _ _ _ _
      · exact State.rejectBlock_onIntake _ _ _
    · exact State.rejectNoOpen_onIntake _ _
    · exact State.rejectNoOpen_onIntake _ _
    · exact OnIntake.refl s
  · exact OnIntake.refl s

theorem State.takePiece_onIntake (p : Piece) (s : State) : OnIntake s (s.takePiece p) := by
  unfold State.takePiece
  split
  · split
    · exact (State.openWrite_onIntake _ _).trans (State.bodyWrite_onIntake _ _)
    · exact State.openWrite_onIntake _ _
  · exact State.sealWrite_onIntake _ _
  · exact State.badMarkerWrite_onIntake _ _
  · exact State.bodyWrite_onIntake _ _
  · exact OnIntake.refl s

theorem State.takePieceDraining_onIntake (p : Piece) (s : State) : OnIntake s (s.takePieceDraining p) := by
  unfold State.takePieceDraining
  split
  · exact State.setSlot_onIntake _ _ _
  · exact State.setSlot_onIntake _ _ _
  · exact State.setSlot_onIntake _ _ _
  · exact OnIntake.refl s
  · exact OnIntake.refl s

/-- A granted ring write changes the Intake Unit, silence timers, what is announced and the tallies, and nothing else (R2). -/
theorem State.takeRingWrite_onIntake (r : Request) (s : State) : OnIntake s (s.takeRingWrite r) := by
  unfold State.takeRingWrite
  split
  · exact OnIntake.foldl (fun t p => t.takePiece_onIntake p) _ _
  · exact OnIntake.foldl (fun t p => t.takePieceDraining_onIntake p) _ _
  · exact OnIntake.refl s
  · exact OnIntake.refl s
  · exact OnIntake.refl s

theorem State.intakeStop_onIntake (s : State) : OnIntake s s.intakeStop := State.setBufs_onIntake _ _ (by simp)

theorem State.freeItem_onIntake (it : Item) (s : State) : OnIntake s (s.freeItem it) := by
  unfold State.freeItem
  split
  · exact State.setBufs_onIntake _ _ (by simp)
  · refine State.setRefetch_onIntake _ _ ?_
    rw [takeUp_length]
    exact List.length_filter_le _ _

theorem State.takeOffered_onIntake {st : Nat} {s t : State} {b : Block} {brk : Bool} (h : s.takeOffered st = some (b, brk, t)) :
    OnIntake s t := by
  unfold State.takeOffered at h
  split at h
  · split at h
    · split at h
      · simp only [Option.some.injEq, Prod.mk.injEq] at h
        rw [← h.2.2]
        refine (State.freeItem_onIntake _ _).trans (State.setStationIntake_onIntake _ _ ?_ _)
        exact fun _ h => h
      · exact absurd h (by simp)
    · exact absurd h (by simp)
  · exact absurd h (by simp)

/-! ### The downstream channel -/

theorem guard_keeps (g : PathGuard) (s : State) (hq : g.queue = s.guard.queue) (hh : g.held = s.guard.held) :
    Keeps s { s with guard := g } where
  queues h := ⟨by rw [hq]; exact h.1, by rw [hh]; exact h.2⟩

theorem State.sendRead_onReport (o : Owner) (a b : Nat) (s : State) : OnReport s (s.sendRead o a b) := {}
theorem State.sendWrite_onReport (o : Owner) (a : Nat) (bs : List Byte) (s : State) : OnReport s (s.sendWrite o a bs) := {}
theorem State.sendPass_keeps (r : Request) (s : State) : Keeps s (s.sendPass r) := {}
theorem State.dropOutstanding_onReport (p : Owner → Bool) (s : State) : OnReport s (s.dropOutstanding p) := {}

/-- A completion takes the oldest request of the downstream channel, of an owner asked for, and changes nothing else (R134). -/
theorem State.complete_spec {p : Owner → Bool} {s t : State} {o : Outstanding} (h : s.complete p = some (o, t)) :
    ∃ rest, s.guard.downstream = o :: rest ∧ p o.owner = true ∧ t = { s with guard := { s.guard with downstream := rest } } := by
  unfold State.complete at h
  split at h
  next q rest e =>
    split at h
    next c =>
      simp only [Option.some.injEq, Prod.mk.injEq] at h
      exact ⟨rest, h.1 ▸ e, h.1 ▸ c, h.2.symm⟩
    · exact absurd h (by simp)
  · exact absurd h (by simp)

theorem State.complete_onReport {p : Owner → Bool} {s t : State} {o : Outstanding} (h : s.complete p = some (o, t)) : OnReport s t := by
  obtain ⟨rest, -, -, rfl⟩ := State.complete_spec h
  exact {}

theorem State.countMemerr_told (code : MemCode) (s : State) : Told s (s.countMemerr code) := by
  unfold State.countMemerr
  split
  · exact State.count_told _ _
  · exact Told.refl s

theorem State.writeCompleted_told (o : Outstanding) (code : MemCode) (s : State) : Told s (s.writeCompleted o code) := by
  unfold State.writeCompleted
  simp only
  split
  · split
    · exact State.countMemerr_told _ _
    · exact (State.countMemerr_told _ _).trans (State.memFault_told _)
  · exact State.countMemerr_told _ _

theorem State.grantRefetch_keeps (a b : Nat) (s : State) : Keeps s (s.grantRefetch a b) :=
  (State.setReading_onIntake _ _).toKeeps.trans (State.sendRead_onReport _ _ _ _).toKeeps

theorem State.intakeAnew_keeps (slots : Nat) (s : State) : Keeps s (s.intakeAnew slots) := by
  unfold State.intakeAnew
  simp only
  refine Keeps.trans ?_ (State.setWires_keeps _ _)
  refine Keeps.trans (State.dropOutstanding_onReport (· == .refetch) s).toKeeps ?_
  exact { intakeOk := fun _ => ⟨rfl, Nat.zero_le _, by simp, by simp [StationIntake.fresh]⟩ }

/-! ### Detectors -/

theorem State.setDetector_onIntake (st : Nat) (f : Detector → Detector) (s : State) : OnIntake s (s.setDetector st f) := {}

theorem State.takeStaged_keeps (st : Nat) (s : State) : Keeps s (s.takeStaged st) := by
  unfold State.takeStaged
  split
  · split
    · exact Keeps.refl s
    · simp only
      split
      · exact (State.setDetector_onIntake _ _ _).toKeeps.trans (State.setStation_keeps _ _ _)
      · exact (State.setDetector_onIntake _ _ _).toKeeps.trans (State.setupIgnored_told _).toKeeps
  · exact Keeps.refl s

theorem countPicks_told (st : Nat) (ms : List AssocMsg) (s : State) : Told s (countPicks st ms s) := by
  unfold countPicks
  refine Told.foldl (fun t m => ?_) _ _
  split
  · refine (State.count_told _ _).trans (State.countStation_told _ _ ?_ _)
    exact fun x k => ⟨k.1, k.2.1, saturate_le _ _⟩
  · exact Told.refl t

theorem State.detect_keeps (st : Nat) (b : Block) (brk : Bool) (s : State) : Keeps s (s.detect st b brk) := by
  unfold State.detect
  simp only
  split
  · refine Keeps.trans ?_ (State.countBy_told _ _ _).toKeeps
    refine Keeps.trans ?_ (State.countBy_told _ _ _).toKeeps
    refine Keeps.trans ?_ (countPicks_told _ _ _).toKeeps
    refine Keeps.trans ?_ (State.sendAssoc_onIntake _ _).toKeeps
    exact (s.takeStaged_keeps st).trans (State.setDetector_onIntake _ _ _).toKeeps
  · exact s.takeStaged_keeps st

theorem State.disable_keeps (st : Nat) (s : State) : Keeps s (s.disable st) := by
  unfold State.disable
  simp only
  split
  · split
    · refine Keeps.trans ?_ (State.sendAssoc_onIntake _ _).toKeeps
      exact (State.setStation_keeps _ _ _).trans (State.setDetector_onIntake _ _ _).toKeeps
    · exact State.setStation_keeps _ _ _
  · exact State.setStation_keeps _ _ _

theorem State.enable_keeps (st : Nat) (s : State) : Keeps s (s.enable st) := by
  unfold State.enable
  simp only
  split
  · exact (State.setStation_keeps _ _ _).trans (State.setDetector_onIntake _ _ _).toKeeps
  · exact State.setStation_keeps _ _ _

theorem State.engineStart_onIntake (s : State) : OnIntake s s.engineStart := {}
theorem State.engineStop_onIntake (s : State) : OnIntake s s.engineStop := {}
theorem State.engineSoftReset_onIntake (s : State) : OnIntake s s.engineSoftReset := {}
theorem State.engineLoad_onIntake (s : State) : OnIntake s s.engineLoad := {}

/-! ### The commands -/

/-- A command of the Intake Unit that takes effect changes that unit, the detectors and what is announced. -/
theorem done_onIntake {s t u : State} (h : OnIntake s t) (e : done t = .next u) : OnIntake s u := by
  unfold done at e
  injection e with e
  exact e ▸ h.trans t.settle_told.onIntake

theorem nothing_onIntake {s u : State} (e : nothing s = .next u) : OnIntake s u := by
  unfold nothing at e
  injection e with e
  exact e ▸ OnIntake.refl s

theorem execAssemblyTimeout_onIntake {i : Nat} {s u : State} (e : execAssemblyTimeout i s = .next u) : OnIntake s u := by
  unfold execAssemblyTimeout at e
  split at e
  · split at e
    · refine done_onIntake (OnIntake.trans ?_ (State.count_told _ _).onIntake) e
      exact (State.setBufs_onIntake _ _ (by simp)).trans (State.setSlot_onIntake _ _ _)
    · exact nothing_onIntake e
  · exact nothing_onIntake e
  · exact nothing_onIntake e
  · exact nothing_onIntake e

theorem execPinRequest_onIntake {n : Nat} {s u : State} (e : execPinRequest n s = .next u) : OnIntake s u := by
  unfold execPinRequest at e
  split at e
  · exact done_onIntake ((State.setWires_onIntake _ _).trans (State.answerPin_onIntake _ _ _ _ _)) e
  · exact nothing_onIntake e
  · exact nothing_onIntake e

theorem execUnpin_onIntake {n : Nat} {s u : State} (e : execUnpin n s = .next u) : OnIntake s u := by
  unfold execUnpin at e
  split at e
  · exact done_onIntake ((State.setWires_onIntake _ _).trans (State.unpinSlot_onIntake _ _ _)) e
  · exact nothing_onIntake e
  · exact nothing_onIntake e

theorem execCut_onIntake {n : Nat} {s u : State} (e : execCut n s = .next u) : OnIntake s u := by
  unfold execCut at e
  split at e
  · exact done_onIntake ((State.setWires_onIntake _ _).trans (State.cutSlot_onIntake _ _)) e
  · exact nothing_onIntake e

theorem execSilenceDeadline_onIntake {st : Nat} {s u : State} (e : execSilenceDeadline st s = .next u) : OnIntake s u := by
  unfold execSilenceDeadline at e
  split at e
  · split at e
    · simp only at e
      refine done_onIntake ?_ e
      refine OnIntake.trans ?_ (State.forgetExpected_onIntake _ _)
      refine OnIntake.trans ?_ (State.raise_told _ _).onIntake
      exact (State.setDetector_onIntake _ _ _).trans (State.sendAssoc_onIntake _ _)
    · exact nothing_onIntake e
  · exact nothing_onIntake e

theorem execBlockHandoff_keeps {st : Nat} {s u : State} (e : execBlockHandoff st s = .next u) : Keeps s u := by
  unfold execBlockHandoff at e
  split at e
  next h => exact done_keeps ((State.takeOffered_onIntake h).toKeeps.trans (State.detect_keeps _ _ _ _)) e
  · exact nothing_keeps e

theorem execRefetchReadCompletion_keeps {code : MemCode} {data : List Byte} {s u : State}
    (e : execRefetchReadCompletion code data s = .next u) : Keeps s u := by
  unfold execRefetchReadCompletion at e
  split at e
  next h =>
    have k : Keeps s _ := (State.complete_onReport h).toKeeps.trans (State.countMemerr_told code _).toKeeps
    simp only at e
    split at e
    · exact done_keeps k e
    · refine done_keeps (k.trans ?_) e
      exact ((State.setReading_onIntake _ _).trans (State.settleRefetch_onIntake _)).toKeeps
  · exact nothing_keeps e

end Sys2Proof.Machine
end

