-- ==== Sys2Proof/Laws/Report.lean ====
section
/-! SUPPORT. What the operations of the Report Unit and of the Clip Unit do: none reaches field time, the setup, the Intake Unit, the
detectors, the schedule or the upstream queue, and the report ring and the clip store keep their laws. -/
-- One lemma after another: elaborated side by side, the package as one text would need too many threads.
set_option Elab.async false
namespace Sys2Proof.Machine

/-! ### Named updates -/

/-- A change of the Clip Unit that takes no clip unit more. -/
theorem State.setClip_onEvents (f : Clip → Clip) (s : State) (h : (f s.clip).used ≤ s.clip.used) : OnEvents s (s.setClip f) where
  store := fun k => le_trans h k

theorem State.setPlan_onEvents (slot : Nat) (f : Plan → Plan) (s : State) : OnEvents s (s.setPlan slot f) :=
  State.setClip_onEvents _ _ (le_refl _)

theorem State.setCopier_onEvents (x : Copier) (s : State) : OnEvents s (s.setCopier x) := State.setClip_onEvents _ _ (le_refl _)

/-- A change of the report ring that leaves its counts, and lets the writer start only where the ring has room. -/
theorem State.setReport_onReport (f : ReportRing → ReportRing) (s : State) (h : RingOk s → RingOk (s.setReport f)) :
    OnReport s (s.setReport f) where
  ring := h

/-- A change of the report ring that leaves its counts and its writer keeps its law (R139). -/
theorem State.setReport_counts (f : ReportRing → ReportRing) (s : State)
    (h : ∀ r : ReportRing, (f r).numbers = r.numbers ∧ (f r).occupancy = r.occupancy ∧ (f r).put = r.put ∧ (f r).get = r.get ∧
      (f r).writerIdle = r.writerIdle) : OnReport s (s.setReport f) := by
  refine State.setReport_onReport f s fun k => ?_
  obtain ⟨h1, h2, h3, h4, h5⟩ := h s.report
  unfold RingOk at k ⊢
  rw [State.setReport_report, State.setReport_gen, h1, h2, h3, h4, h5]
  exact k

/-! ### Holds and the unit range -/

theorem releaseList_length (p : Held → Bool) (n : Nat) (l : List Held) : (releaseList p n l).2.length = l.length := by
  induction l generalizing n with
  | nil => rfl
  | cons h hs ih =>
    unfold releaseList
    split <;> simp [ih]

/-- A change of the Path Guard that leaves the upstream queue and the number of held requests. -/
theorem State.setGuard_onReport (f : PathGuard → PathGuard) (s : State) (hq : (f s.guard).queue = s.guard.queue)
    (hh : (f s.guard).held.length = s.guard.held.length) : OnReport s (s.setGuard f) where
  queues k := ⟨by rw [State.setGuard_guard, hq]; exact k.1, by rw [State.setGuard_guard, hh]; exact k.2⟩
  queue := hq

theorem State.releaseHeld_onReport (p : Held → Bool) (s : State) : OnReport s (s.releaseHeld p) := by
  refine State.setGuard_onReport _ s rfl ?_
  exact releaseList_length _ _ _

theorem State.withdrawRange_onReport (s : State) : OnReport s s.withdrawRange :=
  (State.setGuard_onReport _ _ rfl rfl).trans (State.releaseHeld_onReport _ _)

theorem State.announceRange_onReport (a b : Nat) (s : State) : OnReport s (s.announceRange a b) := State.setGuard_onReport _ _ rfl rfl

/-! ### Freeing (R114, R143) -/

theorem State.setPointers_onEvents (a f : Nat) (s : State) : OnEvents s (s.setPointers a f) := by
  unfold State.setPointers
  split
  · exact OnEvents.refl s
  · refine OnEvents.trans ?_ (State.askRewrite_told _).onEvents
    exact State.setClip_onEvents _ _ (le_refl _)

/-- A region given back takes no unit (R112, R114). -/
theorem State.freeRegion_onEvents (r : Region) (s : State) : OnEvents s (s.freeRegion r) := by
  have k : OnEvents s (s.setClip fun c => { c with used := s.clip.used - (r.skip + r.units) }) :=
    State.setClip_onEvents _ _ (Nat.sub_le _ _)
  unfold State.freeRegion
  simp only
  split
  · exact k.trans (State.setPointers_onEvents _ _ _)
  · exact k.trans (State.setPointers_onEvents _ _ _)

theorem State.dropPlan_onEvents (slot : Nat) (s : State) : OnEvents s (s.dropPlan slot) := by
  have k : OnEvents s (s.setClip fun c => { c with plans := c.plans.set slot none }) := State.setClip_onEvents _ _ (le_refl _)
  unfold State.dropPlan
  simp only
  split
  · split
    · exact k.trans (State.freeRegion_onEvents _ _)
    · exact k
  · exact k
  · exact k

/-- The counts of the ring when its oldest record is freed (R139, R143). -/
theorem RingOk.free {s : State} {ev : Nat} {rest : List Nat} (k : RingOk s) (e : s.report.numbers = ev :: rest) :
    RingOk (s.setReport fun r =>
      { r with numbers := rest, get := (r.get + 1) % s.gen.reportCap, occupancy := r.occupancy - 1 }) := by
  obtain ⟨k1, k2, k3, k4⟩ := k
  rw [e, List.length_cons] at k1
  unfold RingOk
  rw [State.setReport_report, State.setReport_gen]
  refine ⟨?_, ?_, ?_, ?_⟩
  · show rest.length = s.report.occupancy - 1
    omega
  · show s.report.occupancy - 1 ≤ s.gen.reportCap
    omega
  · show s.report.put = ((s.report.get + 1) % s.gen.reportCap + (s.report.occupancy - 1)) % s.gen.reportCap
    rw [Nat.mod_add_mod, k3]
    congr 1
    omega
  · intro h
    show s.report.occupancy - 1 < s.gen.reportCap
    have := k4 h
    omega

/-- Freeing the oldest record reaches events, plans, the clip pointers, the ring and what is told (R143). -/
theorem State.freeRecord_onReport (s : State) : OnReport s s.freeRecord := by
  unfold State.freeRecord
  split
  next ev rest e =>
    simp only
    refine OnReport.trans ?_ (State.askRewrite_told _).onReport
    have k : OnEvents s (match (s.flushRequests ev).findEvent ev with
        | some (slot, _) => ((s.flushRequests ev).freeEvent slot).dropPlan slot
        | none => s.flushRequests ev) := by
      split
      · exact ((State.flushRequests_onEvents _ _).trans (State.freeEvent_onEvents _ _)).trans (State.dropPlan_onEvents _ _)
      · exact State.flushRequests_onEvents _ _
    have g : s.gen = (match (s.flushRequests ev).findEvent ev with
        | some (slot, _) => ((s.flushRequests ev).freeEvent slot).dropPlan slot
        | none => s.flushRequests ev).gen := by
      unfold State.gen
      rw [k.control]
    refine k.onReport.trans ?_
    rw [g]
    exact State.setReport_onReport _ _ fun r => RingOk.free r (by rw [k.report]; exact e)
  · exact OnReport.refl s

theorem State.freeRecords_onReport (n : Nat) (s : State) : OnReport s (s.freeRecords n) := by
  induction n generalizing s with
  | zero => exact OnReport.refl s
  | succ n ih => exact (State.freeRecord_onReport s).trans (ih _)

theorem State.reclaimOldest_onReport (s : State) : OnReport s s.reclaimOldest := by
  unfold State.reclaimOldest
  refine OnReport.trans ?_ (State.raise_told _ _).onReport
  exact (State.freeRecord_onReport s).trans (State.count_told _ _).onReport

/-! ### The record writer (R140, R141) -/

/-- The writer takes the front event where the ring has room (R140). -/
theorem State.takeFront_onReport (s : State) (h : s.report.occupancy < s.gen.reportCap) : OnReport s s.takeFront := by
  unfold State.takeFront
  split
  · split
    · exact State.setReport_onReport _ _ fun k => ⟨k.1, k.2.1, k.2.2.1, fun _ => h⟩
    · refine State.setReport_counts _ _ ?_
      exact fun _ => ⟨rfl, rfl, rfl, rfl, rfl⟩
  · exact OnReport.refl s

/-- The look of the writer, whatever follows a reclaim in its event (R140). -/
theorem State.lookWith_onReport {freed : State → State} (h : ∀ t, OnReport t (freed t)) (s : State) : OnReport s (s.lookWith freed) := by
  unfold State.lookWith
  split
  · split
    next o => exact State.takeFront_onReport s o
    · split
      · have k : OnReport s (freed s.reclaimOldest) := (State.reclaimOldest_onReport s).trans (h _)
        simp only
        split
        next c =>
          simp only [Bool.and_eq_true, decide_eq_true_eq] at c
          exact k.trans (State.takeFront_onReport _ c.2)
        · exact k
      · exact (State.raise_told _ _).onReport
  · exact OnReport.refl s

theorem State.joinReport_onReport (ev : Nat) (s : State) : OnReport s (s.joinReport ev) := by
  have k : OnReport s (s.setReport fun r => { r with waitList := r.waitList ++ [ev] }) :=
    State.setReport_counts _ _ fun _ => ⟨rfl, rfl, rfl, rfl, rfl⟩
  unfold State.joinReport
  simp only
  split
  · exact k.trans (State.lookWith_onReport (fun t => OnReport.refl t) _)
  · exact k

/-- The counts of the ring when a record that was being written becomes outstanding (R139, R141). -/
theorem RingOk.grow {s : State} {ev : Nat} (k : RingOk s) (w : s.report.writerIdle = false) :
    RingOk (s.setReport fun r =>
      { r with
        put := (r.put + 1) % s.gen.reportCap, occupancy := r.occupancy + 1, numbers := r.numbers ++ [ev], writer := .idle }) := by
  obtain ⟨k1, k2, k3, k4⟩ := k
  unfold RingOk
  rw [State.setReport_report, State.setReport_gen]
  refine ⟨?_, ?_, ?_, ?_⟩
  · show (s.report.numbers ++ [ev]).length = s.report.occupancy + 1
    rw [List.length_append, k1, List.length_singleton]
  · exact k4 w
  · show (s.report.put + 1) % s.gen.reportCap = (s.report.get + (s.report.occupancy + 1)) % s.gen.reportCap
    rw [k3, Nat.mod_add_mod]
    rfl
  · intro h
    exact absurd h Bool.noConfusion

/-- A record becomes outstanding: the ring, a request on its way and what is told change (R141). -/
theorem State.recordOutstanding_onReport (ev : Nat) (s : State) (w : s.report.writerIdle = false) : OnReport s (s.recordOutstanding ev) := by
  have k1 : OnReport s ((s.askState ev .reported).setReport fun r =>
      { r with
        put := (r.put + 1) % s.gen.reportCap, occupancy := r.occupancy + 1, numbers := r.numbers ++ [ev], writer := .idle }) := by
    refine (State.askState_onReport ev .reported s).trans ?_
    exact State.setReport_onReport _ _ fun k => RingOk.grow k w
  have k3 : ∀ t : State, OnReport t (((t.count .reportsWritten).askRewrite).setStatus fun w => { w with newRecords := w.newRecords + 1 }) := by
    intro t
    refine OnReport.trans ((State.count_told .reportsWritten t).trans (State.askRewrite_told _)).onReport ?_
    exact {}
  unfold State.recordOutstanding
  simp only
  split
  · refine OnReport.trans ?_ (State.raise_told _ _).onReport
    exact k1.trans (k3 _)
  · exact k1.trans (k3 _)

theorem State.reportAnew_keeps (s : State) : Keeps s s.reportAnew := by
  unfold State.reportAnew
  refine Keeps.trans ?_ (State.askRewrite_told _).toKeeps
  exact { ring := fun _ => ⟨rfl, Nat.zero_le _, (Nat.zero_mod _).symm, fun h => absurd h Bool.noConfusion⟩ }

theorem State.reportSoftReset_keeps (s : State) : Keeps s s.reportSoftReset :=
  (State.reportAnew_keeps s).trans (State.dropOutstanding_onReport _ _).toKeeps

/-! ### The copier (R111 to R119) -/

theorem State.writeVoid_onEvents (slot k : Nat) (p : Plan) (c : StationClip) (x : Selection) (cut me : Bool) (s : State) :
    OnEvents s (s.writeVoid slot k p c x cut me) := State.setCopier_onEvents _ _

theorem State.enterDirectory_onEvents (slot : Nat) (s : State) : OnEvents s (s.enterDirectory slot) := by
  unfold State.enterDirectory
  split
  · split
    · exact State.setCopier_onEvents _ _
    · exact OnEvents.refl s
  · exact OnEvents.refl s

theorem State.comeTo_onEvents (slot k : Nat) (s : State) : OnEvents s (s.comeTo slot k) := by
  unfold State.comeTo
  split
  · split
    · split
      · exact State.writeVoid_onEvents _ _ _ _ _ _ _ _
      · exact State.setCopier_onEvents _ _
    · exact State.enterDirectory_onEvents _ _
  · exact OnEvents.refl s

theorem State.unpinRead_onEvents (x : Selection) (s : State) : OnEvents s (s.unpinRead x) := by
  unfold State.unpinRead
  split
  · exact OnEvents.refl s
  · exact State.askPins_onEvents _ _

theorem State.endReads_onEvents (slot k burst : Nat) (data : List Byte) (me : Bool) (s : State) :
    OnEvents s (s.endReads slot k burst data me) := by
  unfold State.endReads
  split
  · split
    · simp only
      split
      · refine OnEvents.trans ?_ (State.writeVoid_onEvents _ _ _ _ _ _ _ _)
        exact (State.unpinRead_onEvents _ _).trans (State.setPlan_onEvents _ _ _)
      · split
        · exact (State.setPlan_onEvents _ _ _).trans (State.writeVoid_onEvents _ _ _ _ _ _ _ _)
        · refine OnEvents.trans ?_ (State.setCopier_onEvents _ _)
          exact (State.unpinRead_onEvents _ _).trans (State.setPlan_onEvents _ _ _)
    · exact OnEvents.refl s
  · exact OnEvents.refl s

theorem State.settleUnit_onEvents (s : State) : OnEvents s s.settleUnit := by
  unfold State.settleUnit
  split
  · split
    · exact State.endReads_onEvents _ _ _ _ _ _
    · exact OnEvents.refl s
  all_goals exact OnEvents.refl s

theorem State.endForLack_onReport (slot : Nat) (p : Plan) (s : State) : OnReport s (s.endForLack slot p) := by
  unfold State.endForLack
  simp only
  refine OnReport.trans ?_ (State.joinReport_onReport _ _)
  refine OnEvents.onReport ?_
  refine OnEvents.trans ?_ (State.askState_onEvents _ _ _)
  refine OnEvents.trans ?_ (State.askState_onEvents _ _ _)
  refine OnEvents.trans ?_ (State.setCopier_onEvents _ _)
  refine OnEvents.trans ?_ (State.count_told _ _).onEvents
  refine OnEvents.trans ?_ (State.raise_told _ _).onEvents
  refine OnEvents.trans ?_ (State.setEvent_onEvents _ _ _)
  exact (State.askPins_onEvents _ _).trans (State.setPlan_onEvents _ _ _)

/-- A region taken where the store has room keeps the law of the store (R112, R113). -/
theorem State.takeRegion_onReport (slot : Nat) (p : Plan) (r : Region) (s : State)
    (h : r.skip + r.units ≤ s.unitCount - s.clip.used) : OnReport s (s.takeRegion slot p r) := by
  unfold State.takeRegion
  simp only
  refine OnReport.trans ?_ (State.comeTo_onEvents _ _ _).onReport
  refine OnReport.trans ?_ (State.announceRange_onReport _ _ _)
  refine OnReport.trans ?_ (State.askState_onReport _ _ _)
  refine OnReport.trans ?_ (State.setPointers_onEvents _ _ _).onReport
  refine OnReport.trans (t := (s.setPlan slot fun q => { q with region := some r }).setEvent slot fun e =>
    { e with clipUnits := some (r.first, r.units) }) ?_ ?_
  · exact ((State.setPlan_onEvents _ _ _).trans (State.setEvent_onEvents _ _ _)).onReport
  · refine { store := fun k => ?_ }
    have k : s.clip.used ≤ s.unitCount := k
    show s.clip.used + r.skip + r.units ≤ s.unitCount
    omega

theorem State.regionFor_units (n : Nat) (s : State) : (s.regionFor n).units = n := by
  unfold State.regionFor
  split <;> rfl

theorem State.allocate_onReport (slot : Nat) (s : State) : OnReport s (s.allocate slot) := by
  unfold State.allocate
  split
  · simp only
    split
    · exact State.endForLack_onReport _ _ _
    · split
      next h =>
        refine State.takeRegion_onReport _ _ _ _ ?_
        rw [State.regionFor_units]
        exact h
      · split
        · refine OnReport.trans (State.setCopier_onEvents (.allocating slot) s).onReport ?_
          refine State.setReport_counts _ _ ?_
          exact fun _ => ⟨rfl, rfl, rfl, rfl, rfl⟩
        · exact State.endForLack_onReport _ _ _
  · exact (State.setCopier_onEvents _ _).onReport

theorem State.runQueue_onReport (n : Nat) (s : State) : OnReport s (s.runQueue n) := by
  induction n generalizing s with
  | zero => exact OnReport.refl s
  | succ n ih =>
    unfold State.runQueue
    split
    · simp only
      split
      · refine OnReport.trans ?_ (ih _)
        exact (State.setClip_onEvents _ _ (le_refl _)).onReport.trans (State.allocate_onReport _ _)
      · refine OnReport.trans ?_ (ih _)
        exact (State.setClip_onEvents _ _ (le_refl _)).onReport
    · exact OnReport.refl s

theorem State.enqueue_onReport (ev : Nat) (s : State) : OnReport s (s.enqueue ev) :=
  (State.setClip_onEvents _ _ (le_refl _)).onReport.trans (State.runQueue_onReport _ _)

theorem State.endJob_onReport (slot : Nat) (p : Plan) (s : State) : OnReport s (s.endJob slot p) := by
  unfold State.endJob
  simp only
  refine OnReport.trans ?_ (State.runQueue_onReport _ _)
  refine OnReport.trans ?_ (State.joinReport_onReport _ _)
  refine OnReport.trans ?_ (State.setCopier_onEvents _ _).onReport
  refine OnReport.trans ?_ (State.withdrawRange_onReport _)
  refine OnReport.trans ?_ (State.askState_onReport _ _ _)
  exact ((State.setPlan_onEvents _ _ _).trans (State.setEvent_onEvents _ _ _)).onReport

theorem State.sendJobWrite_onReport (c : Option Nat) (a : Nat) (bs : List Byte) (s : State) : OnReport s (s.sendJobWrite c a bs) :=
  (State.setClip_onEvents _ _ (le_refl _)).onReport.trans (State.sendWrite_onReport _ _ _ _)

theorem State.grantCopier_onReport (s : State) : OnReport s s.grantCopier := by
  unfold State.grantCopier
  split
  · split
    · exact (State.setCopier_onEvents _ _).onReport.trans (State.sendRead_onReport _ _ _ _)
    · exact OnReport.refl s
  · split
    · simp only
      split
      · exact (State.sendJobWrite_onReport _ _ _ _).trans (State.setCopier_onEvents _ _).onReport
      · exact (State.sendJobWrite_onReport _ _ _ _).trans (State.comeTo_onEvents _ _ _).onReport
    · exact (State.sendJobWrite_onReport _ _ _ _).trans (State.setCopier_onEvents _ _).onReport
    · exact OnReport.refl s
  · exact OnReport.refl s

theorem State.checkSelection_onEvents (slot k burst : Nat) (p : Plan) (c : StationClip) (x : Selection) (s : State) :
    OnEvents s (s.checkSelection slot k burst p c x) := by
  unfold State.checkSelection
  split
  · exact State.writeVoid_onEvents _ _ _ _ _ _ _ _
  · split
    · exact (State.setPlan_onEvents _ _ _).trans (State.setCopier_onEvents _ _)
    · exact (State.setPlan_onEvents _ _ _).trans (State.writeVoid_onEvents _ _ _ _ _ _ _ _)

theorem State.flagWriteError_onEvents (slot : Nat) (c : Option Nat) (s : State) : OnEvents s (s.flagWriteError slot c) := by
  unfold State.flagWriteError
  split
  · exact State.setPlan_onEvents _ _ _
  · exact State.setClip_onEvents _ _ (le_refl _)

theorem State.settleJob_onReport (s : State) : OnReport s s.settleJob := by
  unfold State.settleJob
  split
  · split
    · split
      · exact State.endJob_onReport _ _ _
      · exact OnReport.refl s
    · exact OnReport.refl s
  all_goals exact OnReport.refl s

theorem State.answerFreed_onReport (s : State) : OnReport s s.answerFreed := by
  have k : OnReport s (s.setReport fun r => { r with reclaim := false }) :=
    State.setReport_counts _ _ fun _ => ⟨rfl, rfl, rfl, rfl, rfl⟩
  unfold State.answerFreed
  split
  · simp only
    split
    · exact (k.trans (State.allocate_onReport _ _)).trans (State.runQueue_onReport _ _)
    all_goals exact k
  · exact OnReport.refl s

theorem State.answerNone_onReport (s : State) : OnReport s s.answerNone := by
  have k : OnReport s (s.setReport fun r => { r with reclaim := false }) :=
    State.setReport_counts _ _ fun _ => ⟨rfl, rfl, rfl, rfl, rfl⟩
  unfold State.answerNone
  simp only
  split
  · split
    · exact (k.trans (State.endForLack_onReport _ _ _)).trans (State.runQueue_onReport _ _)
    · exact k
  all_goals exact k

theorem State.writerLook_onReport (s : State) : OnReport s s.writerLook := State.lookWith_onReport State.answerFreed_onReport s

theorem State.grantReport_onReport (s : State) : OnReport s s.grantReport := by
  unfold State.grantReport
  split
  next ev index record second _ w =>
    simp only
    split
    · refine OnReport.trans ?_ (State.writerLook_onReport _)
      refine (State.sendWrite_onReport _ _ _ _).trans (State.recordOutstanding_onReport _ _ ?_)
      rw [State.sendWrite_report]
      unfold ReportRing.writerIdle
      rw [w]
      rfl
    · refine (State.sendWrite_onReport _ _ _ _).trans (State.setReport_onReport _ _ ?_)
      intro k
      refine ⟨k.1, k.2.1, k.2.2.1, fun _ => k.2.2.2 ?_⟩
      rw [State.sendWrite_report]
      unfold ReportRing.writerIdle
      rw [w]
      rfl
  · exact OnReport.refl s

/-- An ack word reaches events, plans, the clip store, the ring and what is told, and nothing else (R144). -/
theorem State.takeAck_onReport (n : Nat) (s : State) : OnReport s (s.takeAck n) := by
  unfold State.takeAck
  split
  · exact OnReport.refl s
  · split
    · exact ((State.freeRecords_onReport _ _).trans (State.answerFreed_onReport _)).trans (State.writerLook_onReport _)
    · exact ((State.count_told _ _).trans (State.raise_told _ _)).onReport

theorem State.clipAnew_keeps (s : State) : Keeps s s.clipAnew := by
  have k : Keeps s ((((s.dropOutstanding fun o => o == .copierRead || o.isCopierWrite.isSome).setClip fun _ => .reset).setWires fun w =>
      { w with clipStop := false })) := by
    refine Keeps.trans ?_ (State.setWires_keeps _ _)
    refine Keeps.trans (State.dropOutstanding_onReport (fun o => o == .copierRead || o.isCopierWrite.isSome) s).toKeeps ?_
    exact { store := fun _ => Nat.zero_le _ }
  unfold State.clipAnew
  simp only
  split
  · exact k
  · exact k.trans (State.askRewrite_told _).toKeeps

/-! ### Plans (R105 to R110) -/

theorem State.closeEvent_onReport (slot : Nat) (e : Event) (r : CloseReason) (s : State) : OnReport s (s.closeEvent slot e r) := by
  have k : OnEvents s (((s.setEvent slot fun x =>
      { x with
        closeDeadline := none, reason := some r, closedAt := some s.now,
        state := if (s.makePlan e).tail.isSome then .waitingTail else .copyQueued }).setClip fun c =>
      { c with plans := c.plans.set slot (some (s.makePlan e)) }).askPins (s.makePlan e).pins) := by
    refine OnEvents.trans ?_ (State.askPins_onEvents _ _)
    exact (State.setEvent_onEvents _ _ _).trans (State.setClip_onEvents _ _ (le_refl _))
  unfold State.closeEvent
  simp only
  split
  next h => rw [if_pos h] at k; exact k.onReport
  next h => rw [if_neg h] at k; exact k.onReport.trans (State.enqueue_onReport _ _)

theorem State.endWait_onReport (slot : Nat) (p : Plan) (s : State) : OnReport s (s.endWait slot p) := by
  unfold State.endWait
  refine OnReport.trans ?_ (State.enqueue_onReport _ _)
  exact ((State.setPlan_onEvents _ _ _).trans (State.askState_onEvents _ _ _)).onReport

theorem State.giveUpTails_onReport (slot : Nat) (p : Plan) (s : State) : OnReport s (s.giveUpTails slot p) :=
  (State.setPlan_onEvents _ _ _).onReport.trans (State.endWait_onReport _ _ _)

theorem State.clipTakesStop_onReport (s : State) : OnReport s s.clipTakesStop := by
  unfold State.clipTakesStop
  simp only
  have k : OnReport s ((s.setClip fun c => { c with draining := true }).setWires fun w => { w with clipStop := false }) :=
    (State.setClip_onEvents _ _ (le_refl _)).onReport.trans (State.setWires_onReport _ _)
  exact k.trans (OnReport.foldl (fun t q => State.giveUpTails_onReport _ _ _) _ _)

theorem State.planTakesEntry_onReport (st : Nat) (e : TrailEntry) (slot : Nat) (p : Plan) (s : State) :
    OnReport s (s.planTakesEntry st e slot p) := by
  have k : OnReport s ((s.setPlan slot fun _ => (p.takeEntry (s.periodOf st) st e).1).askPins (p.takeEntry (s.periodOf st) st e).2) :=
    ((State.setPlan_onEvents _ _ _).trans (State.askPins_onEvents _ _)).onReport
  unfold State.planTakesEntry
  simp only
  split
  · exact k
  · exact k.trans (State.endWait_onReport _ _ _)

/-! ### The commands -/

/-- A command of the Clip Unit or of the Report Unit that takes effect. -/
theorem done_onReport {s t u : State} (h : OnReport s t) (e : done t = .next u) : OnReport s u := by
  unfold done at e
  injection e with e
  exact e ▸ h.trans t.settle_told.onReport

theorem nothing_onReport {s u : State} (e : nothing s = .next u) : OnReport s u := by
  unfold nothing at e
  injection e with e
  exact e ▸ OnReport.refl s

theorem execReportWriteCompletion_onReport {code : MemCode} {s u : State} (e : execReportWriteCompletion code s = .next u) :
    OnReport s u := by
  unfold execReportWriteCompletion at e
  split at e
  next h => exact done_onReport ((State.complete_onReport h).trans (State.writeCompleted_told _ _ _).onReport) e
  · exact nothing_onReport e

theorem execSlotCheck_onReport {s u : State} (e : execSlotCheck s = .next u) : OnReport s u := by
  unfold execSlotCheck at e
  split at e
  · split at e
    · split at e
      · split at e
        · exact nothing_onReport e
        · exact done_onReport (State.checkSelection_onEvents _ _ _ _ _ _ _).onReport e
      · exact nothing_onReport e
    · exact nothing_onReport e
  all_goals exact nothing_onReport e

theorem State.countUnitErrors_told (s : State) : Told s s.countUnitErrors := by
  unfold State.countUnitErrors
  split
  · exact Told.refl s
  · exact State.countBy_told _ _ _

theorem State.unitReadReturned_onEvents (beats : Nat) (code : MemCode) (data : List Byte) (s : State) :
    OnEvents s (s.unitReadReturned beats code data) := by
  unfold State.unitReadReturned
  refine (State.setCopier_onEvents (s.clip.copier.gotData beats code data) s).trans (OnEvents.trans ?_ (State.settleUnit_onEvents _))
  split
  · exact (State.countUnitErrors_told _).onEvents
  · exact OnEvents.refl _

theorem execCopierReadCompletion_onReport {code : MemCode} {data : List Byte} {s u : State}
    (e : execCopierReadCompletion code data s = .next u) : OnReport s u := by
  unfold execCopierReadCompletion at e
  split at e
  next h =>
    refine done_onReport ((State.complete_onReport h).trans ?_) e
    split
    · exact (State.countMemerr_told code _).onReport
    · exact (State.unitReadReturned_onEvents _ _ _ _).onReport
  · exact nothing_onReport e

theorem execCopierWriteCompletion_onReport {code : MemCode} {s u : State} (e : execCopierWriteCompletion code s = .next u) :
    OnReport s u := by
  unfold execCopierWriteCompletion at e
  split at e
  next o s1 h =>
    have k := (State.complete_onReport h).trans (State.writeCompleted_told o code _).onReport
    simp only at e
    split at e
    · exact done_onReport k e
    · refine done_onReport (OnReport.trans ?_ (State.settleJob_onReport _)) e
      have c : OnReport s ((s1.writeCompleted o code).setClip fun c => { c with writesOut := c.writesOut - 1 }) :=
        k.trans (State.setClip_onEvents _ _ (le_refl _)).onReport
      split
      · exact c.trans (State.flagWriteError_onEvents _ _ _).onReport
      · exact c
  · exact nothing_onReport e

theorem execAckWord_onReport {n : BitVec 16} {s u : State} (e : execAckWord n s = .next u) : OnReport s u :=
  done_onReport (State.takeAck_onReport _ _) e

theorem execReclaimRequest_onReport {s u : State} (e : execReclaimRequest s = .next u) : OnReport s u := by
  unfold execReclaimRequest at e
  split at e
  · exact nothing_onReport e
  · split at e
    · exact done_onReport (State.answerNone_onReport _) e
    · refine done_onReport (OnReport.trans ?_ (State.writerLook_onReport _)) e
      exact (State.reclaimOldest_onReport _).trans (State.answerFreed_onReport _)

theorem execUnattendedAtReportUnit_onReport {s u : State} (e : execUnattendedAtReportUnit s = .next u) : OnReport s u := by
  unfold execUnattendedAtReportUnit at e
  split at e
  · exact nothing_onReport e
  · exact done_onReport ((State.setWires_onReport _ _).trans (State.writerLook_onReport _)) e

theorem execSlotCutAnnouncement_onReport {n : Nat} {s u : State} (e : execSlotCutAnnouncement n s = .next u) : OnReport s u := by
  unfold execSlotCutAnnouncement at e
  split at e
  · refine done_onReport (OnReport.trans ?_ (State.settleUnit_onEvents _).onReport) e
    exact (State.setWires_onReport _ _).trans (State.setClip_onEvents _ _ (le_refl _)).onReport
  · exact nothing_onReport e

theorem execCloseDeadline_onReport {ev : Nat} {s u : State} (e : execCloseDeadline ev s = .next u) : OnReport s u := by
  unfold execCloseDeadline at e
  split at e
  · split at e
    · exact done_onReport (State.closeEvent_onReport _ _ _ _) e
    · exact nothing_onReport e
  · exact nothing_onReport e

theorem execTailDeadline_onReport {ev : Nat} {s u : State} (e : execTailDeadline ev s = .next u) : OnReport s u := by
  unfold execTailDeadline at e
  split at e
  · split at e
    · split at e
      · exact done_onReport (State.giveUpTails_onReport _ _ _) e
      · exact nothing_onReport e
    · exact nothing_onReport e
  · exact nothing_onReport e

theorem execClipUnitStop_onReport {s u : State} (e : execClipUnitStop s = .next u) : OnReport s u := by
  unfold execClipUnitStop at e
  split at e
  · exact done_onReport (State.clipTakesStop_onReport _) e
  · exact nothing_onReport e

theorem execNewTrailEntry_onReport {st : Nat} {s u : State} (e : execNewTrailEntry st s = .next u) : OnReport s u := by
  unfold execNewTrailEntry at e
  split at e
  next n x rest _ =>
    refine done_onReport (OnReport.trans (State.setWires_onReport (fun w => { w with trailNotes := rest }) s) ?_) e
    exact OnReport.foldl (fun t q => State.planTakesEntry_onReport _ _ _ _ _) _ _
  · exact nothing_onReport e

theorem execPinRefused_onReport {slot : Nat} {s u : State} (e : execPinRefused slot s = .next u) : OnReport s u := by
  unfold execPinRefused at e
  split at e
  · simp only at e
    split at e
    · exact done_onReport ((State.setWires_onReport _ _).trans (State.setPlan_onEvents _ _ _).onReport) e
    · exact done_onReport (State.setWires_onReport _ _) e
  · exact nothing_onReport e

end Sys2Proof.Machine
end

