-- ==== Sys2Proof/Laws/TimeBase.lean ====
section
/-! SUPPORT. What each operation of the Time Base does, and that it keeps the laws. -/
-- One lemma after another: elaborated side by side, the package as one text would need too many threads.
set_option Elab.async false
namespace Sys2Proof.Machine

/-! ### The count -/

/-- One period of CLK moves the count forward only, and keeps it in its range (R26). -/
theorem TimeBase.period_ok (t : TimeBase) (h : CountOk t) : CountOk t.period ∧ t.count ≤ t.period.count := by
  refine ⟨⟨min_le_right _ _, Nat.mod_lt _ (by norm_num)⟩, ?_⟩
  exact le_min (Nat.le_add_right _ _) h.1

theorem tick_keeps (s : State) : Keeps s (tick s) := by
  unfold tick
  split
  · exact { count := fun h => s.time.period_ok h }
  · exact Keeps.refl s

theorem tick_frame (s : State) :
    (tick s).control = s.control ∧ (tick s).intake = s.intake ∧ (tick s).engine = s.engine ∧ (tick s).sched = s.sched ∧
      (tick s).assoc = s.assoc ∧ (tick s).clip = s.clip ∧ (tick s).guard = s.guard ∧ (tick s).report = s.report ∧
      (tick s).status = s.status ∧ (tick s).tallies = s.tallies ∧ (tick s).attend = s.attend ∧ (tick s).wires = s.wires ∧
      (tick s).draws = s.draws ∧ (tick s).pending = s.pending := by
  unfold tick
  split <;> exact ⟨rfl, rfl, rfl, rfl, rfl, rfl, rfl, rfl, rfl, rfl, rfl, rfl, rfl, rfl⟩

/-- A change of the time record that leaves the count and the rate values keeps the laws. -/
theorem State.setTime_keeps (f : TimeBase → TimeBase) (s : State)
    (h : ∀ t : TimeBase, (f t).count = t.count ∧ (f t).frac = t.frac ∧ (f t).baseRate = t.baseRate ∧ (f t).rateWord = t.rateWord ∧
      (f t).firstLoad = t.firstLoad) : Keeps s (s.setTime f) where
  count c := by
    obtain ⟨h1, h2, -⟩ := h s.time
    unfold CountOk State.setTime at *
    simp only [h1, h2]
    exact ⟨c, le_refl _⟩
  rates k := by
    obtain ⟨-, -, h3, h4, h5⟩ := h s.time
    have g : (s.setTime f).gen = s.gen := rfl
    unfold RatesOk at k ⊢
    rw [g]
    unfold State.setTime
    simp only [h3, h4, h5]
    exact k

/-! ### Steps (R39) -/

theorem State.moveDeadlines_keeps (k : Nat) (s : State) : Keeps s (s.moveDeadlines k) where
  queues h := ⟨h.1, by simpa [State.moveDeadlines] using h.2⟩
  intakeOk h := ⟨by simpa [State.moveDeadlines] using h.1, h.2⟩
  assocOk h := ⟨h.1, by simpa [State.moveDeadlines] using h.2⟩

theorem State.announceSecond_keeps (s : State) : Keeps s s.announceSecond := by
  unfold State.announceSecond
  split
  · exact Keeps.refl s
  · exact {}

theorem State.announceSecond_count (s : State) :
    s.announceSecond.time.count = s.time.count ∧ s.announceSecond.time.frac = s.time.frac := by
  unfold State.announceSecond
  split <;> exact ⟨rfl, rfl⟩

/-- A step to a time that field time has not passed keeps the laws (R26, R39). -/
theorem State.stepTime_keeps (t : Nat) (s : State) (le : s.time.count ≤ t) : Keeps s (s.stepTime t) := by
  unfold State.stepTime
  refine Keeps.trans ?_ (State.announceSecond_keeps _)
  refine Keeps.trans (s.moveDeadlines_keeps (min t maxTime - s.time.count)) ?_
  exact { count := fun h => ⟨⟨min_le_right _ _, by norm_num [State.setTime]⟩, le_min le h.1⟩ }

/-- The count after a step (R26, R34): the time stepped to, with the fraction clear. -/
theorem State.stepTime_count (t : Nat) (s : State) :
    (s.stepTime t).time.count = min t maxTime ∧ (s.stepTime t).time.frac = 0 := by
  unfold State.stepTime
  exact State.announceSecond_count _

theorem State.stepTime_control (t : Nat) (s : State) : (s.stepTime t).control = s.control := by
  unfold State.stepTime State.announceSecond
  split <;> rfl

theorem State.stepTime_gen (t : Nat) (s : State) : (s.stepTime t).gen = s.gen := by
  unfold State.gen
  rw [State.stepTime_control]

theorem State.stepTime_rates (t : Nat) (s : State) :
    (s.stepTime t).time.baseRate = s.time.baseRate ∧ (s.stepTime t).time.rateWord = s.time.rateWord ∧
      (s.stepTime t).time.firstLoad = s.time.firstLoad := by
  unfold State.stepTime State.announceSecond
  split <;> exact ⟨rfl, rfl, rfl⟩

/-! ### Rates (R27, R33, R35) -/

theorem General.low_le_high (g : General) : g.rateLow ≤ g.rateHigh := by
  unfold General.rateLow General.rateHigh
  omega

/-- A clamped rate stands within the limits (R27). -/
theorem General.clampRate_bounds (g : General) (r : Nat) : g.rateLow ≤ g.clampRate r ∧ g.clampRate r ≤ g.rateHigh := by
  unfold General.clampRate
  exact ⟨le_max_left _ _, max_le g.low_le_high (min_le_left _ _)⟩

/-- The base rate stands within the limits once a LOAD has succeeded. -/
def BaseOk (s : State) : Prop := s.time.firstLoad = true → s.gen.rateLow ≤ s.time.baseRate ∧ s.time.baseRate ≤ s.gen.rateHigh

theorem RatesOk.base {s : State} (h : RatesOk s) : BaseOk s := by
  intro f
  unfold RatesOk at h
  rw [if_pos f] at h
  exact h.1

/-- A rate word within the limits keeps the laws (R27). -/
theorem State.setRate_keeps (r : Nat) (s : State)
    (h : RatesOk s → s.time.firstLoad = true → s.gen.rateLow ≤ r ∧ r ≤ s.gen.rateHigh) : Keeps s (s.setRate r) where
  rates k := by
    have h := h k
    unfold RatesOk at k ⊢
    unfold State.setRate
    by_cases f : s.time.firstLoad = true
    · rw [if_pos f] at k
      simp only [State.setTime, f, ↓reduceIte]
      exact ⟨k.1, h f⟩
    · simp only [State.setTime, f, Bool.false_eq_true, ↓reduceIte]

theorem State.setRate_fields (r : Nat) (s : State) :
    (s.setRate r).time.firstLoad = s.time.firstLoad ∧ (s.setRate r).time.baseRate = s.time.baseRate ∧ (s.setRate r).control = s.control :=
  ⟨rfl, rfl, rfl⟩

/-- A measurement leaves a base rate within the limits, and keeps the laws (R33). -/
theorem State.measure_keeps (s : State) : Keeps s s.measure := by
  unfold State.measure
  split
  next f =>
    have k : Keeps s (s.setTime fun t => { t with baseRate := s.gen.clampRate s.time.measured }) :=
      { rates := fun h => by
          unfold RatesOk at h ⊢
          rw [if_pos f] at h
          have f' : (s.setTime fun t => { t with baseRate := s.gen.clampRate s.time.measured }).time.firstLoad = true := f
          rw [if_pos f']
          exact ⟨s.gen.clampRate_bounds _, h.2⟩ }
    simp only
    split
    · exact k
    · exact k.trans (State.rateLimit_told _).toKeeps
  next f =>
    refine { rates := ?_ }
    intro h
    unfold RatesOk at h ⊢
    rw [if_neg f] at h
    have f' : ¬ (s.setTime fun t => { t with baseRate := Config.rateReset }).time.firstLoad = true := f
    rw [if_neg f']
    exact h

theorem State.slew_keeps (e : Nat) (s : State) : Keeps s (s.slew e) := by
  unfold State.slew
  have low : Keeps s (s.setRate s.gen.rateLow) := s.setRate_keeps _ fun _ _ => ⟨le_refl _, s.gen.low_le_high⟩
  split
  · split
    · simp only
      split
      · exact low.trans (State.rateLimit_told _).toKeeps
      next r =>
        refine s.setRate_keeps _ fun h f => ⟨Nat.le_of_not_lt r, ?_⟩
        exact (Nat.sub_le _ _).trans (h.base f).2
    · exact Keeps.refl s
  · exact low.trans (State.raise_told _ _).toKeeps

theorem State.settlePhase_keeps (s : State) : Keeps s s.settlePhase := by
  unfold State.settlePhase
  simp only
  split
  · exact s.setRate_keeps _ fun h f => h.base f
  · split
    · exact s.slew_keeps _
    · have le : s.time.count ≤ (second s.time.count + 1) * 1000000 := by unfold second; omega
      have k := s.stepTime_keeps _ le
      refine k.trans (State.setRate_keeps _ _ fun h f => ?_)
      have b := h.base f
      rwa [(s.stepTime_rates _).1] at b

theorem State.recordPulse_keeps (s : State) : Keeps s s.recordPulse := by
  unfold State.recordPulse
  refine Keeps.trans ?_ (State.setTimeState_keeps _ _)
  exact s.setTime_keeps _ fun _ => ⟨rfl, rfl, rfl, rfl, rfl⟩

theorem State.discipline_keeps (s : State) : Keeps s s.discipline :=
  (s.measure_keeps.trans (State.settlePhase_keeps _)).trans (State.recordPulse_keeps _)

/-! ### Pulses and SET_TIME -/

theorem State.alignPulse_keeps (target : Nat) (s : State) : Keeps s (s.alignPulse target) := by
  unfold State.alignPulse
  have k0 : Keeps s (s.setTime fun t => { t with target := none }) := s.setTime_keeps _ fun _ => ⟨rfl, rfl, rfl, rfl, rfl⟩
  simp only
  split
  next le =>
    refine Keeps.trans ?_ (State.raise_told _ _).toKeeps
    refine Keeps.trans ?_ (State.recordPulse_keeps _)
    refine Keeps.trans ?_ (State.setTime_keeps _ _ fun _ => ⟨rfl, rfl, rfl, rfl, rfl⟩)
    exact k0.trans (State.stepTime_keeps _ _ le)
  · split
    · refine Keeps.trans ?_ (State.discipline_keeps _)
      refine Keeps.trans ?_ (State.raise_told _ _).toKeeps
      refine Keeps.trans ?_ (State.setTimeState_keeps _ _)
      exact k0.trans (State.raise_told _ _).toKeeps
    · refine Keeps.trans ?_ (State.setTimeState_keeps _ _)
      exact k0.trans (State.raise_told _ _).toKeeps

theorem State.takePulse_keeps (s : State) : Keeps s s.takePulse := by
  unfold State.takePulse
  split
  · exact Keeps.refl s
  · split
    · exact s.alignPulse_keeps _
    · exact Keeps.refl s
  · split
    · split
      · exact Keeps.refl s
      · exact s.discipline_keeps
    · exact s.discipline_keeps
  · exact s.discipline_keeps.trans (State.raise_told _ _).toKeeps

theorem State.acceptSecond_keeps (sec : Nat) (s : State) : Keeps s (s.acceptSecond sec) := by
  unfold State.acceptSecond
  refine Keeps.trans ?_ (State.setTimeState_keeps _ _)
  exact s.setTime_keeps _ fun _ => ⟨rfl, rfl, rfl, rfl, rfl⟩

theorem execPpsPulse_keeps {s u : State} (e : execPpsPulse s = .next u) : Keeps s u :=
  done_keeps ((State.count_told _ _).toKeeps.trans (State.takePulse_keeps _)) e

theorem execFieldTimeSecond_keeps {s u : State} (e : execFieldTimeSecond s = .next u) : Keeps s u := by
  unfold execFieldTimeSecond at e
  split at e
  · exact nothing_keeps e
  · exact done_keeps s.announceSecond_keeps e

theorem execHoldoverDeadline_keeps {s u : State} (e : execHoldoverDeadline s = .next u) : Keeps s u := by
  unfold execHoldoverDeadline at e
  split at e
  · refine done_keeps (Keeps.trans (Keeps.trans ?_ (State.setTimeState_keeps _ _)) (State.raise_told _ _).toKeeps) e
    exact s.setTime_keeps _ fun _ => ⟨rfl, rfl, rfl, rfl, rfl⟩
  · exact nothing_keeps e

end Sys2Proof.Machine
end

