-- ==== Sys2Proof/Laws/Control.lean ====
section
/-! SUPPORT. Setup writes, the loader, the STATUS claimant, the commands of the host and attendance: what each keeps. -/
-- One lemma after another: elaborated side by side, the package as one text would need too many threads.
set_option Elab.async false
namespace Sys2Proof.Machine

/-! ### Named updates -/

/-- A change of the control record that leaves the setup. -/
theorem State.setControl_keeps (f : Control → Control) (s : State) (h : (f s.control).setup = s.control.setup) :
    Keeps s (s.setControl f) := by
  have g : (s.setControl f).gen = s.gen := by
    unfold State.gen
    rw [State.setControl_control, h]
  have m : (s.setControl f).mask = s.mask := by
    unfold State.mask
    rw [State.setControl_control, h]
  refine { irq := fun k => ?_, rates := fun k => ?_, ring := fun k => ?_, store := fun k => ?_ }
  · unfold IrqOk at k ⊢
    rw [m]
    exact k
  · unfold RatesOk at k ⊢
    rw [g]
    exact k
  · unfold RingOk at k ⊢
    rw [g]
    exact k
  · unfold StoreOk State.unitCount at k ⊢
    rw [g]
    exact k

/-- A change of the status line writer that leaves the pending set and IRQ. -/
theorem State.setStatus_told (f : Status → Status) (s : State) (h : (f s.status).pending = s.status.pending ∧ (f s.status).irq = s.status.irq) :
    Told s (s.setStatus f) where
  irq k := by
    unfold IrqOk at k ⊢
    rw [State.setStatus_status, State.setStatus_mask, h.1, h.2]
    exact k

/-- After a change of the mask in force IRQ is set by it (R168). -/
theorem State.maskChanged_irqOk (s : State) : IrqOk s.maskChanged := rfl

theorem State.maskChanged_told (s : State) : Told s s.maskChanged where
  irq _ := s.maskChanged_irqOk

/-- A change of `notice_mask` keeps the laws, with IRQ set again by the new mask (R168). -/
theorem State.writeNoticeMask_keeps (m : BitVec 24) (s : State) :
    Keeps s (s.setGen fun g => { g with noticeMask := m }).maskChanged := by
  have k := (s.setGen fun g => { g with noticeMask := m }).maskChanged_told.toKeeps
  rcases hs : s.control.setup with _ | u
  · have e : (s.setGen fun g => { g with noticeMask := m }).control = s.control := by
      cases s with | mk time control intake engine sched assoc clip guard report status tallies attend wires draws pending =>
      cases control
      simp only at hs
      subst hs
      rfl
    have g : (s.setGen fun g => { g with noticeMask := m }).gen = s.gen := by unfold State.gen; rw [e]
    refine {
      irq := fun _ => State.maskChanged_irqOk _
      rates := fun h => k.rates ?_
      ring := fun h => k.ring ?_
      store := fun h => k.store ?_ }
    · unfold RatesOk at h ⊢
      rw [g]
      exact h
    · unfold RingOk at h ⊢
      rw [g]
      exact h
    · unfold StoreOk State.unitCount at h ⊢
      rw [g]
      exact h
  · have g0 : s.gen = u.gen := by unfold State.gen; rw [hs]
    have g1 : (s.setGen fun g => { g with noticeMask := m }).gen = { u.gen with noticeMask := m } := by
      unfold State.gen
      rw [State.setGen_setup, hs]
      rfl
    refine {
      irq := fun _ => State.maskChanged_irqOk _
      rates := fun h => k.rates ?_
      ring := fun h => k.ring ?_
      store := fun h => k.store ?_ }
    · unfold RatesOk at h ⊢
      rw [g1]
      rw [g0] at h
      exact h
    · unfold RingOk at h ⊢
      rw [g1]
      rw [g0] at h
      exact h
    · unfold StoreOk State.unitCount at h ⊢
      rw [g1]
      rw [g0] at h
      exact h

/-! ### Setup writes -/

/-- A live field of the general setup that is neither locked nor the mask keeps the laws (R151). -/
theorem liveField_keeps (ok : Bool) (f : General → General) (t : Taken) (hm : ∀ g, (f g).noticeMask = g.noticeMask)
    (hr : ∀ g, (f g).rateNominal = g.rateNominal ∧ (f g).rateDev = g.rateDev ∧ (f g).reportCap = g.reportCap ∧
      (f g).clipSize = g.clipSize) : Keeps t.1 (liveField ok f t).1 := by
  unfold liveField
  split
  · exact State.setGen_keeps f hm hr _
  · exact Keeps.refl _

theorem State.writeScheduleEnable_keeps (v : Nat) (t : Taken) : Keeps t.1 (State.writeScheduleEnable v t).1 := by
  unfold State.writeScheduleEnable
  split
  · simp only
    split
    · exact Keeps.refl _
    · refine Keeps.trans ?_ (State.applyConditions_onSched _ _ _).toKeeps
      refine State.setGen_keeps _ ?_ ?_ _
      · exact fun _ => rfl
      · exact fun _ => ⟨rfl, rfl, rfl, rfl⟩
  · exact Keeps.refl _

theorem State.writeServiceInterval_keeps (v : Nat) (t : Taken) : Keeps t.1 (State.writeServiceInterval v t).1 := by
  unfold State.writeServiceInterval
  split
  · have k : Keeps t.1 (t.1.setGen fun g => { g with serviceInterval := v }) := by
      refine State.setGen_keeps _ ?_ ?_ _
      · exact fun _ => rfl
      · exact fun _ => ⟨rfl, rfl, rfl, rfl⟩
    simp only
    split
    · dsimp only
      exact k.trans (State.setAttend_keeps _ _)
    · split
      · dsimp only
        exact k.trans (State.setAttend_keeps _ _)
      · exact k
  · exact Keeps.refl _

theorem State.writeMask_keeps (v : Nat) (t : Taken) : Keeps t.1 (State.writeMask v t).1 := by
  unfold State.writeMask
  simp only
  split
  · exact Keeps.refl _
  · exact State.writeNoticeMask_keeps _ _

theorem State.generalWord_keeps (off : Nat) (w : List Byte) (t : Taken) : Keeps t.1 (State.generalWord off w t).1 := by
  unfold State.generalWord
  split
  · exact Keeps.refl _
  · split
    · simp only
      refine Keeps.trans ?_ (liveField_keeps _ _ _ (fun _ => rfl) (fun _ => ⟨rfl, rfl, rfl, rfl⟩))
      refine Keeps.trans ?_ (liveField_keeps _ _ _ (fun _ => rfl) (fun _ => ⟨rfl, rfl, rfl, rfl⟩))
      refine Keeps.trans ?_ (liveField_keeps _ _ _ (fun _ => rfl) (fun _ => ⟨rfl, rfl, rfl, rfl⟩))
      refine Keeps.trans ?_ (State.writeScheduleEnable_keeps _ _)
      exact liveField_keeps _ _ _ (fun _ => rfl) (fun _ => ⟨rfl, rfl, rfl, rfl⟩)
    · split
      · simp only
        refine Keeps.trans ?_ (State.writeServiceInterval_keeps _ _)
        refine Keeps.trans ?_ (liveField_keeps _ _ _ (fun _ => rfl) (fun _ => ⟨rfl, rfl, rfl, rfl⟩))
        refine Keeps.trans ?_ (liveField_keeps _ _ _ (fun _ => rfl) (fun _ => ⟨rfl, rfl, rfl, rfl⟩))
        exact liveField_keeps _ _ _ (fun _ => rfl) (fun _ => ⟨rfl, rfl, rfl, rfl⟩)
      · split
        · simp only
          refine Keeps.trans ?_ (State.writeMask_keeps _ _)
          refine Keeps.trans ?_ (liveField_keeps _ _ _ (fun _ => rfl) (fun _ => ⟨rfl, rfl, rfl, rfl⟩))
          refine Keeps.trans ?_ (liveField_keeps _ _ _ (fun _ => rfl) (fun _ => ⟨rfl, rfl, rfl, rfl⟩))
          exact liveField_keeps _ _ _ (fun _ => rfl) (fun _ => ⟨rfl, rfl, rfl, rfl⟩)
        · split
          · dsimp only
            refine (State.setSched_onSched _ t.1 ?_).toKeeps
            exact fun h => h
          · exact Keeps.refl _

theorem State.stationWord_keeps (off : Nat) (w : List Byte) (t : Taken) : Keeps t.1 (State.stationWord off w t).1 := by
  unfold State.stationWord
  simp only
  split
  · exact Keeps.refl _
  · split
    · unfold State.writeEnabled
      split
      · split
        · simp only
          split
          · exact State.disable_keeps _ _
          · exact Keeps.refl _
        · split
          · simp only
            split
            · exact Keeps.refl _
            · exact State.enable_keeps _ _
          · exact Keeps.refl _
      · exact Keeps.refl _
    · split
      · exact (State.setDetector_onIntake _ _ _).toKeeps
      · exact (State.setDetector_onIntake _ _ _).toKeeps

theorem State.bankWord_onSched (off : Nat) (w : List Byte) (t : Taken) : OnSched t.1 (State.bankWord off w t).1 := by
  unfold State.bankWord
  split
  · exact (Told.refl _).onSched
  · refine State.setSched_onSched _ t.1 fun h => ?_
    unfold Schedule.setEntry
    split <;> exact h

theorem State.setupWord_keeps (off : Nat) (w : List Byte) (t : Taken) : Keeps t.1 (State.setupWord off w t).1 := by
  unfold State.setupWord
  repeat' split
  · exact Keeps.refl _
  · exact State.generalWord_keeps _ _ _
  · exact State.stationWord_keeps _ _ _
  · exact Keeps.refl _
  · exact (State.bankWord_onSched _ _ _).toKeeps
  · exact Keeps.refl _

theorem Taken.foldl_keeps {α : Type} {f : Taken → α → Taken} (h : ∀ t a, Keeps t.1 (f t a).1) (l : List α) (t : Taken) :
    Keeps t.1 (l.foldl f t).1 := by
  induction l generalizing t with
  | nil => exact Keeps.refl _
  | cons a l ih => exact (h t a).trans (ih _)

theorem fullWord_strobed (w : List Byte) : fullWord (strobed w) = some w := by
  unfold fullWord strobed
  rw [if_pos (by simp)]
  simp

/-- A write of one word with all its strobes set is that word's effect, with SETUP_IGNORED when it was not taken (R151). -/
theorem State.takeWords_one (lo hi tag off : Nat) (w : List Byte) (s : State) (h : w.length = 8) (l : lo ≤ off) (u : off < hi) :
    s.takeWords lo hi ⟨tag, off, strobed w⟩ =
      if (State.setupWord off w (s, false)).2 then (State.setupWord off w (s, false)).1.setupIgnored
      else (State.setupWord off w (s, false)).1 := by
  have n : (strobed w).length = 8 := by simpa [strobed] using h
  have k : (strobed w).take 8 = strobed w := List.take_of_length_le (by omega)
  unfold State.takeWords
  simp only [n, wordsFrom, k, l, u, decide_true, Bool.and_self, List.filter_cons_of_pos, List.filter_nil, List.foldl_cons, List.foldl_nil,
    fullWord_strobed]

theorem State.takeWords_keeps (lo hi : Nat) (w : PageWrite) (s : State) : Keeps s (s.takeWords lo hi w) := by
  have k : ∀ l : List (Nat × List (Option Byte)), Keeps s (l.foldl (fun (t : Taken) p =>
      match fullWord p.2 with
      | some bs => State.setupWord p.1 bs t
      | none => t) (s, false)).1 := by
    intro l
    refine Taken.foldl_keeps (fun t p => ?_) l (s, false)
    split
    · exact State.setupWord_keeps _ _ _
    · exact Keeps.refl _
  unfold State.takeWords
  simp only
  split
  · exact (k _).trans (State.setupIgnored_told _).toKeeps
  · exact k _

/-! ### The loader -/

theorem State.endCommand_keeps (s : State) : Keeps s s.endCommand := State.setControl_keeps _ _ rfl

theorem State.failLoad_keeps (r : LoadRec) (reason : Reason) (o : Nat) (s : State) : Keeps s (s.failLoad r reason o) := by
  unfold State.failLoad
  simp only
  refine Keeps.trans ?_ (State.putResult_told _ _).toKeeps
  refine Keeps.trans ?_ (State.dropOutstanding_onReport _ _).toKeeps
  refine Keeps.trans ?_ (State.tellSchedule_onIntake _ _).toKeeps
  exact (State.endCommand_keeps _).trans (State.setPart_keeps _ _)

/-- After a LOAD both rate values stand within the limits of the setup in force (R27). -/
theorem State.loadRates_ok (s : State) : RatesOk s.loadRates := by
  unfold RatesOk
  have f : s.loadRates.time.firstLoad = true := rfl
  rw [if_pos f]
  exact ⟨s.gen.clampRate_bounds _, s.gen.clampRate_bounds _⟩

theorem State.reportAnew_ringOk (s : State) : RingOk s.reportAnew :=
  ⟨rfl, Nat.zero_le _, (Nat.zero_mod _).symm, fun h => absurd h Bool.noConfusion⟩

theorem State.clipAnew_used (s : State) : s.clipAnew.clip.used = 0 := by
  unfold State.clipAnew
  simp only
  split <;> rfl

theorem State.guardAnew_keeps (s : State) : Keeps s s.guardAnew :=
  ((State.setGuard_onReport _ _ rfl rfl).trans (State.releaseHeld_onReport _ _)).toKeeps

/-- A LOAD that succeeds keeps every law (R158): what the old setup bounded is made anew. -/
theorem State.succeedLoad_keeps (bs : List Byte) (s : State) : Keeps s (s.succeedLoad bs) := by
  have a1 : ∀ t : State, Keeps t (((t.intakeAnew (parseSetup bs).gen.ringSlots).engineLoad).assocAnew) := fun t =>
    ((State.intakeAnew_keeps _ _).trans (State.engineLoad_onIntake _).toKeeps).trans (State.assocAnew_onEvents _).toKeeps
  have a2 : ∀ (t : State) (p : Nat) (n : BankName) (a b : List BankEntry), Keeps t (t.scheduleLoad p n a b).guardAnew :=
    fun t p n a b => (State.scheduleLoad_keeps _ _ _ _ _).trans (State.guardAnew_keeps _)
  have a3 : ∀ t : State, Keeps t (((((t.setStatus fun w => { w with newRecords := 0 }).setAttend fun a =>
      { a with deadline := none }).endCommand.setPart .stopped).maskChanged).putResult
      ⟨codeLoad, s.control.inProgressTag, .done⟩) := by
    intro t
    refine Keeps.trans ?_ (State.putResult_told _ _).toKeeps
    refine Keeps.trans ?_ (State.maskChanged_told _).toKeeps
    refine Keeps.trans ?_ (State.setPart_keeps _ _)
    refine Keeps.trans ?_ (State.endCommand_keeps _)
    refine Keeps.trans ?_ (State.setAttend_keeps _ _)
    exact (State.setStatus_told (fun w => { w with newRecords := 0 }) t ⟨rfl, rfl⟩).toKeeps
  unfold State.succeedLoad
  simp only
  generalize hu : (s.setControl fun c => { c with setup := some (parseSetup bs) }) = s0
  have k4 := (a1 s0.loadRates).trans (a2 _ (pageField bs 0x138 2) (if pageField bs 0x13A 1 = 0 then .a else .b)
    (parseBank bs 0x1000) (parseBank bs 0x1180))
  generalize ((((s0.loadRates.intakeAnew (parseSetup bs).gen.ringSlots).engineLoad).assocAnew).scheduleLoad (pageField bs 0x138 2)
    (if pageField bs 0x13A 1 = 0 then .a else .b) (parseBank bs 0x1000) (parseBank bs 0x1180)).guardAnew = s4 at k4 ⊢
  have k5 := (State.reportAnew_keeps s4).trans (State.clipAnew_keeps s4.reportAnew)
  have k6 := a3 s4.reportAnew.clipAnew
  have k := (k4.trans k5).trans k6
  subst hu
  refine {
    irq := fun _ => ?_
    tallies := k.tallies
    queues := k.queues
    count := k.count
    rates := fun _ => k.rates (State.loadRates_ok _)
    ring := fun _ => k6.ring ((State.clipAnew_keeps _).ring (State.reportAnew_ringOk _))
    store := fun _ => k6.store ?_
    intervals := k.intervals
    intakeOk := k.intakeOk
    assocOk := k.assocOk
    pending := k.pending }
  · refine (State.putResult_told _ _).irq ?_
    exact State.maskChanged_irqOk _
  · unfold StoreOk
    rw [State.clipAnew_used]
    exact Nat.zero_le _

theorem State.setLoad_keeps (f : LoadRec → LoadRec) (s : State) : Keeps s (s.setLoad f) := State.setControl_keeps _ _ rfl

theorem State.grantLoader_keeps (s : State) : Keeps s s.grantLoader := by
  unfold State.grantLoader
  split
  · exact (State.setLoad_keeps _ _).trans (State.sendRead_onReport _ _ _ _).toKeeps
  · exact Keeps.refl s

theorem State.settleLoad_keeps (s : State) : Keeps s s.settleLoad := by
  unfold State.settleLoad
  split
  · split
    · exact State.failLoad_keeps _ _ _ _
    · split
      · exact Keeps.refl s
      · exact State.succeedLoad_keeps _ _
  · exact Keeps.refl s

theorem State.changeDuringLoad_keeps (w : PageWrite) (s : State) : Keeps s (s.changeDuringLoad w) := by
  unfold State.changeDuringLoad
  split
  · split
    · exact State.failLoad_keeps _ _ _ _
    · exact Keeps.refl s
  · exact Keeps.refl s

theorem State.setupWrite_keeps (lo hi : Nat) (w : PageWrite) (s : State) : Keeps s (s.setupWrite lo hi w) := by
  unfold State.setupWrite
  split
  · exact Keeps.refl s
  · exact State.changeDuringLoad_keeps _ _
  · exact State.takeWords_keeps _ _ _ _
  · exact State.takeWords_keeps _ _ _ _
  · exact State.takeWords_keeps _ _ _ _

theorem execLoaderReadCompletion_keeps {code : MemCode} {data : List Byte} {s u : State}
    (e : execLoaderReadCompletion code data s = .next u) : Keeps s u := by
  unfold execLoaderReadCompletion at e
  split at e
  next h =>
    have k := (State.complete_onReport h).toKeeps.trans (State.countMemerr_told code _).toKeeps
    simp only at e
    split at e
    · exact done_keeps k e
    · exact done_keeps ((k.trans (State.setLoad_keeps _ _)).trans (State.settleLoad_keeps _)) e
  · exact nothing_keeps e

/-! ### The STATUS claimant -/

theorem State.offered_told (s : State) : Told s s.offered := State.setStatus_told _ _ ⟨rfl, rfl⟩

theorem State.grantResult_keeps (r : Result) (s : State) : Keeps s (s.grantResult r) := by
  unfold State.grantResult
  refine Keeps.trans ?_ (State.raise_told _ _).toKeeps
  exact (State.offered_told _).toKeeps.trans (State.sendWrite_onReport _ _ _ _).toKeeps

theorem State.grantLine_keeps (s : State) : Keeps s s.grantLine := by
  have k : Keeps s ((s.offered.sendWrite .status (s.page + 0x80) (s.lineBytes ((s.status.heartbeat + 1) % 4294967296))).setStatus fun w =>
      { w with rewrite := false, heartbeat := (s.status.heartbeat + 1) % 4294967296 }) := by
    refine Keeps.trans ?_ (State.setStatus_told _ _ ⟨rfl, rfl⟩).toKeeps
    exact (State.offered_told _).toKeeps.trans (State.sendWrite_onReport _ _ _ _).toKeeps
  unfold State.grantLine
  simp only
  split
  · exact k
  · refine Keeps.trans ?_ (State.raise_told _ _).toKeeps
    exact k.trans (State.setStatus_told _ _ ⟨rfl, rfl⟩).toKeeps

theorem State.grantDump_keeps (d : Dump) (s : State) : Keeps s (s.grantDump d) := by
  have k : Keeps s (s.offered.sendWrite .status (s.page + d.offset) (d.bytes.take 256)) :=
    (State.offered_told _).toKeeps.trans (State.sendWrite_onReport _ _ _ _).toKeeps
  unfold State.grantDump
  simp only
  split
  · refine Keeps.trans ?_ (State.putResult_told _ _).toKeeps
    refine Keeps.trans ?_ (State.setControl_keeps _ _ rfl)
    exact k.trans (State.setStatus_told _ _ ⟨rfl, rfl⟩).toKeeps
  · exact k.trans (State.setStatus_told _ _ ⟨rfl, rfl⟩).toKeeps

theorem State.grantStatus_keeps (s : State) : Keeps s s.grantStatus := by
  unfold State.grantStatus
  split
  · exact State.grantResult_keeps _ _
  · exact State.grantLine_keeps _
  · split
    · exact State.grantDump_keeps _ _
    · exact (State.offered_told _).toKeeps
  · exact Keeps.refl s

theorem execStatusWriteCompletion_onReport {code : MemCode} {s u : State} (e : execStatusWriteCompletion code s = .next u) :
    OnReport s u := by
  unfold execStatusWriteCompletion at e
  split at e
  next h => exact done_onReport ((State.complete_onReport h).trans (State.writeCompleted_told _ _ _).onReport) e
  · exact nothing_onReport e

/-! ### The commands of the host -/

/-- The order of R153: whatever is decided, the laws are kept. -/
theorem State.command_keeps (code tag : Byte) (thr acc : Bool) (act : State → State) (s : State) (h : ∀ t, Keeps t (act t)) :
    Keeps s (s.command code tag thr acc act) := by
  unfold State.command
  split
  · exact (State.putResult_told _ _).toKeeps
  · split
    · exact (State.putResult_told _ _).toKeeps
    · exact h s

theorem State.takeLoad_keeps (tag : Byte) (s : State) : Keeps s (s.takeLoad tag) := by
  refine State.command_keeps _ _ _ _ _ _ fun t => ?_
  unfold State.acceptLoad
  refine Keeps.trans ?_ (State.tellSchedule_onIntake _ _).toKeeps
  refine Keeps.trans ?_ (State.setPart_keeps _ _)
  exact State.setControl_keeps _ _ rfl

theorem State.takeStart_keeps (tag : Byte) (s : State) : Keeps s (s.takeStart tag) := by
  refine State.command_keeps _ _ _ _ _ _ fun t => ?_
  unfold State.acceptStart
  simp only
  refine Keeps.trans ?_ (State.putResult_told _ _).toKeeps
  refine Keeps.trans ?_ (State.setAttend_keeps _ _)
  refine Keeps.trans ?_ (State.scheduleStart_keeps _)
  refine Keeps.trans ?_ (State.engineStart_onIntake _).toKeeps
  refine Keeps.trans ?_ (State.setPart_keeps _ _)
  refine Keeps.trans ?_ (State.guardAnew_keeps _)
  exact (State.intakeAnew_keeps _ _).trans (State.assocAnew_onEvents _).toKeeps

theorem State.endDrain_keeps (s : State) : Keeps s s.endDrain := by
  unfold State.endDrain
  simp only
  refine Keeps.trans ?_ (State.setWires_keeps _ _)
  refine Keeps.trans ?_ (State.setClip_onEvents _ _ (le_refl _)).toKeeps
  refine Keeps.trans ?_ (State.setAttend_keeps _ _)
  refine Keeps.trans ?_ (State.putResult_told _ _).toKeeps
  refine Keeps.trans ?_ (State.tellSchedule_onIntake _ _).toKeeps
  exact (State.endCommand_keeps _).trans (State.setPart_keeps _ _)

theorem State.settleDrain_keeps (s : State) : Keeps s s.settleDrain := by
  unfold State.settleDrain
  split
  · exact State.endDrain_keeps s
  · exact Keeps.refl s

theorem State.takeMessage_onEvents (m : AssocMsg) (s : State) : OnEvents s (s.takeMessage m) := by
  unfold State.takeMessage
  split
  · exact State.takePick_onEvents _ _
  · exact State.applyClosure_onEvents _ _ _ _

theorem State.takeSentBefore_onEvents (s : State) : OnEvents s s.takeSentBefore := by
  unfold State.takeSentBefore
  refine OnEvents.trans (State.setWires_onEvents (fun w => { w with toAssoc := (splitAtPicks s.wires.toAssoc).2 }) s) ?_
  exact OnEvents.foldl (fun t m => State.takeMessage_onEvents m t) _ _

theorem State.closuresFirst_onEvents (n : Nat) (s : State) : OnEvents s (s.closuresFirst n) := by
  unfold State.closuresFirst
  simp only
  refine OnEvents.trans ?_ (State.setWires_onEvents _ _)
  exact OnEvents.foldl (fun t m => State.takeMessage_onEvents m t) _ _

theorem State.closeAtStop_onReport (es : List (Nat × Event)) (s : State) : OnReport s (s.closeAtStop es) := by
  unfold State.closeAtStop
  refine OnReport.foldl (fun t q => ?_) _ _
  split
  · split
    · exact State.closeEvent_onReport _ _ _ _
    · exact OnReport.refl t
  · exact OnReport.refl t
  · exact OnReport.refl t

theorem State.stopEvents_onReport (n : Nat) (s : State) : OnReport s (s.stopEvents n) := by
  unfold State.stopEvents
  simp only
  split
  · refine OnReport.trans ?_ (State.closeAtStop_onReport _ _)
    exact (State.closeAtStop_onReport _ _).trans (State.clipTakesStop_onReport _)
  · exact State.closeAtStop_onReport _ _

theorem State.setDraws_keeps (n : Nat) (s : State) : Keeps s { s with draws := n } := {}

theorem State.acceptStop_keeps (tag : Byte) (s : State) : Keeps s (s.acceptStop tag) := by
  unfold State.acceptStop
  simp only
  refine Keeps.trans ?_ (State.settleDrain_keeps _)
  refine Keeps.trans ?_ (State.stopEvents_onReport _ _).toKeeps
  refine Keeps.trans ?_ (State.closuresFirst_onEvents _ _).toKeeps
  refine Keeps.trans ?_ (State.setDraws_keeps _ _)
  refine Keeps.trans ?_ (State.setWires_keeps _ _)
  refine Keeps.trans ?_ (State.engineStop_onIntake _).toKeeps
  refine Keeps.trans ?_ (State.intakeStop_onIntake _).toKeeps
  refine Keeps.trans ?_ (State.tellSchedule_onIntake _ _).toKeeps
  refine Keeps.trans ?_ (State.setPart_keeps _ _)
  refine Keeps.trans ?_ (State.setControl_keeps _ _ rfl)
  exact (State.takeSentBefore_onEvents _).toKeeps

theorem State.takeStop_keeps (tag : Byte) (s : State) : Keeps s (s.takeStop tag) :=
  State.command_keeps _ _ _ _ _ _ fun t => State.acceptStop_keeps _ t

theorem State.setCause_keeps (c : ResetCause) (s : State) : Keeps s (s.setCause c) := by
  unfold State.setCause
  split
  · exact Keeps.refl s
  · exact (State.setControl_keeps _ _ rfl).trans (State.askRewrite_told _).toKeeps

theorem State.acceptSoftReset_keeps (tag : Byte) (s : State) : Keeps s (s.acceptSoftReset tag) := by
  unfold State.acceptSoftReset
  simp only
  refine Keeps.trans ?_ (State.putResult_told _ _).toKeeps
  refine Keeps.trans ?_ (State.setPart_keeps _ _)
  refine Keeps.trans ?_ (State.setCause_keeps _ _)
  refine Keeps.trans ?_ (State.endCommand_keeps _)
  refine Keeps.trans ?_ (State.setPending_told _ _).toKeeps
  refine Keeps.trans ?_ (State.setAttend_keeps _ _)
  refine Keeps.trans ?_ (State.setStatus_told _ _ ⟨rfl, rfl⟩).toKeeps
  refine Keeps.trans ?_ (State.reportSoftReset_keeps _)
  refine Keeps.trans ?_ (State.clipAnew_keeps _)
  refine Keeps.trans ?_ (State.assocSoftReset_onEvents _).toKeeps
  refine Keeps.trans ?_ (State.scheduleSoftReset_keeps _)
  refine Keeps.trans ?_ (State.engineSoftReset_onIntake _).toKeeps
  refine Keeps.trans ?_ (State.intakeAnew_keeps _ _)
  refine Keeps.trans ?_ (State.releaseHeld_onReport _ _).toKeeps
  exact (State.countUnitErrors_told _).toKeeps.trans (State.setGuard_onReport _ _ rfl rfl).toKeeps

theorem State.takeSoftReset_keeps (tag : Byte) (s : State) : Keeps s (s.takeSoftReset tag) :=
  State.command_keeps _ _ _ _ _ _ fun t => State.acceptSoftReset_keeps _ t

theorem State.takeSetTime_keeps (tag : Byte) (s : State) : Keeps s (s.takeSetTime tag) := by
  refine State.command_keeps _ _ _ _ _ _ fun t => ?_
  unfold State.decideSetTime
  split
  · exact (State.acceptSecond_keeps _ _).trans (State.putResult_told _ _).toKeeps
  · exact (State.putResult_told _ _).toKeeps

theorem talliesOk_zero : TalliesOk Tallies.zero := by
  refine ⟨fun n h => ?_, fun x h => ?_⟩
  · rw [List.eq_of_mem_replicate h]
    exact Nat.zero_le _
  · rw [List.eq_of_mem_replicate h]
    exact ⟨Nat.zero_le _, Nat.zero_le _, Nat.zero_le _⟩

theorem State.takeDumpTally_keeps (tag : Byte) (s : State) : Keeps s (s.takeDumpTally tag) := by
  refine State.command_keeps _ _ _ _ _ _ fun t => ?_
  have k : Keeps t ((t.setStatus fun w => { w with dump := some ⟨0x1300, t.snapshot⟩ }).setControl fun c =>
      { c with inProgress := some (.dumpTally, tag) }) :=
    (State.setStatus_told (fun w => { w with dump := some ⟨0x1300, t.snapshot⟩ }) t ⟨rfl, rfl⟩).toKeeps.trans
      (State.setControl_keeps _ _ rfl)
  unfold State.acceptDump
  simp only
  refine k.trans ?_
  refine { tallies := fun h => ?_ }
  show TalliesOk (if t.control.argument.getLsbD 0 then .zero else t.tallies)
  split
  · exact talliesOk_zero
  · exact h

theorem State.cutAll_onIntake (s : State) : OnIntake s s.cutAll := OnIntake.foldl (fun t n => State.cutSlot_onIntake n t) _ _

theorem State.takeReleaseHolds_keeps (tag : Byte) (s : State) : Keeps s (s.takeReleaseHolds tag) := by
  refine State.command_keeps _ _ _ _ _ _ fun t => ?_
  unfold State.acceptReleaseHolds
  refine Keeps.trans ?_ (State.putResult_told _ _).toKeeps
  exact (State.cutAll_onIntake _).toKeeps.trans (State.releaseHeld_onReport _ _).toKeeps

theorem State.takeUnknown_told (code tag : Byte) (s : State) : Told s (s.takeUnknown code tag) := by
  unfold State.takeUnknown
  split
  · exact State.putResult_told _ _
  · exact State.putResult_told _ _

theorem State.storeArgument_keeps (a : BitVec 64) (s : State) : Keeps s (s.storeArgument a) := State.setControl_keeps _ _ rfl

theorem State.clearKinds_told (k : BitVec 24) (s : State) : Told s (s.clearKinds k) := State.setPending_told _ _

theorem State.takeCommand_keeps (code tag : Byte) (s : State) : Keeps s (s.takeCommand code tag) := by
  unfold State.takeCommand
  repeat' split
  · exact State.takeLoad_keeps _ _
  · exact State.takeStart_keeps _ _
  · exact State.takeStop_keeps _ _
  · exact State.takeSoftReset_keeps _ _
  · exact State.takeSetTime_keeps _ _
  · exact State.takeDumpTally_keeps _ _
  · exact State.takeReleaseHolds_keeps _ _
  · exact (State.takeUnknown_told _ _ _).toKeeps

theorem execDrainEnd_keeps {s u : State} (e : execDrainEnd s = .next u) : Keeps s u := by
  unfold execDrainEnd at e
  split at e
  · exact done_keeps (State.endDrain_keeps s) e
  · exact nothing_keeps e

theorem execUnknownCommand_told {code tag : Byte} {s u : State} (e : execUnknownCommand code tag s = .next u) : Told s u := by
  unfold execUnknownCommand at e
  split at e
  · exact absurd e (by simp)
  · unfold done at e
    injection e with e
    exact e ▸ (State.takeUnknown_told _ _ _).trans (State.settle_told _)

theorem execResetRelease_keeps {b : Byte} {s u : State} (e : execResetRelease b s = .next u) : Keeps s u := by
  unfold execResetRelease at e
  split at e
  · exact nothing_keeps e
  · refine done_keeps ?_ e
    unfold State.release
    refine Keeps.trans ?_ (State.askRewrite_told _).toKeeps
    refine Keeps.trans ?_ (State.putResult_told _ _).toKeeps
    exact State.setControl_keeps _ _ rfl

/-! ### Attendance -/

theorem State.becomeAttended_keeps (s : State) : Keeps s s.becomeAttended := by
  unfold State.becomeAttended
  split
  · refine Keeps.trans ?_ (State.askRewrite_told _).toKeeps
    exact (State.setAttend_keeps _ _).trans (State.raise_told _ _).toKeeps
  · exact Keeps.refl s

theorem State.heartbeatRead_keeps (s : State) : Keeps s s.heartbeatRead := by
  unfold State.heartbeatRead
  simp only
  refine Keeps.trans ?_ (State.becomeAttended_keeps _)
  split
  · exact State.setAttend_keeps _ _
  · exact Keeps.refl s

theorem State.becomeUnattended_keeps (s : State) : Keeps s s.becomeUnattended := by
  unfold State.becomeUnattended
  simp only
  refine Keeps.trans ?_ (State.askRewrite_told _).toKeeps
  refine Keeps.trans ?_ (State.count_told _ _).toKeeps
  refine Keeps.trans ?_ (State.raise_told _ _).toKeeps
  exact (State.setAttend_keeps _ _).trans (State.setWires_keeps _ _)

theorem execHeartbeatRead_keeps {s u : State} (e : execHeartbeatRead s = .next u) : Keeps s u := by
  unfold execHeartbeatRead at e
  split at e
  · exact done_keeps (State.heartbeatRead_keeps s) e
  · exact nothing_keeps e

theorem execServiceDeadline_keeps {s u : State} (e : execServiceDeadline s = .next u) : Keeps s u := by
  unfold execServiceDeadline at e
  split at e
  · refine done_keeps ?_ e
    split
    · exact State.setAttend_keeps _ _
    · exact (State.setAttend_keeps _ _).trans (State.becomeUnattended_keeps _)
  · exact nothing_keeps e

end Sys2Proof.Machine
end

