-- ==== Sys2Proof/Laws/Cuts.lean ====
section
/-! SUPPORT. What a cut of a slot does, to the directory, to the refetch queue and to what is told; and what cuts one after the other do. -/
-- One lemma after another: elaborated side by side, the package as one text would need too many threads.
set_option Elab.async false
namespace Sys2Proof.Machine

/-- Blocks lost one after another, each counted OVERTAKEN: what they leave of the Intake Unit, of the notices and of the tallies. -/
theorem loseAll_leaves (l : List Refetch) (s : State) :
    (l.foldl (fun t e => (t.loseRefetch e).count .overtaken) s).intake = { s.intake with
      refetch := s.intake.refetch.filter fun x => decide (x.id ∉ l.map (·.id))
      stations := l.foldl (fun ss r => ss.modify r.block.station (·.lose r.id)) s.intake.stations } ∧
    (l.foldl (fun t e => (t.loseRefetch e).count .overtaken) s).status.pending =
      s.status.pending ||| (if l = [] then 0 else Notice.blockLost.bit) ∧
    (l.foldl (fun t e => (t.loseRefetch e).count .overtaken) s).tallies = (if l = [] then s else s.countBy .overtaken l.length).tallies := by
  induction l generalizing s with
  | nil => refine ⟨?_, ?_, rfl⟩ <;> simp
  | cons e l ih =>
    obtain ⟨a, b, c⟩ := ih ((s.loseRefetch e).count .overtaken)
    have i1 : ((s.loseRefetch e).count .overtaken).intake = { s.intake with
        refetch := s.intake.refetch.filter fun x => x.id != e.id
        stations := s.intake.stations.modify e.block.station (·.lose e.id) } := by
      simp [State.loseRefetch, State.setStationIntake, State.setRefetch]
    have p1 : ((s.loseRefetch e).count .overtaken).status.pending = s.status.pending ||| Notice.blockLost.bit := by
      simp [State.loseRefetch, State.setStationIntake, State.setRefetch]
    have t1 : ((s.loseRefetch e).count .overtaken).tallies = (s.count .overtaken).tallies := by
      simp [State.loseRefetch, State.setStationIntake, State.setRefetch]
    rw [List.foldl_cons]
    refine ⟨?_, ?_, ?_⟩
    · rw [a, i1]
      simp only [List.filter_filter, List.map_cons, List.mem_cons, List.foldl_cons]
      congr 1
      apply List.filter_congr
      intro x _
      by_cases h1 : x.id = e.id <;> by_cases h2 : x.id ∈ l.map (·.id) <;> simp [h1, h2]
    · rw [b, p1]
      by_cases h : l = []
      · simp [h]
      · simp only [h, if_false, List.cons_ne_nil]
        rw [BitVec.or_assoc, BitVec.or_self]
    · rw [c]
      by_cases h : l = []
      · subst h
        simp only [if_true, List.cons_ne_nil, if_false]
        rw [t1]; rfl
      · simp only [h, if_false, List.cons_ne_nil]
        have cb : ∀ (k : Nat) (x : State), (x.countBy .overtaken k).tallies =
            { x.tallies with global := x.tallies.global.modify Tally.overtaken.slot (saturate k) } := fun _ _ => rfl
        have c1 : (s.count .overtaken).tallies = { s.tallies with global := s.tallies.global.modify Tally.overtaken.slot (saturate 1) } := rfl
        rw [cb, cb, t1, c1]
        simp only [List.modify_modify_eq]
        congr 2
        funext v
        simp only [Function.comp, saturate, List.length_cons]
        omega

theorem takeUp_doneQueued (pre post : List Refetch) : (∀ x ∈ pre, x.state = .done) → (∀ x ∈ post, x.state = .queued) →
    takeUp (pre ++ post) = pre ++ (match post with
      | [] => []
      | q :: qs => { q with state := .reading } :: qs) := by
  intro h k
  induction pre with
  | nil =>
    cases post with
    | nil => rfl
    | cons q qs =>
      have : qs.any (fun x => x.state == .reading) = false := by
        rw [List.any_eq_false]; intro x hx; rw [k x (List.mem_cons_of_mem _ hx)]; decide
      simp [takeUp, k q (List.mem_cons_self ..), this]
  | cons x pre ih =>
    rw [List.cons_append, takeUp, h x (List.mem_cons_self ..)]
    simp only
    rw [ih (fun y q => h y (List.mem_cons_of_mem _ q))]; rfl

/-- Of entries with their own numbers, the numbers of a part single out that part. -/
theorem filter_notIn_ids (l : List Refetch) (p : Refetch → Bool) (h : (l.map (·.id)).Nodup) :
    (l.filter fun x => decide (x.id ∉ (l.filter p).map (·.id))) = l.filter fun x => !p x := by
  apply List.filter_congr
  intro x hx
  have inj : ∀ y ∈ l, y.id = x.id → y = x := fun y hy e => List.inj_on_of_nodup_map h hy hx e
  cases hp : p x
  · have : x.id ∉ (l.filter p).map (·.id) := by
      intro m
      obtain ⟨y, hy, he⟩ := List.mem_map.1 m
      obtain ⟨y1, y2⟩ := List.mem_filter.1 hy
      rw [inj y y1 he, hp] at y2; cases y2
    simp [this]
  · have : x.id ∈ (l.filter p).map (·.id) := List.mem_map.2 ⟨x, List.mem_filter.2 ⟨hx, hp⟩, rfl⟩
    simp [this]

/-- The reads cancelled by a cut of slot `n`: the blocks lost, and the refetch queue that they leave. -/
theorem State.cancelRefetch_leaves (n : Nat) (s : State) : ∃ lost : List Refetch,
    (s.cancelRefetch n).intake = { s.intake with
      refetch := (s.cancelRefetch n).intake.refetch
      stations := lost.foldl (fun ss r => ss.modify r.block.station (·.lose r.id)) s.intake.stations } ∧
    (s.cancelRefetch n).status.pending = s.status.pending ||| (if lost = [] then 0 else Notice.blockLost.bit) ∧
    (s.cancelRefetch n).tallies = (if lost = [] then s else s.countBy .overtaken lost.length).tallies ∧
    ∀ queued : List Refetch, queued = s.intake.refetch.filter (fun x => decide (x.slot = n ∧ x.state = .queued)) →
      (s.intake.refetch.map (·.id)).Nodup →
      ((∀ x ∈ s.intake.refetch, x.state = .reading → x.slot ≠ n) → lost = queued ∧
        (s.cancelRefetch n).intake.refetch = s.intake.refetch.filter fun x => decide (x.slot ≠ n ∨ x.state ≠ .queued)) ∧
      ∀ (r : Refetch) (pre post rest : List Refetch), s.intake.refetch = pre ++ r :: post → r.slot = n → r.state = .reading →
        (∀ x ∈ pre, x.state = .done) → (∀ x ∈ post, x.state = .queued) → rest = post.filter (fun x => decide (x.slot ≠ n)) →
        (r.granted ≠ r.returned → lost = queued ∧ (s.cancelRefetch n).intake.refetch = pre ++ { r with cutFlag := true } :: rest) ∧
        (r.granted = r.returned → lost = queued ++ [{ r with cutFlag := true }] ∧ (s.cancelRefetch n).intake.refetch = pre ++ match rest with
          | [] => []
          | q :: qs => { q with state := .reading } :: qs) := by
  set qd := s.intake.refetch.filter (fun x => decide (x.slot = n ∧ x.state = .queued)) with hqd
  have fq : (s.intake.refetch.filter fun e => e.slot == n && e.state == .queued) = qd := by
    rw [hqd]; apply List.filter_congr; intro x _
    by_cases a : x.slot = n <;> cases b : x.state <;> simp [a]
  obtain ⟨i1, p1, t1⟩ := loseAll_leaves qd s
  set s1 := qd.foldl (fun t e => (t.loseRefetch e).count .overtaken) s with hs1
  set fl : Refetch → Refetch := fun e => if e.slot = n ∧ e.state = .reading then { e with cutFlag := true } else e with hfl
  set s2 := s1.setRefetch (s1.intake.refetch.map fl) with hs2
  have cr : s.cancelRefetch n = s2.settleCut n := by
    unfold State.cancelRefetch; simp only [fq]; rw [← hs1]
  have r1 : (s.intake.refetch.map (·.id)).Nodup → s1.intake.refetch = s.intake.refetch.filter fun x => !decide (x.slot = n ∧ x.state = .queued) := by
    intro h; rw [i1]; exact filter_notIn_ids _ _ h
  have r2 : s2.intake.refetch = s1.intake.refetch.map fl := rfl
  have i2 : s2.intake = { s.intake with
      refetch := s2.intake.refetch
      stations := qd.foldl (fun ss r => ss.modify r.block.station (·.lose r.id)) s.intake.stations } := by
    have e : s2.intake = { s1.intake with refetch := s2.intake.refetch } := rfl
    exact e.trans (by rw [i1])
  -- the three ends of the settling
  by_cases case : ∃ e, (s2.intake.refetch.find? fun x => x.state == .reading) = some e ∧ e.slot = n ∧ e.returned = e.granted
  · obtain ⟨e, he, hen, heg⟩ := case
    have hcf : e.cutFlag = true := by
      have m := List.mem_of_find?_eq_some he
      have r := List.find?_some he
      rw [r2] at m
      obtain ⟨f, -, hf⟩ := List.mem_map.1 m
      rw [hfl] at hf
      by_cases q : f.slot = n ∧ f.state = .reading
      · simp only [if_pos q] at hf; rw [← hf]
      · simp only [if_neg q] at hf
        subst hf
        exact absurd ⟨hen, by simpa using r⟩ q
    obtain ⟨i3, p3, t3⟩ := loseAll_leaves (qd ++ [e]) s
    have sc : s2.settleCut n = ((s2.loseRefetch e).count .overtaken).setRefetch (takeUp ((s2.loseRefetch e).count .overtaken).intake.refetch) := by
      unfold State.settleCut; rw [he]; simp only; rw [if_pos hen]
      unfold State.settleRefetch; rw [he]; simp only
      rw [if_pos ⟨by simp [Refetch.offered, hcf], heg⟩]
      unfold State.endRefetch; rw [if_pos (by simp [hcf])]
    have one : ∀ y : State, ((y.loseRefetch e).count .overtaken).intake = { y.intake with
          refetch := y.intake.refetch.filter fun x => x.id != e.id, stations := y.intake.stations.modify e.block.station (·.lose e.id) } ∧
        ((y.loseRefetch e).count .overtaken).status.pending = y.status.pending ||| Notice.blockLost.bit ∧
        ((y.loseRefetch e).count .overtaken).tallies = (y.count .overtaken).tallies := fun y => by
      refine ⟨?_, ?_, ?_⟩ <;> simp [State.loseRefetch, State.setStationIntake, State.setRefetch]
    have app : (qd ++ [e]).foldl (fun t e => (t.loseRefetch e).count .overtaken) s = (s1.loseRefetch e).count .overtaken := by
      rw [List.foldl_append, ← hs1]; rfl
    rw [app, (one s1).1] at i3
    rw [app, (one s1).2.1] at p3
    rw [app, (one s1).2.2] at t3
    set s3 := (s2.loseRefetch e).count .overtaken with hs3
    have fin : (s.cancelRefetch n).intake = { s3.intake with refetch := takeUp s3.intake.refetch } ∧
        (s.cancelRefetch n).status.pending = s3.status.pending ∧ (s.cancelRefetch n).tallies = s3.tallies := by
      rw [cr, sc]; exact ⟨rfl, rfl, rfl⟩
    refine ⟨qd ++ [e], ?_, ?_, ?_, fun queued hq nd => ⟨fun hnr => ?_, fun r pre post rest hr hsl hst hpre hpost hrest => ⟨fun hne => ?_, fun heq => ?_⟩⟩⟩
    · have k : (s.cancelRefetch n).intake = { s3.intake with refetch := (s.cancelRefetch n).intake.refetch } := by rw [fin.1]
      refine k.trans ?_
      rw [hs3, (one s2).1]
      have k2 : s2.intake = { s1.intake with refetch := s2.intake.refetch } := rfl
      rw [k2, i1, List.foldl_append]; rfl
    · rw [fin.2.1, hs3, (one s2).2.1, ← p3]; rfl
    · rw [fin.2.2, hs3, (one s2).2.2, ← t3]; rfl
    · exfalso
      have m := List.mem_of_find?_eq_some he
      have r := List.find?_some he
      rw [r2, r1 nd] at m
      obtain ⟨f, hf1, hf⟩ := List.mem_map.1 m
      have hf2 := (List.mem_filter.1 hf1).1
      rw [hfl] at hf
      by_cases q : f.slot = n ∧ f.state = .reading
      · exact hnr f hf2 q.2 q.1
      · simp only [if_neg q] at hf
        subst hf
        exact q ⟨hen, by simpa using r⟩
    all_goals
      have keep : s1.intake.refetch = pre ++ r :: rest := by
        rw [r1 nd, hr, List.filter_append, List.filter_cons, if_pos (by simp [hst])]
        have k1 : (pre.filter fun x => !decide (x.slot = n ∧ x.state = .queued)) = pre := by
          rw [List.filter_eq_self]; intro x hx; simp [hpre x hx]
        have k2 : (post.filter fun x => !decide (x.slot = n ∧ x.state = .queued)) = rest := by
          rw [hrest]; apply List.filter_congr; intro x hx; simp [hpost x hx]
        rw [k1, k2]
      have hrest' : ∀ x ∈ rest, x.state = .queued := by
        intro x hx; rw [hrest] at hx; exact hpost x (List.mem_filter.1 hx).1
      have m2 : s2.intake.refetch = pre ++ { r with cutFlag := true } :: rest := by
        rw [r2, keep, List.map_append, List.map_cons]
        have g : ∀ l : List Refetch, (∀ x ∈ l, x.state ≠ .reading) → l.map fl = l := by
          intro l h
          conv_rhs => rw [← List.map_id l]
          apply List.map_congr_left; intro x h'
          rw [hfl]; simp only; rw [if_neg]; · rfl
          rintro ⟨a, b⟩; exact h x h' b
        rw [g pre (fun x h => by rw [hpre x h]; decide), g rest (fun x h => by rw [hrest' x h]; decide), hfl]
        simp only; rw [if_pos ⟨hsl, hst⟩]
      have fd : ((pre ++ { r with cutFlag := true } :: rest).find? fun x => x.state == .reading) = some { r with cutFlag := true } := by
        rw [List.find?_append, List.find?_eq_none.2 (fun x h => by rw [hpre x h]; decide)]
        simp [hst]
      have ee : e = { r with cutFlag := true } := by
        rw [m2, fd] at he; exact (Option.some.inj he).symm
    · rw [ee] at heg; exact absurd heg.symm hne
    · refine ⟨by rw [hq, ee], ?_⟩
      rw [fin.1, hs3, (one s2).1]
      show takeUp (s2.intake.refetch.filter fun x => x.id != e.id) = _
      have nd2 : ∀ x, x ∈ pre ∨ x ∈ rest → x.id ≠ r.id := by
        intro x hx e
        rw [hr, List.map_append, List.map_cons, List.nodup_append] at nd
        obtain ⟨-, n2, n3⟩ := nd
        rw [List.nodup_cons] at n2
        rcases hx with h | h
        · exact n3 x.id (List.mem_map_of_mem h) r.id (List.mem_cons_self ..) e
        · rw [hrest] at h
          exact n2.1 (by rw [← e]; exact List.mem_map_of_mem (List.mem_filter.1 h).1)
      have fi : (s2.intake.refetch.filter fun x => x.id != e.id) = pre ++ rest := by
        have k : ∀ l : List Refetch, (∀ x ∈ l, x.id ≠ r.id) → (l.filter fun x => x.id != r.id) = l := by
          intro l h; rw [List.filter_eq_self]; intro x hx; simpa using h x hx
        rw [m2, ee, List.filter_append, List.filter_cons, k pre (fun x h => nd2 x (.inl h)), k rest (fun x h => nd2 x (.inr h))]
        simp
      rw [fi]; exact takeUp_doneQueued pre rest hpre hrest'
  · have sc : s2.settleCut n = s2 := by
      unfold State.settleCut
      split
      next e he =>
        split
        next hen =>
          unfold State.settleRefetch; rw [he]; simp only
          rw [if_neg]
          rintro ⟨-, h⟩
          exact case ⟨e, he, hen, h⟩
        · rfl
      · rfl
    refine ⟨qd, ?_, ?_, ?_, fun queued hq nd => ⟨fun hnr => ?_, fun r pre post rest hr hsl hst hpre hpost hrest => ⟨fun hne => ?_, fun heq => ?_⟩⟩⟩
    · rw [cr, sc]; exact i2
    · rw [cr, sc]; exact p1
    · rw [cr, sc]; exact t1
    · refine ⟨hq.symm, ?_⟩
      rw [cr, sc, r2, r1 nd]
      have g : ((s.intake.refetch.filter fun x => !decide (x.slot = n ∧ x.state = .queued)).map fl) = s.intake.refetch.filter fun x => !decide (x.slot = n ∧ x.state = .queued) := by
        conv_rhs => rw [← List.map_id (s.intake.refetch.filter fun x => !decide (x.slot = n ∧ x.state = .queued))]
        apply List.map_congr_left; intro x h'
        rw [hfl]; simp only; rw [if_neg]; · rfl
        rintro ⟨a, b⟩; exact hnr x (List.mem_filter.1 h').1 b a
      rw [g]; apply List.filter_congr; intro x _
      by_cases a : x.slot = n <;> by_cases b : x.state = .queued <;> simp [a, b]
    all_goals
      have keep : s1.intake.refetch = pre ++ r :: rest := by
        rw [r1 nd, hr, List.filter_append, List.filter_cons, if_pos (by simp [hst])]
        have k1 : (pre.filter fun x => !decide (x.slot = n ∧ x.state = .queued)) = pre := by
          rw [List.filter_eq_self]; intro x hx; simp [hpre x hx]
        have k2 : (post.filter fun x => !decide (x.slot = n ∧ x.state = .queued)) = rest := by
          rw [hrest]; apply List.filter_congr; intro x hx; simp [hpost x hx]
        rw [k1, k2]
      have hrest' : ∀ x ∈ rest, x.state = .queued := by
        intro x hx; rw [hrest] at hx; exact hpost x (List.mem_filter.1 hx).1
      have m2 : s2.intake.refetch = pre ++ { r with cutFlag := true } :: rest := by
        rw [r2, keep, List.map_append, List.map_cons]
        have g : ∀ l : List Refetch, (∀ x ∈ l, x.state ≠ .reading) → l.map fl = l := by
          intro l h
          conv_rhs => rw [← List.map_id l]
          apply List.map_congr_left; intro x h'
          rw [hfl]; simp only; rw [if_neg]; · rfl
          rintro ⟨a, b⟩; exact h x h' b
        rw [g pre (fun x h => by rw [hpre x h]; decide), g rest (fun x h => by rw [hrest' x h]; decide), hfl]
        simp only; rw [if_pos ⟨hsl, hst⟩]
      have fd : ((pre ++ { r with cutFlag := true } :: rest).find? fun x => x.state == .reading) = some { r with cutFlag := true } := by
        rw [List.find?_append, List.find?_eq_none.2 (fun x h => by rw [hpre x h]; decide)]
        simp [hst]
    · exact ⟨hq.symm, by rw [cr, sc]; exact m2⟩
    · exact absurd ⟨{ r with cutFlag := true }, by rw [m2]; exact fd, hsl, heq.symm⟩ case

/-- What a cut of one slot does. -/
theorem State.cutSlot_cut (n : Nat) (s : State) : SlotCut n s (s.cutSlot n) where
  unpinned h := by
    cases k : s.intake.dir[n]? with
    | none => unfold State.cutSlot State.slot; rw [k]
    | some e => exact (State.cutSlot_spec n s).2.2 e k (h e k)
  pinned e he hz := by
    set s1 := (s.setSlot n fun x => { x with pins := 0, cutMark := true }).setWires fun w => { w with cutNotes := w.cutNotes ++ [(n, e.gen)] } with hs1
    have hcut : s.cutSlot n = ((((s1.cancelRefetch n).count .holdCuts).raise .holdCut).tellSlotFree n) := by
      unfold State.cutSlot State.slot
      rw [he]; simp only; rw [if_neg hz]
    obtain ⟨lost, a, b, c, d⟩ := State.cancelRefetch_leaves n s1
    have cd := State.cancelRefetch_dir n s1
    have dirIs : s1.intake.dir = s.intake.dir.set n { e with pins := 0, cutMark := true } := by
      show s.intake.dir.modify n _ = _
      apply List.ext_getElem?
      intro j
      rw [List.getElem?_modify, List.getElem?_set]
      obtain ⟨hl, hx⟩ := List.getElem?_eq_some_iff.1 he
      by_cases c : n = j
      · subst c; simp [hl, hx]
      · simp [c]
    refine ⟨lost, ?_, ?_, ?_, ?_, ?_⟩
    · rw [hcut]
      show (((s1.cancelRefetch n).count .holdCuts).raise .holdCut).intake = _
      rw [State.raise_intake]
      show (s1.cancelRefetch n).intake = _
      have i : s1.intake = { s.intake with dir := s.intake.dir.set n { e with pins := 0, cutMark := true } } := by
        show ({ s.intake with dir := s1.intake.dir } : Intake) = _
        rw [dirIs]
      rw [a, i]
      simp [State.tellSlotFree]
    · have w1 : s1.wires = { s.wires with cutNotes := s.wires.cutNotes ++ [(n, e.gen)] } := rfl
      have w2 : (s.cutSlot n).wires = { (s1.cancelRefetch n).wires with slotFree := (s1.cancelRefetch n).wires.slotFree ++ [n] } := by
        rw [hcut]; simp [State.tellSlotFree]
      rw [w2, cd.2, w1]
    · rw [hcut]
      have rb : (((s1.cancelRefetch n).count .holdCuts).raise .holdCut).status.pending = (s1.cancelRefetch n).status.pending ||| Notice.holdCut.bit := by
        simp
      show (((s1.cancelRefetch n).count .holdCuts).raise .holdCut).status.pending = _
      rw [rb, b]; rfl
    · rw [hcut]
      simp only [State.tellSlotFree, State.setWires_tallies, State.raise_tallies]
      show ({ (s1.cancelRefetch n).tallies with global := (s1.cancelRefetch n).tallies.global.modify _ _ } : Tallies) = _
      rw [c]
      by_cases h : lost = []
      · rw [if_pos h, if_pos h]; rfl
      · rw [if_neg h, if_neg h]; rfl
    · have rr : (s.cutSlot n).intake.refetch = (s1.cancelRefetch n).intake.refetch := by
        rw [hcut]; simp [State.tellSlotFree]
      rw [rr]; exact d
  frame := State.cutSlot_frame n (Frame.refl _ _) (by decide)

/-- What cuts of slots, one after the other, do. -/
theorem State.cutSlots_cut (ns : List Nat) (s : State) : SlotsCut ns s (ns.foldl (fun t n => t.cutSlot n) s) := by
  induction ns generalizing s with
  | nil => exact .none
  | cons n ns ih => exact .cut (State.cutSlot_cut n s) (ih _)

/-- Tallies of a run of cuts: so many blocks lost, then so many slots cut. -/
theorem countBy_told (a b k l : Nat) (s m : State)
    (h : m.tallies = (if b = 0 then (if a = 0 then s else s.countBy .overtaken a) else (if a = 0 then s else s.countBy .overtaken a).countBy .holdCuts b).tallies) :
    (if l = 0 then (if k = 0 then m else m.countBy .overtaken k) else (if k = 0 then m else m.countBy .overtaken k).countBy .holdCuts l).tallies =
      (if b + l = 0 then (if a + k = 0 then s else s.countBy .overtaken (a + k))
        else (if a + k = 0 then s else s.countBy .overtaken (a + k)).countBy .holdCuts (b + l)).tallies := by
  have cb : ∀ (t : Tally) (k : Nat) (x : State), (x.countBy t k).tallies = { x.tallies with global := x.tallies.global.modify t.slot (saturate k) } :=
    fun _ _ _ => rfl
  have two : ∀ (i x y : Nat) (l : List Nat), (l.modify i (saturate x)).modify i (saturate y) = l.modify i (saturate (x + y)) := by
    intro i x y l
    rw [List.modify_modify_eq]
    congr 1
    funext v
    simp only [Function.comp, saturate]
    omega
  have swap : ∀ (x y : Nat) (l : List Nat), (l.modify Tally.holdCuts.slot (saturate x)).modify Tally.overtaken.slot (saturate y) =
      (l.modify Tally.overtaken.slot (saturate y)).modify Tally.holdCuts.slot (saturate x) := by
    intro x y l
    exact List.modify_modify_ne _ _ _ (by decide)
  by_cases ha : a = 0 <;> by_cases hb : b = 0 <;> by_cases hk : k = 0 <;> by_cases hl : l = 0 <;>
    simp only [ha, hb, hk, hl, if_true, if_false, Nat.add_zero, Nat.zero_add, Nat.add_eq_zero_iff, and_false, cb] at h ⊢ <;>
    simp only [h, two, swap]

/-- What a run of cuts of different slots tells: one HOLD_CUT count for each slot pinned, one OVERTAKEN count for each block lost, and the
notices of both. -/
theorem SlotsCut.told {ns : List Nat} {s t : State} (h : SlotsCut ns s t) (nd : ns.Nodup) : ∃ lost n : Nat,
    n = (ns.filter fun i => (s.intake.dir[i]?).any fun e => decide (0 < e.pins)).length ∧
    t.status.pending = s.status.pending ||| (if lost = 0 then 0 else Notice.blockLost.bit) ||| (if n = 0 then 0 else Notice.holdCut.bit) ∧
    t.tallies = (if n = 0 then (if lost = 0 then s else s.countBy .overtaken lost)
      else (if lost = 0 then s else s.countBy .overtaken lost).countBy .holdCuts n).tallies := by
  induction h with
  | none => exact ⟨0, 0, rfl, by simp, rfl⟩
  | @cut i ns s m t c _ ih =>
    rw [List.nodup_cons] at nd
    obtain ⟨lost, n, hn, hp, ht⟩ := ih nd.2
    by_cases z : ∃ e, s.intake.dir[i]? = some e ∧ e.pins ≠ 0
    · obtain ⟨e, he, hz⟩ := z
      obtain ⟨l, a, -, p, q, -⟩ := c.pinned e he hz
      refine ⟨l.length + lost, 1 + n, ?_, ?_, ?_⟩
      · rw [List.filter_cons, he, if_pos (by simp; omega), List.length_cons, hn, Nat.add_comm]
        congr 2
        apply List.filter_congr
        intro j hj
        have : m.intake.dir[j]? = s.intake.dir[j]? := by
          rw [a]; exact List.getElem?_set_ne (fun k => nd.1 (by rw [k]; exact hj))
        rw [this]
      · rw [hp, p]
        generalize Notice.blockLost.bit = x
        generalize Notice.holdCut.bit = y
        generalize s.status.pending = z
        ext i hi
        cases l <;> by_cases h1 : lost = 0 <;> by_cases h2 : n = 0 <;>
          simp only [h1, h2, List.length_nil, List.length_cons, BitVec.getElem_or, if_true, if_false, reduceCtorEq, Nat.add_zero, Nat.zero_add,
            Nat.add_eq_zero_iff, Nat.one_ne_zero, and_false, BitVec.ofNat_eq_ofNat, BitVec.getElem_zero, Bool.or_false] <;>
          cases x[i] <;> cases y[i] <;> cases z[i] <;> rfl
      · rw [ht]
        refine (countBy_told l.length 1 lost n s m ?_)
        rw [q]
        cases l <;> simp
    · have e : m = s := c.unpinned fun e he => by
        by_contra k; exact z ⟨e, he, k⟩
      subst e
      refine ⟨lost, n, ?_, hp, ht⟩
      rw [List.filter_cons, if_neg, hn]
      intro k
      cases he : m.intake.dir[i]? with
      | none => rw [he] at k; simp at k
      | some e => rw [he] at k; simp at k; exact z ⟨e, he, by omega⟩

/-- The slots of the directory that satisfy a test, counted by their places. -/
theorem filter_range_length {α : Type} (l : List α) (p : α → Bool) :
    ((List.range l.length).filter fun i => (l[i]?).any p).length = (l.filter p).length := by
  induction l with
  | nil => rfl
  | cons x l ih =>
    rw [List.length_cons, List.range_succ_eq_map, List.filter_cons, List.filter_cons, List.filter_map, List.getElem?_cons_zero]
    have : ((fun i => ((x :: l)[i]?).any p) ∘ Nat.succ) = fun i => (l[i]?).any p := by
      funext i; simp
    rw [this]
    cases h : p x <;> simp [h, ih]

end Sys2Proof.Machine
end

