-- ==== Sys2Proof/Laws/Stopping.lean ====
section
/-! SUPPORT. What the copy queue, a close and STOP leave of an event and of the plan in its slot (R96 to R100, R105, R110, R111). -/
-- One lemma after another: elaborated side by side, the package as one text would need too many threads.
set_option Elab.async false
namespace Sys2Proof.Machine

/-- The events held, with their slots, are those of the table. -/
theorem heldEvents_iff {i n : Nat} {e : Event} {l : List (Option Event)} :
    (n, e) ∈ heldEvents i l ↔ ∃ j, n = i + j ∧ l[j]? = some (some e) := by
  refine ⟨fun h => ?_, fun ⟨j, hn, h⟩ => hn ▸ mem_heldEvents h⟩
  induction l generalizing i with
  | nil => cases h
  | cons x l ih =>
    cases x with
    | none =>
      obtain ⟨j, hn, hj⟩ := ih (i := i + 1) h
      exact ⟨j + 1, by omega, hj⟩
    | some v =>
      rcases List.mem_cons.1 h with r | r
      · simp only [Prod.mk.injEq] at r
        exact ⟨0, by omega, by rw [r.2]; rfl⟩
      · obtain ⟨j, hn, hj⟩ := ih r
        exact ⟨j + 1, by omega, hj⟩

theorem State.findEvent_some {ev n : Nat} {e : Event} {s : State} (h : s.findEvent ev = some (n, e)) :
    s.assoc.events[n]? = some (some e) ∧ e.number = ev := by
  unfold State.findEvent at h
  obtain ⟨j, hn, hj⟩ := heldEvents_iff.1 (List.mem_of_find?_eq_some h)
  rw [Nat.zero_add] at hn
  exact ⟨hn ▸ hj, by simpa using List.find?_some h⟩

/-- From `s` to `t` the event in slot `i`, when no record of its number is outstanding, stands but for what the Clip Unit fills in; no
event and no plan enters the slot; and a plan that stands there keeps its event, and its tail deadline or none. -/
structure Stands (i : Nat) (s t : State) : Prop where
  nums : ∀ n ∈ t.report.numbers, n ∈ s.report.numbers
  event : ∀ e : Event, s.assoc.events[i]? = some (some e) → e.number ∉ s.report.numbers →
    ∃ e' : Event, t.assoc.events[i]? = some (some e') ∧ e' = { e with clipFlags := e'.clipFlags, clipUnits := e'.clipUnits }
  noEvent : (∀ e : Event, s.assoc.events[i]? ≠ some (some e)) → ∀ e : Event, t.assoc.events[i]? ≠ some (some e)
  plan : ∀ p' : Plan, t.clip.plans[i]? = some (some p') → ∃ p : Plan, s.clip.plans[i]? = some (some p) ∧
    (p'.tail = p.tail ∨ p'.tail = none) ∧ p'.event = p.event
  planStays : ∀ (e : Event) (p : Plan), s.assoc.events[i]? = some (some e) → e.number ∉ s.report.numbers →
    s.clip.plans[i]? = some (some p) → ∃ p' : Plan, t.clip.plans[i]? = some (some p')
  size : t.clip.plans.length = s.clip.plans.length
  sent : t.wires.toAssoc = s.wires.toAssoc

theorem Stands.refl (i : Nat) (s : State) : Stands i s s :=
  ⟨fun _ h => h, fun e h _ => ⟨e, h, rfl⟩, fun h => h, fun p h => ⟨p, h, .inl rfl, rfl⟩, fun _ p _ _ h => ⟨p, h⟩, rfl, rfl⟩

theorem Stands.trans {i : Nat} {s t u : State} (h : Stands i s t) (k : Stands i t u) : Stands i s u where
  nums n m := h.nums n (k.nums n m)
  event e he hn := by
    obtain ⟨e', h1, h2⟩ := h.event e he hn
    have hn' : e'.number = e.number := by rw [h2]
    obtain ⟨e'', k1, k2⟩ := k.event e' h1 (by rw [hn']; exact fun c => hn (h.nums _ c))
    exact ⟨e'', k1, by rw [k2, h2]⟩
  noEvent q := k.noEvent (h.noEvent q)
  plan p hp := by
    obtain ⟨q, k1, k2, k3⟩ := k.plan p hp
    obtain ⟨r, h1, h2, h3⟩ := h.plan q k1
    exact ⟨r, h1, k2.elim (fun c => h2.elim (fun d => .inl (c.trans d)) fun d => .inr (c.trans d)) .inr, k3.trans h3⟩
  planStays e p he hn hp := by
    obtain ⟨e', h1, h2⟩ := h.event e he hn
    obtain ⟨q, hq⟩ := h.planStays e p he hn hp
    have hn' : e'.number = e.number := by rw [h2]
    exact k.planStays e' q h1 (by rw [hn']; exact fun c => hn (h.nums _ c)) hq
  size := k.size.trans h.size
  sent := k.sent.trans h.sent

/-- The event and the plan of slot `i` stand, and so does what the Clip Unit knows of STOP. -/
structure Steady (i : Nat) (s t : State) : Prop extends Stands i s t where
  unit : t.clip.draining = s.clip.draining ∧ t.wires.clipStop = s.wires.clipStop

theorem Steady.refl (i : Nat) (s : State) : Steady i s s := ⟨Stands.refl i s, rfl, rfl⟩

theorem Steady.trans {i : Nat} {s t u : State} (h : Steady i s t) (k : Steady i t u) : Steady i s u :=
  ⟨h.toStands.trans k.toStands, k.unit.1.trans h.unit.1, k.unit.2.trans h.unit.2⟩

/-- What leaves the event table, the plans and the outstanding numbers as they stand. -/
theorem Stands.same {i : Nat} {s t : State} (a : t.assoc.events = s.assoc.events) (c : t.clip.plans = s.clip.plans)
    (r : t.report.numbers = s.report.numbers) (w : t.wires.toAssoc = s.wires.toAssoc := by rfl) : Stands i s t :=
  ⟨fun n m => by rwa [r] at m, fun e he _ => ⟨e, by rw [a]; exact he, rfl⟩, fun q e => by rw [a]; exact q e,
    fun p hp => ⟨p, by rwa [c] at hp, .inl rfl, rfl⟩, fun _ p _ _ hp => ⟨p, by rw [c]; exact hp⟩, by rw [c], w⟩

theorem Steady.same {i : Nat} {s₀ s t : State} (h : Steady i s₀ s) (a : t.assoc.events = s.assoc.events) (c : t.clip.plans = s.clip.plans)
    (r : t.report.numbers = s.report.numbers)
    (u : t.clip.draining = s.clip.draining ∧ t.wires.clipStop = s.wires.clipStop := by exact ⟨rfl, rfl⟩)
    (w : t.wires.toAssoc = s.wires.toAssoc := by rfl) : Steady i s₀ t := h.trans ⟨Stands.same a c r w, u⟩

theorem Steady.frame {i : Nat} {l : List Area} {s₀ s t : State} (k : Frame l s t)
    (n : Area.assoc ∉ l ∧ Area.clip ∉ l ∧ Area.report ∉ l ∧ Area.wires ∉ l)
    (h : Steady i s₀ s) : Steady i s₀ t :=
  h.same (by rw [show t.assoc = s.assoc from k .assoc n.1]) (by rw [show t.clip = s.clip from k .clip n.2.1])
    (by rw [show t.report = s.report from k .report n.2.2.1])
    (by rw [show t.clip = s.clip from k .clip n.2.1, show t.wires = s.wires from k .wires n.2.2.2]; exact ⟨rfl, rfl⟩)
    (by rw [show t.wires = s.wires from k .wires n.2.2.2])

/-- A change of one event that touches only what the Clip Unit fills in. -/
theorem State.setEvent_steady {i : Nat} (slot : Nat) (f : Event → Event)
    (hf : ∀ e, f e = { e with clipFlags := (f e).clipFlags, clipUnits := (f e).clipUnits }) {s₀ s : State} (h : Steady i s₀ s) :
    Steady i s₀ (s.setEvent slot f) := by
  have at' : (s.setEvent slot f).assoc.events[i]? = if slot = i then (s.assoc.events[i]?).map (·.map f) else s.assoc.events[i]? := by
    show (s.assoc.events.modify slot (·.map f))[i]? = _
    rw [List.getElem?_modify]
    split <;> simp
  refine h.trans ⟨⟨fun n m => m, fun e he _ => ?_, fun q e c => ?_, fun p hp => ⟨p, hp, .inl rfl, rfl⟩, fun _ p _ _ hp => ⟨p, hp⟩, rfl, rfl⟩, rfl, rfl⟩
  · rw [at', he]
    split
    · exact ⟨f e, rfl, hf e⟩
    · exact ⟨e, rfl, rfl⟩
  · rw [at'] at c
    split at c
    · cases hx : s.assoc.events[i]? with
      | none => rw [hx] at c; cases c
      | some x =>
        rw [hx] at c
        cases x with
        | none => cases c
        | some v => exact q v hx
    · exact q e c

/-- A change of one plan that keeps its event, and its tail deadline or none. -/
theorem State.setPlan_steady {i : Nat} (slot : Nat) (f : Plan → Plan) (hf : ∀ p, ((f p).tail = p.tail ∨ (f p).tail = none) ∧ (f p).event = p.event)
    {s₀ s : State} (h : Steady i s₀ s) : Steady i s₀ (s.setPlan slot f) := by
  have at' : (s.setPlan slot f).clip.plans[i]? = if slot = i then (s.clip.plans[i]?).map (·.map f) else s.clip.plans[i]? := by
    show (s.clip.plans.modify slot (·.map f))[i]? = _
    rw [List.getElem?_modify]
    split <;> simp
  refine h.trans ⟨⟨fun n m => m, fun e he _ => ⟨e, he, rfl⟩, fun q => q, fun p hp => ?_, fun _ p _ _ hp => ?_, List.length_modify .., rfl⟩, rfl, rfl⟩
  · rw [at'] at hp
    split at hp
    · cases hx : s.clip.plans[i]? with
      | none => rw [hx] at hp; cases hp
      | some x =>
        rw [hx] at hp
        cases x with
        | none => cases hp
        | some v =>
          simp only [Option.map_some, Option.some.injEq] at hp
          subst hp
          exact ⟨v, rfl, (hf v).1, (hf v).2⟩
    · exact ⟨p, hp, .inl rfl, rfl⟩
  · rw [at', hp]
    split
    · exact ⟨f p, rfl⟩
    · exact ⟨p, rfl⟩

theorem State.askPins_steady {i : Nat} (ms : List PinMsg) {s₀ s : State} (h : Steady i s₀ s) : Steady i s₀ (s.askPins ms) :=
  h.same rfl rfl rfl

theorem State.askState_steady {i : Nat} (ev : Nat) (t : EventState) {s₀ s : State} (h : Steady i s₀ s) :
    Steady i s₀ (s.askState ev t) := h.same rfl rfl rfl

theorem State.setCopier_steady {i : Nat} (x : Copier) {s₀ s : State} (h : Steady i s₀ s) : Steady i s₀ (s.setCopier x) :=
  h.same rfl rfl rfl

theorem State.askRewrite_steady {i : Nat} {s₀ s : State} (h : Steady i s₀ s) : Steady i s₀ s.askRewrite := h.same rfl rfl rfl

theorem State.raise_steady {i : Nat} (n : Notice) {s₀ s : State} (h : Steady i s₀ s) : Steady i s₀ (s.raise n) :=
  h.frame (State.raise_frame n (Frame.refl [.notices, .writer] s) (by decide)) (by decide)

theorem State.count_steady {i : Nat} (t : Tally) {s₀ s : State} (h : Steady i s₀ s) : Steady i s₀ (s.count t) := h.same rfl rfl rfl

/-- A change of the Clip Unit that keeps the plans. -/
theorem State.setClip_steady {i : Nat} (f : Clip → Clip) (hf : ∀ c, (f c).plans = c.plans ∧ (f c).draining = c.draining) {s₀ s : State} (h : Steady i s₀ s) :
    Steady i s₀ (s.setClip f) := h.same rfl (hf _).1 rfl ⟨(hf _).2, rfl⟩

theorem State.announceRange_steady {i : Nat} (first n : Nat) {s₀ s : State} (h : Steady i s₀ s) :
    Steady i s₀ (s.announceRange first n) := h.same rfl rfl rfl

theorem State.setPointers_steady {i : Nat} (a f : Nat) {s₀ s : State} (h : Steady i s₀ s) : Steady i s₀ (s.setPointers a f) := by
  unfold State.setPointers
  split
  · exact h
  · exact h.same rfl rfl rfl

theorem State.setPointers_plans (a f : Nat) (s : State) : (s.setPointers a f).clip.plans = s.clip.plans := by
  unfold State.setPointers
  split <;> rfl

/-- Requests applied to an event of one number leave the others. -/
theorem State.applyRequest_other {ev : Nat} {t : EventState} {s : State} {i : Nat} {e : Event} (he : s.assoc.events[i]? = some (some e))
    (hn : e.number ≠ ev) : (s.applyRequest ev t).assoc.events[i]? = some (some e) := by
  unfold State.applyRequest
  split
  next slot x hx =>
    split
    · show (s.assoc.events.modify slot _)[i]? = _
      rw [List.getElem?_modify, he]
      split
      next c =>
        subst c
        obtain ⟨h1, h2⟩ := State.findEvent_some hx
        rw [he] at h1
        simp only [Option.some.injEq] at h1
        exact absurd (h1 ▸ h2) hn
      · rfl
    · exact he
  · exact he

theorem State.applyRequest_none {ev : Nat} {t : EventState} {s : State} {i : Nat} (q : ∀ e, s.assoc.events[i]? ≠ some (some e)) :
    ∀ e, (s.applyRequest ev t).assoc.events[i]? ≠ some (some e) := by
  intro e c
  unfold State.applyRequest at c
  split at c
  · split at c
    · have c : (s.assoc.events.modify _ _)[i]? = some (some e) := c
      rw [List.getElem?_modify] at c
      cases hx : s.assoc.events[i]? with
      | none => rw [hx] at c; cases c
      | some x =>
        cases x with
        | none => rw [hx] at c; split at c <;> cases c
        | some v => exact q v hx
    · exact q e c
  · exact q e c

/-- What no turn of a fold changes, the fold does not change. -/
theorem foldl_same {α β : Type} {f : State → α → State} {g : State → β} (h : ∀ t a, g (f t a) = g t) (l : List α) (s : State) :
    g (l.foldl f s) = g s := by
  induction l generalizing s with
  | nil => rfl
  | cons a l ih => rw [List.foldl_cons, ih, h]

/-- The oldest record freed: another event than its own, and the plan of that event, stand (R143). -/
theorem State.freeRecord_steady {i : Nat} {s₀ s : State} (h : Steady i s₀ s) : Steady i s₀ s.freeRecord := by
  refine h.trans ?_
  unfold State.freeRecord
  split
  next ev rest hnums =>
    generalize hf : s.flushRequests ev = f
    have fl : Frame [.assoc, .wires] s f := hf ▸ State.flushRequests_frame ev (Frame.refl _ s) (by decide)
    have fe : ∀ e : Event, s.assoc.events[i]? = some (some e) → e.number ≠ ev → f.assoc.events[i]? = some (some e) := by
      intro e he hn
      rw [← hf]
      unfold State.flushRequests
      dsimp only
      generalize hl : (s.wires.stateRequests.filter fun m => m.1 == ev) = l
      generalize hs : (s.setWires fun w => { w with stateRequests := w.stateRequests.filter fun m => m.1 != ev }) = s1
      have h1 : s1.assoc.events[i]? = some (some e) := by rw [← hs]; exact he
      clear hl hs
      induction l generalizing s1 with
      | nil => exact h1
      | cons m l ih => exact ih _ (State.applyRequest_other h1 hn)
    have fn : (∀ e, s.assoc.events[i]? ≠ some (some e)) → ∀ e, f.assoc.events[i]? ≠ some (some e) := by
      intro q
      rw [← hf]
      unfold State.flushRequests
      dsimp only
      generalize hl : (s.wires.stateRequests.filter fun m => m.1 == ev) = l
      generalize hs : (s.setWires fun w => { w with stateRequests := w.stateRequests.filter fun m => m.1 != ev }) = s1
      have h1 : ∀ e, s1.assoc.events[i]? ≠ some (some e) := by rw [← hs]; exact q
      clear hl hs
      induction l generalizing s1 with
      | nil => exact h1
      | cons m l ih => exact ih _ (State.applyRequest_none h1)
    have fc : f.clip = s.clip := fl .clip (by decide)
    have fw : f.wires.clipStop = s.wires.clipStop ∧ f.wires.toAssoc = s.wires.toAssoc := by
      rw [← hf]
      unfold State.flushRequests
      dsimp only
      refine Prod.mk.inj ((foldl_same (g := fun x : State => (x.wires.clipStop, x.wires.toAssoc)) (fun t m => ?_) _ _).trans rfl)
      unfold State.applyRequest
      repeat' split
      all_goals rfl
    dsimp only
    have key : ∀ g : State, (∀ e : Event, s.assoc.events[i]? = some (some e) → e.number ≠ ev → g.assoc.events[i]? = some (some e)) →
        ((∀ e, s.assoc.events[i]? ≠ some (some e)) → ∀ e, g.assoc.events[i]? ≠ some (some e)) →
        (∀ p, g.clip.plans[i]? = some (some p) → s.clip.plans[i]? = some (some p)) →
        (∀ (e : Event) (p : Plan), s.assoc.events[i]? = some (some e) → e.number ≠ ev → s.clip.plans[i]? = some (some p) →
          g.clip.plans[i]? = some (some p)) →
        (g.clip.plans.length = s.clip.plans.length ∧ g.clip.draining = s.clip.draining ∧ g.wires.clipStop = s.wires.clipStop ∧
          g.wires.toAssoc = s.wires.toAssoc) →
        Steady i s ((g.setReport fun r => { r with numbers := rest, get := (r.get + 1) % s.gen.reportCap, occupancy := r.occupancy - 1 }).askRewrite) := by
      intro g g1 g2 g3 g4 g5
      refine ⟨⟨fun n m => ?_, fun e he hn => ⟨e, g1 e he ?_, rfl⟩, fun q => g2 q, fun p hp => ⟨p, g3 p hp, .inl rfl, rfl⟩,
        fun e p he hn hp => ⟨p, g4 e p he ?_ hp⟩, g5.1, g5.2.2.2⟩, g5.2.1, g5.2.2.1⟩
      · rw [hnums]; exact List.mem_cons_of_mem _ m
      · intro c; exact hn (by rw [hnums, c]; exact List.mem_cons_self ..)
      · intro c; exact hn (by rw [hnums, c]; exact List.mem_cons_self ..)
    split
    next slot x hx =>
      obtain ⟨x1, x2⟩ := State.findEvent_some hx
      have ne : ∀ e : Event, s.assoc.events[i]? = some (some e) → e.number ≠ ev → slot ≠ i := by
        intro e he hn c
        have := fe e he hn
        rw [← c, x1] at this
        simp only [Option.some.injEq] at this
        exact hn (this ▸ x2)
      have dA : ((f.freeEvent slot).dropPlan slot).assoc.events = f.assoc.events.set slot none := by
        have := State.dropPlan_frame slot (Frame.refl [.clip, .writer] (f.freeEvent slot)) (by decide) .assoc (by decide)
        rw [show ((f.freeEvent slot).dropPlan slot).assoc = (f.freeEvent slot).assoc from this]
        rfl
      have dC : ((f.freeEvent slot).dropPlan slot).clip.plans = f.clip.plans.set slot none := by
        have fr : ∀ (r : Region) (y : State), (y.freeRegion r).clip.plans = y.clip.plans := by
          intro r y
          unfold State.freeRegion
          dsimp only
          repeat' split
          all_goals (rw [State.setPointers_plans]; rfl)
        unfold State.dropPlan
        dsimp only
        split
        · split
          · rw [fr]; rfl
          · rfl
        · rfl
        · rfl
      have dU : ((f.freeEvent slot).dropPlan slot).clip.draining = f.clip.draining ∧
          ((f.freeEvent slot).dropPlan slot).wires = f.wires := by
        refine ⟨?_, State.dropPlan_frame slot (Frame.refl [.clip, .writer] (f.freeEvent slot)) (by decide) .wires (by decide)⟩
        have fr : ∀ (r : Region) (y : State), (y.freeRegion r).clip.draining = y.clip.draining := by
          intro r y
          unfold State.freeRegion State.setPointers
          dsimp only
          repeat' split
          all_goals rfl
        unfold State.dropPlan
        dsimp only
        split
        · split
          · rw [fr]; rfl
          · rfl
        · rfl
        · rfl
      refine key _ (fun e he hn => ?_) (fun q e c => ?_) (fun p hp => ?_) (fun e p he hn hp => ?_)
        ⟨by rw [dC, fc, List.length_set], by rw [dU.1, fc], by rw [dU.2]; exact fw⟩
      · rw [dA, List.getElem?_set_ne (ne e he hn)]
        exact fe e he hn
      · rw [dA, List.getElem?_set] at c
        split at c
        · split at c <;> cases c
        · exact fn q e c
      · rw [dC, List.getElem?_set] at hp
        split at hp
        · split at hp <;> cases hp
        · rwa [fc] at hp
      · rw [dC, List.getElem?_set_ne (ne e he hn), fc]
        exact hp
    · exact key f fe fn (fun p hp => by rwa [fc] at hp) (fun e p _ _ hp => by rwa [fc]) ⟨by rw [fc], by rw [fc], fw⟩
  · exact Steady.refl i s

theorem State.reclaimOldest_steady {i : Nat} {s₀ s : State} (h : Steady i s₀ s) : Steady i s₀ s.reclaimOldest :=
  State.raise_steady _ (State.count_steady _ (State.freeRecord_steady h))

theorem State.takeFront_steady {i : Nat} {s₀ s : State} (h : Steady i s₀ s) : Steady i s₀ s.takeFront := by
  unfold State.takeFront
  split
  · split
    · exact h.same rfl rfl rfl
    · exact h.same rfl rfl rfl
  · exact h

theorem State.lookWith_steady {i : Nat} (freed : State → State) {s₀ : State} (k : ∀ t, Steady i s₀ t → Steady i s₀ (freed t)) {s : State}
    (h : Steady i s₀ s) : Steady i s₀ (s.lookWith freed) := by
  unfold State.lookWith
  split
  · split
    · exact State.takeFront_steady h
    · split
      · dsimp only
        split
        · exact State.takeFront_steady (k _ (State.reclaimOldest_steady h))
        · exact k _ (State.reclaimOldest_steady h)
      · exact State.raise_steady _ h
  · exact h

theorem State.joinReport_steady {i : Nat} (ev : Nat) {s₀ s : State} (h : Steady i s₀ s) : Steady i s₀ (s.joinReport ev) := by
  unfold State.joinReport
  dsimp only
  split
  · exact State.lookWith_steady _ (fun _ k => k) (h.same rfl rfl rfl)
  · exact h.same rfl rfl rfl

theorem State.endForLack_steady {i : Nat} (slot : Nat) (p : Plan) {s₀ s : State} (h : Steady i s₀ s) :
    Steady i s₀ (s.endForLack slot p) := by
  unfold State.endForLack
  dsimp only
  refine State.joinReport_steady _ (State.askState_steady _ _ (State.askState_steady _ _ (State.setCopier_steady _ (State.count_steady _
    (State.raise_steady _ (State.setEvent_steady _ _ (fun e => rfl) (State.setPlan_steady _ Plan.withoutSpace (fun p => ⟨.inl rfl, rfl⟩)
      (State.askPins_steady _ h))))))))

theorem State.comeTo_steady {i : Nat} (slot k : Nat) {s₀ s : State} (h : Steady i s₀ s) : Steady i s₀ (s.comeTo slot k) := by
  have c : (s.comeTo slot k).assoc = s.assoc ∧ (s.comeTo slot k).clip.plans = s.clip.plans ∧ (s.comeTo slot k).report = s.report ∧
      (s.comeTo slot k).clip.draining = s.clip.draining ∧ (s.comeTo slot k).wires = s.wires := by
    unfold State.comeTo
    split
    · split
      · split <;> exact ⟨rfl, rfl, rfl, rfl, rfl⟩
      · unfold State.enterDirectory
        split
        · split <;> exact ⟨rfl, rfl, rfl, rfl, rfl⟩
        · exact ⟨rfl, rfl, rfl, rfl, rfl⟩
    · exact ⟨rfl, rfl, rfl, rfl, rfl⟩
  exact h.same (by rw [c.1]) c.2.1 (by rw [c.2.2.1]) ⟨c.2.2.2.1, by rw [c.2.2.2.2]⟩ (by rw [c.2.2.2.2])

theorem State.takeRegion_steady {i : Nat} (slot : Nat) (p : Plan) (r : Region) {s₀ s : State} (h : Steady i s₀ s) :
    Steady i s₀ (s.takeRegion slot p r) := by
  unfold State.takeRegion
  dsimp only
  refine State.comeTo_steady _ _ (State.announceRange_steady _ _ (State.askState_steady _ _ (State.setPointers_steady _ _
    (State.setClip_steady _ ?_ (State.setEvent_steady _ _ ?_ (State.setPlan_steady _ _ ?_ h))))))
  · exact fun _ => ⟨rfl, rfl⟩
  · exact fun _ => rfl
  · exact fun _ => ⟨.inl rfl, rfl⟩

theorem State.allocate_steady {i : Nat} (slot : Nat) {s₀ s : State} (h : Steady i s₀ s) : Steady i s₀ (s.allocate slot) := by
  unfold State.allocate
  split
  · dsimp only
    split
    · exact State.endForLack_steady _ _ h
    · split
      · exact State.takeRegion_steady _ _ _ h
      · split
        · exact (State.setCopier_steady _ h).same rfl rfl rfl
        · exact State.endForLack_steady _ _ h
  · exact State.setCopier_steady _ h

theorem State.runQueue_steady {i : Nat} (n : Nat) {s₀ s : State} (h : Steady i s₀ s) : Steady i s₀ (s.runQueue n) := by
  induction n generalizing s with
  | zero => exact h
  | succ n ih =>
    unfold State.runQueue
    split
    · dsimp only
      split
      · exact ih (State.allocate_steady _ (h.same rfl rfl rfl))
      · exact ih (h.same rfl rfl rfl)
    · exact h

theorem State.enqueue_steady {i : Nat} (ev : Nat) {s₀ s : State} (h : Steady i s₀ s) : Steady i s₀ (s.enqueue ev) :=
  State.runQueue_steady _ (h.same rfl rfl rfl)

/-- The plan of a slot whose waits are given up has no tail deadline (R109, R110). -/
theorem State.giveUpTails_steady {i : Nat} (slot : Nat) (p : Plan) {s₀ s : State} (h : Steady i s₀ s) :
    Steady i s₀ (s.giveUpTails slot p) ∧ (i = slot → ∀ q, (s.giveUpTails slot p).clip.plans[i]? = some (some q) → q.tail = none) := by
  unfold State.giveUpTails State.endWait
  generalize hx : (s.setPlan slot fun q => { q with clips := q.clips.map (StationClip.giveUp q.winStart) }) = x
  have k : Steady i s₀ x := by
    subst hx
    refine State.setPlan_steady _ _ ?_ h
    exact fun _ => ⟨.inl rfl, rfl⟩
  generalize hy : (x.setPlan slot fun q => { q with tail := none }) = y
  have m : Steady i s₀ y := by
    subst hy
    refine State.setPlan_steady _ _ ?_ k
    exact fun _ => ⟨.inr rfl, rfl⟩
  have j : ∀ {s₁}, Steady i s₁ y → Steady i s₁ ((y.askState p.event .copyQueued).enqueue p.event) := fun k =>
    State.enqueue_steady _ (State.askState_steady _ _ k)
  refine ⟨j m, fun c q hq => ?_⟩
  subst c
  obtain ⟨z, hz, ht, -⟩ := (j (Steady.refl i y)).plan q hq
  have zn : z.tail = none := by
    rw [← hy] at hz
    have hz : (x.clip.plans.modify i (·.map fun q => { q with tail := none }))[i]? = some (some z) := hz
    rw [List.getElem?_modify_eq] at hz
    cases hv : x.clip.plans[i]? with
    | none => rw [hv] at hz; cases hz
    | some v =>
      rw [hv] at hz
      cases v with
      | none => cases hz
      | some w =>
        simp only [Option.map_eq_map, Option.map_some, Option.some.injEq] at hz
        rw [← hz]
  rcases ht with c | c
  · rw [c, zn]
  · exact c

/-- The Clip Unit has taken STOP: no plan with an event has a tail deadline, or the slot has no event (R110). -/
theorem State.clipTakesStop_stands (i : Nat) (s : State) :
    Stands i s s.clipTakesStop ∧ s.clipTakesStop.clip.draining = true ∧ ((∀ q, s.clipTakesStop.clip.plans[i]? = some (some q) → q.tail = none) ∨
      ∀ e, s.clipTakesStop.assoc.events[i]? ≠ some (some e)) := by
  unfold State.clipTakesStop
  dsimp only
  generalize hx : ((s.setClip fun c => { c with draining := true }).setWires fun w => { w with clipStop := false }) = x
  have k : Stands i s x := Stands.same (by rw [← hx]; rfl) (by rw [← hx]; rfl) (by rw [← hx]; rfl) (by rw [← hx]; rfl)
  have fold : ∀ (l : List (Nat × Plan)) {s₁ y : State}, Steady i s₁ y →
      Steady i s₁ (l.foldl (fun t q => t.giveUpTails q.1 q.2) y) := by
    intro l
    induction l with
    | nil => intro _ _ q; exact q
    | cons a l ih => intro _ _ q; exact ih (State.giveUpTails_steady a.1 a.2 q).1
  refine ⟨k.trans (fold _ (Steady.refl i x)).toStands, by rw [(fold _ (Steady.refl i x)).unit.1, ← hx]; rfl, ?_⟩
  by_cases ev : ∃ e, x.assoc.events[i]? = some (some e)
  · left
    obtain ⟨e, he⟩ := ev
    by_cases pl : ∃ p, x.clip.plans[i]? = some (some p) ∧ p.tail ≠ none
    · obtain ⟨p, hp, ht⟩ := pl
      have m : (i, p) ∈ x.waitingPlans := by
        unfold State.waitingPlans State.eventsByNumber
        refine List.mem_filterMap.2 ⟨(i, e), (sortBy_perm _ _).mem_iff.2 ?_, ?_⟩
        · have := mem_heldEvents (i := 0) he
          rwa [Nat.zero_add] at this
        · have : p.tail.isSome := by
            cases hq : p.tail with
            | none => exact absurd hq ht
            | some _ => rfl
          simp [State.plan, hp, this]
      revert m
      generalize x.waitingPlans = l
      clear hx k
      induction l generalizing x with
      | nil => intro m; cases m
      | cons a l ih =>
        intro m q hq
        rw [List.foldl_cons] at hq
        by_cases c : a.1 = i
        · obtain ⟨z, hz, ht', -⟩ := (fold l (Steady.refl i (x.giveUpTails a.1 a.2))).plan q hq
          have zn := (State.giveUpTails_steady (i := i) a.1 a.2 (Steady.refl i x)).2 c.symm z hz
          rcases ht' with r | r
          · rw [r, zn]
          · exact r
        · rcases List.mem_cons.1 m with r | r
          · exact absurd (by rw [← r]) c
          · -- the slot is met later: whatever stands in between, its tail is given up there
            have later : ∀ (l : List (Nat × Plan)) (y : State), (i, p) ∈ l →
                ∀ q, (l.foldl (fun t q => t.giveUpTails q.1 q.2) y).clip.plans[i]? = some (some q) → q.tail = none := by
              intro l
              induction l with
              | nil => intro y m; cases m
              | cons b l ih2 =>
                intro y m q hq
                by_cases d : b.1 = i
                · obtain ⟨z, hz, ht', -⟩ := (fold l (Steady.refl i (y.giveUpTails b.1 b.2))).plan q hq
                  have zn := (State.giveUpTails_steady (i := i) b.1 b.2 (Steady.refl i y)).2 d.symm z hz
                  rcases ht' with r | r
                  · rw [r, zn]
                  · exact r
                · rcases List.mem_cons.1 m with r | r
                  · exact absurd (by rw [← r]) d
                  · exact ih2 _ r q hq
            exact later l _ r q hq
    · intro q hq
      obtain ⟨z, hz, ht, -⟩ := (fold x.waitingPlans (Steady.refl i x)).plan q hq
      have zn : z.tail = none := by
        by_contra c
        exact pl ⟨z, hz, c⟩
      rcases ht with r | r
      · rw [r, zn]
      · exact r
  · right
    exact (fold x.waitingPlans (Steady.refl i x)).noEvent fun e he => ev ⟨e, he⟩

/-! ### A close -/

theorem State.makePlan_draining {e : Event} {s : State} (h : s.clip.draining = true) : (s.makePlan e).tail = none := by
  have any : ∀ l : List Nat, ((l.map fun st => planStation (s.clip.draining || s.gen.tailWait == 0) (s.periodOf st)
      (e.anchor - s.gen.pre * 1000) (sampleTime (e.last + s.gen.post * 1000)) st (s.trail st)).any (·.awaiting)) = false := by
    intro l
    rw [List.any_eq_false]
    intro c hc
    obtain ⟨st, -, rfl⟩ := List.mem_map.1 hc
    rw [h, Bool.true_or]
    unfold planStation StationClip.complete StationClip.flag
    dsimp only
    simp only [Bool.not_true, Bool.and_false]
    split
    · simp
    · split
      · simp
      · split <;> simp
  unfold State.makePlan
  dsimp only
  rw [any]
  rfl

/-- The event in slot `i` has been closed with a reason: it waits for a tail or for the copier, and the plan in its slot is its own
(R98, R99, R105). -/
def ClosedIn (i : Nat) (e : Event) (r : CloseReason) (now plans : Nat) (t : State) : Prop :=
  ∃ e' : Event, t.assoc.events[i]? = some (some e') ∧ (e'.state = .waitingTail ∨ e'.state = .copyQueued) ∧
    e' = { e with
      closeDeadline := none, reason := some r, closedAt := some now, state := e'.state, clipFlags := e'.clipFlags
      clipUnits := e'.clipUnits } ∧
    (i < plans → ∃ p : Plan, t.clip.plans[i]? = some (some p) ∧ p.event = e.number)

theorem ClosedIn.number {i : Nat} {e : Event} {r : CloseReason} {now plans : Nat} {t : State} (h : ClosedIn i e r now plans t) :
    ∃ e' : Event, t.assoc.events[i]? = some (some e') ∧ e'.state ≠ .gathering := by
  obtain ⟨e', h1, h2, -⟩ := h
  exact ⟨e', h1, by rcases h2 with c | c <;> rw [c] <;> exact fun x => nomatch x⟩

/-- An event that has been closed stays so while it stands. -/
theorem ClosedIn.stands {i : Nat} {e : Event} {r : CloseReason} {now plans : Nat} {t u : State} (h : ClosedIn i e r now plans t)
    (k : Stands i t u) (n : e.number ∉ t.report.numbers) : ClosedIn i e r now plans u := by
  obtain ⟨e', h1, h2, h3, h4⟩ := h
  have hn : e'.number = e.number := by rw [h3]
  obtain ⟨e'', k1, k2⟩ := k.event e' h1 (by rwa [hn])
  have ks : e''.state = e'.state := by rw [k2]
  refine ⟨e'', k1, by rw [ks]; exact h2, by rw [k2, h3], fun hi => ?_⟩
  obtain ⟨p, hp, pe⟩ := h4 hi
  obtain ⟨q, hq⟩ := k.planStays e' p h1 (by rwa [hn]) hp
  obtain ⟨p', hp', -, pe'⟩ := k.plan q hq
  rw [hp] at hp'
  simp only [Option.some.injEq] at hp'
  exact ⟨q, hq, by rw [pe', ← hp', pe]⟩

/-- What a close does to its own slot and to the others (R98, R99, R105). -/
theorem State.closeEvent_stands (slot : Nat) (e : Event) (r : CloseReason) (s : State) :
    (∀ i, i ≠ slot → Steady i s (s.closeEvent slot e r)) ∧
      (∀ n ∈ (s.closeEvent slot e r).report.numbers, n ∈ s.report.numbers) ∧
      ((s.closeEvent slot e r).clip.plans.length = s.clip.plans.length ∧ (s.closeEvent slot e r).clip.draining = s.clip.draining ∧
        (s.closeEvent slot e r).wires.clipStop = s.wires.clipStop ∧ (s.closeEvent slot e r).wires.toAssoc = s.wires.toAssoc) ∧
      (s.assoc.events[slot]? = some (some e) → e.number ∉ s.report.numbers →
        ClosedIn slot e r s.now s.clip.plans.length (s.closeEvent slot e r)) ∧
      (s.clip.draining = true → ∀ p, (s.closeEvent slot e r).clip.plans[slot]? = some (some p) → p.tail = none) := by
  generalize hp : s.makePlan e = p
  generalize ha : (if p.tail.isSome then EventState.waitingTail else .copyQueued) = a
  generalize hy : ((s.setEvent slot fun x =>
      { x with closeDeadline := none, reason := some r, closedAt := some s.now, state := a }).setClip fun c =>
      { c with plans := c.plans.set slot (some p) }).askPins p.pins = y
  have out : ∀ {i : Nat} {s₁ : State}, Steady i s₁ y → Steady i s₁ (s.closeEvent slot e r) := by
    intro i s₁ k
    have : s.closeEvent slot e r = if p.tail.isSome then y else y.enqueue e.number := by
      unfold State.closeEvent
      dsimp only
      rw [hp, ha, hy]
    rw [this]
    split
    · exact k
    · exact State.enqueue_steady _ k
  have yA : y.assoc.events = s.assoc.events.modify slot (·.map fun x =>
      { x with closeDeadline := none, reason := some r, closedAt := some s.now, state := a }) := by rw [← hy]; rfl
  have yC : y.clip.plans = s.clip.plans.set slot (some p) := by rw [← hy]; rfl
  have yR : y.report = s.report := by rw [← hy]; rfl
  have yU : y.clip.draining = s.clip.draining ∧ y.wires.clipStop = s.wires.clipStop := by rw [← hy]; exact ⟨rfl, rfl⟩
  have yW : y.wires.toAssoc = s.wires.toAssoc := by rw [← hy]; rfl
  have pe : p.event = e.number := by rw [← hp]; rfl
  refine ⟨fun i hi => out ?_, fun n m => ?_, ?_, fun he hn => ?_, fun hd q hq => ?_⟩
  · have a1 : y.assoc.events[i]? = s.assoc.events[i]? := by
      rw [yA, List.getElem?_modify]
      simp [Ne.symm hi]
    have c1 : y.clip.plans[i]? = s.clip.plans[i]? := by rw [yC, List.getElem?_set_ne (Ne.symm hi)]
    exact ⟨⟨fun n m => by rwa [yR] at m, fun x hx _ => ⟨x, by rw [a1]; exact hx, rfl⟩, fun q => by rw [a1]; exact q,
      fun q hq => ⟨q, by rwa [c1] at hq, .inl rfl, rfl⟩, fun _ q _ _ hq => ⟨q, by rw [c1]; exact hq⟩, by rw [yC, List.length_set], yW⟩, yU⟩
  · have := (out (Steady.refl 0 y)).nums n m
    rwa [yR] at this
  · have := (out (Steady.refl 0 y)).unit
    exact ⟨(out (Steady.refl 0 y)).size.trans (by rw [yC, List.length_set]), this.1.trans yU.1, this.2.trans yU.2,
      (out (Steady.refl 0 y)).sent.trans yW⟩
  · refine ClosedIn.stands (t := y) ?_ (out (Steady.refl slot y)).toStands (by rwa [yR])
    refine ⟨_, by rw [yA, List.getElem?_modify_eq, he]; rfl, ?_, rfl, fun hi => ⟨p, by rw [yC, List.getElem?_set_self hi], pe⟩⟩
    show a = _ ∨ a = _
    rw [← ha]
    split
    · exact .inl rfl
    · exact .inr rfl
  · obtain ⟨z, hz, ht, -⟩ := (out (Steady.refl slot y)).plan q hq
    rw [yC, List.getElem?_set] at hz
    have zn : z.tail = none := by
      split at hz
      · split at hz
        · simp only [Option.some.injEq] at hz
          rw [← hz, ← hp]
          exact State.makePlan_draining hd
        · cases hz
      · exact absurd rfl ‹_›
    rcases ht with c | c
    · rw [c, zn]
    · exact c

/-! ### The closes of STOP -/

/-- What one close of STOP, and a run of them, does: the number and the time stand, what the Clip Unit knows of STOP stands, a slot that is
closed no more stands, and a slot in the list whose event is GATHERING is closed (R100). -/
structure Closes (slots : List Nat) (s t : State) : Prop where
  nums : ∀ n ∈ t.report.numbers, n ∈ s.report.numbers
  now : t.now = s.now
  unit : t.clip.draining = s.clip.draining ∧ t.wires.clipStop = s.wires.clipStop ∧ t.wires.toAssoc = s.wires.toAssoc
  plans : t.clip.plans.length = s.clip.plans.length
  fewer : Fewer s t
  other : ∀ i, (∀ e : Event, s.assoc.events[i]? = some (some e) → e.state ≠ .gathering) ∨ i ∉ slots → Stands i s t
  closed : ∀ (i : Nat) (e : Event), i ∈ slots → s.assoc.events[i]? = some (some e) → e.state = .gathering → e.number ∉ s.report.numbers →
    ClosedIn i e .stop s.now s.clip.plans.length t
  tails : s.clip.draining = true → ∀ i : Nat, (∀ p : Plan, s.clip.plans[i]? = some (some p) → p.tail = none) ∨
      (∀ e : Event, s.assoc.events[i]? ≠ some (some e)) →
    (∀ p : Plan, t.clip.plans[i]? = some (some p) → p.tail = none) ∨ ∀ e : Event, t.assoc.events[i]? ≠ some (some e)

theorem Closes.none (slots : List Nat) (s : State) (h : ∀ i ∈ slots, ∀ e : Event, s.assoc.events[i]? = some (some e) → e.state ≠ .gathering) :
    Closes slots s s :=
  ⟨fun _ h => h, rfl, ⟨rfl, rfl, rfl⟩, rfl, Fewer.refl s, fun i _ => Stands.refl i s, fun i e m he hg => absurd hg (h i m e he), fun _ _ h => h⟩

/-- One close. -/
theorem State.closeEvent_closes (slot : Nat) (e : Event) (s : State) (he : s.assoc.events[slot]? = some (some e)) (hg : e.state = .gathering) :
    Closes [slot] s (s.closeEvent slot e .stop) := by
  obtain ⟨h1, h2, h3, h4, h5⟩ := State.closeEvent_stands slot e .stop s
  refine ⟨h2, ?_, h3.2, h3.1, (State.closeEvent_fewer slot e .stop (Fewer.refl s)).1, fun i hi => ?_, fun i x m hx _ hn => ?_, fun hd i hi => ?_⟩
  · have := State.closeEvent_frame slot e .stop (Frame.refl [.assoc, .clip, .guard, .report, .notices, .writer, .tallies, .wires] s)
      (fun _ h => h)
    exact congrArg TimeBase.count (this .time (by decide))
  · rcases hi with c | c
    · by_cases d : i = slot
      · subst d
        exact absurd hg (c e he)
      · exact (h1 i d).toStands
    · exact (h1 i fun d => c (by rw [d]; exact List.mem_singleton_self _)).toStands
  · have d := List.mem_singleton.1 m
    subst d
    rw [he] at hx
    simp only [Option.some.injEq] at hx
    subst hx
    exact h4 he hn
  · by_cases d : i = slot
    · subst d
      exact .inl (h5 hd)
    · refine hi.imp (fun c p hp => ?_) fun c => (h1 i d).noEvent c
      obtain ⟨z, hz, ht, -⟩ := (h1 i d).plan p hp
      rcases ht with r | r
      · rw [r, c z hz]
      · exact r

theorem Closes.trans {a b : List Nat} {s t u : State} (h : Closes a s t) (k : Closes b t u) : Closes (a ++ b) s u where
  nums n m := h.nums n (k.nums n m)
  now := k.now.trans h.now
  unit := ⟨k.unit.1.trans h.unit.1, k.unit.2.1.trans h.unit.2.1, k.unit.2.2.trans h.unit.2.2⟩
  plans := k.plans.trans h.plans
  fewer := h.fewer.trans k.fewer
  other i hi := by
    rcases hi with c | c
    · refine (h.other i (.inl c)).trans (k.other i (.inl fun e he hg => ?_))
      obtain ⟨d, hd, hg'⟩ := h.fewer i e he hg
      exact c d hd hg'
    · exact (h.other i (.inr fun m => c (List.mem_append_left _ m))).trans (k.other i (.inr fun m => c (List.mem_append_right _ m)))
  closed i e m he hg hn := by
    by_cases c : i ∈ a
    · have x := h.closed i e c he hg hn
      obtain ⟨e', y1, y2⟩ := x.number
      refine x.stands (k.other i (.inl fun z hz => ?_)) fun q => hn (h.nums _ q)
      rw [y1] at hz
      simp only [Option.some.injEq] at hz
      rwa [← hz]
    · have hb : i ∈ b := (List.mem_append.1 m).resolve_left c
      have st := h.other i (.inr c)
      obtain ⟨e', h1, h2⟩ := st.event e he hn
      have e1 : e'.state = e.state := by rw [h2]
      have e2 : e'.number = e.number := by rw [h2]
      obtain ⟨z, z1, z2, z3, z4⟩ := k.closed i e' hb h1 (by rw [e1, hg]) (by rw [e2]; exact fun q => hn (h.nums _ q))
      refine ⟨z, z1, z2, ?_, fun hp => ?_⟩
      · rw [z3, h2, h.now]
      · obtain ⟨p, p1, p2⟩ := z4 (by rw [h.plans]; exact hp)
        exact ⟨p, p1, by rw [p2, e2]⟩
  tails hd i hi := k.tails (by rw [h.unit.1, hd]) i (h.tails hd i hi)

/-- The closes that STOP makes (R100). -/
theorem State.closeAtStop_closes (es : List (Nat × Event)) (s : State) : Closes (es.map (·.1)) s (s.closeAtStop es) := by
  induction es generalizing s with
  | nil => exact Closes.none _ _ fun _ h => (List.not_mem_nil h).elim
  | cons q es ih =>
    have one : Closes [q.1] s (s.closeAtStop [q]) := by
      unfold State.closeAtStop
      simp only [List.foldl_cons, List.foldl_nil]
      have no : (∀ e, s.assoc.events[q.1]? = some (some e) → e.state ≠ .gathering) → Closes [q.1] s s := fun c =>
        Closes.none _ _ fun i m e he => c e (by rwa [List.mem_singleton.1 m] at he)
      split
      next e he =>
        split
        next hg => exact State.closeEvent_closes _ e s he hg
        next hg =>
          refine no fun x hx => ?_
          rw [he] at hx
          simp only [Option.some.injEq] at hx
          rwa [← hx]
      next he => exact no fun x hx => absurd hx (by rw [he]; exact fun c => nomatch c)
      next he => exact no fun x hx => absurd hx (by rw [he]; exact fun c => nomatch c)
    exact one.trans (ih (s.closeAtStop [q]))

/-- A slot whose event is GATHERING is among those that STOP closes. -/
theorem State.mem_gatheringEvents {i : Nat} {e : Event} {s : State} (he : s.assoc.events[i]? = some (some e)) (hg : e.state = .gathering) :
    i ∈ s.gatheringEvents.map (·.1) := by
  refine List.mem_map.2 ⟨(i, e), List.mem_filter.2 ⟨(sortBy_perm _ _).mem_iff.2 ?_, by simp [hg]⟩, rfl⟩
  have := mem_heldEvents (i := 0) he
  rwa [Nat.zero_add] at this

/-- What STOP leaves of each event, wherever the Clip Unit takes it among the closes (R100, R110; log 8): an event that is not GATHERING stands,
one that is closes with reason STOP, and once the Clip Unit has taken STOP no plan with an event waits for a tail. -/
theorem State.stopEvents_closes (n : Nat) (s : State) :
    (s.stopEvents n).now = s.now ∧ (s.stopEvents n).wires.toAssoc = s.wires.toAssoc ∧ (∀ m ∈ (s.stopEvents n).report.numbers, m ∈ s.report.numbers) ∧
      (∀ (i : Nat) (e : Event), s.assoc.events[i]? = some (some e) → e.number ∉ s.report.numbers →
        (e.state ≠ .gathering → ∃ e' : Event, (s.stopEvents n).assoc.events[i]? = some (some e') ∧
          e' = { e with clipFlags := e'.clipFlags, clipUnits := e'.clipUnits }) ∧
        (e.state = .gathering → ClosedIn i e .stop s.now s.clip.plans.length (s.stopEvents n))) ∧
      ((s.stopEvents n).wires.clipStop = s.wires.clipStop ∧ (s.stopEvents n).clip.draining = s.clip.draining ∨
        (s.stopEvents n).clip.draining = true ∧ ∀ i : Nat,
          (∀ p : Plan, (s.stopEvents n).clip.plans[i]? = some (some p) → p.tail = none) ∨
            ∀ e : Event, (s.stopEvents n).assoc.events[i]? ≠ some (some e)) := by
  unfold State.stopEvents
  dsimp only
  split
  · generalize hk : s.gatheringEvents.take (Config.stopClosesBeforeClip n) = a
    generalize hl : s.gatheringEvents.drop (Config.stopClosesBeforeClip n) = b
    have ab : a ++ b = s.gatheringEvents := by rw [← hk, ← hl, List.take_append_drop]
    have ha := State.closeAtStop_closes a s
    generalize s.closeAtStop a = t at ha
    have hb := State.closeAtStop_closes b t.clipTakesStop
    have hc := fun i => State.clipTakesStop_stands i t
    have hf := State.clipTakesStop_fewer (Fewer.refl t)
    have hn : t.clipTakesStop.now = t.now := by
      have := State.clipTakesStop_frame (Frame.refl [.assoc, .clip, .guard, .report, .notices, .writer, .tallies, .wires] t) (by decide)
      exact congrArg TimeBase.count (this .time (by decide))
    generalize t.clipTakesStop = u at *
    generalize u.closeAtStop b = v at *
    have uv : ∀ m ∈ v.report.numbers, m ∈ t.report.numbers := fun m hm => (hc 0).1.nums m (hb.nums m hm)
    refine ⟨by rw [hb.now, hn, ha.now], by rw [hb.unit.2.2, (hc 0).1.sent, ha.unit.2.2], fun m hm => ha.nums m (uv m hm), fun i e he hq => ⟨fun hg => ?_, fun hg => ?_⟩, .inr ⟨?_, fun i => ?_⟩⟩
    · have h1 : Stands i s t := ha.other i (.inl fun x hx => by
        rw [he] at hx
        simp only [Option.some.injEq] at hx
        rwa [← hx])
      have h2 : Stands i u v := hb.other i (.inl fun x hx hxg => by
        obtain ⟨y, hy, hyg⟩ := ha.fewer.trans hf i x hx hxg
        rw [he] at hy
        simp only [Option.some.injEq] at hy
        exact hg (by rw [hy, hyg]))
      exact ((h1.trans (hc i).1).trans h2).event e he hq
    · have hm := State.mem_gatheringEvents he hg
      rw [← ab, List.map_append] at hm
      rcases List.mem_append.1 hm with c | c
      · have x := (ha.closed i e c he hg hq).stands (hc i).1 fun m => hq (ha.nums _ m)
        obtain ⟨y, y1, y2⟩ := x.number
        refine x.stands (hb.other i (.inl fun z hz => ?_)) fun m => hq (ha.nums _ ((hc i).1.nums _ m))
        rw [y1] at hz
        simp only [Option.some.injEq] at hz
        rwa [← hz]
      · by_cases d : i ∈ a.map (·.1)
        · have x := (ha.closed i e d he hg hq).stands (hc i).1 fun m => hq (ha.nums _ m)
          obtain ⟨y, y1, y2⟩ := x.number
          refine x.stands (hb.other i (.inl fun z hz => ?_)) fun m => hq (ha.nums _ ((hc i).1.nums _ m))
          rw [y1] at hz
          simp only [Option.some.injEq] at hz
          rwa [← hz]
        · have st := (ha.other i (.inr d)).trans (hc i).1
          obtain ⟨e', h1, h2⟩ := st.event e he hq
          have e1 : e'.state = e.state := by rw [h2]
          have e2 : e'.number = e.number := by rw [h2]
          obtain ⟨z, z1, z2, z3, z4⟩ := hb.closed i e' c h1 (by rw [e1, hg]) (by rw [e2]; exact fun q => hq (st.nums _ q))
          refine ⟨z, z1, z2, ?_, fun hp => ?_⟩
          · rw [z3, h2, hn, ha.now]
          · obtain ⟨p, p1, p2⟩ := z4 (by rw [(hc i).1.size, ha.plans]; exact hp)
            exact ⟨p, p1, by rw [p2, e2]⟩
    · rw [hb.unit.1]
      exact (hc 0).2.1
    · exact hb.tails (hc 0).2.1 i (hc i).2.2
  · have ha := State.closeAtStop_closes s.gatheringEvents s
    refine ⟨ha.now, ha.unit.2.2, ha.nums, fun i e he hq => ⟨fun hg => ?_, fun hg => ha.closed i e (State.mem_gatheringEvents he hg) he hg hq⟩,
      .inl ⟨ha.unit.2.1, ha.unit.1⟩⟩
    exact (ha.other i (.inl fun x hx => by
      rw [he] at hx
      simp only [Option.some.injEq] at hx
      rwa [← hx])).event e he hq

/-! ### The messages taken ahead of the closes -/

/-- From `s` to `t` an event that is GATHERING may take picks and closures, and any other stands (R89, R91, R93). -/
def Grows (i : Nat) (s t : State) : Prop :=
  ∀ e : Event, s.assoc.events[i]? = some (some e) → ∃ e' : Event, t.assoc.events[i]? = some (some e') ∧ (e.state ≠ .gathering → e' = e) ∧
    e' = { e with picks := e'.picks, anchor := e'.anchor, last := e'.last, peakMax := e'.peakMax }

theorem Grows.same {i : Nat} {s t : State} (h : t.assoc.events = s.assoc.events) : Grows i s t :=
  fun e he => ⟨e, by rw [h, he], fun _ => rfl, rfl⟩

theorem Grows.trans {i : Nat} {s t u : State} (h : Grows i s t) (k : Grows i t u) : Grows i s u := fun e he => by
  obtain ⟨e1, h1, h2, h3⟩ := h e he
  obtain ⟨e2, k1, k2, k3⟩ := k e1 h1
  have hs : e1.state = e.state := by rw [h3]
  refine ⟨e2, k1, fun g => ?_, by rw [k3, h3]⟩
  rw [k2 (by rw [hs]; exact g), h2 g]

theorem placeOf_spec {α : Type} {p : α → Bool} {i n : Nat} {l : List α} (h : placeOf p i l = some n) :
    ∃ (j : Nat) (x : α), n = i + j ∧ l[j]? = some x ∧ p x = true := by
  induction l generalizing i with
  | nil => cases h
  | cons x l ih =>
    unfold placeOf at h
    split at h
    next c =>
      simp only [Option.some.injEq] at h
      exact ⟨0, x, by omega, rfl, c⟩
    · obtain ⟨j, y, h1, h2, h3⟩ := ih h
      exact ⟨j + 1, y, by omega, h2, h3⟩

theorem State.raise_events (n : Notice) (s : State) : (s.raise n).assoc = s.assoc :=
  State.raise_frame n (Frame.refl [.notices, .writer] s) (by decide) .assoc (by decide)

theorem State.declareIn_grows {i : Nat} (slot z w : Nat) (cs : List PickCopy) {s : State}
    (free : placeOf Option.isNone 0 s.assoc.events = some slot) : Grows i s (s.declareIn slot z w cs) := by
  obtain ⟨j, x, h1, h2, h3⟩ := placeOf_spec free
  rw [Nat.zero_add] at h1
  subst h1
  intro e he
  refine ⟨e, ?_, fun _ => rfl, rfl⟩
  have ne : slot ≠ i := by
    intro c
    subst c
    rw [h2] at he
    simp only [Option.some.injEq] at he
    rw [he] at h3
    cases h3
  unfold State.declareIn
  dsimp only
  show (State.raise _ _).assoc.events[i]? = _
  rw [State.raise_events]
  show (s.assoc.events.set slot _)[i]? = _
  rw [List.getElem?_set_ne ne, he]

/-- A pick that arrives (R90 to R94). -/
theorem State.associate_grows {i : Nat} (c : PickCopy) (zs : List (Nat × Zone)) (s : State) : Grows i s (s.associate c zs) := by
  have lose : ∀ y : State, Grows i y y.loseEvent := fun y => Grows.same (by
    unfold State.loseEvent
    rw [State.raise_events]; rfl)
  have co : ∀ (z : Nat) (zone : Zone) (y t : State), y.coincide z zone c.pick = .taken t ∨ y.coincide z zone c.pick = .neither t →
      Grows i y t := by
    intro z zone y t h
    unfold State.coincide at h
    split at h
    · split at h
      next hs =>
        split at h
        · rcases h with h | h
          · cases h
            exact State.declareIn_grows _ _ _ _ hs
          · cases h
        · rcases h with h | h
          · cases h
          · cases h
            exact lose y
      · rcases h with h | h
        · cases h
        · cases h
          exact lose y
    · rcases h with h | h
      · cases h
      · cases h
        exact Grows.same rfl
  have turn : ∀ (z : Nat) (zone : Zone) (y t : State), y.tryZone z zone c = .taken t ∨ y.tryZone z zone c = .neither t → Grows i y t := by
    intro z zone y t h
    unfold State.tryZone at h
    split at h
    next slot e he =>
      have hm := List.mem_of_find?_eq_some he
      have hp := List.find?_some he
      obtain ⟨j, hn, hj⟩ := heldEvents_iff.1 ((sortBy_perm _ _).mem_iff.1 hm)
      rw [Nat.zero_add] at hn
      subst hn
      have g : e.state = .gathering := by
        unfold Event.takes at hp
        simp only [Bool.and_eq_true, beq_iff_eq] at hp
        exact hp.1.1.1.1
      rcases h with h | h
      · cases h
        intro x hx
        show ∃ e', (y.assoc.events.modify slot _)[i]? = _ ∧ _
        rw [List.getElem?_modify, hx]
        split
        next d =>
          subst d
          rw [hj] at hx
          simp only [Option.some.injEq] at hx
          subst hx
          exact ⟨_, rfl, fun n => absurd g n, rfl⟩
        · exact ⟨x, rfl, fun _ => rfl, rfl⟩
      · cases h
    · exact co z zone y t h
  induction zs generalizing s with
  | nil => exact Grows.same rfl
  | cons a zs ih =>
    obtain ⟨n, z⟩ := a
    unfold State.associate
    split
    · split
      next u hu => exact turn n z s u (.inl hu)
      next u hu => exact Grows.trans (turn n z s u (.inr hu)) (ih u)
    · exact ih s

theorem State.applyClosure_grows {i : Nat} (st onset : Nat) (k : Closure) (s : State) : Grows i s (s.applyClosure st onset k) := by
  intro e he
  show ∃ e', (s.assoc.events.map fun o => o.map (Event.fill st onset k))[i]? = _ ∧ _
  rw [List.getElem?_map, he]
  refine ⟨e.fill st onset k, rfl, fun g => ?_, ?_⟩
  · unfold Event.fill
    rw [if_neg g]
  · unfold Event.fill
    split <;> rfl

/-- A message taken by the Associator (R87, R89). -/
theorem State.takeMessage_grows {i : Nat} (m : AssocMsg) (s : State) : Grows i s (s.takeMessage m) := by
  unfold State.takeMessage
  split
  · unfold State.takePick
    split
    · refine Grows.trans (Grows.same ?_) (State.associate_grows _ _ _)
      unfold State.enterPick
      dsimp only
      split
      · rfl
      · show (State.raise _ _).assoc.events = _
        rw [State.raise_events]; rfl
    · exact Grows.same rfl
  · exact State.applyClosure_grows _ _ _ _

theorem State.takeMessages_grows {i : Nat} (ms : List AssocMsg) (s : State) : Grows i s (ms.foldl (fun t m => t.takeMessage m) s) := by
  induction ms generalizing s with
  | nil => exact Grows.same rfl
  | cons m ms ih => exact Grows.trans (State.takeMessage_grows m s) (ih _)

/-- What STOP takes ahead of its closes leaves every event, but for the picks of those that are GATHERING (R58, R89; logs 8, 46). -/
theorem State.takeSentBefore_grows {i : Nat} (s : State) : Grows i s s.takeSentBefore := by
  unfold State.takeSentBefore
  refine Grows.trans ?_ (State.takeMessages_grows _ _)
  exact Grows.same rfl

theorem State.closuresFirst_grows {i : Nat} (n : Nat) (s : State) : Grows i s (s.closuresFirst n) :=
  Grows.trans (State.takeMessages_grows _ _) (Grows.same rfl)

/-! ### The closures of STOP -/

/-- The copy with a message's closure filled in, if it is one. -/
def PickCopy.fillOne (c : PickCopy) : AssocMsg → PickCopy
  | .closure st onset k => c.fill st onset k
  | .pick _ => c

/-- The copy with a list of messages' closures filled in, in order. -/
def PickCopy.fillAll (ms : List AssocMsg) (c : PickCopy) : PickCopy := ms.foldl PickCopy.fillOne c

/-- Closures applied one after another fill the copies of an event that is GATHERING (R89). -/
theorem State.takeClosures_picks {i : Nat} {e : Event} (ms : List AssocMsg) (all : ∀ m ∈ ms, ∃ st onset k, m = .closure st onset k) (s : State)
    (he : s.assoc.events[i]? = some (some e)) (hg : e.state = .gathering) :
    ∃ e' : Event, (ms.foldl (fun t m => t.takeMessage m) s).assoc.events[i]? = some (some e') ∧ e'.picks = e.picks.map (PickCopy.fillAll ms) ∧
      e'.anchor = e.anchor ∧ e'.last = e.last := by
  induction ms generalizing s e with
  | nil => exact ⟨e, he, (List.map_id e.picks).symm, rfl, rfl⟩
  | cons m ms ih =>
    obtain ⟨st, onset, k, hm⟩ := all m (List.mem_cons_self ..)
    subst hm
    have h1 : (s.takeMessage (.closure st onset k)).assoc.events[i]? = some (some (e.fill st onset k)) := by
      show (s.assoc.events.map fun o => o.map (Event.fill st onset k))[i]? = _
      rw [List.getElem?_map, he]
      rfl
    have f : e.fill st onset k = { e with picks := e.picks.map (PickCopy.fill st onset k), peakMax := peakMaxOf (e.picks.map (PickCopy.fill st onset k)) } := by
      unfold Event.fill
      rw [if_pos hg]
    obtain ⟨e', a, b, c, d⟩ := ih (fun m hm => all m (List.mem_cons_of_mem _ hm)) _ h1 (by rw [f]; exact hg)
    refine ⟨e', a, ?_, by rw [c, f], by rw [d, f]⟩
    rw [b, f, List.map_map]
    rfl

/-- Closures of other stations, or of another onset, do not name a copy. -/
theorem PickCopy.fillAll_other {ms : List AssocMsg} {c : PickCopy}
    (h : ∀ st onset k, AssocMsg.closure st onset k ∈ ms → c.named st onset = false) : c.fillAll ms = c := by
  unfold PickCopy.fillAll
  induction ms with
  | nil => rfl
  | cons m ms ih =>
    have hm : c.fillOne m = c := by
      cases m with
      | pick p => rfl
      | closure st onset k =>
        show c.fill st onset k = c
        unfold PickCopy.fill
        rw [h st onset k (List.mem_cons_self ..)]
        rfl
    rw [List.foldl_cons, hm]
    exact ih fun st onset k q => h st onset k (List.mem_cons_of_mem _ q)

/-- The one closure that names a copy fills it; a closure fills a copy once. -/
theorem PickCopy.fillAll_one {ms : List AssocMsg} {c : PickCopy} {k : Closure} (h : AssocMsg.closure c.pick.station c.pick.onset k ∈ ms)
    (one : ∀ k', AssocMsg.closure c.pick.station c.pick.onset k' ∈ ms → k' = k) (open' : c.closure = none) :
    c.fillAll ms = { c with closure := some k } := by
  induction ms with
  | nil => exact (List.not_mem_nil h).elim
  | cons m ms ih =>
    by_cases hm : ∃ k', m = .closure c.pick.station c.pick.onset k'
    · obtain ⟨k', rfl⟩ := hm
      obtain rfl := one k' (List.mem_cons_self ..)
      have f : c.fill c.pick.station c.pick.onset k' = { c with closure := some k' } := by
        simp [PickCopy.fill, PickCopy.named, open']
      show PickCopy.fillAll ms (c.fill c.pick.station c.pick.onset k') = _
      rw [f]
      exact PickCopy.fillAll_other fun st onset k _ => by simp [PickCopy.named]
    · have hm' : c.fillOne m = c := by
        cases m with
        | pick p => rfl
        | closure st onset k =>
          show c.fill st onset k = c
          unfold PickCopy.fill PickCopy.named
          by_cases a : c.pick.station = st
          · by_cases b : c.pick.onset = onset
            · exact absurd ⟨k, by rw [a, b]⟩ hm
            · simp [b]
          · simp [a]
      have hms : AssocMsg.closure c.pick.station c.pick.onset k ∈ ms := (List.mem_cons.1 h).resolve_left fun q => hm ⟨k, q.symm⟩
      show PickCopy.fillAll ms (c.fillOne m) = _
      rw [hm']
      exact ih hms fun k' q => one k' (List.mem_cons_of_mem _ q)

/-- The closures of STOP, one for each detector that is TRIGGERED (R58, R64). -/
theorem mem_stopClosures {m : AssocMsg} {ds : List Detector} : m ∈ stopClosures ds ↔ ∃ (st : Nat) (d : Detector) (p : OpenPick),
    ds[st]? = some d ∧ d.state = .triggered ∧ d.openPick = some p ∧ m = .closure st p.onset ⟨true, d.nextTime.getD p.onset, p.peak⟩ := by
  have one : ∀ (st : Nat) (d : Detector), m ∈ d.cutClosure st ↔ ∃ p : OpenPick, d.state = .triggered ∧ d.openPick = some p ∧
      m = .closure st p.onset ⟨true, d.nextTime.getD p.onset, p.peak⟩ := by
    intro st d
    unfold Detector.cutClosure OpenPick.close
    split
    next p h1 h2 => simp [h1, h2]
    next h =>
      refine ⟨fun q => (List.not_mem_nil q).elim, fun ⟨p, h1, h2, _⟩ => (h p h1 h2).elim⟩
  unfold stopClosures
  rw [List.mem_flatten]
  constructor
  · rintro ⟨l, hl, hm⟩
    obtain ⟨st, hst, rfl⟩ := List.mem_mapIdx.1 hl
    obtain ⟨p, h⟩ := (one st _).1 hm
    exact ⟨st, _, p, List.getElem?_eq_getElem hst, h⟩
  · rintro ⟨st, d, p, hd, h⟩
    obtain ⟨hst, rfl⟩ := List.getElem?_eq_some_iff.1 hd
    exact ⟨_, List.mem_mapIdx.2 ⟨st, hst, rfl⟩, (one st _).2 ⟨p, h⟩⟩

end Sys2Proof.Machine
end

