-- ==== Sys2Proof/Laws/Jobs.lean ====
section
/-! SUPPORT. What freeing a record, the record writer and the copy queue do (R111, R114, R140, R143, R146). -/
-- One lemma after another: elaborated side by side, the package as one text would need too many threads.
set_option Elab.async false
namespace Sys2Proof.Machine

/-- The event of a number is that of the first slot that holds one. -/
theorem heldEvents_first {ev k i : Nat} {e : Event} {l : List (Option Event)}
    (h : (heldEvents k l).find? (fun p => p.2.number == ev) = some (i, e)) {j : Nat} {e' : Event} (hj : k + j < i)
    (he : l[j]? = some (some e')) : e'.number ≠ ev := by
  induction l generalizing k j with
  | nil => cases he
  | cons x l ih =>
    cases x with
    | none =>
      cases j with
      | zero => cases he
      | succ j => exact ih (k := k + 1) h (by omega) he
    | some v =>
      unfold heldEvents at h
      rw [List.find?_cons] at h
      split at h
      · simp only [Option.some.injEq, Prod.mk.injEq] at h; omega
      · rename_i c
        cases j with
        | zero =>
          have : v = e' := by simpa using he
          subst this
          simpa using c
        | succ j => exact ih (k := k + 1) h (by omega) he

theorem State.findEvent_at (s : State) (i : Nat) (e : Event) (h : s.assoc.events[i]? = some (some e))
    (u : ∀ (j : Nat) (e' : Event), s.assoc.events[j]? = some (some e') → e'.number = e.number → j = i) :
    s.findEvent e.number = some (i, e) := by
  unfold State.findEvent
  have m : (i, e) ∈ heldEvents 0 s.assoc.events := heldEvents_iff.2 ⟨i, by omega, h⟩
  cases f : (heldEvents 0 s.assoc.events).find? fun p => p.2.number == e.number with
  | none => exact absurd (List.find?_eq_none.1 f (i, e) m) (by simp)
  | some q =>
    obtain ⟨j, e'⟩ := q
    obtain ⟨k, a, b⟩ := heldEvents_iff.1 (List.mem_of_find?_eq_some f)
    have c := List.find?_some f
    have : k = i := u k e' b (by simpa using c)
    subst this
    rw [h] at b; simp at b; simp [a, b]

theorem State.findEvent_none {s : State} {ev : Nat} (h : s.findEvent ev = none) (j : Nat) (e : Event)
    (he : s.assoc.events[j]? = some (some e)) : e.number ≠ ev := by
  unfold State.findEvent at h
  simpa using List.find?_eq_none.1 h (j, e) (heldEvents_iff.2 ⟨j, by omega, he⟩)

/-! ### Freeing a record (R143) -/

/-- Events that may differ only in the slot of event `ev`. -/
def DifferAt (ev : Nat) (l l' : List (Option Event)) : Prop :=
  ∀ j : Nat, l'[j]? = l[j]? ∨ ∃ e e' : Event, l[j]? = some (some e) ∧ l'[j]? = some (some e') ∧ e.number = ev ∧ e'.number = ev

theorem DifferAt.refl (ev) (l) : DifferAt ev l l := fun _ => .inl rfl

theorem DifferAt.trans {ev l l' l''} (h : DifferAt ev l l') (k : DifferAt ev l' l'') : DifferAt ev l l'' := by
  intro j
  rcases h j with a | ⟨e, e', a, b, c, d⟩ <;> rcases k j with x | ⟨f, f', x, y, z, w⟩
  · left; rw [x, a]
  · right; exact ⟨f, f', by rw [← a, x], y, z, w⟩
  · right; exact ⟨e, e', a, by rw [x, b], c, d⟩
  · right; exact ⟨e, f', a, y, c, w⟩

theorem State.applyRequest_differs (ev : Nat) (x : EventState) (s : State) : DifferAt ev s.assoc.events (s.applyRequest ev x).assoc.events := by
  unfold State.applyRequest
  cases h : s.findEvent ev with
  | none => exact DifferAt.refl _ _
  | some q =>
    obtain ⟨i, e⟩ := q
    obtain ⟨a, b⟩ := State.findEvent_some h
    simp only
    split
    · intro j
      show (s.assoc.events.modify i _)[j]? = _ ∨ _
      rw [List.getElem?_modify]
      by_cases c : i = j
      · subst c; right
        refine ⟨e, { e with state := x }, a, ?_, b, b⟩
        show (s.assoc.events.modify i _)[i]? = _
        rw [List.getElem?_modify, a]; simp
      · left; simp [c]
    · exact DifferAt.refl _ _

theorem State.flushRequests_differs (ev : Nat) (s : State) : DifferAt ev s.assoc.events (s.flushRequests ev).assoc.events ∧
    (s.flushRequests ev).wires = { s.wires with stateRequests := s.wires.stateRequests.filter fun m => m.1 != ev } := by
  unfold State.flushRequests
  have : ∀ (l : List (Nat × EventState)) (t : State), DifferAt ev t.assoc.events (l.foldl (fun t m => t.applyRequest ev m.2) t).assoc.events ∧
      (l.foldl (fun t m => t.applyRequest ev m.2) t).wires = t.wires := by
    intro l
    induction l with
    | nil => intro t; exact ⟨DifferAt.refl _ _, rfl⟩
    | cons m l ih =>
      intro t
      have fr := State.applyRequest_frame ev m.2 (Frame.refl [.assoc] t) (by decide)
      exact ⟨(State.applyRequest_differs ev m.2 t).trans (ih _).1, (ih _).2.trans (fr .wires (by decide))⟩
  exact this _ _

/-- The oldest record, of event `ev`, is freed (R143): its event and plan are gone, every other one stands, and none is new. -/
structure RecordFreed (ev : Nat) (s t : State) : Prop where
  gone : ∀ (i : Nat) (e : Event), s.assoc.events[i]? = some (some e) → e.number = ev →
    (∀ (j : Nat) (e' : Event), s.assoc.events[j]? = some (some e') → e'.number = e.number → j = i) →
    t.assoc.events[i]? = some none ∧ (i < s.clip.plans.length → t.clip.plans[i]? = some none)
  kept : ∀ (i : Nat) (e : Event), s.assoc.events[i]? = some (some e) → e.number ≠ ev →
    t.assoc.events[i]? = some (some e) ∧ t.clip.plans[i]? = s.clip.plans[i]?
  none : ∀ i : Nat, s.assoc.events[i]? = some none → t.assoc.events[i]? = some none
  back : ∀ (i : Nat) (e : Event), t.assoc.events[i]? = some (some e) → ∃ e₀ : Event, s.assoc.events[i]? = some (some e₀) ∧ e₀.number = e.number
  nil : ∀ i : Nat, s.clip.plans[i]? = some Option.none → t.clip.plans[i]? = some Option.none
  len : t.clip.plans.length = s.clip.plans.length

theorem State.setPointers_clip (a f : Nat) (s : State) : (s.setPointers a f).clip = { s.clip with allocPtr := a, freePtr := f } := by
  unfold State.setPointers
  split
  · rename_i h; rw [h.1, h.2]
  · rfl

theorem State.freeRegion_clip (r : Region) (s : State) (left : Nat) (hl : left = s.clip.used - (r.skip + r.units)) :
    (s.freeRegion r).clip = { s.clip with
      used := left
      allocPtr := if left = 0 then 0 else s.clip.allocPtr
      freePtr := if left = 0 ∨ r.first + r.units = s.gen.clipSize / 512 then 0 else r.first + r.units } := by
  unfold State.freeRegion
  rw [← hl]
  by_cases c : left = 0
  · simp only [c]; rw [if_pos trivial, State.setPointers_clip]; simp
  · simp only; rw [if_neg c, State.setPointers_clip]
    have u : s.unitCount = s.gen.clipSize / 512 := rfl
    rw [u]; simp [c]

theorem State.dropPlan_plans (i : Nat) (s : State) : (s.dropPlan i).clip.plans = s.clip.plans.set i none := by
  unfold State.dropPlan
  split
  · split
    · rw [State.freeRegion_clip _ _ _ rfl]; rfl
    · rfl
  · rfl
  · rfl

theorem State.freeRecord_frees (s : State) (ev : Nat) (rest : List Nat) (hn : s.report.numbers = ev :: rest) :
    RecordFreed ev s s.freeRecord ∧ s.freeRecord.report = { s.report with
      numbers := rest, get := (s.report.get + 1) % s.gen.reportCap, occupancy := s.report.occupancy - 1 } ∧
    s.freeRecord.wires = { s.wires with stateRequests := s.wires.stateRequests.filter fun m => m.1 != ev } ∧
    s.freeRecord.status.rewrite = true := by
  obtain ⟨rel, wf⟩ := State.flushRequests_differs ev s
  have ff : Frame [.assoc, .wires] s (s.flushRequests ev) := State.flushRequests_frame _ (Frame.refl _ _) (by decide)
  have gen : (s.flushRequests ev).gen = s.gen := by unfold State.gen; rw [ff .control (by decide)]
  have rp : (s.flushRequests ev).report = s.report := ff .report (by decide)
  have cl : (s.flushRequests ev).clip = s.clip := ff .clip (by decide)
  have ek : ∀ (i : Nat) (e : Event), s.assoc.events[i]? = some (some e) → e.number ≠ ev → (s.flushRequests ev).assoc.events[i]? = some (some e) := by
    intro i e he hne
    rcases rel i with h | ⟨a, b, c, d, x, y⟩
    · rw [h, he]
    · rw [he] at c; simp at c; subst c; exact absurd x hne
  have eb : ∀ (i : Nat) (e : Event), (s.flushRequests ev).assoc.events[i]? = some (some e) → ∃ e₀ : Event, s.assoc.events[i]? = some (some e₀) ∧ e₀.number = e.number := by
    intro i e he
    rcases rel i with h | ⟨a, b, c, d, x, y⟩
    · exact ⟨e, by rw [← h, he], rfl⟩
    · rw [he] at d; simp at d; subst d; exact ⟨a, c, by rw [x, y]⟩
  have en : ∀ i : Nat, s.assoc.events[i]? = some none → (s.flushRequests ev).assoc.events[i]? = some none := by
    intro i he
    rcases rel i with h | ⟨a, b, c, d, x, y⟩
    · rw [h, he]
    · rw [he] at c; simp at c
  unfold State.freeRecord
  rw [hn]
  cases h : (s.flushRequests ev).findEvent ev with
  | none =>
    simp only
    rw [h]
    refine ⟨⟨?_, fun i e he hne => ⟨ek i e he hne, by show (s.flushRequests ev).clip.plans[i]? = _; rw [cl]⟩, en, eb, fun i hi => by show (s.flushRequests ev).clip.plans[i]? = _; rw [cl, hi], by show (s.flushRequests ev).clip.plans.length = _; rw [cl]⟩, ?_, wf, rfl⟩
    · intro i e he hev hu
      exfalso
      have ex : ∃ e' : Event, (s.flushRequests ev).assoc.events[i]? = some (some e') ∧ e'.number = ev := by
        rcases rel i with h | ⟨a, b, c, d, x, y⟩
        · exact ⟨e, by rw [h, he], hev⟩
        · exact ⟨b, d, y⟩
      obtain ⟨e', h1, h2⟩ := ex
      unfold State.findEvent at h
      have := List.find?_eq_none.1 h (i, e') (heldEvents_iff.2 ⟨i, by omega, h1⟩)
      simp [h2] at this
    · show ({ (s.flushRequests ev).report with numbers := rest, get := _, occupancy := _ } : ReportRing) = _
      rw [rp]
  | some q =>
    obtain ⟨k, x⟩ := q
    obtain ⟨hk, hx⟩ := State.findEvent_some h
    simp only
    rw [h]
    have klt : k < (s.flushRequests ev).assoc.events.length := (List.getElem?_eq_some_iff.1 hk).1
    have dpf : Frame [.clip, .writer] ((s.flushRequests ev).freeEvent k) (((s.flushRequests ev).freeEvent k).dropPlan k) := State.dropPlan_frame _ (Frame.refl _ _) (by decide)
    have evs : (((s.flushRequests ev).freeEvent k).dropPlan k).assoc.events = (s.flushRequests ev).assoc.events.set k none := by
      rw [dpf .assoc (by decide)]; rfl
    have pls : (((s.flushRequests ev).freeEvent k).dropPlan k).clip.plans = s.clip.plans.set k none := by
      rw [State.dropPlan_plans]; show (s.flushRequests ev).clip.plans.set k none = _; rw [cl]
    have rep : (((s.flushRequests ev).freeEvent k).dropPlan k).report = s.report := by rw [dpf .report (by decide)]; exact rp
    have genq : (((s.flushRequests ev).freeEvent k).dropPlan k).gen = s.gen := by
      unfold State.gen; rw [dpf .control (by decide)]; exact gen
    have g1 : ∀ (i : Nat) (e : Event), s.assoc.events[i]? = some (some e) → e.number ≠ ev → k ≠ i := by
      rintro i e he hne rfl
      rw [ek _ _ he hne] at hk; simp at hk; subst hk; exact hne hx
    refine ⟨⟨?_, fun i e he hne => ⟨?_, ?_⟩, ?_, ?_, ?_, ?_⟩, ?_, ?_, rfl⟩
    · intro i e he hev hu
      have : k = i := by
        obtain ⟨e₀, h1, h2⟩ := eb _ _ hk
        exact hu k e₀ h1 (by rw [h2, hx, hev])
      subst this
      refine ⟨?_, fun hl => ?_⟩
      · show (((s.flushRequests ev).freeEvent k).dropPlan k).assoc.events[k]? = _
        rw [evs]; exact List.getElem?_set_self klt
      · show (((s.flushRequests ev).freeEvent k).dropPlan k).clip.plans[k]? = _
        rw [pls]; exact List.getElem?_set_self hl
    · show (((s.flushRequests ev).freeEvent k).dropPlan k).assoc.events[i]? = _
      rw [evs, List.getElem?_set_ne (g1 i e he hne)]; exact ek i e he hne
    · show (((s.flushRequests ev).freeEvent k).dropPlan k).clip.plans[i]? = _
      rw [pls, List.getElem?_set_ne (g1 i e he hne)]
    · intro i hi
      show (((s.flushRequests ev).freeEvent k).dropPlan k).assoc.events[i]? = _
      rw [evs]
      by_cases c : k = i
      · subst c; exact List.getElem?_set_self klt
      · rw [List.getElem?_set_ne c]; exact en i hi
    · intro i e he
      have he : (((s.flushRequests ev).freeEvent k).dropPlan k).assoc.events[i]? = _ := he
      rw [evs] at he
      by_cases c : k = i
      · subst c; rw [List.getElem?_set_self klt] at he; simp at he
      · rw [List.getElem?_set_ne c] at he; exact eb i e he
    · intro i hi
      show (((s.flushRequests ev).freeEvent k).dropPlan k).clip.plans[i]? = _
      rw [pls]
      by_cases c : k = i
      · subst c; exact List.getElem?_set_self (List.getElem?_eq_some_iff.1 hi).1
      · rw [List.getElem?_set_ne c]; exact hi
    · show (((s.flushRequests ev).freeEvent k).dropPlan k).clip.plans.length = _
      rw [pls]; simp
    · show ({ (((s.flushRequests ev).freeEvent k).dropPlan k).report with numbers := rest, get := _, occupancy := _ } : ReportRing) = _
      rw [rep]
    · show (((s.flushRequests ev).freeEvent k).dropPlan k).wires = _
      rw [dpf .wires (by decide)]; exact wf

theorem State.freeRecord_gen (s : State) : s.freeRecord.gen = s.gen := by
  unfold State.gen
  rw [State.freeRecord_frame (al := [.assoc, .clip, .report, .writer, .wires]) (Frame.refl _ s) (by decide) .control (by decide)]

theorem State.answerFreed_unasked (s : State) (h : s.report.reclaim = false) : s.answerFreed = s := by
  unfold State.answerFreed; rw [if_neg (by rw [h]; decide)]

theorem State.lookWith_rests (f : State → State) (s : State) (h : s.report.waitList = [] ∨ s.report.writer ≠ .idle) : s.lookWith f = s := by
  unfold State.lookWith
  rw [if_neg]
  rcases h with h | h
  · simp [h]
  · simp [ReportRing.writerIdle, h]

theorem State.lookWith_busy (f : State → State) (s : State) (ev : Nat) (rest : List Nat) (hw : s.report.writer = .idle) (hl : s.report.waitList = ev :: rest) :
    s.lookWith f = if s.report.occupancy < s.gen.reportCap then s.takeFront
    else if s.attend.unattended then
      let t := f s.reclaimOldest
      if t.report.writerIdle && decide (t.report.occupancy < t.gen.reportCap) then t.takeFront else t
    else s.raise .reportFull := by
  unfold State.lookWith
  rw [if_pos (by simp [ReportRing.writerIdle, hw, hl])]

theorem State.takeFront_at (s : State) (i : Nat) (e : Event) (rest : List Nat) (hl : s.report.waitList = e.number :: rest) (hf : s.findEvent e.number = some (i, e)) :
    s.takeFront = s.setReport fun r => { r with waitList := rest, writer := .writing e.number r.put (recordBytes r.put e) false } := by
  unfold State.takeFront; rw [hl]; simp only; rw [hf]

theorem State.reclaimOldest_reclaims (s : State) : s.reclaimOldest.status.pending = s.freeRecord.status.pending ||| Notice.reportReclaimed.bit ∧
    s.reclaimOldest.tallies = (s.freeRecord.count .reportsReclaimed).tallies ∧ Frame [.notices, .writer, .tallies] s.freeRecord s.reclaimOldest :=
  ⟨by simp [State.reclaimOldest], by simp [State.reclaimOldest], State.raise_frame _ (State.count_frame _ (Frame.refl _ _) (by decide)) (by decide)⟩

theorem State.freeRegion_keeps (r : Region) (s : State) : (s.freeRegion r).clip.copier = s.clip.copier ∧ (s.freeRegion r).clip.queue = s.clip.queue := by
  rw [State.freeRegion_clip r s _ rfl]; exact ⟨rfl, rfl⟩

theorem State.dropPlan_keeps (i : Nat) (s : State) : (s.dropPlan i).clip.copier = s.clip.copier ∧ (s.dropPlan i).clip.queue = s.clip.queue := by
  unfold State.dropPlan
  split
  · split
    · exact State.freeRegion_keeps _ _
    · exact ⟨rfl, rfl⟩
  · exact ⟨rfl, rfl⟩
  · exact ⟨rfl, rfl⟩

theorem State.freeRecord_keeps (s : State) : s.freeRecord.clip.copier = s.clip.copier ∧ s.freeRecord.clip.queue = s.clip.queue ∧ s.freeRecord.report.reclaim = s.report.reclaim ∧
    s.freeRecord.report.waitList = s.report.waitList ∧ s.freeRecord.report.writer = s.report.writer ∧ s.freeRecord.report.put = s.report.put := by
  cases hn : s.report.numbers with
  | nil => unfold State.freeRecord; rw [hn]; exact ⟨rfl, rfl, rfl, rfl, rfl, rfl⟩
  | cons ev rest =>
    obtain ⟨_, r, _, _⟩ := State.freeRecord_frees s ev rest hn
    rw [r]
    refine ⟨?_, ?_, rfl, rfl, rfl, rfl⟩ <;> unfold State.freeRecord <;> rw [hn] <;> simp only
    · have cl : (s.flushRequests ev).clip = s.clip := State.flushRequests_frame (al := [.assoc, .wires]) _ (Frame.refl _ _) (by decide) .clip (by decide)
      split
      · show ((State.freeEvent _ _).dropPlan _).clip.copier = _
        rw [(State.dropPlan_keeps _ _).1]; show (s.flushRequests ev).clip.copier = _; rw [cl]
      · show (s.flushRequests ev).clip.copier = _; rw [cl]
    · have cl : (s.flushRequests ev).clip = s.clip := State.flushRequests_frame (al := [.assoc, .wires]) _ (Frame.refl _ _) (by decide) .clip (by decide)
      split
      · show ((State.freeEvent _ _).dropPlan _).clip.queue = _
        rw [(State.dropPlan_keeps _ _).2]; show (s.flushRequests ev).clip.queue = _; rw [cl]
      · show (s.flushRequests ev).clip.queue = _; rw [cl]

theorem State.comeTo_queue (i k : Nat) (s : State) : (s.comeTo i k).clip.queue = s.clip.queue := by
  unfold State.comeTo State.enterDirectory State.writeVoid
  repeat' split
  all_goals rfl

theorem State.joinReport_queue (ev : Nat) (s : State) : (s.joinReport ev).clip.queue = s.clip.queue := by
  have look : ∀ t : State, (t.lookWith id).clip.queue = t.clip.queue := by
    intro t
    have tf : ∀ x : State, x.takeFront.clip = x.clip := fun x => State.takeFront_frame (al := [.report]) (Frame.refl _ _) (by decide) .clip (by decide)
    have ro : t.reclaimOldest.clip.queue = t.clip.queue := by
      rw [(State.reclaimOldest_reclaims t).2.2 .clip (by decide)]; exact (State.freeRecord_keeps t).2.1
    unfold State.lookWith
    simp only [id]
    repeat' split
    · rw [tf]
    · rw [tf, ro]
    · exact ro
    · exact congrArg Clip.queue (State.raise_frame (al := [.notices, .writer]) _ (Frame.refl _ _) (by decide) .clip (by decide))
    · rfl
  unfold State.joinReport
  simp only
  split
  · rw [look]; rfl
  · rfl

theorem State.endForLack_queue (i : Nat) (p : Plan) (s : State) : (s.endForLack i p).clip.queue = s.clip.queue := by
  unfold State.endForLack
  rw [State.joinReport_queue]
  simp [State.askState, State.setCopier, State.setEvent, State.setPlan, State.askPins]

theorem State.allocate_queue (i : Nat) (s : State) : (s.allocate i).clip.queue = s.clip.queue := by
  unfold State.allocate
  split
  · simp only
    split
    · exact State.endForLack_queue _ _ _
    · split
      · unfold State.takeRegion
        rw [State.comeTo_queue]
        generalize hx : (State.setClip (fun c => { c with used := c.used + (s.regionFor _).skip + (s.regionFor _).units, writesOut := 0, dirError := false }) _) = x
        have hq : x.clip.queue = s.clip.queue := by rw [← hx]; rfl
        have := congrArg Clip.queue (State.setPointers_clip (if (s.regionFor (1 + Plan.selectionCount ‹Plan›)).first + (s.regionFor (1 + Plan.selectionCount ‹Plan›)).units = s.unitCount then 0 else (s.regionFor (1 + Plan.selectionCount ‹Plan›)).first + (s.regionFor (1 + Plan.selectionCount ‹Plan›)).units) x.clip.freePtr x)
        exact this.trans hq
      · split
        · rfl
        · exact State.endForLack_queue _ _ _
  · rfl
/-! ### The writer's look and the jobs that begin (R111, R140) -/

theorem State.lookWith_looked (f : State → State) (hf : ∀ x : State, x.report.reclaim = false → f x = x) (s : State) :
    WriterLooked s (s.lookWith f) where
  rests h := State.lookWith_rests f s h
  takes i e rest hw hl he ho := by
    rw [State.lookWith_busy f s e.number rest hw hl, if_pos ho]
    exact State.takeFront_at s i e rest hl (State.findEvent_at s i e he.1 he.2)
  full hw hl ho ha := by
    cases h : s.report.waitList with
    | nil => exact absurd h hl
    | cons ev rest => rw [State.lookWith_busy f s ev rest hw h, if_neg (by omega), if_neg (by rw [ha]; decide)]
  reclaims i e rest older old r hw hl he ho ha hr hn hcap hne hra := by
    obtain ⟨o, rr, _, _⟩ := State.freeRecord_frees s old older hn
    have rf : Frame [.notices, .writer, .tallies] s.freeRecord r := by
      rw [hra]; exact State.raise_frame _ (State.count_frame _ (Frame.refl _ _) (by decide)) (by decide)
    have fr : Frame [.assoc, .clip, .report, .writer, .wires] s s.freeRecord := State.freeRecord_frame (Frame.refl _ _) (by decide)
    have r1 : r.report = s.freeRecord.report := rf .report (by decide)
    have r2 : r.assoc = s.freeRecord.assoc := rf .assoc (by decide)
    have gn : r.gen = s.gen := by unfold State.gen; rw [rf .control (by decide), fr .control (by decide)]
    have ro : s.reclaimOldest = r := hra.symm
    have hl2 : r.report.waitList = e.number :: rest := by rw [r1, rr]; exact hl
    have fe : r.findEvent e.number = some (i, e) := by
      refine State.findEvent_at _ i e (by rw [r2]; exact (o.kept i e he.1 (fun x => hne x.symm)).1) fun j x hj hx => ?_
      rw [r2] at hj
      obtain ⟨e₀, a, b⟩ := o.back j x hj
      exact he.2 j e₀ a (by rw [b, hx])
    rw [State.lookWith_busy f s e.number rest hw hl, if_neg (by omega), if_pos ha, ro, hf r (by rw [r1, rr]; exact hr)]
    simp only
    rw [if_pos, State.takeFront_at _ i e rest hl2 fe]
    · have : r.report.put = s.report.put := by rw [r1]; exact (State.freeRecord_keeps s).2.2.2.2.2
      simp only [State.setReport, this]
    · rw [gn, r1, rr]
      simp [ReportRing.writerIdle, hw, ho]; omega

/-- The writer looks at the front of the list (R140). -/
theorem State.writerLook_looked (s : State) : WriterLooked s s.writerLook :=
  State.lookWith_looked _ State.answerFreed_unasked s

/-- An event joins the report wait list (R140). -/
theorem State.joinReport_joins (ev : Nat) (s : State) : EventJoins ev s (s.joinReport ev) := by
  refine ⟨fun h => ?_, fun h => ?_⟩
  · unfold State.joinReport
    rw [if_neg (by simpa using h)]; rfl
  · unfold State.joinReport
    rw [if_pos (by simp [h])]
    have : (s.setReport fun r => { r with waitList := r.waitList ++ [ev] }) = { s with report := { s.report with waitList := [ev] } } := by
      simp only [State.setReport, h, List.nil_append]
    simp only [this]
    exact State.lookWith_looked id (fun _ _ => rfl) _

/-- A job ends for lack of space, and its event joins the report wait list (R114). -/
theorem State.endForLack_lacks (i : Nat) (p : Plan) (s : State) (hp : s.clip.plans[i]? = some (some p)) :
    ∃ m, JobLacked i p s m ∧ EventJoins p.event m (s.endForLack i p) := by
  refine ⟨_, ?_, State.joinReport_joins _ _⟩
  obtain ⟨hl, hx⟩ := List.getElem?_eq_some_iff.1 hp
  have hm : s.clip.plans.modify i (fun o => o.map Plan.withoutSpace) = s.clip.plans.set i (some p.withoutSpace) := by
    apply List.ext_getElem?
    intro j
    rw [List.getElem?_modify, List.getElem?_set]
    by_cases c : i = j
    · subst c; simp [hl, hx]
    · simp [c]
  refine ⟨?_, ?_, ?_, ?_, ?_, ?_⟩
  · simp [State.askState, State.setCopier, State.setEvent, State.setPlan, State.askPins]
    rw [hm]; rfl
  · simp [State.askState, State.setCopier, State.setEvent, State.setPlan, State.askPins]; rfl
  · simp [State.askState, State.setCopier, State.setEvent, State.setPlan, State.askPins]
  · simp [State.askState, State.setCopier, State.setEvent, State.setPlan, State.askPins]
  · simp [State.askState, State.setCopier, State.setEvent, State.setPlan, State.askPins]
  · exact State.askState_frame _ _ (State.askState_frame _ _ (State.setCopier_frame _ (State.count_frame _ (State.raise_frame _
      (State.setEvent_frame _ _ (State.setPlan_frame _ _ (State.askPins_frame _ (Frame.refl _ _) (by decide)) (by decide)) (by decide))
      (by decide)) (by decide)) (by decide)) (by decide)) (by decide)

theorem State.runQueue_begun (n : Nat) (s : State) (h : s.clip.queue.length ≤ n) : JobsBegun s (s.runQueue n) := by
  induction n generalizing s with
  | zero => exact .rests (.inr (List.length_eq_zero_iff.1 (by omega)))
  | succ n ih =>
    unfold State.runQueue
    split
    · rename_i ev rest hc hq
      have hl : rest.length ≤ n := by rw [hq] at h; simpa using h
      simp only
      cases f : (s.setClip fun c => { c with queue := rest }).findEvent ev with
      | some x =>
        obtain ⟨i, e⟩ := x
        have k : s.findEvent ev = some (i, e) := f
        obtain ⟨a, b⟩ := State.findEvent_some k
        exact .begins hc hq a b (fun j e' hj he => heldEvents_first k (by omega) he)
          (ih _ (by rw [State.allocate_queue]; exact hl))
      | none =>
        have k : s.findEvent ev = none := f
        exact .passes hc hq (fun j e he => State.findEvent_none k j e he) (ih _ hl)
    · rename_i hx
      refine .rests ?_
      cases hc : s.clip.copier with
      | idle =>
        cases hq : s.clip.queue with
        | nil => exact .inr rfl
        | cons ev rest => exact absurd hq (hx ev rest hc)
      | allocating p => exact .inl (by simp)
      | unit p k u => exact .inl (by simp)
      | directory p a c => exact .inl (by simp)

/-- The IDLE copier begins the jobs of its queue (R111). -/
theorem State.runJobs_begun (s : State) : JobsBegun s s.runJobs := State.runQueue_begun _ s (le_refl _)

/-! ### Selections (R104, R115) -/

/-- The selection of place `m` of a station-clip, by its place among the plan's. -/
theorem selectionAt_split (cs ds : List StationClip) (c : StationClip) (m : Nat) (x : Selection) (h : c.sels[m]? = some x) (i : Nat) :
    selectionAt i ((cs.map fun c => c.sels.length).sum + m) (cs ++ c :: ds) = some (i + cs.length, c, x) := by
  induction cs generalizing i with
  | nil => simp [selectionAt, h]
  | cons d cs ih =>
    rw [List.cons_append, selectionAt]
    have : d.sels[((d :: cs).map fun c => c.sels.length).sum + m]? = none := by
      rw [List.getElem?_eq_none_iff]; simp; omega
    rw [this]; simp only
    have e : ((d :: cs).map fun c => c.sels.length).sum + m - d.sels.length = (cs.map fun c => c.sels.length).sum + m := by simp; omega
    rw [e, ih (i + 1)]; simp; omega

/-- No selection stands behind the last one. -/
theorem selectionAt_end (cs : List StationClip) (i : Nat) : selectionAt i (cs.map fun c => c.sels.length).sum cs = none := by
  induction cs generalizing i with
  | nil => rfl
  | cons d cs ih =>
    rw [selectionAt]
    have : d.sels[((d :: cs).map fun c => c.sels.length).sum]? = none := by rw [List.getElem?_eq_none_iff]; simp
    rw [this]; simp only
    have e : ((d :: cs).map fun c => c.sels.length).sum - d.sels.length = (cs.map fun c => c.sels.length).sum := by simp
    rw [e, ih]

end Sys2Proof.Machine
end

