-- ==== Sys2Proof/Laws/Layouts.lean ====
section
/-! SUPPORT. The byte layouts that the model writes are those of the spec, field by field (R182, R183, R186, R187). -/
set_option Elab.async false
namespace Sys2Proof.Machine

theorem field_zeros (m off n : Nat) : field (zeros m) off n = 0 := by
  unfold field zeros
  rw [List.drop_replicate, List.take_replicate]
  exact leVal_zeros _

/-- A field in a run of zeros at the front of a layout. -/
theorem field_front_zeros (m off n : Nat) (b : List Byte) (h : off + n ≤ m) : field (zeros m ++ b) off n = 0 := by
  rw [field_append_left (by simpa [zeros_length] using h), field_zeros]

/-- A byte behind the front piece of a layout. -/
theorem getElem?_behind {a b : List Byte} {o : Nat} (h : a.length ≤ o) : (a ++ b)[o]? = b[o - a.length]? := List.getElem?_append_right h

theorem getElem?_zeros {m o : Nat} (h : o < m) : (zeros m)[o]? = some 0 := by simp [zeros, h]

theorem Result.bytes_word (r : Result) : ResultWord r r.bytes := by
  obtain ⟨c, t, res⟩ := r
  have f0 : ∀ bs : List Byte, field (c :: bs) 0 1 = c.toNat := fun bs => by simp [field, leVal]
  have f1 : ∀ bs : List Byte, field (c :: t :: bs) 1 1 = t.toNat := fun bs => by simp [field, leVal]
  have fr : ∀ (bs : List Byte) (o n : Nat), 2 ≤ o → field (c :: t :: bs) o n = field bs (o - 2) n := by
    intro bs o n h
    obtain ⟨k, rfl⟩ := Nat.exists_eq_add_of_le h
    simp [field, Nat.add_comm 2 k]
  have e : (⟨c, t, res⟩ : Result).bytes = c :: t :: (res.bytes ++ zeros 2) := rfl
  rw [e]
  refine ⟨?_, f0 _, f1 _, ?_, ?_, ?_, ?_⟩
  · cases res <;> simp [Res.bytes, zeros_length, leBytes_length]
  all_goals (rw [fr _ _ _ (by omega)])
  · cases res <;> rfl
  · cases res with
    | failed x o => cases x <;> rfl
    | _ => rfl
  · cases res with
    | failed x o =>
      show field (leBytes 1 5 ++ leBytes 1 x.code ++ leBytes 2 o ++ zeros 2) 2 2 = _
      rw [List.append_assoc, List.append_assoc, field_behind _ _ _ _ _ (by omega), field_behind _ _ _ _ _ (by omega), field_front]
      norm_num
    | _ => rfl
  · cases res with
    | failed x o =>
      show field (leBytes 1 5 ++ leBytes 1 x.code ++ leBytes 2 o ++ zeros 2) 4 2 = _
      rw [field_append_right (by simp [leBytes_length])]
      simp only [List.length_append, leBytes_length]
      rfl
    | _ => rfl

theorem heldEvents_length (i : Nat) (l : List (Option Event)) : (heldEvents i l).length = (l.filter Option.isSome).length := by
  induction l generalizing i with
  | nil => rfl
  | cons x l ih => cases x <;> simp [heldEvents, ih]

theorem State.lineBytes_line (h : Nat) (s : State) : StatusLine s h (s.lineBytes h) := by
  unfold State.lineBytes
  simp only [List.append_assoc]
  have w8 : ∀ v : BitVec 24, v.toNat % 256 ^ 8 = v.toNat := fun v => Nat.mod_eq_of_lt (lt_of_lt_of_le v.isLt (by norm_num))
  constructor
  case length => simp [leBytes_length, zeros_length]
  all_goals simp (disch := decide) only [field_behind, field_behind_zeros, Nat.reduceSub, field_front, field_whole, field_front_zeros, w8]
  case part => cases s.control.part <;> rfl
  case cause => cases s.control.cause <;> rfl
  case attendance => cases s.attend.unattended <;> rfl
  case time => cases s.time.state <;> rfl
  case events => unfold State.eventsInUse; rw [heldEvents_length]; norm_num
  case schedule => cases s.sched.state <;> rfl
  case bank =>
    cases s.sched.active with
    | none => rfl
    | some n => cases n <;> rfl
  all_goals norm_num [State.now]

theorem voidHeader_layout (event station : Nat) (x : Selection) (cut memerr : Bool) :
    VoidLayout event station x cut memerr (voidHeader event station x cut memerr) := by
  unfold voidHeader
  simp only [List.append_assoc]
  constructor
  case length => simp [leBytes_length, zeros_length]
  case reserved =>
    refine ⟨by simp (disch := decide) only [field_behind, Nat.reduceSub, field_front_zeros], fun o h1 h2 => ?_⟩
    simp only [← List.append_assoc]
    rw [getElem?_behind (by simp [leBytes_length, zeros_length]; omega)]
    exact getElem?_zeros (by simp [leBytes_length, zeros_length]; omega)
  all_goals simp (disch := decide) only [field_behind, field_behind_zeros, Nat.reduceSub, field_front]
  case flags => cases cut <;> cases memerr <;> rfl
  all_goals norm_num

theorem PickCopy.bytes_length (c : PickCopy) : c.bytes.length = 18 := by
  unfold PickCopy.bytes
  dsimp only
  split <;> simp [leBytes_length, zeros_length]

/-- A byte of the pieces, and what fills them up, behind the pieces. -/
theorem fit_beyond {n o : Nat} {bs : List Byte} (h1 : bs.length ≤ o) (h2 : o < n) : (fit n bs)[o]? = some 0 := by
  unfold fit
  rw [List.getElem?_take_of_lt h2, getElem?_behind h1]
  exact getElem?_zeros (by omega)

/-- A field of a piece, in pieces cut or filled to a length. -/
theorem field_fit {w n : Nat} (xs : List (List Byte)) (h : ∀ x ∈ xs, x.length = w) {k off len : Nat} {x : List Byte}
    (hx : xs[k]? = some x) (hoff : off + len ≤ w) (hn : w * k + off + len ≤ n) : field (fit n xs.flatten) (w * k + off) len = field x off len := by
  rw [← field_flatten xs h hx hoff]
  have hk := (List.getElem?_eq_some_iff.1 hx).1
  have l := flatten_length xs h
  have : w * k + w ≤ w * xs.length := by
    rw [← Nat.mul_succ]
    exact Nat.mul_le_mul_left w hk
  unfold field fit
  rw [List.drop_take, List.take_take, Nat.min_eq_left (by omega), List.drop_append_of_le_length (by omega),
    List.take_append_of_le_length (by rw [List.length_drop]; omega)]

theorem recordBytes_layout (index : Nat) (e : Event) : RecordLayout index e (recordBytes index e) := by
  have eq : recordBytes index e = (leBytes 1 0xB4 ++ leBytes 1 e.zone ++ leBytes 1 (reasonCode e.reason) ++ leBytes 1 e.timeState.code ++
      leBytes 1 e.picks.length ++ zeros 1 ++ leBytes 2 index ++ leBytes 4 e.number ++ leBytes 2 e.peakMax ++ leBytes 2 e.clipFlags.toNat ++
      leBytes 6 e.anchor ++ leBytes 6 e.last ++ leBytes 6 e.declaredAt ++ leBytes 6 (e.closedAt.getD 0) ++
      leBytes 4 (e.clipUnits.getD (0, 0)).1 ++ leBytes 2 (e.clipUnits.getD (0, 0)).2 ++ zeros 2) ++
      (fit 432 (e.picks.map PickCopy.bytes).flatten ++ zeros 32) := by
    unfold recordBytes
    simp only [List.append_assoc]
  have hl : (leBytes 1 0xB4 ++ leBytes 1 e.zone ++ leBytes 1 (reasonCode e.reason) ++ leBytes 1 e.timeState.code ++
      leBytes 1 e.picks.length ++ zeros 1 ++ leBytes 2 index ++ leBytes 4 e.number ++ leBytes 2 e.peakMax ++ leBytes 2 e.clipFlags.toNat ++
      leBytes 6 e.anchor ++ leBytes 6 e.last ++ leBytes 6 e.declaredAt ++ leBytes 6 (e.closedAt.getD 0) ++
      leBytes 4 (e.clipUnits.getD (0, 0)).1 ++ leBytes 2 (e.clipUnits.getD (0, 0)).2 ++ zeros 2).length = 48 := by
    simp [leBytes_length, zeros_length]
  have far : ∀ o n, 48 ≤ o → field (recordBytes index e) o n = field (fit 432 (e.picks.map PickCopy.bytes).flatten ++ zeros 32) (o - 48) n := by
    intro o n h
    rw [eq, field_append_right (by rw [hl]; exact h), hl]
  have near : ∀ o : Nat, 48 ≤ o → (recordBytes index e)[o]? = (fit 432 (e.picks.map PickCopy.bytes).flatten ++ zeros 32)[o - 48]? := by
    intro o h
    rw [eq, getElem?_behind (by rw [hl]; exact h), hl]
  have pl : ∀ x ∈ e.picks.map PickCopy.bytes, x.length = 18 := by
    intro x hx
    obtain ⟨c, -, rfl⟩ := List.mem_map.1 hx
    exact c.bytes_length
  constructor
  case length => rw [eq, List.length_append, hl, List.length_append, fit_length, zeros_length]
  case picks =>
    intro j c hj hc
    have hx : (e.picks.map PickCopy.bytes)[j]? = some c.bytes := by rw [List.getElem?_map, hc]; rfl
    have at' : ∀ o n, o + n ≤ 18 → field (recordBytes index e) (48 + 18 * j + o) n = field c.bytes o n := by
      intro o n h
      rw [far _ _ (by omega), show 48 + 18 * j + o - 48 = 18 * j + o by omega, field_append_left (by rw [fit_length]; omega)]
      exact field_fit _ pl hx h (by omega)
    rw [show 48 + 18 * j = 48 + 18 * j + 0 from rfl, show 49 + 18 * j = 48 + 18 * j + 1 by omega, show 50 + 18 * j = 48 + 18 * j + 2 by omega,
      show 52 + 18 * j = 48 + 18 * j + 4 by omega, show 58 + 18 * j = 48 + 18 * j + 10 by omega, show 64 + 18 * j = 48 + 18 * j + 16 by omega,
      at' 0 1 (by omega), at' 1 1 (by omega), at' 2 2 (by omega), at' 4 6 (by omega), at' 10 6 (by omega), at' 16 2 (by omega)]
    unfold PickCopy.bytes
    dsimp only
    cases c.closure with
    | some k =>
      simp only [List.append_assoc]
      refine ⟨?_, ?_, ?_, ?_, ?_, ?_⟩
      all_goals simp (disch := decide) only [field_behind, Nat.reduceSub, field_front, field_whole]
      case refine_2 => cases c.pick.timeUnsure <;> cases c.pick.desens <;> cases k.cut <;> rfl
      all_goals norm_num
    | none =>
      simp only [List.append_assoc]
      refine ⟨?_, ?_, ?_, ?_, ?_, ?_⟩
      all_goals simp (disch := decide) only [field_behind, Nat.reduceSub, field_front, field_zeros]
      case refine_2 => cases c.pick.timeUnsure <;> cases c.pick.desens <;> rfl
      all_goals norm_num
  case beyond =>
    intro o h1 h2
    rw [near o (by omega), List.getElem?_append_left (by rw [fit_length]; omega)]
    exact fit_beyond (by rw [flatten_length _ pl, List.length_map]; omega) (by omega)
  case reserved =>
    refine ⟨?_, ?_, fun o h1 h2 => ?_⟩
    · unfold recordBytes
      simp only [List.append_assoc]
      simp (disch := decide) only [field_behind, Nat.reduceSub, field_front_zeros]
    · unfold recordBytes
      simp only [List.append_assoc]
      simp (disch := decide) only [field_behind, field_behind_zeros, Nat.reduceSub, field_front_zeros]
    · rw [near o (by omega), getElem?_behind (by rw [fit_length]; omega), fit_length]
      exact getElem?_zeros (by omega)
  all_goals
    unfold recordBytes
    simp only [List.append_assoc]
    simp (disch := decide) only [field_behind, field_behind_zeros, Nat.reduceSub, field_front]
  case reason =>
    cases e.reason with
    | none => rfl
    | some r => cases r <;> rfl
  case time => cases e.timeState <;> rfl
  case flags => exact Nat.mod_eq_of_lt (lt_of_lt_of_le e.clipFlags.isLt (by norm_num))
  all_goals norm_num

/-- One directory entry, of a station-clip whose first selection goes to unit `u`. -/
def directoryEntry (u : Nat) (c : StationClip) : List Byte :=
  match c.sels with
  | x :: _ =>
    leBytes 1 c.station ++ leBytes 1 c.flags.toNat ++ leBytes 1 c.cutCount ++ leBytes 1 c.sels.length ++ leBytes 4 u ++ leBytes 6 x.first ++ zeros 2
  | [] => leBytes 1 c.station ++ leBytes 1 c.flags.toNat ++ leBytes 1 c.cutCount ++ zeros 13

theorem directoryEntry_length (u : Nat) (c : StationClip) : (directoryEntry u c).length = 16 := by
  unfold directoryEntry
  split <;> simp [leBytes_length, zeros_length]

theorem directoryEntries_length (u : Nat) (cs : List StationClip) : (directoryEntries u cs).length = 16 * cs.length := by
  induction cs generalizing u with
  | nil => rfl
  | cons c cs ih =>
    have : directoryEntries u (c :: cs) = directoryEntry u c ++ directoryEntries (u + c.sels.length) cs := rfl
    rw [this, List.length_append, directoryEntry_length, ih, List.length_cons]
    omega

theorem directoryEntries_split (u : Nat) (cs ds : List StationClip) (c : StationClip) :
    directoryEntries u (cs ++ c :: ds) = directoryEntries u cs ++ (directoryEntry (u + (cs.map fun d => d.sels.length).sum) c ++
      directoryEntries (u + (cs.map fun d => d.sels.length).sum + c.sels.length) ds) := by
  induction cs generalizing u with
  | nil => rfl
  | cons b cs ih =>
    have : directoryEntries u (b :: (cs ++ c :: ds)) = directoryEntry u b ++ directoryEntries (u + b.sels.length) (cs ++ c :: ds) := rfl
    rw [List.cons_append, this, ih]
    have : directoryEntries u (b :: cs) = directoryEntry u b ++ directoryEntries (u + b.sels.length) cs := rfl
    rw [this, List.append_assoc, List.map_cons, List.sum_cons, Nat.add_assoc]

theorem directoryBytes_layout (zone : Nat) (p : Plan) (r : Region) : DirectoryLayout zone p r (directoryBytes zone p r) := by
  have eq : directoryBytes zone p r = (leBytes 1 0x3C ++ leBytes 1 zone ++ leBytes 1 p.clips.length ++ zeros 1 ++ leBytes 4 p.event ++
      leBytes 6 p.winStart ++ leBytes 6 p.winEnd ++ leBytes 2 r.units) ++ (zeros 10 ++
      (fit 384 (directoryEntries (r.first + 1) p.clips) ++ zeros 96)) := by
    unfold directoryBytes
    simp only [List.append_assoc]
  have hl : (leBytes 1 0x3C ++ leBytes 1 zone ++ leBytes 1 p.clips.length ++ zeros 1 ++ leBytes 4 p.event ++
      leBytes 6 p.winStart ++ leBytes 6 p.winEnd ++ leBytes 2 r.units).length = 22 := by simp [leBytes_length, zeros_length]
  have far : ∀ o n, 32 ≤ o → field (directoryBytes zone p r) o n = field (fit 384 (directoryEntries (r.first + 1) p.clips) ++ zeros 96) (o - 32) n := by
    intro o n h
    rw [eq, field_append_right (by rw [hl]; omega), hl, field_behind_zeros _ _ _ _ (by omega)]
    congr 1
  have near : ∀ o : Nat, 32 ≤ o → (directoryBytes zone p r)[o]? = (fit 384 (directoryEntries (r.first + 1) p.clips) ++ zeros 96)[o - 32]? := by
    intro o h
    rw [eq, getElem?_behind (by rw [hl]; omega), hl, getElem?_behind (by rw [zeros_length]; omega), zeros_length]
    congr 1
  constructor
  case length => rw [eq, List.length_append, hl, List.length_append, List.length_append, fit_length, zeros_length, zeros_length]
  case reserved =>
    refine ⟨?_, fun o h1 h2 => ?_, fun o h1 h2 => ?_⟩
    · unfold directoryBytes
      simp only [List.append_assoc]
      simp (disch := decide) only [field_behind, Nat.reduceSub, field_front_zeros]
    · rw [eq, getElem?_behind (by rw [hl]; omega), hl, List.getElem?_append_left (by rw [zeros_length]; omega)]
      exact getElem?_zeros (by omega)
    · rw [near o (by omega), getElem?_behind (by rw [fit_length]; omega), fit_length]
      exact getElem?_zeros (by omega)
  case entries =>
    intro cs ds c hc hn
    have at' : ∀ o n, o + n ≤ 16 → field (directoryBytes zone p r) (32 + 16 * cs.length + o) n =
        field (directoryEntry (r.first + 1 + (cs.map fun d => d.sels.length).sum) c) o n := by
      intro o n h
      have lc := directoryEntries_length (r.first + 1) cs
      have le := directoryEntry_length (r.first + 1 + (cs.map fun d => d.sels.length).sum) c
      rw [far _ _ (by omega), show 32 + 16 * cs.length + o - 32 = 16 * cs.length + o by omega, field_append_left (by rw [fit_length]; omega)]
      have f : ∀ bs : List Byte, 16 * cs.length + o + n ≤ bs.length → field (fit 384 bs) (16 * cs.length + o) n = field bs (16 * cs.length + o) n := by
        intro bs hb
        unfold field fit
        rw [List.drop_take, List.take_take, Nat.min_eq_left (by omega), List.drop_append_of_le_length (by omega),
          List.take_append_of_le_length (by rw [List.length_drop]; omega)]
      rw [f _ (by rw [directoryEntries_length, hc, List.length_append, List.length_cons]; omega), hc, directoryEntries_split,
        field_append_right (by rw [lc]; omega), lc, field_append_left (by rw [le]; omega)]
      congr 1
      omega
    rw [show 32 + 16 * cs.length = 32 + 16 * cs.length + 0 from rfl, show 33 + 16 * cs.length = 32 + 16 * cs.length + 1 by omega,
      show 34 + 16 * cs.length = 32 + 16 * cs.length + 2 by omega, show 35 + 16 * cs.length = 32 + 16 * cs.length + 3 by omega,
      show 36 + 16 * cs.length = 32 + 16 * cs.length + 4 by omega, show 40 + 16 * cs.length = 32 + 16 * cs.length + 8 by omega,
      show 46 + 16 * cs.length = 32 + 16 * cs.length + 14 by omega,
      at' 0 1 (by omega), at' 1 1 (by omega), at' 2 1 (by omega), at' 3 1 (by omega), at' 4 4 (by omega), at' 8 6 (by omega), at' 14 2 (by omega)]
    have fl : c.flags.toNat % 256 ^ 1 = c.flags.toNat := Nat.mod_eq_of_lt (lt_of_lt_of_le c.flags.isLt (by norm_num))
    unfold directoryEntry
    cases hs : c.sels with
    | nil =>
      simp only [List.append_assoc, List.length_nil]
      refine ⟨?_, ?_, ?_, ?_, ?_, ?_, ?_⟩
      all_goals simp (disch := decide) only [field_behind, Nat.reduceSub, field_front, field_zeros, fl]
      all_goals norm_num
    | cons x xs =>
      simp only [List.append_assoc]
      refine ⟨?_, ?_, ?_, ?_, ?_, ?_, ?_⟩
      all_goals simp (disch := decide) only [field_behind, Nat.reduceSub, field_front, field_zeros, fl]
      all_goals norm_num
  case beyond =>
    intro o h1 h2
    rw [near o (by omega), List.getElem?_append_left (by rw [fit_length]; omega)]
    exact fit_beyond (by rw [directoryEntries_length]; omega) (by omega)
  all_goals
    unfold directoryBytes
    simp only [List.append_assoc]
    simp (disch := decide) only [field_behind, field_behind_zeros, Nat.reduceSub, field_front]
  all_goals norm_num

end Sys2Proof.Machine
end

