-- ==== Sys2Proof/Laws/PathGuard.lean ====
section
/-! SUPPORT. What the Path Guard does with a request and with its grants, and what its commands keep. -/
-- One lemma after another: elaborated side by side, the package as one text would need too many threads.
set_option Elab.async false
namespace Sys2Proof.Machine

/-! ### Lists -/

theorem removeAt_length {α : Type} (i : Nat) (l : List α) : (removeAt i l).length ≤ l.length := by
  induction l generalizing i with
  | nil => cases i <;> exact le_refl _
  | cons x l ih =>
    cases i with
    | zero => exact Nat.le_succ _
    | succ i => exact Nat.succ_le_succ (ih i)

/-- A change of the Path Guard that keeps the bounds of its queue and of its held list. -/
theorem State.setGuard_keeps (f : PathGuard → PathGuard) (s : State) (h : QueuesOk s.guard → QueuesOk (f s.guard)) :
    Keeps s (s.setGuard f) where
  queues := h

theorem PathGuard.remove_ok (g : PathGuard) (c : Candidate) (h : QueuesOk g) : QueuesOk (g.remove c) := by
  cases c with
  | held i => exact ⟨by simpa [PathGuard.remove] using h.1, (removeAt_length _ _).trans h.2⟩
  | queued i => exact ⟨(removeAt_length _ _).trans h.1, h.2⟩

theorem State.decided_keeps (tag : Nat) (p : Progress) (s : State) : Keeps s (s.decided tag p) := State.setGuard_keeps _ _ fun h => h

/-! ### Releases of the held list (R128, R131, R132) -/

/-- Where a release leaves each entry, and the numbers it gives. -/
theorem releaseList_at (p : Held → Bool) (l : List Held) : ∀ n, n ≤ (releaseList p n l).1 ∧ (releaseList p n l).2.length = l.length ∧
    (∀ (i : Nat) (h : Held), l[i]? = some h → (h.isHeld && p h) = true →
      ∃ k, n ≤ k ∧ k < (releaseList p n l).1 ∧ (releaseList p n l).2[i]? = some (h.release k)) ∧
    (∀ (i : Nat) (h : Held), l[i]? = some h → ¬ (h.isHeld && p h) = true → (releaseList p n l).2[i]? = some h) ∧
    ∀ (i j : Nat) (h k h' k' : Held) (a b : Nat), i < j → l[i]? = some h → (h.isHeld && p h) = true → (releaseList p n l).2[i]? = some h' →
      h'.state = .released a → l[j]? = some k → (k.isHeld && p k) = true → (releaseList p n l).2[j]? = some k' → k'.state = .released b →
      a < b := by
  induction l with
  | nil => intro n; exact ⟨le_refl _, rfl, fun i h m => by simp at m, fun i h m => by simp at m, fun i j h k _ _ _ _ _ m => by simp at m⟩
  | cons x l ih =>
    intro n
    unfold releaseList
    split
    next c =>
      obtain ⟨h0, h1, h2, h3, h4⟩ := ih (n + 1)
      refine ⟨by show n ≤ (releaseList p (n + 1) l).1; omega, by simp [h1], fun i h m hc => ?_, fun i h m hc => ?_,
        fun i j h k h' k' a b hij m1 c1 e1 s1 m2 c2 e2 s2 => ?_⟩
      · cases i with
        | zero => simp at m; subst m; exact ⟨n, le_refl _, h0, rfl⟩
        | succ i =>
          obtain ⟨k, k1, k2, k3⟩ := h2 i h (by simpa using m) hc
          exact ⟨k, by omega, k2, by simpa using k3⟩
      · cases i with
        | zero => simp at m; subst m; exact absurd c hc
        | succ i => simpa using h3 i h (by simpa using m) hc
      · cases j with
        | zero => omega
        | succ j =>
          cases i with
          | zero =>
            simp at e1; subst e1
            obtain ⟨q, q1, q2, q3⟩ := h2 j k (by simpa using m2) c2
            have hk : some (k.release q) = some k' := by rw [← q3]; simpa using e2
            simp at hk; subst hk
            have ha : n = a := by simpa [Held.release] using s1
            have hb : q = b := by simpa [Held.release] using s2
            omega
          | succ i =>
            exact h4 i j h k h' k' a b (by omega) (by simpa using m1) c1 (by simpa using e1) s1 (by simpa using m2) c2 (by simpa using e2) s2
    next c =>
      obtain ⟨h0, h1, h2, h3, h4⟩ := ih n
      refine ⟨h0, by simp [h1], fun i h m hc => ?_, fun i h m hc => ?_, fun i j h k h' k' a b hij m1 c1 e1 s1 m2 c2 e2 s2 => ?_⟩
      · cases i with
        | zero => simp at m; subst m; exact absurd hc c
        | succ i => simpa using h2 i h (by simpa using m) hc
      · cases i with
        | zero => simpa using m
        | succ i => simpa using h3 i h (by simpa using m) hc
      · cases j with
        | zero => omega
        | succ j =>
          cases i with
          | zero => simp at m1; subst m1; exact absurd c1 c
          | succ i =>
            exact h4 i j h k h' k' a b (by omega) (by simpa using m1) c1 (by simpa using e1) s1 (by simpa using m2) c2 (by simpa using e2) s2

theorem Held.isHeld_iff (h : Held) : h.isHeld = true ↔ ∃ d, h.state = .held d := by
  unfold Held.isHeld
  cases h.state <;> simp

/-- What a release does to the held list. -/
theorem State.releaseHeld_releases (p : Held → Bool) (s : State) : HeldReleased (fun h => p h = true) s.guard (s.releaseHeld p).guard where
  length := (releaseList_at p s.guard.held s.guard.releases).2.1
  released i h d hi hp hd := by
    obtain ⟨k, k1, k2, k3⟩ := (releaseList_at p s.guard.held s.guard.releases).2.2.1 i h hi (by simp [hp, h.isHeld_iff, hd])
    exact ⟨k, k1, k2, k3⟩
  stands i h hi hn := by
    refine (releaseList_at p s.guard.held s.guard.releases).2.2.2.1 i h hi ?_
    rcases hn with hn | ⟨n, hn⟩
    · simp [hn]
    · simp [Held.isHeld, hn]
  order i j h k h' k' d e n m hij hi hd hi' hn hj he hj' hm := by
    obtain ⟨_, _, _, q3, q4⟩ := releaseList_at p s.guard.held s.guard.releases
    have key : ∀ (i : Nat) (h h' : Held) (d : Option Nat) (n : Nat), s.guard.held[i]? = some h → h.state = .held d →
        (s.releaseHeld p).guard.held[i]? = some h' → h'.state = .released n → (h.isHeld && p h) = true := by
      intro i h h' d n hi hd hi' hn
      by_contra c
      have e1 : (s.releaseHeld p).guard.held[i]? = some h := q3 i h hi c
      rw [e1] at hi'
      simp at hi'; subst hi'
      rw [hd] at hn; simp at hn
    exact q4 i j h k h' k' n m hij hi (key i h h' d n hi hd hi' hn) hi' hn hj (key j k k' e m hj he hj' hm) hj' hm

/-- What `HeldReleased` says depends on the held list and the release numbers alone. -/
theorem HeldReleased.congr {w v : Held → Prop} {g t g' t' : PathGuard} (h : HeldReleased w g t) (e : ∀ x, v x ↔ w x)
    (a : g'.held = g.held) (b : g'.releases = g.releases) (c : t'.held = t.held) (d : t'.releases = t.releases) : HeldReleased v g' t' where
  length := by rw [a, c]; exact h.length
  released i x q hi hv hd := by
    rw [b, c, d]; exact h.released i x q (by rw [← a]; exact hi) ((e x).1 hv) hd
  stands i x hi hn := by
    rw [c]; exact h.stands i x (by rw [← a]; exact hi) (hn.imp_left fun k q => k ((e x).2 q))
  order i j x y x' y' q r n m := by
    rw [a, c]; exact h.order i j x y x' y' q r n m

/-! ### What blocks take from a granted write of the control page -/

theorem State.controlWord_keeps (off : Nat) (w : List Byte) (s : State) : Keeps s (s.controlWord off w) := by
  unfold State.controlWord
  repeat' split
  · exact State.storeArgument_keeps _ _
  · exact (State.takeAck_onReport _ _).toKeeps
  · exact (State.clearKinds_told _ _).toKeeps
  · exact Keeps.refl s

theorem State.commandWord_keeps (off : Nat) (w : List Byte) (s : State) : Keeps s (s.commandWord off w) := by
  unfold State.commandWord
  split
  · exact State.takeCommand_keeps _ _ _
  · exact Keeps.refl s

theorem State.takePageWrite_keeps (w : PageWrite) (s : State) : Keeps s (s.takePageWrite w) := by
  unfold State.takePageWrite
  simp only
  refine Keeps.trans ?_ (Keeps.foldl (fun t p => State.commandWord_keeps _ _ t) _ _)
  refine Keeps.trans ?_ (State.setupWrite_keeps _ _ _ _)
  exact Keeps.foldl (fun t p => State.controlWord_keeps _ _ t) _ _

theorem State.takeMeaning_keeps (r : Request) (s : State) : Keeps s (s.takeMeaning r) := by
  unfold State.takeMeaning
  split
  · split
    · split
      · exact State.takePageWrite_keeps _ _
      · split
        · exact State.heartbeatRead_keeps s
        · exact Keeps.refl s
    · split
      · split
        · exact (State.takeRingWrite_onIntake _ _).toKeeps
        · exact Keeps.refl s
      · exact Keeps.refl s
  · exact Keeps.refl s

/-! ### Outcomes of a try (R128) -/

theorem State.refuse_keeps (c : Candidate) (r : Request) (s : State) : Keeps s (s.refuse c r) := by
  unfold State.refuse
  refine Keeps.trans ?_ (State.raise_told _ _).toKeeps
  refine Keeps.trans ?_ (State.count_told _ _).toKeeps
  refine Keeps.trans ?_ (State.decided_keeps _ _ _)
  exact State.setGuard_keeps _ _ fun h => PathGuard.remove_ok _ _ h

theorem State.hold_keeps (c : Candidate) (r : Request) (k : HoldKind) (s : State) : Keeps s (s.hold c r k) := by
  unfold State.hold
  simp only
  split
  · refine Keeps.trans ?_ (State.count_told _ _).toKeeps
    exact State.setGuard_keeps _ _ fun h => ⟨h.1, by simpa using h.2⟩
  · split
    next i l =>
      refine Keeps.trans ?_ (State.count_told _ _).toKeeps
      refine State.setGuard_keeps _ _ fun h => ⟨(removeAt_length _ _).trans h.1, ?_⟩
      simp only [List.length_append, List.length_singleton]
      omega
    · exact State.setGuard_keeps _ _ fun h => ⟨by simpa using h.1, h.2⟩

theorem State.countGrant_keeps (s : State) : Keeps s s.countGrant := by
  unfold State.countGrant
  split
  · exact State.setGuard_keeps _ _ fun h => h
  · exact State.setGuard_keeps _ _ fun h => h

theorem State.grantPass_keeps (c : Candidate) (r : Request) (cuts : List Nat) (s : State) : Keeps s (s.grantPass c r cuts) := by
  unfold State.grantPass
  simp only
  refine Keeps.trans ?_ (State.countGrant_keeps _)
  refine Keeps.trans ?_ (State.takeMeaning_keeps _ _)
  refine Keeps.trans ?_ (Keeps.foldl (fun t n => (State.cutSlot_onIntake n t).toKeeps) _ _)
  refine Keeps.trans ?_ (State.sendPass_keeps _ _)
  refine Keeps.trans ?_ (State.decided_keeps _ _ _)
  exact State.setGuard_keeps _ _ fun h => PathGuard.remove_ok _ _ h

theorem State.grantOwn_keeps (c : Claimant) (s : State) : Keeps s (s.grantOwn c) := by
  unfold State.grantOwn
  split
  · exact State.grantLoader_keeps s
  · exact State.grantStatus_keeps s
  · exact (State.grantReport_onReport s).toKeeps
  · split
    · exact State.grantRefetch_keeps _ _ _
    · exact Keeps.refl s
  · exact (State.grantCopier_onReport s).toKeeps

theorem State.grantPart_keeps (c : Claimant) (sh : Bool) (s : State) : Keeps s (s.grantPart c sh) := by
  unfold State.grantPart
  refine Keeps.trans ?_ (State.countGrant_keeps _)
  refine Keeps.trans ?_ (State.grantOwn_keeps _ _)
  exact State.setGuard_keeps _ _ fun h => h

/-- The state of a try. -/
def PassOutcome.state : PassOutcome → State
  | .granted s => s
  | .again s => s

theorem State.tryPass_keeps (c : Candidate) (s : State) : Keeps s (s.tryPass c).state := by
  unfold State.tryPass
  split
  · split
    · exact State.grantPass_keeps _ _ _ _
    · exact State.refuse_keeps _ _ _
    · exact State.hold_keeps _ _ _ _
  · exact Keeps.refl s

/-- The arbiter's event keeps every law, however often it decides again (R128, R134). -/
theorem State.arbitrate_keeps (n : Nat) (s : State) : Keeps s (s.arbitrate n) := by
  induction n generalizing s with
  | zero => exact Keeps.refl s
  | succ n ih =>
    unfold State.arbitrate
    split
    · split
      · exact State.grantPart_keeps _ _ _
      · have k := s.tryPass_keeps ‹Candidate›
        split
        next h => rw [h] at k; exact k
        next h => rw [h] at k; exact Keeps.trans k (ih _)
    · exact State.grantPart_keeps _ _ _
    · exact Keeps.refl s

/-! ### The commands -/

theorem execDownstreamGrant_keeps {s u : State} (e : execDownstreamGrant s = .next u) : Keeps s u := by
  unfold execDownstreamGrant at e
  split at e
  · exact nothing_keeps e
  · exact done_keeps (State.arbitrate_keeps _ _) e

theorem execUpstreamRequest_keeps {r : Request} {s u : State} (e : execUpstreamRequest r s = .next u) : Keeps s u := by
  unfold execUpstreamRequest at e
  split at e
  · exact absurd e (by simp)
  · split at e
    next h =>
      refine done_keeps (State.setGuard_keeps _ _ fun k => ⟨?_, k.2⟩) e
      simp only [List.length_append, List.length_singleton]
      omega
    · exact nothing_keeps e

theorem execUpstreamCompletion_keeps {tag : Nat} {code : MemCode} {data : List Byte} {s u : State}
    (e : execUpstreamCompletion tag code data s = .next u) : Keeps s u := by
  unfold execUpstreamCompletion at e
  split at e
  next v rest _ =>
    have k : Keeps s (s.setGuard fun g => { g with unanswered := rest }) := State.setGuard_keeps _ _ fun h => h
    simp only at e
    split at e
    · exact done_keeps (k.trans (State.setGuard_keeps _ _ fun h => h)) e
    · split at e
      next h => exact done_keeps ((k.trans (State.complete_onReport h).toKeeps).trans (State.setGuard_keeps _ _ fun h => h)) e
      · exact nothing_keeps e
    · exact nothing_keeps e
  · exact nothing_keeps e

theorem execSlotFree_onReport {n : Nat} {s u : State} (e : execSlotFree n s = .next u) : OnReport s u := by
  unfold execSlotFree at e
  split at e
  · exact done_onReport ((State.setWires_onReport _ _).trans (State.releaseHeld_onReport _ _)) e
  · exact nothing_onReport e

theorem execHoldLimitExpiry_onReport {i : Nat} {s u : State} (e : execHoldLimitExpiry i s = .next u) : OnReport s u := by
  unfold execHoldLimitExpiry at e
  split at e
  · split at e
    · split at e
      · refine done_onReport (OnReport.trans ?_ (State.setWires_onReport _ _)) e
        refine State.setGuard_onReport _ s rfl ?_
        exact List.length_modify ..
      · exact nothing_onReport e
    · exact nothing_onReport e
  · exact nothing_onReport e

theorem execReadHoldExpiry_onReport {i : Nat} {s u : State} (e : execReadHoldExpiry i s = .next u) : OnReport s u := by
  unfold execReadHoldExpiry at e
  split at e
  · split at e
    · refine done_onReport (State.setGuard_onReport _ s rfl ?_) e
      exact List.length_modify ..
    · exact nothing_onReport e
  · exact nothing_onReport e

theorem execUnattendedAtPathGuard_keeps {s u : State} (e : execUnattendedAtPathGuard s = .next u) : Keeps s u := by
  unfold execUnattendedAtPathGuard at e
  split at e
  · exact nothing_keeps e
  · refine done_keeps (Keeps.trans ?_ (State.releaseHeld_onReport _ _).toKeeps) e
    refine Keeps.trans (State.setWires_keeps (fun w => { w with unattGuard := w.unattGuard - 1 }) s) ?_
    exact Keeps.foldl (fun t n => (State.cutSlot_onIntake n t).toKeeps) _ _

end Sys2Proof.Machine
end

