-- ==== Sys2Proof/Laws/SetupWords.lean ====
section
/-! SUPPORT. The words of a setup write, one after the other: what a word does does not depend on the notices and tallies, so a write of
several words is the writes of its parts, but for the one SETUP_IGNORED (log 15). -/
namespace Sys2Proof.Machine

/-- Two states that differ in notices, tallies and the status line writer only, each after the same change, which kept the notices and
the tallies of either: IRQ stands in both, or is set anew in both. -/
structure Moves (s k s' k' : State) : Prop where
  frame : Frame [.notices, .writer, .tallies] s' k'
  pending : s'.status.pending = s.status.pending ∧ k'.status.pending = k.status.pending
  tallies : s'.tallies = s.tallies ∧ k'.tallies = k.tallies
  irq : s'.mask = s.mask ∧ s'.status.irq = s.status.irq ∧ k'.status.irq = k.status.irq ∨
    s'.status.irq = irqLevel s.status.pending s'.mask ∧ k'.status.irq = irqLevel k.status.pending s'.mask

theorem Moves.refl {s k : State} (h : Frame [.notices, .writer, .tallies] s k) : Moves s k s k :=
  ⟨h, ⟨rfl, rfl⟩, ⟨rfl, rfl⟩, .inl ⟨rfl, rfl, rfl⟩⟩

theorem Moves.trans {s k s1 k1 s2 k2 : State} (a : Moves s k s1 k1) (b : Moves s1 k1 s2 k2) : Moves s k s2 k2 := by
  refine ⟨b.frame, ⟨b.pending.1.trans a.pending.1, b.pending.2.trans a.pending.2⟩, ⟨b.tallies.1.trans a.tallies.1, b.tallies.2.trans a.tallies.2⟩, ?_⟩
  rcases b.irq with ⟨m, x, y⟩ | ⟨x, y⟩
  · rcases a.irq with ⟨m', x', y'⟩ | ⟨x', y'⟩
    · exact .inl ⟨m.trans m', x.trans x', y.trans y'⟩
    · exact .inr ⟨by rw [x, x', m], by rw [y, y', m]⟩
  · exact .inr ⟨by rw [x, a.pending.1], by rw [y, a.pending.2]⟩

/-- `s` with the notices, the status line writer and the tallies of `k`. -/
def State.told (k s : State) : State :=
  { s with
    tallies := k.tallies
    status := { s.status with
      pending := k.status.pending, irq := k.status.irq, rewrite := k.status.rewrite, result := k.status.result, offer := k.status.offer } }

theorem State.told_frame (k s : State) : Frame [.notices, .writer, .tallies] s (State.told k s) := by
  intro a h
  cases a <;> first
    | exact absurd (by decide) h
    | exact ⟨rfl, rfl, rfl⟩
    | rfl

theorem State.told_of {s k : State} (h : Frame [.notices, .writer, .tallies] s k) : k = State.told k s := by
  have h1 := h .time (by decide)
  have h2 := h .control (by decide)
  have h3 := h .intake (by decide)
  have h4 := h .engine (by decide)
  have h5 := h .sched (by decide)
  have h6 := h .assoc (by decide)
  have h7 := h .clip (by decide)
  have h8 := h .guard (by decide)
  have h9 := h .report (by decide)
  have h10 := h .line (by decide)
  have h11 := h .attend (by decide)
  have h12 := h .wires (by decide)
  have h13 := h .draws (by decide)
  have h14 := h .pending (by decide)
  obtain ⟨_, _, _, _, _, _, _, _, _, ⟨_, _, _, _, _, _, _, _⟩, _, _, _, _, _⟩ := s
  obtain ⟨_, _, _, _, _, _, _, _, _, ⟨_, _, _, _, _, _, _, _⟩, _, _, _, _, _⟩ := k
  simp only [Same] at h1 h2 h3 h4 h5 h6 h7 h8 h9 h10 h11 h12 h13 h14
  obtain ⟨h10, h15, h16⟩ := h10
  subst h1 h2 h3 h4 h5 h6 h7 h8 h9 h10 h11 h12 h13 h14 h15 h16
  rfl

/-- What moves the rest of the state alike, whatever the notices and tallies are. -/
theorem Moves.of {s k : State} (h : Frame [.notices, .writer, .tallies] s k) {f : State → State} (k' : State)
    (c : f (State.told k s) = State.told k' (f s)) (p : (f s).status.pending = s.status.pending ∧ k'.status.pending = k.status.pending)
    (q : (f s).status.irq = s.status.irq ∧ k'.status.irq = k.status.irq) (t : (f s).tallies = s.tallies ∧ k'.tallies = k.tallies)
    (m : (f s).mask = s.mask) : Moves s k (f s) (f k) := by
  have e : f k = State.told k' (f s) := (congrArg f (State.told_of h)).trans c
  rw [e]
  exact ⟨State.told_frame _ _, p, t, .inl ⟨m, q.1, q.2⟩⟩

/-- A change of one area, which the status record and the tallies are not. -/
theorem Moves.plain {s k : State} (h : Frame [.notices, .writer, .tallies] s k) {f : State → State}
    (c : f (State.told k s) = State.told k (f s)) (p : (f s).status = s.status) (t : (f s).tallies = s.tallies) (m : (f s).mask = s.mask) :
    Moves s k (f s) (f k) := .of h k c ⟨by rw [p], rfl⟩ ⟨by rw [p], rfl⟩ ⟨t, rfl⟩ m

theorem Moves.setGen {s k : State} (h : Frame [.notices, .writer, .tallies] s k) (f : General → General)
    (n : ∀ g, (f g).noticeMask = g.noticeMask) : Moves s k (s.setGen f) (k.setGen f) := by
  refine .plain (f := fun x => x.setGen f) h rfl rfl rfl ?_
  show (s.setGen f).mask = s.mask
  unfold State.mask
  show (match s.control.setup.map (fun u => { u with gen := f u.gen }) with
    | some u => u.gen.noticeMask
    | none => 0) = _
  rcases s.control.setup with _ | u
  · rfl
  · exact n _

theorem Moves.askRewrite {s k : State} (h : Frame [.notices, .writer, .tallies] s k) : Moves s k s.askRewrite k.askRewrite :=
  .of (f := State.askRewrite) h k.askRewrite rfl ⟨rfl, rfl⟩ ⟨rfl, rfl⟩ ⟨rfl, rfl⟩ rfl

theorem Moves.setSchedState {s k : State} (x : SchedState) (h : Frame [.notices, .writer, .tallies] s k) :
    Moves s k (s.setSchedState x) (k.setSchedState x) := by
  have e : k.sched = s.sched := h .sched (by decide)
  unfold State.setSchedState
  rw [e]
  split
  · exact .refl h
  · have a : Moves s k (s.setSched fun c => { c with state := x }) (k.setSched fun c => { c with state := x }) :=
      .plain (f := fun y => y.setSched fun c => { c with state := x }) h rfl rfl rfl rfl
    exact a.trans (.askRewrite a.frame)

theorem Moves.stopSchedule {s k : State} (x : SchedState) (h : Frame [.notices, .writer, .tallies] s k) :
    Moves s k (s.stopSchedule x) (k.stopSchedule x) := by
  have e : k.sched = s.sched := h .sched (by decide)
  unfold State.stopSchedule
  rw [e]
  split
  · have a : Moves s k s.leaveRunning k.leaveRunning := .plain (f := State.leaveRunning) h rfl rfl rfl rfl
    exact a.trans (.setSchedState x a.frame)
  · exact .setSchedState x h

theorem Moves.enterWaitRef {s k : State} (h : Frame [.notices, .writer, .tallies] s k) : Moves s k s.enterWaitRef k.enterWaitRef := by
  unfold State.enterWaitRef
  have a : Moves s k (s.setSched fun c => { c with cycleCount := some s.gen.cycleMax, lastRef := none })
      (k.setSched fun c => { c with cycleCount := some k.gen.cycleMax, lastRef := none }) :=
    .plain (f := fun y => y.setSched fun c => { c with cycleCount := some y.gen.cycleMax, lastRef := none }) h rfl rfl rfl rfl
  have b : ∀ {x y : State} (_ : Frame [.notices, .writer, .tallies] x y), Moves x y (x.startTimer x.now) (y.startTimer y.now) := by
    intro x y g
    have e : y.gen = x.gen := by unfold State.gen; rw [show y.control = x.control from g .control (by decide)]
    unfold State.startTimer
    rw [e]
    split
    · exact .plain (f := fun z => z.setSched fun c => { c with timer := some (deadline z.now (c.period.getD 0 * 100)) }) g rfl rfl rfl rfl
    · exact .refl g
  have c := b a.frame
  exact (a.trans c).trans (.setSchedState .waitRef c.frame)

theorem Moves.applyConditions {s k : State} (p : PartState) (x : TimeState) (h : Frame [.notices, .writer, .tallies] s k) :
    Moves s k (s.applyConditions p x) (k.applyConditions p x) := by
  have e : k.sched = s.sched := h .sched (by decide)
  have g : k.gen = s.gen := by unfold State.gen; rw [show k.control = s.control from h .control (by decide)]
  unfold State.applyConditions
  rw [e, g]
  split
  · exact .stopSchedule _ h
  · split
    · exact .stopSchedule _ h
    · split
      · exact .refl h
      · exact .enterWaitRef h

/-! ### Words -/

/-- Two setups on their way that differ as in `Moves`, each after the same word: both keep the flag, or both set it. -/
def Taken.moves (t u t' u' : Taken) : Prop := Moves t.1 u.1 t'.1 u'.1 ∧ ∃ f : Bool, t'.2 = (t.2 || f) ∧ u'.2 = (u.2 || f)

theorem Taken.moves_refl {t u : Taken} (h : Frame [.notices, .writer, .tallies] t.1 u.1) : Taken.moves t u t u :=
  ⟨.refl h, false, by simp, by simp⟩

theorem Taken.moves_trans {t u t1 u1 t2 u2 : Taken} (a : Taken.moves t u t1 u1) (b : Taken.moves t1 u1 t2 u2) : Taken.moves t u t2 u2 := by
  obtain ⟨a, f, a1, a2⟩ := a
  obtain ⟨b, g, b1, b2⟩ := b
  exact ⟨a.trans b, f || g, by rw [b1, a1, Bool.or_assoc], by rw [b2, a2, Bool.or_assoc]⟩

theorem Taken.moves_flag {t u : Taken} (h : Frame [.notices, .writer, .tallies] t.1 u.1) : Taken.moves t u (t.1, true) (u.1, true) :=
  ⟨.refl h, true, by simp, by simp⟩

theorem Taken.moves_state {t u : Taken} {s k : State} (m : Moves t.1 u.1 s k) : Taken.moves t u (s, t.2) (k, u.2) :=
  ⟨m, false, by simp, by simp⟩

theorem liveField_moves {t u : Taken} (ok : Bool) (f : General → General) (n : ∀ g, (f g).noticeMask = g.noticeMask)
    (h : Frame [.notices, .writer, .tallies] t.1 u.1) : Taken.moves t u (liveField ok f t) (liveField ok f u) := by
  unfold liveField
  split
  · exact Taken.moves_state (.setGen h f n)
  · exact Taken.moves_flag h

theorem gen_of_frame {s k : State} (h : Frame [.notices, .writer, .tallies] s k) : k.gen = s.gen := by
  unfold State.gen
  rw [show k.control = s.control from h .control (by decide)]

theorem writeScheduleEnable_moves {t u : Taken} (v : Nat) (h : Frame [.notices, .writer, .tallies] t.1 u.1) :
    Taken.moves t u (State.writeScheduleEnable v t) (State.writeScheduleEnable v u) := by
  unfold State.writeScheduleEnable
  rw [gen_of_frame h]
  split
  · simp only
    split
    · exact Taken.moves_refl h
    · refine Taken.moves_state ?_
      have a := Moves.setGen h (fun g => { g with scheduleEnable := v == 1 }) (fun _ => rfl)
      have c : u.1.control.part = t.1.control.part := by rw [show u.1.control = t.1.control from h .control (by decide)]
      have x : u.1.time.state = t.1.time.state := by rw [show u.1.time = t.1.time from h .time (by decide)]
      have b := Moves.applyConditions t.1.control.part t.1.time.state a.frame
      have e : (u.1.setGen fun g => { g with scheduleEnable := v == 1 }).control.part = t.1.control.part := c
      have e' : (u.1.setGen fun g => { g with scheduleEnable := v == 1 }).time.state = t.1.time.state := x
      rw [e, e']
      exact a.trans b
  · exact Taken.moves_flag h

theorem writeServiceInterval_moves {t u : Taken} (v : Nat) (h : Frame [.notices, .writer, .tallies] t.1 u.1) :
    Taken.moves t u (State.writeServiceInterval v t) (State.writeServiceInterval v u) := by
  unfold State.writeServiceInterval
  rw [gen_of_frame h]
  have a := Moves.setGen h (fun g => { g with serviceInterval := v }) (fun _ => rfl)
  have c : (u.1.setGen fun g => { g with serviceInterval := v }).control.part.serviced =
      (t.1.setGen fun g => { g with serviceInterval := v }).control.part.serviced := by
    show u.1.control.part.serviced = t.1.control.part.serviced
    rw [show u.1.control = t.1.control from h .control (by decide)]
  have n : (u.1.setGen fun g => { g with serviceInterval := v }).serviceAt = (t.1.setGen fun g => { g with serviceInterval := v }).serviceAt := by
    unfold State.serviceAt State.now
    rw [gen_of_frame a.frame]
    show deadline u.1.time.count _ = deadline t.1.time.count _
    rw [show u.1.time = t.1.time from h .time (by decide)]
  split
  · simp only
    rw [c, n]
    split
    · exact Taken.moves_state (a.trans (.plain (f := fun y => y.setAttend fun w => { w with deadline := none }) a.frame rfl rfl rfl rfl))
    · split
      · generalize (t.1.setGen fun g => { g with serviceInterval := v }).serviceAt = d
        exact Taken.moves_state (a.trans (.plain (f := fun y => y.setAttend fun w => { w with deadline := some d }) a.frame rfl rfl rfl rfl))
      · exact Taken.moves_state a
  · exact Taken.moves_flag h

theorem writeMask_moves {t u : Taken} (v : Nat) (h : Frame [.notices, .writer, .tallies] t.1 u.1) :
    Taken.moves t u (State.writeMask v t) (State.writeMask v u) := by
  unfold State.writeMask
  rw [gen_of_frame h]
  simp only
  split
  · exact Taken.moves_refl h
  · refine Taken.moves_state ?_
    have c : u.1.control = t.1.control := h .control (by decide)
    have m : (u.1.setGen fun g => { g with noticeMask := BitVec.ofNat 24 v }).mask = (t.1.setGen fun g => { g with noticeMask := BitVec.ofNat 24 v }).mask := by
      unfold State.mask State.setGen State.setControl
      rw [c]
    have e := State.told_of h
    refine ⟨?_, ⟨rfl, rfl⟩, ⟨rfl, rfl⟩, .inr ⟨rfl, ?_⟩⟩
    · rw [e]
      intro ar har
      cases ar <;> first
        | exact absurd (by decide) har
        | exact ⟨rfl, rfl, rfl⟩
        | rfl
    · show irqLevel _ _ = irqLevel _ _
      exact congrArg (irqLevel _) m

theorem generalWord_moves {t u : Taken} (off : Nat) (w : List Byte) (h : Frame [.notices, .writer, .tallies] t.1 u.1) :
    Taken.moves t u (State.generalWord off w t) (State.generalWord off w u) := by
  unfold State.generalWord
  rw [gen_of_frame h]
  split
  · exact Taken.moves_flag h
  · split
    · simp only
      have a := liveField_moves (silenceLimitOk (field w 0 1)) (fun g => { g with silenceLimit := field w 0 1 }) (fun _ => rfl) h
      have b := Taken.moves_trans a (writeScheduleEnable_moves (field w 1 1) a.1.frame)
      have c := Taken.moves_trans b (liveField_moves true (fun g => { g with refMinPeriod := field w 2 2 }) (fun _ => rfl) b.1.frame)
      have d := Taken.moves_trans c (liveField_moves (intakeLatencyOk (field w 4 2)) (fun g => { g with intakeLatency := field w 4 2 })
        (fun _ => rfl) c.1.frame)
      exact Taken.moves_trans d (liveField_moves (watermarkOk t.1.gen.reportCap (field w 6 2))
        (fun g => { g with reportWatermark := field w 6 2 }) (fun _ => rfl) d.1.frame)
    · split
      · simp only
        have a := liveField_moves (preOk (field w 0 2)) (fun g => { g with pre := field w 0 2 }) (fun _ => rfl) h
        have b := Taken.moves_trans a (liveField_moves (postOk (field w 2 2)) (fun g => { g with post := field w 2 2 }) (fun _ => rfl) a.1.frame)
        have c := Taken.moves_trans b (liveField_moves (tailWaitOk (field w 4 2)) (fun g => { g with tailWait := field w 4 2 })
          (fun _ => rfl) b.1.frame)
        exact Taken.moves_trans c (writeServiceInterval_moves (field w 6 2) c.1.frame)
      · split
        · simp only
          have a := liveField_moves (copyBurstOk (field w 0 1)) (fun g => { g with copyBurst := field w 0 1 }) (fun _ => rfl) h
          have b := Taken.moves_trans a (liveField_moves (holdLimitOk (field w 1 1)) (fun g => { g with holdLimit := field w 1 1 })
            (fun _ => rfl) a.1.frame)
          have c := Taken.moves_trans b (liveField_moves (partShareOk (field w 2 1)) (fun g => { g with partShare := field w 2 1 })
            (fun _ => rfl) b.1.frame)
          exact Taken.moves_trans c (writeMask_moves (field w 4 3) c.1.frame)
        · split
          · exact Taken.moves_state (.plain (f := fun y => y.setSched fun c =>
              { c with stagedPeriod := some (field w 0 2), stagedBank := some (field w 2 1) }) h rfl rfl rfl rfl)
          · exact Taken.moves_refl h

theorem Moves.setStation {s k : State} (st : Nat) (f : StationEntry → StationEntry) (h : Frame [.notices, .writer, .tallies] s k) :
    Moves s k (s.setStation st f) (k.setStation st f) := by
  refine .plain (f := fun x => x.setStation st f) h rfl rfl rfl ?_
  show (s.setStation st f).mask = s.mask
  unfold State.mask
  show (match s.control.setup.map (fun u => { u with stations := u.stations.modify st f }) with
    | some u => u.gen.noticeMask
    | none => 0) = _
  cases s.control.setup <;> rfl

theorem Moves.disable {s k : State} (st : Nat) (h : Frame [.notices, .writer, .tallies] s k) : Moves s k (s.disable st) (k.disable st) := by
  have a := Moves.setStation st (fun e => { e with enabled := false }) h
  unfold State.disable
  simp only
  rw [show k.control = s.control from h .control (by decide), show k.engine = s.engine from h .engine (by decide)]
  split
  · split
    next d _ =>
      have b := a.trans (.plain (f := fun y => y.setDetector st fun x =>
        { x with state := .off, openPick := none, startPending := false, silence := none, silent := false }) a.frame rfl rfl rfl rfl)
      exact b.trans (.plain (f := fun y => y.sendAssoc (d.disableClosure st)) b.frame rfl rfl rfl rfl)
    · exact a
  · exact a

theorem Moves.enable {s k : State} (st : Nat) (h : Frame [.notices, .writer, .tallies] s k) : Moves s k (s.enable st) (k.enable st) := by
  have a := Moves.setStation st (fun e => { e with enabled := true }) h
  have n : k.silenceAt = s.silenceAt := by
    unfold State.silenceAt State.now
    rw [gen_of_frame h, show k.time = s.time from h .time (by decide)]
  unfold State.enable
  simp only
  rw [show k.control = s.control from h .control (by decide), n]
  split
  · exact a.trans (.plain (f := fun y => y.setDetector st fun x => { x with startPending := true, silence := some s.silenceAt }) a.frame
      rfl rfl rfl rfl)
  · exact a

theorem stationWord_moves {t u : Taken} (off : Nat) (w : List Byte) (h : Frame [.notices, .writer, .tallies] t.1 u.1) :
    Taken.moves t u (State.stationWord off w t) (State.stationWord off w u) := by
  unfold State.stationWord
  simp only
  split
  · exact Taken.moves_flag h
  · split
    · unfold State.writeEnabled
      have e : ∀ st, u.1.station st = t.1.station st := by
        intro st
        unfold State.station
        rw [show u.1.control = t.1.control from h .control (by decide)]
      rw [e]
      split
      · split
        · refine Taken.moves_state ?_
          split
          · exact .disable _ h
          · exact .refl h
        · split
          · refine Taken.moves_state ?_
            split
            · exact .refl h
            · exact .enable _ h
          · exact Taken.moves_flag h
      · exact Taken.moves_refl h
    · split
      · exact Taken.moves_state (.plain (f := fun y => y.stage ((off - 0x200) / 32) fun g =>
          { g with
            shortExp := some (field w 0 1), longExp := some (field w 1 1), onRatio := some (field w 2 2), offRatio := some (field w 4 2),
            minOn := some (field w 6 1) }) h rfl rfl rfl rfl)
      · exact Taken.moves_state (.plain (f := fun y => y.stage ((off - 0x200) / 32) fun g =>
          { g with deadTime := some (field w 0 2), maxOn := some (field w 2 2) }) h rfl rfl rfl rfl)

/-- What a setup word does, and whether it is taken, does not depend on the notices and tallies. -/
theorem setupWord_moves {t u : Taken} (off : Nat) (w : List Byte) (h : Frame [.notices, .writer, .tallies] t.1 u.1) :
    Taken.moves t u (State.setupWord off w t) (State.setupWord off w u) := by
  unfold State.setupWord
  split
  · exact Taken.moves_refl h
  · split
    · exact generalWord_moves off w h
    · split
      · exact stationWord_moves off w h
      · split
        · exact Taken.moves_flag h
        · split
          · unfold State.bankWord
            rw [show u.1.sched = t.1.sched from h .sched (by decide)]
            split
            · exact Taken.moves_flag h
            · exact Taken.moves_state (.plain (f := fun y => y.setSched (Schedule.setEntry (bankAt off) (entryAt off) (parseBankEntry w))) h
                rfl rfl rfl rfl)
          · exact Taken.moves_refl h

/-! ### Writes -/

/-- The words of a setup write, one after the other, with their page offsets (R126). -/
def State.takeAll (l : List (Nat × List (Option Byte))) (t : Taken) : Taken :=
  l.foldl (fun (t : Taken) p =>
    match fullWord p.2 with
    | some bs => State.setupWord p.1 bs t
    | none => t) t

/-- The end of a setup write: SETUP_IGNORED once, when something was not taken (R151; log 15). -/
def Taken.finish (t : Taken) : State := if t.2 then t.1.setupIgnored else t.1

theorem takeAll_append (l k : List (Nat × List (Option Byte))) (t : Taken) : State.takeAll (l ++ k) t = State.takeAll k (State.takeAll l t) :=
  List.foldl_append

theorem takeAll_moves (l : List (Nat × List (Option Byte))) {t u : Taken} (h : Frame [.notices, .writer, .tallies] t.1 u.1) :
    Taken.moves t u (State.takeAll l t) (State.takeAll l u) := by
  induction l generalizing t u with
  | nil => exact Taken.moves_refl h
  | cons p l ih =>
    show Taken.moves t u (State.takeAll l (match fullWord p.2 with
      | some bs => State.setupWord p.1 bs t
      | none => t)) (State.takeAll l (match fullWord p.2 with
      | some bs => State.setupWord p.1 bs u
      | none => u))
    cases fullWord p.2 with
    | none => exact ih h
    | some bs =>
      have a := setupWord_moves p.1 bs h
      exact Taken.moves_trans a (ih a.1.frame)

theorem State.setupIgnored_irq (s : State) : s.setupIgnored.status.irq =
    if s.status.pending ||| Notice.setupIgnored.bit = s.status.pending then s.status.irq
    else irqLevel (s.status.pending ||| Notice.setupIgnored.bit) s.mask := by
  show (s.raise .setupIgnored).status.irq = _
  unfold State.raise State.setPending
  split <;> rfl

theorem State.setupIgnored_raised (s : State) : s.setupIgnored.status.pending = s.status.pending ||| Notice.setupIgnored.bit := by
  show (s.raise .setupIgnored).status.pending = _
  unfold State.raise State.setPending
  split
  next h => exact h.symm
  · rfl

theorem State.setupIgnored_tallies {s k : State} (h : s.tallies = k.tallies) : s.setupIgnored.tallies = k.setupIgnored.tallies := by
  have e : ∀ x : State, x.setupIgnored.tallies = { x.tallies with global := x.tallies.global.modify Tally.setupIgnored.slot (saturate 1) } := by
    intro x
    show { (x.raise .setupIgnored).tallies with global := (x.raise .setupIgnored).tallies.global.modify Tally.setupIgnored.slot (saturate 1) } = _
    rw [State.raise_tallies]
  rw [e, e, h]

theorem Frame.symm {l : List Area} {s t : State} (h : Frame l s t) : Frame l t s := fun a n => by
  have := h a n
  cases a <;> first
    | exact this.symm
    | exact ⟨this.1.symm, this.2.symm⟩
    | exact ⟨this.1.symm, this.2.1.symm, this.2.2.symm⟩

/-- The areas that `Moves` lets differ, with the notices shown to agree. -/
theorem Frame.noticed {s k : State} (h : Frame [.notices, .writer, .tallies] s k) (p : k.status.pending = s.status.pending)
    (q : k.status.irq = s.status.irq) : Frame [.writer, .tallies] s k := by
  intro a m
  by_cases c : a = .notices
  · subst c; exact ⟨p, q⟩
  · exact h a (by simp only [List.mem_cons, List.not_mem_nil, or_false] at m ⊢; tauto)

/-- A setup write of several words is the write of the first ones and then of the others, but that SETUP_IGNORED is counted once
(R151; log 15). -/
theorem takeAll_split (l k : List (Nat × List (Option Byte))) (s m n t : State) (hm : m = (Taken.finish (State.takeAll l (s, false))))
    (hn : n = Taken.finish (State.takeAll k (m.settle, false))) (ht : t = Taken.finish (State.takeAll (l ++ k) (s, false))) :
    t.tallies = (if m.tallies = s.tallies then n.tallies else m.tallies) ∧ Frame [.writer, .tallies] n t := by
  rw [takeAll_append] at ht
  have a := takeAll_moves l (t := (s, false)) (u := (s, false)) (Frame.refl _ _)
  generalize State.takeAll l (s, false) = x at a hm ht
  obtain ⟨x, b⟩ := x
  have ap := a.1.pending.1
  have at' := a.1.tallies.1
  simp only at ap at'
  have fm : Frame [.notices, .writer, .tallies] x m.settle := by
    refine State.settle_frame ?_ (by decide)
    rw [hm]
    unfold Taken.finish
    split
    · exact State.setupIgnored_frame (Frame.refl _ _) (by decide)
    · exact Frame.refl _ _
  have mv := takeAll_moves k (t := (x, b)) (u := (m.settle, false)) fm
  generalize State.takeAll k (x, b) = y at mv ht
  generalize State.takeAll k (m.settle, false) = z at mv hn
  obtain ⟨y, yb⟩ := y
  obtain ⟨z, zb⟩ := z
  obtain ⟨mv, f, yf, zf⟩ := mv
  obtain ⟨fr, ⟨yp, zp⟩, ⟨yt, zt⟩, iq⟩ := mv
  simp only [Bool.false_or] at fr yf zf yp zp yt zt iq
  have mp : m.settle.status.pending = m.status.pending := m.status.choose_pending.1
  have mi : m.settle.status.irq = m.status.irq := m.status.choose_pending.2
  rw [mp] at zp iq
  rw [mi] at iq
  have mk : z.mask = y.mask := by unfold State.mask; rw [show z.control = y.control from fr .control (by decide)]
  have back : Frame [.notices, .writer, .tallies] z y := fr.symm
  have ign : ∀ c : State, Frame [.notices, .writer, .tallies] c c.setupIgnored := fun c => State.setupIgnored_frame (Frame.refl _ _) (by decide)
  have ign' : ∀ c : State, Frame [.notices, .writer, .tallies] c.setupIgnored c := fun c => (ign c).symm
  subst yf zf
  cases b with
  | false =>
    have em : m = x := hm
    subst em
    have p : y.status.pending = z.status.pending := yp.trans zp.symm
    have q : y.status.irq = z.status.irq := by
      rcases iq with ⟨-, h1, h2⟩ | ⟨h1, h2⟩
      · rw [h1, h2]
      · rw [h1, h2]
    rw [if_pos at']
    cases zb with
    | false =>
      have en : n = z := hn
      have et : t = y := ht
      rw [en, et]
      exact ⟨by rw [yt]; exact zt.symm, back.noticed p q⟩
    | true =>
      have en : n = z.setupIgnored := hn
      have et : t = y.setupIgnored := ht
      rw [en, et]
      refine ⟨State.setupIgnored_tallies (by rw [yt]; exact zt.symm), Frame.noticed (((ign' z).trans back).trans (ign y)) ?_ ?_⟩
      · rw [State.setupIgnored_raised, State.setupIgnored_raised, p]
      · rw [State.setupIgnored_irq, State.setupIgnored_irq, p, q, mk]
  | true =>
    have em : m = x.setupIgnored := hm
    have et : t = y.setupIgnored := ht
    have pm : m.status.pending = x.status.pending ||| Notice.setupIgnored.bit := by rw [em, State.setupIgnored_raised]
    have im : m.status.irq = if x.status.pending ||| Notice.setupIgnored.bit = x.status.pending then x.status.irq
        else irqLevel (x.status.pending ||| Notice.setupIgnored.bit) x.mask := by rw [em]; exact State.setupIgnored_irq x
    have tt : t.tallies = m.tallies := by rw [et, em]; exact State.setupIgnored_tallies yt
    have idem : ∀ v : BitVec 24, v ||| Notice.setupIgnored.bit ||| Notice.setupIgnored.bit = v ||| Notice.setupIgnored.bit := by
      intro v; rw [BitVec.or_assoc, BitVec.or_self]
    have zi : y.setupIgnored.status.irq = z.status.irq := by
      rw [State.setupIgnored_irq, yp]
      rcases iq with ⟨h0, h1, h2⟩ | ⟨h1, h2⟩
      · rw [h1, h2, im, h0]
      · rw [h1, h2, pm]
        split
        next h => rw [h]
        · rfl
    have zt' : z.tallies = m.tallies := zt
    cases zb with
    | false =>
      have en : n = z := hn
      refine ⟨by rw [tt, en, zt']; split <;> rfl, ?_⟩
      rw [en, et]
      refine Frame.noticed (back.trans (ign y)) ?_ zi
      rw [State.setupIgnored_raised, yp, zp, pm]
    | true =>
      have en : n = z.setupIgnored := hn
      refine ⟨?_, ?_⟩
      · rw [tt, en]
        split
        next h =>
          have a : m.tallies = y.setupIgnored.tallies := by rw [← tt, et]
          rw [a]
          exact State.setupIgnored_tallies (by rw [yt, at', zt', h])
        · rfl
      · rw [en, et]
        refine Frame.noticed (((ign' z).trans back).trans (ign y)) ?_ ?_
        · rw [State.setupIgnored_raised, State.setupIgnored_raised, yp, zp, pm, idem]
        · rw [zi, State.setupIgnored_irq, zp, pm, idem, if_pos rfl]

theorem wordsFrom_append (n k off : Nat) (bs cs : List (Option Byte)) (h : bs.length = 8 * n) :
    wordsFrom (n + k) off (bs ++ cs) = wordsFrom n off bs ++ wordsFrom k (off + bs.length) cs := by
  induction n generalizing off bs with
  | zero =>
    have e : bs = [] := List.eq_nil_of_length_eq_zero (by omega)
    subst e
    simp [wordsFrom]
  | succ n ih =>
    rw [show n + 1 + k = n + k + 1 by omega]
    show (off, (bs ++ cs).take 8) :: wordsFrom (n + k) (off + 8) ((bs ++ cs).drop 8) = (off, bs.take 8) :: wordsFrom n (off + 8) (bs.drop 8) ++ _
    rw [List.take_append_of_le_length (by omega), List.drop_append_of_le_length (by omega), ih _ _ (by rw [List.length_drop]; omega),
      List.length_drop, show off + 8 + (bs.length - 8) = off + bs.length by omega]
    rfl

/-- The words of a write that lie in an area. -/
def writtenIn (lo hi : Nat) (w : PageWrite) : List (Nat × List (Option Byte)) :=
  (wordsFrom (w.bytes.length / 8) w.offset w.bytes).filter fun p => decide (lo ≤ p.1) && decide (p.1 < hi)

theorem State.takeWords_eq (lo hi : Nat) (w : PageWrite) (s : State) : s.takeWords lo hi w = Taken.finish (State.takeAll (writtenIn lo hi w) (s, false)) := rfl

theorem writtenIn_append (lo hi tag off : Nat) (bs cs : List (Option Byte)) (h : bs.length % 8 = 0) :
    writtenIn lo hi ⟨tag, off, bs ++ cs⟩ = writtenIn lo hi ⟨tag, off, bs⟩ ++ writtenIn lo hi ⟨tag, off + bs.length, cs⟩ := by
  unfold writtenIn
  dsimp only
  rw [List.length_append, show (bs.length + cs.length) / 8 = bs.length / 8 + cs.length / 8 by omega, wordsFrom_append _ _ _ _ _ (by omega),
    List.filter_append]

/-- In a part state that takes setup writes, a write of several words is the writes of its parts (R151; log 15). -/
theorem State.takeWords_split (lo hi tag off : Nat) (bs cs : List (Option Byte)) (s : State) (h : bs.length % 8 = 0) (m n t : State)
    (hm : m = s.takeWords lo hi ⟨tag, off, bs⟩) (hn : n = m.settle.takeWords lo hi ⟨tag, off + bs.length, cs⟩)
    (ht : t = s.takeWords lo hi ⟨tag, off, bs ++ cs⟩) :
    t.tallies = (if m.tallies = s.tallies then n.tallies else m.tallies) ∧ Frame [.writer, .tallies] n t := by
  rw [State.takeWords_eq] at hm hn ht
  rw [writtenIn_append lo hi tag off bs cs h] at ht
  exact takeAll_split _ _ _ _ _ _ hm hn ht

/-! ### What no word changes -/

theorem liveField_part (ok : Bool) (f : General → General) (t : Taken) : (liveField ok f t).1.control.part = t.1.control.part := by
  unfold liveField
  split <;> rfl

theorem State.applyConditions_control (p : PartState) (x : TimeState) (s : State) : (s.applyConditions p x).control = s.control :=
  State.applyConditions_frame p x (Frame.refl [.sched, .writer] s) (by decide) .control (by decide)

theorem generalWord_part (off : Nat) (w : List Byte) (t : Taken) : (State.generalWord off w t).1.control.part = t.1.control.part := by
  unfold State.generalWord
  repeat' split
  · rfl
  · simp only
    rw [liveField_part, liveField_part, liveField_part]
    unfold State.writeScheduleEnable
    split
    · simp only
      split
      · exact liveField_part _ _ _
      · rw [State.applyConditions_control]
        exact liveField_part _ _ _
    · exact liveField_part _ _ _
  · simp only
    unfold State.writeServiceInterval
    split
    · simp only
      split
      · exact (liveField_part _ _ _).trans ((liveField_part _ _ _).trans (liveField_part _ _ _))
      · split
        · exact (liveField_part _ _ _).trans ((liveField_part _ _ _).trans (liveField_part _ _ _))
        · exact (liveField_part _ _ _).trans ((liveField_part _ _ _).trans (liveField_part _ _ _))
    · exact (liveField_part _ _ _).trans ((liveField_part _ _ _).trans (liveField_part _ _ _))
  · simp only
    unfold State.writeMask
    simp only
    split
    · exact (liveField_part _ _ _).trans ((liveField_part _ _ _).trans (liveField_part _ _ _))
    · exact (liveField_part _ _ _).trans ((liveField_part _ _ _).trans (liveField_part _ _ _))
  · rfl
  · rfl

theorem stationWord_part (off : Nat) (w : List Byte) (t : Taken) : (State.stationWord off w t).1.control.part = t.1.control.part := by
  unfold State.stationWord State.writeEnabled State.disable State.enable
  simp only
  repeat' split
  all_goals rfl

theorem setupWord_part (off : Nat) (w : List Byte) (t : Taken) : (State.setupWord off w t).1.control.part = t.1.control.part := by
  unfold State.setupWord
  split
  · rfl
  · split
    · exact generalWord_part off w t
    · split
      · exact stationWord_part off w t
      · split
        · rfl
        · split
          · unfold State.bankWord
            split <;> rfl
          · rfl

theorem State.takeWords_part (lo hi : Nat) (w : PageWrite) (s : State) : (s.takeWords lo hi w).control.part = s.control.part := by
  have k : ∀ (l : List (Nat × List (Option Byte))) (t : Taken), (State.takeAll l t).1.control.part = t.1.control.part := by
    intro l
    induction l with
    | nil => exact fun _ => rfl
    | cons p l ih =>
      intro t
      refine (ih _).trans ?_
      simp only
      cases fullWord p.2 with
      | none => rfl
      | some bs => exact setupWord_part _ _ _
  rw [State.takeWords_eq]
  unfold Taken.finish
  split
  · rw [State.setupIgnored_control]; exact k _ _
  · exact k _ _

/-- In a part state that takes setup writes, a granted setup write takes its words. -/
theorem State.setupWrite_takes {s : State} (h : s.control.part.takesSetup = true) (lo hi : Nat) (w : PageWrite) :
    s.setupWrite lo hi w = s.takeWords lo hi w := by
  unfold State.setupWrite
  cases e : s.control.part <;> rw [e] at h <;> first | rfl | cases h

end Sys2Proof.Machine
end

