-- ==== Sys2Proof/Tests/Slice0.lean ====
section
/-! SUPPORT. The author's own tests: a smoke test of WellFormed, a concrete state for the premises of every statement that has premises, and
small runs of single commands. -/
-- One lemma after another: elaborated side by side, the package as one text would need too many threads.
set_option Elab.async false
namespace Sys2Proof.Tests
open Sys2Proof Sys2Proof.Machine

/-! ### A small part -/

/-- A small general setup. -/
def gen0 : General :=
  { ringBase := 0x100000, ringSlots := 1024, writerTags := 1, hostTags := 2, rateDev := 50, rateNominal := 171798692,
    clipBase := 0x200000, clipSize := 262144, reportBase := 0x300000, reportCap := 4, refSource := .ref, cycleMax := 3, silenceLimit := 1,
    scheduleEnable := true, refMinPeriod := 10, intakeLatency := 100, reportWatermark := 1, pre := 0, post := 100, tailWait := 100,
    serviceInterval := 100, copyBurst := 8, holdLimit := 1, partShare := 8, noticeMask := 1 }

def tuning0 : Tuning := ⟨1, 6, 24, 16, 2, 0, 1⟩
def station0 : StationEntry := ⟨1, 1000, 0, true, tuning0⟩
def zone0 : Zone := ⟨2, [0, 1], 2, 500⟩
def setup0 : Setup := ⟨gen0, [station0, { station0 with enabled := false }], [zone0]⟩
def pick0 : Pick := ⟨0, 1000, 16, false, false⟩
def event0 : Event := ⟨1, 0, .gathering, 1000, 2000, [⟨0, pick0, none⟩], 16, .locked, 3000, none, some 4000, none, 0, none⟩
def sel0 : Selection := ⟨0, 1, 900, 10, .pinned, false⟩
def clip0 : StationClip := ⟨0, true, 0, 0, [sel0]⟩
def plan0 : Plan := ⟨1, 1000, 102000, some 4000, [clip0], none, 0⟩
/-- Slot 0 is OPEN with one pin, slot 1 is EMPTY. -/
def dir0 : List Slot := [⟨.opened, 1, 1, false, false⟩, ⟨.empty, 0, 0, false, false⟩]

/-- LISTENING, at 5000 µs, with two slots, two stations and one event slot. -/
def mid : State :=
  { State.reset with
    time := ⟨5000, 0, 171798692, 171798692, .locked, true, none, some 0, some 5000, true, 0⟩
    control := { State.reset.control with part := .listening, setup := some setup0, pageBase := some 0x400000, released := true }
    intake := { State.reset.intake with dir := dir0, stations := [.fresh, .fresh] }
    engine := [{ Detector.fresh with state := .settling, silence := some 5000 }, .fresh]
    assoc := ⟨[⟨⟨0, pick0, none⟩, some 1⟩], 1, [some event0], 2⟩
    clip := { Clip.reset with plans := [some plan0], copier := .allocating 0 } }

/-- `mid` in another part state. -/
def partly (p : PartState) : State := { mid with control := { mid.control with part := p } }
def inCommand (p : PartState) (c : LongCmd) : State := { mid with control := { mid.control with part := p, inProgress := some (c, 7) } }
def guarded (f : PathGuard → PathGuard) : State := { mid with guard := f mid.guard }
def wired (f : Wires → Wires) : State := { mid with wires := f mid.wires }
def timed (f : TimeBase → TimeBase) : State := { mid with time := f mid.time }
def scheduled (f : Schedule → Schedule) : State := { mid with sched := f mid.sched }

/-- What holds of the one element of a list with one element holds of each. -/
theorem only_first {α : Type} {x : α} {P : Nat → α → Prop} (h : P 0 x) : ∀ (j : Nat) (y : α), ([x] : List α)[j]? = some y → P j y := by
  intro j y hy
  cases j with
  | zero => simp only [List.getElem?_cons_zero, Option.some.injEq] at hy; exact hy ▸ h
  | succ j => simp at hy

/-! ### WellFormed: each check refuses an ill-formed term -/

def word8 : List (Option Byte) := List.replicate 8 (some 0)
def goodRead : Request := ⟨.read, 0x500000, 32, 15, []⟩

theorem test_request_well_formed : goodRead.ok = true ∧ (⟨.write, 0xFFFFFFF8, 1, 0, word8⟩ : Request).ok = true := by decide

theorem test_request_ill_formed :
    ({ goodRead with addr := 0x500004 } : Request).ok = false ∧ ({ goodRead with beats := 0 } : Request).ok = false ∧
    ({ goodRead with beats := 33 } : Request).ok = false ∧ ({ goodRead with addr := 0x500F08 } : Request).ok = false ∧
    ({ goodRead with addr := 0x100000000 } : Request).ok = false ∧ ({ goodRead with tag := 16 } : Request).ok = false ∧
    ({ goodRead with bytes := word8 } : Request).ok = false ∧ (⟨.write, 0, 2, 0, word8⟩ : Request).ok = false := by decide

set_option maxRecDepth 4096 in
theorem test_commands_ill_formed :
    (Instr.upstreamRequest { goodRead with beats := 0 }).wellFormed = false ∧ (Instr.upstreamCompletion 16 .okay []).wellFormed = false ∧
    (Instr.upstreamCompletion 0 .okay [0]).wellFormed = false ∧ (Instr.refetchReadCompletion .okay [0]).wellFormed = false ∧
    (Instr.copierReadCompletion .okay (List.replicate 264 0)).wellFormed = false ∧
    (Instr.loaderReadCompletion .okay [0]).wellFormed = false ∧ (Instr.unknownCommand 7 0).wellFormed = false ∧
    (Instr.assemblyTimeout 8).wellFormed = false ∧ (Instr.blockHandoff 96).wellFormed = false ∧
    (Instr.silenceDeadline 96).wellFormed = false ∧ (Instr.pickArrival 96).wellFormed = false ∧
    (Instr.pickClosure 96).wellFormed = false ∧ (Instr.newTrailEntry 96).wellFormed = false := by decide

theorem test_keys_ill_formed :
    (Instr.closeDeadline 0).wellFormed = false ∧ (Instr.closeDeadline 4294967296).wellFormed = false ∧
    (Instr.tailDeadline 0).wellFormed = false ∧ (Instr.eventStateRequest 0).wellFormed = false ∧
    (Instr.pinRequest 16384).wellFormed = false ∧ (Instr.pinRefused 16384).wellFormed = false ∧
    (Instr.unpin 16384).wellFormed = false ∧ (Instr.cut 16384).wellFormed = false ∧
    (Instr.slotCutAnnouncement 16384).wellFormed = false ∧ (Instr.slotFree 16384).wellFormed = false ∧
    (Instr.holdLimitExpiry 4).wellFormed = false ∧ (Instr.readHoldExpiry 4).wellFormed = false := by decide

set_option maxRecDepth 4096 in
theorem test_page_writes_ill_formed :
    (Instr.generalSetupWrite ⟨1, 0x1F8, word8⟩).wellFormed = true ∧ (Instr.generalSetupWrite ⟨1, 0xF8, word8⟩).wellFormed = false ∧
    (Instr.generalSetupWrite ⟨1, 0x104, word8⟩).wellFormed = false ∧ (Instr.generalSetupWrite ⟨1, 0x100, []⟩).wellFormed = false ∧
    (Instr.generalSetupWrite ⟨1, 0x100, [none]⟩).wellFormed = false ∧ (Instr.generalSetupWrite ⟨16, 0x100, word8⟩).wellFormed = false ∧
    (Instr.generalSetupWrite ⟨1, 0x100, List.replicate 264 none⟩).wellFormed = false ∧
    (Instr.stationTableWrite ⟨1, 0xE00, word8⟩).wellFormed = false ∧ (Instr.zoneTableWrite ⟨1, 0x1000, word8⟩).wellFormed = false ∧
    (Instr.zoneTableWrite ⟨1, 0xFF8, List.replicate 16 none⟩).wellFormed = false ∧
    (Instr.scheduleBankWrite ⟨1, 0x1300, word8⟩).wellFormed = false ∧ (Instr.scheduleBankWrite ⟨1, 0x2000, word8⟩).wellFormed = false := by
  decide

/-! ### Premises: the queue, the clock and the laws -/

theorem test_premises_step_takes_front : ({ mid with pending := [.refPulse] } : State).pending = [.refPulse] := rfl

theorem test_premises_empty_queue : mid.pending = [] ∧ mid.control.released = true ∧ State.reset.pending = [] ∧
    State.reset.control.released = false ∧ ∃ t, exec .fieldTimeSecond mid = .next t := ⟨rfl, rfl, rfl, rfl, _, rfl⟩

theorem test_premises_laws : IrqOk mid ∧ TalliesOk mid.tallies ∧ QueuesOk mid.guard ∧ CountOk mid.time ∧ RatesOk mid ∧ RingOk mid ∧
    StoreOk mid ∧ IntervalsOk [⟨1, .mute, 0, none⟩, ⟨2, .mute, 0, none⟩] ∧ ∃ t, step mid = .next t := by
  refine ⟨by unfold IrqOk; decide, ⟨?_, ?_⟩, by unfold QueuesOk; decide, by unfold CountOk; decide, by unfold RatesOk; decide,
    by unfold RingOk; decide, by unfold StoreOk; decide, ⟨by decide, by decide, by simp [List.pairwise_cons]⟩, _, rfl⟩
  · intro n hn; rw [List.eq_of_mem_replicate hn]; decide
  · intro x hx; rw [List.eq_of_mem_replicate hx]; decide

theorem test_premises_sizes : IntakeOk State.reset.intake ∧ AssocOk State.reset.assoc ∧ ∃ t, step State.reset = .next t := by
  refine ⟨⟨rfl, by decide, List.length_replicate, ?_⟩, ⟨by decide, rfl⟩, _, rfl⟩
  intro si hsi; rw [List.eq_of_mem_replicate hsi]; decide

/-! ### Premises: commands and words of the host -/

theorem test_premises_release : State.reset.control.released = false := rfl

theorem test_premises_load : State.reset.control.inProgress = none ∧ State.reset.control.part = .dormant ∧
    (partly .stopped).control.inProgress = none ∧ (partly .stopped).control.part = .stopped ∧
    ∀ e ∈ ({ partly .stopped with assoc := .reset } : State).assoc.events, e = none :=
  ⟨rfl, rfl, rfl, rfl, fun _ he => List.eq_of_mem_replicate he⟩

theorem test_premises_start : (partly .stopped).control.setup = some setup0 ∧ (partly .stopped).control.part = .stopped ∧
    (partly .stopped).control.inProgress = none ∧ mid.engine[0]? = some { Detector.fresh with state := .settling, silence := some 5000 } ∧
    setup0.stations[0]? = some station0 ∧ station0.enabled = true ∧ mid.engine[1]? = some Detector.fresh ∧
    setup0.stations[1]? = some { station0 with enabled := false } := ⟨rfl, rfl, rfl, rfl, rfl, rfl, rfl, rfl⟩

theorem test_premises_soft_reset : (partly .stopped).control.part = .stopped ∧ mid.control.part = .listening ∧
    mid.control.inProgress = none ∧ (inCommand .draining .stop).control.part = .draining ∧
    (inCommand .draining .stop).control.inProgress = some (.stop, 7) := ⟨rfl, rfl, rfl, rfl, rfl⟩

def argued (n : Nat) (x : TimeState) (now : Nat) : State :=
  { mid with control := { mid.control with argument := BitVec.ofNat 64 n }, time := { mid.time with state := x, count := now } }

theorem test_premises_set_time : (argued 281474976 .unset 0).control.inProgress = none ∧
    (argued 281474976 .unset 0).control.argument.toNat ≤ 281474976 ∧
    (argued 3 .locked 3999999).time.count / 1000000 ≤ (argued 3 .locked 3999999).control.argument.toNat ∧
    281474976 < (argued 281474977 .unset 0).control.argument.toNat ∧
    (argued 3 .holdover 4000000).time.state = .holdover ∧
    (argued 3 .holdover 4000000).control.argument.toNat < (argued 3 .holdover 4000000).time.count / 1000000 := by decide

theorem test_premises_dump : mid.control.inProgress = none ∧ mid.control.part = .listening ∧
    (partly .stopped).control.part = .stopped := ⟨rfl, rfl, rfl⟩

theorem test_premises_unknown_code : (0 : Byte).toNat = 0 ∧ 7 < (8 : Byte).toNat := by decide

theorem test_premises_clear : IrqOk mid ∧ mid.status.pending &&& 5 = 0 ∧
    IrqOk (mid.raise .commandDone) ∧ (mid.raise .commandDone).status.pending &&& 1 ≠ 0 := by
  unfold IrqOk; decide

theorem test_premises_refused_busy : (∃ c g, (inCommand .draining .stop).control.inProgress = some (c, g)) ∧
    (∃ c g, (inCommand .listening .dumpTally).control.inProgress = some (c, g) ∧ c ≠ .stop) := ⟨⟨_, _, rfl⟩, _, _, rfl, by decide⟩

theorem test_premises_refused_state : (partly .loading).control.inProgress = none ∧ (partly .loading).control.part = .loading ∧
    (partly .draining).control.part = .draining ∧ mid.control.part = .listening ∧ mid.control.part ≠ .stopped ∧
    (partly .stopped).control.part = .stopped ∧ (∃ e ∈ (partly .stopped).assoc.events, e ≠ none) ∧
    (partly .stopped).control.part ≠ .listening ∧ (partly .dormant).control.part = .dormant ∧
    (partly .draining).control.part ≠ .stopped ∧ (partly .draining).control.part ≠ .listening ∧
    (partly .stopped).control.part ≠ .draining :=
  ⟨rfl, rfl, rfl, rfl, by decide, rfl, ⟨_, List.mem_cons_self, by simp⟩, by decide, rfl, by decide, by decide, by decide⟩

theorem test_premises_stop : mid.control.part = .listening ∧ mid.control.inProgress = none := ⟨rfl, rfl⟩

def copied : State := { inCommand .draining .stop with assoc := { mid.assoc with events := [some { event0 with state := .copied }] } }

theorem test_premises_drain_end : copied.control.part = .draining ∧ copied.control.inProgress = some (.stop, 7) ∧
    ∀ e, some e ∈ copied.assoc.events → e.state = .copied ∨ e.state = .reported := by
  refine ⟨rfl, rfl, fun e he => ?_⟩
  simp only [copied, List.mem_singleton, Option.some.injEq] at he
  exact .inl (by rw [he])

theorem test_premises_release_holds : mid.control.part = .listening ∧ mid.control.inProgress = none ∧
    (inCommand .draining .stop).control.part = .draining ∧ (∃ g, (inCommand .draining .stop).control.inProgress = some (.stop, g)) ∧
    mid.intake.dir[0]? = some ⟨.opened, 1, 1, false, false⟩ ∧ mid.intake.dir[1]? = some ⟨.empty, 0, 0, false, false⟩ :=
  ⟨rfl, rfl, rfl, ⟨_, rfl⟩, rfl, rfl⟩

def load0 : LoadRec := ⟨.stopped, 256, [], none⟩
def loading : State := { partly .loading with control := { mid.control with part := .loading, load := some load0, inProgress := some (.load, 7) } }

/-- The last byte of the extent that has been read, and the first one that has not. -/
theorem test_premises_changed_during_load : loading.control.part = .loading ∧ loading.control.load = some load0 ∧
    loading.gen.hostTags.getLsbD 1 = true ∧
    (∃ i b, word8[i]? = some (some b) ∧ 0x100 ≤ 0x1F8 + i ∧ 0x1F8 + i < 0x100 + load0.extent) ∧ load0.returnTo ≠ .loading ∧
    ¬ ∃ i b, word8[i]? = some (some b) ∧ 0x100 ≤ 0x200 + i ∧ 0x200 + i < 0x100 + load0.extent :=
  ⟨rfl, rfl, by decide, ⟨7, 0, rfl, by decide, by decide⟩, by decide, by rintro ⟨i, b, -, -, h⟩; simp only [load0] at h; omega⟩

theorem test_premises_general_words : mid.control.setup = some setup0 ∧ mid.control.part.takesSetup = true ∧
    (List.replicate 8 (0 : Byte)).length = 8 ∧ (0x100 : Nat) % 8 = 0 ∧ (0x1F8 : Nat) % 8 = 0 ∧
    (partly .stopped).control.part.takesSetup = true ∧ (partly .draining).control.part.takesSetup = true := by decide

/-- Words whose fields stand at the ends of their ranges, and words with one field past them. -/
theorem test_premises_general_values :
    (1 ≤ field [60, 1, 0, 0, 0x88, 0x13, 4, 0] 0 1 ∧ field [60, 1, 0, 0, 0x88, 0x13, 4, 0] 0 1 ≤ 60 ∧
      field [60, 1, 0, 0, 0x88, 0x13, 4, 0] 1 1 ≤ 1 ∧ field [60, 1, 0, 0, 0x88, 0x13, 4, 0] 4 2 = 5000 ∧
      field [60, 1, 0, 0, 0x88, 0x13, 4, 0] 6 2 = setup0.gen.reportCap) ∧
    ¬ field [61, 2, 0, 0, 0x89, 0x13, 5, 0] 0 1 ≤ 60 ∧
    (field [0xD0, 7, 0xA0, 0x0F, 0x10, 0x27, 0x60, 0xEA] 0 2 = 2000 ∧ field [0xD0, 7, 0xA0, 0x0F, 0x10, 0x27, 0x60, 0xEA] 2 2 = 4000 ∧
      field [0xD0, 7, 0xA0, 0x0F, 0x10, 0x27, 0x60, 0xEA] 4 2 = 10000 ∧ field [0xD0, 7, 0xA0, 0x0F, 0x10, 0x27, 0x60, 0xEA] 6 2 = 60000) ∧
    ¬ field [0xD1, 7, 99, 0, 0x11, 0x27, 99, 0] 0 2 ≤ 2000 ∧
    (field [32, 100, 8, 0, 0, 0, 0, 0] 0 1 = 32 ∧ field [32, 100, 8, 0, 0, 0, 0, 0] 1 1 = 100 ∧ field [32, 100, 8, 0, 0, 0, 0, 0] 2 1 = 8) ∧
    ¬ field [33, 101, 9, 0, 0, 0, 0, 0] 1 1 ≤ 100 := by decide

theorem test_premises_station_words : mid.control.setup = some setup0 ∧ mid.control.part.takesSetup = true ∧
    setup0.stations[1]? = some { station0 with enabled := false } ∧ mid.engine[1]? = some Detector.fresh ∧
    setup0.stations[0]? = some station0 ∧ mid.engine[0]? = some { Detector.fresh with state := .settling, silence := some 5000 } ∧
    field (List.replicate 8 0) 0 1 = 0 ∧ field [1, 0, 0, 0, 0, 0, 0, 0] 0 1 = 1 ∧ ¬ field [2, 0, 0, 0, 0, 0, 0, 0] 0 1 ≤ 1 := by decide

theorem test_premises_bank_words : mid.control.part.takesSetup = true ∧ mid.sched.active ≠ some .a ∧ mid.sched.active ≠ some .b ∧
    (scheduled fun r => { r with active := some .a }).sched.active = some .a ∧
    (scheduled fun r => { r with active := some .b }).sched.active = some .b ∧
    (0xFF8 : Nat) % 8 = 0 ∧ (0x1178 : Nat) < 0x1180 ∧ (0x12F8 : Nat) < 0x1300 := by decide

theorem test_premises_attendance : mid.control.setup = some setup0 ∧
    ({ mid with attend := ⟨true, some 5000⟩ } : State).attend.deadline = some 5000 ∧ 5000 ≤ mid.time.count := ⟨rfl, rfl, by decide⟩

/-! ### Premises: field time -/

theorem test_premises_passed_pulse : (timed fun t => { t with state := .unset }).time.state = .unset ∧
    (timed fun t => { t with count := 499999 }).time.state = .locked ∧
    (timed fun t => { t with count := 499999 }).time.lastPulse = some 0 ∧ (499999 : Nat) - 0 < 500000 ∧
    (timed fun t => { t with count := 1000000 }).time.announced ≠ (timed fun t => { t with count := 1000000 }).time.count / 1000000 ∧
    mid.time.announced = mid.time.count / 1000000 := by decide

def aligning (now : Nat) (was : Bool) : State :=
  timed fun t => { t with count := now, state := .aligning, aligned := was, target := some 5, lastPulse := none }

theorem test_premises_aligning_pulse : (aligning 5000000 false).time.state = .aligning ∧ (aligning 5000000 false).time.target = some 5 ∧
    (aligning 5000000 false).time.count ≤ 5 * 1000000 ∧ 5 * 1000000 < (aligning 5000001 false).time.count ∧
    (aligning 5000001 false).time.aligned = false ∧ (aligning 5000001 true).time.aligned = true ∧
    (aligning 5000001 true).time.lastPulse = none := by decide

/-- Field time at a pulse: the interval since the last one, 0 µs before it. -/
def pulseAt (now : Nat) (x : TimeState) : State := timed fun t => { t with count := now, state := x }

/-- The ends of the interval that is measured, and of the three ranges of what field time stands past the second. -/
theorem test_premises_discipline_pulse : RatesOk (pulseAt 500000 .locked) ∧ (pulseAt 500000 .locked).time.state = .locked ∧
    (∀ p, (pulseAt 500000 .locked).time.lastPulse = some p → 500000 ≤ (pulseAt 500000 .locked).time.count - p) ∧
    (∀ p, (pulseAt 1500000 .locked).time.lastPulse = some p → (pulseAt 1500000 .locked).time.count - p ≤ 1500000) ∧
    (∃ p, (pulseAt 1500001 .locked).time.lastPulse = some p ∧ 1500000 < (pulseAt 1500001 .locked).time.count - p) ∧
    (pulseAt 1500001 .holdover).time.state = .holdover ∧ (1000000 : Nat) % 1000000 = 0 ∧ 1001000 % 1000000 ≤ 1000 ∧
    1001001 % 1000000 ≤ 500000 ∧ 500000 < 1500001 % 1000000 := by
  refine ⟨by unfold RatesOk; decide, rfl, ?_, ?_, ⟨0, rfl, by decide⟩, rfl, by decide, by decide, by decide, by decide⟩ <;>
    · intro p hp
      cases (Option.some.inj hp : 0 = p)
      decide

theorem test_premises_holdover : (pulseAt 500000 .locked).time.holdover = some 5000 ∧ 5000 ≤ (pulseAt 500000 .locked).time.count ∧
    (timed fun t => { t with state := .holdover }).time.state ≠ .locked ∧
    (timed fun t => { t with holdover := none }).time.holdover = none ∧ mid.time.count < 5001 := by decide

/-! ### Premises: the schedule -/

/-- The WATCH at mark 0, a MUTE_ON of every cycle, one of another cycle, the WATCH and the END. -/
def bank0 : List BankEntry := [⟨0, 0, 0, 5, 0, 0⟩, ⟨10, 1, 0, 1, 0, 1⟩, ⟨20, 2, 0, 2, 0, 1⟩, ⟨30, 0, 0, 5, 0, 0⟩, ⟨0, 0, 0, 0, 0, 0⟩]

/-- FOLLOWING bank A from 4000 µs on, in cycle 1, the pointer at `i` and its deadline reached. -/
def following (i : Nat) : State :=
  scheduled fun _ => ⟨.following, some .a, some 100, some 1, some 4000, some (.on i), some 5000, some 5000, some 4000, none, none, bank0, [],
    [⟨1, .mute, 0, none⟩]⟩

theorem test_premises_ref_pulse : mid.sched.state = .idle ∧ mid.gen.refSource = .ref ∧ (following 1).sched.state ≠ .idle ∧
    (following 1).sched.state ≠ .waitTime ∧ (∀ p, (following 1).sched.lastRef = some p → 1000 ≤ (following 1).time.count - p) ∧
    (following 1).gen.refMinPeriod * 100 = 1000 ∧
    (∀ p, ({ following 1 with time := { mid.time with count := 4999 } } : State).sched.lastRef = some p →
      ({ following 1 with time := { mid.time with count := 4999 } } : State).time.count - p < 1000) := by
  refine ⟨rfl, rfl, by decide, by decide, ?_, rfl, ?_⟩ <;>
    · intro p hp
      cases (Option.some.inj hp : 4000 = p)
      decide

/-- `following 0` with an internal source. -/
def internally : State :=
  { following 0 with control := { mid.control with setup := some { setup0 with gen := { gen0 with refSource := .internal } } } }

theorem test_premises_timer_and_watch : (following 0).sched.timer = some 5000 ∧ 5000 ≤ (following 0).time.count ∧
    (following 0).sched.state = .following ∧ (following 0).sched.pointer = some (.on 0) ∧ (following 0).sched.markDeadline = some 5000 ∧
    (following 0).sched.entries[0]? = some ⟨0, 0, 0, 5, 0, 0⟩ ∧ (following 3).sched.pointer = some (.on 3) ∧
    (following 3).sched.entries[3]? = some ⟨30, 0, 0, 5, 0, 0⟩ ∧ (30 : Nat) ≠ 0 ∧ (following 3).gen.refSource = .ref ∧
    internally.gen.refSource = .internal := by decide

theorem test_premises_conditions : (wired fun w => { w with sched := [.part .stopped] }).wires.sched = [.part .stopped] ∧
    mid.control.part = .listening ∧ mid.gen.scheduleEnable = true ∧ mid.time.state = .locked ∧
    (timed fun t => { t with state := .unset }).time.state = .unset ∧ mid.sched.state = .idle ∧
    (following 0).sched.state ≠ .idle ∧ (following 0).sched.state ≠ .waitTime := by decide

/-- What follows entry 1: an entry of another cycle is passed over, the WATCH lies ahead. What follows entry 3: the END. -/
theorem test_premises_mark_deadline : (following 1).sched.pointer = some (.on 1) ∧ (following 1).sched.markDeadline = some 5000 ∧
    5000 ≤ (following 1).time.count ∧ (following 1).sched.entries[1]? = some ⟨10, 1, 0, 1, 0, 1⟩ ∧ (1 : Nat) ≠ 5 ∧
    (following 1).sched.cycleStart = some 4000 ∧ (following 1).sched.cycleCount = some 1 ∧
    (∀ j g, 1 < j → j < 1 + 1 + 1 → (following 1).sched.entries[j]? = some g → g.action ≠ 0 ∧ g.action ≠ 5 ∧ 1 % g.rep ≠ g.first) ∧
    (following 1).sched.entries[1 + 1 + 1]? = some ⟨30, 0, 0, 5, 0, 0⟩ ∧
    ({ bank0.getD 1 ⟨0, 0, 0, 0, 0, 0⟩ with mark := 11 } : BankEntry).mark * 100 + 4000 = 5100 ∧
    ((bank0.drop 3).getD 1 ⟨0, 0, 0, 9, 0, 0⟩).action = 0 := by
  refine ⟨rfl, rfl, by decide, rfl, by decide, rfl, rfl, ?_, rfl, rfl, rfl⟩
  intro j g h1 h2 hg
  obtain rfl : j = 2 := by omega
  cases (Option.some.inj hg : (⟨20, 2, 0, 2, 0, 1⟩ : BankEntry) = g)
  decide

theorem test_premises_mute_entries : IntervalsOk [⟨1, .mute, 0, none⟩, ⟨2, .desens 4, 0, none⟩] ∧
    (⟨0, 1, 0, 1, 0, 3⟩ : BankEntry).action = 1 ∧ (⟨0, 1, 0, 1, 0, 3⟩ : BankEntry).mask.getLsbD 1 = true ∧
    (⟨0, 1, 0, 3, 4, 128⟩ : BankEntry).mask.getLsbD 7 = true ∧ (MuteKind.desens 4).same (.desens 4) ∧
    (⟨0, 1, 0, 2, 0, 1⟩ : BankEntry).action = 2 ∧ (⟨0, 1, 0, 4, 4, 2⟩ : BankEntry).action = 4 ∧
    (⟨0, 1, 0, 5, 0, 0⟩ : BankEntry).action = 5 :=
  ⟨⟨by decide, by decide, by simp [List.pairwise_cons, MuteKind.same]⟩, by decide, by decide, by decide, by decide, rfl, rfl, rfl⟩

theorem test_premises_horizon_schedule : (wired fun w => { w with horizonSched := [2000000] }).wires.horizonSched = [2000000] ∧
    (mid.gen.intakeLatency + 1000) * 1000 = 1100000 := ⟨rfl, rfl⟩

/-! ### Premises: the memory path -/

/-- A part to which the copier makes no offer, with these requests in the queue. -/
def asked (qs : List Queued) : State :=
  guarded fun g => { g with queue := qs, unanswered := qs.map fun q => ⟨q.req.tag, q.req.kind, q.req.beats, .waiting⟩ }

theorem test_premises_upstream_request : goodRead.ok = true ∧ mid.guard.queue.length < 16 ∧
    (asked (List.replicate 15 ⟨goodRead, false⟩)).guard.queue.length < 16 ∧
    16 ≤ (asked (List.replicate 16 ⟨goodRead, false⟩)).guard.queue.length ∧ ({ goodRead with beats := 0 } : Request).ok = false := by decide

theorem test_premises_upstream_completion :
    (guarded fun g => { g with unanswered := [⟨1, .read, 1, .waiting⟩, ⟨0, .read, 1, .refused⟩] }).guard.unanswered =
      [⟨1, .read, 1, .waiting⟩] ++ ⟨0, .read, 1, .refused⟩ :: [] ∧ (∀ x ∈ [(⟨1, .read, 1, .waiting⟩ : Unanswered)], x.tag ≠ 0) ∧
    (guarded fun g => { g with
      unanswered := [⟨15, .read, 1, .granted⟩], downstream := [⟨.pass 15, .read, 0, 1, [], false⟩] }).guard.downstream =
      [⟨.pass 15, .read, 0, 1, [], false⟩] ∧
    (List.replicate 8 (0 : Byte)).length = (if ReqKind.read = .read ∧ MemCode.okay = .okay then 8 * 1 else 0) ∧
    ([] : List Byte).length = (if ReqKind.write = .read ∧ MemCode.okay = .okay then 8 * 1 else 0) ∧
    (asked [⟨goodRead, false⟩]).guard.unanswered = [] ++ ⟨15, .read, 32, .waiting⟩ :: [] := by decide

/-- The claimants of the part, each with an offer. -/
def offering : State :=
  { loading with
    status := { mid.status with offer := some .line, newRecords := 1 }
    report := { mid.report with writer := .writing 1 0 (List.replicate 512 0) false }
    intake := { mid.intake with refetch := [⟨0, 0, 1, ⟨0, 0, 0, 1, false, false, []⟩, 33, .reading, false, 1, 1, false⟩] }
    clip := { mid.clip with copier := .unit 0 0 (.reading 8 7 7 [] 0), plans := [some { plan0 with clips := [{ clip0 with sels := [{ sel0 with status := .reading }] }] }] } }

/-- Each claimant in its turn, the first and the sixteenth grant of a frame, the last waiting request of a share of 8. -/
theorem test_premises_part_claimant :
    offering.guard.lastServed.after.find? offering.waits = some .loader ∧
    (Claimant.loader).after.find? offering.waits = some .status ∧ (Claimant.status).after.find? offering.waits = some .report ∧
    (Claimant.report).after.find? offering.waits = some .refetch ∧ (Claimant.refetch).after.find? offering.waits = some .copier ∧
    offering.guard.candidate = none ∧ offering.guard.grantCount < 15 ∧ (7 : Nat) < offering.guard.frameShare ∧
    offering.control.load = some load0 ∧ offering.control.pageBase = some 0x400000 ∧ offering.status.offer = some .line ∧
    offering.report.writer = .writing 1 0 (List.replicate 512 0) false ∧
    offering.clip.copier = .unit 0 0 (.reading 8 7 7 [] 0) ∧
    offering.intake.refetch.find? (fun x => x.state == .reading) =
      some ⟨0, 0, 1, ⟨0, 0, 0, 1, false, false, []⟩, 33, .reading, false, 1, 1, false⟩ :=
  ⟨by decide, by decide, by decide, by decide, by decide, by decide, by decide, by decide, rfl, rfl, rfl, rfl, rfl, by decide⟩

/-- `mid` with what the status line writer offers. -/
def writing (o : StatusOffer) (d : Option Dump) : State := { mid with status := { mid.status with offer := some o, dump := d } }

theorem test_premises_status_claimant :
    (Claimant.loader).after.find? (writing (.result ⟨1, 7, .done⟩) none).waits = some .status ∧
    (writing .dump (some ⟨0x1300, List.replicate 256 0⟩)).status.dump = some ⟨0x1300, List.replicate 256 0⟩ ∧
    (List.replicate 256 (0 : Byte)).length ≤ 256 ∧ 256 < (List.replicate 264 (0 : Byte)).length :=
  ⟨by decide, rfl, by rw [List.length_replicate], by rw [List.length_replicate]; decide⟩

def request (k : ReqKind) (addr tag : Nat) : Request := ⟨k, addr, 1, tag, match k with
  | .read => []
  | .write => word8⟩

/-- The premises of a candidate that stands alone in the queue. -/
def Alone (r : Request) : Prop :=
  (asked [⟨r, false⟩]).loaded = true ∧ r.ok = true ∧ (asked [⟨r, false⟩]).guard.candidate = some (.queued 0) ∧
    (asked [⟨r, false⟩]).guard.request (.queued 0) = some (r, false) ∧
    (asked [⟨r, false⟩]).guard.lastServed.after.find? (asked [⟨r, false⟩]).waits = none ∧
    (asked [⟨r, false⟩]).guard.unanswered = [] ++ ⟨r.tag, r.kind, r.beats, .waiting⟩ :: [] ∧
    ((asked [⟨r, false⟩]).guard.remove (.queued 0)).candidate = none

/-- The first byte past a region lies elsewhere; its last word lies in it. -/
theorem test_premises_pass_granted : Alone (request .read 0x180000 15) ∧ mid.gen = gen0 ∧
    Request.apart (request .read 0x180000 15) gen0.ringBase (512 * gen0.ringSlots) ∧
    Request.apart (request .read 0x180000 15) gen0.clipBase gen0.clipSize ∧
    Request.apart (request .read 0x180000 15) gen0.reportBase (512 * gen0.reportCap) ∧
    Request.apart (request .read 0x180000 15) mid.page 8192 := by
  unfold Alone Request.apart; decide

theorem test_premises_pass_refused :
    (Alone (request .write 0x17FFF8 1) ∧ Request.within (request .write 0x17FFF8 1) gen0.ringBase (512 * gen0.ringSlots) ∧
      gen0.writerTags.getLsbD 1 = false) ∧
    (Alone (request .write 0x23FFF8 0) ∧ Request.within (request .write 0x23FFF8 0) gen0.clipBase gen0.clipSize) ∧
    (Alone (request .write 0x3007F8 0) ∧ Request.within (request .write 0x3007F8 0) gen0.reportBase (512 * gen0.reportCap)) ∧
    (Alone (request .write 0x401FF8 0) ∧ Request.within (request .write 0x401FF8 0) mid.page 8192 ∧ gen0.hostTags.getLsbD 0 = false) := by
  refine ⟨?_, ?_, ?_, ?_⟩ <;> (unfold Alone Request.within; decide)

theorem test_premises_page_write_refused :
    Alone (request .write 0x400040 1) ∧ ¬ Request.apart (request .write 0x400040 1) (mid.page + 0x40) 8 ∧
    ¬ Request.apart (request .write 0x4000C0 1) (mid.page + 0x80) 72 ∧ ¬ Request.apart (request .write 0x401FF8 1) (mid.page + 0x1300) 3328 ∧
    none ∈ ({ request .write 0x400000 1 with bytes := List.replicate 8 none } : Request).bytes := by
  unfold Alone Request.apart; decide

/-- A report ring of 4 records ends inside a page: the last word of it and the one behind. -/
def straddling : Request := ⟨.read, 0x3007F8, 2, 15, []⟩

theorem test_premises_pass_straddles : Alone straddling ∧ ¬ Request.within straddling gen0.ringBase (512 * gen0.ringSlots) ∧
    ¬ Request.within straddling gen0.clipBase gen0.clipSize ∧ ¬ Request.within straddling gen0.reportBase (512 * gen0.reportCap) ∧
    ¬ Request.within straddling mid.page 8192 ∧ ¬ Request.apart straddling gen0.reportBase (512 * gen0.reportCap) := by
  unfold Alone Request.within Request.apart; decide

/-- An open write to the pinned slot 0. -/
def openWrite : Request := ⟨.write, 0x100000, 1, 0, some 0xA5 :: List.replicate 7 (some 0)⟩
def full : State := { asked [⟨openWrite, false⟩] with guard := { (asked [⟨openWrite, false⟩]).guard with
  held := List.replicate 4 ⟨request .read 0x200000 1, .read false, .held (some 9000)⟩ } }

theorem test_premises_open_write : Alone openWrite ∧ openWrite.kind = .write ∧
    (asked [⟨openWrite, false⟩]).guard.queue[0]? = some ⟨openWrite, false⟩ ∧
    Request.within openWrite gen0.ringBase (512 * gen0.ringSlots) ∧ Request.apart openWrite mid.page 8192 ∧
    gen0.writerTags.getLsbD openWrite.tag = true ∧ (asked [⟨openWrite, false⟩]).pinnedOpens openWrite = [0] ∧
    (if mid.attend.unattended then 0 else mid.gen.holdLimit * 1000) = 1000 ∧
    (if ({ mid with attend := ⟨true, none⟩ } : State).attend.unattended then 0 else mid.gen.holdLimit * 1000) = 0 ∧
    (asked [⟨openWrite, false⟩]).guard.held.length < 4 ∧
    ({ mid.guard with held := [⟨openWrite, .write 0, .held none⟩], queue := [] } : PathGuard).candidate = none ∧
    4 ≤ full.guard.held.length ∧ full.guard.candidate = some (.queued 0) ∧
    ({ full.guard with queue := full.guard.queue.set 0 ⟨openWrite, true⟩ } : PathGuard).candidate = none := by
  unfold Alone Request.within Request.apart; decide

def holding (k : HoldKind) : State := guarded fun g => { g with held := [⟨openWrite, k, .held (some 5000)⟩] }

theorem test_premises_releases : 0 ∈ ({ holding (.write 0) with wires := { mid.wires with slotFree := [0], unattGuard := 1 } } : State).wires.slotFree ∧
    (holding (.write 0)).guard.held[0]? = some ⟨openWrite, .write 0, .held (some 5000)⟩ ∧ 5000 ≤ mid.time.count ∧
    (holding (.read false)).guard.held[0]? = some ⟨openWrite, .read false, .held (some 5000)⟩ ∧
    ({ holding (.write 0) with wires := { mid.wires with slotFree := [0], unattGuard := 1 } } : State).wires.unattGuard ≠ 0 ∧
    (holding (.write 0)).intake.dir[0]? = some ⟨.opened, 1, 1, false, false⟩ := by decide

/-! ### Premises: slots, blocks and detectors -/

def waiting (x : RefetchState) : Refetch := ⟨0, 0, 1, ⟨0, 0, 900, 10, false, false, []⟩, 5, x, false, 1, 0, false⟩
def refetching (x : RefetchState) : State := { mid with intake := { mid.intake with refetch := [waiting x] } }

theorem test_premises_pins : mid.intake.dir[0]? = some ⟨.opened, 1, 1, false, false⟩ ∧
    (wired fun w => { w with pins := [.unpin 1 0, .pin 1 0 0 1] }).wires.pins = [.unpin 1 0] ++ .pin 1 0 0 1 :: [] ∧
    (∀ m ∈ [PinMsg.unpin 1 0], m.slot ≠ 0) ∧ (0 : Nat) ≠ 1 ∧ (wired fun w => { w with pins := [.unpin 0 1] }).wires.pins = [] ++ .unpin 0 1 :: [] ∧
    mid.intake.dir[1]? = some ⟨.empty, 0, 0, false, false⟩ ∧ (wired fun w => { w with cutRequests := [0] }).wires.cutRequests = [0] ∧
    ({ Slot.fresh with cutMark := true } : Slot).cutMark = true := by decide

theorem test_premises_cut_of_a_refetch : (∀ r ∈ (refetching .done).intake.refetch, r.slot = 0 → r.state = .done) ∧
    (refetching .queued).intake.refetch = [] ++ waiting .queued :: [] ∧ (waiting .queued).slot = 0 ∧
    (waiting .reading).state = .reading ∧ (waiting .reading).granted ≠ (waiting .reading).returned := by decide

def assembling0 : Buf := .assembling 0 1 32 5000 []

theorem test_premises_deadlines : ({ mid with intake := { mid.intake with bufs := [assembling0] } } : State).intake.bufs[0]? = some assembling0 ∧
    5000 ≤ mid.time.count ∧ mid.time.count < 5001 ∧
    mid.engine[0]? = some { Detector.fresh with state := .settling, silence := some 5000 } ∧
    ({ Detector.fresh with state := .triggered, openPick := some ⟨1, 2, some 2, false, false⟩, nextTime := some 9 } : Detector).nextTime = some 9 := by
  decide

def block0 : Block := ⟨0, 0, 900, 1, false, false, [0, 0, 0, 0]⟩
/-- Station 0 with one item at the head of its order, HOLDING or DONE. -/
def handing (p : ItemAt) : State :=
  { mid with intake := { mid.intake with
      bufs := [.holding block0]
      refetch := [{ waiting .done with block := block0 }]
      stations := [{ StationIntake.fresh with order := [⟨p, true⟩] }, .fresh] } }

theorem test_premises_block_handoff :
    (handing (.buffer 0)).intake.stations[0]? = some { StationIntake.fresh with order := [⟨.buffer 0, true⟩] } ∧
    (handing (.buffer 0)).intake.bufs[0]? = some (.holding block0) ∧
    (handing (.refetch 0)).intake.refetch.find? (fun y => y.id == 0) = some { waiting .done with block := block0 } ∧
    mid.station 0 = some station0 ∧ mid.engine[0]? = some { Detector.fresh with state := .settling, silence := some 5000 } := by decide

def sample0 : Sample := ⟨0, station0, 900, false, false, 1, [0]⟩

/-- Each state of a detector, the trigger test at equality, and an open pick. -/
theorem test_premises_samples : (24 * 1 * max 65536 65536 ≤ 16 * (98304 : Nat)) ∧ ¬ 24 * 1 * max 65536 65536 ≤ 16 * (98303 : Nat) ∧
    2 ^ station0.tuning.longExp ≤ 63 + 1 ∧ station0.tuning.deadTime ≤ 0 + 1 ∧ station0.tuning.minOn ≤ 1 + 1 ∧ 1 < station0.tuning.minOn ∧
    station0.tuning.maxOn * station0.sampleRate ≤ 999 + 1 ∧ 998 + 1 < station0.tuning.maxOn * station0.sampleRate ∧
    sample0.muted = false ∧ ({ sample0 with muted := true } : Sample).muted = true ∧
    (∃ en : Nat, (en : Int) = min (((Detector.fresh.means.zip sample0.values).map fun p =>
      match p.1 with
      | some m => (p.2 - m.tdiv 256) ^ 2
      | none => 0).sum) (2 ^ 64 - 1)) :=
  ⟨by decide, by decide, by decide, by decide, by decide, by decide, by decide, by decide, rfl, rfl, 0, by decide⟩

def returned (dropped : Bool) : State :=
  { refetching .reading with guard := { mid.guard with downstream := [⟨.refetch, .read, 0x100020, 5, [], dropped⟩] } }

/-- The last read of an entry, one whose read failed, one that was cut, and one that has another read to make. -/
theorem test_premises_refetch_read : (returned false).guard.downstream = ⟨.refetch, .read, 0x100020, 5, [], false⟩ :: [] ∧
    (returned true).guard.downstream = ⟨.refetch, .read, 0x100020, 5, [], true⟩ :: [] ∧
    (returned false).intake.refetch = [] ++ waiting .reading :: [] ∧ (waiting .reading).state = .reading ∧
    mid.intake.dir[(waiting .reading).slot]? = some ⟨.opened, 1, 1, false, false⟩ ∧ (waiting .reading).gen = 1 ∧
    ((waiting .reading).granted == if (waiting .reading).beats ≤ 32 then 1 else 2) = true ∧
    (1 == if ({ waiting .reading with beats := 33 } : Refetch).beats ≤ 32 then 1 else 2) = false ∧
    (waiting .reading).returned + 1 = (waiting .reading).granted ∧
    ({ StationIntake.fresh with order := [⟨.refetch 0, false⟩, ⟨.buffer 0, false⟩] } : StationIntake).order =
      [] ++ ⟨.refetch 0, false⟩ :: ⟨.buffer 0, false⟩ :: [] := by decide
/-! ### Premises: picks and events -/

theorem test_premises_horizon_associator : (wired fun w => { w with horizonAssoc := [600000] }).wires.horizonAssoc = [600000] ∧
    mid.control.setup = some setup0 ∧ (∀ z ∈ setup0.zones, z.count ≠ 0 → z.window ≤ 500) ∧
    ∃ z ∈ setup0.zones, z.count ≠ 0 ∧ z.window = 500 := by
  refine ⟨rfl, rfl, by decide, zone0, ?_, by decide, rfl⟩
  simp [setup0]

def pick1 : Pick := ⟨1, 1200, 32, false, false⟩
/-- The pick of station 1 on its way, behind a closure of station 0. -/
def arriving : State := wired fun w => { w with toAssoc := [.closure 0 1000 ⟨false, 1100, 20⟩, .pick pick1] }

theorem test_premises_messages : arriving.wires.toAssoc = [.closure 0 1000 ⟨false, 1100, 20⟩] ++ .pick pick1 :: [] ∧
    (∀ m ∈ [AssocMsg.closure 0 1000 ⟨false, 1100, 20⟩], m.station ≠ pick1.station) ∧
    arriving.wires.toAssoc = [] ++ .closure 0 1000 ⟨false, 1100, 20⟩ :: [.pick pick1] ∧ arriving.control.part = .listening ∧
    (partly .stopped).control.part ≠ .listening ∧
    (wired fun w => { w with stateRequests := [(1, .waitingTail)] }).wires.stateRequests = [] ++ (1, .waitingTail) :: [] ∧
    mid.assoc.events[0]? = some (some event0) ∧ event0.number = 1 := by decide

theorem test_premises_one_event_of_a_number :
    ∀ (j : Nat) (e' : Event), mid.assoc.events[j]? = some (some e') → e'.number = event0.number → j = 0 :=
  fun j e' h _ => only_first (P := fun j _ => j = 0) (x := some event0) rfl j (some e') h

/-- A pick at the far end of the zone's window joins. -/
theorem test_premises_pick_joins : arriving.control.setup = some setup0 ∧ setup0.zones[0]? = some zone0 ∧ zone0.count ≠ 0 ∧
    pick1.station ∈ zone0.members ∧ zone0.members.Nodup ∧ event0.state = .gathering ∧ event0.zone = 0 ∧
    ({ pick1 with onset := 501000 } : Pick).onset ≤ event0.anchor + zone0.window * 1000 ∧
    pick1.onset ≤ event0.anchor + zone0.window * 1000 ∧ event0.anchor ≤ pick1.onset + zone0.window * 1000 ∧
    (∀ c ∈ event0.picks, c.pick.station ≠ pick1.station) ∧ event0.picks.length < 24 := by decide

/-- The free pick of station 0, and the event table with its slot FREE or held by an event of another zone. -/
def declaring (e : Option Event) : State := { arriving with assoc := ⟨[⟨⟨0, pick0, none⟩, none⟩], 1, [e], 2⟩ }

theorem test_premises_pick_declares : (declaring none).assoc.events[0]? = some none ∧ (declaring none).assoc.counter < 2 ^ 32 ∧
    (1000 ≤ pick1.onset ∧ (∃ c, (⟨c, none⟩ ∈ ((declaring none).enterPick pick1).assoc.picks ∧ c.pick.station ∈ zone0.members ∧
        c.pick.onset ≤ pick1.onset + zone0.window * 1000 ∧ pick1.onset ≤ c.pick.onset + zone0.window * 1000) ∧ c.pick.onset = 1000) ∧
      ∃ sts : List Nat, sts.Nodup ∧ sts.length = zone0.minCount ∧ ∀ st ∈ sts, ∃ c : PickCopy,
        (⟨c, none⟩ ∈ ((declaring none).enterPick pick1).assoc.picks ∧ c.pick.onset ≤ 1000 + zone0.window * 1000) ∧ c.pick.station = st) ∧
    ∀ c : PickCopy, ⟨c, none⟩ ∈ ((declaring none).enterPick pick1).assoc.picks → 1000 ≤ c.pick.onset := by
  have hp : ((declaring none).enterPick pick1).assoc.picks = [⟨⟨0, pick0, none⟩, none⟩, ⟨⟨1, pick1, none⟩, none⟩] := rfl
  rw [hp]
  refine ⟨rfl, by decide, ⟨by decide, ⟨_, ⟨List.mem_cons_self, by decide, by decide, by decide⟩, rfl⟩, [0, 1], by decide, rfl, ?_⟩, ?_⟩
  · intro st hst
    simp only [List.mem_cons, List.not_mem_nil, or_false] at hst
    rcases hst with rfl | rfl
    · exact ⟨⟨0, pick0, none⟩, ⟨by simp, by decide⟩, rfl⟩
    · exact ⟨⟨1, pick1, none⟩, ⟨by simp, by decide⟩, rfl⟩
  · intro c hc
    simp only [List.mem_cons, List.not_mem_nil, or_false, PickEntry.mk.injEq, and_true] at hc
    rcases hc with rfl | rfl <;> decide

def elsewhere : Event := { event0 with zone := 1 }

/-- No slot, or no number; and a pick alone, which is counted in no window of two stations. -/
theorem test_premises_pick_is_lost_or_free :
    (∀ i : Nat, (declaring (some elsewhere)).assoc.events[i]? ≠ some none) ∧
    2 ^ 32 ≤ ({ (declaring none).assoc with counter := 4294967296 } : Assoc).counter ∧
    (({ declaring none with assoc := .reset } : State).enterPick pick1).assoc.picks = [⟨⟨0, pick1, none⟩, none⟩] := by
  refine ⟨fun i h => ?_, by decide, rfl⟩
  have hn : (some elsewhere : Option Event) ≠ none := by simp
  exact only_first (P := fun _ y => y ≠ none) hn i none h rfl

theorem test_premises_event_closes : mid.assoc.events[0]? = some (some event0) ∧ event0.state = .gathering ∧
    event0.closeDeadline = some 4000 ∧ mid.control.setup = some setup0 ∧ setup0.zones[event0.zone]? = some zone0 ∧ 4000 ≤ mid.time.count ∧
    (timed fun t => { t with count := 3999 }).time.count < 4000 ∧ (timed fun t => { t with count := 4000 }).time.count = 4000 ∧
    ¬ (mid.clip.draining = true ∨ gen0.tailWait = 0) ∧ ({ mid.clip with draining := true } : Clip).draining = true ∧
    mid.clip.copier ≠ .idle ∧ Clip.reset.copier = .idle ∧ Clip.reset.queue = [] := by decide

/-! ### Premises: event clips -/

/-- The job of two units: it ends exactly at the ring's end, it would cross it by one, it does not fit, it can never fit. -/
theorem test_premises_allocation : mid.clip.plans[0]? = some (some plan0) ∧ 2 = 1 + (plan0.clips.map fun c => c.sels.length).sum ∧
    mid.gen.clipSize / 512 = 512 ∧ (510 : Nat) + 2 ≤ 512 ∧ ¬ (511 : Nat) + 2 ≤ 512 ∧ (2 : Nat) ≤ 512 ∧ (0 : Nat) + 2 ≤ 512 - 510 ∧
    512 - (511 : Nat) < 0 + 2 ∧ ({ mid with attend := ⟨true, none⟩ } : State).attend.unattended = true ∧ mid.attend.unattended = false ∧
    ({ mid.report with waitList := [9] } : ReportRing).waitList ≠ [] ∧ (512 : Nat) < 513 ∧
    plan0.clips = clip0 :: [] ∧ clip0.sels = sel0 :: [] ∧ sel0.status ≠ .cut ∧ ({ sel0 with status := .cut } : Selection).status = .cut ∧
    (∀ c ∈ ({ plan0 with clips := [{ clip0 with sels := [] }] } : Plan).clips, c.sels = []) := by decide

def trail0 : TrailEntry := ⟨1, 0, 102000, 1, false, false, true⟩

/-- Entries that end at the window's end, that cover it, that lie past it, and one whose station-clip is full. -/
theorem test_premises_tail_waits : mid.clip.copier ≠ .idle ∧ mid.clip.plans[0]? = some (some plan0) ∧ plan0.tail ≠ none ∧
    (∃ e, mid.assoc.events[0]? = some (some e)) ∧ (wired fun w => { w with trailNotes := [(0, trail0)] }).wires.trailNotes = [] ++ (0, trail0) :: [] ∧
    mid.station 0 = some station0 ∧ sampleTime (trail0.first + trail0.count * (1000000 / station0.sampleRate)) = 103000 ∧
    sampleTime (101000 + 1 * (1000000 / station0.sampleRate)) = plan0.winEnd ∧ trail0.first ≤ plan0.winEnd ∧ plan0.winEnd < 103000 ∧
    plan0.winEnd < ({ trail0 with first := 102001 } : TrailEntry).first ∧ clip0.station = 0 ∧ clip0.awaiting = true ∧
    (∀ z ∈ clip0.sels, ¬ (z.slot = trail0.slot ∧ z.gen = trail0.gen)) ∧
    128 ≤ ({ clip0 with sels := List.replicate 128 sel0 } : StationClip).sels.length ∧ clip0.sels.length < 128 ∧ event0.number = 1 ∧
    plan0.tail = some 4000 ∧ 4000 ≤ mid.time.count ∧ (wired fun w => { w with clipStop := true }).wires.clipStop = true := by
  refine ⟨by decide, rfl, by decide, ⟨_, rfl⟩, rfl, rfl, rfl, rfl, by decide, by decide, by decide, rfl, rfl, by decide, ?_, by decide, rfl, rfl,
    by decide, rfl⟩
  rw [List.length_replicate]

/-- `mid` with the one selection in a status and the copier somewhere in its job. -/
def copying (x : SelStatus) (c : Copier) : State :=
  { mid with clip := { mid.clip with
      plans := [some { plan0 with clips := [{ clip0 with sels := [{ sel0 with status := x }] }], region := some ⟨0, 2, 0⟩ }], copier := c, writesOut := 1 } }

theorem test_premises_cuts :
    (wired fun w => { w with refusedPins := [⟨1, 0, 0, 1⟩], cutNotes := [(0, 1)] }).wires.refusedPins = [] ++ ⟨1, 0, 0, 1⟩ :: [] ∧
    (sel0.slot = 0 ∧ sel0.gen = 1 ∧ sel0.status = .pinned) ∧ clip0.station = 0 ∧ event0.number = 1 ∧
    (wired fun w => { w with refusedPins := [⟨1, 0, 0, 1⟩], cutNotes := [(0, 1)] }).wires.cutNotes = [] ++ (0, 1) :: [] ∧
    (copying .reading (.unit 0 (([] : List StationClip).length + 0) (.reading 8 3 3 [] 0))).clip.copier =
      .unit 0 (([].map fun c : StationClip => c.sels.length).sum + 0) (.reading 8 3 3 [] 0) ∧
    (∀ (e : Event), mid.assoc.events[0]? = some (some e) → e.number ≠ 2) := by
  refine ⟨rfl, by decide, rfl, rfl, rfl, rfl, fun e he => ?_⟩
  cases (Option.some.inj (Option.some.inj he) : event0 = e)
  decide

/-- The check with the pin taken, the pin on its way, the generation gone; the reads of a unit, the last one and one before. -/
theorem test_premises_copier :
    (copying .pinned (.unit 0 0 (.check 8))).clip.plans[0]? =
      some (some { plan0 with clips := [] ++ { clip0 with sels := [{ sel0 with status := .pinned }] } :: [], region := some ⟨0, 2, 0⟩ }) ∧
    (copying .pinned (.unit 0 0 (.check 8))).clip.copier = .unit 0 0 (.check 8) ∧
    PinMsg.pin 1 0 0 1 ∉ mid.wires.pins ∧ PinMsg.pin 1 0 0 1 ∈ (wired fun w => { w with pins := [.pin 1 0 0 1] }).wires.pins ∧
    mid.intake.dir[sel0.slot]? = some ⟨.opened, 1, 1, false, false⟩ ∧ sel0.gen = 1 ∧ ({ sel0 with gen := 2 } : Selection).gen ≠ 1 ∧
    (guarded fun g => { g with downstream := [⟨.copierRead, .read, 0, 8, [], false⟩] }).guard.downstream = ⟨.copierRead, .read, 0, 8, [], false⟩ :: [] ∧
    (copying .reading (.unit 0 0 (.reading 8 8 7 [] 0))).clip.copier = .unit 0 0 (.reading 8 8 7 [] 0) ∧ (7 : Nat) + 1 = 8 ∧ 8 = 64 / 8 ∧
    (6 : Nat) + 1 ≠ 8 ∧
    (guarded fun g => { g with downstream := [⟨.copierWrite none, .write, 0, 8, [], true⟩] }).guard.downstream =
      ⟨.copierWrite none, .write, 0, 8, [], true⟩ :: [] ∧
    (copying .copied (.directory 0 0 [])).clip.copier.slot = some 0 ∧ (copying .copied (.directory 0 0 [])).clip.writesOut = 1 ∧
    (copying .copied (.directory 0 0 [])).clip.queue = [] ∧
    (∀ addr, (copying .copied (.unit 0 0 (.writing 0 []))).clip.copier = .directory 0 addr [] →
      (copying .copied (.unit 0 0 (.writing 0 []))).clip.writesOut ≠ 1) := by
  refine ⟨rfl, rfl, by decide, by decide, rfl, rfl, by decide, rfl, rfl, rfl, rfl, by decide, rfl, rfl, rfl, rfl, ?_⟩
  intro addr h; simp [copying] at h

/-! ### Premises: the report ring, the loader and the sample ring -/

def outstanding (o : Owner) (dropped : Bool) : State := guarded fun g => { g with downstream := [⟨o, .write, 0, 1, [], dropped⟩] }

theorem test_premises_write_completions :
    (outstanding .report false).guard.downstream = ⟨.report, .write, 0, 1, [], false⟩ :: [] ∧
    (outstanding .status true).guard.downstream = ⟨.status, .write, 0, 1, [], true⟩ :: [] := ⟨rfl, rfl⟩

/-- One record outstanding at the last place of the ring of four, and the next at place 0. -/
def recorded (n : Nat) : State := { mid with report := { mid.report with
  put := (3 + n) % 4, get := 3, occupancy := n, numbers := List.replicate n 1, waitList := [9] } }

theorem test_premises_acks : State.reset.control.setup = none ∧ RingOk (recorded 2) ∧
    (0 + 4 - (recorded 2).report.get) % 4 = 1 ∧ (0 : Nat) < gen0.reportCap ∧ 1 < (recorded 2).report.occupancy ∧
    (3 + 4 - (recorded 2).report.get) % 4 = 0 ∧ ¬ (1 + 4 - 3) % 4 < (recorded 2).report.occupancy ∧ ¬ (4 : Nat) < gen0.reportCap ∧
    (recorded 2).report.reclaim = false ∧ (recorded 2).report.get < gen0.reportCap ∧
    (recorded 1).report.numbers = event0.number :: [] ∧ (recorded 1).clip.plans[0]? = some (some plan0) ∧ plan0.region = none ∧
    (copying .copied .idle).clip.plans[0]? = some (some { plan0 with clips := [{ clip0 with sels := [{ sel0 with status := .copied }] }], region := some ⟨0, 2, 0⟩ }) := by
  refine ⟨rfl, by unfold RingOk; decide, ?_⟩
  decide

theorem test_premises_reclaims : mid.report.reclaim = false ∧ ({ mid.report with reclaim := true } : ReportRing).reclaim = true ∧
    mid.clip.copier = .allocating 0 ∧ mid.clip.plans[0]? = some (some plan0) ∧ mid.clip.queue = [] ∧ (recorded 0).report.occupancy = 0 ∧
    (recorded 0).report.waitList ≠ [] ∧ (recorded 1).report.occupancy ≠ 0 ∧
    (wired fun w => { w with unattReport := 1 }).wires.unattReport ≠ 0 ∧ mid.report.waitList = [] ∧
    ({ (recorded 4).report with waitList := [1] } : ReportRing).waitList = event0.number :: [] ∧ (recorded 3).report.occupancy < gen0.reportCap ∧
    gen0.reportCap ≤ (recorded 4).report.occupancy ∧ (recorded 4).report.numbers = 1 :: [1, 1, 1] ∧ gen0.reportCap = [1, 1, 1].length + 1 ∧
    (recorded 4).report.writer = .idle := by decide

def loaded (dropped : Bool) : State :=
  { loading with guard := { mid.guard with downstream := [⟨.loader, .read, 0x400100, 32, [], dropped⟩] } }

set_option maxRecDepth 8192 in
/-- A first read of zeros: the lowest of the fields that fail is `ring_slots`, at 104H. -/
theorem test_premises_loader_read : (loaded false).guard.downstream = ⟨.loader, .read, 0x400100, 32, [], false⟩ :: [] ∧
    (loaded true).guard.downstream = ⟨.loader, .read, 0x400100, 32, [], true⟩ :: [] ∧ (loaded false).control.load = some load0 ∧
    load0.error = none ∧ (loaded false).control.pageBase = some 0x400000 ∧ 0x100 = 0x100 + load0.data.length ∧
    ((checksIn 0x400000 0x100).filter fun c => c.fails (List.replicate 256 0)).head?.map (fun c => (c.reason, c.offset)) = some (.range, 0x104) ∧
    ((checksIn 0x400000 0x100).filter fun c => c.fails (List.replicate 256 0)).all (fun c => 0x104 < c.offset ∨ 0x104 = c.offset ∧ Reason.range.rank ≤ c.reason.rank) = true ∧
    (checksIn 0x400000 0xE00).filter (fun c => c.fails (List.replicate 3584 0)) = [] := by
  refine ⟨rfl, rfl, rfl, rfl, rfl, rfl, by decide, by decide, ?_⟩
  rw [List.filter_eq_nil_iff]
  have h : ((checksIn 0x400000 0xE00).any fun c => c.fails (List.replicate 3584 0)) = false := by decide
  intro c hc
  simpa using List.any_eq_false.mp h c hc

theorem test_premises_banks : (List.replicate 48 (⟨0, 0, 0, 0, 0, 0⟩ : BankEntry)).length = 48 ∧ 0x100 ≤ 0x200 ∧ 0x100 ≤ 0xE00 := by
  refine ⟨List.length_replicate, by decide, by decide⟩

/-- A ring write from the writer tag to a slot without pins, as a candidate that stands alone. -/
def ringWrite : Request := ⟨.write, 0x100200, 1, 0, some 0xA5 :: List.replicate 7 (some 0)⟩

theorem test_premises_ring_write : Alone ringWrite ∧ ringWrite.kind = .write ∧ mid.control.pageBase = some 0x400000 ∧
    Request.within ringWrite gen0.ringBase (512 * gen0.ringSlots) ∧ Request.apart ringWrite 0x400000 8192 ∧
    gen0.writerTags.getLsbD ringWrite.tag = true ∧ (asked [⟨ringWrite, false⟩]).pinnedOpens ringWrite = [] := by
  unfold Alone Request.within Request.apart; decide

def openPiece : Piece := ⟨0, 0, some 0xA5 :: List.replicate 39 (some 0)⟩
def sealBytes : List Byte := [0x5A, 0, 5, 0, 10, 1, 0, 0, 0x84, 3] ++ List.replicate 22 0
def sealPiece : Piece := ⟨0, 0, sealBytes.map some ++ [none]⟩

/-- Pieces of each class; a body write that begins where the buffer expects it, and one that does not. -/
theorem test_premises_pieces : mid.intake.dir[0]? = some ⟨.opened, 1, 1, false, false⟩ ∧ openPiece.byteAt 0 = some 0xA5 ∧
    openPiece.reachesBody = true ∧ ({ openPiece with bytes := openPiece.bytes.take 32 } : Piece).reachesBody = false ∧
    (⟨0, 0, [some 0x5A]⟩ : Piece).byteAt 0 = some 0x5A ∧ (⟨0, 0, [some 0x5A]⟩ : Piece).writesHeader = false ∧
    (⟨0, 8, [some 0]⟩ : Piece).byteAt 0 = none ∧ (⟨0, 8, [some 0]⟩ : Piece).reachesBody = false ∧
    (⟨0, 32, word8⟩ : Piece).reachesBody = true ∧ (⟨0, 32, word8⟩ : Piece).bytes = (List.replicate 8 (0 : Byte)).map some ∧
    none ∈ (⟨0, 32, [none, some 0]⟩ : Piece).bytes ∧ (⟨0, 40, word8⟩ : Piece).off ≠ 32 ∧
    (∀ b ∈ ([.free, .free] : List Buf), b.assembles 0 = false) ∧ Buf.assembles 0 assembling0 = true := by decide

set_option maxRecDepth 4096 in
/-- A block of station 0 that is first after a START; with an expected sequence, one at the half period, one past it, one stale. -/
theorem test_premises_seal : sealBytes.length = 32 ∧ (∀ b ∈ [(none : Option Byte)], b = none) ∧ sealBytes[0]? = some 0x5A ∧
    mid.intake.dir[0]? = some ⟨.opened, 1, 1, false, false⟩ ∧ field sealBytes 1 1 = 0 ∧ field sealBytes 2 2 = 5 ∧ field sealBytes 4 1 = 10 ∧
    field sealBytes 5 1 = 1 ∧ field sealBytes 8 6 = 900 ∧ mid.station 0 = some station0 ∧ mid.intake.stations[0]? = some .fresh ∧
    StationIntake.fresh.expected = none ∧ (900 : Nat) + 1000000 / station0.sampleRate / 2 < 1401 ∧
    ¬ (900 : Nat) + 1000000 / station0.sampleRate / 2 < 1400 ∧ (400 : Nat) + 1000000 / station0.sampleRate / 2 < 901 ∧
    (5 + 65536 - 6) % 65536 > 32767 ∧ (5 + 65536 - 32774) % 65536 ≤ 32767 ∧ ¬ (96 : Nat) < 96 ∧ 32 + 4 * 10 * 1 ≤ 72 ∧ ¬ 32 + 4 * 10 * 1 ≤ 71 := by
  decide

theorem test_premises_seal_refetch : mid.intake.refetch.length < 16 ∧ 16 ≤ (List.replicate 16 (waiting .queued)).length ∧
    (∀ x ∈ mid.intake.bufs, x.assembles 0 = false) := by decide

/-! ### Premises of single clauses -/

/-- What a command leaves, where it leaves a next state. -/
def after (c : Instr) (s : State) : State :=
  match exec c s with
  | .next t => t
  | .fault _ => s
  | .refused _ => s

/-- The last slot of each list that a snapshot holds. -/
theorem test_premises_dump_snapshot : ({ partly .stopped with engine := List.replicate 96 Detector.fresh } : State).control.part = .stopped ∧
    State.reset.tallies.global.length = 34 ∧ State.reset.tallies.stations.length = 96 ∧ State.reset.engine.length = 96 ∧
    State.reset.tallies.global[33]? = some 0 ∧ State.reset.tallies.stations[95]? = some ⟨0, 0, 0⟩ ∧
    State.reset.engine[95]? = some Detector.fresh := by decide

/-- The detector of station 0 is TRIGGERED, `n` its state count, and its open pick is the one that `event0` holds. -/
def triggered (n : Nat) : Detector :=
  { Detector.fresh with state := .triggered, count := n, openPick := some ⟨1000, 20, some 16, false, false⟩, nextTime := some 4900 }
def picking (n : Nat) : State := { mid with engine := [triggered n, .fresh] }

/-- An event that is GATHERING, its pick open; one that is past it; and no event left before COPIED. -/
theorem test_premises_stop_clauses : (picking 2).control.part = .listening ∧ (picking 2).control.inProgress = none ∧
    (picking 2).assoc.events[0]? = some (some event0) ∧ event0.number ∉ (picking 2).report.numbers ∧ event0.state = .gathering ∧
    0 < (picking 2).clip.plans.length ∧ (picking 2).wires.toAssoc = [] ∧ event0.picks[0]? = some ⟨0, pick0, none⟩ ∧
    (picking 2).engine[pick0.station]? = some (triggered 2) ∧ (triggered 2).state = .triggered ∧
    (triggered 2).openPick = some ⟨1000, 20, some 16, false, false⟩ ∧ pick0.onset = 1000 ∧ (triggered 2).nextTime = some 4900 ∧
    (∃ e, ({ mid with assoc := copied.assoc } : State).assoc.events[0]? = some (some e) ∧ e.state ≠ .gathering) ∧
    (after (.stop 7) { mid with assoc := copied.assoc, engine := [] }).control.part = .stopped := by
  refine ⟨rfl, rfl, rfl, by decide, rfl, by decide, rfl, rfl, rfl, rfl, rfl, rfl, rfl, ⟨_, rfl, by decide⟩, rfl⟩

/-- Of the messages before STOP, those that a pick of their station follows are taken first; what follows the last pick stays. -/
theorem test_messages_before_stop :
    splitAtPicks [.closure 1 900 ⟨false, 950, 3⟩, .closure 0 500 ⟨false, 600, 9⟩, .pick pick0, .closure 0 1000 ⟨false, 1100, 20⟩] =
      ([.closure 0 500 ⟨false, 600, 9⟩, .pick pick0], [.closure 1 900 ⟨false, 950, 3⟩, .closure 0 1000 ⟨false, 1100, 20⟩]) := by decide

/-- A change of `schedule_enable`; a service interval that is switched off, and one that is switched on, at both ends of its range. -/
theorem test_premises_general_clauses : (gen0.scheduleEnable = true ↔ field [60, 0, 0, 0, 0, 0, 1, 0] 1 1 ≠ 1) ∧
    field [60, 0, 0, 0, 0, 0, 1, 0] 1 1 ≤ 1 ∧ ¬ (gen0.scheduleEnable = true ↔ field [60, 1, 0, 0, 0, 0, 1, 0] 1 1 ≠ 1) ∧
    field [0, 0, 100, 0, 0, 0, 0, 0] 6 2 = 0 ∧ field [0, 0, 100, 0, 0, 0, 100, 0] 6 2 = 100 ∧ field [0, 0, 100, 0, 0, 0, 0x60, 0xEA] 6 2 = 60000 ∧
    ({ gen0 with serviceInterval := 0 } : General).serviceInterval = 0 ∧ (partly .draining).control.part.takesSetup = true ∧
    gen0.serviceInterval ≠ 0 ∧ (following 1).sched.state ≠ .idle := by decide

/-- A disable of a TRIGGERED detector: with no sample after the onset, and with one. -/
theorem test_premises_disable_of_a_pick : (picking 1).engine[0]? = some (triggered 1) ∧ (triggered 1).count ≤ 1 ∧ ¬ (triggered 2).count ≤ 1 ∧
    setup0.stations[0]? = some station0 ∧ station0.enabled = true ∧ (picking 1).control.part = .listening ∧
    (triggered 1).state = .triggered ∧ (triggered 1).openPick ≠ none ∧ (triggered 1).nextTime ≠ none ∧ field (List.replicate 8 0) 0 1 = 0 := by decide

/-- A full list: an ON entry drops the closed interval with the earliest end. An OFF entry that splits. -/
theorem test_premises_full_mute_list :
    IntervalsOk (⟨1, .mute, 0, some 6⟩ :: List.replicate 15 ⟨1, .mute, 0, some 5⟩) ∧
    (⟨1, .mute, 0, some 6⟩ :: List.replicate 15 (⟨1, .mute, 0, some 5⟩ : Interval)).length + 1 = 17 ∧
    (⟨0, 1, 0, 1, 0, 1⟩ : BankEntry).act 9 (⟨1, .mute, 0, some 6⟩ :: List.replicate 15 ⟨1, .mute, 0, some 5⟩) =
      ⟨1, .mute, 0, some 6⟩ :: List.replicate 14 ⟨1, .mute, 0, some 5⟩ ++ [⟨1, .mute, 9, none⟩] ∧
    (⟨0, 1, 0, 2, 0, 1⟩ : BankEntry).act 9 [⟨3, .mute, 0, none⟩] = [⟨3, .mute, 0, some 9⟩, ⟨2, .mute, 9, none⟩] ∧
    ([⟨3, .mute, 0, none⟩, ⟨4, .mute, 9, none⟩] : List Interval).Pairwise (fun v w => v.beginT ≤ w.beginT) := by
  refine ⟨⟨by decide, by decide, ?_⟩, by decide, by decide, by decide, by decide⟩
  rw [List.pairwise_cons]
  refine ⟨fun b hb _ h => ?_, List.pairwise_replicate.mpr (.inr fun h => ?_)⟩
  · rw [List.eq_of_mem_replicate hb] at h; simp [Interval.isOpen] at h
  · simp [Interval.isOpen] at h

/-- Two selections and a region for them. -/
def plan2 (x : SelStatus) : Plan :=
  { plan0 with clips := [] ++ { clip0 with sels := [{ sel0 with status := x }, { sel0 with status := .cut }] } :: [], region := some ⟨0, 3, 0⟩ }
def copierAt (c : Copier) : State := { mid with clip := { mid.clip with plans := [some (plan2 .copied)], copier := c } }

/-- The second write of a record, at the watermark; a write of a unit with more to come, the last one of it before a selection, the last one
before the directory; a write of the directory. -/
theorem test_premises_claimants_second :
    (Claimant.status).after.find? ({ mid with report := { mid.report with writer := .writing 1 0 (List.replicate 512 0) true } } : State).waits =
      some .report ∧ gen0.reportWatermark ≤ mid.report.occupancy + 1 ∧
    (∀ c ∈ [Copier.unit 0 0 (.writing 0x200200 [[0], [1]]), .unit 0 0 (.writing 0x200200 [[1]]), .unit 0 1 (.writing 0x200400 [[1]]),
      .directory 0 0x200000 [[0], [1]]], (Claimant.refetch).after.find? (copierAt c).waits = some .copier ∧ (copierAt c).guard.candidate = none) ∧
    (copierAt .idle).clip.plans[0]? = some (some (plan2 .copied)) ∧
    (plan2 .copied).clips = [] ++ { clip0 with sels := [{ sel0 with status := .copied }, { sel0 with status := .cut }] } :: [] ∧
    (plan2 .copied).region = some ⟨0, 3, 0⟩ ∧ (0 : Nat) + 1 = 0 + 1 ∧
    1 + 1 = ((plan2 .copied).clips.map fun c => c.sels.length).sum ∧ (copierAt .idle).assoc.events[0]? = some (some event0) := by
  refine ⟨by decide, by decide, by decide, rfl, rfl, rfl, rfl, rfl, rfl⟩

/-- PASS has a candidate while the loader waits, and the share of the frame is used up. -/
theorem test_premises_share_used_up :
    let s : State := { offering with guard := { (asked [⟨request .read 0x180000 15, false⟩]).guard with shareCount := 8 } }
    s.guard.lastServed.after.find? s.waits = some .loader ∧ s.guard.candidate = some (.queued 0) ∧ s.guard.frameShare ≤ s.guard.shareCount ∧
      s.loaded = true ∧ s.guard.grantCount < 15 ∧ ¬ (15 : Nat) < 15 := by decide

/-- Before a LOAD has succeeded: no control page yet, a request apart from it, a read of it, and a write of a part of a word. -/
theorem test_premises_no_region_map :
    let s : State := { asked [⟨request .write 0x400000 9, false⟩] with control := { mid.control with setup := none } }
    s.loaded = false ∧ s.guard.candidate = some (.queued 0) ∧ State.reset.loaded = false ∧ State.reset.control.pageBase = none ∧
      s.control.pageBase = some 0x400000 ∧ Request.apart (request .read 0x3FFFF8 0) s.page 8192 ∧ ¬ Request.apart (request .read 0x401FF8 0) s.page 8192 ∧
      (request .write 0x400018 9).addr < s.page + 0x20 ∧ none ∈ ({ request .write 0x400018 9 with bytes := List.replicate 8 none } : Request).bytes := by
  unfold Request.apart; decide

/-- Reads within the clip store that pass: marked, not from the host, clear of the announced range, and at hold limit 0. -/
theorem test_premises_reads_within :
    Alone (request .read 0x23FFF8 0) ∧ Request.within (request .read 0x23FFF8 0) gen0.clipBase gen0.clipSize ∧ gen0.hostTags.getLsbD 0 = false ∧
    Request.apart (request .read 0x200400 1) (gen0.clipBase + 512 * 0) (512 * 2) ∧ ¬ Request.apart (request .read 0x2003F8 1) (gen0.clipBase + 512 * 0) (512 * 2) ∧
    Alone (request .read 0x400090 1) ∧ gen0.hostTags.getLsbD 1 = true ∧ (request .read 0x400090 1).addr ≤ mid.page + 0x90 ∧
    mid.page + 0x98 ≤ (request .read 0x400090 1).addr + 8 * (request .read 0x400090 1).beats := by
  unfold Alone Request.within Request.apart; decide

/-- Writes of the control page that hand their words over: each single word, the first and last word of an area, and four words at once. -/
theorem test_premises_page_words :
    pageCommand 1 0x18 (strobed (List.replicate 8 0)) (.clearWord 0) ∧ pageCommand 1 0 (strobed (List.replicate 8 0)) (commandOf 0 0) ∧
    pageCommand 1 0x1F8 word8 (.generalSetupWrite ⟨1, 0x1F8, word8⟩) ∧ pageCommand 1 0x12F8 word8 (.scheduleBankWrite ⟨1, 0x12F8, word8⟩) ∧
    (let r : Request := ⟨.write, 0x400000, 4, 1, strobed (List.replicate 32 0)⟩
     Alone r ∧ Request.within r mid.page 8192 ∧ none ∉ r.bytes ∧ Request.apart r (mid.page + 0x40) 8 ∧ Request.apart r (mid.page + 0x80) 72 ∧
       Request.apart r (mid.page + 0x1300) 3328 ∧ gen0.hostTags.getLsbD r.tag = true ∧ ¬ Request.within r gen0.ringBase (512 * gen0.ringSlots) ∧
       2 ≤ r.beats ∧ r.beats ≤ 4) := by
  refine ⟨.inl ⟨_, rfl, rfl, .inr (.inr (.inr ⟨rfl, rfl⟩))⟩, .inl ⟨_, rfl, rfl, .inl ⟨rfl, rfl⟩⟩,
    .inr (.inl ⟨by decide, by decide, rfl⟩), .inr (.inr (.inr (.inr ⟨by decide, by decide, rfl⟩))), ?_⟩
  unfold Alone Request.within Request.apart; decide

/-- The open write RELEASED, a candidate again, and held anew in its place; a host read of the announced range, with room and without. -/
theorem test_premises_classified_anew :
    let s : State := guarded fun g => { g with
      held := [⟨openWrite, .write 0, .released 3⟩], unanswered := [⟨openWrite.tag, openWrite.kind, openWrite.beats, .waiting⟩] }
    let r := request .read 0x2003F8 1
    let g := (asked [⟨r, false⟩]).guard
    s.guard.candidate = some (.held 0) ∧ s.guard.request (.held 0) = some (openWrite, false) ∧ s.pinnedOpens openWrite = [0] ∧
      s.guard.lastServed.after.find? s.waits = none ∧
      ({ s.guard with held := [⟨openWrite, .write 0, .held (some 6000)⟩] } : PathGuard).candidate = none ∧
      ({ g with range := some (0, 2) } : PathGuard).candidate = some (.queued 0) ∧ g.queue[0]? = some ⟨r, false⟩ ∧ g.held.length < 4 ∧
      ({ g with range := some (0, 2), held := [⟨r, .read false, .held (some 6000)⟩], queue := [] } : PathGuard).candidate = none ∧
      4 ≤ (List.replicate 4 (⟨r, .read false, .held (some 9000)⟩ : Held)).length ∧
      ({ g with range := some (0, 2), queue := [⟨r, true⟩], held := List.replicate 4 ⟨r, .read false, .held (some 9000)⟩ } : PathGuard).candidate = none := by
  decide

/-- A full pick list, and one with room for one more; the second zone of a station whose first one neither joins nor opens. -/
theorem test_premises_pick_lists : ¬ (List.replicate 256 (⟨⟨0, pick0, none⟩, none⟩ : PickEntry)).length < 256 ∧
    (List.replicate 255 (⟨⟨0, pick0, none⟩, none⟩ : PickEntry)).length < 256 ∧
    ([zone0, { zone0 with window := 400 }] : List Zone)[1]? = some { zone0 with window := 400 } ∧
    (∀ (k : Nat) (e : Event), ({ declaring none with assoc := .reset } : State).assoc.events[k]? = some (some e) → ¬ e.mayJoin 0 zone0 pick1) ∧
    (¬ ∃ f, zone0.opensAt pick1 [⟨⟨0, pick1, none⟩, none⟩] f) ∧ ([] : List Nat).Nodup := by
  refine ⟨by rw [List.length_replicate]; decide, by rw [List.length_replicate]; decide, rfl, ?_, ?_, List.nodup_nil⟩
  · intro k e h
    cases List.eq_of_mem_replicate (n := 32) (List.mem_of_getElem? h)
  · rintro ⟨f, -, -, sts, hn, hl, h⟩
    have hs : ∀ st ∈ sts, st = 1 := by
      intro st hst
      obtain ⟨c, ⟨⟨hc, -⟩, -⟩, rfl⟩ := h st hst
      simp only [List.mem_singleton, PickEntry.mk.injEq, and_true] at hc
      rw [hc]; rfl
    have h2 : sts = List.replicate 2 1 := List.eq_replicate_iff.mpr ⟨hl, hs⟩
    rw [h2] at hn
    exact absurd hn (by decide)

/-- With an empty wait list the writer is IDLE and there is room for the event; the copy queue holds the next job; no record, and one. -/
theorem test_premises_next_job : mid.report.waitList = [] ∧ mid.report.writer = .idle ∧ mid.report.occupancy < gen0.reportCap ∧
    State.eventAt mid 0 event0 ∧ ({ mid.clip with queue := [1], copier := .idle } : Clip).queue = event0.number :: [] ∧
    (∀ (j : Nat) (e : Event), j < 0 → mid.assoc.events[j]? = some (some e) → e.number ≠ 1) ∧
    (∀ (j : Nat) (e : Event), mid.assoc.events[j]? = some (some e) → e.number ≠ 2) ∧ (recorded 4).report.occupancy = gen0.reportCap := by
  refine ⟨rfl, rfl, by decide, ⟨rfl, test_premises_one_event_of_a_number⟩, rfl, fun j e h => by omega, fun j e h hn => ?_, rfl⟩
  exact only_first (P := fun _ y => ∀ z : Event, y = some z → z.number ≠ 2) (x := some event0)
    (fun z hz => by cases (Option.some.inj hz : event0 = z); decide) j (some e) h e rfl hn

/-- `bank0`, filled up with ENDs. -/
def whole : List BankEntry := bank0 ++ List.replicate 43 ⟨0, 0, 0, 0, 0, 0⟩

/-- The bounds of the loader's reads, and a bank of 48 entries with its WATCH. -/
theorem test_premises_setup_clauses : (0x200 : Nat) % 256 = 0 ∧ (0xD00 : Nat) < 0xE00 ∧ (0xE00 : Nat) % 256 = 0 ∧ (0xF00 : Nat) < 0x1000 ∧
    whole.length = 48 ∧
    (∃ share : BankEntry → BankEntry → Prop, ∀ e f, share e f ↔ e.action = 5 ∨ f.action = 5 ∨ e.rep ≤ f.rep ∧ f.first % e.rep = e.first ∨
      f.rep ≤ e.rep ∧ e.first % f.rep = f.first) ∧
    (∃ used : Nat → Prop, ∀ i, used i ↔ i < 48 ∧ ∀ j e, j ≤ i → whole[j]? = some e → e.action ≠ 0) ∧
    bankValid whole = true ∧ 3 ∈ [0, 1, 3, 7, 15, 31, 63] :=
  ⟨rfl, by decide, rfl, by decide, rfl, ⟨_, fun _ _ => Iff.rfl⟩, ⟨_, fun _ => Iff.rfl⟩, by decide, by decide⟩

/-- A write of two words, one of them a word with a strobe clear; a write from 0008H on, one over words that no area names, and one across the
end of an area, in two areas. -/
theorem test_premises_several_words :
    mid.control.part.takesSetup = true ∧ word8.length % 8 = 0 ∧ (none : Option Byte) ∈ none :: List.replicate 7 (some 0) ∧
    (none :: List.replicate 7 (some (0 : Byte))).length = 8 ∧ handedWord 8 (strobed (List.replicate 24 1)) 0x10 = some (List.replicate 8 1) ∧
    handedWord 8 (strobed (List.replicate 24 1)) 0 = none ∧ handedWord 0 (strobed (List.replicate 32 1)) 0 = some (List.replicate 8 1) ∧
    handedWord 8 (none :: strobed (List.replicate 15 1)) 8 = none ∧ (∀ o ∈ [0, 8, 0x10, 0x18], handedWord 0x20 word8 o = none) ∧
    (∀ r ∈ [(⟨.write, 0x400008, 3, 1, strobed (List.replicate 24 0)⟩ : Request), ⟨.write, 0x400020, 1, 1, word8⟩, ⟨.write, 0x4000F8, 1, 1, word8⟩,
        ⟨.write, 0x4000F8, 2, 1, word8 ++ word8⟩, ⟨.write, 0x4001F8, 2, 1, word8 ++ word8⟩, ⟨.write, 0x400DF8, 2, 1, word8 ++ word8⟩],
      Alone r ∧ Request.within r mid.page 8192 ∧ none ∉ r.bytes ∧ Request.apart r (mid.page + 0x40) 8 ∧ Request.apart r (mid.page + 0x80) 72 ∧
        Request.apart r (mid.page + 0x1300) 3328 ∧ gen0.hostTags.getLsbD r.tag = true) ∧
    loading.control.part.takesSetup = false ∧ 0x100 < 0x4001F8 - 0x400000 + 8 * 2 ∧ 0xF8 + word8.length = 0x100 ∧ word8 ≠ [] := by
  unfold Alone Request.within Request.apart; decide

theorem test_premises_two_areas : pageCommand 1 0x1F8 word8 (.generalSetupWrite ⟨1, 0x1F8, word8⟩) ∧
    pageCommand 1 (0x1F8 + word8.length) word8 (.stationTableWrite ⟨1, 0x200, word8⟩) ∧
    pageCommand 1 0xDF8 word8 (.stationTableWrite ⟨1, 0xDF8, word8⟩) ∧
    pageCommand 1 (0xDF8 + word8.length) word8 (.zoneTableWrite ⟨1, 0xE00, word8⟩) :=
  ⟨.inr (.inl ⟨by decide, by decide, rfl⟩), .inr (.inr (.inl ⟨by decide, by decide, rfl⟩)),
    .inr (.inr (.inl ⟨by decide, by decide, rfl⟩)), .inr (.inr (.inr (.inl ⟨by decide, by decide, rfl⟩)))⟩

/-- What stands no longer, or is not reached: no announcement, no entry at a place, an entry of the other kind, and a deadline to come. -/
theorem test_premises_no_release : 0 ∉ mid.wires.slotFree ∧ mid.wires.unattGuard = 0 ∧ mid.guard.held[0]? = none ∧
    (holding (.write 0)).guard.held[0]? = some ⟨openWrite, .write 0, .held (some 5000)⟩ ∧ HoldKind.write 0 ≠ .read false ∧
    (timed fun t => { t with count := 4999 }).time.count < 5000 := by decide

/-- A cut finds a QUEUED entry, and READING ones with a granted read outstanding and without, behind a DONE one and before a QUEUED one. -/
theorem test_premises_cut_refetches :
    let done : Refetch := { waiting .done with id := 1, slot := 1 }
    let next : Refetch := { waiting .queued with id := 2, slot := 1 }
    let l : List Refetch := [done] ++ { waiting .reading with granted := 0 } :: [next, { waiting .queued with id := 3 }]
    (l.map (·.id)).Nodup ∧ ({ waiting .reading with granted := 0 } : Refetch).granted = (waiting .reading).returned ∧
      (∀ x ∈ [done], x.state = .done) ∧ (∀ x ∈ [next, { waiting .queued with id := 3 }], x.state = .queued) ∧
      [next, { waiting .queued with id := 3 }].filter (fun x => decide (x.slot ≠ 0)) = [next] ∧
      mid.intake.dir[0]? = some ⟨.opened, 1, 1, false, false⟩ ∧ (1 : Nat) ≠ 0 ∧
      (∀ x ∈ (refetching .queued).intake.refetch, x.state = .reading → x.slot ≠ 0) ∧
      (holding (.read false)).guard.held = [⟨openWrite, .read false, .held (some 5000)⟩] := by decide

/-- A staged set within its ranges by the fields in force, and one whose pair breaks them. -/
theorem test_premises_staged_set :
    (24 ≤ tuning0.onRatio ∧ (16 ≤ (some 24).getD tuning0.offRatio ∧ (some 24).getD tuning0.offRatio ≤ tuning0.onRatio)) ∧
    ¬ (some 25).getD tuning0.offRatio ≤ (none : Option Nat).getD tuning0.onRatio ∧ tuning0.shortExp + 3 ≤ tuning0.longExp ∧
    ∃ good : Bool, good = true ↔ tuning0.deadTime ≤ 65535 := ⟨by decide, by decide, by decide, true, by decide⟩

/-- The tail of an event ends while the copier is IDLE; a job of a directory alone at its last write; and a record with its event and plan. -/
theorem test_premises_idle_copier :
    ({ mid with clip := { mid.clip with copier := .idle } } : State).clip.plans[0]? = some (some plan0) ∧
    ({ mid.clip with copier := .idle } : Clip).queue = [] ∧
    (let s : State := { copying .copied (.directory 0 0 []) with guard := { mid.guard with downstream := [⟨.copierWrite none, .write, 0, 8, [], false⟩] } }
     s.guard.downstream = ⟨.copierWrite none, .write, 0, 8, [], false⟩ :: [] ∧ s.clip.copier = .directory 0 0 [] ∧ s.clip.writesOut = 1 ∧
       s.clip.copier.slot = some 0) ∧
    [((0 : Nat), event0, plan0)].map (·.2.1.number) = (recorded 1).report.numbers.take (0 + 1) ∧ State.eventAt mid 0 event0 :=
  ⟨rfl, rfl, ⟨rfl, rfl, rfl, rfl⟩, rfl, rfl, test_premises_one_event_of_a_number⟩

/-! ### Small runs of single commands -/

theorem test_release : (after (.resetRelease 4) State.reset).control.pageBase = some 0x400000 := by decide
theorem test_bad_ack : (after (.ackWord 0) mid).status.pending = Notice.badAck.bit := by decide
theorem test_start : (after (.start 7) (partly .stopped)).control.part = .listening := by decide
theorem test_soft_reset : (after (.softReset 7) mid).engine.all (fun d => d.state == .off) = true := by decide
theorem test_start_keeps_record_writes : (after (.start 7) { partly .stopped with guard := (outstanding .report false).guard }).guard.downstream =
    [⟨.report, .write, 0, 1, [], false⟩] := by decide
theorem test_soft_reset_keeps_offer : (after (.softReset 7) (writing .line none)).status.offer = some .line := by decide
theorem test_release_holds : (after (.releaseHolds 7) mid).intake.dir[0]? = some ⟨.opened, 1, 0, false, true⟩ := by decide
theorem test_two_locked_words_count_once : (after (.zoneTableWrite ⟨1, 0xE00, word8 ++ word8⟩) mid).tally .setupIgnored = 1 := by decide
theorem test_set_time : (after (.setTime 7) (argued 5 .unset 0)).time.target = some 5 := by decide
theorem test_unknown_code_is_refused : exec (.unknownCommand 7 0) mid = .refused .malformedCommand := rfl
theorem test_aligning_pulse : (after .ppsPulse (aligning 4000000 false)).time.count = 5000000 := by decide
theorem test_holdover : (after .holdoverDeadline mid).time.state = .holdover := by decide
theorem test_ref_pulse : (after .refPulse { following 1 with sched := { (following 1).sched with lastRef := none } }).sched.cycleCount = some 2 := by
  decide
theorem test_mark_deadline : (after .markDeadline (following 1)).sched.pointer = some (.on 3) := by decide
theorem test_open_write_cut : (after .downstreamGrant { asked [⟨openWrite, false⟩] with attend := ⟨true, none⟩ }).intake.dir[0]? =
    some ⟨.opened, 2, 0, false, false⟩ := by decide
theorem test_open_write_held : (after .downstreamGrant (asked [⟨openWrite, false⟩])).guard.held =
    [⟨openWrite, .write 0, .held (some 6000)⟩] := by decide
theorem test_refused_write : (after .downstreamGrant (asked [⟨request .write 0x200000 0, false⟩])).status.pending = Notice.refusedRequest.bit := by
  decide
theorem test_seal : (mid.takePiece sealPiece).intake.dir[0]? = some ⟨.sealed, 1, 2, false, false⟩ := by decide
theorem test_pick_joins : (after (.pickArrival 1) { arriving with wires := { mid.wires with toAssoc := [.pick pick1] } }).assoc.events[0]?.join.map (·.picks.length) =
    some 2 := by decide
theorem test_pick_declares : (after (.pickArrival 1) { declaring none with wires := { mid.wires with toAssoc := [.pick pick1] } }).assoc.counter = 3 := by
  decide
theorem test_close : (after (.closeDeadline 1) mid).assoc.events[0]?.join.map (·.state) = some .waitingTail ∨
    (after (.closeDeadline 1) mid).assoc.events[0]?.join.map (·.state) = some .copyQueued := by decide
theorem test_tail : (after (.tailDeadline 1) mid).clip.queue = [1] := by decide
theorem test_slot_check : (after .slotCheck (copying .pinned (.unit 0 0 (.check 8)))).clip.copier = .unit 0 0 (.reading 8 0 0 [] 0) := by decide
theorem test_silence : (after (.silenceDeadline 0) mid).status.pending = Notice.stationSilent.bit := by decide
theorem test_no_word_spells_a_command : decodeTableWord 8 0 = none := rfl

end Sys2Proof.Tests
end

section
/-! SUPPORT. The advance of the sample horizon at the Schedule Unit: what stays of the mute interval list, and what the command leaves
(R82). -/
namespace Sys2Proof.Machine

/-! ### What stays of the mute interval list -/

/-- A horizon smaller than the kept span removes nothing (R82). -/
theorem removeOld_of_lt {horizon span : Nat} (h : horizon < span) (vs : List Interval) : removeOld horizon span vs = vs := if_pos h

/-- With a horizon past the kept span the list is filtered by end time, and an open interval passes (R82). -/
theorem mem_removeOld_of_le {horizon span : Nat} (h : span ≤ horizon) (vs : List Interval) (v : Interval) :
    v ∈ removeOld horizon span vs ↔ v ∈ vs ∧ (v.endT = none ∨ ∃ u, v.endT = some u ∧ horizon - span ≤ u) := by
  unfold removeOld
  rw [if_neg (Nat.not_lt.2 h), List.mem_filter]
  cases hv : v.endT with
  | none => simp
  | some u => simp

/-- An interval stays if it is open, if the horizon is smaller than the kept span, or if it ended late enough (R82). -/
theorem mem_removeOld (horizon span : Nat) (vs : List Interval) (v : Interval) :
    v ∈ removeOld horizon span vs ↔
      v ∈ vs ∧ (v.endT = none ∨ horizon < span ∨ ∃ u, v.endT = some u ∧ horizon - span ≤ u) := by
  rcases Nat.lt_or_ge horizon span with small | large
  · simp [removeOld_of_lt small, small]
  · simp [mem_removeOld_of_le large, Nat.not_lt.2 large]

/-- The intervals that stay keep their order. -/
theorem removeOld_sublist (horizon span : Nat) (vs : List Interval) : (removeOld horizon span vs).Sublist vs := by
  unfold removeOld
  split
  · exact List.Sublist.refl vs
  · exact List.filter_sublist

/-! ### The command -/

/-- The Schedule Unit takes the first announced horizon, with the `intake_latency` in force at that moment (R82). -/
theorem exec_horizonAdvanceSchedule {h : Nat} {rest : List Nat} {s : State} (announced : s.wires.horizonSched = h :: rest) :
    exec .horizonAdvanceSchedule s = .next
      ((s.setWires fun w => { w with horizonSched := rest }).setSched fun c =>
        { c with intervals := removeOld h ((s.gen.intakeLatency + 1000) * 1000) c.intervals }).settle := by
  change execHorizonAdvanceSchedule s = _
  unfold execHorizonAdvanceSchedule
  rw [announced]
  rfl

/-- A change of announcements and of the schedule record, with the end of the event, leaves every other area. -/
theorem settle_setSched_setWires_frame (f : Wires → Wires) (g : Schedule → Schedule) (s : State) :
    Frame [.sched, .writer, .wires] s ((s.setWires f).setSched g).settle :=
  have wires := State.setWires_frame f (Frame.refl [.sched, .writer, .wires] s) (by decide)
  have sched := State.setSched_frame g wires (by decide)
  State.settle_frame sched (by decide)

/-- Settles O35: the command's next state is the one that `exec_horizonAdvanceSchedule` gives, and `mem_removeOld` says what its list
holds. -/
theorem horizonRemovesOldIntervals : Obligations.HorizonRemovesOldIntervals := by
  unfold Obligations.HorizonRemovesOldIntervals
  intro h rest s announced
  refine ⟨_, exec_horizonAdvanceSchedule announced, ?members, ?order, rfl, rfl, settle_setSched_setWires_frame _ _ s⟩
  case members => exact mem_removeOld h _ s.sched.intervals
  case order => exact removeOld_sublist h _ s.sched.intervals

end Sys2Proof.Machine
end

section
/-! SUPPORT. The advance of the sample horizon at the Associator: the greatest window of the zones in use, what stays of the pick list,
and what the command leaves (R88). -/
namespace Sys2Proof.Machine

/-! ### The greatest window of the zones in use -/

/-- A running maximum over the zones in use is bounded when its start and the window of every zone with members are. -/
theorem foldl_window_zonesInUse_le_iff (zs : List Zone) (i m b : Nat) :
    (zonesInUse i zs).foldl (fun m z => max m z.2.window) m ≤ b ↔ m ≤ b ∧ ∀ z ∈ zs, z.count ≠ 0 → z.window ≤ b := by
  induction zs generalizing i m with
  | nil => simp [zonesInUse]
  | cons z zs ih =>
    by_cases empty : z.count = 0
    · simp [zonesInUse, empty, ih]
    · simp [zonesInUse, empty, ih, and_assoc]

/-- The greatest window is the least bound of the windows of the zones in use (R88). -/
theorem State.maxWindow_le_iff {s : State} {u : Setup} (setup : s.control.setup = some u) (b : Nat) :
    s.maxWindow ≤ b ↔ ∀ z ∈ u.zones, z.count ≠ 0 → z.window ≤ b := by
  unfold State.maxWindow State.zones
  rw [setup]
  exact (foldl_window_zonesInUse_le_iff u.zones 0 0 b).trans (and_iff_right b.zero_le)

/-- A bound that some zone in use reaches, or the bound 0, is the greatest window (R88). -/
theorem State.maxWindow_eq {s : State} {u : Setup} {w : Nat} (setup : s.control.setup = some u)
    (bound : ∀ z ∈ u.zones, z.count ≠ 0 → z.window ≤ w)
    (reached : w = 0 ∨ ∃ z ∈ u.zones, z.count ≠ 0 ∧ z.window = w) : s.maxWindow = w := by
  refine Nat.le_antisymm ((State.maxWindow_le_iff setup w).2 bound) ?_
  rcases reached with rfl | ⟨z, listed, inUse, rfl⟩
  · exact Nat.zero_le _
  · exact (State.maxWindow_le_iff setup _).1 le_rfl z listed inUse

/-! ### What stays of the pick list -/

/-- The picks that an advance of the horizon keeps (R88). The truncated difference is 0 when the horizon is smaller than the kept span,
so one filter says both cases of the command (`execHorizonAdvanceAssociator_eq`). -/
def keptPicks (horizon span : Nat) (ps : List PickEntry) : List PickEntry :=
  ps.filter fun e => decide (horizon - span ≤ e.copy.pick.onset)

/-- A pick stays unless its onset lies before the horizon less the kept span (R88). -/
theorem mem_keptPicks (horizon span : Nat) (ps : List PickEntry) (e : PickEntry) :
    e ∈ keptPicks horizon span ps ↔ e ∈ ps ∧ ¬ e.copy.pick.onset + span < horizon := by
  unfold keptPicks
  rw [List.mem_filter, decide_eq_true_iff, Nat.sub_le_iff_le_add, Nat.not_lt]

/-- The picks that stay keep their order. -/
theorem keptPicks_sublist (horizon span : Nat) (ps : List PickEntry) : (keptPicks horizon span ps).Sublist ps :=
  List.filter_sublist

/-- A horizon smaller than the kept span removes no pick (R88). -/
theorem keptPicks_of_lt {horizon span : Nat} (small : horizon < span) (ps : List PickEntry) : keptPicks horizon span ps = ps := by
  refine List.filter_eq_self.2 fun e _ => decide_eq_true ?_
  rw [Nat.sub_eq_zero_of_le small.le]
  exact Nat.zero_le _

/-! ### The command -/

/-- The Associator takes the first announced horizon, with the zones and the `intake_latency` in force at that moment (R88). -/
theorem execHorizonAdvanceAssociator_eq {h : Nat} {rest : List Nat} {s : State} (announced : s.wires.horizonAssoc = h :: rest) :
    execHorizonAdvanceAssociator s = .next
      ((s.setWires fun w => { w with horizonAssoc := rest }).setAssoc fun a =>
        { a with picks := keptPicks h ((s.maxWindow + s.gen.intakeLatency) * 1000) a.picks }).settle := by
  unfold execHorizonAdvanceAssociator
  rw [announced]
  dsimp only
  split
  case isTrue small =>
    simp only [keptPicks_of_lt small]
    rfl
  case isFalse => rfl

/-- A change of announcements and of the Associator's record, with the end of the event, leaves every other area. -/
theorem settle_setAssoc_setWires_frame (f : Wires → Wires) (g : Assoc → Assoc) (s : State) :
    Frame [.assoc, .writer, .wires] s ((s.setWires f).setAssoc g).settle :=
  have wires := State.setWires_frame f (Frame.refl [.assoc, .writer, .wires] s) (by decide)
  have assoc := State.setAssoc_frame g wires (by decide)
  State.settle_frame assoc (by decide)

/-- Settles O46: the command's next state is the one that `execHorizonAdvanceAssociator_eq` gives, with the window of the statement for
the greatest window, and `mem_keptPicks` says what its list holds. -/
theorem horizonRemovesOldPicks : Obligations.HorizonRemovesOldPicks := by
  unfold Obligations.HorizonRemovesOldPicks
  intro h w rest u s announced setup bound reached
  have next := execHorizonAdvanceAssociator_eq announced
  rw [State.maxWindow_eq setup bound reached, State.gen_of_setup setup] at next
  refine ⟨_, next, rfl, ?members, ?order, ?unchanged, rfl, settle_setAssoc_setWires_frame _ _ s⟩
  case members => exact mem_keptPicks h _ s.assoc.picks
  case order => exact keptPicks_sublist h _ s.assoc.picks
  case unchanged =>
    intro small
    exact congrArg (fun ps => { s.assoc with picks := ps }) (keptPicks_of_lt small s.assoc.picks)

end Sys2Proof.Machine
end

section
/-! SUPPORT. What a step does to the laws of the part: every command but a full reset keeps each of them, a full reset makes each of
them true, and so does the state at power-on. -/
namespace Sys2Proof.Machine

/-! ### Reset -/

/-- Settles O3: each list of the reset state is empty or a repetition, and no setup is in force. -/
theorem lawsHoldAtReset : Obligations.LawsHoldAtReset := by
  unfold Obligations.LawsHoldAtReset
  refine ⟨rfl, talliesOk_zero, ⟨Nat.zero_le _, Nat.zero_le _⟩, ⟨Nat.zero_le _, by decide⟩, rfl,
    ⟨rfl, Nat.le_refl 0, rfl, fun busy => absurd busy (by decide)⟩, Nat.zero_le _, intervalsOk_nil,
    ⟨rfl, Nat.zero_le _, rfl, ?trails⟩, ⟨Nat.zero_le _, rfl⟩⟩
  case trails =>
    intro si listed
    rw [List.eq_of_mem_replicate listed]
    exact Nat.zero_le _

/-! ### One command -/

/-- Every command but a full reset keeps every law, and leaves the queue of commands. -/
theorem exec_keeps {c : Instr} {s t : State} (running : ∀ k, c ≠ .fullReset k) (e : exec c s = .next t) : Keeps s t := by
  cases c with
  | fullReset k => exact absurd rfl (running k)
  | resetRelease b => exact execResetRelease_keeps e
  | ppsPulse => exact execPpsPulse_keeps e
  | fieldTimeSecond => exact execFieldTimeSecond_keeps e
  | holdoverDeadline => exact execHoldoverDeadline_keeps e
  | refPulse => exact (execRefPulse_onSched e).toKeeps
  | upstreamRequest r => exact execUpstreamRequest_keeps e
  | downstreamGrant => exact execDownstreamGrant_keeps e
  | upstreamCompletion tag code data => exact execUpstreamCompletion_keeps e
  | refetchReadCompletion code data => exact execRefetchReadCompletion_keeps e
  | copierReadCompletion code data => exact (execCopierReadCompletion_onReport e).toKeeps
  | copierWriteCompletion code => exact (execCopierWriteCompletion_onReport e).toKeeps
  | loaderReadCompletion code data => exact execLoaderReadCompletion_keeps e
  | reportWriteCompletion code => exact (execReportWriteCompletion_onReport e).toKeeps
  | statusWriteCompletion code => exact (execStatusWriteCompletion_onReport e).toKeeps
  | load tag => exact done_keeps (State.takeLoad_keeps tag s) e
  | start tag => exact done_keeps (State.takeStart_keeps tag s) e
  | stop tag => exact done_keeps (State.takeStop_keeps tag s) e
  | softReset tag => exact done_keeps (State.takeSoftReset_keeps tag s) e
  | setTime tag => exact done_keeps (State.takeSetTime_keeps tag s) e
  | dumpTally tag => exact done_keeps (State.takeDumpTally_keeps tag s) e
  | releaseHolds tag => exact done_keeps (State.takeReleaseHolds_keeps tag s) e
  | unknownCommand code tag => exact (execUnknownCommand_told e).toKeeps
  | commandArgumentWrite arg => exact done_keeps (State.storeArgument_keeps arg s) e
  | ackWord index => exact (execAckWord_onReport e).toKeeps
  | clearWord kinds => exact done_keeps (State.clearKinds_told kinds s).toKeeps e
  | generalSetupWrite w => exact done_keeps (State.setupWrite_keeps _ _ w s) e
  | stationTableWrite w => exact done_keeps (State.setupWrite_keeps _ _ w s) e
  | zoneTableWrite w => exact done_keeps (State.setupWrite_keeps _ _ w s) e
  | scheduleBankWrite w => exact done_keeps (State.setupWrite_keeps _ _ w s) e
  | heartbeatRead => exact execHeartbeatRead_keeps e
  | serviceDeadline => exact execServiceDeadline_keeps e
  | unattendedAtPathGuard => exact execUnattendedAtPathGuard_keeps e
  | unattendedAtReportUnit => exact (execUnattendedAtReportUnit_onReport e).toKeeps
  | assemblyTimeout buffer => exact (execAssemblyTimeout_onIntake e).toKeeps
  | blockHandoff station => exact execBlockHandoff_keeps e
  | silenceDeadline station => exact (execSilenceDeadline_onIntake e).toKeeps
  | scheduleConditionChange => exact execScheduleConditionChange_keeps e
  | internalCycleTimer => exact (execInternalCycleTimer_onSched e).toKeeps
  | markDeadline => exact (execMarkDeadline_onSched e).toKeeps
  | watchDeadline => exact (execWatchDeadline_onSched e).toKeeps
  | horizonAdvanceSchedule => exact execHorizonAdvanceSchedule_keeps e
  | horizonAdvanceAssociator => exact (execHorizonAdvanceAssociator_onEvents e).toKeeps
  | pickArrival station => exact (execPickArrival_onEvents e).toKeeps
  | pickClosure station => exact (execPickClosure_onEvents e).toKeeps
  | closeDeadline event => exact (execCloseDeadline_onReport e).toKeeps
  | pinRequest slot => exact (execPinRequest_onIntake e).toKeeps
  | pinRefused slot => exact (execPinRefused_onReport e).toKeeps
  | unpin slot => exact (execUnpin_onIntake e).toKeeps
  | cut slot => exact (execCut_onIntake e).toKeeps
  | slotCutAnnouncement slot => exact (execSlotCutAnnouncement_onReport e).toKeeps
  | slotFree slot => exact (execSlotFree_onReport e).toKeeps
  | holdLimitExpiry place => exact (execHoldLimitExpiry_onReport e).toKeeps
  | readHoldExpiry place => exact (execReadHoldExpiry_onReport e).toKeeps
  | newTrailEntry station => exact (execNewTrailEntry_onReport e).toKeeps
  | tailDeadline event => exact (execTailDeadline_onReport e).toKeeps
  | clipUnitStop => exact (execClipUnitStop_onReport e).toKeeps
  | eventStateRequest event => exact (execEventStateRequest_onEvents e).toKeeps
  | drainEnd => exact execDrainEnd_keeps e
  | slotCheck => exact (execSlotCheck_onReport e).toKeeps
  | reclaimRequest => exact (execReclaimRequest_onReport e).toKeeps

/-! ### One step -/

/-- A step that does not begin with a full reset at the front of the queue keeps every law. The queue's rest stands for the queue, which no
law but the last field of `Keeps` reads. -/
theorem step_keeps {s t : State} (running : ∀ k, s.pending.head? ≠ some (.fullReset k)) (e : step s = .next t) :
    ∃ rest, Keeps { s with pending := rest } t := by
  unfold step at e
  split at e
  next c rest queued =>
    rw [queued] at running
    exact ⟨rest, exec_keeps (fun k h => running k (congrArg some h)) e⟩
  next empty =>
    injection e with e
    exact ⟨s.pending, e ▸ tick_keeps s⟩

/-- The state that a full reset leaves (R164), as the reset state with the cause, the count of STOPs and the queue's rest. -/
theorem step_fullReset {s t : State} {k : ResetKind} (front : s.pending.head? = some (.fullReset k)) (e : step s = .next t) :
    t = { State.reset with control := { Control.reset with cause := resetCause k }, draws := s.draws, pending := s.pending.tail } := by
  unfold step at e
  split at e
  next c rest queued =>
    rw [queued] at front ⊢
    cases front
    injection e with e
    exact e.symm
  next empty =>
    rw [empty] at front
    cases front

/-- A law is kept by every step when it does not read the queue, follows from `Keeps`, and holds of the state that a full reset leaves. -/
theorem step_keeps_law {Law : State → Prop} (unqueued : ∀ s rest, Law s → Law { s with pending := rest })
    (kept : ∀ s t, Keeps s t → Law s → Law t)
    (reset : ∀ k draws rest, Law { State.reset with control := { Control.reset with cause := k }, draws := draws, pending := rest })
    {s t : State} (h : Law s) (e : step s = .next t) : Law t := by
  by_cases front : ∃ k, s.pending.head? = some (.fullReset k)
  · obtain ⟨k, front⟩ := front
    rw [step_fullReset front e]
    exact reset _ _ _
  · obtain ⟨rest, keeps⟩ := step_keeps (fun k f => front ⟨k, f⟩) e
    exact kept _ _ keeps (unqueued s rest h)

/-- Settles O4, by `step_keeps_law`. -/
theorem irqLawKept : Obligations.IrqLawKept := fun _ _ h e =>
  step_keeps_law (Law := IrqOk) (fun _ _ h => h) (fun _ _ k => k.irq) (fun _ _ _ => lawsHoldAtReset.1) h e

/-- Settles O5, one law after the other by `step_keeps_law`. -/
theorem talliesAndSizesKept : Obligations.TalliesAndSizesKept := by
  obtain ⟨_, tallies, queues, _, _, _, _, _, intake, assoc⟩ := lawsHoldAtReset
  refine ⟨fun s t h e => ?tallies, fun s t e => ⟨fun h => ?queues, fun h => ?intake, fun h => ?assoc⟩⟩
  case tallies => exact step_keeps_law (Law := fun s => TalliesOk s.tallies) (fun _ _ h => h) (fun _ _ k => k.tallies) (fun _ _ _ => tallies) h e
  case queues => exact step_keeps_law (Law := fun s => QueuesOk s.guard) (fun _ _ h => h) (fun _ _ k => k.queues) (fun _ _ _ => queues) h e
  case intake => exact step_keeps_law (Law := fun s => IntakeOk s.intake) (fun _ _ h => h) (fun _ _ k => k.intakeOk) (fun _ _ _ => intake) h e
  case assoc => exact step_keeps_law (Law := fun s => AssocOk s.assoc) (fun _ _ h => h) (fun _ _ k => k.assocOk) (fun _ _ _ => assoc) h e

/-- Settles O6: the count by `step_keeps_law`, its growth by `step_keeps`, which is where a full reset is left out. -/
theorem timeLawsKept : Obligations.TimeLawsKept := by
  obtain ⟨_, _, _, count, rates, _⟩ := lawsHoldAtReset
  refine ⟨fun s t h e => ⟨?count, fun running => ?grows⟩, fun s t h e => ?rates⟩
  case count => exact step_keeps_law (Law := fun s => CountOk s.time) (fun _ _ h => h) (fun _ _ k c => (k.count c).1) (fun _ _ _ => count) h e
  case grows =>
    obtain ⟨rest, keeps⟩ := step_keeps running e
    exact (keeps.count h).2
  case rates => exact step_keeps_law (Law := RatesOk) (fun _ _ h => h) (fun _ _ k => k.rates) (fun _ _ _ => rates) h e

/-- Settles O7, by `step_keeps_law`. -/
theorem ringAndStoreLawsKept : Obligations.RingAndStoreLawsKept := by
  obtain ⟨_, _, _, _, _, ring, store, _⟩ := lawsHoldAtReset
  refine ⟨fun s t h e => ?ring, fun s t h e => ?store⟩
  case ring => exact step_keeps_law (Law := RingOk) (fun _ _ h => h) (fun _ _ k => k.ring) (fun _ _ _ => ring) h e
  case store => exact step_keeps_law (Law := StoreOk) (fun _ _ h => h) (fun _ _ k => k.store) (fun _ _ _ => store) h e

/-- Settles O8, by `step_keeps_law`. -/
theorem muteIntervalLawKept : Obligations.MuteIntervalLawKept := fun _ _ h e =>
  step_keeps_law (Law := fun s => IntervalsOk s.sched.intervals) (fun _ _ h => h) (fun _ _ k => k.intervals)
    (fun _ _ _ => intervalsOk_nil) h e

/-! ### The queue and the clock -/

/-- Settles O1: the branch of `step` for a queue that is not empty. -/
theorem stepTakesFront : Obligations.StepTakesFront := by
  unfold Obligations.StepTakesFront
  intro c rest s queued
  unfold step
  rw [queued]

/-- One period of CLK changes field time alone (R26). -/
theorem tick_changes_time (s : State) : Frame [.time] s (tick s) := by
  unfold tick
  split
  · exact State.setTime_frame _ (Frame.refl _ s) (by decide)
  · exact Frame.refl _ s

/-- The queue of commands stands through a full reset (log 39), and every other command leaves it by `exec_keeps`. -/
theorem exec_pending {c : Instr} {s t : State} (e : exec c s = .next t) : t.pending = s.pending := by
  by_cases reset : ∃ k, c = .fullReset k
  · obtain ⟨k, rfl⟩ := reset
    injection e with e
    exact e ▸ rfl
  · exact (exec_keeps (fun k h => reset ⟨k, h⟩) e).pending

/-- Settles O2: `step` answers `tick` on an empty queue, and `exec_pending` is the rest. -/
theorem queueWaitsAndClockRuns : Obligations.QueueWaitsAndClockRuns := by
  unfold Obligations.QueueWaitsAndClockRuns
  refine ⟨fun s empty => ⟨tick s, ?step, tick_changes_time s, fun held => ?held, fun running => ?running⟩,
    fun c s t e => exec_pending e⟩
  case step =>
    unfold step
    rw [empty]
  case held =>
    unfold tick
    rw [if_neg (held ▸ Bool.false_ne_true)]
  case running =>
    unfold tick
    rw [if_pos running]
    rfl

end Sys2Proof.Machine
end

section
/-! SUPPORT. The commands of the host: what is decided before a command acts (R153), the result it leaves, and what each command does. -/
namespace Sys2Proof.Machine

/-! ### Results -/

/-- The end of the event hands over a waiting result or leaves an offered one, so a result that stands still stands (R154, R170). -/
theorem State.hasResult_settle {r : Result} {s : State} (stands : s.hasResult r) : s.settle.hasResult r := by
  rcases stands with waiting | offered
  · exact s.settle_hasResult r waiting
  · refine .inr ?_
    unfold State.settle Status.choose
    rw [offered]
    exact offered

/-- A command that answers a result and does nothing else. -/
theorem done_putResult (r : Result) (s : State) :
    ∃ t, done (s.putResult r) = .next t ∧ t.hasResult r ∧ Frame [.writer] s t :=
  ⟨_, rfl, State.hasResult_settle (.inl rfl),
    State.settle_frame (State.putResult_frame r (Frame.refl _ s) (by decide)) (by decide)⟩

/-- A command that changes nothing before the end of its event. -/
theorem done_self_frame (s : State) : Frame [.writer] s s.settle := State.settle_frame (Frame.refl _ s) (by decide)

/-! ### Deciding a command (R153) -/

theorem State.busy_of_inProgress {s : State} {c : LongCmd} {g : Byte} (running : s.control.inProgress = some (c, g)) :
    s.busy false = true := by
  unfold State.busy
  rw [running]
  cases c <;> rfl

theorem State.busy_of_not_stop {s : State} {c : LongCmd} {g : Byte} (running : s.control.inProgress = some (c, g)) (h : c ≠ .stop)
    (through : Bool) : s.busy through = true := by
  unfold State.busy
  rw [running]
  cases c with
  | load => rfl
  | stop => exact absurd rfl h
  | dumpTally => rfl

theorem State.not_busy {s : State} (idle : s.control.inProgress = none) (through : Bool) : s.busy through = false := by
  unfold State.busy
  rw [idle]

/-- SOFT_RESET and RELEASE_HOLDS pass a STOP in progress (R153). -/
theorem State.not_busy_through_stop {s : State}
    (free : s.control.inProgress = none ∨ ∃ g, s.control.inProgress = some (.stop, g)) : s.busy true = false := by
  rcases free with idle | ⟨g, stopping⟩
  · exact State.not_busy idle true
  · unfold State.busy
    rw [stopping]
    rfl

section
variable {code tag : Byte} {through accepted : Bool} {act : State → State} {s : State}

theorem State.command_accepted (free : s.busy through = false) (ok : accepted = true) : s.command code tag through accepted act = act s := by
  unfold State.command
  rw [free, ok]
  rfl

theorem command_refusedBusy (busy : s.busy through = true) :
    ∃ t, done (s.command code tag through accepted act) = .next t ∧ t.hasResult ⟨code, tag, .refusedBusy⟩ ∧ Frame [.writer] s t := by
  unfold State.command
  rw [if_pos busy]
  exact done_putResult _ s

theorem command_refusedState (free : s.busy through = false) (wrong : accepted = false) :
    ∃ t, done (s.command code tag through accepted act) = .next t ∧ t.hasResult ⟨code, tag, .refusedState⟩ ∧ Frame [.writer] s t := by
  unfold State.command
  rw [if_neg (free ▸ Bool.false_ne_true), if_pos wrong]
  exact done_putResult _ s

end

/-! ### Event slots and the part state -/

theorem mem_heldEvents_iff {e : Event} {l : List (Option Event)} (i : Nat) : (∃ n, (n, e) ∈ heldEvents i l) ↔ some e ∈ l := by
  constructor
  · rintro ⟨n, held⟩
    obtain ⟨j, -, at_⟩ := heldEvents_iff.1 held
    exact List.mem_of_getElem? at_
  · intro listed
    obtain ⟨j, at_⟩ := List.mem_iff_getElem?.1 listed
    exact ⟨i + j, heldEvents_iff.2 ⟨j, rfl, at_⟩⟩

/-- No slot is in use when every slot of the event table is FREE (R94). -/
theorem State.eventsInUse_eq_zero_iff {s : State} : s.eventsInUse = 0 ↔ ∀ e ∈ s.assoc.events, e = none := by
  unfold State.eventsInUse
  rw [heldEvents_length, List.length_eq_zero_iff, List.filter_eq_nil_iff]
  refine forall₂_congr fun e _ => ?_
  cases e <;> simp

/-- No event is left before COPIED (R160). -/
theorem State.drainCount_eq_zero_iff {s : State} :
    s.drainCount = 0 ↔ ∀ e, some e ∈ s.assoc.events → e.state = .copied ∨ e.state = .reported := by
  unfold State.drainCount
  rw [List.length_eq_zero_iff, List.filter_eq_nil_iff]
  have drains : ∀ e : Event, ¬ e.state.drains = true ↔ e.state = .copied ∨ e.state = .reported := by
    intro e
    cases h : e.state <;> simp [EventState.drains]
  constructor
  · intro none_ e listed
    obtain ⟨n, held⟩ := (mem_heldEvents_iff 0).2 listed
    exact (drains e).1 (none_ _ held)
  · intro all p held
    exact (drains p.2).2 (all _ ((mem_heldEvents_iff 0).1 ⟨p.1, held⟩))

/-- A change of the part state changes that field of the control record, and nothing when it stands already (R152). -/
@[simp] theorem State.setPart_control (p : PartState) (s : State) : (s.setPart p).control = { s.control with part := p } := by
  unfold State.setPart
  split
  next same => rw [same]
  next => rfl

/-- A part state that changes asks for a rewrite of the status line (R169). -/
theorem State.setPart_rewrite {p : PartState} {s : State} (h : p ≠ s.control.part) : (s.setPart p).status.rewrite = true := by
  unfold State.setPart
  rw [if_neg h]
  rfl

/-- The status record of a part whose state is set, but for the rewrite flag. -/
theorem State.setPart_status (p : PartState) (s : State) :
    (s.setPart p).status = { s.status with rewrite := s.status.rewrite || decide (p ≠ s.control.part) } := by
  unfold State.setPart
  split
  next same => simp [same]
  next other => simp [other]

@[simp] theorem State.settle_rewrite (s : State) : s.settle.status.rewrite = s.status.rewrite := by simp

/-! ### Refusals and the argument -/

/-- Settles O17, one command and one reason after the other by `command_refusedBusy` and `command_refusedState`. -/
theorem commandsAreRefused : Obligations.CommandsAreRefused := by
  unfold Obligations.CommandsAreRefused
  intro tag s
  refine ⟨?inProgress, ?notStop, fun idle => ?wrongState⟩
  case inProgress =>
    rintro ⟨c, g, running⟩
    have busy := State.busy_of_inProgress running
    exact ⟨command_refusedBusy busy, command_refusedBusy busy, command_refusedBusy busy, command_refusedBusy busy,
      command_refusedBusy busy⟩
  case notStop =>
    rintro ⟨c, g, running, h⟩
    have busy := State.busy_of_not_stop running h true
    exact ⟨command_refusedBusy busy, command_refusedBusy busy⟩
  case wrongState =>
    have free := State.not_busy idle
    refine ⟨fun h => command_refusedState (free _) ?load, fun h => command_refusedState (free _) ?start,
      fun h => command_refusedState (free _) ?stop, fun h => command_refusedState (free _) ?softReset,
      fun h h' => command_refusedState (free _) ?dump, fun h h' => command_refusedState (free _) ?release⟩
    case load =>
      unfold State.acceptsLoad
      rcases h with h | h | h | ⟨h, e, listed, used⟩
      · rw [h]
      · rw [h]
      · rw [h]
      · rw [h]
        exact beq_eq_false_iff_ne.2 fun none_ => used (State.eventsInUse_eq_zero_iff.1 none_ e listed)
    case start => exact beq_eq_false_iff_ne.2 h
    case stop => exact beq_eq_false_iff_ne.2 h
    case softReset =>
      unfold PartState.acceptsSoftReset
      rcases h with h | h <;> rw [h]
    case dump =>
      unfold PartState.acceptsDump
      cases part : s.control.part <;> simp_all
    case release =>
      unfold PartState.serviced
      cases part : s.control.part <;> simp_all

/-- Settles O15: a code that is not listed is refused in the order of R153. -/
theorem argumentAndUnknownCode : Obligations.ArgumentAndUnknownCode := by
  unfold Obligations.ArgumentAndUnknownCode
  refine ⟨fun arg s => ⟨_, rfl, rfl, ?frame⟩, fun code tag s unlisted => ?unknown⟩
  case frame => exact State.settle_frame (State.storeArgument_frame arg (Frame.refl _ s) (by decide)) (by decide)
  case unknown =>
    have unlisted : knownCode code = false := by
      unfold knownCode
      rw [Bool.and_eq_false_iff, decide_eq_false_iff_not, decide_eq_false_iff_not]
      omega
    have answer : exec (.unknownCommand code tag) s =
        done (s.putResult ⟨code, tag, if s.control.inProgress.isSome then .refusedBusy else .badArg⟩) := by
      change execUnknownCommand code tag s = _
      unfold execUnknownCommand State.takeUnknown
      rw [unlisted]
      cases running : s.control.inProgress with
      | none =>
        rw [State.not_busy running]
        rfl
      | some p =>
        rw [State.busy_of_inProgress (c := p.1) (g := p.2) running]
        rfl
    rw [answer]
    exact done_putResult _ s

/-! ### Full reset and its release -/

/-- Settles O9: the fields of the reset state, and those that the release writes. -/
theorem fullResetAndRelease : Obligations.FullResetAndRelease := by
  unfold Obligations.FullResetAndRelease
  refine ⟨fun kind s => ⟨_, rfl, ?cause, rfl, rfl, rfl, rfl, rfl, rfl, rfl, rfl, rfl, rfl, rfl, rfl, rfl, rfl⟩,
    fun b s held => ⟨(s.release b).settle, ?release, rfl, State.settle_rewrite _, State.hasResult_settle (.inl rfl), ?frame⟩⟩
  case cause => cases kind <;> rfl
  case release =>
    change execResetRelease b s = _
    unfold execResetRelease
    rw [held]
    rfl
  case frame => exact State.settle_frame (State.release_frame b (Frame.refl _ s) (by decide)) (by decide)

/-! ### LOAD, SET_TIME and the clear word -/

/-- Settles O10: what `State.acceptLoad` does, with a part state that changes. -/
theorem loadEntersLoading : Obligations.LoadEntersLoading := by
  unfold Obligations.LoadEntersLoading
  intro tag s idle accepted
  have takes : s.acceptsLoad = true ∧ PartState.loading ≠ s.control.part := by
    unfold State.acceptsLoad
    rcases accepted with dormant | ⟨stopped, free⟩
    · rw [dormant]
      exact ⟨rfl, nofun⟩
    · rw [stopped]
      exact ⟨beq_iff_eq.2 (State.eventsInUse_eq_zero_iff.2 free), by decide⟩
  obtain ⟨takes, changes⟩ := takes
  have act : s.takeLoad tag = s.acceptLoad tag := State.command_accepted (State.not_busy idle _) takes
  refine ⟨(s.acceptLoad tag).settle, congrArg done act, ?control, ?wires, ?rewrite, ?frame⟩
  case control => simp [State.acceptLoad]
  case wires => simp [State.acceptLoad]
  case rewrite =>
    rw [State.settle_rewrite]
    exact State.setPart_rewrite changes
  case frame => exact State.settle_frame (State.acceptLoad_frame tag (Frame.refl _ s) (by decide)) (by decide)

/-- When the Time Base takes a SET_TIME argument (R29). -/
theorem State.secondOk_iff (sec : Nat) (s : State) :
    s.secondOk sec = true ↔
      sec ≤ 281474976 ∧ (s.time.state = .locked ∨ s.time.state = .holdover → s.time.count / 1000000 ≤ sec) := by
  unfold State.secondOk second
  cases state : s.time.state <;> simp

/-- The time state set, with the rest of the time record as it stood. -/
@[simp] theorem State.setTimeState_time (x : TimeState) (s : State) : (s.setTimeState x).time = { s.time with state := x } := by
  unfold State.setTimeState
  split
  next same => rw [same]
  next => rfl

/-- Settles O13, by `State.secondOk_iff`. -/
theorem setTimeAligns : Obligations.SetTimeAligns := by
  unfold Obligations.SetTimeAligns
  intro tag s idle
  have act : exec (.setTime tag) s = done (s.decideSetTime tag) :=
    congrArg done (State.command_accepted (State.not_busy idle _) rfl)
  rw [act]
  unfold State.decideSetTime
  refine ⟨fun ok => ?accepted, fun bad => ?refused⟩
  case accepted =>
    rw [if_pos ((State.secondOk_iff _ s).2 ok)]
    refine ⟨_, rfl, ?time, State.hasResult_settle (.inl rfl), ?frame⟩
    case time => simp [State.acceptSecond, State.resultDone]
    case frame =>
      exact State.settle_frame (State.resultDone_frame _ _ (State.acceptSecond_frame _ (Frame.refl _ s) (by decide)) (by decide))
        (by decide)
  case refused =>
    have notOk : ¬ s.secondOk s.control.argument.toNat = true := by
      rw [State.secondOk_iff]
      rintro ⟨small, later⟩
      rcases bad with large | ⟨state, before⟩
      · exact absurd small (Nat.not_le.2 large)
      · exact absurd (later state) (Nat.not_le.2 before)
    rw [if_neg notOk]
    exact done_putResult _ s

/-- Settles O16: the clear word as a change of the pending set, which asks for nothing when it names no pending kind. -/
theorem clearWordRemovesKinds : Obligations.ClearWordRemovesKinds := by
  unfold Obligations.ClearWordRemovesKinds
  refine ⟨fun kinds s irq => ⟨_, rfl, ?pending, ?irq, ?frame, fun unnamed => ?unnamed⟩, fun n s => s.raise_status_pending n⟩
  case pending => simp
  case irq =>
    have kept : IrqOk (s.clearKinds kinds).settle := ((s.clearKinds_told kinds).trans (State.settle_told _)).irq irq
    have mask : (s.clearKinds kinds).settle.mask = s.mask := by simp [State.mask]
    unfold IrqOk irqLevel at kept
    rw [mask] at kept
    simpa using kept
  case frame => exact State.settle_frame (State.clearKinds_frame kinds (Frame.refl _ s) (by decide)) (by decide)
  case unnamed =>
    have same : s.status.pending &&& ~~~kinds = s.status.pending := by
      calc s.status.pending &&& ~~~kinds
          = (s.status.pending &&& ~~~kinds) ||| (s.status.pending &&& kinds) := by simp [unnamed]
        _ = s.status.pending := by
          ext i
          simp only [BitVec.getElem_or, BitVec.getElem_and, BitVec.getElem_not]
          cases s.status.pending[i] <;> cases kinds[i] <;> rfl
    have stays : s.clearKinds kinds = s := by
      unfold State.clearKinds State.setPending
      rw [if_pos same]
    rw [stays]
    exact ⟨done_self_frame s, s.settle_rewrite⟩

/-! ### The end of a drain -/

/-- Settles O19, by `State.drainCount_eq_zero_iff`. -/
theorem drainEnds : Obligations.DrainEnds := by
  unfold Obligations.DrainEnds
  intro tag s draining stopping past
  have ends : exec .drainEnd s = done s.endDrain := if_pos ⟨draining, State.drainCount_eq_zero_iff.2 past⟩
  have tag_ : s.control.inProgressTag = tag := by
    unfold Control.inProgressTag
    rw [stopping]
  refine ⟨s.endDrain.settle, ends, ?control, State.hasResult_settle (.inl ?result), ?attend, ?rewrite, ?frame⟩
  case control => simp [State.endDrain, State.endCommand]
  case attend => simp [State.endDrain, State.endCommand]
  case result => simp [State.endDrain, tag_]
  case rewrite => simp [State.endDrain, State.endCommand, State.setPart_status, draining]
  case frame => exact State.settle_frame (State.endDrain_frame (Frame.refl _ s) (by decide)) (by decide)

end Sys2Proof.Machine
end

section
/-! SUPPORT. What START, SOFT_RESET and a LOAD that succeeds make anew: the intake, the pick list and the holds; and the two commands
START and SOFT_RESET (R159, R161). -/
namespace Sys2Proof.Machine

/-! ### Work made anew -/

@[simp] theorem State.intakeAnew_intake (slots : Nat) (s : State) : (s.intakeAnew slots).intake = { s.intake with
    dir := List.replicate slots .fresh, bufs := List.replicate 8 .free, refetch := []
    stations := List.replicate Config.nStations .fresh, horizon := 0 } := rfl

/-- The announcements to and from the Intake Unit go with the work that is discarded (log 7). -/
@[simp] theorem State.intakeAnew_wires (slots : Nat) (s : State) : (s.intakeAnew slots).wires = { s.wires with
    pins := [], refusedPins := [], cutRequests := [], cutNotes := [], slotFree := [], trailNotes := [], horizonSched := []
    horizonAssoc := [] } := rfl

@[simp] theorem State.intakeAnew_guard (slots : Nat) (s : State) :
    (s.intakeAnew slots).guard = (s.dropOutstanding (· == .refetch)).guard := rfl

@[simp] theorem State.assocAnew_assoc (s : State) : s.assocAnew.assoc = { s.assoc with picks := [], nextPick := 0 } := rfl

@[simp] theorem State.assocAnew_wires (s : State) : s.assocAnew.wires = { s.wires with toAssoc := [] } := rfl

/-- No unit range stands, and nothing but the held list and the release numbers differs otherwise (R137). -/
@[simp] theorem State.guardAnew_guard (s : State) : s.guardAnew.guard = { s.guard with
    range := none, held := (releaseList (fun _ => true) s.guard.releases s.guard.held).2
    releases := (releaseList (fun _ => true) s.guard.releases s.guard.held).1 } := rfl

/-- Every HELD entry is released (R131, R132). -/
theorem State.guardAnew_releases (s : State) : HeldReleased (fun _ => True) s.guard s.guardAnew.guard :=
  (State.releaseHeld_releases (fun _ => true) (s.setGuard fun g => { g with range := none })).congr (fun _ => by simp) rfl rfl rfl rfl

/-- When every entry is named, none stays HELD. -/
theorem HeldReleased.none_held {g t : PathGuard} (h : HeldReleased (fun _ => True) g t) :
    ∀ x ∈ t.held, ∃ n, x.state = .released n := by
  intro x listed
  obtain ⟨i, at_⟩ := List.mem_iff_getElem?.1 listed
  obtain ⟨y, before⟩ : ∃ y, g.held[i]? = some y := by
    obtain ⟨small, -⟩ := List.getElem?_eq_some_iff.1 at_
    exact ⟨_, List.getElem?_eq_getElem (h.length ▸ small)⟩
  cases state : y.state with
  | held d =>
    obtain ⟨n, -, -, after⟩ := h.released i y d before trivial state
    cases Option.some.inj (at_.symm.trans after)
    exact ⟨n, rfl⟩
  | released n =>
    have after := h.stands i y before (.inr ⟨n, state⟩)
    cases Option.some.inj (at_.symm.trans after)
    exact ⟨n, state⟩

/-- The completions on their way of the owners that are named are dropped (R136). -/
theorem State.dropOutstanding_guard (p : Owner → Bool) (s : State) : (s.dropOutstanding p).guard = { s.guard with
    downstream := s.guard.downstream.map fun o => if p o.owner then { o with dropped := true } else o } := rfl

/-! ### The Schedule Unit -/

@[simp] theorem State.scheduleSoftReset_wires (s : State) : s.scheduleSoftReset.wires = { s.wires with sched := [] } := by
  simp [State.scheduleSoftReset, State.dropSchedNotes, State.clearCycle]

@[simp] theorem State.scheduleStart_wires (s : State) : s.scheduleStart.wires = { s.wires with sched := [] } :=
  have moved : Frame [.sched, .writer] s.scheduleSoftReset s.scheduleStart := State.applyConditions_frame _ _ (Frame.refl _ _) (by decide)
  Eq.trans (moved .wires (by decide)) s.scheduleSoftReset_wires

/-- What START leaves at the Schedule Unit, its record and its announcements apart. -/
theorem State.scheduleStart_leaves (s : State) :
    s.scheduleStart.control = s.control ∧ s.scheduleStart.intake = s.intake ∧ s.scheduleStart.engine = s.engine ∧
      s.scheduleStart.assoc = s.assoc ∧ s.scheduleStart.guard = s.guard ∧ s.scheduleStart.attend = s.attend :=
  have moved : Frame [.sched, .writer, .wires] s s.scheduleStart := State.scheduleStart_frame (Frame.refl _ s) (by decide)
  ⟨moved .control (by decide), moved .intake (by decide), moved .engine (by decide), moved .assoc (by decide),
    moved .guard (by decide), moved .attend (by decide)⟩

/-! ### START (R159) -/

/-- The state of an accepted START before the detectors and the schedule are started. -/
def State.madeAnew (s : State) : State := (((s.intakeAnew s.gen.ringSlots).assocAnew).guardAnew).setPart .listening

/-- Each area of the state made anew, by the operation that sets it. -/
theorem State.madeAnew_areas (s : State) :
    s.madeAnew.time = s.time ∧ s.madeAnew.control = { s.control with part := .listening } ∧
      s.madeAnew.intake = (s.intakeAnew s.gen.ringSlots).intake ∧ s.madeAnew.engine = s.engine ∧ s.madeAnew.assoc = s.assocAnew.assoc ∧
      s.madeAnew.guard = (s.intakeAnew s.gen.ringSlots).guardAnew.guard ∧ s.madeAnew.attend = s.attend ∧
      s.madeAnew.wires = (s.intakeAnew s.gen.ringSlots).assocAnew.wires :=
  ⟨State.setPart_time _ _, State.setPart_control _ _, State.setPart_intake _ _, State.setPart_engine _ _, State.setPart_assoc _ _,
    State.setPart_guard _ _, State.setPart_attend _ _, State.setPart_wires _ _⟩

theorem State.madeAnew_gen (s : State) : s.madeAnew.gen = s.gen := by
  obtain ⟨-, control, -⟩ := s.madeAnew_areas
  unfold State.gen
  rw [control]

theorem State.madeAnew_station (s : State) (st : Nat) : s.madeAnew.station st = s.station st := by
  obtain ⟨-, control, -⟩ := s.madeAnew_areas
  unfold State.station
  rw [control]

/-- START at the detectors leaves every other area (R64). -/
theorem State.engineStart_leaves (s : State) :
    s.engineStart.control = s.control ∧ s.engineStart.intake = s.intake ∧ s.engineStart.assoc = s.assoc ∧
      s.engineStart.guard = s.guard ∧ s.engineStart.attend = s.attend ∧ s.engineStart.wires = s.wires :=
  ⟨rfl, rfl, rfl, rfl, rfl, rfl⟩

/-- Each area of the state of an accepted START (R159). -/
theorem State.acceptStart_areas (tag : Byte) (s : State) :
    (s.acceptStart tag).control = { s.control with part := .listening } ∧
      (s.acceptStart tag).intake = (s.intakeAnew s.gen.ringSlots).intake ∧
      (s.acceptStart tag).engine = s.madeAnew.engineStart.engine ∧
      (s.acceptStart tag).sched = s.madeAnew.engineStart.scheduleStart.sched ∧ (s.acceptStart tag).assoc = s.assocAnew.assoc ∧
      (s.acceptStart tag).guard = (s.intakeAnew s.gen.ringSlots).guardAnew.guard ∧
      (s.acceptStart tag).attend = { s.attend with deadline := if s.gen.serviceInterval = 0 then none else some s.serviceAt } ∧
      (s.acceptStart tag).wires = { (s.intakeAnew s.gen.ringSlots).assocAnew.wires with sched := [] } := by
  have eq : s.acceptStart tag =
      ((s.madeAnew.engineStart.scheduleStart).setAttend fun a =>
        { a with deadline := if s.gen.serviceInterval = 0 then none else some s.serviceAt }).putResult ⟨codeStart, tag, .done⟩ := rfl
  obtain ⟨-, control, intake, -, assoc, guard, attend, wires⟩ := s.madeAnew_areas
  obtain ⟨control', intake', assoc', guard', attend', wires'⟩ := s.madeAnew.engineStart_leaves
  obtain ⟨control'', intake'', engine'', assoc'', guard'', attend''⟩ := s.madeAnew.engineStart.scheduleStart_leaves
  rw [eq]
  refine ⟨?_, ?_, ?_, ?_, ?_, ?_, ?_, ?_⟩
  · rw [State.putResult_control, State.setAttend_control, control'', control', control]
  · rw [State.putResult_intake, State.setAttend_intake, intake'', intake', intake]
  · rw [State.putResult_engine, State.setAttend_engine, engine'']
  · rw [State.putResult_sched, State.setAttend_sched]
  · rw [State.putResult_assoc, State.setAttend_assoc, assoc'', assoc', assoc]
  · rw [State.putResult_guard, State.setAttend_guard, guard'', guard', guard]
  · rw [State.putResult_attend, State.setAttend_attend, attend'', attend', attend]
  · rw [State.putResult_wires, State.setAttend_wires, State.scheduleStart_wires, wires', wires]

/-- A detector at START (R44, R64). -/
theorem Detector.start_fields (silence : Nat) (enabled : Bool) (d : Detector) :
    (enabled = true → (d.start silence enabled).state = .settling ∧ (d.start silence enabled).count = 0 ∧
        (d.start silence enabled).silence = some silence) ∧
      (enabled = false → (d.start silence enabled).state = .off ∧ (d.start silence enabled).silence = none) ∧
      (d.start silence enabled).short = 0 ∧ (d.start silence enabled).long = 0 ∧ (d.start silence enabled).warmUp = 0 ∧
      (d.start silence enabled).openPick = none ∧ (d.start silence enabled).staged = d.staged := by
  cases enabled <;> simp [Detector.start, Detector.anew, Detector.fresh]

/-- START at a detector of a station with an entry (R64). -/
theorem State.engineStart_at {s : State} {st : Nat} {d : Detector} {e : StationEntry} (det : s.engine[st]? = some d)
    (entry : s.station st = some e) : s.engineStart.engine[st]? = some (d.start s.silenceAt e.enabled) := by
  change (s.engine.mapIdx _)[st]? = _
  rw [List.getElem?_mapIdx, det, Option.map_some, entry]

/-- Settles O11, area by area. -/
theorem startMakesListening : Obligations.StartMakesListening := by
  unfold Obligations.StartMakesListening
  intro tag s u setup stopped idle
  have gen := State.gen_of_setup setup
  have act : s.takeStart tag = s.acceptStart tag :=
    State.command_accepted (State.not_busy idle _) (beq_iff_eq.2 stopped)
  obtain ⟨control, intake, engine, sched, assoc, guard, attend, wires⟩ := s.acceptStart_areas tag
  obtain ⟨time, -, -, detectors, -⟩ := s.madeAnew_areas
  obtain ⟨intervals, state⟩ := s.madeAnew.engineStart.scheduleStart_sched
  refine ⟨(s.acceptStart tag).settle, congrArg done act, control, State.hasResult_settle (.inl rfl), ?intake, ?engine, ?intervals,
    ?state, assoc, ?attend, ?guard, ?released, ?noneHeld, wires, ?frame⟩
  case frame => exact State.settle_frame (State.acceptStart_frame tag (Frame.refl _ s) (by decide)) (by decide)
  all_goals simp only [State.settle_intake, State.settle_engine, State.settle_sched, State.settle_attend, State.settle_guard]
  case intake =>
    rw [intake, gen]
    exact ⟨rfl, rfl, rfl, rfl, rfl⟩
  case engine =>
    intro st d e det entry
    have det : s.madeAnew.engine[st]? = some d := by rw [detectors, det]
    have entry : s.madeAnew.station st = some e := by rw [State.madeAnew_station, State.station_of_setup setup, entry]
    have at_ : s.madeAnew.silenceAt = min (s.time.count + u.gen.silenceLimit * 1000000) (2 ^ 48 - 1) := by
      unfold State.silenceAt State.now
      rw [State.madeAnew_gen, time, gen]
      rfl
    rw [engine, ← at_]
    exact ⟨_, State.engineStart_at det entry, Detector.start_fields _ _ d⟩
  case intervals => rw [sched, intervals]
  case state =>
    have gen' : s.madeAnew.engineStart.gen = u.gen := s.madeAnew_gen.trans gen
    have time' : s.madeAnew.engineStart.time = s.time := time
    rw [sched, state, gen', time']
    cases s.time.state <;> rfl
  case attend =>
    rw [attend, gen]
    unfold State.serviceAt
    rw [gen]
    rfl
  case guard =>
    simp only [guard, State.guardAnew_guard, State.intakeAnew_guard, State.dropOutstanding_guard]
    congr 1
    refine List.map_congr_left fun o _ => ?_
    cases h : o.owner <;> rfl
  case released =>
    rw [guard]
    exact (State.guardAnew_releases _).congr (fun _ => Iff.rfl) rfl rfl rfl rfl
  case noneHeld =>
    rw [guard]
    exact (State.guardAnew_releases _).none_held

end Sys2Proof.Machine
end

section
/-! SUPPORT. SOFT_RESET (R161): each area it makes anew, and what stands with the STATUS claimant. -/
namespace Sys2Proof.Machine

/-! ### What stands with the STATUS claimant -/

/-- The status record stands, but that a rewrite of the status line may have been asked (R169). -/
def OnlyRewrite (w v : Status) : Prop := ∃ asked, v = { w with rewrite := asked }

theorem OnlyRewrite.refl (w : Status) : OnlyRewrite w w := ⟨w.rewrite, rfl⟩

theorem OnlyRewrite.trans {u v w : Status} (h : OnlyRewrite u v) (k : OnlyRewrite v w) : OnlyRewrite u w := by
  obtain ⟨a, rfl⟩ := h
  obtain ⟨b, rfl⟩ := k
  exact ⟨b, rfl⟩

theorem State.askRewrite_onlyRewrite (s : State) : OnlyRewrite s.status s.askRewrite.status := ⟨true, rfl⟩

theorem State.setPart_onlyRewrite (p : PartState) (s : State) : OnlyRewrite s.status (s.setPart p).status := ⟨_, s.setPart_status p⟩

theorem State.setCause_onlyRewrite (c : ResetCause) (s : State) : OnlyRewrite s.status (s.setCause c).status := by
  unfold State.setCause
  split
  · exact OnlyRewrite.refl _
  · exact ⟨true, rfl⟩

theorem State.scheduleSoftReset_onlyRewrite (s : State) : OnlyRewrite s.status s.scheduleSoftReset.status := by
  unfold State.scheduleSoftReset State.setSchedState
  split
  · exact OnlyRewrite.refl _
  · exact ⟨true, rfl⟩

theorem State.assocSoftReset_onlyRewrite (s : State) : OnlyRewrite s.status s.assocSoftReset.status := by
  unfold State.assocSoftReset
  dsimp only
  split
  · exact OnlyRewrite.refl _
  · exact ⟨true, rfl⟩

theorem State.clipAnew_onlyRewrite (s : State) : OnlyRewrite s.status s.clipAnew.status := by
  unfold State.clipAnew
  dsimp only
  split
  · exact OnlyRewrite.refl _
  · exact ⟨true, rfl⟩

/-! ### The areas that a soft reset makes anew -/

@[simp] theorem State.assocSoftReset_assoc (s : State) : s.assocSoftReset.assoc = Assoc.reset := by
  unfold State.assocSoftReset
  dsimp only
  split <;> rfl

@[simp] theorem State.assocSoftReset_wires (s : State) :
    s.assocSoftReset.wires = { s.wires with toAssoc := [], stateRequests := [] } := by
  unfold State.assocSoftReset
  dsimp only
  split <;> rfl

@[simp] theorem State.clipAnew_clip (s : State) : s.clipAnew.clip = Clip.reset := by
  unfold State.clipAnew
  dsimp only
  split <;> rfl

@[simp] theorem State.clipAnew_wires (s : State) : s.clipAnew.wires = { s.wires with clipStop := false } := by
  unfold State.clipAnew
  dsimp only
  split <;> rfl

/-- The requests of the copier on their way go with the work discarded (R136). -/
@[simp] theorem State.clipAnew_guard (s : State) :
    s.clipAnew.guard = (s.dropOutstanding fun o => o == .copierRead || o.isCopierWrite.isSome).guard := by
  unfold State.clipAnew
  dsimp only
  split <;> rfl

@[simp] theorem State.setCause_control (c : ResetCause) (s : State) : (s.setCause c).control = { s.control with cause := c } := by
  unfold State.setCause
  split
  next same => rw [same]
  next => rfl

/-- What a soft reset at the Schedule Unit leaves. -/
theorem State.scheduleSoftReset_leaves (s : State) :
    s.scheduleSoftReset.control = s.control ∧ s.scheduleSoftReset.intake = s.intake ∧ s.scheduleSoftReset.engine = s.engine ∧
      s.scheduleSoftReset.assoc = s.assoc ∧ s.scheduleSoftReset.clip = s.clip ∧ s.scheduleSoftReset.guard = s.guard ∧
      s.scheduleSoftReset.report = s.report ∧ s.scheduleSoftReset.tallies = s.tallies ∧ s.scheduleSoftReset.attend = s.attend :=
  have fr : Frame [.sched, .writer, .wires] s s.scheduleSoftReset := State.scheduleSoftReset_frame (Frame.refl _ s) (by decide)
  ⟨fr .control (by decide), fr .intake (by decide), fr .engine (by decide), fr .assoc (by decide), fr .clip (by decide),
    fr .guard (by decide), fr .report (by decide), fr .tallies (by decide), fr .attend (by decide)⟩

/-- What a soft reset at the Associator leaves. -/
theorem State.assocSoftReset_leaves (s : State) :
    s.assocSoftReset.control = s.control ∧ s.assocSoftReset.intake = s.intake ∧ s.assocSoftReset.engine = s.engine ∧
      s.assocSoftReset.sched = s.sched ∧ s.assocSoftReset.clip = s.clip ∧ s.assocSoftReset.guard = s.guard ∧
      s.assocSoftReset.report = s.report ∧ s.assocSoftReset.tallies = s.tallies ∧ s.assocSoftReset.attend = s.attend :=
  have fr : Frame [.assoc, .writer, .wires] s s.assocSoftReset := State.assocSoftReset_frame (Frame.refl _ s) (by decide)
  ⟨fr .control (by decide), fr .intake (by decide), fr .engine (by decide), fr .sched (by decide), fr .clip (by decide),
    fr .guard (by decide), fr .report (by decide), fr .tallies (by decide), fr .attend (by decide)⟩

/-- What the emptying of the clip store leaves. -/
theorem State.clipAnew_leaves (s : State) :
    s.clipAnew.control = s.control ∧ s.clipAnew.intake = s.intake ∧ s.clipAnew.engine = s.engine ∧ s.clipAnew.sched = s.sched ∧
      s.clipAnew.assoc = s.assoc ∧ s.clipAnew.report = s.report ∧ s.clipAnew.tallies = s.tallies ∧ s.clipAnew.attend = s.attend :=
  have fr : Frame [.clip, .guard, .writer, .wires] s s.clipAnew := State.clipAnew_frame (Frame.refl _ s) (by decide)
  ⟨fr .control (by decide), fr .intake (by decide), fr .engine (by decide), fr .sched (by decide), fr .assoc (by decide),
    fr .report (by decide), fr .tallies (by decide), fr .attend (by decide)⟩

/-- The counting of a unit's MEMERRs changes the tallies alone (R116). -/
theorem State.countUnitErrors_leaves (s : State) :
    s.countUnitErrors.control = s.control ∧ s.countUnitErrors.intake = s.intake ∧ s.countUnitErrors.engine = s.engine ∧
      s.countUnitErrors.sched = s.sched ∧ s.countUnitErrors.guard = s.guard ∧ s.countUnitErrors.attend = s.attend ∧
      s.countUnitErrors.wires = s.wires ∧ s.countUnitErrors.status = s.status := by
  unfold State.countUnitErrors
  split
  · exact ⟨rfl, rfl, rfl, rfl, rfl, rfl, rfl, rfl⟩
  · exact ⟨rfl, rfl, rfl, rfl, rfl, rfl, rfl, rfl⟩

theorem State.countUnitErrors_gen (s : State) : s.countUnitErrors.gen = s.gen := by
  obtain ⟨control, -⟩ := s.countUnitErrors_leaves
  unfold State.gen
  rw [control]

/-- A soft reset at the detectors changes them alone. -/
theorem State.engineSoftReset_leaves (s : State) :
    s.engineSoftReset.control = s.control ∧ s.engineSoftReset.intake = s.intake ∧ s.engineSoftReset.sched = s.sched ∧
      s.engineSoftReset.guard = s.guard ∧ s.engineSoftReset.tallies = s.tallies ∧ s.engineSoftReset.attend = s.attend ∧
      s.engineSoftReset.wires = s.wires ∧ s.engineSoftReset.status = s.status ∧ s.engineSoftReset.gen = s.gen :=
  ⟨rfl, rfl, rfl, rfl, rfl, rfl, rfl, rfl, rfl⟩

/-- What a soft reset at the Report Unit leaves. -/
theorem State.reportSoftReset_leaves (s : State) :
    s.reportSoftReset.control = s.control ∧ s.reportSoftReset.intake = s.intake ∧ s.reportSoftReset.engine = s.engine ∧
      s.reportSoftReset.sched = s.sched ∧ s.reportSoftReset.assoc = s.assoc ∧ s.reportSoftReset.clip = s.clip ∧
      s.reportSoftReset.tallies = s.tallies ∧ s.reportSoftReset.attend = s.attend ∧ s.reportSoftReset.wires = s.wires ∧
      s.reportSoftReset.status = { s.status with rewrite := true } :=
  ⟨rfl, rfl, rfl, rfl, rfl, rfl, rfl, rfl, rfl, rfl⟩

/-- What the work made anew at the Path Guard and the Intake Unit leaves. -/
theorem State.intakeReset_leaves (slots : Nat) (s : State) :
    (s.guardAnew.intakeAnew slots).control = s.control ∧ (s.guardAnew.intakeAnew slots).engine = s.engine ∧
      (s.guardAnew.intakeAnew slots).sched = s.sched ∧ (s.guardAnew.intakeAnew slots).tallies = s.tallies ∧
      (s.guardAnew.intakeAnew slots).attend = s.attend ∧ (s.guardAnew.intakeAnew slots).status = s.status ∧
      (s.guardAnew.intakeAnew slots).gen = s.gen ∧ (s.guardAnew.intakeAnew slots).intake = (s.intakeAnew slots).intake ∧
      (s.guardAnew.intakeAnew slots).wires = (s.intakeAnew slots).wires :=
  ⟨rfl, rfl, rfl, rfl, rfl, rfl, rfl, rfl, rfl⟩

/-! ### SOFT_RESET (R161) -/

/-- The blocks as a soft reset leaves them, before the part state changes. -/
def State.blocksReset (s : State) : State :=
  (s.countUnitErrors.guardAnew.intakeAnew s.gen.ringSlots).engineSoftReset.scheduleSoftReset.assocSoftReset.clipAnew.reportSoftReset

theorem State.acceptSoftReset_eq (tag : Byte) (s : State) : s.acceptSoftReset tag =
    ((((((s.blocksReset.setStatus fun w => { w with newRecords := 0 }).setAttend fun a =>
      { a with deadline := none }).setPending 0).endCommand.setCause .softReset).setPart .stopped).putResult
        ⟨codeSoftReset, tag, .done⟩) := rfl

/-- Each area of the blocks after a soft reset. -/
theorem State.blocksReset_areas (s : State) :
    s.blocksReset.control = s.control ∧ s.blocksReset.intake = (s.intakeAnew s.gen.ringSlots).intake ∧
      s.blocksReset.engine = s.engine.map Detector.anew ∧ s.blocksReset.sched = s.scheduleSoftReset.sched ∧
      s.blocksReset.assoc = .reset ∧ s.blocksReset.clip = .reset ∧ s.blocksReset.report = .reset ∧
      s.blocksReset.tallies = s.countUnitErrors.tallies ∧ s.blocksReset.attend = s.attend ∧
      s.blocksReset.wires = { Wires.empty with unattGuard := s.wires.unattGuard, unattReport := s.wires.unattReport } ∧
      s.blocksReset.guard = (((s.guardAnew.dropOutstanding (· == .refetch)).dropOutstanding fun o =>
        o == .copierRead || o.isCopierWrite.isSome).dropOutstanding (· == .report)).guard := by
  have engine (x : State) : x.engineSoftReset.engine = x.engine.map Detector.anew := rfl
  have report (x : State) : x.reportSoftReset.report = .reset := rfl
  have intake (x : State) : x.guardAnew.intake = x.intake := rfl
  have wires (x : State) : x.guardAnew.wires = x.wires := rfl
  have dropped (x : State) : x.reportSoftReset.guard = (x.dropOutstanding (· == .report)).guard := rfl
  simp only [State.blocksReset, State.reportSoftReset_leaves, State.clipAnew_leaves, State.assocSoftReset_leaves,
    State.scheduleSoftReset_leaves, State.engineSoftReset_leaves, State.intakeReset_leaves, State.countUnitErrors_leaves,
    State.countUnitErrors_gen, State.scheduleSoftReset_sched, State.clipAnew_clip, State.clipAnew_wires, State.assocSoftReset_assoc,
    State.assocSoftReset_wires, State.scheduleSoftReset_wires, State.intakeAnew_wires, State.intakeAnew_intake, engine, report, intake, wires,
    true_and, and_true, dropped, State.dropOutstanding_guard, State.clipAnew_guard, State.intakeAnew_guard, State.guardAnew_guard]
  rfl

/-- The status record stands through a soft reset of the blocks, but for the rewrite flag. -/
theorem State.blocksReset_status (s : State) : OnlyRewrite s.status s.blocksReset.status := by
  unfold State.blocksReset
  obtain ⟨-, -, -, -, -, -, -, -, -, report⟩ := (s.countUnitErrors.guardAnew.intakeAnew s.gen.ringSlots).engineSoftReset.scheduleSoftReset.assocSoftReset.clipAnew.reportSoftReset_leaves
  rw [report]
  refine OnlyRewrite.trans ?_ ⟨true, rfl⟩
  refine OnlyRewrite.trans ?_ (State.clipAnew_onlyRewrite _)
  refine OnlyRewrite.trans ?_ (State.assocSoftReset_onlyRewrite _)
  refine OnlyRewrite.trans ?_ (State.scheduleSoftReset_onlyRewrite _)
  simp only [State.engineSoftReset_leaves, State.intakeReset_leaves, State.countUnitErrors_leaves]
  exact OnlyRewrite.refl _

theorem State.setCause_status (c : ResetCause) (s : State) :
    (s.setCause c).status = { s.status with rewrite := s.status.rewrite || decide (c ≠ s.control.cause) } := by
  unfold State.setCause
  split
  next same => simp [same]
  next other => simp [other]

/-- What stands with the STATUS claimant when a soft reset is accepted: its result waits, and what was offered stands offered (log 48). -/
theorem State.acceptSoftReset_status (tag : Byte) (s : State) :
    (s.acceptSoftReset tag).status.result = some ⟨4, tag, .done⟩ ∧ (s.acceptSoftReset tag).status.offer = s.status.offer ∧
      (s.acceptSoftReset tag).status.pending = 0 ∧ (s.acceptSoftReset tag).status.newRecords = 0 ∧
      (s.acceptSoftReset tag).status.heartbeat = s.status.heartbeat ∧ (s.acceptSoftReset tag).status.dump = s.status.dump := by
  obtain ⟨asked, status⟩ := s.blocksReset_status
  have ended (x : State) : x.endCommand.status = x.status := rfl
  simp [State.acceptSoftReset_eq, State.setPart_status, State.setCause_status, ended, status]

/-- An offered write stands at the end of the event (R170). -/
theorem Status.choose_of_offer {w : Status} {o : StatusOffer} (offered : w.offer = some o) : w.choose = w := by
  unfold Status.choose
  rw [offered]

/-- A waiting result is what a free claimant offers (R170). -/
theorem Status.choose_of_result {w : Status} {r : Result} (free : w.offer = none) (waits : w.result = some r) :
    w.choose = { w with offer := some (.result r), result := none } := by
  unfold Status.choose
  rw [free, waits]

/-- Settles O12: the areas by `State.blocksReset_areas`, the STATUS claimant by `State.acceptSoftReset_status`. -/
theorem softResetMakesStopped : Obligations.SoftResetMakesStopped := by
  unfold Obligations.SoftResetMakesStopped
  intro tag s part free
  have accepts : s.control.part.acceptsSoftReset = true := by rcases part with h | h | h <;> rw [h] <;> rfl
  have act : s.takeSoftReset tag = s.acceptSoftReset tag := State.command_accepted (State.not_busy_through_stop free) accepts
  have kept : Keeps s (s.takeSoftReset tag).settle := (s.takeSoftReset_keeps tag).trans (State.settle_told _).toKeeps
  rw [act] at kept
  obtain ⟨control, intake, engine, sched, assoc, clip, report, tallies, attend, wires, guard⟩ := s.blocksReset_areas
  obtain ⟨result, offer, pending, newRecords, heartbeat, dump⟩ := s.acceptSoftReset_status tag
  have ended (x : State) : x.endCommand.control = { x.control with inProgress := none, load := none } ∧ x.endCommand.intake = x.intake ∧
      x.endCommand.engine = x.engine ∧ x.endCommand.sched = x.sched ∧ x.endCommand.assoc = x.assoc ∧ x.endCommand.clip = x.clip ∧
      x.endCommand.report = x.report ∧ x.endCommand.tallies = x.tallies ∧ x.endCommand.attend = x.attend ∧
      x.endCommand.wires = x.wires ∧ x.endCommand.guard = x.guard :=
    ⟨rfl, rfl, rfl, rfl, rfl, rfl, rfl, rfl, rfl, rfl, rfl⟩
  refine ⟨(s.acceptSoftReset tag).settle, congrArg done act, ?control, State.settle_hasResult _ _ result, fun none_ => ?free, fun o some_ => ?offered,
    ?pending, fun irq => ?irq, ?newRecords, ?heartbeat, ?dump, ?intake, ?engine, ?sched, ?assoc, ?clip, ?report, ?guard, ?released,
    ?attend, ?tallies, ?wires, ?frame⟩
  case control => simp [State.acceptSoftReset_eq, ended, control]
  case free =>
    rw [State.settle_status, Status.choose_of_result (offer.trans none_) result]
    exact ⟨rfl, rfl⟩
  case offered =>
    rw [State.settle_status, Status.choose_of_offer (offer.trans some_)]
    exact ⟨offer.trans some_, result⟩
  case pending => simp [pending]
  case irq =>
    have none_ : (s.acceptSoftReset tag).settle.status.pending = 0 := by simp [pending]
    rw [kept.irq irq, none_]
    simp [irqLevel]
  case newRecords => simp [newRecords]
  case heartbeat => simp [heartbeat]
  case dump => simp [dump]
  case intake =>
    simp only [State.settle_intake, State.acceptSoftReset_eq, State.putResult_intake, State.setPart_intake, State.setCause_intake, ended,
      State.setPending_intake, State.setAttend_intake, State.setStatus_intake, intake]
    rfl
  case engine =>
    simp only [State.settle_engine, State.acceptSoftReset_eq, State.putResult_engine, State.setPart_engine, State.setCause_engine, ended,
      State.setPending_engine, State.setAttend_engine, State.setStatus_engine, engine]
    rfl
  case sched => simp [State.acceptSoftReset_eq, ended, sched, State.scheduleSoftReset_sched]
  case assoc => simp [State.acceptSoftReset_eq, ended, assoc, Assoc.reset]
  case clip => simp [State.acceptSoftReset_eq, ended, clip, Clip.reset]
  case report => simp [State.acceptSoftReset_eq, ended, report, ReportRing.reset]
  case guard =>
    simp only [State.settle_guard, State.acceptSoftReset_eq, State.putResult_guard, State.setPart_guard, State.setCause_guard, ended,
      State.setPending_guard, State.setAttend_guard, State.setStatus_guard, guard, State.dropOutstanding_guard, State.guardAnew_guard,
      List.map_map, PathGuard.mk.injEq, true_and, and_true]
    refine List.map_congr_left fun o _ => ?_
    cases h : o.owner <;> simp [Owner.isCopierWrite, h]
  case released =>
    simp only [State.settle_guard, State.acceptSoftReset_eq, State.putResult_guard, State.setPart_guard, State.setCause_guard, ended,
      State.setPending_guard, State.setAttend_guard, State.setStatus_guard, guard]
    exact s.guardAnew_releases.congr (fun _ => Iff.rfl) rfl rfl rfl rfl
  case attend => simp [State.acceptSoftReset_eq, ended, attend]
  case tallies =>
    simp only [State.settle_tallies, State.acceptSoftReset_eq, State.putResult_tallies, State.setPart_tallies, State.setCause_tallies, ended,
      State.setPending_tallies, State.setAttend_tallies, State.setStatus_tallies, tallies]
    unfold State.countUnitErrors Copier.errors
    cases s.clip.copier with
    | unit plan k phase => cases phase <;> rfl
    | idle => rfl
    | allocating plan => rfl
    | directory plan addr chunks => rfl
  case wires => simp [State.acceptSoftReset_eq, ended, wires]
  case frame => exact State.settle_frame (State.acceptSoftReset_frame tag (Frame.refl _ s) (by decide)) (by decide)

end Sys2Proof.Machine
end

section
/-! SUPPORT. Setup writes before a LOAD ends (R157), the snapshot of DUMP_TALLY (R162, R188), RELEASE_HOLDS (R163) and attendance
(R175 to R178). -/
namespace Sys2Proof.Machine

/-! ### Setup writes before a LOAD ends (R157) -/

/-- A write touches the read extent when a byte that it puts lies in it (R157). -/
theorem touchesExtent_iff (extent : Nat) (w : PageWrite) :
    touchesExtent extent w = true ↔
      ∃ i b, w.bytes[i]? = some (some b) ∧ 0x100 ≤ w.offset + i ∧ w.offset + i < 0x100 + extent := by
  unfold touchesExtent
  rw [List.any_eq_true]
  constructor
  · rintro ⟨x, listed, rfl⟩
    obtain ⟨i, at_⟩ := List.mem_iff_getElem?.1 listed
    rw [List.getElem?_mapIdx] at at_
    cases byte : w.bytes[i]? with
    | none => simp [byte] at at_
    | some b =>
      cases b with
      | none => simp [byte] at at_
      | some b =>
        simp only [byte, Option.map_some, Option.isSome_some, Bool.true_and, Option.some.injEq, Bool.and_eq_true,
          decide_eq_true_eq] at at_
        exact ⟨i, b, byte, at_⟩
  · rintro ⟨i, b, byte, low, high⟩
    refine ⟨true, List.mem_iff_getElem?.2 ⟨i, ?_⟩, rfl⟩
    rw [List.getElem?_mapIdx, byte]
    simp [low, high]

/-- The four commands of the setup areas are one operation (R42, R69, R85, R151). -/
theorem exec_setupWrite {c : Instr} {w : PageWrite} (area : c = .generalSetupWrite w ∨ c = .stationTableWrite w ∨ c = .zoneTableWrite w ∨
    c = .scheduleBankWrite w) (s : State) : ∃ lo hi, exec c s = done (s.setupWrite lo hi w) := by
  rcases area with rfl | rfl | rfl | rfl
  · exact ⟨0x100, 0x200, rfl⟩
  · exact ⟨0x200, 0xE00, rfl⟩
  · exact ⟨0xE00, 0x1000, rfl⟩
  · exact ⟨0x1000, 0x1300, rfl⟩

/-- What a failed LOAD leaves of the control record, and its result (R155, R158). -/
theorem State.failLoad_fails (r : LoadRec) (reason : Reason) (o : Nat) (s : State) :
    (s.failLoad r reason o).control = { s.control with part := r.returnTo, inProgress := none, load := none } ∧
      (s.failLoad r reason o).status.result = some ⟨1, s.control.inProgressTag, .failed reason o⟩ := by
  constructor
  · simp [State.failLoad, State.endCommand]
  · simp [State.failLoad]

/-- Settles O21: in LOADING the condition of `State.changeDuringLoad` is that of the statement, by `touchesExtent_iff`. -/
theorem setupWritesBeforeALoadEnds : Obligations.SetupWritesBeforeALoadEnds := by
  unfold Obligations.SetupWritesBeforeALoadEnds
  intro w s
  refine ⟨fun dormant c area => ?dormant, fun r loading load c area => ?loading⟩
  case dormant =>
    obtain ⟨lo, hi, e⟩ := exec_setupWrite area s
    have stands : s.setupWrite lo hi w = s := by
      unfold State.setupWrite
      rw [dormant]
    rw [e, stands]
    exact ⟨_, rfl, done_self_frame s⟩
  case loading =>
    obtain ⟨lo, hi, e⟩ := exec_setupWrite area s
    have changes : s.setupWrite lo hi w =
        if (r.returnTo = .dormant ∨ s.gen.hostTags.getLsbD w.tag) ∧ touchesExtent r.extent w then s.failLoad r .changedDuringLoad w.offset
        else s := by
      unfold State.setupWrite State.changeDuringLoad
      rw [loading, load]
    rw [e, changes]
    refine ⟨_, rfl, fun fails _ => ?fails, fun passes => ?passes⟩
    case fails =>
      rw [if_pos (fails.imp_right (touchesExtent_iff _ _).2)]
      obtain ⟨control, result⟩ := s.failLoad_fails r .changedDuringLoad w.offset
      simp only [State.settle_control, control, true_and]
      exact ⟨State.settle_hasResult _ _ result,
        State.settle_frame (State.failLoad_frame _ _ _ (Frame.refl _ s) (by decide)) (by decide)⟩
    case passes =>
      rw [if_neg fun h => passes (h.imp_right (touchesExtent_iff _ _).1)]
      exact done_self_frame s

/-! ### DUMP_TALLY (R162, R188) -/

/-- The counts of the global tallies, as the snapshot holds them. -/
theorem tallyWords_length (vs : List Nat) : ∀ x ∈ vs.map (leBytes 4), x.length = 4 := by
  intro x listed
  obtain ⟨v, -, rfl⟩ := List.mem_map.1 listed
  exact leBytes_length 4 v

theorem stationRecord_length (x : StationTallies) (silent : Bool) : (stationRecord x silent).length = 16 := by
  simp [stationRecord, leBytes_length]

/-- A station record field by field (R188). -/
theorem stationRecord_layout (x : StationTallies) (silent : Bool) :
    field (stationRecord x silent) 0 4 = x.accepted % 2 ^ 32 ∧ field (stationRecord x silent) 4 4 = x.gaps % 2 ^ 32 ∧
      field (stationRecord x silent) 8 4 = x.picks % 2 ^ 32 ∧ field (stationRecord x silent) 12 4 = if silent then 1 else 0 := by
  unfold stationRecord
  simp only [List.append_assoc]
  refine ⟨field_front 4 _ _, ?_, ?_, ?_⟩
  · rw [field_behind _ _ _ _ _ (by decide)]
    exact field_front 4 _ _
  · rw [field_behind _ _ _ _ _ (by decide), field_behind _ _ _ _ _ (by decide)]
    exact field_front 4 _ _
  · rw [field_behind _ _ _ _ _ (by decide), field_behind _ _ _ _ _ (by decide), field_behind _ _ _ _ _ (by decide)]
    refine (field_whole 4 _).trans ?_
    cases silent <;> rfl

/-- The station records of the snapshot. -/
def State.stationRecords (s : State) : List (List Byte) :=
  (s.tallies.stations.zip s.engine).map fun p => stationRecord p.1 p.2.silent

theorem State.stationRecords_width (s : State) : ∀ x ∈ s.stationRecords, x.length = 16 := by
  intro x listed
  obtain ⟨p, -, rfl⟩ := List.mem_map.1 listed
  exact stationRecord_length _ _

/-- The layout of the tally area (R188). -/
structure SnapshotLayout (s : State) (bs : List Byte) : Prop where
  length : bs.length = 1792
  time : field bs 0 8 = s.time.count % 2 ^ 64
  tallies : ∀ k v, s.tallies.global[k]? = some v → field bs (8 + 4 * k) 4 = v % 2 ^ 32
  reserved : ∀ o, 0x90 ≤ o → o < 0x100 → bs[o]? = some 0
  stations : ∀ (st c : Nat) (x : StationTallies) (y : Detector), c + 4 ≤ 16 → s.tallies.stations[st]? = some x → s.engine[st]? = some y →
    field bs (0x100 + 16 * st + c) 4 = field (stationRecord x y.silent) c 4

/-- The snapshot has the layout of the tally area when the tallies and the detectors are as many as the area holds. -/
theorem State.snapshot_layout {s : State} (globals : s.tallies.global.length = 34) (stations : s.tallies.stations.length = 96)
    (detectors : s.engine.length = 96) : SnapshotLayout s s.snapshot := by
  have words : (s.tallies.global.map (leBytes 4)).flatten.length = 136 := by
    rw [flatten_length _ (tallyWords_length _), List.length_map, globals]
  have head : (leBytes 8 s.now ++ (s.tallies.global.map (leBytes 4)).flatten).length = 144 := by
    rw [List.length_append, leBytes_length, words]
  have front : (leBytes 8 s.now ++ (s.tallies.global.map (leBytes 4)).flatten ++ zeros 112).length = 256 := by
    rw [List.length_append, head, zeros_length]
  have records : s.stationRecords.flatten.length = 1536 := by
    rw [flatten_length _ s.stationRecords_width]
    simp [State.stationRecords, stations, detectors]
  have split : s.snapshot = leBytes 8 s.now ++ (s.tallies.global.map (leBytes 4)).flatten ++ zeros 112 ++ s.stationRecords.flatten := rfl
  rw [split]
  refine ⟨?length, ?time, fun k v at_ => ?tallies, fun o low high => ?reserved, fun st c x y fits atX atY => ?stations⟩
  case length => rw [List.length_append, front, records]
  case time =>
    rw [field_append_left (by rw [front]; decide), field_append_left (by rw [head]; decide)]
    exact field_front 8 _ _
  case tallies =>
    have small : k < 34 := globals ▸ (List.getElem?_eq_some_iff.1 at_).1
    rw [field_append_left (by rw [front]; omega), field_append_left (by rw [head]; omega), field_behind _ _ _ _ _ (by omega)]
    have word : (s.tallies.global.map (leBytes 4))[k]? = some (leBytes 4 v) := by rw [List.getElem?_map, at_, Option.map_some]
    rw [Nat.add_sub_cancel_left]
    exact (field_flatten (w := 4) (off := 0) _ (tallyWords_length _) word (by decide)).trans (field_whole 4 v)
  case reserved =>
    rw [List.getElem?_append_left (by rw [front]; omega), getElem?_behind (by rw [head]; omega), head]
    exact getElem?_zeros (by omega)
  case stations =>
    have record : s.stationRecords[st]? = some (stationRecord x y.silent) := by
      simp [State.stationRecords, List.getElem?_map, (List.getElem?_zip_eq_some (z := (x, y))).2 ⟨atX, atY⟩]
    rw [field_append_right (by rw [front]; omega), front, Nat.add_assoc, Nat.add_sub_cancel_left]
    exact field_flatten (w := 16) _ s.stationRecords_width record fits

/-- Settles O14: what DUMP_TALLY leaves, and the bytes of its dump by `State.snapshot_layout`. -/
theorem dumpTakesSnapshot : Obligations.DumpTakesSnapshot := by
  unfold Obligations.DumpTakesSnapshot
  intro tag s idle part
  have accepts : s.control.part.acceptsDump = true := by rcases part with h | h <;> rw [h] <;> rfl
  have act : s.takeDumpTally tag = s.acceptDump tag := State.command_accepted (State.not_busy idle _) accepts
  refine ⟨(s.acceptDump tag).settle, ⟨0x1300, s.snapshot⟩, congrArg done act, rfl, ?dump, rfl, fun globals stations detectors => ?layout,
    rfl, ?heartbeat, ?newRecords, rfl, ?frame⟩
  case dump => simp [State.acceptDump]
  case layout =>
    have layout := State.snapshot_layout globals stations detectors
    refine ⟨layout.length, layout.time, layout.tallies, layout.reserved, fun st x y atX atY => ?_⟩
    obtain ⟨accepted, gaps, picks, silent⟩ := stationRecord_layout x y.silent
    have at_ (c o : Nat) (fits : c + 4 ≤ 16) (h : o + 16 * st = 0x100 + 16 * st + c) :
        field s.snapshot (o + 16 * st) 4 = field (stationRecord x y.silent) c 4 := h ▸ layout.stations st c x y fits atX atY
    exact ⟨(at_ 0 0x100 (by omega) (by omega)).trans accepted, (at_ 4 0x104 (by omega) (by omega)).trans gaps,
      (at_ 8 0x108 (by omega) (by omega)).trans picks, (at_ 12 0x10C (by omega) (by omega)).trans silent⟩
  case heartbeat => simp [State.acceptDump]
  case newRecords => simp [State.acceptDump]
  case frame =>
    exact State.settle_frame (State.acceptDump_frame tag (Frame.refl _ s) (by decide)) (by decide)

/-! ### RELEASE_HOLDS (R163) -/

/-- What cuts leave of a slot: the slot stands, or its pins are gone, it has the cut mark, and the cut has been told (R12). -/
def AfterCut (n : Nat) (e e' : Slot) (w : Wires) : Prop :=
  e' = e ∨ e.pins ≠ 0 ∧ e' = { e with pins := 0, cutMark := true } ∧ n ∈ w.slotFree ∧ (n, e.gen) ∈ w.cutNotes

/-- A cut drops nothing that has been told of cuts. -/
theorem SlotCut.told_grows {i : Nat} {s m : State} (h : SlotCut i s m) :
    s.wires.slotFree ⊆ m.wires.slotFree ∧ s.wires.cutNotes ⊆ m.wires.cutNotes := by
  by_cases unpinned : ∀ e, s.intake.dir[i]? = some e → e.pins = 0
  · rw [h.unpinned unpinned]
    exact ⟨List.Subset.refl _, List.Subset.refl _⟩
  · push Not at unpinned
    obtain ⟨e, at_, pinned⟩ := unpinned
    obtain ⟨_, _, wires, _⟩ := h.pinned e at_ pinned
    rw [wires]
    exact ⟨List.subset_append_left _ _, List.subset_append_left _ _⟩

theorem SlotsCut.told_grows {ns : List Nat} {s t : State} (h : SlotsCut ns s t) :
    s.wires.slotFree ⊆ t.wires.slotFree ∧ s.wires.cutNotes ⊆ t.wires.cutNotes := by
  induction h with
  | none => exact ⟨List.Subset.refl _, List.Subset.refl _⟩
  | cut c _ ih =>
    obtain ⟨free, notes⟩ := c.told_grows
    exact ⟨List.Subset.trans free ih.1, List.Subset.trans notes ih.2⟩

/-- One cut at any slot of the directory. -/
theorem SlotCut.at {i n : Nat} {s m : State} {e : Slot} (h : SlotCut i s m) (at_ : s.intake.dir[n]? = some e) :
    ∃ e', m.intake.dir[n]? = some e' ∧ AfterCut n e e' m.wires ∧ (i = n → e'.pins = 0) := by
  by_cases unpinned : ∀ e, s.intake.dir[i]? = some e → e.pins = 0
  · rw [h.unpinned unpinned]
    exact ⟨e, at_, .inl rfl, fun same => unpinned e (same ▸ at_)⟩
  · push Not at unpinned
    obtain ⟨x, atI, pinned⟩ := unpinned
    obtain ⟨_, intake, wires, _⟩ := h.pinned x atI pinned
    rw [intake, wires]
    dsimp only
    by_cases same : i = n
    · subst same
      cases Option.some.inj (atI.symm.trans at_)
      have inside : i < s.intake.dir.length := (List.getElem?_eq_some_iff.1 at_).1
      exact ⟨_, List.getElem?_set_self inside, .inr ⟨pinned, rfl, by simp, by simp⟩, fun _ => rfl⟩
    · exact ⟨e, (List.getElem?_set_ne same).trans at_, .inl rfl, fun h => absurd h same⟩

/-- Cuts one after the other at any slot of the directory: a second cut of a slot finds no pins. -/
theorem SlotsCut.at {ns : List Nat} {s t : State} (h : SlotsCut ns s t) : ∀ {n : Nat} {e : Slot}, s.intake.dir[n]? = some e →
    ∃ e', t.intake.dir[n]? = some e' ∧ AfterCut n e e' t.wires ∧ (n ∈ ns → e'.pins = 0) := by
  induction h with
  | none => exact fun {n e} at_ => ⟨e, at_, .inl rfl, fun listed => absurd listed List.not_mem_nil⟩
  | @cut i ns s m t c rest ih =>
    intro n e at_
    obtain ⟨e₁, at₁, after₁, pins₁⟩ := c.at at_
    obtain ⟨e₂, at₂, after₂, pins₂⟩ := ih at₁
    have stays (none_ : e₁.pins = 0) : e₂ = e₁ := by
      rcases after₂ with same | ⟨pinned, -⟩
      · exact same
      · exact absurd none_ pinned
    have cut_ (listed : n ∈ i :: ns) : e₂.pins = 0 := by
      rcases List.mem_cons.1 listed with same | later
      · rw [stays (pins₁ same.symm)]
        exact pins₁ same.symm
      · exact pins₂ later
    refine ⟨e₂, at₂, ?_, cut_⟩
    rcases after₁ with rfl | ⟨pinned, rfl, free, notes⟩
    · exact after₂
    · obtain ⟨freeGrows, notesGrow⟩ := rest.told_grows
      exact .inr ⟨pinned, stays rfl, freeGrows free, notesGrow notes⟩

/-- The entry holds a read when its kind is READ (R129). -/
theorem Held.isRead_iff (h : Held) : h.isRead = true ↔ ∃ marked, h.kind = .read marked := by
  unfold Held.isRead
  cases h.kind <;> simp

/-- Settles O20: the cuts by `State.cutSlots_cut` and `SlotsCut.at`, the releases by `State.releaseHeld_releases`. -/
theorem releaseHoldsCutsAll : Obligations.ReleaseHoldsCutsAll := by
  unfold Obligations.ReleaseHoldsCutsAll
  intro tag s part free
  have accepts : s.control.part.serviced = true := by rcases part with h | h <;> rw [h] <;> rfl
  have act : s.takeReleaseHolds tag = s.acceptReleaseHolds tag := State.command_accepted (State.not_busy_through_stop free) accepts
  have cuts : SlotsCut (List.range s.intake.dir.length) s s.cutAll := s.cutSlots_cut _
  obtain ⟨lost, n, count, pending, tallies⟩ := cuts.told List.nodup_range
  rw [filter_range_length s.intake.dir fun e => decide (0 < e.pins)] at count
  have frame : Frame [.intake, .notices, .writer, .tallies, .wires] s s.cutAll := State.cutAll_frame (Frame.refl _ s) (by decide)
  have guard : s.cutAll.guard = s.guard := frame .guard (by decide)
  refine ⟨(s.acceptReleaseHolds tag).settle, s.cutAll, lost, n, congrArg done act, State.hasResult_settle (.inl rfl),
    frame .control (by decide), cuts, ?after, fun n e at_ => ?slot, count, ?pending, tallies, ?guard, ?released, ?frame⟩
  case after =>
    exact State.settle_frame (State.resultDone_frame _ _ (State.releaseHeld_frame _ (Frame.refl _ _) (by decide)) (by decide)) (by decide)
  case slot =>
    obtain ⟨e', at', after, none_⟩ := cuts.at at_
    have inside : n < s.intake.dir.length := (List.getElem?_eq_some_iff.1 at_).1
    refine ⟨e', at', none_ (List.mem_range.2 inside), ?_⟩
    rcases after with rfl | ⟨pinned, rfl, free, notes⟩
    · exact ⟨rfl, rfl, fun pinned => absurd (none_ (List.mem_range.2 inside)) (Nat.pos_iff_ne_zero.1 pinned), fun _ => rfl⟩
    · exact ⟨rfl, rfl, fun _ => ⟨rfl, free, notes⟩, fun none_ => absurd none_ pinned⟩
  case pending =>
    rw [← pending]
    simp [State.acceptReleaseHolds, State.resultDone, State.releaseHeld]
  case guard =>
    rw [← guard]
    rfl
  case released =>
    exact ((State.releaseHeld_releases Held.isRead s.cutAll).congr (fun h => h.isRead_iff.symm) rfl rfl rfl rfl).congr (fun _ => Iff.rfl)
      (congrArg PathGuard.held guard.symm) (congrArg PathGuard.releases guard.symm) rfl rfl
  case frame => exact State.settle_frame (State.acceptReleaseHolds_frame tag (Frame.refl _ s) (by decide)) (by decide)

/-! ### Attendance (R175 to R178) -/

theorem PartState.serviced_iff (p : PartState) : p.serviced = true ↔ p = .listening ∨ p = .draining := by
  cases p <;> simp [PartState.serviced]

/-- A deadline that lies at or before field time has been reached (R38). -/
theorem State.reached_of_due {s : State} {d : Nat} {at_ : Option Nat} (set : at_ = some d) (due : d ≤ s.time.count) :
    reached s.now at_ = true := by
  rw [set]
  exact decide_eq_true due

/-- The return to ATTENDED leaves the service deadline (R178). -/
theorem State.becomeAttended_attend (s : State) : s.becomeAttended.attend = ⟨false, s.attend.deadline⟩ := by
  unfold State.becomeAttended
  split
  next => simp
  next attended => rw [← Bool.eq_false_iff.2 attended]

/-- Settles O25, the read and the deadline by the branches of their operations. -/
theorem attendanceMoves : Obligations.AttendanceMoves := by
  unfold Obligations.AttendanceMoves
  intro s u setup
  have gen := State.gen_of_setup setup
  refine ⟨?read, fun d deadline due => ?deadline⟩
  case read =>
    have reads : exec .heartbeatRead s = done s.heartbeatRead := by
      change execHeartbeatRead s = _
      unfold execHeartbeatRead State.loaded
      rw [setup]
      rfl
    refine ⟨_, reads, ?attend, ?pending, State.settle_frame (State.heartbeatRead_frame (Frame.refl _ s) (by decide)) (by decide)⟩
    case attend =>
      simp only [State.settle_attend, State.heartbeatRead, State.becomeAttended_attend, PartState.serviced_iff, gen, State.serviceAt]
      split <;> rfl
    case pending =>
      simp only [State.settle_status, State.heartbeatRead, State.becomeAttended]
      split <;> cases h : s.attend.unattended <;> simp [h]
  case deadline =>
    have expires : exec .serviceDeadline s = done (if s.attend.unattended then s.setAttend fun a => { a with deadline := none }
        else (s.setAttend fun a => { a with deadline := none }).becomeUnattended) := by
      change execServiceDeadline s = _
      unfold execServiceDeadline
      rw [if_pos (State.reached_of_due deadline due)]
    rw [expires]
    refine ⟨_, rfl, ?_⟩
    cases h : s.attend.unattended with
    | true =>
      simp only [if_true]
      refine ⟨?_, State.settle_frame (State.setAttend_frame _ (Frame.refl _ s) (by decide)) (by decide)⟩
      simp [h]
    | false =>
      simp only [Bool.false_eq_true, if_false]
      refine ⟨by simp [State.becomeUnattended], by simp [State.becomeUnattended], by simp [State.becomeUnattended],
        by simp [State.becomeUnattended], ?_⟩
      exact State.settle_frame (State.becomeUnattended_frame (State.setAttend_frame _ (Frame.refl _ s) (by decide)) (by decide)) (by decide)

end Sys2Proof.Machine
end

section
/-! SUPPORT. The Time Base: the second announced, the aligning pulse, what a discipline pulse does (R31 to R40) and the holdover deadline. -/
namespace Sys2Proof.Machine

/-! ### Time state and the second announced -/

/-- A time state that changes is announced to the Schedule Unit (R40). -/
theorem State.setTimeState_wires (x : TimeState) (s : State) : (s.setTimeState x).wires =
    { s.wires with sched := s.wires.sched ++ if s.time.state = x then [] else [.time x] } := by
  unfold State.setTimeState
  by_cases same : s.time.state = x
  · simp [same]
  · simp [same, Ne.symm same]

theorem State.setTimeState_status_pending (x : TimeState) (s : State) : (s.setTimeState x).status.pending = s.status.pending := by
  unfold State.setTimeState
  split <;> rfl

/-- Whether or not there is a change to announce, the second last announced is that of field time (R40). -/
theorem State.announceSecond_time (s : State) :
    s.announceSecond.time = { s.time with announced := second s.time.count } := by
  unfold State.announceSecond
  split
  next same => rw [← same]
  next => rfl

theorem State.announceSecond_status_pending (s : State) : s.announceSecond.status.pending = s.status.pending := by
  unfold State.announceSecond
  split <;> rfl

/-- A forward step sets the count, clears the fraction and announces its second (R26, R39, R40). -/
theorem State.stepTime_time (t : Nat) (s : State) : (s.stepTime t).time =
    { s.time with count := min t maxTime, frac := 0, announced := second (min t maxTime) } := State.announceSecond_time _

theorem State.stepTime_status_pending (t : Nat) (s : State) : (s.stepTime t).status.pending = s.status.pending :=
  State.announceSecond_status_pending _

/-- A forward step is the move of the deadlines, but for the time record and what the second tells (R39). -/
theorem State.stepTime_moves (t : Nat) (s : State) :
    Frame [.time, .writer] (s.moveDeadlines (min t maxTime - s.time.count)) (s.stepTime t) :=
  State.announceSecond_frame (State.setTime_frame _ (Frame.refl _ _) (by decide)) (by decide)

/-- The moved deadlines of two states that agree but in areas without deadlines. -/
theorem State.moveDeadlines_congr {s m : State} (k : Nat) (h : Frame [.time, .notices, .writer, .tallies, .wires] s m) :
    Frame [.time, .notices, .writer, .tallies, .wires] (s.moveDeadlines k) (m.moveDeadlines k) := by
  intro a n
  have same := h a n
  cases a <;> simp_all [Same, State.moveDeadlines]

/-- A pulse that is recorded (R32, R33). -/
theorem State.recordPulse_time (s : State) : s.recordPulse.time =
    { s.time with lastPulse := some s.time.count, holdover := some (deadline s.time.count Config.holdoverTime), state := .locked } :=
  State.setTimeState_time _ _

theorem State.recordPulse_wires (s : State) : s.recordPulse.wires =
    { s.wires with sched := s.wires.sched ++ if s.time.state = .locked then [] else [.time .locked] } := by
  unfold State.recordPulse
  rw [State.setTimeState_wires]
  rfl

theorem State.recordPulse_status_pending (s : State) : s.recordPulse.status.pending = s.status.pending := State.setTimeState_status_pending _ _

/-! ### Passed pulses and the second (R31, R40) -/

theorem State.takePulse_passed {s : State} (passed : s.time.state = .unset ∨
    s.time.state = .locked ∧ ∃ p, s.time.lastPulse = some p ∧ s.time.count - p < 500000) : s.takePulse = s := by
  unfold State.takePulse
  rcases passed with unset | ⟨locked, p, last, early⟩
  · rw [unset]
  · rw [locked, last]
    exact if_pos early

/-- With no change of the whole second to announce nothing happens (log 1). -/
theorem execFieldTimeSecond_announced {s : State} (same : s.time.announced = s.time.count / 1000000) :
    exec .fieldTimeSecond s = .next s := if_pos same

/-- Settles O26, by `State.takePulse_passed` and `State.announceSecond_time`. -/
theorem passedPulseAndSecond : Obligations.PassedPulseAndSecond := by
  unfold Obligations.PassedPulseAndSecond
  refine ⟨fun s passed => ?pulse, fun s => ⟨fun changed => ?second, execFieldTimeSecond_announced⟩⟩
  case pulse =>
    have stays : (s.count .ppsPulses).takePulse = s.count .ppsPulses := State.takePulse_passed passed
    exact ⟨_, congrArg done stays, rfl, State.settle_frame (State.count_frame _ (Frame.refl _ s) (by decide)) (by decide)⟩
  case second =>
    have announces : exec .fieldTimeSecond s = done s.announceSecond := if_neg changed
    have rewrite : s.announceSecond.status.rewrite = true := by
      unfold State.announceSecond
      rw [if_neg (by exact changed)]
      rfl
    refine ⟨_, announces, s.announceSecond_time, (State.settle_rewrite _).trans rewrite,
      State.settle_frame (State.announceSecond_frame (Frame.refl _ s) (by decide)) (by decide), ?_⟩
    refine execFieldTimeSecond_announced ?_
    simp only [State.settle_time, State.announceSecond_time]
    rfl

/-! ### A discipline pulse (R33, R34, R35, R37) -/

/-- Field time past the last whole second, in µs. -/
def State.phase (s : State) : Nat := s.time.count % 1000000

/-- The base rate that a discipline pulse leaves (R33). -/
def State.newBase (s : State) : Nat := if s.time.firstLoad then s.gen.clampRate s.time.measured else Config.rateReset

/-- What the slew takes off a base rate in one second (R35). -/
def slewLoss (base phase : Nat) : Nat := (base * phase + 999999) / 1000000

/-- The base rate measured is clamped (R33). -/
def State.baseClamped (s : State) : Bool := s.time.firstLoad && decide (s.newBase ≠ s.time.measured)

/-- The slew from base rate `b` is clamped at the lower limit (R35). -/
def State.slewClamped (b : Nat) (s : State) : Bool :=
  s.time.firstLoad && decide (0 < s.phase ∧ s.phase ≤ 1000 ∧ b - slewLoss b s.phase < s.gen.rateLow)

/-- What the measurement does (R33). -/
theorem State.measure_measures (s : State) :
    s.measure.time = { s.time with baseRate := s.newBase } ∧
      s.measure.status.pending = s.status.pending ||| (if s.baseClamped then Notice.rateLimit.bit else 0) ∧
      s.measure.tallies = (if s.baseClamped then s.count .rateLimitHits else s).tallies := by
  unfold State.measure State.baseClamped State.newBase
  cases first : s.time.firstLoad with
  | false => simp
  | true =>
    by_cases same : s.gen.clampRate s.time.measured = s.time.measured
    · simp [same]
    · simp [same, State.rateLimit]

/-- The rate word after the phase is settled from base rate `s.time.baseRate` (R34, R35). -/
def State.settledRate (s : State) : Nat :=
  if s.time.firstLoad = false then (if 0 < s.phase ∧ s.phase ≤ 1000 then s.time.rateWord else Config.rateReset)
  else if s.phase = 0 ∨ 500000 < s.phase then s.time.baseRate
  else if s.phase ≤ 1000 then max s.gen.rateLow (s.time.baseRate - slewLoss s.time.baseRate s.phase)
  else s.gen.rateLow

/-- What the slew of a phase error above 0 does (R35). -/
theorem State.slew_slews {s : State} (above : 0 < s.phase) (near : s.phase ≤ 500000) :
    (s.slew s.phase).time = { s.time with rateWord := s.settledRate } ∧
      (s.slew s.phase).status.pending = s.status.pending |||
        (if s.slewClamped s.time.baseRate then Notice.rateLimit.bit else 0) ||| (if 1000 < s.phase then Notice.timeAhead.bit else 0) ∧
      (s.slew s.phase).tallies = (if s.slewClamped s.time.baseRate then s.count .rateLimitHits else s).tallies := by
  unfold State.slew State.slewClamped State.settledRate
  have nonzero : s.phase ≠ 0 := Nat.pos_iff_ne_zero.1 above
  have loss : (s.time.baseRate * s.phase + 999999) / 1000000 = slewLoss s.time.baseRate s.phase := rfl
  rw [loss]
  by_cases small : s.phase ≤ 1000
  · have notFar : ¬ 1000 < s.phase := Nat.not_lt.2 small
    have notPast : ¬ 500000 < s.phase := Nat.not_lt.2 near
    cases first : s.time.firstLoad with
    | false => simp [small, above, notFar]
    | true =>
      by_cases low : s.time.baseRate - slewLoss s.time.baseRate s.phase < s.gen.rateLow
      · simp [small, above, notFar, notPast, nonzero, low, State.setRate, State.rateLimit, first, Nat.max_eq_left low.le]
      · simp [small, above, notFar, notPast, nonzero, low, State.setRate, first, Nat.max_eq_right (Nat.not_lt.1 low)]
  · have far : 1000 < s.phase := Nat.not_le.1 small
    have notPast : ¬ 500000 < s.phase := Nat.not_lt.2 near
    cases first : s.time.firstLoad <;> simp [small, far, notPast, nonzero, State.setRate, first]

/-- Field time after the phase is settled (R34): forward to the whole second that lies ahead. -/
def State.settledCount (s : State) : Nat :=
  if s.phase ≤ 500000 then s.time.count else min ((s.time.count / 1000000 + 1) * 1000000) maxTime

/-- What the settling of the phase does (R34, R35). -/
theorem State.settlePhase_settles (s : State) :
    s.settlePhase.time = { s.time with
        count := s.settledCount, frac := if s.phase ≤ 500000 then s.time.frac else 0, rateWord := s.settledRate
        announced := if s.phase ≤ 500000 then s.time.announced else s.settledCount / 1000000 } ∧
      s.settlePhase.status.pending = s.status.pending |||
        (if s.slewClamped s.time.baseRate then Notice.rateLimit.bit else 0) |||
        (if 1000 < s.phase ∧ s.phase ≤ 500000 then Notice.timeAhead.bit else 0) ∧
      s.settlePhase.tallies = (if s.slewClamped s.time.baseRate then s.count .rateLimitHits else s).tallies ∧
      s.settlePhase.wires = s.wires ∧
      (s.phase ≤ 500000 → Frame [.time, .notices, .writer, .tallies] s s.settlePhase) ∧
      (500000 < s.phase → Frame [.time, .notices, .writer, .tallies] (s.moveDeadlines (s.settledCount - s.time.count)) s.settlePhase) := by
  have phase : s.time.count % 1000000 = s.phase := rfl
  unfold State.settlePhase
  dsimp only
  rw [phase]
  by_cases zero : s.phase = 0
  · rw [if_pos zero]
    have notClamped : s.slewClamped s.time.baseRate = false := by simp [State.slewClamped, zero]
    refine ⟨?_, ?_, ?_, rfl, fun _ => State.setRate_frame _ (Frame.refl _ s) (by decide), fun past => absurd (zero ▸ past) (by decide)⟩
    · cases first : s.time.firstLoad <;> simp [State.setRate, State.settledCount, State.settledRate, zero, first]
    · simp [State.setRate, notClamped, zero]
    · simp [State.setRate, notClamped]
  · have above : 0 < s.phase := Nat.pos_iff_ne_zero.2 zero
    rw [if_neg zero]
    by_cases near : s.phase ≤ 500000
    · rw [if_pos near]
      obtain ⟨time, pending, tallies⟩ := State.slew_slews above near
      have frame : Frame [.time, .notices, .writer, .tallies] s (s.slew s.phase) := State.slew_frame _ (Frame.refl _ s) (by decide)
      refine ⟨?_, ?_, tallies, frame .wires (by decide), fun _ => frame, fun past => absurd near (Nat.not_le.2 past)⟩
      · rw [time]
        simp [State.settledCount, near]
      · rw [pending]
        simp [near]
    · have past : 500000 < s.phase := Nat.not_le.1 near
      have notClamped : s.slewClamped s.time.baseRate = false := by
        have notSmall : ¬ s.phase ≤ 1000 := fun small => near (small.trans (by decide))
        simp [State.slewClamped, notSmall]
      have notSmall : ¬ (0 < s.phase ∧ s.phase ≤ 1000) := fun h => near (h.2.trans (by decide))
      rw [if_neg near]
      have frame : Frame [.time, .writer] (s.moveDeadlines (s.settledCount - s.time.count))
          ((s.stepTime ((second s.time.count + 1) * 1000000)).setRate s.time.baseRate) := by
        have count : s.settledCount = min ((second s.time.count + 1) * 1000000) maxTime := if_neg near
        rw [count]
        exact State.setRate_frame _ (State.stepTime_moves _ s) (by decide)
      refine ⟨?_, ?_, ?_, ?_, fun h => absurd h near, fun _ => frame.mono (by decide)⟩
      · simp only [State.setRate, State.setTime_time, State.stepTime_time, State.settledCount, State.settledRate, near, if_false, notSmall, past,
          or_true, if_true, second]
        cases s.time.firstLoad <;> simp
      · have pending : ((s.stepTime ((second s.time.count + 1) * 1000000)).setRate s.time.baseRate).status.pending = s.status.pending :=
          State.stepTime_status_pending _ s
        simp [pending, notClamped, near]
      · rw [notClamped]
        exact frame .tallies (by decide)
      · exact (State.stepTime_frame _ (Frame.refl _ s) (List.Subset.refl _)) .wires (by decide)

/-- What a discipline pulse does, from `s` to `t` (R33, R34, R35, R37). -/
structure Disciplined (s t : State) : Prop where
  time : t.time = { s.time with
    count := s.settledCount, frac := if s.phase ≤ 500000 then s.time.frac else 0, baseRate := s.newBase
    rateWord := s.measure.settledRate, state := .locked, lastPulse := some s.settledCount
    holdover := some (deadline s.settledCount Config.holdoverTime)
    announced := if s.phase ≤ 500000 then s.time.announced else s.settledCount / 1000000 }
  pending : t.status.pending = s.status.pending ||| (if s.baseClamped then Notice.rateLimit.bit else 0) |||
    (if s.slewClamped s.newBase then Notice.rateLimit.bit else 0) |||
    (if 1000 < s.phase ∧ s.phase ≤ 500000 then Notice.timeAhead.bit else 0)
  tallies : ∃ a : State, a = (if s.baseClamped then s.count .rateLimitHits else s) ∧
    t.tallies = (if s.slewClamped s.newBase then a.count .rateLimitHits else a).tallies
  wires : t.wires = { s.wires with sched := s.wires.sched ++ if s.time.state = .locked then [] else [.time .locked] }
  near : s.phase ≤ 500000 → Frame [.time, .notices, .writer, .tallies, .wires] s t
  past : 500000 < s.phase → Frame [.time, .notices, .writer, .tallies, .wires] (s.moveDeadlines (s.settledCount - s.time.count)) t

/-- A count of one tally changes the tallies by what they were. -/
theorem count_tallies_congr {s m : State} (t : Tally) (same : s.tallies = m.tallies) : (s.count t).tallies = (m.count t).tallies := by
  rw [State.count_tallies, State.count_tallies, same]

/-- The general fields of two states that agree in the control record. -/
theorem State.gen_congr {s t : State} (same : t.control = s.control) : t.gen = s.gen := by
  unfold State.gen
  rw [same]

theorem State.discipline_disciplines (s : State) : Disciplined s s.discipline := by
  obtain ⟨mTime, mPending, mTallies⟩ := s.measure_measures
  have mFrame : Frame [.time, .notices, .writer, .tallies] s s.measure := State.measure_frame (Frame.refl _ s) (by decide)
  have mGen : s.measure.gen = s.gen := State.gen_congr (mFrame .control (by decide))
  obtain ⟨pTime, pPending, pTallies, pWires, pNear, pPast⟩ := s.measure.settlePhase_settles
  have phase : s.measure.phase = s.phase := by simp only [State.phase, mTime]
  have count : s.measure.settledCount = s.settledCount := by simp only [State.settledCount, phase, mTime]
  have base : s.measure.time.baseRate = s.newBase := by rw [mTime]
  have clamped : s.measure.slewClamped s.newBase = s.slewClamped s.newBase := by simp only [State.slewClamped, phase, mTime, mGen]
  rw [base, clamped, phase] at pPending
  rw [base, clamped] at pTallies
  rw [phase] at pTime pNear pPast
  have record : Frame [.time, .notices, .writer, .tallies, .wires] s.measure.settlePhase s.discipline :=
    State.recordPulse_frame (Frame.refl _ _) (by decide)
  refine ⟨?time, ?pending, ⟨_, rfl, ?tallies⟩, ?wires, fun near => ?near, fun past => ?past⟩
  case time =>
    unfold State.discipline
    rw [State.recordPulse_time, pTime, count, mTime]
  case pending => exact (State.recordPulse_status_pending _).trans (by rw [pPending, mPending])
  case tallies =>
    have recorded : s.discipline.tallies = s.measure.settlePhase.tallies :=
      (State.recordPulse_frame (Frame.refl [.time, .writer, .wires] _) (List.Subset.refl _)) .tallies (by decide)
    rw [recorded, pTallies]
    cases s.slewClamped s.newBase with
    | false => exact mTallies
    | true => exact count_tallies_congr _ mTallies
  case wires =>
    unfold State.discipline
    rw [State.recordPulse_wires, pTime, pWires, mTime, mFrame .wires (by decide)]
  case near => exact ((mFrame.trans (pNear near)).mono (by decide)).trans record
  case past =>
    have moved := State.moveDeadlines_congr (s.settledCount - s.time.count) (mFrame.mono (by decide))
    have settled := pPast past
    rw [count, mTime] at settled
    exact (moved.trans (settled.mono (by decide))).trans record

/-- The pulse of R31 as a command: counted, and passed over or taken. -/
theorem exec_ppsPulse (s : State) : exec .ppsPulse s = done (s.count .ppsPulses).takePulse := rfl

/-- When a pulse in LOCKED or HOLDOVER is taken (R31, R32). -/
theorem State.takePulse_disciplines {s : State}
    (taken : s.time.state = .locked ∧ (∀ p, s.time.lastPulse = some p → 500000 ≤ s.time.count - p) ∨ s.time.state = .holdover) :
    s.takePulse = if s.time.state = .holdover then s.discipline.raise .timeLocked else s.discipline := by
  unfold State.takePulse
  rcases taken with ⟨locked, late⟩ | holdover
  · rw [locked]
    cases last : s.time.lastPulse with
    | none => rfl
    | some p => exact if_neg (Nat.not_lt.2 (late p last))
  · rw [holdover]
    rfl

/-- The rate that an interval measures (R33, R37). -/
theorem TimeBase.measured_eq {t : TimeBase} {p : Nat} (locked : t.state = .locked) (last : t.lastPulse = some p)
    (late : 500000 ≤ t.count - p) (soon : t.count - p ≤ 1500000) :
    t.measured = (2 * (t.rateWord * 1000000) + (t.count - p)) / (2 * (t.count - p)) := by
  unfold TimeBase.measured
  rw [last]
  exact if_pos ⟨locked ▸ nofun, late, soon⟩

/-- A pulse in HOLDOVER, one with none before it and one after too long an interval measure nothing (R33; log 45). -/
theorem TimeBase.measured_none {t : TimeBase}
    (h : t.lastPulse = none ∨ t.state = .holdover ∨ ∃ p, t.lastPulse = some p ∧ 1500000 < t.count - p) : t.measured = t.baseRate := by
  unfold TimeBase.measured
  cases last : t.lastPulse with
  | none => rfl
  | some p =>
    refine if_neg fun ⟨notHoldover, _, soon⟩ => ?_
    rcases h with none_ | holdover | ⟨q, lastQ, long⟩
    · rw [last] at none_
      cases none_
    · exact notHoldover holdover
    · cases Option.some.inj (last.symm.trans lastQ)
      exact absurd soon (Nat.not_le.2 long)

theorem State.measure_settledRate (s : State) : s.measure.settledRate =
    if s.time.firstLoad = false then (if 0 < s.phase ∧ s.phase ≤ 1000 then s.time.rateWord else Config.rateReset)
    else if s.phase = 0 ∨ 500000 < s.phase then s.newBase
    else if s.phase ≤ 1000 then max s.gen.rateLow (s.newBase - slewLoss s.newBase s.phase)
    else s.gen.rateLow := by
  obtain ⟨time, -, -⟩ := s.measure_measures
  have frame : Frame [.time, .notices, .writer, .tallies] s s.measure := State.measure_frame (Frame.refl _ s) (by decide)
  have gen : s.measure.gen = s.gen := State.gen_congr (frame .control (by decide))
  have phase : s.measure.phase = s.phase := by simp only [State.phase, time]
  unfold State.settledRate
  rw [phase, time, gen]

/-- A kind raised for either of two reasons is raised once (R166). -/
theorem raised_twice (p x : BitVec 24) (a b : Bool) :
    p ||| (if a then x else 0) ||| (if b then x else 0) = p ||| (if a = true ∨ b = true then x else 0) := by
  cases a <;> cases b <;> simp [BitVec.or_assoc]

/-- What a pulse taken in LOCKED or HOLDOVER does, the notice of a return to LOCKED with it (R33 to R37). -/
theorem exec_ppsPulse_disciplines {s : State}
    (taken : s.time.state = .locked ∧ (∀ p, s.time.lastPulse = some p → 500000 ≤ s.time.count - p) ∨ s.time.state = .holdover) :
    ∃ t d, exec .ppsPulse s = .next t ∧ Disciplined (s.count .ppsPulses) d ∧ Frame [.notices, .writer] d t ∧
      t.status.pending = d.status.pending ||| (if s.time.state = .holdover then Notice.timeLocked.bit else 0) := by
  have takes : (s.count .ppsPulses).takePulse = _ := State.takePulse_disciplines (s := s.count .ppsPulses) taken
  rw [exec_ppsPulse, takes]
  refine ⟨_, _, rfl, State.discipline_disciplines _, ?_, ?_⟩
  · refine State.settle_frame ?_ (by decide)
    split
    · exact State.raise_frame _ (Frame.refl _ _) (by decide)
    · exact Frame.refl _ _
  · by_cases holdover : s.time.state = .holdover <;> simp [holdover]

/-- Settles O28: `exec_ppsPulse_disciplines`, with the terms of the statement for those of `Disciplined`. -/
theorem disciplinePulse : Obligations.DisciplinePulse := by
  unfold Obligations.DisciplinePulse
  intro s rates taken
  obtain ⟨t, d, next, disciplined, after, pending⟩ := exec_ppsPulse_disciplines taken
  have time := (show t.time = d.time from after .time (by decide)).trans disciplined.time
  have counted : Frame [.tallies] s (s.count .ppsPulses) := State.count_frame _ (Frame.refl _ s) (by decide)
  have count : t.time.count = s.settledCount := by rw [time]; rfl
  have baseClamped : s.baseClamped = true ↔ s.time.firstLoad = true ∧ s.newBase ≠ s.time.measured := by simp [State.baseClamped]
  have slewClamped : s.slewClamped s.newBase = true ↔ s.time.firstLoad = true ∧ 0 < s.phase ∧ s.phase ≤ 1000 ∧
      s.newBase - slewLoss s.newBase s.phase < s.gen.rateLow := by simp [State.slewClamped]
  refine ⟨t, s.gen.rateLow, s.gen.rateHigh, s.time.measured, s.newBase, s.phase, slewLoss s.newBase s.phase, next, rfl, rfl,
    fun p last locked soon => ?measured, TimeBase.measured_none, rfl, rfl, rfl, ?time, ?pending, ?tallies, ?wires, ?frame⟩
  case measured =>
    refine TimeBase.measured_eq locked last ?_ soon
    rcases taken with ⟨-, late⟩ | holdover
    · exact late p last
    · rw [locked] at holdover
      cases holdover
  case time =>
    have rate : (s.count .ppsPulses).measure.settledRate = if s.time.firstLoad = false then 171798692
        else if s.phase = 0 ∨ 500000 < s.phase then s.newBase
        else if s.phase ≤ 1000 then max s.gen.rateLow (s.newBase - slewLoss s.newBase s.phase) else s.gen.rateLow := by
      refine (State.measure_settledRate _).trans ?_
      change (if s.time.firstLoad = false then (if 0 < s.phase ∧ s.phase ≤ 1000 then s.time.rateWord else 171798692) else _) = _
      by_cases unloaded : s.time.firstLoad = false
      · have word : s.time.rateWord = 171798692 := by
          unfold RatesOk at rates
          rwa [if_neg (unloaded ▸ Bool.false_ne_true)] at rates
        rw [if_pos unloaded, if_pos unloaded, word, ite_self]
      · rw [if_neg unloaded, if_neg unloaded]
        rfl
    rw [count, time, rate]
    rfl
  case pending =>
    rw [pending, disciplined.pending, raised_twice]
    congr 3
    refine if_congr ?_ rfl rfl
    refine (or_congr baseClamped slewClamped).trans ?_
    rw [← and_or_left]
  case tallies =>
    obtain ⟨a, first, second⟩ := disciplined.tallies
    refine ⟨_, _, rfl, rfl, ?_⟩
    have told : t.tallies = d.tallies := after .tallies (by decide)
    rw [told, second, first]
    change (if s.slewClamped s.newBase = true then (if s.baseClamped = true then _ else _ : State).count .rateLimitHits
      else (if s.baseClamped = true then _ else _ : State)).tallies = _
    simp only [baseClamped, slewClamped]
  case wires =>
    rw [after .wires (by decide), disciplined.wires]
    rcases taken with ⟨locked, -⟩ | holdover
    · simp [locked]
    · simp [holdover]
  case frame =>
    have toEnd {x : State} (h : Frame [.time, .notices, .writer, .tallies, .wires] x d) :
        Frame [.time, .notices, .writer, .tallies, .wires] x t := h.andThen after (by decide)
    split
    next near => exact toEnd ((counted.mono (by decide)).trans (disciplined.near near))
    next far =>
      rw [count]
      have moved := State.moveDeadlines_congr (s.settledCount - s.time.count) (counted.mono (by decide))
      exact toEnd (moved.trans (disciplined.past (Nat.not_le.1 far)))

/-! ### The holdover deadline (R36) -/

/-- The holdover deadline as it expires. -/
theorem exec_holdoverDeadline {s : State} {d : Nat} (locked : s.time.state = .locked) (set : s.time.holdover = some d)
    (due : d ≤ s.time.count) : exec .holdoverDeadline s =
      done (((s.setTime fun t => { t with holdover := none }).setTimeState .holdover).raise .timeHoldover) :=
  if_pos ⟨locked, State.reached_of_due set due⟩

/-- A deadline that is absent or ahead of field time has not been reached (R38). -/
theorem State.not_reached {s : State} {at_ : Option Nat} (h : at_ = none ∨ ∃ d, at_ = some d ∧ s.time.count < d) :
    reached s.now at_ = false := by
  rcases h with rfl | ⟨d, rfl, ahead⟩
  · rfl
  · exact decide_eq_false (Nat.not_le.2 ahead)

/-- In another state than LOCKED, and before the deadline, nothing expires (log 1). -/
theorem exec_holdoverDeadline_nothing {s : State}
    (h : s.time.state ≠ .locked ∨ s.time.holdover = none ∨ ∃ d, s.time.holdover = some d ∧ s.time.count < d) :
    exec .holdoverDeadline s = .next s := by
  refine if_neg fun ⟨locked, due⟩ => ?_
  rcases h with other | notDue
  · exact other locked
  · rw [State.not_reached notDue] at due
    cases due

/-- A set of kinds holds each kind that it is made of. -/
theorem or_and_left (p x : BitVec 24) : (p ||| x) &&& x = x := by
  ext i
  simp only [BitVec.getElem_and, BitVec.getElem_or]
  cases p[i] <;> cases x[i] <;> rfl

/-- A kind that a set holds is held by every greater set. -/
theorem or_and_of_and {p x : BitVec 24} (y : BitVec 24) (h : p &&& x = x) : (p ||| y) &&& x = x := by
  rw [← h]
  ext i
  simp only [BitVec.getElem_and, BitVec.getElem_or]
  cases p[i] <;> cases x[i] <;> cases y[i] <;> rfl

/-- Settles O29: the deadline by `exec_holdoverDeadline`, the pulses by `exec_ppsPulse_disciplines`. -/
theorem holdoverDeadlineExpires : Obligations.HoldoverDeadlineExpires := by
  unfold Obligations.HoldoverDeadlineExpires
  refine ⟨fun d s locked set due => ⟨?expires, fun late => ?before⟩, fun s => exec_holdoverDeadline_nothing⟩
  case expires =>
    refine ⟨_, exec_holdoverDeadline locked set due, ?time, ?pending, ?wires, ?frame, ?pulse⟩
    case time => simp
    case pending => simp [State.setTimeState_status_pending]
    case wires => simp [State.setTimeState_wires, locked]
    case frame =>
      exact State.settle_frame (State.raise_frame _ (State.setTimeState_frame _ (State.setTime_frame _ (Frame.refl _ s) (by decide))
        (by decide)) (by decide)) (by decide)
    case pulse =>
      generalize made : ((State.setTime (fun t => { t with holdover := none }) s).setTimeState .holdover).raise .timeHoldover = x
      have state : x.settle.time.state = .holdover := by simp [← made]
      have raised : x.settle.status.pending &&& Notice.timeHoldover.bit = Notice.timeHoldover.bit := by
        rw [← made]
        simp only [State.settle_status, Status.choose_rest, State.raise_status_pending]
        exact or_and_left _ _
      obtain ⟨u, v, next, disciplined, after, pending⟩ := exec_ppsPulse_disciplines (s := x.settle) (.inr state)
      rw [if_pos state] at pending
      refine ⟨u, next, ?_, ?_, ?_⟩
      · rw [after .time (by decide), disciplined.time]
      · rw [pending, disciplined.pending]
        exact or_and_of_and _ (or_and_of_and _ (or_and_of_and _ (or_and_of_and _ raised)))
      · rw [pending]
        exact or_and_left _ _
  case before =>
    obtain ⟨u, v, next, disciplined, after, -⟩ := exec_ppsPulse_disciplines (.inl ⟨locked, late⟩)
    have time := (show u.time = v.time from after .time (by decide)).trans disciplined.time
    have holdover : u.time.holdover = some (min (u.time.count + 1500000) (2 ^ 48 - 1)) := by
      rw [time]
      rfl
    refine ⟨u, next, by rw [time], holdover, fun small => exec_holdoverDeadline_nothing (.inr (.inr ⟨_, holdover, ?_⟩))⟩
    exact lt_min (Nat.lt_add_of_pos_right (by decide)) small

/-! ### The aligning pulse (R32) -/

/-- A pulse in ALIGNING is the aligning pulse (R31). -/
theorem exec_ppsPulse_aligns {s : State} {sec : Nat} (aligning : s.time.state = .aligning) (target : s.time.target = some sec) :
    exec .ppsPulse s = done ((s.count .ppsPulses).alignPulse sec) := by
  have takes : (s.count .ppsPulses).takePulse = (s.count .ppsPulses).alignPulse sec := by
    unfold State.takePulse
    rw [State.count_time, aligning, target]
  rw [exec_ppsPulse, takes]

/-- The aligning pulse at a target instant that lies at or after field time (R32). -/
theorem State.alignPulse_steps {s : State} {sec : Nat} (ahead : s.time.count ≤ sec * 1000000) : s.alignPulse sec =
    ((((s.setTime fun t => { t with target := none }).stepTime (sec * 1000000)).setTime fun t =>
      { t with aligned := true }).recordPulse).raise .timeLocked := if_pos ahead

/-- The aligning pulse at a target instant that field time has passed (R32). -/
theorem State.alignPulse_passed {s : State} {sec : Nat} (passed : sec * 1000000 < s.time.count) : s.alignPulse sec =
    if s.time.aligned then
      ((((s.setTime fun t => { t with target := none }).raise .timeAhead).setTimeState .locked).raise .timeLocked).discipline
    else ((s.setTime fun t => { t with target := none }).raise .timeAhead).setTimeState .unset := if_neg (Nat.not_le.2 passed)

/-- The kinds that a discipline pulse raises. -/
def State.disciplineRaises (s : State) : BitVec 24 :=
  (if s.baseClamped then Notice.rateLimit.bit else 0) ||| (if s.slewClamped s.newBase then Notice.rateLimit.bit else 0) |||
    (if 1000 < s.phase ∧ s.phase ≤ 500000 then Notice.timeAhead.bit else 0)

theorem Disciplined.raises {s t : State} (h : Disciplined s t) : t.status.pending = s.status.pending ||| s.disciplineRaises := by
  rw [h.pending, State.disciplineRaises, BitVec.or_assoc, BitVec.or_assoc, BitVec.or_assoc]

/-- In LOCKED a discipline pulse announces no time state. -/
theorem Disciplined.wires_of_locked {s t : State} (h : Disciplined s t) (locked : s.time.state = .locked) : t.wires = s.wires := by
  rw [h.wires, if_pos locked, List.append_nil]

section
variable {s s' : State} (same : Frame [.notices, .writer, .wires] s s')
include same

/-- What a discipline pulse does rests on the time record and the general fields alone. -/
theorem State.discipline_terms_congr : s'.phase = s.phase ∧ s'.newBase = s.newBase ∧ s'.settledCount = s.settledCount ∧
    s'.measure.settledRate = s.measure.settledRate ∧ s'.baseClamped = s.baseClamped ∧
    s'.slewClamped s'.newBase = s.slewClamped s.newBase := by
  have time : s'.time = s.time := same .time (by decide)
  have gen : s'.gen = s.gen := State.gen_congr (same .control (by decide))
  have phase : s'.phase = s.phase := by simp only [State.phase, time]
  have base : s'.newBase = s.newBase := by simp only [State.newBase, time, gen]
  refine ⟨phase, base, ?_, ?_, ?_, ?_⟩
  · simp only [State.settledCount, phase, time]
  · rw [State.measure_settledRate, State.measure_settledRate, phase, base, time, gen]
  · simp only [State.baseClamped, base, time]
  · simp only [State.slewClamped, phase, base, time, gen]

/-- Two discipline pulses from states that agree but in notices, the status line writer and announcements leave states that do. -/
theorem Disciplined.congr {t t' : State} (h : Disciplined s t) (k : Disciplined s' t') : Frame [.notices, .writer, .wires] t t' := by
  have time : s'.time = s.time := same .time (by decide)
  obtain ⟨phase, base, count, rate, baseClamped, slewClamped⟩ := State.discipline_terms_congr same
  have timeEnd : t'.time = t.time := by rw [k.time, h.time, time, count, phase, base, rate]
  have talliesEnd : t'.tallies = t.tallies := by
    obtain ⟨a, first, second⟩ := h.tallies
    obtain ⟨a', first', second'⟩ := k.tallies
    have counted : a'.tallies = a.tallies := by
      rw [first, first', baseClamped]
      cases s.baseClamped with
      | false => exact same .tallies (by decide)
      | true => exact count_tallies_congr _ (same .tallies (by decide))
    rw [second, second', slewClamped]
    cases s.slewClamped s.newBase with
    | false => exact counted
    | true => exact count_tallies_congr _ counted
  have rest : Frame [.time, .notices, .writer, .tallies, .wires] t t' := by
    rcases Nat.lt_or_ge 500000 s.phase with past | near
    · have moved := State.moveDeadlines_congr (s.settledCount - s.time.count) (same.mono (by decide))
      have second := k.past (phase.symm ▸ past)
      rw [count, time] at second
      exact (h.past past).symm.trans (moved.trans second)
    · exact (h.near near).symm.trans ((same.mono (by decide)).trans (k.near (phase.symm ▸ near)))
  intro a out
  by_cases isTime : a = .time
  · exact isTime ▸ timeEnd
  · by_cases isTallies : a = .tallies
    · exact isTallies ▸ talliesEnd
    · exact rest a (by simp_all)

end

/-- A second that SET_TIME takes lies within the count of field time (R29). -/
theorem min_second_maxTime {sec : Nat} (small : sec ≤ 281474976) : min (sec * 1000000) maxTime = sec * 1000000 :=
  Nat.min_eq_left (by unfold maxTime; omega)

/-- A pulse after the instant of a part aligned before, but for what it tells, leaves the part as one in LOCKED (R32). -/
theorem State.lockedAgain_frame (s : State) : Frame [.notices, .writer, .wires]
    (({ s with time := { s.time with state := .locked, target := none } } : State).count .ppsPulses)
    (((((s.count .ppsPulses).setTime fun t => { t with target := none }).raise .timeAhead).setTimeState .locked).raise .timeLocked) := by
  have counted : Frame [.time, .notices, .writer, .wires]
      (({ s with time := { s.time with state := .locked, target := none } } : State).count .ppsPulses) (s.count .ppsPulses) := by
    intro a out
    cases a <;> simp_all [Same]
  intro a out
  by_cases isTime : a = .time
  · subst isTime
    show _ = _
    simp
  · exact State.raise_frame _ (State.setTimeState_frame _ (State.raise_frame _ (State.setTime_frame _ counted (by decide)) (by decide))
      (by decide)) (by decide) a (by simpa [isTime] using out)

/-- Settles O27: the step by `State.alignPulse_steps`, the pulse dropped by `State.alignPulse_passed`, and the discipline pulse of a part
aligned before by `Disciplined.congr`. -/
theorem aligningPulse : Obligations.AligningPulse := by
  unfold Obligations.AligningPulse
  intro sec s aligning target small
  have next := exec_ppsPulse_aligns aligning target
  refine ⟨fun ahead => ?ahead, fun passed unaligned => ?unset, fun passed aligned noPulse => ?locked⟩
  case ahead =>
    rw [State.alignPulse_steps (s := s.count .ppsPulses) ahead] at next
    refine ⟨_, _, next, rfl, ?_⟩
    have instant := min_second_maxTime small
    have whole : second (sec * 1000000) = sec := Nat.mul_div_cancel sec (by decide)
    have recorded (x : State) : Frame [.time, .notices, .writer, .wires]
        x ((x.setTime fun t => { t with aligned := true }).recordPulse.raise .timeLocked).settle :=
      State.settle_frame (State.raise_frame _ (State.recordPulse_frame (State.setTime_frame _ (Frame.refl _ x) (by decide)) (by decide))
        (by decide)) (by decide)
    have stepped := State.stepTime_moves (sec * 1000000) ((s.count .ppsPulses).setTime fun t => { t with target := none })
    rw [instant] at stepped
    have whole_ := (stepped.mono (by decide)).trans (recorded _)
    refine ⟨?time, ?pending, whole_ .tallies (by decide), ?wires, whole_ .intake (by decide), whole_ .engine (by decide),
      whole_ .sched (by decide), whole_ .assoc (by decide), whole_ .clip (by decide), whole_ .guard (by decide), whole_ .attend (by decide),
      ?frame⟩
    case time =>
      simp only [State.settle_time, State.raise_time, State.recordPulse_time, State.setTime_time, State.stepTime_time, State.count_time, instant,
        whole]
      rfl
    case pending =>
      simp [State.recordPulse_status_pending, State.stepTime_status_pending]
    case wires =>
      have before : (State.stepTime (sec * 1000000) (State.setTime (fun t => { t with target := none }) (s.count .ppsPulses))).wires =
        s.wires := stepped .wires (by decide)
      simp [State.recordPulse_wires, State.stepTime_time, before, aligning]
    case frame =>
      rw [← State.alignPulse_steps (s := s.count .ppsPulses) ahead]
      exact State.settle_frame (State.alignPulse_frame _ (State.count_frame _ (Frame.refl _ s) (by decide)) (by decide)) (by decide)
  case unset =>
    rw [State.alignPulse_passed (s := s.count .ppsPulses) passed, State.count_time, if_neg (unaligned ▸ Bool.false_ne_true)] at next
    refine ⟨_, next, by simp, by simp [State.setTimeState_status_pending], by simp,
      by simp [State.setTimeState_wires, aligning], ?_⟩
    exact State.settle_frame (State.setTimeState_frame _ (State.raise_frame _ (State.setTime_frame _ (State.count_frame _ (Frame.refl _ s)
      (by decide)) (by decide)) (by decide)) (by decide)) (by decide)
  case locked =>
    rw [State.alignPulse_passed (s := s.count .ppsPulses) passed, State.count_time, if_pos aligned] at next
    have plain : exec .ppsPulse { s with time := { s.time with state := .locked, target := none } } =
        done (({ s with time := { s.time with state := .locked, target := none } } : State).count .ppsPulses).discipline := by
      rw [exec_ppsPulse]
      refine congrArg done ((State.takePulse_disciplines (.inl ⟨rfl, fun p last => ?_⟩)).trans (if_neg nofun))
      rw [show s.time.lastPulse = some p from last] at noPulse
      cases noPulse
    generalize made : ((((s.count .ppsPulses).setTime fun t => { t with target := none }).raise .timeAhead).setTimeState
      .locked).raise .timeLocked = x at next
    have base : Frame [.notices, .writer, .wires]
        (({ s with time := { s.time with state := .locked, target := none } } : State).count .ppsPulses) x := made ▸ s.lockedAgain_frame
    have xPending : x.status.pending = s.status.pending ||| Notice.timeAhead.bit ||| Notice.timeLocked.bit := by
      simp [← made, State.setTimeState_status_pending]
    have xWires : x.wires = { s.wires with sched := s.wires.sched ++ [.time .locked] } := by
      simp [← made, State.setTimeState_wires, aligning]
    have xLocked : x.time.state = .locked := by simp [← made]
    have first := State.discipline_disciplines (({ s with time := { s.time with state := .locked, target := none } } : State).count .ppsPulses)
    have second := State.discipline_disciplines x
    have raises : x.disciplineRaises = (({ s with time := { s.time with state := .locked, target := none } } : State).count .ppsPulses).disciplineRaises := by
      obtain ⟨phase, -, -, -, baseClamped, slewClamped⟩ := State.discipline_terms_congr base
      unfold State.disciplineRaises
      rw [phase, baseClamped, slewClamped]
    refine ⟨_, _, plain, next, ?pending, ?wires, ?frame⟩
    case pending =>
      simp only [State.settle_status, Status.choose_rest, second.raises, first.raises, xPending, raises]
      change _ = (s.status.pending ||| _) ||| _ ||| _
      ac_rfl
    case wires =>
      simp only [State.settle_wires, second.wires_of_locked xLocked, first.wires_of_locked rfl, xWires]
      rfl
    case frame =>
      exact State.settle_frame (((State.settle_frame (Frame.refl [.notices, .writer, .wires] _) (by decide)).symm).trans (first.congr base second))
        (by decide)

end Sys2Proof.Machine
end

section
/-! SUPPORT. Words of the setup areas by their class (R42, R69, R85, R151), and the schedule's move by its conditions (R71). -/
namespace Sys2Proof.Machine

/-! ### A setup area takes a write word by word (R126, R151) -/

/-- A word with a strobe clear is not handed over (R126). -/
theorem fullWord_of_clear {word : List (Option Byte)} (clear : none ∈ word) : fullWord word = none :=
  if_neg fun all => Bool.noConfusion (List.all_eq_true.1 all none clear)

theorem State.takeWords_clear (lo hi tag off : Nat) {word : List (Option Byte)} (s : State) (one : word.length = 8) (clear : none ∈ word) :
    s.takeWords lo hi ⟨tag, off, word⟩ = s := by
  have words : wordsFrom (word.length / 8) off word = [(off, word)] := by
    rw [show word.length / 8 = 1 by omega]
    exact congrArg (fun bs => [(off, bs)]) (List.take_of_length_le one.le)
  unfold State.takeWords
  simp only [words, List.filter_cons, List.filter_nil]
  split <;> simp [fullWord_of_clear clear]

/-- The area from `lo` up to `hi` takes a write word by word, by `State.takeWords_split` (log 15). -/
theorem wordByWord_of_area {mk : PageWrite → Instr} (lo hi : Nat) (area : ∀ w s, exec (mk w) s = done (s.setupWrite lo hi w)) :
    WordByWord mk where
  words tag off front rest s takes whole := by
    have first := State.setupWrite_takes takes lo hi ⟨tag, off, front⟩
    have both := State.setupWrite_takes takes lo hi ⟨tag, off, front ++ rest⟩
    have takesNext : (s.takeWords lo hi ⟨tag, off, front⟩).settle.control.part.takesSetup = true := by
      rw [State.settle_control, State.takeWords_part]
      exact takes
    have second := State.setupWrite_takes takesNext lo hi ⟨tag, off + front.length, rest⟩
    obtain ⟨tallies, frame⟩ := State.takeWords_split lo hi tag off front rest s whole _ _ _ rfl rfl rfl
    refine ⟨_, _, _, (area _ s).trans (congrArg done both), (area _ s).trans (congrArg done first),
      (area _ _).trans (congrArg done second), tallies, ?_⟩
    have settled (x : State) : Frame [.writer, .tallies] x x.settle := State.settle_frame (Frame.refl _ x) (by decide)
    exact ((settled _).symm.trans frame).trans (settled _)
  strobes tag off word s takes one clear := by
    refine ⟨_, area _ s, ?_⟩
    rw [State.setupWrite_takes takes, State.takeWords_clear _ _ _ _ _ one clear]
    exact done_self_frame s

/-- One word with all its strobes set (R151). -/
theorem exec_setupWord {mk : PageWrite → Instr} {lo hi : Nat} (area : ∀ w s, exec (mk w) s = done (s.setupWrite lo hi w)) {s : State}
    (takes : s.control.part.takesSetup = true) (tag : Nat) {off : Nat} {w : List Byte} (eight : w.length = 8) (low : lo ≤ off)
    (high : off < hi) : exec (mk ⟨tag, off, strobed w⟩) s = done (Taken.finish (State.setupWord off w (s, false))) := by
  rw [area, State.setupWrite_takes takes, State.takeWords_one _ _ _ _ _ _ eight low high]
  rfl

theorem State.setupIgnored_counted (s : State) : s.setupIgnored.tallies = (s.count .setupIgnored).tallies :=
  count_tallies_congr _ (State.raise_tallies _ s)

/-- What a word that is not taken does (R151). -/
theorem exec_notTaken {i : Instr} {s : State} (e : exec i s = done (Taken.finish (notTaken s))) :
    ∃ t, exec i s = .next t ∧ t.status.pending = s.status.pending ||| Notice.setupIgnored.bit ∧
      t.tallies = (s.count .setupIgnored).tallies ∧ Frame [.notices, .writer, .tallies] s t := by
  refine ⟨_, e, ?_, s.setupIgnored_counted, State.settle_frame (State.setupIgnored_frame (Frame.refl _ s) (by decide)) (by decide)⟩
  simp only [State.settle_status, Status.choose_rest]
  exact s.setupIgnored_raised

/-- The end of a setup write, area by area (R151). -/
theorem Taken.finish_areas (t : Taken) : (Taken.finish t).control = t.1.control ∧ (Taken.finish t).engine = t.1.engine ∧
    (Taken.finish t).sched = t.1.sched ∧ (Taken.finish t).wires = t.1.wires ∧ (Taken.finish t).attend = t.1.attend := by
  unfold Taken.finish
  split <;> simp

theorem Taken.finish_frame (t : Taken) : Frame [.notices, .writer, .tallies] t.1 (Taken.finish t) := by
  unfold Taken.finish
  split
  · exact State.setupIgnored_frame (Frame.refl _ t.1) (by decide)
  · exact Frame.refl _ t.1

/-- A setup write tells of what was not taken (R151; log 15). -/
theorem Taken.finish_tells {s : State} {t : Taken} (pending : t.1.status.pending = s.status.pending) (tallies : t.1.tallies = s.tallies) :
    if t.2 = true then (Taken.finish t).settle.status.pending = s.status.pending ||| Notice.setupIgnored.bit ∧
        (Taken.finish t).settle.tallies = (s.count .setupIgnored).tallies
      else (Taken.finish t).settle.status.pending = s.status.pending ∧ (Taken.finish t).settle.tallies = s.tallies := by
  unfold Taken.finish
  cases t.2 with
  | true =>
    simp only [if_true, State.settle_status, State.settle_tallies, Status.choose_rest, State.setupIgnored_raised, State.setupIgnored_counted,
      pending, true_and]
    exact count_tallies_congr _ tallies
  | false => simp [pending, tallies]

/-! ### The zone table and the schedule banks (R69, R85) -/

/-- Settles O24. -/
theorem zoneAndBankWordsByClass : Obligations.ZoneAndBankWordsByClass := by
  unfold Obligations.ZoneAndBankWordsByClass
  refine ⟨wordByWord_of_area 0xE00 0x1000 fun _ _ => rfl, wordByWord_of_area 0x1000 0x1300 fun _ _ => rfl,
    fun tag off w s takes eight _ => ⟨fun low high => ?zone, fun low high => ?bankA, fun low high => ?bankB⟩⟩
  case zone =>
    refine exec_notTaken ((exec_setupWord (mk := .zoneTableWrite) (fun _ _ => rfl) takes tag eight low high).trans ?_)
    have word : State.setupWord off w (s, false) = notTaken s := by
      unfold State.setupWord
      rw [if_neg (by omega), if_neg (by omega), if_neg (by omega), if_pos high]
    rw [word]
  case bankA =>
    have e := exec_setupWord (mk := .scheduleBankWrite) (fun _ _ => rfl) takes tag eight low (Nat.lt_trans high (by decide))
    have word : State.setupWord off w (s, false) = State.bankWord off w (s, false) := by
      unfold State.setupWord
      rw [if_neg (by omega), if_neg (by omega), if_neg (by omega), if_neg (by omega), if_pos (by omega)]
    have bank : bankAt off = .a := if_pos high
    have entry : entryAt off = (off - 0x1000) / 8 := if_pos high
    rw [word, State.bankWord, bank, entry] at e
    refine ⟨fun active => exec_notTaken (e.trans ?_), fun inactive => ?_⟩
    · rw [if_pos active]
    · rw [if_neg inactive] at e
      exact ⟨_, e, ⟨_, rfl, rfl⟩, State.settle_frame (State.setSched_frame _ (Frame.refl _ s) (by decide)) (by decide)⟩
  case bankB =>
    have e := exec_setupWord (mk := .scheduleBankWrite) (fun _ _ => rfl) takes tag eight (Nat.le_trans (by decide) low) high
    have word : State.setupWord off w (s, false) = State.bankWord off w (s, false) := by
      unfold State.setupWord
      rw [if_neg (by omega), if_neg (by omega), if_neg (by omega), if_neg (by omega), if_pos (by omega)]
    have bank : bankAt off = .b := if_neg (by omega)
    have entry : entryAt off = (off - 0x1180) / 8 := if_neg (by omega)
    rw [word, State.bankWord, bank, entry] at e
    refine ⟨fun active => exec_notTaken (e.trans ?_), fun inactive => ?_⟩
    · rw [if_pos active]
    · rw [if_neg inactive] at e
      exact ⟨_, e, ⟨_, rfl, rfl⟩, State.settle_frame (State.setSched_frame _ (Frame.refl _ s) (by decide)) (by decide)⟩

/-! ### The station table (R42, R60, R61) -/

theorem State.setStation_control (s : State) {u : Setup} {st : Nat} {e : StationEntry} (f : StationEntry → StationEntry)
    (setup : s.control.setup = some u) (entry : u.stations[st]? = some e) :
    (s.setStation st f).control = { s.control with setup := some { u with stations := u.stations.set st (f e) } } := by
  show ({ s.control with setup := s.control.setup.map fun u => { u with stations := u.stations.modify st f } } : Control) = _
  rw [setup, Option.map_some, List.modify_eq_set_getElem?, entry]
  rfl

theorem State.setDetector_set {s : State} {st : Nat} {d : Detector} (f : Detector → Detector) (at_ : s.engine[st]? = some d) :
    (s.setDetector st f).engine = s.engine.set st (f d) := by
  rw [State.setDetector_engine, List.modify_eq_set_getElem?, at_]
  rfl

/-- A word of the station `st` at offset `o` of its entry. -/
theorem setupWord_station {st o : Nat} (small : st < 96) (inside : o < 32) (w : List Byte) (s : State) :
    State.setupWord (0x200 + 32 * st + o) w (s, false) =
      if o = 0 then notTaken s
      else if o = 8 then State.writeEnabled st (field w 0 1) (s, false)
      else if o = 16 then
        (s.stage st fun g =>
          { g with
            shortExp := some (field w 0 1), longExp := some (field w 1 1), onRatio := some (field w 2 2), offRatio := some (field w 4 2),
            minOn := some (field w 6 1) }, false)
      else (s.stage st fun g => { g with deadTime := some (field w 0 2), maxOn := some (field w 2 2) }, false) := by
  have station : (0x200 + 32 * st + o - 0x200) / 32 = st := by omega
  have rest : (0x200 + 32 * st + o - 0x200) % 32 = o := by omega
  unfold State.setupWord State.stationWord
  rw [if_neg (by omega), if_neg (by omega), if_pos (by omega), station, rest]

theorem set_of_getElem? {α : Type} {l : List α} {i : Nat} {a : α} (at_ : l[i]? = some a) : l.set i a = l := by
  obtain ⟨small, rfl⟩ := List.getElem?_eq_some_iff.1 at_
  exact List.set_getElem_self small

/-- The closure that a disable sends (R60). -/
theorem Detector.disableClosure_triggered {d : Detector} {p : OpenPick} {last : Nat} (st : Nat) (state : d.state = .triggered)
    (pick : d.openPick = some p) (next : d.nextTime = some last) :
    d.disableClosure st = [.closure st p.onset ⟨true, if d.count ≤ 1 then p.onset else last, p.peak⟩] := by
  unfold Detector.disableClosure
  rw [state, pick, next]
  rfl

theorem Detector.disableClosure_other {d : Detector} (st : Nat) (state : d.state ≠ .triggered) : d.disableClosure st = [] := by
  unfold Detector.disableClosure
  split
  next triggered _ => exact absurd triggered state
  next => rfl

/-- A disable takes the detector to OFF in LISTENING (R60; log 44). -/
def Detector.disabled (d : Detector) : Detector :=
  { d with state := .off, openPick := none, startPending := false, silence := none, silent := false }

/-- An enable in LISTENING awaits the next block (R61). -/
def Detector.enabled (silence : Nat) (d : Detector) : Detector := { d with startPending := true, silence := some silence }

theorem State.silenceAt_eq {s : State} {u : Setup} (setup : s.control.setup = some u) :
    s.silenceAt = min (s.time.count + u.gen.silenceLimit * 1000000) (2 ^ 48 - 1) := by
  unfold State.silenceAt State.gen
  rw [setup]
  rfl

/-- What a write of `enabled` leaves of the setup, the detector and what is sent (R42, R60, R61), from `s` to `t`. -/
structure EnabledWritten (st : Nat) (u : Setup) (e : StationEntry) (v : Bool) (d : Detector) (sent : List AssocMsg) (s t : State) : Prop where
  control : t.control = { s.control with setup := some { u with stations := u.stations.set st { e with enabled := v } } }
  engine : t.engine = s.engine.set st d
  wires : t.wires = { s.wires with toAssoc := s.wires.toAssoc ++ sent }
  frame : Frame [.control, .engine, .wires] s t

section
variable {s : State} {st : Nat} {u : Setup} {e : StationEntry} {d : Detector} (setup : s.control.setup = some u)
  (entry : u.stations[st]? = some e) (at_ : s.engine[st]? = some d)
include setup entry at_

theorem enabledWritten_same : EnabledWritten st u e e.enabled d [] s s where
  control := by
    rw [show ({ e with enabled := e.enabled } : StationEntry) = e from rfl, set_of_getElem? entry, ← setup]
  engine := (set_of_getElem? at_).symm
  wires := by rw [List.append_nil]
  frame := Frame.refl _ s

theorem State.disable_written : EnabledWritten st u e false (if s.control.part = .listening then d.disabled else d)
    (if s.control.part = .listening then d.disableClosure st else []) s (s.disable st) := by
  have control := State.setStation_control s (fun e => { e with enabled := false }) setup entry
  have frame := State.disable_frame st (Frame.refl [.control, .engine, .wires] s) (by decide)
  have now : (s.setStation st fun e => { e with enabled := false }).engine[st]? = some d := at_
  unfold State.disable at frame ⊢
  by_cases listening : s.control.part = .listening
  · simp only [if_pos listening, at_] at frame ⊢
    exact ⟨control, State.setDetector_set _ now, rfl, frame⟩
  · simp only [if_neg listening] at frame ⊢
    exact ⟨control, (set_of_getElem? at_).symm, by simp, frame⟩

theorem State.enable_written : EnabledWritten st u e true (if s.control.part = .listening then d.enabled s.silenceAt else d) [] s
    (s.enable st) := by
  have control := State.setStation_control s (fun e => { e with enabled := true }) setup entry
  have frame := State.enable_frame st (Frame.refl [.control, .engine, .wires] s) (by decide)
  have now : (s.setStation st fun e => { e with enabled := true }).engine[st]? = some d := at_
  unfold State.enable at frame ⊢
  by_cases listening : s.control.part = .listening
  · simp only [if_pos listening] at frame ⊢
    exact ⟨control, State.setDetector_set _ now, by simp, frame⟩
  · simp only [if_neg listening] at frame ⊢
    exact ⟨control, (set_of_getElem? at_).symm, by simp, frame⟩

/-- A write of `enabled` by its value (R42). -/
theorem State.writeEnabled_written (v : Nat) : ∃ t, State.writeEnabled st v (s, false) = (t, decide (1 < v)) ∧
    EnabledWritten st u e (if v = 0 then false else if v = 1 then true else e.enabled)
      (if v = 0 ∧ e.enabled = true ∧ s.control.part = .listening then d.disabled
        else if v = 1 ∧ e.enabled = false ∧ s.control.part = .listening then d.enabled s.silenceAt else d)
      (if v = 0 ∧ e.enabled = true ∧ s.control.part = .listening then d.disableClosure st else []) s t := by
  have same := enabledWritten_same setup entry at_
  have station : s.station st = some e := by
    unfold State.station
    rw [setup]
    exact entry
  unfold State.writeEnabled
  simp only [station]
  match v with
  | 0 =>
    cases on : e.enabled with
    | true => exact ⟨_, rfl, by simpa using State.disable_written setup entry at_⟩
    | false => exact ⟨_, rfl, by simpa [on] using same⟩
  | 1 =>
    cases on : e.enabled with
    | true => exact ⟨_, rfl, by simpa [on] using same⟩
    | false => exact ⟨_, rfl, by simpa using State.enable_written setup entry at_⟩
  | v + 2 => exact ⟨s, by simp, by simpa using same⟩

end

/-- A staged word enters the staged copy (R42). -/
theorem exec_staged {i : Instr} {s : State} {st : Nat} {d : Detector} {f : StagedTuning → StagedTuning} (at_ : s.engine[st]? = some d)
    (e : exec i s = done (Taken.finish (s.stage st f, false))) : ∃ t, exec i s = .next t ∧
      t.engine = s.engine.set st { d with staged := f d.staged } ∧ Frame [.engine, .writer] s t :=
  ⟨_, e, State.setDetector_set (fun d => { d with staged := f d.staged }) at_,
    State.settle_frame (State.stage_frame st f (Frame.refl [.engine, .writer] s) (by decide)) (by decide)⟩

/-- Settles O23: each word by `setupWord_station`, the live one by `State.writeEnabled_written`. -/
theorem stationWordByClass : Obligations.StationWordByClass := by
  unfold Obligations.StationWordByClass
  refine ⟨wordByWord_of_area 0x200 0xE00 fun _ _ => rfl, fun tag st o w s u e d setup takes eight small entry at_ => ?_⟩
  have word (inside : o < 32) : exec (.stationTableWrite ⟨tag, 0x200 + 32 * st + o, strobed w⟩) s = done (Taken.finish _) :=
    (exec_setupWord (mk := .stationTableWrite) (lo := 0x200) (hi := 0xE00) (fun _ _ => rfl) takes tag eight (by omega) (by omega)).trans
      (congrArg (fun t => done (Taken.finish t)) (setupWord_station small inside w s))
  refine ⟨fun locked => ?locked, fun live => ?live, fun staged => ?staged, fun staged => ?times⟩
  case locked =>
    subst locked
    exact exec_notTaken (word (by decide))
  case live =>
    subst live
    obtain ⟨x, written, outcome⟩ := State.writeEnabled_written setup entry at_ (field w 0 1)
    have e' := word (by decide)
    rw [if_neg (by decide), if_pos rfl, written] at e'
    obtain ⟨control, engine, -, wires, -⟩ := Taken.finish_areas (x, decide (1 < field w 0 1))
    refine ⟨_, _, e', engine.trans outcome.engine, ⟨_, rfl, control.trans outcome.control⟩, ?detector,
      ⟨_, wires.trans outcome.wires, fun p last zero on listening state pick next => ?closes, fun other => ?sendsNone⟩, ?told, ?frame⟩
    case detector =>
      rw [State.silenceAt_eq setup]
      by_cases off : field w 0 1 = 0 ∧ e.enabled = true ∧ s.control.part = .listening
      · rw [if_pos off, if_pos off]
        rfl
      · rw [if_neg off, if_neg off]
        split <;> rfl
    case closes =>
      rw [if_pos ⟨zero, on, listening⟩]
      exact Detector.disableClosure_triggered st state pick next
    case sendsNone =>
      by_cases off : field w 0 1 = 0 ∧ e.enabled = true ∧ s.control.part = .listening
      · obtain ⟨zero, on, listening⟩ := off
        rw [if_pos ⟨zero, on, listening⟩]
        exact Detector.disableClosure_other st (by simpa [zero, on, listening] using other)
      · exact if_neg off
    case told =>
      have told := Taken.finish_tells (s := s) (t := (x, decide (1 < field w 0 1))) (outcome.frame .notices (by decide)).1
        (outcome.frame .tallies (by decide))
      simpa only [decide_eq_true_eq] using told
    case frame =>
      exact State.settle_frame ((outcome.frame.mono (by decide)).trans ((Taken.finish_frame (x, decide (1 < field w 0 1))).mono (by decide)))
        (by decide)
  case staged =>
    subst staged
    have e' := word (by decide)
    rw [if_neg (by decide), if_neg (by decide), if_pos rfl] at e'
    exact exec_staged at_ e'
  case times =>
    subst staged
    have e' := word (by decide)
    rw [if_neg (by decide), if_neg (by decide), if_neg (by decide)] at e'
    exact exec_staged at_ e'

end Sys2Proof.Machine
end

section
/-! SUPPORT. Words of the general setup by their class (R151, R168, R175), and the schedule's move by its conditions (R71). -/
namespace Sys2Proof.Machine

/-! ### The schedule moves by its three conditions (R71) -/

@[simp] theorem State.setSchedState_sched (x : SchedState) (s : State) : (s.setSchedState x).sched = { s.sched with state := x } := by
  unfold State.setSchedState
  by_cases same : x = s.sched.state <;> simp [same]

/-- The internal timer is set from a field time, when the reference is INTERNAL (R73). -/
theorem State.startTimer_sched (t : Nat) (s : State) : (s.startTimer t).sched = { s.sched with
    timer := if s.gen.refSource = .internal then some (min (t + s.sched.period.getD 0 * 100) (2 ^ 48 - 1)) else s.sched.timer } := by
  unfold State.startTimer
  by_cases internal : s.gen.refSource = .internal
  · simp only [if_pos internal]
    rfl
  · simp only [if_neg internal]

theorem Interval.isOpen_iff (v : Interval) : v.isOpen = true ↔ v.endT = none := Option.isNone_iff_eq_none

theorem closeAll_eq (t : Nat) (vs : List Interval) :
    closeAll t vs = vs.map fun v => if v.endT = none then { v with endT := some t } else v := by
  unfold closeAll
  simp only [Interval.isOpen_iff]

theorem SchedState.running_iff (x : SchedState) : x.running = true ↔ x ≠ .idle ∧ x ≠ .waitTime := by
  cases x <;> decide

theorem TimeState.onEpoch_iff (x : TimeState) : x.onEpoch = true ↔ x = .locked ∨ x = .holdover := by
  cases x <;> decide

/-- Leaving the running states (R71, R81). -/
theorem State.stopSchedule_running {s : State} (x : SchedState) (running : s.sched.state.running = true) :
    (s.stopSchedule x).sched = { s.sched with
      state := x, cycleStart := none, pointer := none, markDeadline := none, timer := none, lastRef := none,
      cycleCount := some s.gen.cycleMax,
      intervals := s.sched.intervals.map fun v => if v.endT = none then { v with endT := some s.time.count } else v } := by
  unfold State.stopSchedule
  rw [if_pos running, State.setSchedState_sched, ← closeAll_eq]
  rfl

theorem State.stopSchedule_still {s : State} (x : SchedState) (still : ¬ s.sched.state.running = true) :
    (s.stopSchedule x).sched = { s.sched with state := x } := by
  unfold State.stopSchedule
  rw [if_neg still, State.setSchedState_sched]

/-- Entry to WAIT_REF (R71, R73). -/
theorem State.enterWaitRef_sched (s : State) : s.enterWaitRef.sched = { s.sched with
    state := .waitRef, cycleCount := some s.gen.cycleMax, lastRef := none,
    timer := if s.gen.refSource = .internal then some (min (s.time.count + s.sched.period.getD 0 * 100) (2 ^ 48 - 1))
      else s.sched.timer } := by
  unfold State.enterWaitRef
  rw [State.setSchedState_sched, State.startTimer_sched]
  rfl

/-- IDLE or WAIT_TIME is entered. -/
theorem State.stopSchedule_moved {s : State} {x : SchedState} {a b c : Prop}
    (idle : ¬ a ∨ ¬ b → x = .idle) (waitTime : a → b → ¬ c → x = .waitTime) (off : ¬ (a ∧ b ∧ c)) :
    ScheduleMoved a b c s (s.stopSchedule x).sched := by
  have state : (s.stopSchedule x).sched.state = x := by
    by_cases running : s.sched.state.running = true
    · rw [State.stopSchedule_running x running]
    · rw [State.stopSchedule_still x running]
  exact {
    idle := fun h => state.trans (idle h)
    waitTime := fun h k l => state.trans (waitTime h k l)
    waitRef := fun h k l => absurd ⟨h, k, l⟩ off
    kept := fun h k l => absurd ⟨h, k, l⟩ off
    left := fun notIdle notWait _ => by
      rw [State.stopSchedule_running x ((SchedState.running_iff _).2 ⟨notIdle, notWait⟩)]
    still := fun still _ => by
      rw [State.stopSchedule_still x fun running => ?_]
      obtain ⟨notIdle, notWait⟩ := (SchedState.running_iff _).1 running
      exact still.elim notIdle notWait }

/-- The move of the schedule by its conditions is the table's (R71). -/
theorem State.applyConditions_moved (p : PartState) (x : TimeState) (s : State) :
    ScheduleMoved (p = .listening) (s.gen.scheduleEnable = true) (x = .locked ∨ x = .holdover) s (s.applyConditions p x).sched := by
  rw [← TimeState.onEpoch_iff]
  unfold State.applyConditions
  by_cases out : p ≠ .listening ∨ s.gen.scheduleEnable = false
  · rw [if_pos out]
    have off : ¬ (p = .listening ∧ s.gen.scheduleEnable = true) := fun ⟨a, b⟩ => out.elim (absurd a) fun c => by simp [b] at c
    exact State.stopSchedule_moved (fun _ => rfl) (fun a b _ => absurd ⟨a, b⟩ off) fun ⟨a, b, _⟩ => off ⟨a, b⟩
  · rw [if_neg out]
    have on : p = .listening ∧ s.gen.scheduleEnable = true := by simpa [not_or] using out
    by_cases epoch : x.onEpoch = false
    · rw [if_pos epoch]
      exact State.stopSchedule_moved (fun h => absurd on (not_and_or.2 h)) (fun _ _ _ => rfl)
        fun ⟨_, _, c⟩ => by simp [epoch] at c
    · rw [if_neg epoch]
      have epochOn : x.onEpoch = true := by simpa using epoch
      by_cases running : s.sched.state.running = true
      · rw [if_pos running]
        obtain ⟨notIdle, notWait⟩ := (SchedState.running_iff _).1 running
        exact {
          idle := fun h => absurd on (not_and_or.2 h)
          waitTime := fun _ _ h => absurd epochOn h
          waitRef := fun _ _ _ h => (h.elim notIdle notWait).elim
          kept := fun _ _ _ _ _ => rfl
          left := fun _ _ h => (h.elim notIdle notWait).elim
          still := fun _ _ => rfl }
      · rw [if_neg running]
        have state : s.enterWaitRef.sched.state = .waitRef := by rw [State.enterWaitRef_sched]
        exact {
          idle := fun h => absurd on (not_and_or.2 h)
          waitTime := fun _ _ h => absurd epochOn h
          waitRef := fun _ _ _ _ => s.enterWaitRef_sched
          kept := fun _ _ _ notIdle notWait => absurd ((SchedState.running_iff _).2 ⟨notIdle, notWait⟩) running
          left := fun notIdle notWait _ => absurd ((SchedState.running_iff _).2 ⟨notIdle, notWait⟩) running
          still := fun _ h => by simp [state] at h }

/-- A move of the schedule reads its record, the count of field time and two of the general fields. -/
theorem ScheduleMoved.congr {a b c a' b' c' : Prop} {s s' : State} {r : Schedule} (h : ScheduleMoved a b c s r) (listening : a ↔ a')
    (enabled : b ↔ b') (epoch : c ↔ c') (sched : s'.sched = s.sched) (count : s'.time.count = s.time.count)
    (cycleMax : s'.gen.cycleMax = s.gen.cycleMax) (refSource : s'.gen.refSource = s.gen.refSource) : ScheduleMoved a' b' c' s' r := by
  obtain rfl := propext listening
  obtain rfl := propext enabled
  obtain rfl := propext epoch
  obtain ⟨idle, waitTime, waitRef, kept, left, still⟩ := h
  constructor
  · exact idle
  · exact waitTime
  · rw [sched, count, cycleMax, refSource]
    exact waitRef
  · rw [sched]
    exact kept
  · rw [sched, count, cycleMax]
    exact left
  · rw [sched]
    exact still

/-! ### Words of the general setup (R151) -/

/-- What words of the general setup leave, from `s` to `t`: `g` in force, `b` when a field was not taken (R151). -/
structure GeneralTaken (s : State) (u : Setup) (g : General) (b : Bool) (t : Taken) : Prop where
  control : t.1.control = { s.control with setup := some { u with gen := g } }
  ignored : t.2 = b
  frame : Frame [.control, .sched, .attend, .notices, .writer] s t.1
  pending : t.1.status.pending = s.status.pending

theorem generalTaken_none {s : State} {u : Setup} (setup : s.control.setup = some u) (b : Bool) : GeneralTaken s u u.gen b (s, b) :=
  ⟨by rw [← setup], rfl, Frame.refl _ s, rfl⟩

section
variable {s : State} {u : Setup} {g : General} {b : Bool} {t : Taken} (h : GeneralTaken s u g b t)
include h

theorem GeneralTaken.gen : t.1.gen = g := by
  unfold State.gen
  rw [h.control]

theorem GeneralTaken.setGen_control (f : General → General) :
    (t.1.setGen f).control = { s.control with setup := some { u with gen := f g } } := by
  show ({ t.1.control with setup := t.1.control.setup.map fun u => { u with gen := f u.gen } } : Control) = _
  rw [h.control]
  rfl

theorem GeneralTaken.setGen (f : General → General) : GeneralTaken s u (f g) b (t.1.setGen f, t.2) :=
  ⟨h.setGen_control f, h.ignored, State.setGen_frame _ h.frame (by decide), h.pending⟩

/-- A field that is not taken (R151). -/
theorem GeneralTaken.ignore : GeneralTaken s u g true (t.1, true) := ⟨h.control, rfl, h.frame, h.pending⟩

theorem GeneralTaken.cast {g' : General} {b' : Bool} (fields : g = g') (ignored : b = b') : GeneralTaken s u g' b' t :=
  fields ▸ ignored ▸ h

/-- A live field, taken in range (R151); `k` is the change of the general fields, whether it is taken or not. -/
theorem GeneralTaken.live (ok : Bool) {p : Prop} [Decidable p] (range : ok = decide p) (f k : General → General)
    (taken : ∀ g, k g = if p then f g else g) : ∃ g', g' = k g ∧ GeneralTaken s u g' (b || !decide p) (liveField ok f t) := by
  refine ⟨k g, rfl, ?_⟩
  unfold liveField
  by_cases ok : p
  · simpa [ok, range, taken] using h.setGen f
  · simpa [ok, range, taken] using h.ignore

/-- A write of `schedule_enable` (R66, R71). -/
theorem GeneralTaken.scheduleEnable (v : Nat) :
    GeneralTaken s u { g with scheduleEnable := if v ≤ 1 then v == 1 else g.scheduleEnable } (b || !decide (v ≤ 1))
      (State.writeScheduleEnable v t) := by
  unfold State.writeScheduleEnable
  by_cases ok : v ≤ 1
  · simp only [ok, if_true, decide_true, Bool.not_true, Bool.or_false]
    by_cases same : (v == 1) = t.1.gen.scheduleEnable
    · rw [if_pos same, same, h.gen]
      exact h
    · rw [if_neg same]
      have put := h.setGen fun g => { g with scheduleEnable := v == 1 }
      have moved (y : State) := State.applyConditions_frame y.control.part y.time.state (Frame.refl [.sched, .writer] y) (by decide)
      exact ⟨(State.applyConditions_control _ _ _).trans put.control, put.ignored, put.frame.trans ((moved _).mono (by decide)),
        (moved _ .notices (by decide)).1.trans put.pending⟩
  · simp only [ok, if_false, decide_false, Bool.not_false, Bool.or_true]
    exact h.ignore

/-- A write of `service_interval` (R175). -/
theorem GeneralTaken.serviceInterval (v : Nat) :
    GeneralTaken s u { g with serviceInterval := if v = 0 ∨ 100 ≤ v ∧ v ≤ 60000 then v else g.serviceInterval }
      (b || !decide (v = 0 ∨ 100 ≤ v ∧ v ≤ 60000)) (State.writeServiceInterval v t) := by
  unfold State.writeServiceInterval serviceIntervalOk
  by_cases ok : v = 0 ∨ 100 ≤ v ∧ v ≤ 60000
  · simp only [ok, if_true, decide_true, Bool.not_true, Bool.or_false]
    have put := h.setGen fun g => { g with serviceInterval := v }
    split
    · exact ⟨put.control, put.ignored, State.setAttend_frame _ put.frame (by decide), put.pending⟩
    · split
      · exact ⟨put.control, put.ignored, State.setAttend_frame _ put.frame (by decide), put.pending⟩
      · exact put
  · simp only [ok, if_false, decide_false, Bool.not_false, Bool.or_true]
    exact h.ignore

/-- A write of `notice_mask` (R168). -/
theorem GeneralTaken.mask (v : Nat) : GeneralTaken s u { g with noticeMask := BitVec.ofNat 24 v } b (State.writeMask v t) := by
  unfold State.writeMask
  dsimp only
  split
  next same =>
    rw [same, h.gen]
    exact h
  next =>
    have put := h.setGen fun g => { g with noticeMask := BitVec.ofNat 24 v }
    exact ⟨put.control, put.ignored, State.maskChanged_frame put.frame (by decide), by simpa using put.pending⟩

end

theorem liveField_sched (ok : Bool) (f : General → General) (t : Taken) : (liveField ok f t).1.sched = t.1.sched := by
  cases ok <;> rfl

theorem liveField_attend (ok : Bool) (f : General → General) (t : Taken) : (liveField ok f t).1.attend = t.1.attend := by
  cases ok <;> rfl

theorem State.writeScheduleEnable_attend (v : Nat) (t : Taken) : (State.writeScheduleEnable v t).1.attend = t.1.attend := by
  unfold State.writeScheduleEnable
  dsimp only
  split
  · split
    · rfl
    · exact State.applyConditions_frame _ _ (Frame.refl [.sched, .writer] _) (by decide) .attend (by decide)
  · rfl

theorem State.writeServiceInterval_sched (v : Nat) (t : Taken) : (State.writeServiceInterval v t).1.sched = t.1.sched := by
  unfold State.writeServiceInterval
  dsimp only
  split
  · split
    · rfl
    · split <;> rfl
  · rfl

theorem State.writeMask_others (v : Nat) (t : Taken) :
    (State.writeMask v t).1.sched = t.1.sched ∧ (State.writeMask v t).1.attend = t.1.attend := by
  unfold State.writeMask
  dsimp only
  split
  · exact ⟨rfl, rfl⟩
  · exact ⟨rfl, rfl⟩

section
variable {s : State} {u : Setup} {g : General} {b : Bool} {t : Taken} (h : GeneralTaken s u g b t)
include h

/-- A change of `schedule_enable` moves the schedule (R71). -/
theorem GeneralTaken.scheduleEnable_moved {v : Nat} (small : v ≤ 1) (change : g.scheduleEnable = true ↔ v ≠ 1) :
    ScheduleMoved (s.control.part = .listening) (v = 1) (s.time.state = .locked ∨ s.time.state = .holdover) t.1
      (State.writeScheduleEnable v t).1.sched := by
  have changes : ¬ (v == 1) = t.1.gen.scheduleEnable := by
    rw [h.gen]
    cases on : g.scheduleEnable <;> simp_all
  unfold State.writeScheduleEnable
  rw [if_pos small]
  dsimp only
  rw [if_neg changes]
  have put := h.setGen fun g => { g with scheduleEnable := v == 1 }
  have time : t.1.time = s.time := h.frame .time (by decide)
  have gen : (t.1.setGen fun g => { g with scheduleEnable := v == 1 }).gen = { g with scheduleEnable := v == 1 } := put.gen
  refine (State.applyConditions_moved _ _ _).congr ?_ ?_ ?_ rfl rfl ?_ ?_
  · rw [h.setGen_control]
  · rw [gen, beq_iff_eq]
  · rw [State.setGen_time, time]
  · rw [gen, h.gen]
  · rw [gen, h.gen]

theorem GeneralTaken.scheduleEnable_stays {v : Nat} (stays : ¬ (v ≤ 1 ∧ (g.scheduleEnable = true ↔ v ≠ 1))) :
    (State.writeScheduleEnable v t).1.sched = t.1.sched := by
  unfold State.writeScheduleEnable
  split
  next small =>
    have same : (v == 1) = t.1.gen.scheduleEnable := by
      rw [h.gen]
      cases on : g.scheduleEnable <;> simp_all
    dsimp only
    rw [if_pos same]
  next => rfl

/-- The attendance record after a write of `service_interval` (R175). -/
theorem GeneralTaken.serviceInterval_attend (v : Nat) :
    (State.writeServiceInterval v t).1.attend = if v = 0 then { t.1.attend with deadline := none }
      else if 100 ≤ v ∧ v ≤ 60000 ∧ g.serviceInterval = 0 ∧ (s.control.part = .listening ∨ s.control.part = .draining) then
        { t.1.attend with deadline := some (min (s.time.count + v * 1000) (2 ^ 48 - 1)) }
      else t.1.attend := by
  have time : t.1.time = s.time := h.frame .time (by decide)
  have put := h.setGen fun g => { g with serviceInterval := v }
  have part : (t.1.setGen fun g => { g with serviceInterval := v }).control.part = s.control.part := by rw [put.control]
  have at_ : (t.1.setGen fun g => { g with serviceInterval := v }).serviceAt = min (s.time.count + v * 1000) (2 ^ 48 - 1) := by
    unfold State.serviceAt
    rw [put.gen, State.setGen_now, State.now, time]
    rfl
  unfold State.writeServiceInterval serviceIntervalOk
  simp only [decide_eq_true_eq]
  by_cases zero : v = 0
  · simp [zero]
  · by_cases ok : 100 ≤ v ∧ v ≤ 60000
    · rw [if_pos (.inr ok), if_neg zero, if_neg zero]
      simp only [h.gen, part, at_, PartState.serviced_iff, ok, true_and]
      split <;> rfl
    · rw [if_neg (not_or.2 ⟨zero, ok⟩), if_neg zero, if_neg fun k => ok ⟨k.1, k.2.1⟩]

end

theorem generalWord_word {off : Nat} (low : 0x100 ≤ off) (high : off < 0x200) (w : List Byte) (t : Taken) :
    State.setupWord off w t = State.generalWord off w t := by
  unfold State.setupWord
  rw [if_neg (by omega), if_pos high]

/-- The write of a word of the general setup, from what the word leaves (R151). -/
theorem GeneralTaken.exec_word {i : Instr} {s : State} {u : Setup} {g : General} {b : Bool} {x : Taken} (h : GeneralTaken s u g b x)
    (e : exec i s = done (Taken.finish x)) : ∃ t, exec i s = .next t ∧ t.control = { s.control with setup := some { u with gen := g } } ∧
      t.sched = x.1.sched ∧ t.attend = x.1.attend ∧
      (if b = true then t.status.pending = s.status.pending ||| Notice.setupIgnored.bit ∧ t.tallies = (s.count .setupIgnored).tallies
        else t.status.pending = s.status.pending ∧ t.tallies = s.tallies) ∧
      Frame [.control, .sched, .attend, .notices, .writer, .tallies] s t := by
  obtain ⟨control, -, sched, -, attend⟩ := Taken.finish_areas x
  refine ⟨_, e, control.trans h.control, sched, attend, ?_,
    State.settle_frame ((h.frame.mono (by decide)).trans ((Taken.finish_frame x).mono (by decide))) (by decide)⟩
  rw [← h.ignored]
  exact Taken.finish_tells h.pending (h.frame .tallies (by decide))

section
variable {s : State} {u : Setup} (setup : s.control.setup = some u) (w : List Byte)
include setup

/-- The word at `120H`: the live fields before `schedule_enable`, and those behind it (R151, R184). -/
theorem generalTaken_120 : ∃ x y : Taken, GeneralTaken s u
      { u.gen with silenceLimit := if 1 ≤ field w 0 1 ∧ field w 0 1 ≤ 60 then field w 0 1 else u.gen.silenceLimit }
      (!decide (1 ≤ field w 0 1 ∧ field w 0 1 ≤ 60)) x ∧ x.1.sched = s.sched ∧ x.1.attend = s.attend ∧
    State.generalWord 0x120 w (s, false) = y ∧ y.1.sched = (State.writeScheduleEnable (field w 1 1) x).1.sched ∧ y.1.attend = s.attend ∧
    GeneralTaken s u { u.gen with
      silenceLimit := if 1 ≤ field w 0 1 ∧ field w 0 1 ≤ 60 then field w 0 1 else u.gen.silenceLimit
      scheduleEnable := if field w 1 1 ≤ 1 then field w 1 1 == 1 else u.gen.scheduleEnable
      refMinPeriod := field w 2 2
      intakeLatency := if field w 4 2 ≤ 5000 then field w 4 2 else u.gen.intakeLatency
      reportWatermark := if 1 ≤ field w 6 2 ∧ field w 6 2 ≤ u.gen.reportCap then field w 6 2 else u.gen.reportWatermark }
      (!decide ((1 ≤ field w 0 1 ∧ field w 0 1 ≤ 60) ∧ field w 1 1 ≤ 1 ∧ field w 4 2 ≤ 5000 ∧ 1 ≤ field w 6 2 ∧
        field w 6 2 ≤ u.gen.reportCap)) y := by
  have cap : s.gen.reportCap = u.gen.reportCap := by
    unfold State.gen
    rw [setup]
  have word : State.generalWord 0x120 w (s, false) = _ := (if_neg (by decide)).trans (if_pos rfl)
  obtain ⟨g1, rfl, h1⟩ := (generalTaken_none setup false).live (silenceLimitOk (field w 0 1)) (p := 1 ≤ field w 0 1 ∧ field w 0 1 ≤ 60) rfl
    (fun g => { g with silenceLimit := field w 0 1 })
    (fun g => { g with silenceLimit := if 1 ≤ field w 0 1 ∧ field w 0 1 ≤ 60 then field w 0 1 else g.silenceLimit })
    fun _ => by split_ifs <;> rfl
  obtain ⟨g2, e2, h2⟩ := (h1.scheduleEnable (field w 1 1)).live true (p := True) rfl (fun g => { g with refMinPeriod := field w 2 2 })
    (fun g => { g with refMinPeriod := field w 2 2 }) fun _ => rfl
  obtain ⟨g3, e3, h3⟩ := h2.live (intakeLatencyOk (field w 4 2)) (p := field w 4 2 ≤ 5000) rfl (fun g => { g with intakeLatency := field w 4 2 })
    (fun g => { g with intakeLatency := if field w 4 2 ≤ 5000 then field w 4 2 else g.intakeLatency }) fun _ => by split_ifs <;> rfl
  obtain ⟨g4, e4, h4⟩ := h3.live (watermarkOk s.gen.reportCap (field w 6 2)) (p := 1 ≤ field w 6 2 ∧ field w 6 2 ≤ s.gen.reportCap) rfl (fun g => { g with reportWatermark := field w 6 2 })
    (fun g => { g with
      reportWatermark := if 1 ≤ field w 6 2 ∧ field w 6 2 ≤ s.gen.reportCap then field w 6 2 else g.reportWatermark })
    fun _ => by split_ifs <;> rfl
  refine ⟨_, _, h1.cast rfl (Bool.false_or _), by rw [liveField_sched], by rw [liveField_attend], word, ?_, ?_, ?_⟩
  · simp only [liveField_sched]
  · simp only [liveField_attend, State.writeScheduleEnable_attend]
  · refine h4.cast ?_ ?_
    · simp only [e2] at e3
      simp only [e3] at e4
      rw [e4, cap]
    · simp [cap, Bool.or_assoc]

/-- The word at `128H` (R151, R184). -/
theorem generalTaken_128 : GeneralTaken s u { u.gen with
      pre := if field w 0 2 ≤ 2000 then field w 0 2 else u.gen.pre
      post := if 100 ≤ field w 2 2 ∧ field w 2 2 ≤ 4000 then field w 2 2 else u.gen.post
      tailWait := if field w 4 2 ≤ 10000 then field w 4 2 else u.gen.tailWait
      serviceInterval := if field w 6 2 = 0 ∨ 100 ≤ field w 6 2 ∧ field w 6 2 ≤ 60000 then field w 6 2 else u.gen.serviceInterval }
      (!decide (field w 0 2 ≤ 2000 ∧ (100 ≤ field w 2 2 ∧ field w 2 2 ≤ 4000) ∧ field w 4 2 ≤ 10000 ∧
        (field w 6 2 = 0 ∨ 100 ≤ field w 6 2 ∧ field w 6 2 ≤ 60000))) (State.generalWord 0x128 w (s, false)) ∧
    (State.generalWord 0x128 w (s, false)).1.sched = s.sched ∧
    (State.generalWord 0x128 w (s, false)).1.attend = if field w 6 2 = 0 then { s.attend with deadline := none }
      else if 100 ≤ field w 6 2 ∧ field w 6 2 ≤ 60000 ∧ u.gen.serviceInterval = 0 ∧ (s.control.part = .listening ∨ s.control.part = .draining)
        then { s.attend with deadline := some (min (s.time.count + field w 6 2 * 1000) (2 ^ 48 - 1)) }
      else s.attend := by
  obtain ⟨g1, e1, h1⟩ := (generalTaken_none setup false).live (preOk (field w 0 2)) (p := field w 0 2 ≤ 2000) rfl (fun g => { g with pre := field w 0 2 })
    (fun g => { g with pre := if field w 0 2 ≤ 2000 then field w 0 2 else g.pre }) fun _ => by split_ifs <;> rfl
  obtain ⟨g2, e2, h2⟩ := h1.live (postOk (field w 2 2)) (p := 100 ≤ field w 2 2 ∧ field w 2 2 ≤ 4000) rfl (fun g => { g with post := field w 2 2 })
    (fun g => { g with post := if 100 ≤ field w 2 2 ∧ field w 2 2 ≤ 4000 then field w 2 2 else g.post }) fun _ => by split_ifs <;> rfl
  obtain ⟨g3, e3, h3⟩ := h2.live (tailWaitOk (field w 4 2)) (p := field w 4 2 ≤ 10000) rfl (fun g => { g with tailWait := field w 4 2 })
    (fun g => { g with tailWait := if field w 4 2 ≤ 10000 then field w 4 2 else g.tailWait }) fun _ => by split_ifs <;> rfl
  have word : State.generalWord 0x128 w (s, false) = _ := (if_neg (by decide)).trans ((if_neg (by decide)).trans (if_pos rfl))
  rw [word]
  have interval : g3.serviceInterval = u.gen.serviceInterval := by rw [e3, e2, e1]
  refine ⟨(h3.serviceInterval (field w 6 2)).cast ?_ ?_, ?_, (h3.serviceInterval_attend (field w 6 2)).trans ?_⟩
  · rw [e3, e2, e1]
  · simp [Bool.or_assoc]
  · simp only [State.writeServiceInterval_sched, liveField_sched]
  · simp only [liveField_attend, interval]

/-- The word at `130H` (R151, R168, R184). -/
theorem generalTaken_130 : GeneralTaken s u { u.gen with
      copyBurst := if field w 0 1 = 8 ∨ field w 0 1 = 16 ∨ field w 0 1 = 32 then field w 0 1 else u.gen.copyBurst
      holdLimit := if field w 1 1 ≤ 100 then field w 1 1 else u.gen.holdLimit
      partShare := if 1 ≤ field w 2 1 ∧ field w 2 1 ≤ 8 then field w 2 1 else u.gen.partShare
      noticeMask := BitVec.ofNat 24 (field w 4 3) }
      (!decide ((field w 0 1 = 8 ∨ field w 0 1 = 16 ∨ field w 0 1 = 32) ∧ field w 1 1 ≤ 100 ∧ 1 ≤ field w 2 1 ∧ field w 2 1 ≤ 8))
      (State.generalWord 0x130 w (s, false)) ∧
    (State.generalWord 0x130 w (s, false)).1.sched = s.sched ∧ (State.generalWord 0x130 w (s, false)).1.attend = s.attend := by
  obtain ⟨g1, e1, h1⟩ := (generalTaken_none setup false).live (copyBurstOk (field w 0 1)) (p := field w 0 1 = 8 ∨ field w 0 1 = 16 ∨ field w 0 1 = 32) rfl
    (fun g => { g with copyBurst := field w 0 1 })
    (fun g => { g with copyBurst := if field w 0 1 = 8 ∨ field w 0 1 = 16 ∨ field w 0 1 = 32 then field w 0 1 else g.copyBurst })
    fun _ => by split_ifs <;> rfl
  obtain ⟨g2, e2, h2⟩ := h1.live (holdLimitOk (field w 1 1)) (p := field w 1 1 ≤ 100) rfl (fun g => { g with holdLimit := field w 1 1 })
    (fun g => { g with holdLimit := if field w 1 1 ≤ 100 then field w 1 1 else g.holdLimit }) fun _ => by split_ifs <;> rfl
  obtain ⟨g3, e3, h3⟩ := h2.live (partShareOk (field w 2 1)) (p := 1 ≤ field w 2 1 ∧ field w 2 1 ≤ 8) rfl (fun g => { g with partShare := field w 2 1 })
    (fun g => { g with partShare := if 1 ≤ field w 2 1 ∧ field w 2 1 ≤ 8 then field w 2 1 else g.partShare })
    fun _ => by split_ifs <;> rfl
  have word : State.generalWord 0x130 w (s, false) = _ :=
    (if_neg (by decide)).trans ((if_neg (by decide)).trans ((if_neg (by decide)).trans (if_pos rfl)))
  rw [word]
  refine ⟨(h3.mask (field w 4 3)).cast ?_ ?_, ?_, ?_⟩
  · rw [e3, e2, e1]
  · simp [Bool.or_assoc]
  · simp only [State.writeMask_others, liveField_sched]
  · simp only [State.writeMask_others, liveField_attend]

end

theorem generalWord_locked {off : Nat} (low : off < 0x120) (w : List Byte) (s : State) : State.generalWord off w (s, false) = (s, true) :=
  if_pos low

theorem generalWord_138 (w : List Byte) (s : State) : State.generalWord 0x138 w (s, false) =
    (s.setSched fun c => { c with stagedPeriod := some (field w 0 2), stagedBank := some (field w 2 1) }, false) :=
  (if_neg (by decide)).trans ((if_neg (by decide)).trans ((if_neg (by decide)).trans ((if_neg (by decide)).trans (if_pos rfl))))

theorem generalWord_behind {off : Nat} (low : 0x138 < off) (w : List Byte) (s : State) : State.generalWord off w (s, false) = (s, false) :=
  (if_neg (by omega)).trans ((if_neg (by omega)).trans ((if_neg (by omega)).trans ((if_neg (by omega)).trans (if_neg (by omega)))))

/-- The offset of a word of the general setup. -/
theorem generalOffset {off : Nat} (aligned : off % 8 = 0) :
    off < 0x120 ∨ off = 0x120 ∨ off = 0x128 ∨ off = 0x130 ∨ off = 0x138 ∨ 0x138 < off := by
  omega

/-- Settles O22, word by word. -/
theorem generalWordByClass : Obligations.GeneralWordByClass := by
  unfold Obligations.GeneralWordByClass
  refine ⟨wordByWord_of_area 0x100 0x200 fun _ _ => rfl, fun tag off w s u setup takes eight aligned low high => ?_⟩
  have e := exec_setupWord (mk := .generalSetupWrite) (fun _ _ => rfl) takes tag eight low high
  rw [generalWord_word low high] at e
  have none_ := generalTaken_none setup
  rcases generalOffset aligned with locked | rfl | rfl | rfl | rfl | behind
  · rw [generalWord_locked locked] at e
    obtain ⟨t, run, control, sched, attend, told, frame⟩ := (none_ true).exec_word e
    refine ⟨t, u.gen, run, control, ?_, fun h => ?_, fun h => ?_, fun _ _ => sched, ?_, ?_, frame⟩
    · rw [if_neg (by omega), if_neg (by omega), if_neg (by omega)]
    · omega
    · omega
    · rw [if_neg (by omega), if_neg (by omega), attend]
    · rw [if_pos (.inl locked)]
      exact told
  · obtain ⟨x, y, first, xSched, xAttend, word, ySched, yAttend, all⟩ := generalTaken_120 setup w
    rw [word] at e
    obtain ⟨t, run, control, sched, attend, told, frame⟩ := all.exec_word e
    refine ⟨t, _, run, control, (if_pos rfl).symm, fun h => by omega, fun _ small change => ?moved, fun _ stays => ?stays, ?attend, ?told, frame⟩
    case moved =>
      rw [sched, ySched]
      have gen : s.gen = u.gen := by
        unfold State.gen
        rw [setup]
      refine (first.scheduleEnable_moved small change).congr Iff.rfl Iff.rfl Iff.rfl xSched.symm ?_ ?_ ?_
      · rw [show x.1.time = s.time from first.frame .time (by decide)]
      · rw [first.gen, gen]
      · rw [first.gen, gen]
    case stays =>
      rw [sched, ySched, first.scheduleEnable_stays (fun h => stays ⟨rfl, h⟩), xSched]
    case attend =>
      rw [if_neg (by omega), if_neg (by omega), attend, yAttend]
    case told => simpa [imp_iff_not_or, or_assoc] using told
  · obtain ⟨all, schedSame, attendNext⟩ := generalTaken_128 setup w
    obtain ⟨t, run, control, sched, attend, told, frame⟩ := all.exec_word e
    refine ⟨t, _, run, control, ?_, fun h => by omega, fun h => by omega, fun _ _ => sched.trans schedSame, ?_, ?_, frame⟩
    · exact ((if_neg (by decide)).trans (if_pos rfl)).symm
    · rw [attend, attendNext]
      simp
    · simpa [imp_iff_not_or, or_assoc] using told
  · obtain ⟨all, schedSame, attendSame⟩ := generalTaken_130 setup w
    obtain ⟨t, run, control, sched, attend, told, frame⟩ := all.exec_word e
    refine ⟨t, _, run, control, ?_, fun h => by omega, fun h => by omega, fun _ _ => sched.trans schedSame, ?_, ?_, frame⟩
    · exact ((if_neg (by decide)).trans ((if_neg (by decide)).trans (if_pos rfl))).symm
    · rw [if_neg (by omega), if_neg (by omega), attend, attendSame]
    · simpa [imp_iff_not_or, or_assoc] using told
  · rw [generalWord_138] at e
    have staged : GeneralTaken s u u.gen false
        (s.setSched fun c => { c with stagedPeriod := some (field w 0 2), stagedBank := some (field w 2 1) }, false) :=
      ⟨(none_ false).control, rfl, State.setSched_frame _ (Frame.refl _ s) (by decide), rfl⟩
    obtain ⟨t, run, control, sched, attend, told, frame⟩ := staged.exec_word e
    refine ⟨t, u.gen, run, control, ?_, fun _ => sched, fun h => by omega, fun h => absurd rfl h, ?_, ?_, frame⟩
    · rw [if_neg (by decide), if_neg (by decide), if_neg (by decide)]
    · rw [if_neg (by omega), if_neg (by omega), attend]
      rfl
    · rw [if_neg (by omega)]
      exact told
  · rw [generalWord_behind behind] at e
    obtain ⟨t, run, control, sched, attend, told, frame⟩ := (none_ false).exec_word e
    refine ⟨t, u.gen, run, control, ?_, fun h => by omega, fun h => by omega, fun _ _ => sched, ?_, ?_, frame⟩
    · rw [if_neg (by omega), if_neg (by omega), if_neg (by omega)]
    · rw [if_neg (by omega), if_neg (by omega), attend]
    · rw [if_neg (by omega)]
      exact told

end Sys2Proof.Machine
end

section
/-! SUPPORT. The Schedule Unit's commands: cycle starts (R72 to R77), conditions (R71) and mark deadlines (R76). -/
namespace Sys2Proof.Machine

/-! ### Entries taken (R76) -/

/-- Taking entries writes the pointer, the mark deadline and the list only. -/
theorem takeEntries_rest (now start n : Nat) (es : List BankEntry) (fuel i : Nat) (c : Schedule) :
    takeEntries now start n es fuel i c = { c with
      pointer := (takeEntries now start n es fuel i c).pointer
      markDeadline := (takeEntries now start n es fuel i c).markDeadline
      intervals := (takeEntries now start n es fuel i c).intervals } := by
  induction fuel generalizing i c with
  | zero => rfl
  | succ fuel ih =>
    unfold takeEntries
    dsimp only
    split
    · split
      · rfl
      · split
        · rfl
        · split
          · exact ih _ c
          · split
            · exact ih _ _
            · rfl
    · rfl

theorem BankEntry.matchesCycle_iff (e : BankEntry) (n : Nat) : e.matchesCycle n = true ↔ n % e.rep = e.first := decide_eq_true_iff

/-- Taking entries, with fuel for the rest of a bank, is R76's. -/
theorem takeEntries_taken (now start n : Nat) (es : List BankEntry) (fuel i : Nat) (c : Schedule) (enough : 49 ≤ fuel + i) :
    EntriesTaken now start n es i c.intervals (takeEntries now start n es fuel i c) := by
  induction fuel generalizing i c with
  | zero => exact .stops (fun _ _ => .inr (by omega)) rfl rfl rfl
  | succ fuel ih =>
    unfold takeEntries
    dsimp only
    cases at_ : es[i]? with
    | none => exact .stops (fun e h => by simp [at_] at h) rfl rfl rfl
    | some e =>
      dsimp only
      by_cases isEnd : e.action = actEnd
      · rw [if_pos isEnd]
        exact .stops (fun f h => .inl (by simp_all)) rfl rfl rfl
      rw [if_neg isEnd]
      by_cases isWatch : e.action = actWatch
      · rw [if_pos isWatch]
        exact .waits at_ (.inl isWatch) rfl rfl rfl
      rw [if_neg isWatch]
      by_cases matches_ : e.matchesCycle n
      · rw [if_neg (not_not.2 matches_)]
        have cycle := (e.matchesCycle_iff n).1 matches_
        by_cases due : deadline start (e.mark * 100) ≤ now
        · rw [if_pos due]
          exact .acts at_ isEnd isWatch cycle due (ih (i + 1) { c with intervals := e.act now c.intervals } (by omega))
        · rw [if_neg due]
          exact .waits at_ (.inr ⟨isEnd, cycle, Nat.lt_of_not_le due⟩) rfl rfl rfl
      · rw [if_pos matches_]
        exact .passes at_ isEnd isWatch (fun cycle => matches_ ((e.matchesCycle_iff n).2 cycle)) (ih (i + 1) c (by omega))

/-- What is taken is read off three fields of the record. -/
theorem EntriesTaken.congr {now start n : Nat} {es : List BankEntry} {i : Nat} {vs : List Interval} {c : Schedule}
    (h : EntriesTaken now start n es i vs c) {c' : Schedule} (pointer : c'.pointer = c.pointer) (mark : c'.markDeadline = c.markDeadline)
    (intervals : c'.intervals = c.intervals) : EntriesTaken now start n es i vs c' := by
  induction h with
  | stops ends p m v => exact .stops ends (pointer.trans p) (mark.trans m) (intervals.trans v)
  | waits at_ why p m v => exact .waits at_ why (pointer.trans p) (mark.trans m) (intervals.trans v)
  | passes at_ notEnd notWatch cycle _ ih => exact .passes at_ notEnd notWatch cycle (ih pointer mark intervals)
  | acts at_ notEnd notWatch cycle due _ ih => exact .acts at_ notEnd notWatch cycle due (ih pointer mark intervals)

/-! ### What an entry opens (R79, R80) -/

/-- An interval of the list after an entry is one of before, closed or not, or one that this entry opened. -/
theorem mem_openInterval {m : BitVec 8} {k : MuteKind} {t : Nat} {vs : List Interval} {v : Interval} (h : v ∈ openInterval m k t vs) :
    v = ⟨m &&& ~~~ openGroups k vs, k, t, none⟩ ∨ v ∈ vs := by
  unfold openInterval at h
  dsimp only at h
  split at h
  · exact .inr h
  · exact mem_placeInterval h

/-- Intervals placed one after the other: each is one of the first list, or opened at the field time. -/
theorem mem_foldl_placeInterval {m : BitVec 8} {t : Nat} {l us : List Interval} {v : Interval}
    (h : v ∈ l.foldl (fun us w => placeInterval (w.mask &&& ~~~ m) w.kind t us) us) :
    (∃ w ∈ l, v = ⟨w.mask &&& ~~~ m, w.kind, t, none⟩) ∨ v ∈ us := by
  induction l generalizing us with
  | nil => exact .inr h
  | cons w l ih =>
    rcases ih h with ⟨x, listed, made⟩ | before
    · exact .inl ⟨x, List.mem_cons_of_mem _ listed, made⟩
    · rcases mem_placeInterval before with made | before
      · exact .inl ⟨w, List.mem_cons_self, made⟩
      · exact .inr before

/-- An interval that is open after an entry has acted stood, or was opened at that field time (R79, R80). -/
theorem BankEntry.act_open {e : BankEntry} {now : Nat} {vs : List Interval} {v : Interval} (h : v ∈ e.act now vs) (isOpen : v.endT = none) :
    v.beginT = now ∨ v ∈ vs := by
  have opened {m : BitVec 8} {k : MuteKind} (h : v ∈ openInterval m k now vs) : v.beginT = now ∨ v ∈ vs :=
    (mem_openInterval h).imp_left fun made => by rw [made]
  have closed {m : BitVec 8} {k : MuteKind} (h : v ∈ closeInterval m k now vs) : v.beginT = now ∨ v ∈ vs := by
    rcases mem_foldl_placeInterval h with ⟨w, -, made⟩ | stood
    · exact .inl (by rw [made])
    · obtain ⟨w, listed, rfl⟩ := List.mem_map.1 stood
      split at isOpen
      · simp at isOpen
      next notMet =>
        rw [if_neg notMet]
        exact .inr listed
  unfold BankEntry.act at h
  split at h
  · exact opened h
  · split at h
    · exact closed h
    · split at h
      · exact opened h
      · split at h
        · exact closed h
        · exact .inr h

/-- Every interval that is open after entries have been taken was opened in taking them, when none was open before. -/
theorem EntriesTaken.opened {now start n : Nat} {es : List BankEntry} {i : Nat} {vs : List Interval} {c : Schedule}
    (h : EntriesTaken now start n es i vs c) (before : ∀ v ∈ vs, v.endT = none → v.beginT = now) :
    ∀ v ∈ c.intervals, v.endT = none → v.beginT = now := by
  induction h with
  | stops _ _ _ intervals => exact intervals ▸ before
  | waits _ _ _ _ intervals => exact intervals ▸ before
  | passes _ _ _ _ _ ih => exact ih before
  | acts _ _ _ _ _ _ ih =>
    exact ih fun v listed isOpen => (BankEntry.act_open listed isOpen).elim id fun stood => before v stood isOpen

/-! ### What is told (R66, R74, R75) -/

/-- Two states have told the same notices and counts. -/
def State.SameTold (s t : State) : Prop := s.status.pending = t.status.pending ∧ s.tallies = t.tallies

theorem State.SameTold.setupIgnored {s t : State} (h : s.SameTold t) : s.setupIgnored.SameTold t.setupIgnored :=
  ⟨by rw [State.setupIgnored_raised, State.setupIgnored_raised, h.1], State.setupIgnored_tallies h.2⟩

theorem State.SameTold.raise {s t : State} (h : s.SameTold t) (n : Notice) : (s.raise n).SameTold (t.raise n) :=
  ⟨by rw [State.raise_status_pending, State.raise_status_pending, h.1], by rw [State.raise_tallies, State.raise_tallies, h.2]⟩

theorem State.SameTold.ite {p : Prop} [Decidable p] {a b c d : State} (yes : a.SameTold c) (no : b.SameTold d) :
    (if p then a else b).SameTold (if p then c else d) := by
  split
  · exact yes
  · exact no

theorem State.SameTold.refl (s : State) : s.SameTold s := ⟨rfl, rfl⟩

theorem State.SameTold.symm {s t : State} (h : s.SameTold t) : t.SameTold s := ⟨h.1.symm, h.2.symm⟩

theorem State.SameTold.trans {s t u : State} (h : s.SameTold t) (k : t.SameTold u) : s.SameTold u := ⟨h.1.trans k.1, h.2.trans k.2⟩

/-! ### The staged copy at a cycle start (R66, R74, R75) -/

/-- The staged period, taken or discarded (R74). -/
theorem State.takeStagedPeriod_takes (s : State) : s.takeStagedPeriod.sched = { s.sched with
      stagedPeriod := none
      period := match s.sched.stagedPeriod with
        | some p => if 100 ≤ p ∧ p ≤ 65535 then some p else s.sched.period
        | none => s.sched.period } ∧
    s.takeStagedPeriod.SameTold (if ∃ p, s.sched.stagedPeriod = some p ∧ ¬ (100 ≤ p ∧ p ≤ 65535) then s.setupIgnored else s) := by
  have plain (f : Schedule → Schedule) : (s.setSched f).SameTold s := ⟨rfl, rfl⟩
  have whole : s.sched = { s.sched with stagedPeriod := s.sched.stagedPeriod } := rfl
  unfold State.takeStagedPeriod
  cases staged : s.sched.stagedPeriod with
  | none =>
    rw [staged] at whole
    exact ⟨whole, by simpa using State.SameTold.refl s⟩
  | some p =>
    by_cases ok : 100 ≤ p ∧ p ≤ 65535
    · simp only [if_pos ok]
      rw [if_neg fun ⟨q, is, bad⟩ => bad (Option.some.inj is ▸ ok)]
      exact ⟨rfl, rfl, rfl⟩
    · simp only [if_neg ok]
      rw [if_pos ⟨p, rfl, ok⟩]
      exact ⟨by simp, (plain _).setupIgnored⟩

/-- The staged `active_bank`, taken or discarded (R75). -/
theorem State.takeStagedBank_takes (s : State) : s.takeStagedBank.sched = { s.sched with
      stagedBank := none
      active := match s.sched.stagedBank.bind bankOfByte with
        | some n => if s.sched.active = some n ∨ bankValid (s.sched.bank n) then some n else s.sched.active
        | none => s.sched.active } ∧
    s.takeStagedBank.SameTold
      (if ∃ n, s.sched.stagedBank.bind bankOfByte = some n ∧ s.sched.active ≠ some n ∧ bankValid (s.sched.bank n) = false then
        (if ∃ x, s.sched.stagedBank = some x ∧ bankOfByte x = none then s.setupIgnored else s).raise .scheduleFault
      else if ∃ x, s.sched.stagedBank = some x ∧ bankOfByte x = none then s.setupIgnored else s) := by
  have plain (f : Schedule → Schedule) : (s.setSched f).SameTold s := ⟨rfl, rfl⟩
  have whole : s.sched = { s.sched with stagedBank := s.sched.stagedBank } := rfl
  unfold State.takeStagedBank
  cases staged : s.sched.stagedBank with
  | none =>
    rw [staged] at whole
    exact ⟨whole, by simpa using State.SameTold.refl s⟩
  | some x =>
    cases bank : bankOfByte x with
    | none =>
      rw [if_neg (by simp [bank]), if_pos ⟨x, rfl, bank⟩]
      simp only [Option.bind_some, bank]
      exact ⟨by simp, (plain _).setupIgnored⟩
    | some n =>
      rw [if_neg (c := ∃ y, some x = some y ∧ bankOfByte y = none) (by simp [bank])]
      by_cases same : s.sched.active = some n
      · rw [if_neg (by simp [bank, same])]
        simp only [Option.bind_some, bank, if_pos same]
        exact ⟨by simp [same], plain _⟩
      · by_cases valid : bankValid (s.sched.bank n) = true
        · rw [if_neg (by simp [bank, valid])]
          simp only [Option.bind_some, bank, if_neg same, if_pos valid]
          exact ⟨by simp [valid], rfl, rfl⟩
        · rw [if_pos ⟨n, bank, same, by simpa using valid⟩]
          simp only [Option.bind_some, bank, if_neg same, if_neg valid]
          exact ⟨by simp [same, valid], (plain _).raise _⟩

/-! ### Cycle starts (R74, R75) -/

/-- The state before entries are taken: open intervals closed, the staged copy taken or discarded (R74, R75). -/
def State.cycleReady (s : State) : State :=
  (s.setSched fun c => { c with intervals := closeAll s.now c.intervals }).takeStagedPeriod.takeStagedBank

/-- The record from which entries are taken (R74). -/
def State.cycleRecord (s : State) : Schedule :=
  { s.cycleReady.sched with cycleCount := some s.cycleReady.nextCount, cycleStart := some s.now }

theorem State.cycleReady_sched (s : State) : s.cycleReady.sched = { s.sched with
    intervals := closeAll s.now s.sched.intervals
    stagedPeriod := none
    stagedBank := none
    period := match s.sched.stagedPeriod with
      | some p => if 100 ≤ p ∧ p ≤ 65535 then some p else s.sched.period
      | none => s.sched.period
    active := match s.sched.stagedBank.bind bankOfByte with
      | some n => if s.sched.active = some n ∨ bankValid (s.sched.bank n) then some n else s.sched.active
      | none => s.sched.active } := by
  unfold State.cycleReady
  rw [(State.takeStagedBank_takes _).1, (State.takeStagedPeriod_takes _).1]
  rfl

theorem State.nextCount_congr {s t : State} (count : t.sched.cycleCount = s.sched.cycleCount) (gen : t.gen = s.gen) :
    t.nextCount = s.nextCount := by
  unfold State.nextCount
  rw [count, gen]

theorem State.cycleReady_frame (s : State) : Frame [.sched, .notices, .writer, .tallies] s s.cycleReady :=
  State.takeStagedBank_frame (State.takeStagedPeriod_frame (State.setSched_frame _ (Frame.refl _ s) (by decide)) (by decide)) (by decide)

/-- The schedule record after a cycle start (R74). -/
theorem State.cycleStart_sched (s : State) : s.cycleStart.sched =
    { takeEntries s.now s.now s.cycleReady.nextCount s.cycleRecord.entries 49 0 s.cycleRecord with
      timer := if s.gen.refSource = .internal then some (min (s.now + s.cycleRecord.period.getD 0 * 100) (2 ^ 48 - 1))
        else s.sched.timer } := by
  have now : s.cycleReady.now = s.now := congrArg TimeBase.count (s.cycleReady_frame .time (by decide))
  have gen : s.cycleReady.gen = s.gen := State.gen_congr (s.cycleReady_frame .control (by decide))
  have timer : s.cycleRecord.timer = s.sched.timer := by
    show s.cycleReady.sched.timer = _
    rw [s.cycleReady_sched]
  have taken : ((s.cycleReady.setSched fun c => { c with cycleCount := some s.cycleReady.nextCount, cycleStart := some s.now }).takeFrom 0).sched =
      takeEntries s.now s.now s.cycleReady.nextCount s.cycleRecord.entries 49 0 s.cycleRecord := by
    show takeEntries s.cycleReady.now s.now s.cycleReady.nextCount s.cycleRecord.entries 49 0 s.cycleRecord = _
    rw [now]
  show (State.startTimer s.now ((s.cycleReady.setSched fun c =>
    { c with cycleCount := some s.cycleReady.nextCount, cycleStart := some s.now }).takeFrom 0)).sched = _
  rw [State.startTimer_sched, taken, ← timer, ← gen]
  have rest := takeEntries_rest s.now s.now s.cycleReady.nextCount s.cycleRecord.entries 49 0 s.cycleRecord
  rw [congrArg Schedule.period rest, congrArg Schedule.timer rest]
  rfl

theorem State.cycleReady_told (s : State) : ∃ a b c : State,
    a = (if ∃ p, s.sched.stagedPeriod = some p ∧ ¬ (100 ≤ p ∧ p ≤ 65535) then s.setupIgnored else s) ∧
    b = (if ∃ x, s.sched.stagedBank = some x ∧ bankOfByte x = none then a.setupIgnored else a) ∧
    c = (if ∃ n, s.sched.stagedBank.bind bankOfByte = some n ∧ s.sched.active ≠ some n ∧ bankValid (s.sched.bank n) = false then
      b.raise .scheduleFault else b) ∧ s.cycleReady.SameTold c := by
  refine ⟨_, _, _, rfl, rfl, rfl, ?_⟩
  have closed (f : Schedule → Schedule) : (s.setSched f).SameTold s := ⟨rfl, rfl⟩
  obtain ⟨record, period⟩ := (s.setSched fun c => { c with intervals := closeAll s.now c.intervals }).takeStagedPeriod_takes
  have bank := (s.setSched fun c => { c with intervals := closeAll s.now c.intervals }).takeStagedPeriod.takeStagedBank_takes.2
  have first := period.trans (.ite (closed _).setupIgnored (closed _))
  rw [record] at bank
  exact bank.trans (.ite (.raise (.ite first.setupIgnored first) _) (.ite first.setupIgnored first))

/-- A cycle start is R74's and R75's. -/
theorem State.cycleStart_started (s : State) : CycleStarted s s.cycleStart := by
  have sched := s.cycleStart_sched
  have rest := takeEntries_rest s.now s.now s.cycleReady.nextCount s.cycleRecord.entries 49 0 s.cycleRecord
  have ready := s.cycleReady_sched
  have gen : s.cycleReady.gen = s.gen := State.gen_congr (s.cycleReady_frame .control (by decide))
  have taken := takeEntries_taken s.now s.now s.cycleReady.nextCount s.cycleRecord.entries 49 0 s.cycleRecord (by decide)
  have told := s.cycleReady_told
  generalize made : takeEntries s.now s.now s.cycleReady.nextCount s.cycleRecord.entries 49 0 s.cycleRecord = r at sched rest taken
  have count : s.cycleStart.sched.cycleCount = some s.cycleReady.nextCount := by rw [sched, rest]; rfl
  have entries : s.cycleStart.sched.entries = s.cycleRecord.entries := by rw [sched, rest]; rfl
  have counted : s.cycleReady.sched.cycleCount = s.sched.cycleCount := by rw [ready]
  have intervals : s.cycleRecord.intervals = s.sched.intervals.map fun v => if v.endT = none then { v with endT := some s.time.count } else v := by
    show s.cycleReady.sched.intervals = _
    rw [ready, closeAll_eq]
    rfl
  have closed : ∀ v ∈ s.cycleRecord.intervals, v.endT = none → v.beginT = s.time.count := by
    rw [intervals]
    intro v listed isOpen
    obtain ⟨w, -, rfl⟩ := List.mem_map.1 listed
    split at isOpen
    · simp at isOpen
    next closed => exact absurd isOpen closed
  exact {
    start := by rw [sched, rest]; rfl
    count := count.trans (congrArg some (State.nextCount_congr counted gen))
    period := by rw [sched, rest]; exact congrArg Schedule.period ready
    active := by rw [sched, rest]; exact congrArg Schedule.active ready
    staged := by
      rw [sched, rest]
      show s.cycleReady.sched.stagedPeriod = none ∧ s.cycleReady.sched.stagedBank = none
      rw [ready]
      exact ⟨rfl, rfl⟩
    banks := by
      rw [sched, rest]
      show s.cycleReady.sched.bankA = _ ∧ s.cycleReady.sched.bankB = _
      rw [ready]
      exact ⟨rfl, rfl⟩
    timer := by rw [sched, rest]; rfl
    entries := by
      rw [count, entries, ← intervals, Option.getD_some]
      exact taken.congr (by rw [sched]) (by rw [sched]) (by rw [sched])
    intervals := by
      rw [sched]
      exact taken.opened closed
    outcome := by
      obtain ⟨a, b, c, isA, isB, isC, same⟩ := told
      have after : Frame [.sched] s.cycleReady s.cycleStart :=
        State.startTimer_frame _ (State.takeFrom_frame _ (State.setSched_frame _ (Frame.refl _ _) (by decide)) (by decide)) (by decide)
      exact ⟨a, b, c, isA, isB, isC, (after .notices (by decide)).1.trans same.1, Eq.trans (after .tallies (by decide)) same.2⟩ }

/-- A cycle start reads of the state before it what is listed here; of the state after it, the schedule record and what was told. -/
theorem CycleStarted.congr {s s' t t' : State} (h : CycleStarted s t) (time : s'.time = s.time) (gen : s'.gen = s.gen)
    (sched : s.sched = { s'.sched with state := s.sched.state, lastRef := s.sched.lastRef }) (told : s'.SameTold s)
    (record : t'.sched = t.sched) (tells : t'.SameTold t) : CycleStarted s' t' := by
  obtain ⟨start, count, period, active, staged, banks, timer, entries, intervals, outcome⟩ := h
  constructor
  · rw [record, start, time]
  · rw [record, count, gen, sched]
  · rw [record, period, sched]
  · rw [record, active, sched]
    rfl
  · rw [record]
    exact staged
  · rw [record, banks.1, banks.2, sched]
    exact ⟨rfl, rfl⟩
  · rw [record, timer, gen, time, sched]
  · rw [record, time]
    rw [sched] at entries
    exact entries
  · rw [record, time]
    exact intervals
  · obtain ⟨a, b, c, rfl, rfl, rfl, pending, tallies⟩ := outcome
    refine ⟨_, _, _, rfl, rfl, rfl, ?_⟩
    rw [sched] at pending tallies
    have first := State.SameTold.ite (p := ∃ p, s'.sched.stagedPeriod = some p ∧ ¬ (100 ≤ p ∧ p ≤ 65535)) told.setupIgnored told
    have second := State.SameTold.ite (p := ∃ x, s'.sched.stagedBank = some x ∧ bankOfByte x = none) first.setupIgnored first
    have third := State.SameTold.ite (p := ∃ n, s'.sched.stagedBank.bind bankOfByte = some n ∧ s'.sched.active ≠ some n ∧
      bankValid (s'.sched.bank n) = false) (second.raise .scheduleFault) second
    exact ⟨tells.1.trans (pending.trans third.1.symm), tells.2.trans (tallies.trans third.2.symm)⟩

/-- A cycle start leaves the state and the last taken REF (R74). -/
theorem State.cycleStart_keeps (s : State) :
    s.cycleStart.sched.state = s.sched.state ∧ s.cycleStart.sched.lastRef = s.sched.lastRef := by
  have rest := takeEntries_rest s.now s.now s.cycleReady.nextCount s.cycleRecord.entries 49 0 s.cycleRecord
  rw [s.cycleStart_sched, congrArg Schedule.state rest, congrArg Schedule.lastRef rest]
  show s.cycleReady.sched.state = _ ∧ s.cycleReady.sched.lastRef = _
  rw [s.cycleReady_sched]
  exact ⟨rfl, rfl⟩

theorem State.setSchedState_told (x : SchedState) (s : State) : (s.setSchedState x).SameTold s := by
  unfold State.setSchedState
  split <;> exact ⟨rfl, rfl⟩

theorem State.settle_sameTold (s : State) : s.settle.SameTold s := ⟨by simp, rfl⟩

/-- The schedule follows a pulse or the timer (R72, R73). -/
theorem State.follow_started (s : State) :
    CycleStarted s s.follow.settle ∧ s.follow.sched.state = .following ∧ s.follow.sched.lastRef = s.sched.lastRef := by
  obtain ⟨state, lastRef⟩ := (s.setSchedState .following).cycleStart_keeps
  have sched := s.setSchedState_sched .following
  refine ⟨(s.setSchedState .following).cycleStart_started.congr (State.setSchedState_time _ _).symm
    (State.gen_congr (State.setSchedState_control _ _)).symm ?_ (State.setSchedState_told _ _).symm rfl (State.settle_sameTold _),
    state.trans (by rw [sched]), lastRef.trans (by rw [sched])⟩
  rw [sched]

theorem execRefPulse_passes {s : State} (passes : s.gen.refSource = .internal ∨ s.sched.state = .idle ∨ s.sched.state = .waitTime) :
    execRefPulse s = done (s.count .refPulses) := by
  refine if_pos (passes.imp_right fun still => ?_)
  rw [← Bool.not_eq_true, SchedState.running_iff]
  exact fun ⟨notIdle, notWait⟩ => still.elim notIdle notWait

theorem execRefPulse_runs {s : State} (ref : s.gen.refSource = .ref) (notIdle : s.sched.state ≠ .idle) (notWait : s.sched.state ≠ .waitTime) :
    execRefPulse s = if s.bounces then done ((s.count .refPulses).count .refBounces)
      else done ((s.count .refPulses).setSched fun c => { c with lastRef := some s.now }).follow :=
  if_neg fun passes => passes.elim (fun internal => by simp [ref] at internal)
    fun still => by simp [(SchedState.running_iff _).2 ⟨notIdle, notWait⟩] at still

/-- Settles O30, by `State.follow_started`. -/
theorem refPulseIsTaken : Obligations.RefPulseIsTaken := by
  unfold Obligations.RefPulseIsTaken
  refine fun s => ⟨fun passes => ?passes, fun ref notIdle notWait => ⟨fun p last early => ?bounce, fun late => ?taken⟩⟩
  case passes =>
    exact ⟨_, execRefPulse_passes passes, rfl, State.settle_frame (State.count_frame _ (Frame.refl _ s) (by decide)) (by decide)⟩
  case bounce =>
    have bounces : s.bounces = true := by
      unfold State.bounces
      rw [last]
      exact decide_eq_true early
    exact ⟨_, (execRefPulse_runs ref notIdle notWait).trans (if_pos bounces), rfl,
      State.settle_frame (State.count_frame _ (State.count_frame _ (Frame.refl _ s) (by decide)) (by decide)) (by decide)⟩
  case taken =>
    have passed : ¬ s.bounces = true := by
      unfold State.bounces
      cases last : s.sched.lastRef with
      | none => exact Bool.false_ne_true
      | some p => exact fun early => absurd (of_decide_eq_true early) (Nat.not_lt.2 (late p last))
    obtain ⟨started, state, lastRef⟩ := ((s.count .refPulses).setSched fun c => { c with lastRef := some s.now }).follow_started
    exact ⟨_, (execRefPulse_runs ref notIdle notWait).trans (if_neg passed), started.congr rfl rfl rfl ⟨rfl, rfl⟩ rfl (.refl _), state, lastRef,
      State.settle_frame (State.follow_frame (State.setSched_frame _ (State.count_frame _ (Frame.refl _ s) (by decide)) (by decide)) (by decide))
        (by decide)⟩

/-! ### The timer and a WATCH (R73, R77) -/

theorem State.dueEntry_of {s : State} {i d : Nat} {e : BankEntry} (pointer : s.sched.pointer = some (.on i))
    (mark : s.sched.markDeadline = some d) (due : d ≤ s.time.count) (entry : s.sched.entries[i]? = some e) : s.dueEntry = some (i, e) := by
  unfold State.dueEntry
  simp only [pointer, if_pos (State.reached_of_due mark due), entry, Option.map_some]

/-- A WATCH reached starts a cycle in FREE_RUN (R77). -/
theorem State.watchReached_started (s : State) :
    CycleStarted ((if s.sched.state = .freeRun then s else s.raise .refMissing).count .refMissing) s.watchReached.settle ∧
      s.watchReached.sched.state = .freeRun ∧ s.watchReached.sched.lastRef = s.sched.lastRef := by
  unfold State.watchReached
  by_cases free : s.sched.state = .freeRun
  · simp only [if_pos free]
    obtain ⟨state, lastRef⟩ := (s.count .refMissing).cycleStart_keeps
    exact ⟨(s.count .refMissing).cycleStart_started.congr rfl rfl rfl (.refl _) rfl (State.settle_sameTold _), state.trans free, lastRef⟩
  · simp only [if_neg free]
    have sched : (((s.setSchedState .freeRun).raise .refMissing).count .refMissing).sched = { s.sched with state := .freeRun } := by simp
    have control : (((s.setSchedState .freeRun).raise .refMissing).count .refMissing).control =
      ((s.raise .refMissing).count .refMissing).control := by simp
    have same := (State.setSchedState_told .freeRun s).raise .refMissing
    obtain ⟨state, lastRef⟩ := (((s.setSchedState .freeRun).raise .refMissing).count .refMissing).cycleStart_keeps
    refine ⟨(((s.setSchedState .freeRun).raise .refMissing).count .refMissing).cycleStart_started.congr (by simp)
      (State.gen_congr control).symm ?_ ⟨same.1.symm, count_tallies_congr _ same.2.symm⟩ rfl (State.settle_sameTold _),
      state.trans (by rw [sched]), lastRef.trans (by rw [sched])⟩
    rw [sched]
    simp

/-- Settles O31, by `State.follow_started` and `State.watchReached_started`. -/
theorem timerAndWatchStartCycles : Obligations.TimerAndWatchStartCycles := by
  unfold Obligations.TimerAndWatchStartCycles
  refine fun s => ⟨fun d timer due running => ?timer, fun i d e pointer mark due entry watch => ⟨fun stops => ?stops, fun above ref => ?starts⟩⟩
  case timer =>
    obtain ⟨started, state, lastRef⟩ := s.follow_started
    exact ⟨_, if_pos ⟨State.reached_of_due timer due, running⟩, started, state, lastRef,
      State.settle_frame (State.follow_frame (Frame.refl _ s) (by decide)) (by decide)⟩
  case stops =>
    have e' : exec .watchDeadline s = done (s.setSched fun c => { c with pointer := some (.stopped i), markDeadline := none }) := by
      show execWatchDeadline s = _
      unfold execWatchDeadline
      simp only [State.dueEntry_of pointer mark due entry]
      rw [if_neg (not_not.2 watch), if_pos stops]
    exact ⟨_, e', rfl, State.settle_frame (State.setSched_frame _ (Frame.refl _ s) (by decide)) (by decide)⟩
  case starts =>
    have e' : exec .watchDeadline s = done s.watchReached := by
      show execWatchDeadline s = _
      unfold execWatchDeadline
      simp only [State.dueEntry_of pointer mark due entry]
      rw [if_neg (not_not.2 watch), if_neg (by simp [above, ref])]
    obtain ⟨started, state, lastRef⟩ := s.watchReached_started
    exact ⟨_, e', started, state, lastRef, State.settle_frame (State.watchReached_frame (Frame.refl _ s) (by decide)) (by decide)⟩

/-! ### Conditions (R71) -/

/-- The condition that a message does not carry is read as it stands (log 19). -/
theorem execScheduleConditionChange_of {m : SchedMsg} {rest : List SchedMsg} {s : State} {p : PartState} {x : TimeState}
    (announced : s.wires.sched = m :: rest) (carries : m = .part p ∧ x = s.time.state ∨ m = .time x ∧ p = s.control.part) :
    execScheduleConditionChange s = done ((s.setWires fun w => { w with sched := rest }).applyConditions p x) := by
  unfold execScheduleConditionChange
  rcases carries with ⟨rfl, rfl⟩ | ⟨rfl, rfl⟩
  · rw [announced]
  · rw [announced]

/-- Settles O32, by `State.applyConditions_moved`. -/
theorem conditionsMoveTheSchedule : Obligations.ConditionsMoveTheSchedule := by
  unfold Obligations.ConditionsMoveTheSchedule
  intro m rest s p x announced part time
  have carries : m = .part p ∧ x = s.time.state ∨ m = .time x ∧ p = s.control.part := by
    cases m with
    | part q => exact .inl ⟨by rw [part], time⟩
    | time y => exact .inr ⟨by rw [time], part⟩
  have moved := State.applyConditions_moved p x (s.setWires fun w => { w with sched := rest })
  have frame := State.applyConditions_frame p x (State.setWires_frame (fun w => { w with sched := rest })
    (Frame.refl [.sched, .writer, .wires] s) (by decide)) (by decide)
  refine ⟨((s.setWires fun w => { w with sched := rest }).applyConditions p x).settle, execScheduleConditionChange_of announced carries, ?wires, fun out => ?idle, fun a b c => ?waitTime,
    fun a b c => moved.waitRef a b c, fun a b c => moved.kept a b c, moved.left, moved.still, State.settle_frame frame (by decide)⟩
  case wires =>
    exact State.applyConditions_frame p x (Frame.refl [.sched, .writer] _) (by decide) .wires (by decide)
  case idle => exact moved.idle (out.imp_right fun off on => by simp [show s.gen.scheduleEnable = true from on] at off)
  case waitTime => exact moved.waitTime a b fun epoch => by rcases c with rfl | rfl <;> simp at epoch

/-! ### Mark deadlines (R76) -/

/-- Entries of other cycles are passed over (R76). -/
theorem takeEntries_passes {now start n : Nat} {es : List BankEntry} {k i fuel : Nat} {c : Schedule} {f : BankEntry}
    (passed : ∀ j g, i ≤ j → j < i + k → es[j]? = some g → g.action ≠ 0 ∧ g.action ≠ 5 ∧ n % g.rep ≠ g.first) (entry : es[i + k]? = some f) :
    takeEntries now start n es (fuel + k) i c = takeEntries now start n es fuel (i + k) c := by
  induction k generalizing i with
  | zero => rfl
  | succ k ih =>
    have inside : i < es.length := Nat.lt_of_le_of_lt (Nat.le_add_right i (k + 1)) (List.getElem?_eq_some_iff.1 entry).1
    have at_ : es[i]? = some es[i] := List.getElem?_eq_getElem inside
    obtain ⟨notEnd, notWatch, cycle⟩ := passed i _ (Nat.le_refl i) (by omega) at_
    have first : takeEntries now start n es (fuel + (k + 1)) i c = takeEntries now start n es (fuel + k) (i + 1) c := by
      show takeEntries now start n es (fuel + k + 1) i c = _
      conv => lhs; unfold takeEntries
      simp only [at_]
      rw [if_neg notEnd, if_neg notWatch, if_pos (fun m => cycle ((BankEntry.matchesCycle_iff _ n).1 m))]
    rw [first, ih (fun j g low high => passed j g (by omega) (by omega)) (by rwa [Nat.add_right_comm] at *)]
    rw [show i + 1 + k = i + (k + 1) by omega]

/-- An END stops the pointer; a WATCH, or an entry of the present cycle that lies ahead, has its deadline set (R76). -/
theorem takeEntries_rests {now start n fuel i : Nat} {es : List BankEntry} {c : Schedule} {f : BankEntry} (entry : es[i]? = some f) :
    (f.action = 0 → takeEntries now start n es (fuel + 1) i c = { c with pointer := some (.stopped i), markDeadline := none }) ∧
    (f.action = 5 ∨ f.action ≠ 0 ∧ n % f.rep = f.first ∧ now < min (start + f.mark * 100) (2 ^ 48 - 1) →
      takeEntries now start n es (fuel + 1) i c =
        { c with pointer := some (.on i), markDeadline := some (min (start + f.mark * 100) (2 ^ 48 - 1)) }) := by
  unfold takeEntries
  simp only [entry]
  refine ⟨fun isEnd => if_pos isEnd, fun waits => ?_⟩
  by_cases isWatch : f.action = 5
  · rw [if_neg (by rw [isWatch]; decide), if_pos isWatch]
    rfl
  · obtain ⟨notEnd, cycle, ahead⟩ := waits.resolve_left isWatch
    rw [if_neg notEnd, if_neg isWatch, if_neg (not_not.2 ((f.matchesCycle_iff n).2 cycle))]
    exact if_neg (Nat.not_le.2 ahead)

/-- Settles O33, by `takeEntries_taken`, `takeEntries_passes` and `takeEntries_rests`. -/
theorem markDeadlineActs : Obligations.MarkDeadlineActs := by
  unfold Obligations.MarkDeadlineActs
  intro i d start n e s pointer mark due entry notWatch began count
  have acts : exec .markDeadline s = done ((s.setSched fun c => { c with intervals := e.act s.now c.intervals }).takeFrom (i + 1)) := by
    show execMarkDeadline s = _
    unfold execMarkDeadline
    simp only [State.dueEntry_of pointer mark due entry]
    exact if_neg notWatch
  have sched : ((s.setSched fun c => { c with intervals := e.act s.now c.intervals }).takeFrom (i + 1)).sched =
      takeEntries s.time.count start n s.sched.entries 49 (i + 1) { s.sched with intervals := e.act s.time.count s.sched.intervals } := by
    show takeEntries s.time.count (s.sched.cycleStart.getD 0) (s.sched.cycleCount.getD 0) s.sched.entries 49 (i + 1) _ = _
    rw [began, count]
    rfl
  refine ⟨_, acts, sched,
    State.settle_frame (State.takeFrom_frame _ (State.setSched_frame _ (Frame.refl _ s) (by decide)) (by decide)) (by decide), ?_,
    fun k f passed small at_ => ?_⟩
  · rw [State.settle_sched, sched]
    exact takeEntries_taken s.time.count start n s.sched.entries 49 (i + 1)
      { s.sched with intervals := e.act s.time.count s.sched.intervals } (Nat.le_add_right 49 _)
  · rw [State.settle_sched, sched]
    have fuel : 49 = (48 - k + 1) + k := by omega
    rw [fuel, takeEntries_passes (i := i + 1) (k := k) (fun j g low => passed j g (Nat.lt_of_succ_le low)) at_]
    exact takeEntries_rests at_

end Sys2Proof.Machine
end

section
/-! SUPPORT. What the entries of a bank do to the mute interval list (R78 to R80). -/
namespace Sys2Proof.Machine

/-! ### Room in a full list (R79) -/

theorem earliestEnd_le {vs : List Interval} {t : Nat} (earliest : earliestEnd vs = some t) {v : Interval} (listed : v ∈ vs) {w : Nat}
    (ends : v.endT = some w) : t ≤ w := by
  induction vs generalizing t with
  | nil => cases listed
  | cons x vs ih =>
    unfold earliestEnd at earliest
    cases first : x.endT with
    | none =>
      rw [first] at earliest
      rcases List.mem_cons.1 listed with rfl | inside
      · rw [first] at ends
        cases ends
      · exact ih earliest inside
    | some a =>
      rw [first] at earliest
      cases rest : earliestEnd vs with
      | none =>
        rw [rest] at earliest
        obtain rfl := Option.some.inj earliest
        rcases List.mem_cons.1 listed with rfl | inside
        · exact (Option.some.inj (first.symm.trans ends)).le
        · have isOpen := earliestEnd_none vs rest v inside
          rw [Interval.isOpen_iff, ends] at isOpen
          cases isOpen
      | some b =>
        rw [rest] at earliest
        obtain rfl := Option.some.inj earliest
        rcases List.mem_cons.1 listed with rfl | inside
        · exact (Nat.min_le_left a b).trans (Option.some.inj (first.symm.trans ends)).le
        · exact (Nat.min_le_right a b).trans (ih rest inside)

/-- The intervals that a list `vs` loses to make room, before those of `us` stand (R79): the closed one with the earliest end, of several
the one earliest in the list. -/
def LostFirst (vs : List Interval) (d : Interval) : Prop :=
  ∃ u, d.endT = some u ∧ (∀ v ∈ vs, ∀ w, v.endT = some w → u ≤ w) ∧ ∃ a b : List Interval, vs = a ++ d :: b ∧ ∀ v ∈ a, v.endT ≠ some u

/-- Making room drops nothing, or one interval of a full list (R79). -/
theorem makeRoom_drops (vs : List Interval) : makeRoom vs = vs ∨
    16 ≤ vs.length ∧ ∃ d, (makeRoom vs ++ [d]).Perm vs ∧ LostFirst vs d := by
  unfold makeRoom
  split
  · exact .inl rfl
  next full =>
    split
    next t earliest =>
      obtain ⟨v, listed, ends⟩ := earliestEnd_mem vs t earliest
      obtain ⟨d, a, b, before, isD, whole, erased⟩ := List.exists_of_eraseP (p := fun v : Interval => v.endT == some t) listed (by simp [ends])
      refine .inr ⟨Nat.le_of_not_lt full, d, ?_, t, by simpa using isD, fun v inside w ends => earliestEnd_le earliest inside ends, a, b,
        whole, fun v inside => by simpa using before v inside⟩
      rw [erased, whole, List.append_assoc]
      exact (List.perm_append_comm (l₁ := b) (l₂ := [d])).append_left a
    next => exact .inl rfl

/-- A new interval placed: nothing is lost, or one of a full list (R79). -/
theorem placeInterval_drops (m : BitVec 8) (k : MuteKind) (t : Nat) (vs : List Interval) : ∃ dropped : List Interval,
    (placeInterval m k t vs ++ dropped).Perm (vs ++ [⟨m, k, t, none⟩]) ∧ vs.length ≤ (placeInterval m k t vs).length ∧
      (dropped ≠ [] → 16 ≤ vs.length) ∧ ∀ d ∈ dropped, LostFirst vs d := by
  have placed : (placeInterval m k t vs).Perm (⟨m, k, t, none⟩ :: makeRoom vs) := insertBefore_perm _ _ _
  rcases makeRoom_drops vs with same | ⟨full, d, room, lost⟩
  · rw [same] at placed
    refine ⟨[], ?_, ?_, fun h => absurd rfl h, fun d listed => by cases listed⟩
    · rw [List.append_nil]
      exact placed.trans (List.perm_append_comm (l₁ := [_]))
    · rw [placed.length_eq, List.length_cons]
      omega
  · have count := room.length_eq
    rw [List.length_append, List.length_singleton] at count
    refine ⟨[d], ?_, ?_, fun _ => full, fun e listed => ?_⟩
    · exact (placed.append_right [d]).trans ((room.cons _).trans (List.perm_append_comm (l₁ := [_])))
    · rw [placed.length_eq, List.length_cons]
      omega
    · rw [List.mem_singleton.1 listed]
      exact lost

/-! ### ON entries (R79) -/

/-- A group lies in a union of masks. -/
theorem foldl_or_iff (l : List Interval) (m : BitVec 8) (i : Nat) :
    (l.foldl (fun m v => m ||| v.mask) m).getLsbD i = true ↔ m.getLsbD i = true ∨ ∃ v ∈ l, v.mask.getLsbD i = true := by
  induction l generalizing m with
  | nil => simp
  | cons x l ih =>
    rw [List.foldl_cons, ih, BitVec.getLsbD_or, Bool.or_eq_true, List.exists_mem_cons_iff, or_assoc]

theorem openGroups_iff (k : MuteKind) (vs : List Interval) (g : Nat) :
    (openGroups k vs).getLsbD g = true ↔ ∃ v ∈ vs, v.isOpen ∧ v.kind.same k ∧ v.mask.getLsbD g = true := by
  unfold openGroups
  rw [foldl_or_iff]
  simp [List.mem_filter, and_assoc]

/-- The groups that an ON entry opens (R79). -/
theorem mem_newGroups (m : BitVec 8) (k : MuteKind) (vs : List Interval) (g : Nat) :
    (m &&& ~~~openGroups k vs).getLsbD g = true ↔
      m.getLsbD g = true ∧ ∀ w ∈ vs, w.isOpen → w.kind.same k → w.mask.getLsbD g = false := by
  rw [BitVec.getLsbD_and, Bool.and_eq_true]
  refine and_congr_right fun inMask => ?_
  have small : g < 8 := BitVec.lt_of_getLsbD inMask
  rw [BitVec.getLsbD_not]
  simp only [small, decide_true, Bool.true_and, Bool.not_eq_true', ← Bool.not_eq_true]
  rw [openGroups_iff]
  simp only [not_exists, not_and]

/-- What an ON entry leaves of the list (R79). -/
structure Opened (m : BitVec 8) (k : MuteKind) (now : Nat) (vs us : List Interval) : Prop where
  groups : ∀ g, m.getLsbD g = true → ∃ v ∈ us, v.isOpen ∧ v.kind.same k ∧ v.mask.getLsbD g = true
  stays : ∀ v ∈ vs, v.isOpen → v ∈ us
  members : ∀ v ∈ us, v ∈ vs ∨ v.beginT = now ∧ v.endT = none ∧ v.kind = k ∧ v.mask &&& ~~~m = 0
  drops : ∃ new dropped : List Interval, (us ++ dropped).Perm (vs ++ new) ∧ new.length ≤ 1 ∧
    (∀ v ∈ new, v.beginT = now ∧ v.endT = none ∧ v.kind = k ∧ ∀ g, v.mask.getLsbD g = true ↔
      m.getLsbD g = true ∧ ∀ w ∈ vs, w.isOpen → w.kind.same k → w.mask.getLsbD g = false) ∧
    (vs.length + new.length ≤ 16 → dropped = []) ∧ (dropped ≠ [] → us.length = 16) ∧
    (∀ d ∈ dropped, ∃ u, d.endT = some u ∧ (∀ v ∈ us, ∀ w, v.endT = some w → u ≤ w) ∧
      ∃ a b : List Interval, vs = a ++ d :: b ∧ ∀ v ∈ a, v.endT ≠ some u)

theorem MuteKind.same_self (k : MuteKind) : k.same k = true := by
  cases k <;> rfl

/-- A group that is not new is open already. -/
theorem open_of_not_new {m : BitVec 8} {k : MuteKind} {vs : List Interval} {g : Nat} (inMask : m.getLsbD g = true)
    (old : ¬ (m &&& ~~~openGroups k vs).getLsbD g = true) : ∃ v ∈ vs, v.isOpen ∧ v.kind.same k ∧ v.mask.getLsbD g = true := by
  rw [mem_newGroups] at old
  by_contra none_
  exact old ⟨inMask, fun w listed isOpen same => by
    rw [← Bool.not_eq_true]
    exact fun inside => none_ ⟨w, listed, isOpen, same, inside⟩⟩

theorem openInterval_opened (m : BitVec 8) (k : MuteKind) (now : Nat) (vs : List Interval) (ok : IntervalsOk vs) :
    Opened m k now vs (openInterval m k now vs) := by
  have after := (openInterval_ok m k now vs ok).1
  unfold openInterval at after ⊢
  dsimp only at after ⊢
  by_cases nothing : m &&& ~~~openGroups k vs = 0
  · rw [if_pos nothing]
    exact {
      groups := fun g inMask => open_of_not_new (k := k) (vs := vs) inMask (by simp [nothing])
      stays := fun _ listed _ => listed
      members := fun _ listed => .inl listed
      drops := ⟨[], [], List.Perm.refl _, by simp, by simp, fun _ => rfl, by simp, by simp⟩ }
  · rw [if_neg nothing] at after ⊢
    obtain ⟨dropped, perm, longer, full, lost⟩ := placeInterval_drops (m &&& ~~~openGroups k vs) k now vs
    have closed : ∀ d ∈ dropped, ¬ d.isOpen = true := fun d listed isOpen => by
      obtain ⟨u, ends, -⟩ := lost d listed
      rw [Interval.isOpen_iff, ends] at isOpen
      cases isOpen
    have kept : ∀ v ∈ vs ++ [⟨m &&& ~~~openGroups k vs, k, now, none⟩], v.isOpen = true → v ∈ placeInterval (m &&& ~~~openGroups k vs) k now vs :=
      fun v listed isOpen => (List.mem_append.1 (perm.mem_iff.2 listed)).resolve_right fun h => closed v h isOpen
    exact {
      groups := fun g inMask => by
        by_cases new : (m &&& ~~~openGroups k vs).getLsbD g = true
        · exact ⟨_, kept _ (List.mem_append_right _ (List.mem_singleton_self _)) rfl, rfl, k.same_self, new⟩
        · obtain ⟨v, listed, isOpen, same⟩ := open_of_not_new inMask new
          exact ⟨v, kept v (List.mem_append_left _ listed) isOpen, isOpen, same⟩
      stays := fun v listed isOpen => kept v (List.mem_append_left _ listed) isOpen
      members := fun v listed => by
        rcases mem_placeInterval listed with rfl | stood
        · refine .inr ⟨rfl, rfl, rfl, ?_⟩
          refine BitVec.eq_of_getLsbD_eq fun i _ => ?_
          cases inMask : m.getLsbD i <;> simp [inMask]
        · exact .inl stood
      drops := by
        refine ⟨[⟨m &&& ~~~openGroups k vs, k, now, none⟩], dropped, perm, by simp, ?_, fun room => ?_, fun some_ => ?_, fun d listed => ?_⟩
        · intro v listed
          rw [List.mem_singleton.1 listed]
          exact ⟨rfl, rfl, rfl, mem_newGroups m k vs⟩
        · by_contra some_
          have := full some_
          rw [List.length_singleton] at room
          omega
        · have := full some_
          omega
        · obtain ⟨u, ends, least, place⟩ := lost d listed
          refine ⟨u, ends, fun v inside w vEnds => ?_, place⟩
          rcases mem_placeInterval inside with rfl | stood
          · cases vEnds
          · exact least v stood w vEnds }

/-! ### OFF entries (R80) -/

/-- New open intervals, placed one after the other. -/
def placeAll (t : Nat) (new us : List Interval) : List Interval := new.foldl (fun us v => placeInterval v.mask v.kind t us) us

/-- New intervals placed one after the other: what is lost (R79). -/
theorem placeAll_drops (t : Nat) (new us : List Interval) (opened : ∀ v ∈ new, v.beginT = t ∧ v.endT = none) : ∃ dropped : List Interval,
    (placeAll t new us ++ dropped).Perm (us ++ new) ∧ us.length ≤ (placeAll t new us).length ∧
      (dropped ≠ [] → 16 ≤ (placeAll t new us).length ∧ 16 < us.length + new.length) ∧
      ∀ d ∈ dropped, ∃ u, d.endT = some u ∧ ∀ v ∈ placeAll t new us, ∀ w, v.endT = some w → u ≤ w := by
  induction new generalizing us with
  | nil => exact ⟨[], by simp [placeAll], Nat.le_refl _, fun h => absurd rfl h, fun d listed => by cases listed⟩
  | cons x new ih =>
    obtain ⟨begins, open_⟩ := opened x List.mem_cons_self
    have isX : (⟨x.mask, x.kind, t, none⟩ : Interval) = x := by rw [← begins, ← open_]
    obtain ⟨first, perm, longer, full, lost⟩ := placeInterval_drops x.mask x.kind t us
    rw [isX] at perm
    obtain ⟨later, permLater, longerLater, fullLater, lostLater⟩ :=
      ih (placeInterval x.mask x.kind t us) fun v listed => opened v (List.mem_cons_of_mem _ listed)
    have step : placeAll t (x :: new) us = placeAll t new (placeInterval x.mask x.kind t us) := rfl
    rw [step]
    have count := perm.length_eq
    rw [List.length_append, List.length_append, List.length_singleton] at count
    refine ⟨later ++ first, ?_, longer.trans longerLater, fun some_ => ?_, fun d listed => ?_⟩
    · rw [← List.append_assoc]
      have behind : List.Perm ((placeInterval x.mask x.kind t us ++ new) ++ first) ((placeInterval x.mask x.kind t us ++ first) ++ new) := by
        rw [List.append_assoc, List.append_assoc]
        exact List.perm_append_comm.append_left _
      rw [List.append_cons us x new]
      exact ((permLater.append_right first).trans behind).trans (perm.append_right new)
    · by_cases early : first = []
      · have := fullLater (by simpa [early] using some_)
        rw [early, List.length_nil] at count
        rw [List.length_cons]
        omega
      · have := full early
        rw [List.length_cons]
        omega
    · rcases List.mem_append.1 listed with late | early
      · exact lostLater d late
      · obtain ⟨u, ends, least, -⟩ := lost d early
        refine ⟨u, ends, fun v inside w vEnds => ?_⟩
        have closed : ¬ v ∈ new := fun h => by
          rw [(opened v (List.mem_cons_of_mem _ h)).2] at vEnds
          cases vEnds
        have stood := (List.mem_append.1 (permLater.mem_iff.1 (List.mem_append_left _ inside))).resolve_right closed
        rcases mem_placeInterval stood with made | before
        · rw [made] at vEnds
          cases vEnds
        · exact least v before w vEnds

/-- What of an interval's groups an OFF entry leaves out goes on in a new one (R80). -/
def Interval.rest (m : BitVec 8) (t : Nat) (v : Interval) : Interval := ⟨v.mask &&& ~~~m, v.kind, t, none⟩

/-- The new intervals of an OFF entry (R80). -/
def restsOf (m : BitVec 8) (k : MuteKind) (t : Nat) (vs : List Interval) : List Interval :=
  (vs.filter fun v => v.meets m k && decide (v.mask &&& ~~~m ≠ 0)).map (Interval.rest m t)

/-- The list with every interval met closed (R80). -/
def closedBy (m : BitVec 8) (k : MuteKind) (t : Nat) (vs : List Interval) : List Interval :=
  vs.map fun v => if v.meets m k then { v with endT := some t } else v

theorem closeInterval_eq (m : BitVec 8) (k : MuteKind) (t : Nat) (vs : List Interval) :
    closeInterval m k t vs = placeAll t (restsOf m k t vs) (closedBy m k t vs) := by
  unfold closeInterval placeAll restsOf closedBy
  rw [List.foldl_map]
  rfl

theorem Interval.meets_iff (m : BitVec 8) (k : MuteKind) (v : Interval) :
    v.meets m k = true ↔ v.isOpen ∧ v.kind.same k ∧ v.mask &&& m ≠ 0 := by
  unfold Interval.meets
  simp [and_assoc]

/-- What an OFF entry leaves of the list (R80). -/
structure Closed (m : BitVec 8) (k : MuteKind) (now : Nat) (vs us : List Interval) : Prop where
  groups : ∀ v ∈ us, v.isOpen → v.kind.same k → v.mask &&& m = 0
  goesOn : ∀ v ∈ vs, v.isOpen → ∀ g, v.mask.getLsbD g = true → (v.kind.same k → m.getLsbD g = false) →
    ∃ w ∈ us, w.isOpen ∧ w.kind = v.kind ∧ w.mask.getLsbD g = true
  drops : ∃ new dropped : List Interval,
    new = ((vs.filter fun v => v.isOpen ∧ v.kind.same k ∧ v.mask &&& m ≠ 0 ∧ v.mask &&& ~~~m ≠ 0).map fun v =>
      ⟨v.mask &&& ~~~m, v.kind, now, none⟩) ∧
    (us ++ dropped).Perm ((vs.map fun v =>
      if v.isOpen ∧ v.kind.same k ∧ v.mask &&& m ≠ 0 then { v with endT := some now } else v) ++ new) ∧
    (vs.length + new.length ≤ 16 → dropped = []) ∧ (dropped ≠ [] → us.length = 16) ∧
    (∀ d ∈ dropped, ∃ u, d.endT = some u ∧ ∀ v ∈ us, ∀ w, v.endT = some w → u ≤ w)

theorem closeInterval_closed (m : BitVec 8) (k : MuteKind) (now : Nat) (vs : List Interval) (ok : IntervalsOk vs) :
    Closed m k now vs (closeInterval m k now vs) := by
  have after := (closeInterval_ok m k now vs ok).1
  rw [closeInterval_eq] at after ⊢
  have made : ∀ v ∈ restsOf m k now vs, v.beginT = now ∧ v.endT = none := fun v listed => by
    obtain ⟨w, -, rfl⟩ := List.mem_map.1 listed
    exact ⟨rfl, rfl⟩
  obtain ⟨dropped, perm, longer, full, lost⟩ := placeAll_drops now _ (closedBy m k now vs) made
  have kept : ∀ v, v.isOpen = true → v ∈ closedBy m k now vs ∨ v ∈ restsOf m k now vs →
      v ∈ placeAll now (restsOf m k now vs) (closedBy m k now vs) := fun v isOpen listed => by
    refine (List.mem_append.1 (perm.mem_iff.2 (List.mem_append.2 listed))).resolve_right fun gone => ?_
    obtain ⟨u, ends, -⟩ := lost v gone
    rw [Interval.isOpen_iff, ends] at isOpen
    cases isOpen
  exact {
    groups := fun v listed isOpen same => by
      rcases List.mem_append.1 (perm.mem_iff.1 (List.mem_append_left _ listed)) with stood | new
      · obtain ⟨w, inside, rfl⟩ := List.mem_map.1 stood
        by_cases met : w.meets m k = true
        · simp [met, Interval.isOpen] at isOpen
        · rw [if_neg met] at isOpen same ⊢
          rw [Interval.meets_iff] at met
          by_contra meets
          exact met ⟨isOpen, same, meets⟩
      · obtain ⟨w, -, rfl⟩ := List.mem_map.1 new
        refine BitVec.eq_of_getLsbD_eq fun i _ => ?_
        cases inMask : m.getLsbD i <;> simp [Interval.rest, inMask]
    goesOn := fun v listed isOpen g inside outside => by
      by_cases met : v.meets m k = true
      · obtain ⟨-, same, -⟩ := (Interval.meets_iff m k v).1 met
        have left : (v.mask &&& ~~~m).getLsbD g = true := by
          rw [BitVec.getLsbD_and, BitVec.getLsbD_not, inside, outside same]
          simp [BitVec.lt_of_getLsbD inside]
        have rest : v.mask &&& ~~~m ≠ 0 := fun zero => by
          rw [zero] at left
          simp at left
        exact ⟨v.rest m now, kept _ rfl (.inr (List.mem_map.2 ⟨v, List.mem_filter.2 ⟨listed, by rw [met, decide_eq_true rest]; rfl⟩, rfl⟩)), rfl, rfl, left⟩
      · exact ⟨v, kept v isOpen (.inl (List.mem_map.2 ⟨v, listed, if_neg met⟩)), isOpen, rfl, inside⟩
    drops := by
      have rests : restsOf m k now vs = (vs.filter fun v => v.isOpen ∧ v.kind.same k ∧ v.mask &&& m ≠ 0 ∧ v.mask &&& ~~~m ≠ 0).map
          fun v => ⟨v.mask &&& ~~~m, v.kind, now, none⟩ := by
        unfold restsOf
        refine congrArg (List.map (Interval.rest m now)) (List.filter_congr fun v _ => ?_)
        rw [Bool.eq_iff_iff, Bool.and_eq_true, Interval.meets_iff, decide_eq_true_iff, decide_eq_true_iff, and_assoc, and_assoc]
      have closed : closedBy m k now vs = vs.map fun v =>
          if v.isOpen ∧ v.kind.same k ∧ v.mask &&& m ≠ 0 then { v with endT := some now } else v := by
        unfold closedBy
        simp only [Interval.meets_iff]
      have count : (closedBy m k now vs).length = vs.length := List.length_map _
      rw [closed, rests] at perm
      refine ⟨_, dropped, rfl, ?_, fun room => ?_, fun some_ => ?_, lost⟩
      · rw [closed, rests]
        exact perm
      · by_contra some_
        have := (full some_).2
        rw [← rests] at room
        omega
      · have := (full some_).1
        omega }

/-! ### The order of the list (R79) -/

theorem insertBefore_sorted {x : Interval} {vs : List Interval} (sorted : vs.Pairwise fun v w => v.beginT ≤ w.beginT) :
    (insertBefore (fun v => decide (x.beginT < v.beginT)) x vs).Pairwise fun v w => v.beginT ≤ w.beginT := by
  induction vs with
  | nil => exact List.pairwise_singleton _ _
  | cons y ys ih =>
    obtain ⟨first, rest⟩ := List.pairwise_cons.1 sorted
    unfold insertBefore
    by_cases before : x.beginT < y.beginT
    · rw [if_pos (decide_eq_true before)]
      refine List.pairwise_cons.2 ⟨fun v listed => ?_, sorted⟩
      rcases List.mem_cons.1 listed with rfl | inside
      · exact before.le
      · exact before.le.trans (first v inside)
    · rw [if_neg (by simpa using before)]
      refine List.pairwise_cons.2 ⟨fun v listed => ?_, ih rest⟩
      rcases List.mem_cons.1 ((insertBefore_perm _ _ _).mem_iff.1 listed) with rfl | inside
      · exact Nat.le_of_not_lt before
      · exact first v inside

theorem placeInterval_sorted (m : BitVec 8) (k : MuteKind) (t : Nat) {vs : List Interval}
    (sorted : vs.Pairwise fun v w => v.beginT ≤ w.beginT) : (placeInterval m k t vs).Pairwise fun v w => v.beginT ≤ w.beginT :=
  insertBefore_sorted (x := ⟨m, k, t, none⟩) (sorted.sublist (makeRoom_sublist vs))

theorem openInterval_sorted (m : BitVec 8) (k : MuteKind) (t : Nat) {vs : List Interval}
    (sorted : vs.Pairwise fun v w => v.beginT ≤ w.beginT) : (openInterval m k t vs).Pairwise fun v w => v.beginT ≤ w.beginT := by
  unfold openInterval
  dsimp only
  split
  · exact sorted
  · exact placeInterval_sorted _ _ _ sorted

theorem placeAll_sorted (t : Nat) {new us : List Interval} (sorted : us.Pairwise fun v w => v.beginT ≤ w.beginT) :
    (placeAll t new us).Pairwise fun v w => v.beginT ≤ w.beginT := by
  induction new generalizing us with
  | nil => exact sorted
  | cons x new ih => exact ih (placeInterval_sorted _ _ _ sorted)

theorem closeInterval_sorted (m : BitVec 8) (k : MuteKind) (t : Nat) {vs : List Interval}
    (sorted : vs.Pairwise fun v w => v.beginT ≤ w.beginT) : (closeInterval m k t vs).Pairwise fun v w => v.beginT ≤ w.beginT := by
  rw [closeInterval_eq]
  refine placeAll_sorted t (us := closedBy m k t vs) (List.pairwise_map.2 (sorted.imp fun {v w} order => ?_))
  split <;> split <;> exact order

/-! ### The entries by their action (R76) -/

theorem BankEntry.act_on {e : BankEntry} {k : MuteKind} (on : e.action = 1 ∧ k = .mute ∨ e.action = 3 ∧ k = .desens e.factor) (t : Nat)
    (vs : List Interval) : e.act t vs = openInterval e.mask k t vs := by
  unfold BankEntry.act
  rcases on with ⟨is, rfl⟩ | ⟨is, rfl⟩
  · exact if_pos is
  · rw [is]
    rfl

theorem BankEntry.act_off {e : BankEntry} {k : MuteKind} (off : e.action = 2 ∧ k = .mute ∨ e.action = 4 ∧ k = .desens e.factor) (t : Nat)
    (vs : List Interval) : e.act t vs = closeInterval e.mask k t vs := by
  unfold BankEntry.act
  rcases off with ⟨is, rfl⟩ | ⟨is, rfl⟩
  · rw [is]
    rfl
  · rw [is]
    rfl

theorem BankEntry.act_none {e : BankEntry} (none_ : e.action = 0 ∨ 5 ≤ e.action) (t : Nat) (vs : List Interval) : e.act t vs = vs := by
  unfold BankEntry.act actMuteOn actMuteOff actDesensOn actDesensOff
  rw [if_neg (by omega), if_neg (by omega), if_neg (by omega), if_neg (by omega)]

/-- Settles O34: an ON entry by `openInterval_opened`, an OFF entry by `closeInterval_closed`. -/
theorem muteEntriesAct : Obligations.MuteEntriesAct := by
  unfold Obligations.MuteEntriesAct
  refine fun e now vs ok => ⟨fun k on => ?on, fun k off => ?off, fun other => e.act_none other now vs, fun sorted => ?sorted⟩
  case on =>
    rw [BankEntry.act_on on]
    obtain ⟨groups, stays, members, drops⟩ := openInterval_opened e.mask k now vs ok
    exact ⟨groups, stays, members, drops⟩
  case off =>
    rw [BankEntry.act_off off]
    obtain ⟨groups, goesOn, drops⟩ := closeInterval_closed e.mask k now vs ok
    exact ⟨groups, goesOn, drops⟩
  case sorted =>
    unfold BankEntry.act
    split
    · exact openInterval_sorted _ _ _ sorted
    · split
      · exact closeInterval_sorted _ _ _ sorted
      · split
        · exact openInterval_sorted _ _ _ sorted
        · split
          · exact closeInterval_sorted _ _ _ sorted
          · exact sorted

end Sys2Proof.Machine
end

section
/-! SUPPORT. The upstream port (R122, R123) and the releases of the held list (R131, R132, R177). -/
namespace Sys2Proof.Machine

/-! ### The first of a list (R58, R122) -/

/-- The first that satisfies `p` is taken out of a list in which nothing before it does. -/
theorem takeFirst_split {α : Type} {p : α → Bool} {pre post : List α} {a : α} (before : ∀ x ∈ pre, p x = false) (first : p a = true) :
    takeFirst p (pre ++ a :: post) = some (a, pre ++ post) := by
  induction pre with
  | nil => exact if_pos first
  | cons y ys ih =>
    have other : p y = false := before y List.mem_cons_self
    have rest := ih fun x listed => before x (List.mem_cons_of_mem _ listed)
    show takeFirst p (y :: (ys ++ a :: post)) = _
    unfold takeFirst
    rw [if_neg (by simp [other]), rest]
    rfl

theorem takeFirst_none {α : Type} {p : α → Bool} {l : List α} (none_ : ∀ x ∈ l, p x = false) : takeFirst p l = none := by
  induction l with
  | nil => rfl
  | cons y ys ih =>
    unfold takeFirst
    rw [if_neg (by simp [none_ y List.mem_cons_self]), ih fun x listed => none_ x (List.mem_cons_of_mem _ listed)]

/-- The first announcement of a number, taken off the list. -/
theorem takeFirst_erase {l : List Nat} {n : Nat} (listed : n ∈ l) : takeFirst (fun m => m == n) l = some (n, l.erase n) := by
  induction l with
  | nil => cases listed
  | cons y ys ih =>
    unfold takeFirst
    by_cases here : y = n
    · rw [if_pos (by simpa using here), here, List.erase_cons_head]
    · rw [if_neg (by simpa using here), ih ((List.mem_cons.1 listed).resolve_left (Ne.symm here)), List.erase_cons_tail (by simpa using here)]

/-! ### Completions of memory (R134) -/

theorem State.complete_owned {p : Owner → Bool} {s : State} {o : Outstanding} {rest : List Outstanding}
    (front : s.guard.downstream = o :: rest) (owner : p o.owner = true) :
    s.complete p = some (o, s.setGuard fun g => { g with downstream := rest }) := by
  unfold State.complete
  rw [front]
  exact if_pos owner

/-! ### The upstream port (R122, R123) -/

theorem Unanswered.data_of_length {u : Unanswered} {code : MemCode} {data : List Byte}
    (length : data.length = if u.kind = .read ∧ code = .okay then 8 * u.beats else 0) : u.data code data = data := by
  unfold Unanswered.data
  cases kind : u.kind with
  | read =>
    cases code with
    | okay => exact fit_of_length (by simpa [kind] using length)
    | memerr => rfl
  | write =>
    have empty : data = [] := List.length_eq_zero_iff.1 (by simpa [kind] using length)
    rw [empty]

theorem Unanswered.zeros_eq (u : Unanswered) : u.zeros = if u.kind = .read then List.replicate (8 * u.beats) 0 else [] := by
  unfold Unanswered.zeros
  cases u.kind <;> rfl

theorem upCode_eq (code : MemCode) : upCode code = if code = .okay then .okay else .memerr := by
  cases code <;> rfl

/-- Settles O36. -/
theorem upstreamPort : Obligations.UpstreamPort := by
  unfold Obligations.UpstreamPort
  refine ⟨fun r s => ⟨fun ok room => ?accepted, fun ok full => ?waits, fun bad => ?refused⟩, ?completions⟩
  case accepted =>
    have accepts : exec (.upstreamRequest r) s = done (s.setGuard fun g =>
        { g with queue := g.queue ++ [⟨r, false⟩], unanswered := g.unanswered ++ [⟨r.tag, r.kind, r.beats, .waiting⟩] }) := by
      show execUpstreamRequest r s = _
      unfold execUpstreamRequest
      rw [if_neg (by simp [ok]), if_pos room]
    exact ⟨_, accepts, rfl, State.settle_frame (State.setGuard_frame _ (Frame.refl _ s) (by decide)) (by decide)⟩
  case waits =>
    show execUpstreamRequest r s = _
    unfold execUpstreamRequest
    rw [if_neg (by simp [ok]), if_neg (Nat.not_lt.2 full)]
    rfl
  case refused =>
    show execUpstreamRequest r s = _
    unfold execUpstreamRequest
    rw [if_pos (by simp [bad])]
  case completions =>
    intro tag code data s pre post u queue others isTag
    have taken : takeFirst (fun x : Unanswered => x.tag == tag) s.guard.unanswered = some (u, pre ++ post) := by
      rw [queue]
      exact takeFirst_split (fun x listed => by simpa using others x listed) (by simpa using isTag)
    refine ⟨fun refused => ?refused, fun o rest granted front owner length => ?granted, fun waiting => ?waiting⟩
    case refused =>
      have answers : exec (.upstreamCompletion tag code data) s = done ((s.setGuard fun g => { g with unanswered := pre ++ post }).setGuard
          fun g => { g with upstream := some ⟨tag, .refused, u.zeros⟩ }) := by
        show execUpstreamCompletion tag code data s = _
        unfold execUpstreamCompletion
        simp only [taken, refused]
      refine ⟨_, answers, by rw [← u.zeros_eq]; rfl, State.settle_frame (State.setGuard_frame _ (State.setGuard_frame _ (Frame.refl _ s)
        (by decide)) (by decide)) (by decide)⟩
    case granted =>
      have completes : (s.setGuard fun g => { g with unanswered := pre ++ post }).complete (· == .pass tag) = some (o,
          (s.setGuard fun g => { g with unanswered := pre ++ post }).setGuard fun g => { g with downstream := rest }) :=
        State.complete_owned front (by simp [owner])
      have answers : exec (.upstreamCompletion tag code data) s = done (((s.setGuard fun g => { g with unanswered := pre ++ post }).setGuard
          fun g => { g with downstream := rest }).setGuard fun g => { g with upstream := some ⟨tag, upCode code, u.data code data⟩ }) := by
        show execUpstreamCompletion tag code data s = _
        unfold execUpstreamCompletion
        simp only [taken, granted, completes]
      refine ⟨_, answers, ?_, State.settle_frame (State.setGuard_frame _ (State.setGuard_frame _ (State.setGuard_frame _ (Frame.refl _ s)
        (by decide)) (by decide)) (by decide)) (by decide)⟩
      rw [← upCode_eq, Unanswered.data_of_length length]
      rfl
    case waiting =>
      show execUpstreamCompletion tag code data s = _
      unfold execUpstreamCompletion
      simp only [taken, waiting]
      rfl

/-! ### Releases of the held list (R131, R132, R177) -/

/-- A release writes the list and its count only. -/
theorem State.releaseHeld_guard (p : Held → Bool) (s : State) : (s.releaseHeld p).guard =
    { s.guard with held := (s.releaseHeld p).guard.held, releases := (s.releaseHeld p).guard.releases } := rfl

theorem Held.onSlot_iff (n : Nat) (h : Held) : h.onSlot n = true ↔ h.kind = .write n := by
  unfold Held.onSlot
  cases h.kind with
  | write m => simp
  | read m => simp

/-- The slots of the HELD writes, in list order (R131). -/
theorem heldSlots_eq (l : List Held) : heldSlots l = l.filterMap fun h => match h.kind, h.state with
    | .write n, .held _ => some n
    | _, _ => none := by
  induction l with
  | nil => rfl
  | cons h hs ih =>
    obtain ⟨r, kind, state⟩ := h
    unfold heldSlots
    cases kind with
    | write n => cases state <;> simp [Held.isHeld, ih]
    | read m => simp [ih]

theorem modify_eq_set {α : Type} {l : List α} {i : Nat} {a : α} (at_ : l[i]? = some a) (f : α → α) : l.modify i f = l.set i (f a) := by
  rw [List.modify_eq_set_getElem?, at_]
  rfl

/-- The deadline of a HELD entry, before it is reached. -/
theorem Held.not_due {now : Nat} {h : Held} (early : ∀ d, h.state = .held (some d) → now < d) : h.due now = false := by
  unfold Held.due reached
  cases state : h.state with
  | released n => rfl
  | held at_ =>
    cases at_ with
    | none => rfl
    | some d => exact decide_eq_false (Nat.not_le.2 (early d state))

theorem State.cutSlots_frame (ns : List Nat) (s : State) :
    Frame [.intake, .notices, .writer, .tallies, .wires] s (ns.foldl (fun t n => t.cutSlot n) s) := by
  induction ns generalizing s with
  | nil => exact Frame.refl _ s
  | cons n ns ih => exact (State.cutSlot_frame n (Frame.refl _ s) (by decide)).trans (ih _)

/-- Settles O40: the releases by `State.releaseHeld_releases`, the cuts by `State.cutSlots_cut`. -/
theorem heldEntriesAreReleased : Obligations.HeldEntriesAreReleased := by
  unfold Obligations.HeldEntriesAreReleased
  refine fun s => ⟨fun n => ⟨fun listed => ?free, fun absent => ?absent⟩, fun i n d r at_ due => ?limit, fun i early => ?limitEarly,
    fun i d r m at_ due => ?read, fun i early => ?readEarly, fun announced => ?unattended, fun none_ => ?noAnnouncement⟩
  case free =>
    have frees : exec (.slotFree n) s = done ((s.setWires fun w => { w with slotFree := s.wires.slotFree.erase n }).releaseHeld (Held.onSlot n)) := by
      show execSlotFree n s = _
      unfold execSlotFree
      simp only [takeFirst_erase listed]
    have releases := (s.setWires fun w => { w with slotFree := s.wires.slotFree.erase n }).releaseHeld_releases (Held.onSlot n)
    exact ⟨_, frees, rfl, rfl, releases.congr (fun h => (h.onSlot_iff n).symm) rfl rfl rfl rfl,
      State.settle_frame (State.releaseHeld_frame _ (State.setWires_frame _ (Frame.refl _ s) (by decide)) (by decide)) (by decide)⟩
  case absent =>
    show execSlotFree n s = _
    unfold execSlotFree
    rw [takeFirst_none fun m listed => by
      simp only [beq_eq_false_iff_ne]
      exact fun same => absent (same ▸ listed)]
    rfl
  case limit =>
    have expires : exec (.holdLimitExpiry i) s = done ((s.setGuard fun g =>
        { g with held := g.held.modify i fun x => { x with state := .held none } }).setWires fun w =>
        { w with cutRequests := w.cutRequests ++ [n] }) := by
      show execHoldLimitExpiry i s = _
      unfold execHoldLimitExpiry
      simp only [at_]
      exact if_pos (State.reached_of_due rfl due)
    refine ⟨_, expires, ?_, rfl, State.settle_frame (State.setWires_frame _ (State.setGuard_frame _ (Frame.refl _ s) (by decide)) (by decide))
      (by decide)⟩
    show ({ s.guard with held := s.guard.held.modify i fun x => { x with state := .held none } } : PathGuard) = _
    rw [modify_eq_set at_]
  case limitEarly =>
    show execHoldLimitExpiry i s = _
    unfold execHoldLimitExpiry
    cases at_ : s.guard.held[i]? with
    | none => rfl
    | some h =>
      cases kind : h.kind with
      | read m => simp only [kind]; rfl
      | write n =>
        simp only [kind]
        rw [if_neg]
        · rfl
        · rw [Held.not_due (now := s.now) fun d state => early h n d at_ kind state]
          exact Bool.false_ne_true
  case read =>
    have expires : exec (.readHoldExpiry i) s = done (s.setGuard fun g =>
        { g with held := g.held.modify i (Held.release g.releases), releases := g.releases + 1 }) := by
      show execReadHoldExpiry i s = _
      unfold execReadHoldExpiry
      simp only [at_]
      exact if_pos (Bool.and_eq_true_iff.2 ⟨rfl, State.reached_of_due rfl due⟩)
    refine ⟨_, expires, ?_, State.settle_frame (State.setGuard_frame _ (Frame.refl _ s) (by decide)) (by decide)⟩
    show ({ s.guard with held := s.guard.held.modify i (Held.release s.guard.releases), releases := s.guard.releases + 1 } : PathGuard) = _
    rw [modify_eq_set at_]
    rfl
  case readEarly =>
    show execReadHoldExpiry i s = _
    unfold execReadHoldExpiry
    cases at_ : s.guard.held[i]? with
    | none => rfl
    | some h =>
      dsimp only
      rw [if_neg]
      · rfl
      · rw [Bool.and_eq_true]
        rintro ⟨isRead, due⟩
        obtain ⟨m, kind⟩ := h.isRead_iff.1 isRead
        rw [Held.not_due (now := s.now) fun d state => early h m d at_ kind state] at due
        cases due
  case unattended =>
    have cuts := State.cutSlots_cut (heldSlots s.guard.held) (s.setWires fun w => { w with unattGuard := w.unattGuard - 1 })
    have guard : ((heldSlots s.guard.held).foldl (fun t n => t.cutSlot n)
      (s.setWires fun w => { w with unattGuard := w.unattGuard - 1 })).guard = s.guard := State.cutSlots_frame _ _ .guard (by decide)
    have e : exec .unattendedAtPathGuard s = done (((heldSlots s.guard.held).foldl (fun t n => t.cutSlot n)
      (s.setWires fun w => { w with unattGuard := w.unattGuard - 1 })).releaseHeld fun _ => true) := if_neg announced
    generalize (heldSlots s.guard.held).foldl (fun t n => t.cutSlot n) (s.setWires fun w => { w with unattGuard := w.unattGuard - 1 }) = x
      at cuts guard e
    refine ⟨_, x, _, e, heldSlots_eq _, cuts, State.settle_frame (State.releaseHeld_frame _ (Frame.refl _ x) (by decide)) (by decide), ?_,
      (x.releaseHeld_releases _).congr (fun _ => by simp) (by rw [guard]) (by rw [guard]) rfl rfl⟩
    rw [State.settle_guard, State.releaseHeld_guard, guard]
  case noAnnouncement =>
    exact if_pos none_

end Sys2Proof.Machine
end

section
/-! SUPPORT. Pins, unpins and cuts (R10, R12), and the deadlines of assembly and silence (R14, R63). -/
namespace Sys2Proof.Machine

/-! ### Pins, unpins and cuts (R10, R12) -/

theorem State.setSlot_dir {s : State} {n : Nat} {e : Slot} (at_ : s.intake.dir[n]? = some e) (f : Slot → Slot) :
    (s.setSlot n f).intake = { s.intake with dir := s.intake.dir.set n (f e) } := by
  show ({ s.intake with dir := s.intake.dir.modify n f } : Intake) = _
  rw [modify_eq_set at_]

theorem State.answerPin_placed {s : State} {ev st n : Nat} {e : Slot} (at_ : s.intake.dir[n]? = some e) (clear : e.cutMark = false) :
    s.answerPin ev st n e.gen = s.setSlot n fun x => { x with pins := x.pins + 1 } := by
  unfold State.answerPin State.slot
  rw [at_]
  exact if_pos ⟨rfl, clear⟩

theorem State.answerPin_refused {s : State} {ev st n gen : Nat} {e : Slot} (at_ : s.intake.dir[n]? = some e)
    (stale : gen ≠ e.gen ∨ e.cutMark = true) :
    s.answerPin ev st n gen = s.setWires fun w => { w with refusedPins := w.refusedPins ++ [⟨ev, st, n, gen⟩] } := by
  unfold State.answerPin State.slot
  rw [at_]
  exact if_neg fun ⟨same, clear⟩ => stale.elim (fun h => h same.symm) fun h => by simp [clear] at h

/-- The first request on a slot (log 5). -/
theorem takeFirst_pin {n : Nat} {pins pre post : List PinMsg} {m : PinMsg} (queue : pins = pre ++ m :: post) (others : ∀ x ∈ pre, x.slot ≠ n)
    (slot : m.slot = n) : takeFirst (fun x : PinMsg => x.slot == n) pins = some (m, pre ++ post) := by
  rw [queue]
  exact takeFirst_split (fun x listed => by simpa using others x listed) (by simpa using slot)

/-- An unpin with the generation in force lowers the count, down to zero (R10). -/
theorem State.unpinSlot_lowers {s : State} {n : Nat} {e : Slot} (at_ : s.intake.dir[n]? = some e) :
    (s.unpinSlot n e.gen).intake = { s.intake with dir := s.intake.dir.set n { e with pins := e.pins - 1 } } ∧
      (s.unpinSlot n e.gen).wires = { s.wires with slotFree := if e.pins = 1 then s.wires.slotFree ++ [n] else s.wires.slotFree } := by
  unfold State.unpinSlot State.slot
  rw [at_]
  dsimp only
  by_cases pinned : 0 < e.pins
  · rw [if_pos ⟨rfl, pinned⟩]
    have lowers := State.setSlot_dir at_ fun x => { x with pins := x.pins - 1 }
    by_cases last : e.pins = 1
    · rw [if_pos last, if_pos last]
      exact ⟨lowers, rfl⟩
    · rw [if_neg last, if_neg last]
      exact ⟨lowers, rfl⟩
  · have zero : e.pins = 0 := Nat.eq_zero_of_not_pos pinned
    rw [if_neg fun h => pinned h.2, if_neg (by omega)]
    have same : ({ e with pins := e.pins - 1 } : Slot) = e := by rw [show e.pins - 1 = e.pins by omega]
    exact ⟨by rw [same, set_of_getElem? at_], rfl⟩

theorem State.unpinSlot_stale {s : State} {n gen : Nat} {e : Slot} (at_ : s.intake.dir[n]? = some e) (stale : gen ≠ e.gen ∨ e.pins = 0) :
    s.unpinSlot n gen = s := by
  unfold State.unpinSlot State.slot
  rw [at_]
  exact if_neg fun ⟨same, pinned⟩ => stale.elim (fun h => h same.symm) fun h => by omega

/-- Settles O41. -/
theorem pinsUnpinsAndCuts : Obligations.PinsUnpinsAndCuts := by
  unfold Obligations.PinsUnpinsAndCuts
  refine fun n e s at_ => ⟨fun ev st gen pre post queue others => ?pin, fun gen pre post queue others => ?unpin, fun asked => ?cut⟩
  case pin =>
    have taken : exec (.pinRequest n) s = done ((s.setWires fun w => { w with pins := pre ++ post }).answerPin ev st n gen) := by
      show execPinRequest n s = _
      unfold execPinRequest
      simp only [takeFirst_pin queue others rfl]
    have stands : (s.setWires fun w => { w with pins := pre ++ post }).intake.dir[n]? = some e := at_
    refine ⟨fun same clear => ?_, fun stale => ?_⟩
    · subst same
      rw [State.answerPin_placed stands clear] at taken
      exact ⟨_, taken, rfl, State.setSlot_dir stands _,
        State.settle_frame (State.setSlot_frame _ _ (State.setWires_frame _ (Frame.refl _ s) (by decide)) (by decide)) (by decide)⟩
    · rw [State.answerPin_refused stands stale] at taken
      exact ⟨_, taken, rfl,
        State.settle_frame (State.setWires_frame _ (State.setWires_frame _ (Frame.refl _ s) (by decide)) (by decide)) (by decide)⟩
  case unpin =>
    have taken : exec (.unpin n) s = done ((s.setWires fun w => { w with pins := pre ++ post }).unpinSlot n gen) := by
      show execUnpin n s = _
      unfold execUnpin
      simp only [takeFirst_pin queue others rfl]
    have stands : (s.setWires fun w => { w with pins := pre ++ post }).intake.dir[n]? = some e := at_
    refine ⟨fun same pinned => ?_, fun stale => ?_⟩
    · subst same
      obtain ⟨intake, wires⟩ := State.unpinSlot_lowers stands
      exact ⟨_, taken, wires, intake,
        State.settle_frame (State.unpinSlot_frame _ _ (State.setWires_frame _ (Frame.refl _ s) (by decide)) (by decide)) (by decide)⟩
    · rw [State.unpinSlot_stale stands stale] at taken
      exact ⟨_, taken, rfl, State.settle_frame (State.setWires_frame _ (Frame.refl _ s) (by decide)) (by decide)⟩
  case cut =>
    have taken : exec (.cut n) s = done ((s.setWires fun w => { w with cutRequests := s.wires.cutRequests.erase n }).cutSlot n) := by
      show execCut n s = _
      unfold execCut
      simp only [takeFirst_erase asked]
    exact ⟨_, _, taken, State.cutSlot_cut n _, State.settle_frame (Frame.refl _ _) (by decide)⟩

/-! ### Two deadlines (R14, R63) -/

/-- The closure CUT at the next sample time (R58, R63). -/
theorem Detector.cutClosure_triggered {d : Detector} {p : OpenPick} {last : Nat} (st : Nat) (state : d.state = .triggered)
    (pick : d.openPick = some p) (next : d.nextTime = some last) : d.cutClosure st = [.closure st p.onset ⟨true, last, p.peak⟩] := by
  unfold Detector.cutClosure
  rw [state, pick, next]
  rfl

theorem Detector.cutClosure_other {d : Detector} (st : Nat) (state : d.state ≠ .triggered) : d.cutClosure st = [] := by
  unfold Detector.cutClosure
  split
  next triggered _ => exact absurd triggered state
  next => rfl

/-- A gap (R59). -/
theorem Detector.gap_eq (d : Detector) : d.gap = if d.state = .off then d else
    { d with state := .settling, count := 0, openPick := none, short := 0, long := 0, warmUp := 0 } := rfl

/-- Settles O42. -/
theorem assemblyAndSilenceDeadlines : Obligations.AssemblyAndSilenceDeadlines := by
  unfold Obligations.AssemblyAndSilenceDeadlines
  refine fun s => ⟨fun i n gen next d got at_ => ?assembly, fun st d x at_ silence => ?silence⟩
  case assembly =>
    have decides : exec (.assemblyTimeout i) s = if d ≤ s.now then
        done (((s.setBufs (s.intake.bufs.set i .free)).setSlot n fun x => { x with refetchNeeded := true }).count .assemblyTimeouts)
        else nothing s := by
      show execAssemblyTimeout i s = _
      unfold execAssemblyTimeout
      rw [at_]
    refine ⟨fun due => ⟨_, decides.trans (if_pos due), rfl, rfl, ?_⟩, fun early => decides.trans (if_neg (Nat.not_le.2 early))⟩
    exact State.settle_frame (State.count_frame _ (State.setSlot_frame _ _ (State.setBufs_frame _ (Frame.refl _ s) (by decide)) (by decide))
      (by decide)) (by decide)
  case silence =>
    have decides : exec (.silenceDeadline st) s = if reached s.now x.silence then
        done ((((s.setDetector st fun x => { x.gap with silence := none, silent := true }).sendAssoc (x.cutClosure st)).raise
          .stationSilent).forgetExpected st) else nothing s := by
      show execSilenceDeadline st s = _
      unfold execSilenceDeadline
      rw [at_]
    refine ⟨fun due => ⟨_, decides.trans (if_pos (State.reached_of_due silence due)), ?engine, ?intake, fun other => ?quiet,
      fun p last state pick nextTime => ?closes, ?pending, ?frame⟩, fun early => decides.trans (if_neg ?_)⟩
    case engine =>
      simp only [State.settle_engine, State.forgetExpected, State.setStationIntake_engine, State.raise_engine, State.sendAssoc_engine,
        State.setDetector_set _ at_, Detector.gap_eq]
      split <;> rfl
    case intake =>
      show (((s.setDetector st fun x => { x.gap with silence := none, silent := true }).sendAssoc (x.cutClosure st)).raise
        .stationSilent |>.setStationIntake st fun si => { si with expected := none }).intake = _
      simp [State.setStationIntake]
    case quiet => simp [State.forgetExpected, Detector.cutClosure_other st other]
    case closes => simp [State.forgetExpected, Detector.cutClosure_triggered st state pick nextTime]
    case pending => simp [State.forgetExpected]
    case frame =>
      exact State.settle_frame (State.forgetExpected_frame _ (State.raise_frame _ (State.sendAssoc_frame _ (State.setDetector_frame _ _
        (Frame.refl _ s) (by decide)) (by decide)) (by decide)) (by decide)) (by decide)
    · rw [State.not_reached (.inr ⟨d, silence, early⟩)]
      exact Bool.false_ne_true

end Sys2Proof.Machine
end

section
/-! SUPPORT. Completions of memory: writes of the record writer and of the STATUS claimant (R136, R142, R154), and refetch reads (R22 to
R24). -/
namespace Sys2Proof.Machine

/-! ### Writes of the part's own (R136) -/

/-- A MEMERR counts once; it raises MEM_FAULT when the work it belongs to stands (R136; log 14). -/
theorem State.writeCompleted_tells (o : Outstanding) (code : MemCode) (s : State) :
    (s.writeCompleted o code).tallies = (if code = .memerr then s.count .memoryErrors else s).tallies ∧
      (s.writeCompleted o code).status.pending =
        (if code = .memerr ∧ o.dropped = false then s.status.pending ||| Notice.memFault.bit else s.status.pending) ∧
      (s.writeCompleted o code).guard = s.guard := by
  unfold State.writeCompleted
  cases code with
  | okay => simp [State.countMemerr]
  | memerr => cases dropped : o.dropped <;> simp [State.countMemerr, State.memFault]

/-- Settles O54. -/
theorem recordAndStatusWritesReturn : Obligations.RecordAndStatusWritesReturn := by
  unfold Obligations.RecordAndStatusWritesReturn
  intro code o rest s m c front owner counted
  have returns : exec c s = done ((s.setGuard fun g => { g with downstream := rest }).writeCompleted o code) := by
    rcases owner with ⟨owned, rfl⟩ | ⟨owned, rfl⟩
    · show execReportWriteCompletion code s = _
      unfold execReportWriteCompletion
      simp only [State.complete_owned (p := (· == .report)) front (by simp [owned])]
    · show execStatusWriteCompletion code s = _
      unfold execStatusWriteCompletion
      simp only [State.complete_owned (p := (· == .status)) front (by simp [owned])]
  obtain ⟨tallies, pending, guard⟩ := (s.setGuard fun g => { g with downstream := rest }).writeCompleted_tells o code
  refine ⟨_, returns, guard, ?_, ?_, State.settle_frame (State.writeCompleted_frame _ _ (State.setGuard_frame _ (Frame.refl _ s) (by decide))
    (by decide)) (by decide)⟩
  · rw [State.settle_tallies, tallies, counted]
    split <;> rfl
  · simp only [State.settle_status, Status.choose_rest]
    exact pending

/-! ### The refetch queue (R22 to R24) -/

/-- A lost block (R23, R24). -/
theorem State.loseRefetch_leaves (e : Refetch) (s : State) :
    (s.loseRefetch e).intake = { s.intake with
      refetch := s.intake.refetch.filter fun x => x.id != e.id, stations := s.intake.stations.modify e.block.station (·.lose e.id) } ∧
    (s.loseRefetch e).status.pending = s.status.pending ||| Notice.blockLost.bit ∧ (s.loseRefetch e).tallies = s.tallies ∧
    (s.loseRefetch e).wires = s.wires := by
  refine ⟨?_, ?_, ?_, ?_⟩
  · rw [State.loseRefetch, State.raise_intake]
    rfl
  · rw [State.loseRefetch, State.raise_status_pending]
    rfl
  · rw [State.loseRefetch, State.raise_tallies]
    rfl
  · rw [State.loseRefetch, State.raise_wires]
    rfl

/-- The items of other refetch entries stand; the one behind a lost item takes the break (R24). -/
theorem dropItem_behind {id : Nat} {pre post : List Item} {it : Item} {b : Bool} (others : ∀ x ∈ pre, x.place ≠ .refetch id) :
    dropItem id (pre ++ ⟨.refetch id, b⟩ :: it :: post) = (pre ++ { it with brk := true } :: post, false) := by
  induction pre with
  | nil => exact if_pos rfl
  | cons y ys ih =>
    show dropItem id (y :: (ys ++ ⟨.refetch id, b⟩ :: it :: post)) = _
    unfold dropItem
    rw [if_neg (others y List.mem_cons_self), ih fun x listed => others x (List.mem_cons_of_mem _ listed)]
    rfl

theorem dropItem_last {id : Nat} {pre : List Item} {b : Bool} (others : ∀ x ∈ pre, x.place ≠ .refetch id) :
    dropItem id (pre ++ [⟨.refetch id, b⟩]) = (pre, true) := by
  induction pre with
  | nil => exact if_pos rfl
  | cons y ys ih =>
    show dropItem id (y :: (ys ++ [⟨.refetch id, b⟩])) = _
    unfold dropItem
    rw [if_neg (others y List.mem_cons_self), ih fun x listed => others x (List.mem_cons_of_mem _ listed)]

theorem StationIntake.lose_behind {id : Nat} {b : Bool} {pre post : List Item} {it : Item} {si : StationIntake}
    (others : ∀ x ∈ pre, x.place ≠ .refetch id) (order : si.order = pre ++ ⟨.refetch id, b⟩ :: it :: post) :
    si.lose id = { si with order := pre ++ { it with brk := true } :: post } := by
  unfold StationIntake.lose
  rw [order, dropItem_behind others]
  simp

theorem StationIntake.lose_last {id : Nat} {b : Bool} {pre : List Item} {si : StationIntake}
    (others : ∀ x ∈ pre, x.place ≠ .refetch id) (order : si.order = pre ++ [⟨.refetch id, b⟩]) :
    si.lose id = { si with order := pre, breakPending := true } := by
  unfold StationIntake.lose
  rw [order, dropItem_last others]
  simp

/-- The queue with its READING entry in the middle (R22). -/
structure Reading (pre : List Refetch) (e : Refetch) (post : List Refetch) : Prop where
  reading : e.state = .reading
  before : ∀ x ∈ pre, x.state = .done ∧ x.id ≠ e.id
  behind : ∀ x ∈ post, x.state = .queued ∧ x.id ≠ e.id

section
variable {pre post : List Refetch} {e : Refetch} (h : Reading pre e post)
include h

theorem Reading.find : (pre ++ e :: post).find? (fun x => x.state == .reading) = some e := by
  rw [List.find?_append, List.find?_eq_none.2 fun x listed => by simp [(h.before x listed).1]]
  simp [h.reading]

theorem Reading.map (f : Refetch → Refetch) :
    ((pre ++ e :: post).map fun x => if x.state = .reading then f x else x) = pre ++ f e :: post := by
  have same (l : List Refetch) (others : ∀ x ∈ l, x.state ≠ .reading) : (l.map fun x => if x.state = .reading then f x else x) = l :=
    (List.map_congr_left fun x listed => if_neg (others x listed)).trans (List.map_id _)
  rw [List.map_append, List.map_cons, same pre fun x listed => by simp [(h.before x listed).1],
    same post fun x listed => by simp [(h.behind x listed).1], if_pos h.reading]

theorem Reading.filter : ((pre ++ e :: post).filter fun x => x.id != e.id) = pre ++ post := by
  rw [List.filter_append, List.filter_cons, if_neg (by simp), List.filter_eq_self.2 fun x listed => by simpa using (h.before x listed).2,
    List.filter_eq_self.2 fun x listed => by simpa using (h.behind x listed).2]

theorem Reading.finish :
    ((pre ++ e :: post).map fun x => if x.id = e.id then { x with state := .done } else x) = pre ++ { e with state := .done } :: post := by
  have same (l : List Refetch) (others : ∀ x ∈ l, x.id ≠ e.id) :
      (l.map fun x => if x.id = e.id then { x with state := .done } else x) = l :=
    (List.map_congr_left fun x listed => if_neg (others x listed)).trans (List.map_id _)
  rw [List.map_append, List.map_cons, same pre fun x listed => (h.before x listed).2, same post fun x listed => (h.behind x listed).2,
    if_pos rfl]

end

/-- The oldest QUEUED entry is taken up (R22). -/
def takenUp : List Refetch → List Refetch
  | [] => []
  | q :: qs => { q with state := .reading } :: qs

theorem takeUp_takenUp {pre post : List Refetch} (before : ∀ x ∈ pre, x.state = .done) (behind : ∀ x ∈ post, x.state = .queued) :
    takeUp (pre ++ post) = pre ++ takenUp post := by
  rw [takeUp_doneQueued pre post before behind]
  cases post <;> rfl

theorem Refetch.offered_eq (e : Refetch) : e.offered = (e.cutFlag || e.memerr || e.granted == if e.beats ≤ 32 then 1 else 2) := rfl

/-- The READING entry goes on while it offers reads or some are outstanding (R23). -/
theorem State.settleRefetch_waits {s : State} {pre post : List Refetch} {e : Refetch} (h : Reading pre e post)
    (queue : s.intake.refetch = pre ++ e :: post) (waits : e.offered = false ∨ e.returned ≠ e.granted) : s.settleRefetch = s := by
  unfold State.settleRefetch
  rw [queue, h.find]
  exact if_neg fun ⟨offered, returned⟩ => waits.elim (fun h => by simp [h] at offered) fun h => h returned

theorem State.settleRefetch_ends {s : State} {pre post : List Refetch} {e : Refetch} (h : Reading pre e post)
    (queue : s.intake.refetch = pre ++ e :: post) (offered : e.offered = true) (returned : e.returned = e.granted) :
    s.settleRefetch = (s.endRefetch e).setRefetch (takeUp (s.endRefetch e).intake.refetch) := by
  unfold State.settleRefetch
  rw [queue, h.find]
  exact if_pos ⟨offered, returned⟩

/-- The three ends of a READING entry (R23), with the next taken up (R22). -/
structure RefetchEnds (s : State) (pre : List Refetch) (e : Refetch) (post : List Refetch) (g : Slot) (t : State) : Prop where
  overtaken : e.cutFlag = true ∨ g.gen ≠ e.gen → t.intake = { s.intake with
      refetch := pre ++ takenUp post, stations := s.intake.stations.modify e.block.station (·.lose e.id) } ∧
    t.status.pending = s.status.pending ||| Notice.blockLost.bit ∧ t.tallies = (s.count .overtaken).tallies ∧ t.wires = s.wires
  failed : e.cutFlag = false → g.gen = e.gen → e.memerr = true → t.intake = { s.intake with
      dir := s.intake.dir.set e.slot { g with pins := g.pins - 1 }
      refetch := pre ++ takenUp post, stations := s.intake.stations.modify e.block.station (·.lose e.id) } ∧
    t.status.pending = s.status.pending ||| Notice.blockLost.bit ∧ t.tallies = s.tallies ∧
    t.wires = { s.wires with slotFree := if g.pins = 1 then s.wires.slotFree ++ [e.slot] else s.wires.slotFree }
  done : e.cutFlag = false → g.gen = e.gen → e.memerr = false → t.intake = { s.intake with
      dir := s.intake.dir.set e.slot { g with pins := g.pins - 1 }
      refetch := pre ++ { e with state := .done } :: takenUp post } ∧
    t.status.pending = s.status.pending ∧ t.tallies = s.tallies ∧
    t.wires = { s.wires with slotFree := if g.pins = 1 then s.wires.slotFree ++ [e.slot] else s.wires.slotFree }

theorem State.settleRefetch_endsAs {s : State} {pre post : List Refetch} {e : Refetch} {g : Slot} (h : Reading pre e post)
    (queue : s.intake.refetch = pre ++ e :: post) (slot : s.intake.dir[e.slot]? = some g) (offered : e.offered = true)
    (returned : e.returned = e.granted) : RefetchEnds s pre e post g s.settleRefetch := by
  rw [State.settleRefetch_ends h queue offered returned]
  have gen : s.hasGen e.slot e.gen = decide (g.gen = e.gen) := by
    unfold State.hasGen State.slot
    rw [slot]
  have next : takeUp (pre ++ post) = pre ++ takenUp post :=
    takeUp_takenUp (fun x listed => (h.before x listed).1) fun x listed => (h.behind x listed).1
  obtain ⟨intake, pending, tallies, wires⟩ := s.loseRefetch_leaves e
  rw [queue, h.filter] at intake
  constructor
  · intro why
    have ends : s.endRefetch e = (s.loseRefetch e).count .overtaken := by
      unfold State.endRefetch
      rw [gen]
      exact if_pos (by simpa using why)
    rw [ends]
    refine ⟨?_, pending, count_tallies_congr _ tallies, wires⟩
    rw [State.count_intake, intake, ← next]
    show ({ ((s.loseRefetch e).count .overtaken).intake with refetch := takeUp (pre ++ post) } : Intake) = _
    rw [State.count_intake, intake]
  · intro notCut same failed
    have ends : s.endRefetch e = (s.loseRefetch e).unpinSlot e.slot g.gen := by
      unfold State.endRefetch
      rw [gen, if_neg (by simp [notCut, same]), if_pos failed, same]
    have slotStands : (s.loseRefetch e).intake.dir[e.slot]? = some g := by
      rw [intake]
      exact slot
    obtain ⟨lowered, freed⟩ := State.unpinSlot_lowers slotStands
    have rest := State.unpinSlot_frame e.slot g.gen (Frame.refl [.intake, .wires] (s.loseRefetch e)) (by decide)
    rw [ends]
    refine ⟨?_, (rest .notices (by decide)).1.trans pending, Eq.trans (rest .tallies (by decide)) tallies, freed.trans (by rw [wires])⟩
    rw [lowered, intake, ← next]
    show ({ ((s.loseRefetch e).unpinSlot e.slot g.gen).intake with refetch := takeUp (pre ++ post) } : Intake) = _
    rw [lowered, intake]
  · intro notCut same good
    have ends : s.endRefetch e = (s.setRefetch (pre ++ { e with state := .done } :: post)).unpinSlot e.slot g.gen := by
      unfold State.endRefetch
      rw [gen, if_neg (by simp [notCut, same]), if_neg (by simp [good]), queue, h.finish, same]
    obtain ⟨lowered, freed⟩ := State.unpinSlot_lowers (s := s.setRefetch (pre ++ { e with state := .done } :: post)) slot
    have rest := State.unpinSlot_frame e.slot g.gen
      (Frame.refl [.intake, .wires] (s.setRefetch (pre ++ { e with state := .done } :: post))) (by decide)
    have nextDone : takeUp (pre ++ { e with state := .done } :: post) = pre ++ { e with state := .done } :: takenUp post := by
      rw [List.append_cons, takeUp_takenUp (fun x listed => ?_) fun x listed => (h.behind x listed).1, List.append_assoc]
      · rfl
      · rcases List.mem_append.1 listed with before | last
        · exact (h.before x before).1
        · rw [List.mem_singleton.1 last]
    rw [ends]
    refine ⟨?_, (rest .notices (by decide)).1, rest .tallies (by decide), freed⟩
    rw [← nextDone]
    show ({ ((s.setRefetch (pre ++ { e with state := .done } :: post)).unpinSlot e.slot g.gen).intake with
      refetch := takeUp ((s.setRefetch (pre ++ { e with state := .done } :: post)).unpinSlot e.slot g.gen).intake.refetch } : Intake) = _
    rw [lowered]
    rfl

theorem execRefetchReadCompletion_of {code : MemCode} {data : List Byte} {o : Outstanding} {rest : List Outstanding} {s : State}
    (front : s.guard.downstream = o :: rest) (owner : o.owner = .refetch) : execRefetchReadCompletion code data s =
      if o.dropped then done ((s.setGuard fun g => { g with downstream := rest }).countMemerr code)
      else done ((((s.setGuard fun g => { g with downstream := rest }).countMemerr code).setReading
        (Refetch.gotData o.beats code data)).settleRefetch) := by
  unfold execRefetchReadCompletion
  simp only [State.complete_owned (p := (· == .refetch)) front (by simp [owner])]

/-- The MEMERR of a read counts (R136). -/
theorem State.countMemerr_eq (code : MemCode) (s : State) :
    s.countMemerr code = if code = .memerr then s.count .memoryErrors else s := by
  cases code <;> rfl

/-- What the data of a read does to the READING entry (R22). -/
theorem Refetch.gotData_eq (beats : Nat) (code : MemCode) (data : List Byte) (e : Refetch) : e.gotData beats code data = { e with
    returned := e.returned + 1
    memerr := e.memerr || code == .memerr
    block := { e.block with body := e.block.body ++ fit (8 * beats) data } } := rfl

/-- The settling of the refetch writes these areas only. -/
theorem State.settleRefetch_leaves (s : State) : Frame [.intake, .notices, .writer, .tallies, .wires] s s.settleRefetch :=
  State.settleRefetch_frame (Frame.refl _ s) (by decide)

/-- What a returned read gives before the settling: its MEMERR counted, its bytes kept (R22, R136). -/
theorem State.gotRead_tells {pre post : List Refetch} {e : Refetch} (h : Reading pre e post) {s : State}
    (queue : s.intake.refetch = pre ++ e :: post) (rest : List Outstanding) (code : MemCode) (f : Refetch → Refetch) :
    ∃ v, v = ((s.setGuard fun g => { g with downstream := rest }).countMemerr code).setReading f ∧
      v.intake = { s.intake with refetch := pre ++ f e :: post } ∧ v.guard = { s.guard with downstream := rest } ∧
      v.status = s.status ∧ v.tallies = (if code = .memerr then s.count .memoryErrors else s).tallies ∧ v.wires = s.wires ∧
      Frame [.intake, .guard, .tallies] s v := by
  refine ⟨_, rfl, ?_, ?_, ?_, ?_, ?_, State.setReading_frame f (State.countMemerr_frame code (State.setGuard_frame _ (Frame.refl _ s)
    (by decide)) (by decide)) (by decide)⟩
  · show ({ ((s.setGuard fun g => { g with downstream := rest }).countMemerr code).intake with refetch := _ } : Intake) = _
    rw [show ((s.setGuard fun g => { g with downstream := rest }).countMemerr code).intake = s.intake from
      State.countMemerr_frame code (State.setGuard_frame _ (Frame.refl [.guard, .tallies] s) (by decide)) (by decide) .intake (by decide),
      queue, h.map]
  · cases code <;> rfl
  · cases code <;> rfl
  · cases code <;> rfl
  · cases code <;> rfl

/-- Settles O45. -/
theorem refetchReadReturns : Obligations.RefetchReadReturns := by
  unfold Obligations.RefetchReadReturns
  refine ⟨fun code data o rest s m front owner counted => ⟨fun dropped => ?_, fun e e' pre post next g lst kept queue reading before behind
    slot nextIs e'Is lstIs => ?_⟩, fun id b pre post it si others => ⟨StationIntake.lose_behind others, StationIntake.lose_last others⟩⟩
  · have returns := execRefetchReadCompletion_of (code := code) (data := data) front owner
    rw [if_pos dropped] at returns
    refine ⟨_, returns, ?_, ?_, State.settle_frame (State.countMemerr_frame _ (State.setGuard_frame _ (Frame.refl _ s) (by decide))
      (by decide)) (by decide)⟩
    · cases code <;> rfl
    · rw [counted]
      cases code <;> rfl
  · have returns := execRefetchReadCompletion_of (code := code) (data := data) front owner
    rw [if_neg (by simp [kept])] at returns
    have got : e.gotData o.beats code data = e' := (e.gotData_eq o.beats code data).trans e'Is.symm
    have h : Reading pre e post := ⟨reading, before, behind⟩
    have h' : Reading pre e' post := by
      rw [e'Is]
      exact ⟨reading, before, behind⟩
    have nextEq : next = takenUp post := by
      rw [nextIs]
      cases post <;> rfl
    obtain ⟨v, vIs, intake, guard, status, tallies, wires, frame⟩ :=
      State.gotRead_tells h queue rest code (Refetch.gotData o.beats code data)
    rw [got] at intake
    rw [← vIs] at returns
    rw [← counted] at tallies
    have queue' : v.intake.refetch = pre ++ e' :: post := by rw [intake]
    have slot' : v.intake.dir[e'.slot]? = some g := by
      rw [intake, e'Is]
      exact slot
    have offered : e'.offered = lst := by
      rw [lstIs, Refetch.offered_eq, e'Is]
    have granted : e'.granted = e.granted := by rw [e'Is]
    have cut : e'.cutFlag = e.cutFlag := by rw [e'Is]
    have gen : e'.gen = e.gen := by rw [e'Is]
    have id : e'.id = e.id := by rw [e'Is]
    have at_ : e'.slot = e.slot := by rw [e'Is]
    have station : e'.block.station = e.block.station := by rw [e'Is]
    refine ⟨_, returns, Eq.trans (State.settleRefetch_leaves v .guard (by decide)) guard,
      State.settle_frame (State.settleRefetch_frame (frame.mono (by decide)) (by decide)) (by decide), fun waits => ?_,
      fun last all => ⟨fun why => ?_, fun d w notCut same dIs wIs => ⟨fun failed => ?_, fun good => ?_⟩⟩⟩
    · have stays : v.settleRefetch = v := State.settleRefetch_waits h' queue' (by rwa [offered, granted])
      rw [stays]
      exact ⟨intake, by simp [status], tallies, wires⟩
    all_goals
      have ends := State.settleRefetch_endsAs h' queue' slot' (offered.trans last) (all.trans granted.symm)
    · obtain ⟨eIntake, ePending, eTallies, eWires⟩ := ends.overtaken (by rwa [cut, gen])
      simp only [State.settle_intake, State.settle_status, Status.choose_rest, State.settle_tallies, State.settle_wires]
      rw [eIntake, ePending, eTallies, eWires]
      exact ⟨by rw [intake, nextEq, station, id], by rw [status], count_tallies_congr _ tallies, wires⟩
    · obtain ⟨eIntake, ePending, eTallies, eWires⟩ := ends.failed (cut.trans notCut) (same.trans gen.symm) failed
      simp only [State.settle_intake, State.settle_status, Status.choose_rest, State.settle_tallies, State.settle_wires]
      rw [eIntake, ePending, eTallies, eWires]
      exact ⟨by rw [intake, nextEq, station, id, at_, dIs], by rw [status], tallies, by rw [wires, at_, wIs]⟩
    · obtain ⟨eIntake, ePending, eTallies, eWires⟩ := ends.done (cut.trans notCut) (same.trans gen.symm) good
      simp only [State.settle_intake, State.settle_status, Status.choose_rest, State.settle_tallies, State.settle_wires]
      rw [eIntake, ePending, eTallies, eWires]
      exact ⟨by rw [intake, nextEq, at_, dIs], by rw [status], tallies, by rw [wires, at_, wIs]⟩

end Sys2Proof.Machine
end

section
/-! SUPPORT. The detector: what one sample does (R45 to R56). -/
namespace Sys2Proof.Machine

/-! ### Averages (R45, R46) -/

/-- A sum of natural numbers, in either arithmetic (R45). -/
theorem foldl_square_cast (ps : List (Option Int × Int)) (a : Nat) :
    ((ps.foldl (fun a p => a + (centred p.1 p.2).natAbs * (centred p.1 p.2).natAbs) a : Nat) : Int) =
      a + (ps.map fun p => match p.1 with
        | some m => (p.2 - m.tdiv 256) ^ 2
        | none => 0).sum := by
  induction ps generalizing a with
  | nil => simp
  | cons p ps ih =>
    have square : (((centred p.1 p.2).natAbs * (centred p.1 p.2).natAbs : Nat) : Int) = match p.1 with
        | some m => (p.2 - m.tdiv 256) ^ 2
        | none => 0 := by
      rw [Int.natAbs_mul_self]
      cases p.1 with
      | none => rfl
      | some m => exact (sq _).symm
    rw [List.foldl_cons, ih, List.map_cons, List.sum_cons, Nat.cast_add, square, add_assoc]

theorem energy_cast (means : List (Option Int)) (vs : List Int) : (energy means vs : Int) =
    min (((means.zip vs).map fun p => match p.1 with
      | some m => (p.2 - m.tdiv 256) ^ 2
      | none => 0).sum) (2 ^ 64 - 1) := by
  unfold energy
  rw [Nat.cast_min, foldl_square_cast]
  simp

/-- An average moves by its rounded share of the difference (R46). -/
theorem moveAverage_cast (k e a : Nat) : (moveAverage k e a : Int) = a + ((e : Int) * 65536 - a) / 2 ^ k := by
  have pos : 0 < 2 ^ k := Nat.two_pow_pos k
  have le : a ≤ a * 2 ^ k + e * 65536 := (Nat.le_mul_of_pos_right a pos).trans (Nat.le_add_right _ _)
  unfold moveAverage
  rw [Int.natCast_ediv, Nat.cast_sub le]
  push_cast
  rw [show (a : Int) * 2 ^ k + e * 65536 - a = (e * 65536 - a) + a * 2 ^ k by ring,
    Int.add_mul_ediv_right _ _ (by positivity)]
  ring

/-- A mean after a sample; one without a component stands (R45). -/
theorem moveMeans_at {means : List (Option Int)} {vs : List Int} {c : Nat} {m : Option Int} (at_ : means[c]? = some m) :
    (moveMeans means vs)[c]? = some (vs[c]?.elim m fun v => some (moveMean m v)) := by
  induction means generalizing vs c with
  | nil => simp at at_
  | cons x xs ih =>
    cases vs with
    | nil => simpa [moveMeans] using at_
    | cons v vs =>
      cases c with
      | zero =>
        cases at_
        rfl
      | succ c => exact ih at_

/-- The warm-up exponent of a count that is not 0 (R46). -/
theorem warmExp_of_pos {w : Nat} (pos : 1 ≤ w) : warmExp w = Nat.log2 w := by
  unfold warmExp
  rw [max_eq_left pos]

/-! ### The transitions, by the state a sample finds (R50 to R56) -/

theorem Run.sample_off {r : Run} (state : r.det.state = .off) (x : Sample) : r.sample x = r := by
  unfold Run.sample
  rw [state]

theorem Run.sample_settling {r : Run} (state : r.det.state = .settling) (x : Sample) : r.sample x = r.settling x := by
  unfold Run.sample
  rw [state]

theorem Run.sample_listening {r : Run} (state : r.det.state = .listening) (x : Sample) : r.sample x = r.listening x := by
  unfold Run.sample
  rw [state]

theorem Run.sample_deadtime {r : Run} (state : r.det.state = .deadtime) (x : Sample) : r.sample x = r.deadtime x := by
  unfold Run.sample
  rw [state]

theorem Run.sample_onset {r : Run} {p : OpenPick} (state : r.det.state = .onset) (pick : r.det.openPick = some p) (x : Sample) :
    r.sample x = r.onset x p := by
  unfold Run.sample
  rw [state, pick]

theorem Run.sample_triggered {r : Run} {p : OpenPick} (state : r.det.state = .triggered) (pick : r.det.openPick = some p) (x : Sample) :
    r.sample x = r.triggered x p := by
  unfold Run.sample
  rw [state, pick]

/-- The trigger test and the off test, as inequalities (R47). -/
theorem Detector.triggers_iff {t : Tuning} {factor : Nat} {d : Detector} :
    d.triggers t factor = true ↔ t.onRatio * factor * max d.long 65536 ≤ 16 * d.short := decide_eq_true_iff

theorem Detector.belowOff_iff {t : Tuning} {d : Detector} : d.belowOff t = true ↔ 16 * d.short < t.offRatio * max d.long 65536 :=
  decide_eq_true_iff

section
variable {x : Sample} {r : Run} {a z : Detector}

/-- A sample in LISTENING that does not trigger, or is muted (R52). -/
theorem Run.listening_quiet (moved : a = r.det.moveAll x.entry.tuning x.values)
    (quiet : x.muted = true ∨ 16 * a.short < x.entry.tuning.onRatio * x.factor * max a.long 65536) :
    r.listening x = { r with det := a } := by
  unfold Run.listening
  rw [← moved]
  refine if_neg fun ⟨triggers, audible⟩ => ?_
  rw [Detector.triggers_iff] at triggers
  rcases quiet with muted | below
  · simp [muted] at audible
  · omega

/-- A sample in LISTENING that triggers opens a pick (R52). -/
theorem Run.listening_opens (moved : a = r.det.moveAll x.entry.tuning x.values) (audible : x.muted = false)
    (above : x.entry.tuning.onRatio * x.factor * max a.long 65536 ≤ 16 * a.short) {p : OpenPick}
    (opened : p = ⟨x.time, min (16 * a.short / max a.long 65536) 65535, none, x.timeUnsure, decide (1 < x.factor)⟩) :
    r.listening x = Run.confirm x p { r with det := { a with state := .onset, count := 1, openPick := some p } } := by
  unfold Run.listening
  rw [← moved, opened]
  exact if_pos ⟨Detector.triggers_iff.2 above, audible⟩

/-- A sample in ONSET that is muted or below off is a false onset (R53). -/
theorem Run.onset_false {p : OpenPick} (moved : z = r.det.moveShort x.entry.tuning x.values)
    (falls : x.muted = true ∨ 16 * z.short < x.entry.tuning.offRatio * max z.long 65536) :
    r.onset x p = { r with det := { z with state := .listening, count := 0, openPick := none }, falseOnsets := r.falseOnsets + 1 } := by
  unfold Run.onset
  rw [← moved]
  exact if_pos (falls.imp id Detector.belowOff_iff.2)

/-- A sample in ONSET that stays above off counts, and may confirm (R53). -/
theorem Run.onset_counts {p q : OpenPick} (moved : z = r.det.moveShort x.entry.tuning x.values) (audible : x.muted = false)
    (above : x.entry.tuning.offRatio * max z.long 65536 ≤ 16 * z.short)
    (peaked : q = { p with peak := max p.peak (min (16 * z.short / max z.long 65536) 65535) }) :
    r.onset x p = Run.confirm x q { r with det := { z with count := r.det.count + 1, openPick := some q } } := by
  have count : z.count = r.det.count := by rw [moved]; rfl
  unfold Run.onset
  rw [← moved, peaked, ← count]
  refine if_neg ?_
  rw [Detector.belowOff_iff]
  simp [audible, above]

end

/-- A confirmation (R53, R57). -/
theorem Run.confirm_now {x : Sample} {p : OpenPick} {r : Run} (due : x.entry.tuning.minOn ≤ r.det.count) : r.confirm x p = { r with
    det := { r.det with state := .triggered, openPick := some { p with confirmed := some p.peak } }
    sent := r.sent ++ [.pick ⟨x.station, p.onset, p.peak, p.timeUnsure, p.desens⟩] } := if_pos due

theorem Run.confirm_later {x : Sample} {p : OpenPick} {r : Run} (early : r.det.count < x.entry.tuning.minOn) : r.confirm x p = r :=
  if_neg (Nat.not_le.2 early)

section
variable {x : Sample} {r : Run} {a z : Detector}

theorem Run.settling_eq (moved : a = r.det.moveAll x.entry.tuning x.values) : r.settling x = { r with det :=
    if 2 ^ x.entry.tuning.longExp ≤ r.det.count + 1 then { a with state := .listening, count := 0, openPick := none }
    else { a with count := r.det.count + 1 } } := by
  rw [moved]
  by_cases full : 2 ^ x.entry.tuning.longExp ≤ r.det.count + 1
  · exact (if_pos full).trans (by rw [if_pos full]; rfl)
  · exact (if_neg full).trans (by rw [if_neg full]; rfl)

theorem Run.deadtime_eq (moved : a = r.det.moveAll x.entry.tuning x.values) : r.deadtime x = { r with det :=
    if x.entry.tuning.deadTime ≤ r.det.count + 1 then { a with state := .listening, count := 0, openPick := none }
    else { a with count := r.det.count + 1 } } := by
  rw [moved]
  by_cases full : x.entry.tuning.deadTime ≤ r.det.count + 1
  · exact (if_pos full).trans (by rw [if_pos full]; rfl)
  · exact (if_neg full).trans (by rw [if_neg full]; rfl)

/-- A muted sample cuts the pick (R55). -/
theorem Run.triggered_muted {p : OpenPick} (moved : z = r.det.moveShort x.entry.tuning x.values) (muted : x.muted = true) :
    r.triggered x p = { r with
      det := { z with state := x.entry.afterPick, count := 0, openPick := none }
      sent := r.sent ++ [.closure x.station p.onset ⟨true, x.time, p.peak⟩] } := by
  unfold Run.triggered
  rw [← moved]
  exact if_pos muted

/-- A sample below off ends the pick (R54). -/
theorem Run.triggered_ends {p : OpenPick} (moved : z = r.det.moveShort x.entry.tuning x.values) (audible : x.muted = false)
    (below : 16 * z.short < x.entry.tuning.offRatio * max z.long 65536) :
    r.triggered x p = { r with
      det := { z with state := x.entry.afterPick, count := 0, openPick := none }
      sent := r.sent ++ [.closure x.station p.onset ⟨false, x.time, p.peak⟩] } := by
  unfold Run.triggered
  rw [← moved]
  exact (if_neg (by simp [audible])).trans (if_pos (Detector.belowOff_iff.2 below))

/-- A sample that stays above off counts; a pick as long as `max_on` is cut (R54). -/
theorem Run.triggered_goesOn {p q : OpenPick} (moved : z = r.det.moveShort x.entry.tuning x.values) (audible : x.muted = false)
    (above : x.entry.tuning.offRatio * max z.long 65536 ≤ 16 * z.short)
    (peaked : q = { p with peak := max p.peak (min (16 * z.short / max z.long 65536) 65535) }) :
    r.triggered x p = if x.entry.tuning.maxOn * x.entry.sampleRate ≤ r.det.count + 1 then { r with
        det := { z with state := .settling, count := 0, openPick := none }
        sent := r.sent ++ [.closure x.station p.onset ⟨true, x.time, q.peak⟩], maxOnCuts := r.maxOnCuts + 1 }
      else { r with det := { z with count := r.det.count + 1, openPick := some q } } := by
  have count : z.count = r.det.count := by rw [moved]; rfl
  unfold Run.triggered
  rw [← moved, peaked, ← count]
  refine (if_neg (by simp [audible])).trans (if_neg ?_)
  rw [Detector.belowOff_iff]
  exact Nat.not_lt.2 above

end

/-- Settles O44. -/
theorem sampleRules : Obligations.SampleRules := by
  unfold Obligations.SampleRules
  intro x r a z aIs zIs
  have aShort : a.short = moveAverage (min x.entry.tuning.shortExp (warmExp a.warmUp)) (energy r.det.means x.values) r.det.short := by
    rw [aIs]
    rfl
  have aLong : a.long = moveAverage (min x.entry.tuning.longExp (warmExp a.warmUp)) (energy r.det.means x.values) r.det.long := by
    rw [aIs]
    rfl
  have zShort : z.short =
      moveAverage (min x.entry.tuning.shortExp (warmExp r.det.warmUp)) (energy r.det.means x.values) r.det.short := by
    rw [zIs]
    rfl
  have warmUp : a.warmUp = min (r.det.warmUp + 1) 32768 := by
    rw [aIs]
    rfl
  have warm : 1 ≤ a.warmUp := by omega
  have aMeans : a.means = moveMeans r.det.means x.values := by
    rw [aIs]
    rfl
  refine ⟨fun en enIs => ?averages, by rw [zIs]; rfl, by rw [zIs]; rfl, by rw [zIs, aMeans]; rfl, fun c m at_ => ?means,
    fun state => Run.sample_off state x, fun state => ?settling, fun state => ?deadtime, fun state => ⟨fun quiet => ?quiet, fun p audible above opened =>
    ⟨fun more => ?opens, fun last => ?confirmsAtOnce⟩⟩, fun p q pick peaked => ⟨fun state => ⟨fun falls => ?falseOnset, fun audible above => ⟨fun early => ?counts,
    fun due => ?confirms⟩⟩, fun state after afterIs => ⟨fun muted => ?muted, fun audible below => ?ends, fun audible above => ⟨fun long => ?tooLong,
    fun short => ?goesOn⟩⟩⟩⟩
  case averages =>
    have enEnergy : en = energy r.det.means x.values := Int.ofNat.inj (enIs.trans (energy_cast _ _).symm)
    refine ⟨warmUp, fun k kIs => ?_, fun k kIs => ?_, fun k ready kIs => ?_⟩
    · rw [aShort, moveAverage_cast, warmExp_of_pos warm, enEnergy, kIs]
    · rw [aLong, moveAverage_cast, warmExp_of_pos warm, enEnergy, kIs]
    · rw [zShort, moveAverage_cast, warmExp_of_pos ready, enEnergy, kIs]
  case means =>
    rw [aMeans, moveMeans_at at_]
    cases x.values[c]? <;> cases m <;> rfl
  case settling => rw [Run.sample_settling state, Run.settling_eq aIs]
  case deadtime => rw [Run.sample_deadtime state, Run.deadtime_eq aIs]
  case quiet => rw [Run.sample_listening state, Run.listening_quiet aIs quiet]
  case opens =>
    rw [Run.sample_listening state, Run.listening_opens aIs audible above opened]
    exact Run.confirm_later more
  case confirmsAtOnce =>
    rw [Run.sample_listening state, Run.listening_opens aIs audible above opened]
    exact Run.confirm_now last
  case falseOnset => rw [Run.sample_onset state pick, Run.onset_false zIs falls]
  case counts =>
    rw [Run.sample_onset state pick, Run.onset_counts zIs audible above peaked]
    exact Run.confirm_later early
  case confirms =>
    rw [Run.sample_onset state pick, Run.onset_counts zIs audible above peaked]
    exact Run.confirm_now due
  case muted =>
    rw [Run.sample_triggered state pick, Run.triggered_muted zIs muted, afterIs]
    rfl
  case ends =>
    rw [Run.sample_triggered state pick, Run.triggered_ends zIs audible below, afterIs]
    rfl
  case tooLong => rw [Run.sample_triggered state pick, Run.triggered_goesOn zIs audible above peaked, if_pos long]
  case goesOn =>
    rw [Run.sample_triggered state pick, Run.triggered_goesOn zIs audible above peaked, if_neg (Nat.not_le.2 short)]

end Sys2Proof.Machine
end

section
/-! SUPPORT. The loader: what a returned read makes of a LOAD, its end in success and the setup in force then (R155 to R158). -/
namespace Sys2Proof.Machine

/-! ### The setup in the loaded bytes (R184, R185) -/

theorem leVal_take_lt (n : Nat) (bs : List Byte) : leVal (bs.take n) < 256 ^ n := by
  induction n generalizing bs with
  | zero => simp [leVal]
  | succ n ih =>
    cases bs with
    | nil => simp [leVal]
    | cons b bs =>
      have := ih bs
      have := b.isLt
      rw [List.take_succ_cons, leVal, pow_succ]
      omega

/-- The low bytes of a longer field (R179). -/
theorem leVal_take_mod {n m : Nat} (le : n ≤ m) (bs : List Byte) : leVal (bs.take m) % 256 ^ n = leVal (bs.take n) := by
  induction n generalizing m bs with
  | zero => simp [leVal, Nat.mod_one]
  | succ n ih =>
    obtain ⟨m, rfl⟩ : ∃ k, m = k + 1 := ⟨m - 1, by omega⟩
    cases bs with
    | nil => simp [leVal]
    | cons b bs =>
      have low := ih (Nat.le_of_succ_le_succ le) bs
      have small := b.isLt
      rw [List.take_succ_cons, List.take_succ_cons, leVal, leVal, pow_succ, mul_comm _ 256, Nat.mod_mul, Nat.add_mul_mod_self_left,
        Nat.add_mul_div_left _ _ (by decide), Nat.mod_eq_of_lt small, Nat.div_eq_of_lt small, Nat.zero_add, low]

/-- The notice mask has 24 bits (R151). -/
theorem noticeMask_field (bs : List Byte) (off : Nat) : BitVec.ofNat 24 (field bs off 3) = BitVec.ofNat 24 (field bs off 4) := by
  apply BitVec.eq_of_toNat_eq
  rw [BitVec.toNat_ofNat, BitVec.toNat_ofNat]
  have low := leVal_take_mod (show 3 ≤ 4 by decide) (bs.drop off)
  have small := leVal_take_lt 3 (bs.drop off)
  unfold field
  omega

/-- The sample rate that a code names (R41). -/
theorem rateOfCode_eq (n : Nat) : rateOfCode n = if n = 0 then 250 else if n = 1 then 500 else if n = 2 then 1000 else 2000 := by
  match n with
  | 0 => rfl
  | 1 => rfl
  | 2 => rfl
  | n + 3 => simp [rateOfCode]

theorem parseGeneral_read (bs : List Byte) : parseGeneral bs = {
    ringBase := field bs 0x00 4, ringSlots := field bs 0x04 2, writerTags := BitVec.ofNat 16 (field bs 0x06 2)
    hostTags := BitVec.ofNat 16 (field bs 0x08 2), rateDev := field bs 0x0A 2, rateNominal := field bs 0x0C 4
    clipBase := field bs 0x10 4, clipSize := field bs 0x14 4
    reportBase := field bs 0x18 4, reportCap := field bs 0x1C 2
    refSource := if field bs 0x1E 1 = 0 then .ref else .internal, cycleMax := field bs 0x1F 1
    silenceLimit := field bs 0x20 1, scheduleEnable := decide (field bs 0x21 1 = 1), refMinPeriod := field bs 0x22 2
    intakeLatency := field bs 0x24 2, reportWatermark := field bs 0x26 2
    pre := field bs 0x28 2, post := field bs 0x2A 2, tailWait := field bs 0x2C 2, serviceInterval := field bs 0x2E 2
    copyBurst := field bs 0x30 1, holdLimit := field bs 0x31 1, partShare := field bs 0x32 1
    noticeMask := BitVec.ofNat 24 (field bs 0x34 4) } := by
  rw [← noticeMask_field]
  rfl

theorem parseSetup_read (bs : List Byte) : SetupRead bs (parseSetup bs) := by
  refine ⟨parseGeneral_read bs, ⟨by simp [parseSetup, parseStations], fun st e at_ => ?station⟩, ⟨by simp [parseSetup, parseZones],
    fun z e at_ => ?zone⟩⟩
  case station =>
    obtain ⟨k, inTable, rfl⟩ : ∃ k, (List.range 96)[st]? = some k ∧ parseStation bs (0x200 + 32 * k) = e := by
      simpa [parseSetup, parseStations] using at_
    obtain ⟨-, rfl⟩ := List.getElem?_eq_some_iff.1 inTable
    rw [List.getElem_range]
    have place (n : Nat) : 0x200 + 32 * st + n - 0x100 = 0x100 + n + 32 * st := by omega
    simp only [parseStation, pageField, place, rateOfCode_eq]
    rfl
  case zone =>
    obtain ⟨k, inTable, rfl⟩ : ∃ k, (List.range 16)[z]? = some k ∧ parseZone bs (0xE00 + 32 * k) = e := by
      simpa [parseSetup, parseZones] using at_
    obtain ⟨-, rfl⟩ := List.getElem?_eq_some_iff.1 inTable
    rw [List.getElem_range]
    have place (n : Nat) : 0xE00 + 32 * z + n - 0x100 = 0xD00 + n + 32 * z := by omega
    have member (j : Nat) : 0xE00 + 32 * z + 4 + j - 0x100 = 0xD04 + 32 * z + j := by omega
    have first := place 0
    simp only [Nat.add_zero] at first
    refine ⟨by simp only [parseZone, pageField, first], by simp only [parseZone, pageField, place],
      by simp only [parseZone, pageField, place], fun j m => ?_⟩
    simp only [parseZone, pageField, member, List.getElem?_map, Option.map_eq_some_iff, List.getElem?_eq_some_iff, List.length_range,
      List.getElem_range, lt_min_iff]
    constructor
    · rintro ⟨i, ⟨⟨low, high⟩, rfl⟩, rfl⟩
      exact ⟨low, high, rfl⟩
    · rintro ⟨low, high, rfl⟩
      exact ⟨j, ⟨⟨low, high⟩, rfl⟩, rfl⟩

/-! ### The error found of a read (R156) -/

theorem Reason.rank_inj {r q : Reason} (same : r.rank = q.rank) : r = q := by
  cases r <;> cases q <;> simp [Reason.rank] at same ⊢

/-- An error comes no later than another: at a lower offset, or at the same one with no later reason (R156). -/
def notLater (e d : Reason × Nat) : Prop := e.2 < d.2 ∨ e.2 = d.2 ∧ e.1.rank ≤ d.1.rank

theorem notLater_antisymm {e d : Reason × Nat} (h : notLater e d) (k : notLater d e) : e = d := by
  unfold notLater at h k
  exact Prod.ext (Reason.rank_inj (by omega)) (by omega)

/-- The error found is one of the list, and none comes before it (R156). -/
theorem firstError_least {es : List (Reason × Nat)} {m : Reason × Nat} (found : firstError es = some m) :
    m ∈ es ∧ ∀ d ∈ es, notLater m d := by
  induction es generalizing m with
  | nil => cases found
  | cons x xs ih =>
    unfold firstError at found
    cases later : firstError xs with
    | none =>
      rw [later] at found
      cases xs with
      | nil =>
        cases found
        exact ⟨List.mem_cons_self, fun d listed => by simp [List.mem_singleton.1 listed, notLater]⟩
      | cons y ys =>
        unfold firstError at later
        split at later <;> simp at later
    | some f =>
      rw [later] at found
      obtain ⟨listed, least⟩ := ih later
      by_cases before : f.2 < x.2 ∨ f.2 = x.2 ∧ f.1.rank < x.1.rank
      · obtain rfl : f = m := by simpa [before] using found
        refine ⟨List.mem_cons_of_mem _ listed, fun d h => ?_⟩
        rcases List.mem_cons.1 h with rfl | behind
        · exact before.imp id fun ⟨same, earlier⟩ => ⟨same, earlier.le⟩
        · exact least d behind
      · obtain rfl : x = m := by simpa [before] using found
        refine ⟨List.mem_cons_self, fun d h => ?_⟩
        rcases List.mem_cons.1 h with rfl | behind
        · simp [notLater]
        · have := least d behind
          unfold notLater at this ⊢
          omega

theorem firstError_none {es : List (Reason × Nat)} : firstError es = none ↔ es = [] := by
  cases es with
  | nil => simp [firstError]
  | cons x xs =>
    unfold firstError
    split <;> simp

/-- The error with the lowest offset, of two at one offset the one of the earlier reason, is the one found (R156). -/
theorem firstError_of_least {es : List (Reason × Nat)} {e : Reason × Nat} (listed : e ∈ es) (least : ∀ d ∈ es, notLater e d) :
    firstError es = some e := by
  cases found : firstError es with
  | none =>
    rw [firstError_none.1 found] at listed
    cases listed
  | some m =>
    obtain ⟨m_mem, m_least⟩ := firstError_least found
    rw [notLater_antisymm (m_least e listed) (least m m_mem)]

/-! ### A LOAD that succeeds (R158) -/

/-- The blocks of a LOAD that succeeds, before the part state changes. -/
def State.blocksLoaded (bs : List Byte) (s : State) : State :=
  ((((((s.setControl fun c => { c with setup := some (parseSetup bs) }).loadRates.intakeAnew (parseGeneral bs).ringSlots).engineLoad).assocAnew).scheduleLoad
    (pageField bs 0x138 2) (if pageField bs 0x13A 1 = 0 then .a else .b) (parseBank bs 0x1000) (parseBank bs 0x1180)).guardAnew.reportAnew.clipAnew)

theorem State.succeedLoad_eq (bs : List Byte) (s : State) : s.succeedLoad bs =
    (((((s.blocksLoaded bs).setStatus fun w => { w with newRecords := 0 }).setAttend fun a => { a with deadline := none }).endCommand.setPart
      .stopped).maskChanged).putResult ⟨codeLoad, s.control.inProgressTag, .done⟩ := rfl

/-- What a LOAD leaves at the Schedule Unit of other units. -/
theorem State.scheduleLoad_leaves (p : Nat) (n : BankName) (a b : List BankEntry) (s : State) :
    (s.scheduleLoad p n a b).time = s.time ∧ (s.scheduleLoad p n a b).control = s.control ∧ (s.scheduleLoad p n a b).intake = s.intake ∧
      (s.scheduleLoad p n a b).engine = s.engine ∧ (s.scheduleLoad p n a b).assoc = s.assoc ∧ (s.scheduleLoad p n a b).guard = s.guard ∧
      (s.scheduleLoad p n a b).attend = s.attend :=
  have fr : Frame [.sched, .writer, .wires] s (s.scheduleLoad p n a b) := State.scheduleLoad_frame _ _ _ _ (Frame.refl _ s) (by decide)
  ⟨fr .time (by decide), fr .control (by decide), fr .intake (by decide), fr .engine (by decide), fr .assoc (by decide),
    fr .guard (by decide), fr .attend (by decide)⟩

theorem State.scheduleLoad_wires (p : Nat) (n : BankName) (a b : List BankEntry) (s : State) :
    (s.scheduleLoad p n a b).wires = { s.wires with sched := [] } := s.scheduleSoftReset_wires

/-- The schedule that a LOAD puts in force (R65, R68). -/
theorem State.scheduleLoad_sched (p : Nat) (n : BankName) (a b : List BankEntry) (s : State) :
    (s.scheduleLoad p n a b).sched = { s.scheduleSoftReset.sched with
      active := some n, period := some p, stagedPeriod := none, stagedBank := none, bankA := a, bankB := b } := rfl

theorem State.scheduleLoad_status (p : Nat) (n : BankName) (a b : List BankEntry) (s : State) :
    OnlyRewrite s.status (s.scheduleLoad p n a b).status :=
  s.scheduleSoftReset_onlyRewrite.trans ⟨true, rfl⟩

theorem State.clipAnew_time (s : State) : s.clipAnew.time = s.time :=
  State.clipAnew_frame (Frame.refl [.clip, .guard, .writer, .wires] s) (by decide) .time (by decide)

/-- What the work made anew at the Path Guard and the report ring leaves. -/
theorem State.reportLoad_leaves (s : State) :
    s.guardAnew.reportAnew.time = s.time ∧ s.guardAnew.reportAnew.control = s.control ∧ s.guardAnew.reportAnew.intake = s.intake ∧
      s.guardAnew.reportAnew.engine = s.engine ∧ s.guardAnew.reportAnew.sched = s.sched ∧ s.guardAnew.reportAnew.assoc = s.assoc ∧
      s.guardAnew.reportAnew.guard = s.guardAnew.guard ∧ s.guardAnew.reportAnew.attend = s.attend ∧
      s.guardAnew.reportAnew.wires = s.wires ∧ s.guardAnew.reportAnew.report = .reset ∧
      s.guardAnew.reportAnew.status = { s.status with rewrite := true } :=
  ⟨rfl, rfl, rfl, rfl, rfl, rfl, rfl, rfl, rfl, rfl, rfl⟩

/-- What the work made anew at the Intake Unit, the detectors and the Associator leaves. -/
theorem State.unitsLoad_leaves (slots : Nat) (s : State) :
    ((s.intakeAnew slots).engineLoad).assocAnew.time = s.time ∧ ((s.intakeAnew slots).engineLoad).assocAnew.control = s.control ∧
      ((s.intakeAnew slots).engineLoad).assocAnew.intake = (s.intakeAnew slots).intake ∧
      ((s.intakeAnew slots).engineLoad).assocAnew.engine = s.engine.map (fun _ => Detector.fresh) ∧
      ((s.intakeAnew slots).engineLoad).assocAnew.sched = s.sched ∧
      ((s.intakeAnew slots).engineLoad).assocAnew.assoc = { s.assoc with picks := [], nextPick := 0 } ∧
      ((s.intakeAnew slots).engineLoad).assocAnew.guard = (s.dropOutstanding (· == .refetch)).guard ∧
      ((s.intakeAnew slots).engineLoad).assocAnew.attend = s.attend ∧
      ((s.intakeAnew slots).engineLoad).assocAnew.wires = { (s.intakeAnew slots).wires with toAssoc := [] } ∧
      ((s.intakeAnew slots).engineLoad).assocAnew.status = s.status :=
  ⟨rfl, rfl, rfl, rfl, rfl, rfl, rfl, rfl, rfl, rfl⟩

/-- The rates of a LOAD (R27). -/
theorem State.loadRates_leaves (s : State) :
    s.loadRates.time = { s.time with
      baseRate := s.gen.clampRate s.time.baseRate, rateWord := s.gen.clampRate s.time.rateWord, lastPulse := none, firstLoad := true } ∧
      s.loadRates.control = s.control ∧ s.loadRates.intake = s.intake ∧ s.loadRates.engine = s.engine ∧ s.loadRates.sched = s.sched ∧
      s.loadRates.assoc = s.assoc ∧ s.loadRates.guard = s.guard ∧ s.loadRates.attend = s.attend ∧ s.loadRates.wires = s.wires ∧
      s.loadRates.status = s.status :=
  ⟨rfl, rfl, rfl, rfl, rfl, rfl, rfl, rfl, rfl, rfl⟩

/-- The setup that a LOAD puts in force. -/
theorem State.withSetup_gen (u : Setup) (s : State) : (s.setControl fun c => { c with setup := some u }).gen = u.gen := rfl

/-- Each area of the blocks after a LOAD that succeeds (R158). -/
theorem State.blocksLoaded_areas (bs : List Byte) (s : State) :
    (s.blocksLoaded bs).time = { s.time with
      baseRate := (parseGeneral bs).clampRate s.time.baseRate, rateWord := (parseGeneral bs).clampRate s.time.rateWord, lastPulse := none
      firstLoad := true } ∧
    (s.blocksLoaded bs).control = { s.control with setup := some (parseSetup bs) } ∧
    (s.blocksLoaded bs).intake = (s.intakeAnew (parseGeneral bs).ringSlots).intake ∧
    (s.blocksLoaded bs).engine = s.engine.map (fun _ => Detector.fresh) ∧
    (s.blocksLoaded bs).assoc = { s.assoc with picks := [], nextPick := 0 } ∧ (s.blocksLoaded bs).clip = .reset ∧
    (s.blocksLoaded bs).report = .reset ∧ (s.blocksLoaded bs).attend = s.attend ∧
    (s.blocksLoaded bs).wires = { s.wires with
      toAssoc := [], pins := [], refusedPins := [], cutRequests := [], cutNotes := [], slotFree := [], trailNotes := [], horizonSched := []
      horizonAssoc := [], sched := [], clipStop := false } ∧
    (s.blocksLoaded bs).guard = (((s.dropOutstanding (· == .refetch)).guardAnew).dropOutstanding fun o =>
      o == .copierRead || o.isCopierWrite.isSome).guard := by
  have gen (x : State) : (x.setControl fun c => { c with setup := some (parseSetup bs) }).gen = parseGeneral bs := rfl
  simp only [State.blocksLoaded, State.clipAnew_time, State.clipAnew_leaves, State.reportLoad_leaves, State.scheduleLoad_leaves,
    State.unitsLoad_leaves, State.loadRates_leaves, State.clipAnew_clip, State.clipAnew_wires, State.clipAnew_guard,
    State.scheduleLoad_wires, State.intakeAnew_wires, State.intakeAnew_intake, State.setControl_time, State.setControl_control,
    State.setControl_intake, State.setControl_engine, State.setControl_assoc, State.setControl_guard, State.setControl_attend,
    State.setControl_wires, State.dropOutstanding_guard, State.guardAnew_guard, gen, and_true]

theorem State.unitsLoad_gen (slots : Nat) (s : State) : ((s.intakeAnew slots).engineLoad).assocAnew.gen = s.gen := rfl

theorem State.loadRates_gen (s : State) : s.loadRates.gen = s.gen := rfl

/-- The schedule in force after a LOAD that succeeds (R65, R68, R70). -/
theorem State.blocksLoaded_sched (bs : List Byte) (s : State) : (s.blocksLoaded bs).sched = { s.sched with
    state := .idle, active := some (if pageField bs 0x13A 1 = 0 then .a else .b), period := some (pageField bs 0x138 2)
    stagedPeriod := none, stagedBank := none, bankA := parseBank bs 0x1000, bankB := parseBank bs 0x1180, intervals := []
    cycleCount := some (parseGeneral bs).cycleMax, cycleStart := none, pointer := none, markDeadline := none, timer := none
    lastRef := none } := by
  have gen (x : State) : (x.setControl fun c => { c with setup := some (parseSetup bs) }).gen = parseGeneral bs := rfl
  simp only [State.blocksLoaded, State.clipAnew_leaves, State.reportLoad_leaves, State.scheduleLoad_sched, State.scheduleSoftReset_sched,
    State.unitsLoad_leaves, State.unitsLoad_gen, State.loadRates_leaves, State.loadRates_gen, State.setControl_sched, gen]

theorem State.blocksLoaded_status (bs : List Byte) (s : State) : OnlyRewrite s.status (s.blocksLoaded bs).status := by
  unfold State.blocksLoaded
  refine OnlyRewrite.trans ?_ (State.clipAnew_onlyRewrite _)
  simp only [State.reportLoad_leaves]
  refine OnlyRewrite.trans ?_ ⟨true, rfl⟩
  refine OnlyRewrite.trans ?_ (State.scheduleLoad_status _ _ _ _ _)
  simp only [State.unitsLoad_leaves, State.loadRates_leaves]
  exact OnlyRewrite.refl _

/-- Each area of the state of a LOAD that succeeds, from the blocks. -/
theorem State.succeedLoad_areas (bs : List Byte) (s : State) :
    (s.succeedLoad bs).time = (s.blocksLoaded bs).time ∧
    (s.succeedLoad bs).control = { s.control with setup := some (parseSetup bs), part := .stopped, inProgress := none, load := none } ∧
    (s.succeedLoad bs).intake = (s.blocksLoaded bs).intake ∧ (s.succeedLoad bs).engine = (s.blocksLoaded bs).engine ∧
    (s.succeedLoad bs).sched = (s.blocksLoaded bs).sched ∧ (s.succeedLoad bs).assoc = (s.blocksLoaded bs).assoc ∧
    (s.succeedLoad bs).clip = (s.blocksLoaded bs).clip ∧ (s.succeedLoad bs).guard = (s.blocksLoaded bs).guard ∧
    (s.succeedLoad bs).report = (s.blocksLoaded bs).report ∧ (s.succeedLoad bs).attend = { s.attend with deadline := none } ∧
    (s.succeedLoad bs).wires = (s.blocksLoaded bs).wires := by
  have ended (x : State) : x.endCommand = x.setControl fun c => { c with inProgress := none, load := none } := rfl
  simp [State.succeedLoad_eq, ended, State.blocksLoaded_areas]

/-- The status record of a LOAD that succeeds (R158). -/
theorem State.succeedLoad_status (bs : List Byte) (s : State) : (s.succeedLoad bs).status = { s.status with
    newRecords := 0, irq := irqLevel s.status.pending (parseGeneral bs).noticeMask, rewrite := true
    result := some ⟨1, s.control.inProgressTag, .done⟩ } := by
  obtain ⟨asked, status⟩ := s.blocksLoaded_status bs
  obtain ⟨-, control, -⟩ := s.blocksLoaded_areas bs
  have ended (x : State) : x.endCommand = x.setControl fun c => { c with inProgress := none, load := none } := rfl
  have mask : ((((s.blocksLoaded bs).setStatus fun w => { w with newRecords := 0 }).setAttend fun a =>
      { a with deadline := none }).endCommand.setPart .stopped).mask = (parseGeneral bs).noticeMask := by
    unfold State.mask
    simp [ended, control, parseSetup]
  rw [State.succeedLoad_eq, State.putResult_status, State.maskChanged_status, mask]
  simp [State.setPart_status, ended, status]

/-! ### A returned read (R155, R156) -/

theorem execLoaderReadCompletion_of {code : MemCode} {data : List Byte} {o : Outstanding} {rest : List Outstanding} {s : State}
    (front : s.guard.downstream = o :: rest) (owner : o.owner = .loader) : execLoaderReadCompletion code data s =
      if o.dropped then done ((s.setGuard fun g => { g with downstream := rest }).countMemerr code)
      else done ((((s.setGuard fun g => { g with downstream := rest }).countMemerr code).setLoad
        (LoadRec.gotData (s.control.pageBase.getD 0) o.beats code data)).settleLoad) := by
  unfold execLoaderReadCompletion
  simp only [State.complete_owned (p := (· == .loader)) front (by simp [owner])]

/-- A LOAD with an error fails; one without goes on, or succeeds once the whole setup has returned (R155). -/
theorem State.settleLoad_of {s : State} {r : LoadRec} (load : s.control.load = some r) : s.settleLoad = match r.error with
    | some e => s.failLoad r e.1 e.2
    | none => if r.data.length < 4608 then s else s.succeedLoad r.data := by
  unfold State.settleLoad
  simp only [load]
  cases r.error <;> rfl

/-- What the read gives the load record (R156). -/
theorem LoadRec.gotData_memerr (page beats : Nat) (data : List Byte) (r : LoadRec) :
    r.gotData page beats .memerr data = { r with error := some (.memory, 0x100 + r.data.length) } := rfl

theorem LoadRec.gotData_okay (page beats : Nat) (data : List Byte) (r : LoadRec) : r.gotData page beats .okay data = { r with
    data := r.data ++ fit (8 * beats) data
    error := readError page (0x100 + r.data.length) (r.data ++ fit (8 * beats) data) } := rfl

/-- No check fails: no error is found. -/
theorem readError_none {page lo : Nat} {bs : List Byte} (good : (checksIn page lo).filter (fun c => c.fails bs) = []) :
    readError page lo bs = none := by
  unfold readError
  rw [good]
  rfl

/-- The check that fails at the lowest offset, of two at one offset the one of the earlier reason, gives the error (R156). -/
theorem readError_of_least {page lo : Nat} {bs : List Byte} {c : Check} (listed : c ∈ (checksIn page lo).filter (fun c => c.fails bs))
    (least : ∀ d ∈ (checksIn page lo).filter (fun c => c.fails bs), notLater (c.reason, c.offset) (d.reason, d.offset)) :
    readError page lo bs = some (c.reason, c.offset) := by
  refine firstError_of_least (List.mem_map.2 ⟨c, listed, rfl⟩) fun d found => ?_
  obtain ⟨x, failed, rfl⟩ := List.mem_map.1 found
  exact least x failed

/-- What a failed LOAD leaves at the Path Guard and the wires (R158; log 7). -/
theorem State.failLoad_leaves (r : LoadRec) (reason : Reason) (o : Nat) (s : State) :
    (s.failLoad r reason o).guard = { s.guard with
      downstream := s.guard.downstream.map fun q => if q.owner = .loader then { q with dropped := true } else q } ∧
    (s.failLoad r reason o).wires = { s.wires with sched := s.wires.sched ++ [.part r.returnTo] } ∧
    (s.failLoad r reason o).tallies = s.tallies := by
  simp [State.failLoad, State.dropOutstanding_guard, State.tellSchedule, State.endCommand]

/-- A read returned that is not dropped, before the settling (R155, R156). -/
theorem State.gotLoad_tells (s : State) {r : LoadRec} (load : s.control.load = some r) (rest : List Outstanding) (code : MemCode)
    (f : LoadRec → LoadRec) : ∃ v, v = ((s.setGuard fun g => { g with downstream := rest }).countMemerr code).setLoad f ∧
      v.control = { s.control with load := some (f r) } ∧ v.guard = { s.guard with downstream := rest } ∧
      v.tallies = (if code = .memerr then s.count .memoryErrors else s).tallies ∧ Frame [.control, .guard, .tallies] s v ∧
      (code = .okay → Frame [.control, .guard] s v) := by
  have control : (((s.setGuard fun g => { g with downstream := rest }).countMemerr code).setLoad f).control =
      { s.control with load := some (f r) } := by
    have same : ((s.setGuard fun g => { g with downstream := rest }).countMemerr code).control = s.control := by cases code <;> rfl
    simp only [State.setLoad, State.setControl_control, same, load, Option.map_some]
  refine ⟨_, rfl, control, ?_, ?_, State.setLoad_frame f (State.countMemerr_frame code (State.setGuard_frame _ (Frame.refl _ s)
    (by decide)) (by decide)) (by decide), ?_⟩
  · cases code <;> rfl
  · cases code <;> rfl
  · rintro rfl
    exact State.setLoad_frame f (State.setGuard_frame _ (Frame.refl _ s) (by decide)) (by decide)

/-- The requests of the work discarded at a LOAD that succeeds are dropped (R136; log 48). -/
theorem Outstanding.dropped_at_load (q : Outstanding) :
    ((fun o : Outstanding => if (o.owner == .copierRead || o.owner.isCopierWrite.isSome) then { o with dropped := true } else o) ∘
      fun o => if o.owner == .refetch then { o with dropped := true } else o) q = { q with
        dropped := match q.owner with
          | .refetch | .copierRead | .copierWrite _ => true
          | .loader | .status | .report | .pass _ => q.dropped } := by
  obtain ⟨owner, kind, addr, beats, bytes, dropped⟩ := q
  cases owner <;> rfl

/-- Settles O57. -/
theorem loaderReadReturns : Obligations.LoaderReadReturns := by
  unfold Obligations.LoaderReadReturns
  intro code data bs o rest s m r page off bad front owner counted
  refine ⟨fun dropped => ?dropped, fun kept load clean base offIs bsIs badIs => ?kept⟩
  case dropped =>
    have returns := execLoaderReadCompletion_of (code := code) (data := data) front owner
    rw [if_pos dropped] at returns
    refine ⟨_, returns, ?_, ?_, State.settle_frame (State.countMemerr_frame _ (State.setGuard_frame _ (Frame.refl _ s) (by decide))
      (by decide)) (by decide)⟩
    · cases code <;> rfl
    · rw [counted]
      cases code <;> rfl
  case kept =>
    have returns := execLoaderReadCompletion_of (code := code) (data := data) front owner
    rw [if_neg (by simp [kept]), base, Option.getD_some] at returns
    obtain ⟨v, vIs, control, guard, tallies, frame, only⟩ := s.gotLoad_tells load rest code (LoadRec.gotData page o.beats code data)
    rw [← vIs] at returns
    rw [← counted] at tallies
    have settles := State.settleLoad_of (s := v) (r := r.gotData page o.beats code data) (by rw [control])
    refine ⟨fun why place found => ?fails, fun okay good short => ?goesOn, fun okay good whole => ?succeeds⟩
    case fails =>
      have error : (r.gotData page o.beats code data).error = some (why, place) := by
        rcases found with ⟨rfl, rfl, rfl⟩ | ⟨rfl, c, failed, rfl, rfl, least⟩
        · rw [LoadRec.gotData_memerr, offIs]
        · rw [LoadRec.gotData_okay, ← offIs, ← bsIs]
          rw [badIs] at failed least
          exact readError_of_least failed least
      have return_ : (r.gotData page o.beats code data).returnTo = r.returnTo := by cases code <;> rfl
      rw [error] at settles
      rw [settles] at returns
      obtain ⟨ends, result⟩ := v.failLoad_fails (r.gotData page o.beats code data) why place
      obtain ⟨gone, told, same⟩ := v.failLoad_leaves (r.gotData page o.beats code data) why place
      have tag : v.control.inProgressTag = s.control.inProgressTag := by
        rw [control]
        rfl
      rw [tag] at result
      have wires : v.wires = s.wires := frame .wires (by decide)
      refine ⟨_, returns, ?_, State.settle_hasResult _ _ result, ?_, ?_, ?_,
        State.settle_frame (State.failLoad_frame _ _ _ (frame.mono (by decide)) (by decide)) (by decide)⟩
      · rw [State.settle_control, ends, control, return_]
      · rw [State.settle_tallies, same, tallies]
      · rw [State.settle_guard, gone, guard]
      · rw [State.settle_wires, told, wires, return_]
    all_goals
      subst okay
      have data_ : (r.gotData page o.beats .okay data).data = bs := bsIs.symm
      have error : (r.gotData page o.beats .okay data).error = none := by
        rw [LoadRec.gotData_okay, ← offIs, ← bsIs]
        exact readError_none (badIs ▸ good)
      rw [error, data_] at settles
      dsimp only at settles
    case goesOn =>
      rw [if_pos short] at settles
      rw [settles] at returns
      refine ⟨_, returns, ?_, guard, State.settle_frame ((only rfl).mono (by decide)) (by decide)⟩
      have got : r.gotData page o.beats .okay data = { r with data := bs } := by
        rw [← data_, ← error.trans clean.symm]
        rfl
      rw [State.settle_control, control, got]
    case succeeds =>
      rw [if_neg (by omega)] at settles
      rw [settles] at returns
      obtain ⟨bTime, -, bIntake, bEngine, bAssoc, bClip, bReport, bAttend, bWires, bGuard⟩ := v.blocksLoaded_areas bs
      have bSched := v.blocksLoaded_sched bs
      obtain ⟨aTime, aControl, aIntake, aEngine, aSched, aAssoc, aClip, aGuard, aReport, aAttend, aWires⟩ := v.succeedLoad_areas bs
      have aStatus := v.succeedLoad_status bs
      have time : v.time = s.time := frame .time (by decide)
      have intake : v.intake = s.intake := frame .intake (by decide)
      have engine : v.engine = s.engine := frame .engine (by decide)
      have assoc : v.assoc = s.assoc := frame .assoc (by decide)
      have attend : v.attend = s.attend := frame .attend (by decide)
      have wires : v.wires = s.wires := frame .wires (by decide)
      have pending : v.status.pending = s.status.pending := (frame .notices (by decide)).1
      have tag : v.control.inProgressTag = s.control.inProgressTag := by
        rw [control]
        rfl
      refine ⟨_, parseSetup bs, returns, parseSetup_read bs, ?control, State.settle_hasResult _ _ ?result, ?time, ?intake, ?engines, ?engine,
        ?sched, ?assoc, ?clip, ?report, ?guard, ?attend, ?wires, ?line, ?pending, ?irq, ?rewrite,
        State.settle_frame (State.succeedLoad_frame bs ((only rfl).mono (by decide)) (by decide)) (by decide)⟩
      case control => rw [State.settle_control, aControl, control]
      case result => rw [aStatus, tag]
      case time =>
        rw [State.settle_time, aTime, bTime, time]
        rfl
      case intake =>
        rw [State.settle_intake, aIntake, bIntake, State.intakeAnew_intake, intake]
        exact ⟨rfl, rfl, rfl, rfl, rfl, rfl⟩
      case engines => rw [State.settle_engine, aEngine, bEngine, List.length_map, engine]
      case engine =>
        rw [State.settle_engine, aEngine, bEngine]
        intro d listed
        obtain ⟨x, -, rfl⟩ := List.mem_map.1 listed
        exact ⟨rfl, rfl, rfl, rfl, rfl, rfl, rfl, rfl, rfl, rfl, rfl, rfl⟩
      case sched =>
        rw [State.settle_sched, aSched, bSched]
        exact ⟨rfl, rfl, rfl, rfl, rfl, rfl, rfl, rfl, rfl, rfl, rfl, rfl, rfl, rfl⟩
      case assoc => rw [State.settle_assoc, aAssoc, bAssoc, assoc]
      case clip => rw [State.settle_clip, aClip, bClip]
      case report =>
        rw [State.settle_report, aReport, bReport]
        exact ⟨rfl, rfl, rfl, rfl, rfl, rfl, rfl⟩
      case guard =>
        have released : HeldReleased (fun _ => True) s.guard (v.succeedLoad bs).settle.guard := by
          rw [State.settle_guard, aGuard, bGuard]
          exact (v.dropOutstanding (· == .refetch)).guardAnew_releases.congr (fun _ => Iff.rfl) (by rw [State.dropOutstanding_guard, guard])
            (by rw [State.dropOutstanding_guard, guard]) rfl rfl
        refine ⟨released, released.none_held, ?_⟩
        rw [State.settle_guard, aGuard, bGuard]
        simp only [State.dropOutstanding_guard, State.guardAnew_guard, guard, List.map_map, PathGuard.mk.injEq, true_and, and_true]
        exact List.map_congr_left fun q _ => q.dropped_at_load
      case attend => rw [State.settle_attend, aAttend, attend]
      case wires => rw [State.settle_wires, aWires, bWires, wires]
      case line =>
        obtain ⟨heartbeat, -, dump⟩ := frame .line (by decide)
        simp only [State.settle_status, Status.choose_rest, aStatus]
        exact ⟨heartbeat, trivial, dump⟩
      case pending =>
        simp only [State.settle_status, Status.choose_rest, aStatus]
        exact pending
      case irq =>
        simp only [State.settle_status, Status.choose_rest, aStatus, pending]
        rfl
      case rewrite => simp only [State.settle_status, Status.choose_rest, aStatus]

end Sys2Proof.Machine
end

section
/-! SUPPORT. Reclaims, acks and the record writer (R140, R143 to R147). -/
namespace Sys2Proof.Machine

/-! ### The answers to the copier (R143, R147) -/

/-- A copier that allocates is answered that space was freed: it tests anew, and, IDLE, begins the jobs that wait (R143). -/
theorem State.answerFreed_allocating {s : State} {i : Nat} (held : s.report.reclaim = true) (copier : s.clip.copier = .allocating i) :
    s.answerFreed = ((s.setReport fun r => { r with reclaim := false }).allocate i).runJobs := by
  unfold State.answerFreed
  rw [if_pos held]
  have stands : (s.setReport fun r => { r with reclaim := false }).clip.copier = .allocating i := copier
  simp only [stands]

/-- Another copier has nothing to be answered. -/
theorem State.answerFreed_other {s : State} (held : s.report.reclaim = true) (other : ∀ i, s.clip.copier ≠ .allocating i) :
    s.answerFreed = s.setReport fun r => { r with reclaim := false } := by
  unfold State.answerFreed
  rw [if_pos held]
  have same : (s.setReport fun r => { r with reclaim := false }).clip.copier = s.clip.copier := rfl
  simp only [same]
  cases copier : s.clip.copier with
  | allocating i => exact absurd copier (other i)
  | idle => rfl
  | unit i k phase => rfl
  | directory i addr chunks => rfl

theorem State.plan_of {s : State} {i : Nat} {p : Plan} (plan : s.clip.plans[i]? = some (some p)) : s.plan i = some p := by
  unfold State.plan
  rw [plan]

/-- With no record outstanding the job that allocates ends for lack of space (R147). -/
theorem State.answerNone_allocating {s : State} {i : Nat} {p : Plan} (copier : s.clip.copier = .allocating i)
    (plan : s.clip.plans[i]? = some (some p)) :
    s.answerNone = ((s.setReport fun r => { r with reclaim := false }).endForLack i p).runJobs := by
  unfold State.answerNone
  have stands : (s.setReport fun r => { r with reclaim := false }).clip.copier = .allocating i := copier
  have planned : (s.setReport fun r => { r with reclaim := false }).plan i = some p := State.plan_of plan
  simp only [stands, planned]

/-- A freed record writes these areas only. -/
theorem State.freeRecord_leaves (s : State) : Frame [.assoc, .clip, .report, .writer, .wires] s s.freeRecord :=
  State.freeRecord_frame (Frame.refl _ s) (by decide)

/-- A reclaim raises REPORT_RECLAIMED and counts, beside the record freed (R146). -/
theorem State.reclaimOldest_tells (s : State) : s.reclaimOldest.status.pending = s.status.pending ||| Notice.reportReclaimed.bit ∧
    s.reclaimOldest.tallies = (s.count .reportsReclaimed).tallies ∧ s.reclaimOldest.report = s.freeRecord.report := by
  obtain ⟨pending, tallies, rest⟩ := s.reclaimOldest_reclaims
  have frees := s.freeRecord_leaves
  refine ⟨pending.trans ?_, tallies.trans (count_tallies_congr _ (frees .tallies (by decide))), rest .report (by decide)⟩
  rw [(frees .notices (by decide)).1]

/-- Settles O56. -/
theorem reclaimsAndTheWriter : Obligations.ReclaimsAndTheWriter := by
  unfold Obligations.ReclaimsAndTheWriter
  intro s
  refine ⟨fun free => if_pos free, fun i p held copier plan => ⟨fun none_ => ?none, fun some_ => ?freed⟩, recordBytes_layout, fun told => ?_⟩
  case none =>
    obtain ⟨m, lacked, joins⟩ := State.endForLack_lacks i p { s with report := { s.report with reclaim := false } } plan
    refine ⟨_, m, _, _, ?_, lacked, joins, State.runJobs_begun _, State.settle_frame (Frame.refl _ _) (by decide)⟩
    show execReclaimRequest s = _
    unfold execReclaimRequest
    rw [if_neg (by simp [held]), if_pos none_, State.answerNone_allocating copier plan]
    rfl
  case freed =>
    obtain ⟨pending, tallies, report⟩ := s.reclaimOldest_tells
    obtain ⟨keptCopier, -, keptReclaim, -⟩ := s.freeRecord_keeps
    have rest := s.reclaimOldest_reclaims.2.2
    have held' : s.reclaimOldest.report.reclaim = true := by rw [report, keptReclaim, held]
    have copier' : s.reclaimOldest.clip.copier = .allocating i := by rw [rest .clip (by decide), keptCopier, copier]
    refine ⟨_, s.reclaimOldest.setReport fun r => { r with reclaim := false }, _, _, ?_, ?_, pending, tallies,
      State.setReport_frame _ (rest.mono (by decide)) (by decide), State.runJobs_begun _, rfl, State.writerLook_looked _,
      State.settle_frame (Frame.refl _ _) (by decide)⟩
    · show execReclaimRequest s = _
      unfold execReclaimRequest
      rw [if_neg (by simp [held]), if_neg some_, State.answerFreed_allocating held' copier']
      rfl
    · show ({ s.reclaimOldest.report with reclaim := false } : ReportRing) = _
      rw [report]
  · have looked := (s.setWires fun w => { w with unattReport := w.unattReport - 1 }).writerLook_looked
    have taken : exec .unattendedAtReportUnit s = done (s.setWires fun w => { w with unattReport := w.unattReport - 1 }).writerLook :=
      if_neg told
    refine ⟨_, taken, fun nothing => ?rests, fun i e rest writer waits event alone => ⟨fun room => ?takes, fun full attended => ?full,
      fun old older a aIs full unattended free numbers cap other => ?reclaims⟩⟩
    case rests =>
      rw [looked.rests nothing]
      exact ⟨rfl, State.settle_frame (State.setWires_frame _ (Frame.refl _ s) (by decide)) (by decide)⟩
    case takes =>
      rw [looked.takes i e rest writer waits ⟨event, alone⟩ room]
      exact ⟨rfl, rfl, State.settle_frame (State.setReport_frame
        (fun r => { r with waitList := rest, writer := .writing e.number s.report.put (recordBytes s.report.put e) false })
        (State.setWires_frame _ (Frame.refl _ s) (by decide)) (by decide)) (by decide)⟩
    case full =>
      rw [looked.full writer (by rw [State.setWires_report, waits]; exact List.cons_ne_nil _ _) full attended]
      refine ⟨by simp, by simp, State.settle_frame (State.raise_frame _ (State.setWires_frame _ (Frame.refl _ s) (by decide)) (by decide))
        (by decide)⟩
    case reclaims =>
      have reclaimed := looked.reclaims i e rest older old (s.setWires fun w => { w with unattReport := w.unattReport - 1 }).reclaimOldest
        writer waits ⟨event, alone⟩ full unattended free numbers cap other rfl
      obtain ⟨pending, tallies, report⟩ := (s.setWires fun w => { w with unattReport := w.unattReport - 1 }).reclaimOldest_tells
      have told := (s.setWires fun w => { w with unattReport := w.unattReport - 1 }).reclaimOldest_reclaims.2.2
      have aIs' : a = (s.setWires fun w => { w with unattReport := w.unattReport - 1 }).freeRecord := aIs
      rw [← aIs'] at report told
      have freed : Frame [.assoc, .clip, .report, .writer, .wires] s a := by
        rw [aIs']
        exact State.freeRecord_frame (State.setWires_frame _ (Frame.refl _ s) (by decide)) (by decide)
      rw [reclaimed]
      generalize (s.setWires fun w => { w with unattReport := w.unattReport - 1 }).reclaimOldest = r at pending tallies report told
      have frame : Frame [.assoc, .clip, .report, .notices, .writer, .tallies, .wires] s
          (r.setReport fun _ => { r.report with waitList := rest, writer := .writing e.number s.report.put (recordBytes s.report.put e) false }) :=
        State.setReport_frame _ ((freed.mono (by decide)).trans (told.mono (by decide))) (by decide)
      refine ⟨by rw [← report]; rfl, told .assoc (by decide), told .clip (by decide), told .wires (by decide), ?_, tallies,
        State.settle_frame frame (by decide)⟩
      simp only [State.settle_status, Status.choose_rest]
      exact pending

/-! ### Records freed up to the one acknowledged (R143, R144) -/

/-- The clip region of a freed event goes back (R112, R114), the plans apart. -/
def Clip.give (clipSize : Nat) (c : Clip) (r : Region) : Clip := { c with
  used := c.used - (r.skip + r.units)
  allocPtr := if c.used - (r.skip + r.units) = 0 then 0 else c.allocPtr
  freePtr := if c.used - (r.skip + r.units) = 0 ∨ r.first + r.units = clipSize / 512 then 0 else r.first + r.units }

/-- The plans take no part in what is given back. -/
theorem Clip.foldl_give_plans (n : Nat) (rs : List Region) (c : Clip) (ps : List (Option Plan)) :
    rs.foldl (Clip.give n) { c with plans := ps } = { rs.foldl (Clip.give n) c with plans := ps } := by
  induction rs generalizing c with
  | nil => rfl
  | cons r rs ih => exact ih (c.give n r)

/-- An event keeps its slot, alone with its number, while its requests on their way are taken (log 6). -/
theorem State.eventAt_flush {s : State} {i : Nat} {e : Event} (at_ : s.eventAt i e) :
    ∃ e', e'.number = e.number ∧ (s.flushRequests e.number).findEvent e.number = some (i, e') := by
  obtain ⟨event, alone⟩ := at_
  obtain ⟨differs, -⟩ := State.flushRequests_differs e.number s
  have back : ∀ (j : Nat) (x : Event), (s.flushRequests e.number).assoc.events[j]? = some (some x) → x.number = e.number → j = i := by
    intro j x there number
    rcases differs j with same | ⟨y, z, before, after, first, second⟩
    · exact alone j x (same ▸ there) number
    · exact alone j y before first
  have stands : ∃ e', e'.number = e.number ∧ (s.flushRequests e.number).assoc.events[i]? = some (some e') := by
    rcases differs i with same | ⟨y, z, before, after, first, second⟩
    · exact ⟨e, rfl, same.trans event⟩
    · exact ⟨z, second, after⟩
  obtain ⟨e', number, there⟩ := stands
  refine ⟨e', number, ?_⟩
  have found := State.findEvent_at (s.flushRequests e.number) i e' there fun j x listed same => back j x listed (same.trans number)
  rwa [number] at found

/-- A plan dropped gives its region back (R104, R114). -/
theorem State.dropPlan_clip {s : State} {i : Nat} {p : Plan} (plan : s.clip.plans[i]? = some (some p)) : (s.dropPlan i).clip =
    { p.region.elim s.clip (s.clip.give s.gen.clipSize) with plans := s.clip.plans.set i none } := by
  unfold State.dropPlan
  cases region : p.region with
  | none => simp only [plan, region, State.setClip_clip, Option.elim_none]
  | some r =>
    simp only [plan, region]
    rw [State.freeRegion_clip r _ _ rfl]
    rfl

/-- The clip record when the oldest record is freed (R114, R143). -/
theorem State.freeRecord_clip {s : State} {i : Nat} {e : Event} {p : Plan} {rest : List Nat} (numbers : s.report.numbers = e.number :: rest)
    (at_ : s.eventAt i e) (plan : s.clip.plans[i]? = some (some p)) : s.freeRecord.clip =
      { p.region.elim s.clip (s.clip.give s.gen.clipSize) with plans := s.freeRecord.clip.plans } := by
  obtain ⟨e', -, found⟩ := State.eventAt_flush at_
  have flushed : Frame [.assoc, .wires] s (s.flushRequests e.number) := State.flushRequests_frame _ (Frame.refl _ _) (by decide)
  have clip : ((s.flushRequests e.number).freeEvent i).clip = s.clip := flushed .clip (by decide)
  have gen : ((s.flushRequests e.number).freeEvent i).gen = s.gen := State.gen_congr (flushed .control (by decide))
  have freed : s.freeRecord.clip = (((s.flushRequests e.number).freeEvent i).dropPlan i).clip := by
    unfold State.freeRecord
    rw [numbers]
    dsimp only
    rw [found]
    rfl
  rw [freed, State.dropPlan_clip (p := p) (by rw [clip, plan]), clip, gen]

/-- The ring and the requests on their way after records are freed (R143). -/
theorem State.freeRecords_report (n : Nat) (s : State) (held : n ≤ s.report.numbers.length) :
    (s.freeRecords n).report = { s.report with
      numbers := s.report.numbers.drop n, get := (s.freeRecords n).report.get, occupancy := s.report.occupancy - n } ∧
    (s.freeRecords n).wires = { s.wires with
      stateRequests := s.wires.stateRequests.filter fun m => !(s.report.numbers.take n).contains m.1 } := by
  induction n generalizing s with
  | zero => simp [State.freeRecords]
  | succ n ih =>
    cases numbers : s.report.numbers with
    | nil => simp [numbers] at held
    | cons ev rest =>
      obtain ⟨-, report, wires, -⟩ := s.freeRecord_frees ev rest numbers
      obtain ⟨reports, wired⟩ := ih s.freeRecord (by rw [report]; simpa [numbers] using held)
      constructor
      · show (s.freeRecord.freeRecords n).report = _
        rw [reports, report]
        simp [State.freeRecords, Nat.sub_sub, Nat.add_comm 1 n]
      · show (s.freeRecord.freeRecords n).wires = _
        rw [wired, report, wires]
        simp [List.filter_filter, Bool.and_comm, bne]
        rfl

/-- The get index after a record is freed (R143). -/
theorem State.freeRecords_get (n : Nat) (s : State) (held : n + 1 ≤ s.report.numbers.length) :
    (s.freeRecords (n + 1)).report.get = (s.report.get + (n + 1)) % s.gen.reportCap := by
  induction n generalizing s with
  | zero =>
    cases numbers : s.report.numbers with
    | nil => simp [numbers] at held
    | cons ev rest =>
      obtain ⟨-, report, -⟩ := s.freeRecord_frees ev rest numbers
      show s.freeRecord.report.get = _
      rw [report]
  | succ n ih =>
    cases numbers : s.report.numbers with
    | nil => simp [numbers] at held
    | cons ev rest =>
      obtain ⟨-, report, -⟩ := s.freeRecord_frees ev rest numbers
      show (s.freeRecord.freeRecords (n + 1)).report.get = _
      rw [ih s.freeRecord (by rw [report]; simpa [numbers] using held), report, s.freeRecord_gen, Nat.mod_add_mod]
      congr 1
      omega

/-- The status line is asked for anew when a record is freed. -/
theorem State.freeRecords_rewrite (n : Nat) (s : State) (held : n + 1 ≤ s.report.numbers.length) :
    (s.freeRecords (n + 1)).status.rewrite = true := by
  induction n generalizing s with
  | zero =>
    cases numbers : s.report.numbers with
    | nil => simp [numbers] at held
    | cons ev rest => exact (s.freeRecord_frees ev rest numbers).2.2.2
  | succ n ih =>
    cases numbers : s.report.numbers with
    | nil => simp [numbers] at held
    | cons ev rest =>
      obtain ⟨-, report, -⟩ := s.freeRecord_frees ev rest numbers
      exact ih s.freeRecord (by rw [report]; simpa [numbers] using held)

/-- A slot of no event, or of no plan, stays so. -/
theorem State.freeRecords_none (n : Nat) (s : State) (i : Nat) :
    (s.assoc.events[i]? = some none → (s.freeRecords n).assoc.events[i]? = some none) ∧
      (s.clip.plans[i]? = some none → (s.freeRecords n).clip.plans[i]? = some none) := by
  induction n generalizing s with
  | zero => exact ⟨id, id⟩
  | succ n ih =>
    show (_ → (s.freeRecord.freeRecords n).assoc.events[i]? = _) ∧ (_ → (s.freeRecord.freeRecords n).clip.plans[i]? = _)
    obtain ⟨events, plans⟩ := ih s.freeRecord
    cases numbers : s.report.numbers with
    | nil =>
      have same : s.freeRecord = s := by
        unfold State.freeRecord
        rw [numbers]
      rw [same] at events plans ⊢
      exact ⟨events, plans⟩
    | cons ev rest =>
      obtain ⟨freed, -⟩ := s.freeRecord_frees ev rest numbers
      exact ⟨fun h => events (freed.none i h), fun h => plans (freed.nil i h)⟩

/-- An event whose record is not the one freed stands alone with its number as before. -/
theorem RecordFreed.eventAt {ev : Nat} {s t : State} (freed : RecordFreed ev s t) {i : Nat} {e : Event} (at_ : s.eventAt i e)
    (other : e.number ≠ ev) : t.eventAt i e := by
  obtain ⟨event, alone⟩ := at_
  refine ⟨(freed.kept i e event other).1, fun j x there same => ?_⟩
  obtain ⟨y, before, number⟩ := freed.back j x there
  exact alone j y before (number.trans same)

/-- The events of the records freed are gone, with their plans; every other event stands, with its plan (R104, R143). -/
theorem State.freeRecords_events (n : Nat) (s : State) (held : n ≤ s.report.numbers.length) {i : Nat} {e : Event} (at_ : s.eventAt i e) :
    (e.number ∈ s.report.numbers.take n → (s.freeRecords n).assoc.events[i]? = some none ∧
      (i < s.clip.plans.length → (s.freeRecords n).clip.plans[i]? = some none)) ∧
    (e.number ∉ s.report.numbers.take n → (s.freeRecords n).assoc.events[i]? = some (some e) ∧
      (s.freeRecords n).clip.plans[i]? = s.clip.plans[i]?) := by
  induction n generalizing s with
  | zero => exact ⟨fun listed => by simp at listed, fun _ => ⟨at_.1, rfl⟩⟩
  | succ n ih =>
    cases numbers : s.report.numbers with
    | nil => simp [numbers] at held
    | cons ev rest =>
      obtain ⟨freed, report, -⟩ := s.freeRecord_frees ev rest numbers
      show (_ → (s.freeRecord.freeRecords n).assoc.events[i]? = _ ∧ (_ → (s.freeRecord.freeRecords n).clip.plans[i]? = _)) ∧
        (_ → (s.freeRecord.freeRecords n).assoc.events[i]? = _ ∧ (s.freeRecord.freeRecords n).clip.plans[i]? = _)
      by_cases this : e.number = ev
      · obtain ⟨event, plan⟩ := freed.gone i e at_.1 this at_.2
        obtain ⟨noEvent, noPlan⟩ := s.freeRecord.freeRecords_none n i
        exact ⟨fun _ => ⟨noEvent event, fun inTable => noPlan (plan inTable)⟩, fun other => absurd (by simp [this]) other⟩
      · obtain ⟨gone, kept⟩ := ih s.freeRecord (by rw [report]; simpa [numbers] using held) (freed.eventAt at_ this)
        have plan := (freed.kept i e at_.1 this).2
        rw [report, freed.len] at gone
        rw [report, plan] at kept
        simpa [this] using And.intro gone kept

/-- The regions of the records freed go back oldest first (R114, R143). -/
theorem State.freeRecords_clip (s : State) (es : List (Nat × Event × Plan)) (numbers : ∃ rest, s.report.numbers = es.map (·.2.1.number) ++ rest)
    (nodup : (es.map (·.2.1.number)).Nodup)
    (stand : ∀ q ∈ es, s.eventAt q.1 q.2.1 ∧ s.clip.plans[q.1]? = some (some q.2.2)) :
    (s.freeRecords es.length).clip = { (es.filterMap (·.2.2.region)).foldl (Clip.give s.gen.clipSize) s.clip with
      plans := (s.freeRecords es.length).clip.plans } := by
  induction es generalizing s with
  | nil => rfl
  | cons q es ih =>
    obtain ⟨i, e, p⟩ := q
    obtain ⟨rest, numbers⟩ := numbers
    obtain ⟨at_, plan⟩ := stand (i, e, p) List.mem_cons_self
    obtain ⟨fresh, nodup⟩ := List.nodup_cons.1 nodup
    have numbers' : s.report.numbers = e.number :: (es.map (·.2.1.number) ++ rest) := numbers
    obtain ⟨freed, report, -⟩ := s.freeRecord_frees _ _ numbers'
    have clip := State.freeRecord_clip numbers' at_ plan
    have next := ih s.freeRecord ⟨rest, by rw [report]⟩ nodup fun q listed => by
      obtain ⟨qAt, qPlan⟩ := stand q (List.mem_cons_of_mem _ listed)
      have other : q.2.1.number ≠ e.number := fun same => fresh (List.mem_map.2 ⟨q, listed, same⟩)
      exact ⟨freed.eventAt qAt other, (freed.kept q.1 q.2.1 qAt.1 other).2.trans qPlan⟩
    show (s.freeRecord.freeRecords es.length).clip = _
    rw [next, s.freeRecord_gen, clip, Clip.foldl_give_plans]
    cases region : p.region with
    | none => simp [region, State.freeRecords]
    | some r => simp [region, State.freeRecords]

/-- The copier goes on while records are freed. -/
theorem State.freeRecords_copier (n : Nat) (s : State) : (s.freeRecords n).clip.copier = s.clip.copier := by
  induction n generalizing s with
  | zero => rfl
  | succ n ih => exact (ih s.freeRecord).trans s.freeRecord_keeps.1

/-- The ack names an outstanding record (R144). -/
theorem State.ackNames_iff (index : Nat) (s : State) : s.ackNames index = true ↔
    index < s.gen.reportCap ∧ (index + s.gen.reportCap - s.report.get) % s.gen.reportCap < s.report.occupancy := by
  simp [State.ackNames]

/-- The get index after an ack is the one after the index acknowledged (R143, R144). -/
theorem get_after_ack {get cap index k : Nat} (inRing : get < cap) (kIs : k = (index + cap - get) % cap) :
    (get + (k + 1)) % cap = (index + 1) % cap := by
  have step : (get + (k + 1)) % cap = (get + 1 + (index + cap - get)) % cap := by
    rw [kIs, show get + ((index + cap - get) % cap + 1) = get + 1 + (index + cap - get) % cap by omega, Nat.add_mod_mod]
  rw [step, show get + 1 + (index + cap - get) = index + 1 + cap by omega, Nat.add_mod_right]

/-- Settles O55. -/
theorem acksFreeRecords : Obligations.AcksFreeRecords := by
  unfold Obligations.AcksFreeRecords
  intro s index
  have exec_ : exec (.ackWord index) s = done (s.takeAck index.toNat) := rfl
  refine ⟨fun notLoaded => ?dormant, fun u k setup ring kIs => ?loaded⟩
  case dormant =>
    have stands : s.takeAck index.toNat = s := if_pos (by simp [State.loaded, notLoaded])
    rw [stands] at exec_
    exact ⟨_, exec_, State.settle_frame (Frame.refl _ s) (by decide)⟩
  case loaded =>
    have gen : s.gen = u.gen := by
      unfold State.gen
      rw [setup]
    have loaded : ¬ s.loaded = false := by simp [State.loaded, setup]
    have names := s.ackNames_iff index.toNat
    rw [gen, ← kIs] at names
    refine ⟨fun ignored => ?bad, fun inRing outstanding => ?freed⟩
    case bad =>
      have act : s.takeAck index.toNat = (s.count .badAcks).raise .badAck :=
        (if_neg loaded).trans (if_neg fun named => ignored (names.1 named))
      rw [act] at exec_
      refine ⟨_, exec_, by simp, by simp, State.settle_frame (State.raise_frame _ (State.count_frame _ (Frame.refl _ s) (by decide))
        (by decide)) (by decide)⟩
    case freed =>
      have act : s.takeAck index.toNat = (s.freeRecords (k + 1)).answerFreed.writerLook := by
        refine (if_neg loaded).trans ((if_pos (names.2 ⟨inRing, outstanding⟩)).trans ?_)
        rw [gen, ← kIs]
      rw [act] at exec_
      have held : k + 1 ≤ s.report.numbers.length := by
        rw [ring.1]
        exact outstanding
      obtain ⟨report, wires⟩ := s.freeRecords_report (k + 1) held
      have get := s.freeRecords_get k held
      have rewrite := s.freeRecords_rewrite k held
      have copier := s.freeRecords_copier (k + 1)
      have events := fun (i : Nat) (e : Event) (at_ : s.eventAt i e) => s.freeRecords_events (k + 1) held at_
      have clips := s.freeRecords_clip
      have frame : Frame [.assoc, .clip, .report, .writer, .wires] s (s.freeRecords (k + 1)) :=
        State.freeRecords_frame _ (Frame.refl _ s) (by decide)
      generalize made : s.freeRecords (k + 1) = f at report wires get rewrite copier events frame exec_
      have reclaim : f.report.reclaim = s.report.reclaim := by rw [report]
      refine ⟨_, f, exec_, rfl, rewrite, fun free => ⟨_, ?unasked, State.settle_frame (Frame.refl _ _) (by decide)⟩,
        fun i asked allocating => ⟨_, _, State.runJobs_begun _, ?tests, State.settle_frame (Frame.refl _ _) (by decide)⟩,
        fun asked other => ⟨_, ?answered, State.settle_frame (Frame.refl _ _) (by decide)⟩, fun free idle => ?rests, report,
        fun valid => ?get, wires, fun i e event alone => events i e ⟨event, alone⟩, fun es give ids nodup stand gives => ?clip, frame⟩
      case unasked =>
        rw [State.answerFreed_unasked f (reclaim.trans free)]
        exact f.writerLook_looked
      case tests =>
        rw [State.answerFreed_allocating (reclaim.trans asked) (copier.trans allocating)]
        exact State.writerLook_looked _
      case answered =>
        rw [State.answerFreed_other (reclaim.trans asked) fun i => copier ▸ other i]
        exact State.writerLook_looked _
      case rests =>
        have nothing : f.report.waitList = [] ∨ f.report.writer ≠ .idle := by rwa [report]
        have looked : f.answerFreed.writerLook = f := by
          rw [State.answerFreed_unasked f (reclaim.trans free)]
          exact State.lookWith_rests _ f nothing
        rw [looked]
        refine ⟨State.settle_frame (Frame.refl _ f) (by decide), ?_⟩
        simp only [State.settle_status, Status.choose_rest, rewrite]
      case get =>
        rw [get, gen]
        exact get_after_ack valid kIs
      case clip =>
        have long : es.length = k + 1 := by
          rw [← List.length_map (f := (·.2.1.number)), ids, List.length_take, min_eq_left held]
        have clip := clips es ⟨s.report.numbers.drop (k + 1), by rw [ids, List.take_append_drop]⟩ nodup stand
        have same : give = Clip.give s.gen.clipSize := by
          funext c r
          exact gives c r _ rfl
        rw [same, ← made, ← long]
        exact clip

end Sys2Proof.Machine
end

section
/-! SUPPORT. Messages to the Associator: a pick enters the list, a closure fills its copies, a request moves an event on (R87, R89,
R96). -/
namespace Sys2Proof.Machine

/-! ### Lists -/

/-- An element inserted stands before the first one that goes after it. -/
theorem insertBefore_split {α : Type} (after : α → Bool) (x : α) (l : List α) : ∃ pre post, l = pre ++ post ∧
    insertBefore after x l = pre ++ x :: post ∧ (∀ y ∈ pre, after y = false) ∧ ∀ y, post.head? = some y → after y = true := by
  induction l with
  | nil => exact ⟨[], [], rfl, rfl, fun y listed => by simp at listed, fun y first => by simp at first⟩
  | cons z zs ih =>
    unfold insertBefore
    cases goes : after z with
    | true => exact ⟨[], z :: zs, rfl, rfl, fun y listed => by simp at listed, fun y first => by cases first; exact goes⟩
    | false =>
      obtain ⟨pre, post, whole, inserted, before, first⟩ := ih
      refine ⟨z :: pre, post, by rw [whole]; rfl, by simp [inserted], fun y listed => ?_, first⟩
      rcases List.mem_cons.1 listed with rfl | listed
      · exact goes
      · exact before y listed

/-! ### The pick list (R87) -/

/-- A full list loses its first entry, with PICK_EVICTED; the pick takes the next number, and its place by onset (R87). -/
theorem State.enterPick_enters (p : Pick) (s : State) :
    (s.enterPick p).status.pending =
      (if s.assoc.picks.length < 256 then s.status.pending else s.status.pending ||| Notice.pickEvicted.bit) ∧
    (s.enterPick p).tallies = (if s.assoc.picks.length < 256 then s else s.count .picksEvicted).tallies ∧
    ∃ l r, (if s.assoc.picks.length < 256 then s.assoc.picks else s.assoc.picks.drop 1) = l ++ r ∧
      (∀ x ∈ l, x.copy.pick.onset ≤ p.onset) ∧ (∀ y, r.head? = some y → p.onset < y.copy.pick.onset) ∧
      (s.enterPick p).assoc = { s.assoc with
        nextPick := (s.assoc.nextPick + 1) % 2 ^ 32, picks := l ++ ⟨⟨s.assoc.nextPick, p, none⟩, none⟩ :: r } := by
  obtain ⟨l, r, whole, inserted, before, first⟩ := insertBefore_split (fun e => decide (p.onset < e.copy.pick.onset))
    (⟨⟨s.assoc.nextPick, p, none⟩, none⟩ : PickEntry) (pickRoom s.assoc.picks)
  refine ⟨?_, ?_, l, r, whole, fun x listed => by simpa using before x listed, fun y front => by simpa using first y front, ?_⟩
  · unfold State.enterPick
    split <;> simp
  · unfold State.enterPick
    split <;> simp
  · rw [← inserted]
    unfold State.enterPick
    split <;> simp

/-- Ownership leaves the copies as they are. -/
theorem State.own_copies (ev : Nat) (nums : List Nat) (s : State) :
    (s.own ev nums).assoc.picks.map (·.copy) = s.assoc.picks.map (·.copy) := by
  simp only [State.own, State.setAssoc_assoc, List.map_map]
  refine List.map_congr_left fun e _ => ?_
  simp only [Function.comp_apply]
  split <;> rfl

/-- A zone tried leaves the copies in the list, and the next number, as they are (R90). -/
theorem State.tryZone_copies (z : Nat) (zone : Zone) (c : PickCopy) (s : State) :
    (s.tryZone z zone c).state.assoc.picks.map (·.copy) = s.assoc.picks.map (·.copy) ∧
      (s.tryZone z zone c).state.assoc.nextPick = s.assoc.nextPick := by
  have lost : (s.loseEvent).assoc = s.assoc := by simp [State.loseEvent]
  unfold State.tryZone State.coincide
  split
  · exact ⟨State.own_copies _ _ _, rfl⟩
  · split
    · split
      · split
        · refine ⟨?_, by simp [ZoneOutcome.state, State.declareIn, State.own]⟩
          simp only [ZoneOutcome.state, State.declareIn, State.askRewrite_assoc, State.raise_assoc, State.count_assoc]
          exact State.own_copies _ _ _
        · exact ⟨by rw [ZoneOutcome.state, lost], by rw [ZoneOutcome.state, lost]⟩
      · exact ⟨by rw [ZoneOutcome.state, lost], by rw [ZoneOutcome.state, lost]⟩
    · exact ⟨rfl, rfl⟩

/-- Association leaves the copies in the list, and the next number, as they are (R90). -/
theorem State.associate_copies (c : PickCopy) (zs : List (Nat × Zone)) (s : State) :
    (s.associate c zs).assoc.picks.map (·.copy) = s.assoc.picks.map (·.copy) ∧ (s.associate c zs).assoc.nextPick = s.assoc.nextPick := by
  induction zs generalizing s with
  | nil => exact ⟨rfl, rfl⟩
  | cons q zs ih =>
    obtain ⟨i, z⟩ := q
    have tried := s.tryZone_copies i z c
    unfold State.associate
    split
    · cases outcome : s.tryZone i z c with
      | taken t =>
        rw [outcome] at tried
        exact tried
      | neither t =>
        rw [outcome] at tried
        exact ⟨(ih t).1.trans tried.1, (ih t).2.trans tried.2⟩
    · exact ih s

/-! ### Closures (R89, R93) -/

theorem foldl_max_ge (l : List Nat) (a : Nat) : a ≤ l.foldl max a ∧ ∀ n ∈ l, n ≤ l.foldl max a := by
  induction l generalizing a with
  | nil => exact ⟨le_refl a, fun n listed => by cases listed⟩
  | cons m l ih =>
    obtain ⟨start, rest⟩ := ih (max a m)
    refine ⟨(le_max_left a m).trans start, fun n listed => ?_⟩
    rcases List.mem_cons.1 listed with rfl | behind
    · exact (le_max_right a n).trans start
    · exact rest n behind

theorem foldl_max_or (l : List Nat) (a : Nat) : l.foldl max a = a ∨ l.foldl max a ∈ l := by
  induction l generalizing a with
  | nil => exact .inl rfl
  | cons m l ih =>
    rcases ih (max a m) with same | listed
    · rcases max_choice a m with first | second
      · exact .inl (same.trans first)
      · exact .inr (by rw [List.foldl_cons, same, second]; exact List.mem_cons_self)
    · exact .inr (List.mem_cons_of_mem _ listed)

theorem le_foldl_max {l : List Nat} {n : Nat} (listed : n ∈ l) : n ≤ l.foldl max 0 := (foldl_max_ge l 0).2 n listed

/-- The greatest of some numbers is one of them. -/
theorem foldl_max_mem {l : List Nat} (some_ : l ≠ []) : l.foldl max 0 ∈ l := by
  rcases foldl_max_or l 0 with zero | listed
  · obtain ⟨n, rest, rfl⟩ := List.exists_cons_of_ne_nil some_
    have small := (foldl_max_ge (n :: rest) 0).2 n List.mem_cons_self
    rw [zero] at small ⊢
    rw [Nat.le_zero.1 small]
    exact List.mem_cons_self
  · exact listed

/-- The greatest peak of the copies, and no greater (R93). -/
theorem peakMaxOf_max (cs : List PickCopy) : (∀ c ∈ cs, c.peak ≤ peakMaxOf cs) ∧ (cs ≠ [] → ∃ c ∈ cs, c.peak = peakMaxOf cs) := by
  have greatest : peakMaxOf cs = (cs.map PickCopy.peak).foldl max 0 := by
    rw [List.foldl_map]
    rfl
  rw [greatest]
  refine ⟨fun c listed => le_foldl_max (List.mem_map.2 ⟨c, listed, rfl⟩), fun some_ => ?_⟩
  obtain ⟨c, listed, same⟩ := List.mem_map.1 (foldl_max_mem (l := cs.map PickCopy.peak) (by simpa using some_))
  exact ⟨c, listed, same⟩

theorem PickCopy.fill_eq (st onset : Nat) (k : Closure) (c : PickCopy) : c.fill st onset k =
    if c.pick.station = st ∧ c.pick.onset = onset ∧ c.closure = none then { c with closure := some k } else c := by
  unfold PickCopy.fill PickCopy.named
  simp [and_assoc]

/-! ### States (R96) -/

theorem EventState.precedes_iff (y x : EventState) : y.precedes x = true ↔
    y = .gathering ∧ x = .waitingTail ∨ y = .gathering ∧ x = .copyQueued ∨ y = .waitingTail ∧ x = .copyQueued ∨
      y = .copyQueued ∧ x = .copying ∨ y = .copying ∧ x = .copied ∨ y = .copied ∧ x = .reported := by
  cases y <;> cases x <;> simp [EventState.precedes]

/-- Settles O47. -/
theorem messagesReachTheAssociator : Obligations.MessagesReachTheAssociator := by
  unfold Obligations.MessagesReachTheAssociator
  intro s
  refine ⟨fun p pre post queue others => ?pick, fun st onset k pre post queue others => ?closure,
    fun ev i x e pre post queue others event number alone => ?request⟩
  case pick =>
    have first : takeFirst (fun m => m.station == p.station) s.wires.toAssoc = some (.pick p, pre ++ post) := by
      rw [queue]
      exact takeFirst_split (fun m listed => by simpa using others m listed) (by simp [AssocMsg.station])
    have taken : exec (.pickArrival p.station) s =
        done ((s.setWires fun w => { w with toAssoc := pre ++ post }).takePick p) := by
      show execPickArrival p.station s = _
      unfold execPickArrival
      rw [first]
    refine ⟨fun elsewhere => ?dropped, fun listening => ?entered⟩
    case dropped =>
      have act : (s.setWires fun w => { w with toAssoc := pre ++ post }).takePick p = s.setWires fun w => { w with toAssoc := pre ++ post } :=
        if_neg elsewhere
      rw [act] at taken
      exact ⟨_, taken, rfl, State.settle_frame (State.setWires_frame _ (Frame.refl _ s) (by decide)) (by decide)⟩
    case entered =>
      have act : (s.setWires fun w => { w with toAssoc := pre ++ post }).takePick p =
          ((s.setWires fun w => { w with toAssoc := pre ++ post }).enterPick p).associate ⟨s.assoc.nextPick, p, none⟩
            (s.setWires fun w => { w with toAssoc := pre ++ post }).zones := if_pos listening
      rw [act] at taken
      obtain ⟨-, -, l, r, kept, before, behind, entered⟩ := (s.setWires fun w => { w with toAssoc := pre ++ post }).enterPick_enters p
      obtain ⟨copies, next⟩ := ((s.setWires fun w => { w with toAssoc := pre ++ post }).enterPick p).associate_copies
        ⟨s.assoc.nextPick, p, none⟩ (s.setWires fun w => { w with toAssoc := pre ++ post }).zones
      have frame : Frame [.assoc, .notices, .writer, .tallies] (s.setWires fun w => { w with toAssoc := pre ++ post }) _ :=
        State.associate_frame ⟨s.assoc.nextPick, p, none⟩ (s.setWires fun w => { w with toAssoc := pre ++ post }).zones
          (State.enterPick_frame p (Frame.refl _ _) (by decide)) (by decide)
      refine ⟨_, _, l, r, taken, frame .wires (by decide), ?_, rfl, kept, before, behind, ?_, ?_⟩
      · rw [State.settle_assoc, next, entered]
        rfl
      · rw [State.settle_assoc, copies, entered]
        simp
      · exact State.settle_frame ((State.setWires_frame (fun w => { w with toAssoc := pre ++ post }) (Frame.refl _ s) (by decide)).trans
          (frame.mono (by decide))) (by decide)
  case closure =>
    have first : takeFirst (fun m => m.station == st) s.wires.toAssoc = some (.closure st onset k, pre ++ post) := by
      rw [queue]
      exact takeFirst_split (fun m listed => by simpa using others m listed) (by simp [AssocMsg.station])
    have taken : exec (.pickClosure st) s =
        done ((s.setWires fun w => { w with toAssoc := pre ++ post }).applyClosure st onset k) := by
      show execPickClosure st s = _
      unfold execPickClosure
      rw [first]
    refine ⟨_, PickCopy.fill st onset k, PickCopy.fill_eq st onset k, taken, rfl, rfl, List.length_map .., fun i none_ => ?_,
      fun i e some_ => ?_, rfl, State.settle_frame (State.setAssoc_frame _ (State.setWires_frame _ (Frame.refl _ s) (by decide)) (by decide))
        (by decide)⟩
    · show (s.assoc.events.map fun o => o.map (Event.fill st onset k))[i]? = _
      simp [none_]
    · refine ⟨e.fill st onset k, ?_, fun other => if_neg other, fun gathering => ?_⟩
      · show (s.assoc.events.map fun o => o.map (Event.fill st onset k))[i]? = _
        simp [some_]
      · have filled : e.fill st onset k = { e with
            picks := e.picks.map (PickCopy.fill st onset k), peakMax := peakMaxOf (e.picks.map (PickCopy.fill st onset k)) } :=
          if_pos gathering
        rw [filled]
        exact ⟨rfl, peakMaxOf_max _⟩
  case request =>
    have first : takeFirst (fun m => m.1 == ev) s.wires.stateRequests = some ((ev, x), pre ++ post) := by
      rw [queue]
      exact takeFirst_split (fun m listed => by simpa using others m listed) (by simp)
    have taken : exec (.eventStateRequest ev) s =
        done ((s.setWires fun w => { w with stateRequests := pre ++ post }).applyRequest ev x) := by
      show execEventStateRequest ev s = _
      unfold execEventStateRequest
      rw [first]
    have found : (s.setWires fun w => { w with stateRequests := pre ++ post }).findEvent ev = some (i, e) := by
      rw [← number]
      exact State.findEvent_at _ i e event fun j e' there same => alone j e' there (same.trans number)
    have moved : (s.setWires fun w => { w with stateRequests := pre ++ post }).applyRequest ev x = if e.state.precedes x then
        (s.setWires fun w => { w with stateRequests := pre ++ post }).setEvent i fun y => { y with state := x }
        else s.setWires fun w => { w with stateRequests := pre ++ post } := by
      unfold State.applyRequest
      rw [found]
    have frame : Frame [.assoc, .wires] s ((s.setWires fun w => { w with stateRequests := pre ++ post }).applyRequest ev x) :=
      State.applyRequest_frame _ _ (State.setWires_frame _ (Frame.refl _ s) (by decide)) (by decide)
    refine ⟨_, taken, ?_, ⟨fun follows => ?_, fun stays => ?_⟩, State.settle_frame (frame.mono (by decide)) (by decide)⟩
    · rw [moved]
      split <;> rfl
    · rw [moved, if_pos ((EventState.precedes_iff _ _).2 follows), State.settle_assoc]
      show ({ s.assoc with events := s.assoc.events.modify i (·.map fun y => { y with state := x }) } : Assoc) = _
      rw [modify_eq_set event]
      rfl
    · rw [moved, if_neg fun follows => stays ((EventState.precedes_iff _ _).1 follows)]
      rfl

end Sys2Proof.Machine
end

section
/-! SUPPORT. The association of a pick: the join test, the window found, and the zones tried in turn (R90 to R95). -/
namespace Sys2Proof.Machine

/-! ### Lists in the order of a key -/

/-- An element inserted keeps an order that the test agrees with. -/
theorem insertBefore_pairwise {α : Type} {R : α → α → Prop} {after : α → Bool} {x : α} {l : List α} (ordered : l.Pairwise R)
    (behind : ∀ y, after y = false → R y x) (before : ∀ y, after y = true → R x y ∧ ∀ z, R y z → R x z) :
    (insertBefore after x l).Pairwise R := by
  induction l with
  | nil => exact List.pairwise_singleton _ _
  | cons y ys ih =>
    obtain ⟨first, rest⟩ := List.pairwise_cons.1 ordered
    unfold insertBefore
    cases goes : after y with
    | true =>
      obtain ⟨head, further⟩ := before y goes
      refine List.pairwise_cons.2 ⟨fun z listed => ?_, ordered⟩
      rcases List.mem_cons.1 listed with rfl | later
      · exact head
      · exact further z (first z later)
    | false =>
      refine List.pairwise_cons.2 ⟨fun z listed => ?_, ih rest⟩
      rcases List.mem_cons.1 ((insertBefore_perm _ x ys).mem_iff.1 listed) with rfl | later
      · exact behind y goes
      · exact first z later

theorem sortBy_ordered {α : Type} (key : α → Nat) (l : List α) : (sortBy key l).Pairwise fun a b => key a ≤ key b := by
  induction l with
  | nil => exact List.Pairwise.nil
  | cons x xs ih =>
    refine insertBefore_pairwise ih (fun y above => ?_) fun y below => ⟨of_decide_eq_true below, fun z le => (of_decide_eq_true below).trans le⟩
    exact (Nat.lt_of_not_le (of_decide_eq_false above)).le

/-- In the order of a key, what is found first is what has the least key. -/
theorem find?_of_least {α : Type} {key : α → Nat} {q : α → Bool} {l : List α} {x : α} (ordered : l.Pairwise fun a b => key a ≤ key b)
    (listed : x ∈ l) (holds : q x = true) (least : ∀ y ∈ l, q y = true → y = x ∨ key x < key y) : l.find? q = some x := by
  induction l with
  | nil => cases listed
  | cons y ys ih =>
    obtain ⟨first, rest⟩ := List.pairwise_cons.1 ordered
    by_cases here : q y = true
    · rw [List.find?_cons_of_pos here]
      rcases least y List.mem_cons_self here with same | before
      · rw [same]
      · rcases List.mem_cons.1 listed with same | behind
        · rw [same]
        · exact absurd (first x behind) (Nat.not_le.2 before)
    · rw [List.find?_cons_of_neg here]
      rcases List.mem_cons.1 listed with rfl | behind
      · exact absurd holds here
      · exact ih rest behind fun z there => least z (List.mem_cons_of_mem _ there)

/-! ### Copies in order (R93) -/

/-- The order of copies, as inequalities (R93). -/
theorem PickCopy.before_iff {c d : PickCopy} : c.before d = true ↔
    c.pick.onset < d.pick.onset ∨ c.pick.onset = d.pick.onset ∧ c.num < d.num := by
  simp [PickCopy.before]

theorem orderCopies_perm (cs : List PickCopy) : (orderCopies cs).Perm cs := by
  induction cs with
  | nil => exact List.Perm.refl _
  | cons c cs ih => exact (insertBefore_perm _ c _).trans (ih.cons c)

theorem orderCopies_ordered (cs : List PickCopy) : (orderCopies cs).Pairwise fun c d => d.before c = false := by
  induction cs with
  | nil => exact List.Pairwise.nil
  | cons c cs ih =>
    refine insertBefore_pairwise ih (fun d behind => behind) fun d before => ⟨?_, fun e le => ?_⟩
    · rw [PickCopy.before_iff] at before
      rw [← Bool.not_eq_true, PickCopy.before_iff]
      omega
    · rw [← Bool.not_eq_true, PickCopy.before_iff] at le ⊢
      rw [PickCopy.before_iff] at before
      omega

theorem earliest_none {cs : List PickCopy} : earliest cs = none ↔ cs = [] := by
  cases cs with
  | nil => simp [earliest]
  | cons c cs =>
    unfold earliest
    split <;> simp

/-- The earliest of some picks: one of them, with none before it (R92). -/
theorem earliest_some {cs : List PickCopy} {c : PickCopy} (found : earliest cs = some c) : c ∈ cs ∧ ∀ d ∈ cs, d.before c = false := by
  have irrefl (d : PickCopy) : d.before d = false := by
    rw [← Bool.not_eq_true, PickCopy.before_iff]
    omega
  induction cs generalizing c with
  | nil => cases found
  | cons x xs ih =>
    unfold earliest at found
    cases later : earliest xs with
    | none =>
      rw [later] at found
      cases found
      refine ⟨List.mem_cons_self, fun d listed => ?_⟩
      rw [earliest_none.1 later, List.mem_singleton] at listed
      rw [listed]
      exact irrefl x
    | some y =>
      rw [later] at found
      obtain ⟨there, least⟩ := ih later
      cases earlier : y.before x with
      | true =>
        obtain rfl : y = c := by simpa [earlier] using found
        refine ⟨List.mem_cons_of_mem _ there, fun d listed => ?_⟩
        rcases List.mem_cons.1 listed with rfl | behind
        · rw [PickCopy.before_iff] at earlier
          rw [← Bool.not_eq_true, PickCopy.before_iff]
          omega
        · exact least d behind
      | false =>
        obtain rfl : x = c := by simpa [earlier] using found
        refine ⟨List.mem_cons_self, fun d listed => ?_⟩
        rcases List.mem_cons.1 listed with rfl | behind
        · exact irrefl d
        · have no := least d behind
          rw [← Bool.not_eq_true, PickCopy.before_iff] at no earlier ⊢
          omega

/-! ### The window found (R92) -/

theorem distance_le {a b w : Nat} : distance a b ≤ w ↔ a ≤ b + w ∧ b ≤ a + w := by
  unfold distance
  split <;> omega

theorem mem_candidates {zone : Zone} {p : Pick} {ps : List PickEntry} {c : PickCopy} :
    c ∈ candidates zone p.onset ps ↔ zone.candidate p ps c := by
  simp only [candidates, List.mem_map, List.mem_filter, Bool.and_eq_true, decide_eq_true_iff, distance_le, List.contains_iff_mem]
  constructor
  · rintro ⟨⟨copy, owner⟩, ⟨listed, ⟨free, member⟩, near⟩, rfl⟩
    cases owner with
    | none => exact ⟨listed, member, near⟩
    | some n => cases free
  · rintro ⟨listed, member, near⟩
    exact ⟨⟨c, none⟩, ⟨listed, ⟨rfl, member⟩, near⟩, rfl⟩

theorem mem_inWindow {zone : Zone} {p : Pick} {ps : List PickEntry} {f st : Nat} {c : PickCopy} :
    c ∈ inWindow zone f st (candidates zone p.onset ps) ↔ zone.reaches p ps f c ∧ c.pick.station = st := by
  simp only [inWindow, List.mem_filter, Bool.and_eq_true, decide_eq_true_iff, beq_iff_eq, mem_candidates, Zone.reaches]
  tauto

/-- A pick counted at a candidate start: the earliest of its station that the window reaches (R92). -/
theorem mem_windowPicks {zone : Zone} {p : Pick} {ps : List PickEntry} {f : Nat} {c : PickCopy}
    (counted : c ∈ windowPicks zone (candidates zone p.onset ps) f) :
    zone.reaches p ps f c ∧ ∀ d, zone.reaches p ps f d → d.pick.station = c.pick.station → d.before c = false := by
  obtain ⟨st, -, found⟩ := List.mem_filterMap.1 counted
  obtain ⟨listed, least⟩ := earliest_some found
  obtain ⟨reached, station⟩ := mem_inWindow.1 listed
  exact ⟨reached, fun d there same => least d (mem_inWindow.2 ⟨there, same.trans station⟩)⟩

/-- Every station that the window reaches is counted (R92). -/
theorem windowPicks_counts {zone : Zone} {p : Pick} {ps : List PickEntry} {f : Nat} {d : PickCopy} (reached : zone.reaches p ps f d) :
    ∃ c ∈ windowPicks zone (candidates zone p.onset ps) f, c.pick.station = d.pick.station := by
  have listed : d ∈ inWindow zone f d.pick.station (candidates zone p.onset ps) := mem_inWindow.2 ⟨reached, rfl⟩
  cases found : earliest (inWindow zone f d.pick.station (candidates zone p.onset ps)) with
  | none =>
    rw [earliest_none.1 found] at listed
    cases listed
  | some c => exact ⟨c, List.mem_filterMap.2 ⟨d.pick.station, reached.1.2.1, found⟩, (mem_inWindow.1 (earliest_some found).1).2⟩

/-- One pick of each station is counted (R92). -/
theorem windowPicks_stations {zone : Zone} {p : Pick} {ps : List PickEntry} {f : Nat} (members : zone.members.Nodup) :
    (windowPicks zone (candidates zone p.onset ps) f).Pairwise fun c d => c.pick.station ≠ d.pick.station := by
  refine List.Pairwise.filterMap _ (fun st other differ c found d found' => ?_) members
  rw [(mem_inWindow.1 (earliest_some found).1).2, (mem_inWindow.1 (earliest_some found').1).2]
  exact differ

/-- Enough stations are counted at a start (R92). -/
theorem windowPicks_enough {zone : Zone} {p : Pick} {ps : List PickEntry} {f : Nat} (members : zone.members.Nodup) :
    zone.minCount ≤ (windowPicks zone (candidates zone p.onset ps) f).length ↔
      ∃ sts : List Nat, sts.Nodup ∧ sts.length = zone.minCount ∧ ∀ st ∈ sts, ∃ c, zone.reaches p ps f c ∧ c.pick.station = st := by
  have stations : ((windowPicks zone (candidates zone p.onset ps) f).map (·.pick.station)).Nodup :=
    List.pairwise_map.2 (windowPicks_stations members)
  constructor
  · intro enough
    refine ⟨((windowPicks zone (candidates zone p.onset ps) f).map (·.pick.station)).take zone.minCount, stations.sublist (List.take_sublist _ _),
      by simpa using enough, fun st listed => ?_⟩
    obtain ⟨c, counted, same⟩ := List.mem_map.1 (List.mem_of_mem_take listed)
    exact ⟨c, (mem_windowPicks counted).1, same⟩
  · rintro ⟨sts, nodup, length, reached⟩
    have subset : sts ⊆ (windowPicks zone (candidates zone p.onset ps) f).map (·.pick.station) := fun st listed => by
      obtain ⟨d, there, rfl⟩ := reached st listed
      obtain ⟨c, counted, same⟩ := windowPicks_counts there
      exact List.mem_map.2 ⟨c, counted, same⟩
    have := (nodup.subperm subset).length_le
    rwa [length, List.length_map] at this

/-- A start that opens a window is one of the candidate starts, with enough stations counted there (R92). -/
theorem opensAt_iff {zone : Zone} {p : Pick} {ps : List PickEntry} {f : Nat} (members : zone.members.Nodup) : zone.opensAt p ps f ↔
    f ∈ sortBy id (((candidates zone p.onset ps).map fun c => c.pick.onset).filter fun s => decide (s ≤ p.onset)) ∧
      zone.minCount ≤ (windowPicks zone (candidates zone p.onset ps) f).length := by
  rw [windowPicks_enough members, (sortBy_perm _ _).mem_iff, List.mem_filter, decide_eq_true_iff, List.mem_map]
  unfold Zone.opensAt
  constructor
  · rintro ⟨early, ⟨c, candidate, onset⟩, enough⟩
    exact ⟨⟨⟨c, mem_candidates.2 candidate, onset⟩, early⟩, enough⟩
  · rintro ⟨⟨⟨c, candidate, onset⟩, early⟩, enough⟩
    exact ⟨early, ⟨c, mem_candidates.1 candidate, onset⟩, enough⟩

/-- The window found is that of the first start that opens one (R92). -/
theorem findWindow_of_opens {zone : Zone} {p : Pick} {ps : List PickEntry} {f : Nat} (members : zone.members.Nodup)
    (opens : zone.opensAt p ps f) (first : ∀ g, g < f → ¬ zone.opensAt p ps g) :
    findWindow zone p.onset (candidates zone p.onset ps) = some (windowPicks zone (candidates zone p.onset ps) f) := by
  obtain ⟨listed, enough⟩ := (opensAt_iff members).1 opens
  unfold findWindow
  rw [List.find?_map, find?_of_least (key := id) (sortBy_ordered id _) listed (decide_eq_true enough) fun g there holds => ?_]
  · rfl
  · rcases Nat.lt_trichotomy g f with before | same | behind
    · exact absurd ((opensAt_iff members).2 ⟨there, of_decide_eq_true holds⟩) (first g before)
    · exact .inl same
    · exact .inr behind

theorem findWindow_isSome {zone : Zone} {p : Pick} {ps : List PickEntry} (members : zone.members.Nodup) :
    (findWindow zone p.onset (candidates zone p.onset ps)).isSome = true ↔ ∃ f, zone.opensAt p ps f := by
  simp only [findWindow, List.find?_isSome, List.mem_map, decide_eq_true_iff]
  constructor
  · rintro ⟨cs, ⟨f, listed, rfl⟩, enough⟩
    exact ⟨f, (opensAt_iff members).2 ⟨listed, enough⟩⟩
  · rintro ⟨f, opens⟩
    obtain ⟨listed, enough⟩ := (opensAt_iff members).1 opens
    exact ⟨_, ⟨f, listed, rfl⟩, enough⟩

theorem findWindow_none {zone : Zone} {p : Pick} {ps : List PickEntry} (members : zone.members.Nodup)
    (closed : ∀ f, ¬ zone.opensAt p ps f) : findWindow zone p.onset (candidates zone p.onset ps) = none := by
  rw [← Option.not_isSome_iff_eq_none, findWindow_isSome members]
  exact fun ⟨f, opens⟩ => closed f opens

end Sys2Proof.Machine
end

section
/-! SUPPORT. A pick arrives: the zones are tried in turn, until one takes it (R90 to R95). -/
namespace Sys2Proof.Machine

/-! ### The join test (R91, R93) -/

theorem Event.takes_iff {z : Nat} {zone : Zone} {p : Pick} {e : Event} : e.takes z zone.window p = true ↔ e.mayJoin z zone p := by
  unfold Event.takes Event.mayJoin
  simp only [Bool.and_eq_true, beq_iff_eq, decide_eq_true_iff, distance_le, Bool.not_eq_true', List.any_eq_false]
  tauto

theorem State.mem_eventsByNumber {s : State} {i : Nat} {e : Event} : (i, e) ∈ s.eventsByNumber ↔ s.assoc.events[i]? = some (some e) := by
  unfold State.eventsByNumber
  rw [(sortBy_perm _ _).mem_iff, heldEvents_iff]
  simp

/-- The event of the lowest number that takes the pick is found (R91). -/
theorem State.join_found {s : State} {z i : Nat} {zone : Zone} {p : Pick} {e : Event} (event : s.assoc.events[i]? = some (some e))
    (joins : e.mayJoin z zone p) (lowest : ∀ (j : Nat) (e' : Event), s.assoc.events[j]? = some (some e') → e'.mayJoin z zone p → j ≠ i →
      e.number < e'.number) : (s.eventsByNumber.find? fun q => q.2.takes z zone.window p) = some (i, e) := by
  refine find?_of_least (key := fun q => q.2.number) (sortBy_ordered _ _) (State.mem_eventsByNumber.2 event) (Event.takes_iff.2 joins)
    fun q listed takes => ?_
  obtain ⟨j, e'⟩ := q
  have there := State.mem_eventsByNumber.1 listed
  by_cases same : j = i
  · subst same
    rw [event] at there
    cases there
    exact .inl rfl
  · exact .inr (lowest j e' there (Event.takes_iff.1 takes) same)

theorem State.join_none {s : State} {z : Nat} {zone : Zone} {p : Pick}
    (nobody : ∀ (i : Nat) (e : Event), s.assoc.events[i]? = some (some e) → ¬ e.mayJoin z zone p) :
    (s.eventsByNumber.find? fun q => q.2.takes z zone.window p) = none := by
  rw [List.find?_eq_none]
  rintro ⟨i, e⟩ listed takes
  exact nobody i e (State.mem_eventsByNumber.1 listed) (Event.takes_iff.1 takes)

/-! ### A free slot (R94) -/

theorem placeOf_first {α : Type} {q : α → Bool} {l : List α} {i k : Nat} {x : α} (at_ : l[i]? = some x) (holds : q x = true)
    (first : ∀ (j : Nat) (y : α), j < i → l[j]? = some y → q y = false) : placeOf q k l = some (k + i) := by
  induction l generalizing i k with
  | nil => cases at_
  | cons y ys ih =>
    unfold placeOf
    cases i with
    | zero =>
      cases at_
      rw [if_pos holds]
      rfl
    | succ i =>
      rw [if_neg (by simp [first 0 y (Nat.succ_pos i) rfl]), ih at_ fun j z before there => first (j + 1) z (Nat.succ_lt_succ before) there]
      congr 1
      omega

/-- The lowest FREE slot (R94). -/
theorem placeOf_free {l : List (Option Event)} {i : Nat} (free : l[i]? = some none) (first : ∀ j, j < i → l[j]? ≠ some none) :
    placeOf Option.isNone 0 l = some i := by
  rw [placeOf_first (k := 0) free rfl fun j y before there => ?_, Nat.zero_add]
  cases y with
  | none => exact absurd there (first j before)
  | some e => rfl

theorem placeOf_taken {l : List (Option Event)} (taken : ∀ i : Nat, l[i]? ≠ some none) : placeOf Option.isNone 0 l = none := by
  cases found : placeOf Option.isNone 0 l with
  | none => rfl
  | some n =>
    obtain ⟨j, x, -, there, free⟩ := placeOf_spec found
    cases x with
    | none => exact absurd there (taken j)
    | some e => cases free

/-! ### One zone (R90) -/

/-- There is no slot, or no number, for one more event (R94, R95). -/
def Assoc.isFull (a : Assoc) : Prop := (∀ i : Nat, a.events[i]? ≠ some none) ∨ 2 ^ 32 ≤ a.counter

section
variable {z : Nat} {zone : Zone} {c : PickCopy} {s : State}

theorem State.tryZone_joins {i : Nat} {e : Event} (found : (s.eventsByNumber.find? fun q => q.2.takes z zone.window c.pick) = some (i, e)) :
    s.tryZone z zone c = .taken ((s.setEvent i (Event.join c)).own e.number [c.num]) := by
  unfold State.tryZone
  rw [found]

theorem State.tryZone_coincides (nobody : ∀ (i : Nat) (e : Event), s.assoc.events[i]? = some (some e) → ¬ e.mayJoin z zone c.pick) :
    s.tryZone z zone c = s.coincide z zone c.pick := by
  unfold State.tryZone
  rw [State.join_none nobody]

/-- The window found declares an event, when there is a slot and a number for it (R94). -/
theorem State.coincide_declares {p : Pick} {i : Nat} {cs : List PickCopy}
    (found : findWindow zone p.onset (candidates zone p.onset s.assoc.picks) = some cs) (free : s.assoc.events[i]? = some none)
    (first : ∀ j, j < i → s.assoc.events[j]? ≠ some none) (numbered : s.assoc.counter < 2 ^ 32) :
    s.coincide z zone p = .taken (s.declareIn i z zone.window cs) := by
  unfold State.coincide
  rw [found, placeOf_free free first]
  exact if_pos numbered

/-- Without one the event is lost (R94, R95). -/
theorem State.coincide_loses {p : Pick} {cs : List PickCopy}
    (found : findWindow zone p.onset (candidates zone p.onset s.assoc.picks) = some cs) (full : s.assoc.isFull) :
    s.coincide z zone p = .neither s.loseEvent := by
  unfold State.coincide
  rw [found]
  rcases full with taken | spent
  · rw [placeOf_taken taken]
  · cases placeOf Option.isNone 0 s.assoc.events with
    | none => rfl
    | some slot => exact if_neg (Nat.not_lt.2 spent)

theorem State.coincide_passes {p : Pick} (closed : findWindow zone p.onset (candidates zone p.onset s.assoc.picks) = none) :
    s.coincide z zone p = .neither s := by
  unfold State.coincide
  rw [closed]

end

/-! ### The zones in turn (R90) -/

/-- The zones, from number `i`, in which the pick opens a window (R92). -/
def opened (p : Pick) (ps : List PickEntry) : Nat → List Zone → List Nat
  | _, [] => []
  | i, z :: zs =>
    if z.count ≠ 0 ∧ p.station ∈ z.members ∧ (findWindow z p.onset (candidates z p.onset ps)).isSome then i :: opened p ps (i + 1) zs
    else opened p ps (i + 1) zs

theorem opened_cons (p : Pick) (ps : List PickEntry) (i : Nat) (z : Zone) (zs : List Zone) : opened p ps i (z :: zs) =
    if z.count ≠ 0 ∧ p.station ∈ z.members ∧ (findWindow z p.onset (candidates z p.onset ps)).isSome then i :: opened p ps (i + 1) zs
    else opened p ps (i + 1) zs := rfl

theorem zonesInUse_cons (i : Nat) (z : Zone) (zs : List Zone) : zonesInUse i (z :: zs) =
    if z.count = 0 then zonesInUse (i + 1) zs else (i, z) :: zonesInUse (i + 1) zs := rfl

theorem State.associate_cons (c : PickCopy) (i : Nat) (z : Zone) (zs : List (Nat × Zone)) (s : State) : s.associate c ((i, z) :: zs) =
    if z.members.contains c.pick.station then
      match s.tryZone i z c with
      | .taken t => t
      | .neither t => t.associate c zs
    else s.associate c zs := rfl

theorem mem_opened {p : Pick} {ps : List PickEntry} {i j : Nat} {zs : List Zone} (members : ∀ y ∈ zs, y.members.Nodup) :
    j ∈ opened p ps i zs ↔ ∃ (k : Nat) (y : Zone), j = i + k ∧ zs[k]? = some y ∧ y.count ≠ 0 ∧ p.station ∈ y.members ∧
      ∃ f, y.opensAt p ps f := by
  induction zs generalizing i with
  | nil => simp [opened]
  | cons z zs ih =>
    have rest := ih (i := i + 1) fun y listed => members y (List.mem_cons_of_mem _ listed)
    have head := findWindow_isSome (p := p) (ps := ps) (members z List.mem_cons_self)
    have split_ : (∃ (k : Nat) (y : Zone), j = i + k ∧ (z :: zs)[k]? = some y ∧ y.count ≠ 0 ∧ p.station ∈ y.members ∧
        ∃ f, y.opensAt p ps f) ↔ (j = i ∧ z.count ≠ 0 ∧ p.station ∈ z.members ∧ ∃ f, z.opensAt p ps f) ∨ j ∈ opened p ps (i + 1) zs := by
      rw [rest]
      constructor
      · rintro ⟨k, y, place, there, holds⟩
        cases k with
        | zero =>
          cases there
          exact .inl ⟨place, holds⟩
        | succ k => exact .inr ⟨k, y, by omega, there, holds⟩
      · rintro (⟨place, holds⟩ | ⟨k, y, place, there, holds⟩)
        · exact ⟨0, z, place, rfl, holds⟩
        · exact ⟨k + 1, y, by omega, there, holds⟩
    rw [split_, ← head, opened_cons]
    split
    next opens => simp [opens]
    next closed =>
      constructor
      · exact .inr
      · rintro (⟨-, holds⟩ | listed)
        · exact absurd holds closed
        · exact listed

theorem opened_nodup (p : Pick) (ps : List PickEntry) (i : Nat) (zs : List Zone) : (opened p ps i zs).Nodup := by
  have above : ∀ (i : Nat) (zs : List Zone), ∀ j ∈ opened p ps i zs, i ≤ j := by
    intro i zs
    induction zs generalizing i with
    | nil => simp [opened]
    | cons z zs ih =>
      intro j listed
      rw [opened_cons] at listed
      split at listed
      · rcases List.mem_cons.1 listed with rfl | behind
        · exact le_refl j
        · exact Nat.le_of_succ_le (ih (i + 1) j behind)
      · exact Nat.le_of_succ_le (ih (i + 1) j listed)
  induction zs generalizing i with
  | nil => simp [opened]
  | cons z zs ih =>
    rw [opened_cons]
    split
    · exact List.nodup_cons.2 ⟨fun listed => absurd (above (i + 1) zs i listed) (by omega), ih (i + 1)⟩
    · exact ih (i + 1)

theorem State.loseEvents_assoc (n : Nat) (s : State) : (State.loseEvent^[n] s).assoc = s.assoc := by
  induction n generalizing s with
  | zero => rfl
  | succ n ih => exact (ih s.loseEvent).trans s.loseEvent_assoc

/-- Zones that the pick's station is not a member of are passed over (R90). -/
theorem State.associate_elsewhere {c : PickCopy} {zs : List Zone} {i : Nat} {s : State}
    (elsewhere : ∀ y ∈ zs, y.count = 0 ∨ c.pick.station ∉ y.members) : s.associate c (zonesInUse i zs) = s := by
  induction zs generalizing i with
  | nil => rfl
  | cons z zs ih =>
    have rest := ih (i := i + 1) fun y listed => elsewhere y (List.mem_cons_of_mem _ listed)
    rw [zonesInUse_cons]
    split
    · exact rest
    next used =>
      have outside : c.pick.station ∉ z.members := (elsewhere z List.mem_cons_self).resolve_left used
      rw [State.associate_cons, if_neg (by simpa using outside)]
      exact rest

/-- The zones before the one that takes the pick are left with neither, each with EVENT_LOST where a window was found (R90, R94). -/
theorem State.associate_passes {c : PickCopy} {zs₁ zs₂ : List Zone} {i : Nat} {s : State} (members : ∀ y ∈ zs₁, y.members.Nodup)
    (neither : ∀ (k : Nat) (y : Zone), zs₁[k]? = some y → y.count ≠ 0 → c.pick.station ∈ y.members →
      (∀ (j : Nat) (e : Event), s.assoc.events[j]? = some (some e) → ¬ e.mayJoin (i + k) y c.pick) ∧
        ((∃ f, y.opensAt c.pick s.assoc.picks f) → s.assoc.isFull)) :
    s.associate c (zonesInUse i (zs₁ ++ zs₂)) =
      (State.loseEvent^[(opened c.pick s.assoc.picks i zs₁).length] s).associate c (zonesInUse (i + zs₁.length) zs₂) := by
  induction zs₁ generalizing i s with
  | nil => rfl
  | cons y ys ih =>
    obtain ⟨nodup, rest⟩ := List.forall_mem_cons.1 members
    have later : ∀ (k : Nat) (x : Zone), ys[k]? = some x → x.count ≠ 0 → c.pick.station ∈ x.members →
        (∀ (j : Nat) (e : Event), s.assoc.events[j]? = some (some e) → ¬ e.mayJoin (i + 1 + k) x c.pick) ∧
          ((∃ f, x.opensAt c.pick s.assoc.picks f) → s.assoc.isFull) := fun k x there used member => by
      have := neither (k + 1) x there used member
      rwa [show i + (k + 1) = i + 1 + k by omega] at this
    have place : i + (y :: ys).length = i + 1 + ys.length := by
      rw [List.length_cons]
      omega
    rw [place]
    have next := ih (i := i + 1) (s := s) rest later
    have lost := ih (i := i + 1) (s := s.loseEvent) rest (by rw [State.loseEvent_assoc]; exact later)
    rw [State.loseEvent_assoc] at lost
    rw [List.cons_append, zonesInUse_cons, opened_cons]
    by_cases used : y.count = 0
    · rw [if_pos used, if_neg (by simp [used])]
      exact next
    · rw [if_neg used, State.associate_cons]
      by_cases member : c.pick.station ∈ y.members
      · obtain ⟨nobody, full⟩ := neither 0 y rfl used member
        rw [Nat.add_zero] at nobody
        rw [if_pos (by simpa using member), State.tryZone_coincides nobody]
        cases found : findWindow y c.pick.onset (candidates y c.pick.onset s.assoc.picks) with
        | none =>
          rw [State.coincide_passes found, if_neg (by simp)]
          exact next
        | some cs =>
          have opens := (findWindow_isSome nodup).1 (by rw [found]; rfl)
          rw [State.coincide_loses found (full opens), if_pos ⟨used, member, rfl⟩]
          exact lost
      · rw [if_neg (by simpa using member), if_neg (by simp [member])]
        exact next

/-! ### The pick joins an event (R91, R93) -/

/-- The copy takes its place among the event's picks (R93). -/
theorem Event.join_joins (c : PickCopy) (e : Event) : ∃ l r, e.picks = l ++ r ∧ e.join c = { e with
      picks := l ++ c :: r, anchor := min e.anchor c.pick.onset, last := max e.last c.pick.onset, peakMax := (e.join c).peakMax } ∧
    (∀ d ∈ l, ¬ (c.pick.onset < d.pick.onset ∨ c.pick.onset = d.pick.onset ∧ c.num < d.num)) ∧
    (∀ d, r.head? = some d → c.pick.onset < d.pick.onset ∨ c.pick.onset = d.pick.onset ∧ c.num < d.num) ∧
    (∀ d ∈ (e.join c).picks, d.peak ≤ (e.join c).peakMax) ∧ ∃ d ∈ (e.join c).picks, d.peak = (e.join c).peakMax := by
  obtain ⟨l, r, whole, inserted, before, first⟩ := insertBefore_split (fun d => c.before d) c e.picks
  obtain ⟨most, one⟩ := peakMaxOf_max (insertBefore (fun d => c.before d) c e.picks)
  refine ⟨l, r, whole, ?_, fun d listed => ?_, fun d front => PickCopy.before_iff.1 (first d front), most, one (by rw [inserted]; simp)⟩
  · rw [← inserted]
    rfl
  · rw [← PickCopy.before_iff, before d listed]
    exact Bool.false_ne_true

/-- What the join leaves at the Associator (R93). -/
theorem State.joined_assoc {s : State} {i : Nat} {e : Event} (event : s.assoc.events[i]? = some (some e)) (c : PickCopy) :
    ((s.setEvent i (Event.join c)).own e.number [c.num]).assoc = { s.assoc with
      events := s.assoc.events.set i (some (e.join c))
      picks := s.assoc.picks.map fun x => if x.copy.num = c.num then { x with owner := some e.number } else x } := by
  show ({ s.assoc with
      events := s.assoc.events.modify i (·.map (Event.join c))
      picks := s.assoc.picks.map fun x => if [c.num].contains x.copy.num then { x with owner := some e.number } else x } : Assoc) = _
  rw [modify_eq_set event]
  simp

/-! ### An event is declared (R94) -/

theorem foldl_min_le (l : List Nat) (a : Nat) : l.foldl min a ≤ a ∧ ∀ n ∈ l, l.foldl min a ≤ n := by
  induction l generalizing a with
  | nil => exact ⟨le_refl a, fun n listed => by cases listed⟩
  | cons m l ih =>
    obtain ⟨start, rest⟩ := ih (min a m)
    refine ⟨start.trans (min_le_left a m), fun n listed => ?_⟩
    rcases List.mem_cons.1 listed with rfl | behind
    · exact start.trans (min_le_right a n)
    · exact rest n behind

theorem foldl_min_or (l : List Nat) (a : Nat) : l.foldl min a = a ∨ l.foldl min a ∈ l := by
  induction l generalizing a with
  | nil => exact .inl rfl
  | cons m l ih =>
    rcases ih (min a m) with same | listed
    · rcases min_choice a m with first | second
      · exact .inl (same.trans first)
      · exact .inr (by rw [List.foldl_cons, same, second]; exact List.mem_cons_self)
    · exact .inr (List.mem_cons_of_mem _ listed)

/-- The least of some numbers is one of them. -/
theorem foldl_min_mem {l : List Nat} (some_ : l ≠ []) : l.foldl min (l.headD 0) ∈ l := by
  obtain ⟨n, rest, rfl⟩ := List.exists_cons_of_ne_nil some_
  rcases foldl_min_or (n :: rest) n with first | listed
  · rw [List.headD_cons, first]
    exact List.mem_cons_self
  · exact listed

/-- The anchor and the last onset of a new event are the least and the greatest onset of its picks, its peak the greatest (R93, R94). -/
theorem newEvent_bounds {cs : List PickCopy} (some_ : cs ≠ []) (n z : Nat) (time : TimeState) (now close : Nat) :
    ∃ e, e = newEvent n z cs time now close ∧ (∃ c ∈ e.picks, c.pick.onset = e.anchor) ∧ (∃ c ∈ e.picks, c.pick.onset = e.last) ∧
      (∀ c ∈ e.picks, e.anchor ≤ c.pick.onset ∧ c.pick.onset ≤ e.last ∧ c.peak ≤ e.peakMax) ∧ ∃ c ∈ e.picks, c.peak = e.peakMax := by
  have onsets : cs.map (fun c => c.pick.onset) ≠ [] := by simpa using some_
  have member (c : PickCopy) : c ∈ orderCopies cs ↔ c ∈ cs := (orderCopies_perm cs).mem_iff
  obtain ⟨first, firstListed, firstIs⟩ := List.mem_map.1 (foldl_min_mem onsets)
  obtain ⟨last, lastListed, lastIs⟩ := List.mem_map.1 (foldl_max_mem onsets)
  obtain ⟨most, one⟩ := peakMaxOf_max cs
  obtain ⟨peak, peakListed, peakIs⟩ := one some_
  refine ⟨_, rfl, ⟨first, (member _).2 firstListed, firstIs⟩, ⟨last, (member _).2 lastListed, lastIs⟩, fun c listed => ?_,
    ⟨peak, (member _).2 peakListed, peakIs⟩⟩
  have there := (member c).1 listed
  exact ⟨(foldl_min_le _ _).2 _ (List.mem_map.2 ⟨c, there, rfl⟩), le_foldl_max (List.mem_map.2 ⟨c, there, rfl⟩), most c there⟩

/-- What a declaration leaves at the Associator (R94). -/
theorem State.declareIn_assoc (i z w : Nat) (cs : List PickCopy) (s : State) : (s.declareIn i z w cs).assoc = { s.assoc with
    events := s.assoc.events.set i (some (newEvent s.assoc.counter z cs s.time.state s.now (deadline s.now ((w + s.gen.intakeLatency) * 1000))))
    counter := s.assoc.counter + 1
    picks := s.assoc.picks.map fun x => if x.copy.num ∈ (orderCopies cs).map (·.num) then { x with owner := some s.assoc.counter } else x } := by
  have counted (n : Nat) : n ∈ (orderCopies cs).map (·.num) ↔ (cs.map (·.num)).contains n = true := by
    rw [List.contains_iff_mem, ((orderCopies_perm cs).map _).mem_iff]
  simp only [State.declareIn, State.askRewrite_assoc, State.raise_assoc, State.count_assoc, counted]
  rfl

/-- EVENT_DECLARED counts and is raised (R94). -/
theorem State.declareIn_tells (i z w : Nat) (cs : List PickCopy) (s : State) :
    (s.declareIn i z w cs).status.pending = s.status.pending ||| Notice.eventDeclared.bit ∧
      (s.declareIn i z w cs).tallies = (s.count .eventsDeclared).tallies := by
  simp [State.declareIn, State.own]

/-- The fields of a new event (R94, R97). -/
theorem newEvent_fields (cs : List PickCopy) (n z : Nat) (time : TimeState) (now close : Nat) : ∃ e, e = newEvent n z cs time now close ∧
    e.picks = orderCopies cs ∧ e.number = n ∧ e.zone = z ∧ e.state = .gathering ∧ e.timeState = time ∧ e.declaredAt = now ∧
    e.closeDeadline = some close ∧ e.closedAt = none ∧ e.reason = none ∧ e.clipFlags = 0 ∧ e.clipUnits = none :=
  ⟨_, rfl, rfl, rfl, rfl, rfl, rfl, rfl, rfl, rfl, rfl, rfl, rfl⟩

/-- The picks of a new event stand in order, one of each station (R92, R93). -/
theorem orderCopies_stations {cs : List PickCopy} (stations : cs.Pairwise fun c d => c.pick.station ≠ d.pick.station) :
    (orderCopies cs).Pairwise fun c d => c.pick.station ≠ d.pick.station ∧
      ¬ (d.pick.onset < c.pick.onset ∨ d.pick.onset = c.pick.onset ∧ d.num < c.num) := by
  have apart : (orderCopies cs).Pairwise fun c d => c.pick.station ≠ d.pick.station :=
    ((orderCopies_perm cs).pairwise_iff Ne.symm).2 stations
  refine (apart.and (orderCopies_ordered cs)).imp fun {c d} ⟨differ, ordered⟩ => ⟨differ, ?_⟩
  rw [← PickCopy.before_iff, ordered]
  exact Bool.false_ne_true

/-! ### Events lost before (R94, R95) -/

theorem State.SameTold.loseEvent {s t : State} (h : s.SameTold t) : s.loseEvent.SameTold t.loseEvent :=
  State.SameTold.raise ⟨by simpa using h.1, count_tallies_congr _ h.2⟩ _

theorem State.SameTold.loseEvents {s t : State} (h : s.SameTold t) (n : Nat) : (State.loseEvent^[n] s).SameTold (State.loseEvent^[n] t) := by
  induction n generalizing s t with
  | zero => exact h
  | succ n ih => exact ih h.loseEvent

/-- Events lost touch these areas only. -/
theorem State.loseEvents_frame (n : Nat) (s : State) : Frame [.notices, .writer, .tallies] s (State.loseEvent^[n] s) := by
  induction n generalizing s with
  | zero => exact Frame.refl _ s
  | succ n ih => exact (State.loseEvent_frame (Frame.refl _ s) (by decide)).trans (ih s.loseEvent)

/-- What a pick entered leaves at the Associator (R87). -/
theorem State.enterPick_assoc (p : Pick) (s : State) : (s.enterPick p).assoc = { s.assoc with
    picks := insertBefore (fun e => decide (p.onset < e.copy.pick.onset)) ⟨⟨s.assoc.nextPick, p, none⟩, none⟩ (pickRoom s.assoc.picks)
    nextPick := (s.assoc.nextPick + 1) % 4294967296 } := by
  unfold State.enterPick
  split <;> simp

/-- The message taken, a pick is entered as before. -/
theorem State.enterPick_congr {s t : State} (p : Pick) (assoc : s.assoc = t.assoc) (told : s.SameTold t) :
    (s.enterPick p).assoc = (t.enterPick p).assoc ∧ (s.enterPick p).SameTold (t.enterPick p) := by
  obtain ⟨sPending, sTallies, -⟩ := s.enterPick_enters p
  obtain ⟨tPending, tTallies, -⟩ := t.enterPick_enters p
  refine ⟨by rw [State.enterPick_assoc, State.enterPick_assoc, assoc], by rw [sPending, tPending, assoc, told.1], ?_⟩
  rw [sTallies, tTallies, assoc]
  split
  · exact told.2
  · exact count_tallies_congr _ told.2

/-- A pick arrives in LISTENING (R87). -/
theorem execPickArrival_of {p : Pick} {pre post : List AssocMsg} {s : State} (queue : s.wires.toAssoc = pre ++ .pick p :: post)
    (others : ∀ m ∈ pre, m.station ≠ p.station) : exec (.pickArrival p.station) s =
      done ((s.setWires fun w => { w with toAssoc := pre ++ post }).takePick p) := by
  have first : takeFirst (fun m => m.station == p.station) s.wires.toAssoc = some (.pick p, pre ++ post) := by
    rw [queue]
    exact takeFirst_split (fun m listed => by simpa using others m listed) (by simp [AssocMsg.station])
  show execPickArrival p.station s = _
  unfold execPickArrival
  rw [first]

/-- Settles O48. -/
theorem pickIsAssociated : Obligations.PickIsAssociated := by
  unfold Obligations.PickIsAssociated
  intro p pre post s a u queue others listening setup members aIs
  obtain ⟨aPending, aTallies, entered⟩ := s.enterPick_enters p
  obtain ⟨l, r, whole, before, first, aAssoc⟩ := entered
  refine ⟨by rw [aIs, aPending], by rw [aIs, aTallies], ⟨l, r, whole, before, first, by rw [aIs, aAssoc]⟩, ?_⟩
  have taken := execPickArrival_of queue others
  have act : (s.setWires fun w => { w with toAssoc := pre ++ post }).takePick p =
      ((s.setWires fun w => { w with toAssoc := pre ++ post }).enterPick p).associate ⟨s.assoc.nextPick, p, none⟩ (zonesInUse 0 u.zones) := by
    refine (if_pos listening).trans ?_
    have zones : (s.setWires fun w => { w with toAssoc := pre ++ post }).zones = zonesInUse 0 u.zones := by
      unfold State.zones
      rw [State.setWires_control, setup]
    rw [zones]
    rfl
  rw [act] at taken
  have frame : Frame [.assoc, .notices, .writer, .tallies] (s.setWires fun w => { w with toAssoc := pre ++ post }) _ :=
    State.associate_frame ⟨s.assoc.nextPick, p, none⟩ (zonesInUse 0 u.zones) (State.enterPick_frame p (Frame.refl _ _) (by decide)) (by decide)
  have entry : Frame [.assoc, .notices, .writer, .tallies] (s.setWires fun w => { w with toAssoc := pre ++ post })
      ((s.setWires fun w => { w with toAssoc := pre ++ post }).enterPick p) := State.enterPick_frame p (Frame.refl _ _) (by decide)
  obtain ⟨sameAssoc, sameTold⟩ := State.enterPick_congr (s := s.setWires fun w => { w with toAssoc := pre ++ post }) (t := s)
    p rfl (State.SameTold.refl s)
  rw [← aIs] at sameAssoc sameTold
  have clock : ((s.setWires fun w => { w with toAssoc := pre ++ post }).enterPick p).time = s.time := entry .time (by decide)
  have gen : ((s.setWires fun w => { w with toAssoc := pre ++ post }).enterPick p).gen = s.gen :=
    State.gen_congr (entry .control (by decide))
  generalize (s.setWires fun w => { w with toAssoc := pre ++ post }).enterPick p = w at taken frame sameAssoc sameTold clock gen
  have events : a.assoc.events = s.assoc.events := by rw [aIs, aAssoc]
  have counter : a.assoc.counter = s.assoc.counter := by rw [aIs, aAssoc]
  refine ⟨_, taken, frame .wires (by decide), State.settle_frame ((State.setWires_frame (fun w => { w with toAssoc := pre ++ post })
    (Frame.refl _ s) (by decide)).trans (frame.mono (by decide))) (by decide), fun nowhere => ?nowhere,
    fun b z zone lost full at_ used member fullIs neither nodup lostIs bIs => ?zone⟩
  case nowhere =>
    rw [State.associate_elsewhere (c := ⟨s.assoc.nextPick, p, none⟩) nowhere]
    simp only [State.settle_assoc, State.settle_status, Status.choose_rest, State.settle_tallies]
    exact ⟨sameAssoc, sameTold.1, sameTold.2⟩
  case zone =>
    obtain ⟨inTable, zoneIs⟩ := List.getElem?_eq_some_iff.1 at_
    have zones : u.zones = u.zones.take z ++ zone :: u.zones.drop (z + 1) := by
      rw [← zoneIs, ← List.drop_eq_getElem_cons, List.take_append_drop]
    have isFull : w.assoc.isFull ↔ full := by
      rw [fullIs, sameAssoc]
      unfold Assoc.isFull
      rw [events, counter]
    have earlier : ∀ y ∈ u.zones.take z, y.members.Nodup := fun y listed => members y (List.mem_of_mem_take listed)
    have inUse : ∀ (k : Nat) (y : Zone), (u.zones.take z)[k]? = some y → k < z ∧ u.zones[k]? = some y := fun k y there => by
      rw [List.getElem?_take] at there
      split at there
      next below => exact ⟨below, there⟩
      next => cases there
    have passes := State.associate_passes (c := ⟨s.assoc.nextPick, p, none⟩) (zs₁ := u.zones.take z) (zs₂ := zone :: u.zones.drop (z + 1))
      (i := 0) (s := w) earlier fun k y there used member => by
        obtain ⟨below, inU⟩ := inUse k y there
        rw [isFull, sameAssoc, events, Nat.zero_add]
        exact neither k y below inU used member
    have long : (u.zones.take z).length = z := by
      rw [List.length_take, min_eq_left inTable.le]
    rw [← zones, long, Nat.zero_add, zonesInUse_cons, if_neg used, State.associate_cons, if_pos (by simpa using member)] at passes
    have count : (opened p w.assoc.picks 0 (u.zones.take z)).length = lost.length := by
      refine ((List.perm_ext_iff_of_nodup (opened_nodup _ _ _ _) nodup).2 fun i => ?_).length_eq
      rw [mem_opened earlier, lostIs i, sameAssoc]
      constructor
      · rintro ⟨k, y, rfl, there, holds⟩
        obtain ⟨below, inU⟩ := inUse k y there
        exact ⟨by omega, y, by rwa [Nat.zero_add], holds⟩
      · rintro ⟨below, y, inU, holds⟩
        exact ⟨i, y, (Nat.zero_add i).symm, by rw [List.getElem?_take, if_pos below, inU], holds⟩
    have bIs' : b = State.loseEvent^[lost.length] a := by
      rw [bIs]
      exact List.foldl_const State.loseEvent a lost
    rw [count] at passes
    have told : (State.loseEvent^[lost.length] w).SameTold b := bIs' ▸ sameTold.loseEvents lost.length
    have assoc : (State.loseEvent^[lost.length] w).assoc = a.assoc := (State.loseEvents_assoc _ w).trans sameAssoc
    have lostFrame := State.loseEvents_frame lost.length w
    generalize State.loseEvent^[lost.length] w = v at passes told assoc lostFrame
    simp only [State.settle_assoc, State.settle_status, Status.choose_rest, State.settle_tallies]
    have slot (i : Nat) : v.assoc.events[i]? = s.assoc.events[i]? := by rw [assoc, events]
    have time : v.time = s.time := Eq.trans (lostFrame .time (by decide)) clock
    have genV : v.gen = s.gen := (State.gen_congr (lostFrame .control (by decide))).trans gen
    have elsewhere (last : ∀ (i : Nat) (y : Zone), z < i → u.zones[i]? = some y → y.count = 0 ∨ p.station ∉ y.members) :
        ∀ y ∈ u.zones.drop (z + 1), y.count = 0 ∨ p.station ∉ y.members := fun y listed => by
      obtain ⟨k, there⟩ := List.mem_iff_getElem?.1 listed
      rw [List.getElem?_drop] at there
      exact last (z + 1 + k) y (by omega) there
    have nodupZone : zone.members.Nodup := members zone (List.mem_of_getElem? at_)
    refine ⟨fun i e event joins lowest => ?joins, fun nobody => ⟨fun f i opens least free firstFree numbered => ?declares,
      fun last => ⟨fun opens isFull' => ?loses, fun closed => ?stays⟩⟩⟩
    case joins =>
      have tried := State.tryZone_joins (c := ⟨s.assoc.nextPick, p, none⟩) (State.join_found (s := v) ((slot i).trans event) joins
        fun j e' there => lowest j e' ((slot j).symm.trans there))
      rw [tried] at passes
      rw [passes]
      obtain ⟨l', r', picks, joined, lower, upper, most, one⟩ := e.join_joins ⟨s.assoc.nextPick, p, none⟩
      refine ⟨_, l', r', ?_, picks, joined, lower, upper, most, one, told.1, told.2⟩
      rw [State.joined_assoc ((slot i).trans event), assoc, events]
    case declares =>
      have coincides := State.tryZone_coincides (zone := zone) (z := z) (c := ⟨s.assoc.nextPick, p, none⟩) (s := v) fun j e' there =>
        nobody j e' ((slot j).symm.trans there)
      have found := findWindow_of_opens nodupZone opens least
      rw [← assoc] at found
      rw [coincides, State.coincide_declares found ((slot i).trans free) (fun j below => by rw [slot j]; exact firstFree j below)
        (by rwa [assoc, counter])] at passes
      rw [assoc] at found
      obtain ⟨declared, declaredIs, picks, fields⟩ := newEvent_fields (windowPicks zone (candidates zone p.onset a.assoc.picks) f)
        v.assoc.counter z v.time.state v.now (deadline v.now ((zone.window + v.gen.intakeLatency) * 1000))
      have counted : windowPicks zone (candidates zone p.onset a.assoc.picks) f ≠ [] := by
        obtain ⟨early, ⟨d, candidate, onset⟩, -⟩ := opens
        obtain ⟨c, listed, -⟩ := windowPicks_counts (f := f) ⟨candidate, onset.ge, by omega⟩
        exact List.ne_nil_of_mem listed
      obtain ⟨_, rfl, anchor, last, bounds, peak⟩ := newEvent_bounds counted v.assoc.counter z v.time.state v.now
        (deadline v.now ((zone.window + v.gen.intakeLatency) * 1000))
      have now : v.now = s.time.count := congrArg TimeBase.count time
      rw [← declaredIs] at anchor last bounds peak
      have member (c : PickCopy) : c ∈ declared.picks ↔ c ∈ windowPicks zone (candidates zone p.onset a.assoc.picks) f := by
        rw [picks]
        exact (orderCopies_perm _).mem_iff
      obtain ⟨number, zoneIs, state, timeState, declaredAt, close, closed⟩ := fields
      obtain ⟨pending, tallies⟩ := v.declareIn_tells i z zone.window (windowPicks zone (candidates zone p.onset a.assoc.picks) f)
      rw [passes, assoc]
      refine ⟨declared, ?_, fun c listed => ?_, fun d reached => ?_, ?_, anchor, last, bounds, peak, ?_⟩
      · rw [State.declareIn_assoc, ← picks, ← declaredIs, assoc, events, counter]
      · obtain ⟨reached, first⟩ := mem_windowPicks ((member c).1 listed)
        refine ⟨reached, fun d there same => ?_⟩
        rw [← PickCopy.before_iff, first d there same]
        exact Bool.false_ne_true
      · obtain ⟨c, listed, same⟩ := windowPicks_counts reached
        exact ⟨c, (member c).2 listed, same⟩
      · rw [picks]
        exact orderCopies_stations (windowPicks_stations nodupZone)
      · refine ⟨by rw [number, assoc, counter], zoneIs, state, by rw [timeState, time], by rw [declaredAt, now], closed.1, closed.2.1, closed.2.2.1,
          closed.2.2.2, ?_, ?_, ?_⟩
        · rw [close, now, genV]
          rfl
        · rw [pending, told.1]
        · rw [tallies]
          exact count_tallies_congr _ told.2
    case loses =>
      have coincides := State.tryZone_coincides (zone := zone) (z := z) (c := ⟨s.assoc.nextPick, p, none⟩) (s := v) fun j e' there =>
        nobody j e' ((slot j).symm.trans there)
      obtain ⟨cs, found⟩ := Option.isSome_iff_exists.1 ((findWindow_isSome nodupZone).2 opens)
      rw [← assoc] at found
      rw [coincides, State.coincide_loses found (by rw [assoc, ← sameAssoc]; exact isFull.2 isFull')] at passes
      rw [passes.trans (State.associate_elsewhere (elsewhere last))]
      exact ⟨v.loseEvent_assoc.trans assoc, told.loseEvent.1.trans (by simp [State.loseEvent]), told.loseEvent.2.trans (by simp [State.loseEvent])⟩
    case stays =>
      have coincides := State.tryZone_coincides (zone := zone) (z := z) (c := ⟨s.assoc.nextPick, p, none⟩) (s := v) fun j e' there =>
        nobody j e' ((slot j).symm.trans there)
      have found := findWindow_none nodupZone closed
      rw [← assoc] at found
      rw [coincides, State.coincide_passes found] at passes
      rw [passes.trans (State.associate_elsewhere (elsewhere last))]
      exact ⟨assoc, told.1, told.2⟩

end Sys2Proof.Machine
end

section
/-! SUPPORT. Writes into the sample ring: their grant, and what the Intake Unit takes from a piece (R2, R3, R5 to R9). -/
namespace Sys2Proof.Machine

/-! ### Classes (R3) -/

section
variable {p : Piece}

theorem Piece.class_open (marker : p.byteAt 0 = some 0xA5) : p.class = .openWrite := by
  unfold Piece.class
  rw [marker]
  rfl

theorem Piece.class_badMarker {m : Byte} (marker : p.byteAt 0 = some m) (notOpen : m ≠ 0xA5) (notSeal : ¬ (m = 0x5A ∧ p.writesHeader = true)) :
    p.class = .badMarker := by
  unfold Piece.class
  rw [marker]
  exact (if_neg notOpen).trans (if_neg fun ⟨header, sealed⟩ => notSeal ⟨sealed, header⟩)

theorem Piece.class_unmarked (unmarked : p.byteAt 0 = none) : p.class = if p.reachesBody then .body else .header := by
  unfold Piece.class
  rw [unmarked]

/-- A piece that writes the marker begins at the slot's first byte. -/
theorem Piece.off_of_marker {m : Byte} (marker : p.byteAt 0 = some m) : p.off = 0 := by
  unfold Piece.byteAt at marker
  split at marker
  · cases marker
  · omega

end

/-! ### An open write (R5) -/

theorem Buf.assembles_iff {n : Nat} {b : Buf} : b.assembles n = true ↔ ∃ g k d got, b = .assembling n g k d got := by
  cases b with
  | assembling m g k d got =>
    constructor
    · intro same
      exact ⟨g, k, d, got, by rw [beq_iff_eq.1 same]⟩
    · rintro ⟨_, _, _, _, same⟩
      cases same
      exact beq_self_eq_true n
  | free => simp [Buf.assembles]
  | holding b => simp [Buf.assembles]

/-- The buffers without the one that assembles for a slot (R5, R7, R17). -/
theorem releaseBuf_of {n : Nat} {bs bufs : List Buf} (length : bufs.length = bs.length)
    (each : ∀ (i : Nat) (b : Buf), bs[i]? = some b → ∃ b', bufs[i]? = some b' ∧
      ((∃ g k d got, b = .assembling n g k d got) → b' = .free) ∧ ((∀ g k d got, b ≠ .assembling n g k d got) → b' = b)) :
    bufs = releaseBuf n bs := by
  refine List.ext_getElem? fun i => ?_
  unfold releaseBuf
  rw [List.getElem?_map]
  cases at_ : bs[i]? with
  | none =>
    rw [List.getElem?_eq_none_iff] at at_
    rw [List.getElem?_eq_none_iff.2 (length ▸ at_)]
    rfl
  | some b =>
    obtain ⟨b', there, freed, kept⟩ := each i b at_
    rw [there, Option.map_some]
    by_cases assembles : b.assembles n = true
    · rw [if_pos assembles, freed (Buf.assembles_iff.1 assembles)]
    · rw [if_neg assembles, kept fun g k d got same => assembles (Buf.assembles_iff.2 ⟨g, k, d, got, same⟩)]

theorem placeOf_findIdx? {α : Type} (q : α → Bool) (l : List α) (i : Nat) : placeOf q i l = (l.findIdx? q).map (· + i) := by
  induction l generalizing i with
  | nil => rfl
  | cons x xs ih =>
    unfold placeOf
    rw [List.findIdx?_cons, ih]
    split
    · simp
    · rw [Option.map_map]
      congr 1
      funext k
      simp only [Function.comp_apply]
      omega

/-- A changed directory entry, as the state. -/
theorem State.setSlot_eq {s : State} {n : Nat} {e : Slot} (at_ : s.intake.dir[n]? = some e) (f : Slot → Slot) :
    s.setSlot n f = { s with intake := { s.intake with dir := s.intake.dir.set n (f e) } } := by
  show ({ s with intake := { s.intake with dir := s.intake.dir.modify n f } } : State) = _
  rw [modify_eq_set at_]

/-- An open write takes the slot anew, with the lowest FREE buffer or none (R5). -/
theorem State.openWrite_opens {n : Nat} {e : Slot} {s : State} (at_ : s.intake.dir[n]? = some e) : s.openWrite n = { s with
    intake := { s.intake with
      dir := s.intake.dir.set n { e with
        state := .opened, gen := (e.gen + 1) % 256
        refetchNeeded := !(releaseBuf n s.intake.bufs).any (fun b => b == .free), cutMark := false }
      bufs := match (releaseBuf n s.intake.bufs).findIdx? (fun b => b == .free) with
        | some i => (releaseBuf n s.intake.bufs).set i
          (.assembling n ((e.gen + 1) % 256) 32 (min (s.time.count + 250000) (2 ^ 48 - 1)) [])
        | none => releaseBuf n s.intake.bufs } } := by
  have slot : s.slot n = some e := at_
  have place : placeOf (· == Buf.free) 0 (releaseBuf n s.intake.bufs) = (releaseBuf n s.intake.bufs).findIdx? (fun b => b == .free) := by
    rw [placeOf_findIdx?]
    simp
  have needed : ((releaseBuf n s.intake.bufs).findIdx? (fun b => b == .free)).isNone =
      !(releaseBuf n s.intake.bufs).any (fun b => b == .free) := by
    rw [← List.findIdx?_isSome]
    cases (releaseBuf n s.intake.bufs).findIdx? (fun b => b == .free) <;> rfl
  unfold State.openWrite
  simp only [slot, place, needed, State.setSlot_eq at_]
  cases (releaseBuf n s.intake.bufs).findIdx? (fun b => b == .free) <;> rfl

/-! ### A body write (R6) -/

/-- A rejection NO_OPEN (R6, R8). -/
theorem State.rejectNoOpen_rejects {n : Nat} {e : Slot} {s : State} (at_ : s.intake.dir[n]? = some e) :
    (s.rejectNoOpen n).intake = { s.intake with dir := s.intake.dir.set n { e with state := .rejected } } ∧
      (s.rejectNoOpen n).status.pending = s.status.pending ||| Notice.blockRejected.bit ∧
      (s.rejectNoOpen n).tallies = (s.count .rejectedNoOpen).tallies ∧
      Frame [.intake, .notices, .writer, .tallies] s (s.rejectNoOpen n) := by
  refine ⟨?_, ?_, ?_, State.rejectNoOpen_frame n (Frame.refl _ s) (by decide)⟩
  · simp [State.rejectNoOpen, State.setSlot_eq at_]
  · simp [State.rejectNoOpen, State.setSlot_eq at_]
  · simp only [State.rejectNoOpen, State.raise_tallies]
    exact count_tallies_congr _ rfl

section
variable {p : Piece} {e : Slot} {s : State} (at_ : s.intake.dir[p.slot]? = some e)
include at_

theorem State.bodyWrite_opened (state : e.state = .opened) : s.bodyWrite p = s.captureBody p := by
  have slot : s.slot p.slot = some e := at_
  unfold State.bodyWrite
  simp only [slot, state]

theorem State.bodyWrite_noOpen (state : e.state = .empty ∨ e.state = .sealed) : s.bodyWrite p = s.rejectNoOpen p.slot := by
  have slot : s.slot p.slot = some e := at_
  unfold State.bodyWrite
  rcases state with state | state <;> simp only [slot, state]

theorem State.bodyWrite_rejected (state : e.state = .rejected) : s.bodyWrite p = s := by
  have slot : s.slot p.slot = some e := at_
  unfold State.bodyWrite
  simp only [slot, state]

/-- What is written in the expected place, whole, is captured; else the buffer is released and the block will be read back (R6). -/
theorem State.captureBody_of {i g n d : Nat} {got : List Byte} (buf : s.intake.bufs[i]? = some (.assembling p.slot g n d got))
    (first : ∀ (j : Nat) (b : Buf), j < i → s.intake.bufs[j]? = some b → b.assembles p.slot = false) :
    (∀ bs : List Byte, p.off = n → p.bytes = bs.map some → s.captureBody p = { s with intake := { s.intake with
      bufs := s.intake.bufs.set i (.assembling p.slot g (n + bs.length) d (got ++ bs)) } }) ∧
    (p.off ≠ n ∨ none ∈ p.bytes → s.captureBody p = { s with intake := { s.intake with
      bufs := s.intake.bufs.set i .free, dir := s.intake.dir.set p.slot { e with refetchNeeded := true } } }) := by
  have place : placeOf (Buf.assembles p.slot) 0 s.intake.bufs = some i := by
    rw [placeOf_first (k := 0) buf (beq_self_eq_true p.slot) first, Nat.zero_add]
  unfold State.captureBody
  rw [place]
  simp only [buf]
  refine ⟨fun bs expected whole => ?_, fun broken => ?_⟩
  · have captured : p.captured n = some bs := by
      unfold Piece.captured
      rw [if_pos expected, whole]
      exact fullWord_strobed bs
    rw [captured]
    rfl
  · have lost : p.captured n = none := by
      unfold Piece.captured
      split
      next expected => exact fullWord_of_clear (broken.resolve_left fun h => h expected)
      next => rfl
    rw [lost]
    show State.setSlot p.slot _ (s.setBufs (s.intake.bufs.set i .free)) = _
    rw [State.setSlot_eq (s := s.setBufs (s.intake.bufs.set i .free)) at_]
    rfl

omit at_ in
/-- Without a buffer a body write to an OPEN slot changes nothing (R6). -/
theorem State.captureBody_none (nobody : ∀ b ∈ s.intake.bufs, b.assembles p.slot = false) : s.captureBody p = s := by
  have place : placeOf (Buf.assembles p.slot) 0 s.intake.bufs = none := by
    rw [placeOf_findIdx?, List.findIdx?_eq_none_iff.2 nobody]
    rfl
  unfold State.captureBody
  rw [place]

/-! ### A bad marker (R7) -/

theorem State.badMarkerWrite_rejects :
    (s.badMarkerWrite p.slot).intake.dir = s.intake.dir.set p.slot { e with state := .rejected, refetchNeeded := false } ∧
      (s.badMarkerWrite p.slot).intake.bufs = releaseBuf p.slot s.intake.bufs ∧
      (s.badMarkerWrite p.slot).status.pending = s.status.pending ||| Notice.blockRejected.bit ∧
      (s.badMarkerWrite p.slot).tallies = (s.count .rejectedBadMarker).tallies ∧
      Frame [.intake, .notices, .writer, .tallies] s (s.badMarkerWrite p.slot) := by
  refine ⟨?_, ?_, ?_, ?_, State.badMarkerWrite_frame _ (Frame.refl _ s) (by decide)⟩
  · simp [State.badMarkerWrite, State.setSlot_eq at_, State.setBufs]
  · simp [State.badMarkerWrite, State.setSlot_eq at_, State.setBufs]
  · simp [State.badMarkerWrite, State.setSlot_eq at_, State.setBufs]
  · simp only [State.badMarkerWrite, State.raise_tallies]
    exact count_tallies_congr _ rfl

end

/-! ### A piece, by its class (R3, R9) -/

section
variable {p : Piece} {s : State}

theorem State.takePiece_open (kind : p.class = .openWrite) (short : p.reachesBody = false) : s.takePiece p = s.openWrite p.slot := by
  unfold State.takePiece Piece.bodyPart
  simp [kind, short]

theorem State.takePiece_openBody (kind : p.class = .openWrite) (long : p.reachesBody = true) :
    s.takePiece p = (s.openWrite p.slot).bodyWrite ⟨p.slot, 32, p.bytes.drop (32 - p.off)⟩ := by
  unfold State.takePiece Piece.bodyPart
  simp [kind, long]

theorem State.takePiece_body (kind : p.class = .body) : s.takePiece p = s.bodyWrite p := by
  unfold State.takePiece
  rw [kind]

theorem State.takePiece_badMarker (kind : p.class = .badMarker) : s.takePiece p = s.badMarkerWrite p.slot := by
  unfold State.takePiece
  rw [kind]

theorem State.takePiece_header (kind : p.class = .header) : s.takePiece p = s := by
  unfold State.takePiece
  rw [kind]

end

/-- An open write with written bytes behind the header is an open write and a body write (R3). -/
theorem State.takePiece_split {p : Piece} (s : State) (marker : p.byteAt 0 = some 0xA5) (long : p.reachesBody = true) :
    s.takePiece p = (s.takePiece { p with bytes := p.bytes.take 32 }).takePiece ⟨p.slot, 32, p.bytes.drop 32⟩ := by
  have front := Piece.off_of_marker marker
  have head : ({ p with bytes := p.bytes.take 32 } : Piece).class = .openWrite := by
    refine Piece.class_open ?_
    rw [← marker]
    simp [Piece.byteAt, front]
  have short : ({ p with bytes := p.bytes.take 32 } : Piece).reachesBody = false := by
    unfold Piece.reachesBody
    rw [front, List.drop_eq_nil_of_le (by simp)]
    rfl
  have body : (⟨p.slot, 32, p.bytes.drop 32⟩ : Piece).class = .body := by
    rw [Piece.class_unmarked rfl, if_pos]
    unfold Piece.reachesBody at long ⊢
    rw [front] at long
    exact long
  rw [State.takePiece_openBody (Piece.class_open marker) long, State.takePiece_open head short, State.takePiece_body body, front]

/-- In DRAINING an open write takes the slot anew without a buffer, another marked write leaves it EMPTY, and the rest changes nothing
(R9). -/
theorem State.takePieceDraining_eq {p : Piece} {e : Slot} {s : State} (at_ : s.intake.dir[p.slot]? = some e) : s.takePieceDraining p =
    match p.class with
    | .openWrite => { s with intake := { s.intake with dir := s.intake.dir.set p.slot { e with
        state := .opened, gen := (e.gen + 1) % 256, refetchNeeded := false, cutMark := false } } }
    | .sealWrite | .badMarker => { s with intake := { s.intake with dir := s.intake.dir.set p.slot { e with state := .empty } } }
    | .body | .header => s := by
  unfold State.takePieceDraining
  cases p.class with
  | openWrite => exact State.setSlot_eq at_ _
  | sealWrite => exact State.setSlot_eq at_ _
  | badMarker => exact State.setSlot_eq at_ _
  | body => rfl
  | header => rfl

/-! ### The grant of a ring write (R125, R128) -/

/-- The oldest request of the tag that waits is decided (R122). -/
theorem decideOldest_of {tag : Nat} {prog : Progress} {pre post : List Unanswered} {u : Unanswered} (own : u.tag = tag)
    (waits : u.prog = .waiting) (before : ∀ x ∈ pre, x.tag = tag → x.prog ≠ .waiting) :
    decideOldest tag prog (pre ++ u :: post) = pre ++ { u with prog := prog } :: post := by
  induction pre with
  | nil => exact if_pos ⟨own, waits⟩
  | cons y ys ih =>
    show decideOldest tag prog (y :: (ys ++ u :: post)) = _
    unfold decideOldest
    rw [if_neg fun ⟨same, waiting⟩ => before y List.mem_cons_self same waiting, ih fun x listed => before x (List.mem_cons_of_mem _ listed)]
    rfl

/-- A write of a writer tag into the ring, with no open write to a pinned slot, is granted without a cut (R125, R130). -/
theorem State.classify_ringWrite {s : State} {r : Request} (mark : Bool) (loaded : s.loaded = true) (kind : r.kind = .write)
    (inRing : Request.within r s.gen.ringBase (512 * s.gen.ringSlots)) (writer : s.gen.writerTags.getLsbD r.tag = true)
    (unpinned : s.pinnedOpens r = []) : s.place r = .ring ∧ s.classify mark r = .grant [] := by
  have place : s.place r = .ring := by
    unfold State.place
    obtain ⟨low, high⟩ := inRing
    exact if_pos (by simp [liesIn, reqBytes, low, high])
  refine ⟨place, ?_⟩
  unfold State.classify State.classifyRingWrite
  simp [loaded, place, kind, writer, unpinned]

/-- The Intake Unit takes its meaning from a granted ring write outside the control page (R2). -/
theorem State.takeMeaning_ring {s : State} {r : Request} {base : Nat} (page : s.control.pageBase = some base) (loaded : s.loaded = true)
    (kind : r.kind = .write) (beats : 1 ≤ r.beats) (apart : Request.apart r base 8192) (place : s.place r = .ring) :
    s.takeMeaning r = s.takeRingWrite r := by
  have outside : liesIn base 8192 r = false := by
    unfold liesIn reqBytes
    unfold Request.apart at apart
    rw [← Bool.not_eq_true]
    simp only [Bool.and_eq_true, decide_eq_true_iff]
    omega
  unfold State.takeMeaning
  simp [page, outside, kind, loaded, place]

/-- The grant to PASS, with no claimant waiting, of a request that classification grants without a cut (R128, R134). -/
theorem exec_downstreamGrant_pass {s : State} {c : Candidate} {r : Request} {mark : Bool} (candidate : s.guard.candidate = some c)
    (request : s.guard.request c = some (r, mark)) (alone : s.guard.lastServed.after.find? s.waits = none)
    (granted : s.classify mark r = .grant []) : exec .downstreamGrant s = done (s.grantPass c r []) := by
  have nobody : s.nextClaimant = none := alone
  show execDownstreamGrant s = _
  unfold execDownstreamGrant
  rw [if_neg (by simp [candidate])]
  show done (s.arbitrate (511 + 1)) = _
  unfold State.arbitrate
  simp only [candidate, nobody]
  unfold State.tryPass
  simp only [request, granted]

theorem PathGuard.remove_keeps (g : PathGuard) (c : Candidate) : (g.remove c).unanswered = g.unanswered ∧
    (g.remove c).downstream = g.downstream := by
  cases c <;> exact ⟨rfl, rfl⟩

/-- The counting of a grant leaves the queues (R134). -/
theorem State.countGrant_keeps_queues (s : State) : s.countGrant.guard.queue = s.guard.queue ∧ s.countGrant.guard.held = s.guard.held ∧
    s.countGrant.guard.downstream = s.guard.downstream ∧ s.countGrant.guard.unanswered = s.guard.unanswered := by
  unfold State.countGrant
  split <;> exact ⟨rfl, rfl, rfl, rfl⟩

/-- What the Intake Unit takes leaves the Path Guard (R2). -/
theorem State.takeRingWrite_guard (r : Request) (s : State) : (s.takeRingWrite r).guard = s.guard :=
  State.takeRingWrite_frame r (Frame.refl [.intake, .engine, .notices, .writer, .tallies, .wires] s) (by decide) .guard (by decide)

/-- Settles O59. -/
theorem ringWritesAreTaken : Obligations.RingWritesAreTaken := by
  unfold Obligations.RingWritesAreTaken
  refine ⟨fun s a c r mark pre post u base loaded page ok kind candidate request alone queue own waits before inRing apart writer unpinned
    aIs => ?grant, fun p e s at_ => ⟨fun bufs opened marker each length openedIs => ?opens, fun m marker notOpen notSeal => ?bad,
    fun unmarked => ?unmarked⟩⟩
  case grant =>
    obtain ⟨place, granted⟩ := State.classify_ringWrite mark loaded kind inRing writer unpinned
    have taken := exec_downstreamGrant_pass candidate request alone granted
    obtain ⟨unanswered, downstream⟩ := s.guard.remove_keeps c
    have sent : ((s.setGuard fun g => g.remove c).decided r.tag .granted).sendPass r = a := by
      rw [aIs]
      show ({ s with guard := { s.guard.remove c with
        unanswered := decideOldest r.tag .granted (s.guard.remove c).unanswered
        downstream := (s.guard.remove c).downstream ++ [⟨.pass r.tag, r.kind, r.addr, r.beats, r.bytes, false⟩] } } : State) = _
      rw [unanswered, queue, decideOldest_of own waits before, downstream]
    have control : a.control = s.control := by rw [aIs]
    have gen : a.gen = s.gen := State.gen_congr control
    have beats : 1 ≤ r.beats := by
      unfold Request.ok at ok
      simp only [Bool.and_eq_true, decide_eq_true_iff] at ok
      omega
    have placeA : a.place r = .ring := by
      rw [← place, aIs]
      rfl
    have loadedA : a.loaded = true := by rw [← loaded, aIs]; rfl
    have meaning : a.takeMeaning r = a.takeRingWrite r := State.takeMeaning_ring (by rw [control, page]) loadedA kind beats apart placeA
    have act : s.grantPass c r [] = (a.takeRingWrite r).countGrant := by
      rw [← meaning, ← sent]
      rfl
    rw [act] at taken
    obtain ⟨queue', held', downstream', unanswered'⟩ := (a.takeRingWrite r).countGrant_keeps_queues
    rw [State.takeRingWrite_guard] at queue' held' downstream' unanswered'
    have left : Frame [.guard, .writer] (a.takeRingWrite r) (a.takeRingWrite r).countGrant.settle :=
      State.settle_frame (State.countGrant_frame (Frame.refl _ _) (by decide)) (by decide)
    refine ⟨_, taken, queue', held', downstream', unanswered', ?_⟩
    generalize (a.takeRingWrite r).countGrant.settle = t at left
    unfold State.takeRingWrite at left
    rw [control, gen] at left
    cases part : s.control.part <;> rw [part] at left <;> exact left
  case opens =>
    have released := releaseBuf_of length each
    have kind := Piece.class_open marker
    subst released
    subst openedIs
    refine ⟨fun short => ?_, fun long => State.takePiece_split s marker long, ?_⟩
    · exact (State.takePiece_open kind short).trans (State.openWrite_opens at_)
    · rw [State.takePieceDraining_eq at_, kind]
  case bad =>
    have kind := Piece.class_badMarker marker notOpen notSeal
    refine ⟨?_, ?_⟩
    · rw [State.takePieceDraining_eq at_, kind]
    · rw [State.takePiece_badMarker kind]
      exact State.badMarkerWrite_rejects at_
  case unmarked =>
    have kind := Piece.class_unmarked unmarked
    refine ⟨?_, fun short => ?_, fun long => ?_⟩
    · rw [State.takePieceDraining_eq at_, kind]
      cases p.reachesBody <;> rfl
    · exact State.takePiece_header (by rw [kind, short]; rfl)
    · rw [State.takePiece_body (by rw [kind, long]; rfl)]
      refine ⟨fun nothing => ?_, fun closed => ?_, fun i g n d got state buf first => ?_⟩
      · rcases nothing with rejected | ⟨state, nobody⟩
        · exact State.bodyWrite_rejected at_ rejected
        · rw [State.bodyWrite_opened at_ state, State.captureBody_none nobody]
      · obtain ⟨intake, pending, tallies, frame⟩ := State.rejectNoOpen_rejects at_
        rw [State.bodyWrite_noOpen at_ closed, intake]
        exact ⟨rfl, rfl, pending, tallies, frame⟩
      · rw [State.bodyWrite_opened at_ state]
        exact State.captureBody_of at_ buf first

end Sys2Proof.Machine
end

section
/-! SUPPORT. A seal write: the checks of a block, its acceptance and its way toward the Station Engine (R8, R15 to R21, R24). -/
namespace Sys2Proof.Machine

/-! ### A seal write (R3, R8) -/

section
variable {n : Nat} {bs : List Byte} {more : List (Option Byte)} {p : Piece}

theorem Piece.class_seal (pIs : p = ⟨n, 0, bs.map some ++ more⟩) (length : bs.length = 32) (blank : ∀ b ∈ more, b = none)
    (marker : bs[0]? = some 0x5A) : p.class = .sealWrite := by
  have first : p.byteAt 0 = some 0x5A := by
    rw [pIs]
    unfold Piece.byteAt
    obtain ⟨small, value⟩ := List.getElem?_eq_some_iff.1 marker
    simp [small, value]
  have header : p.writesHeader = true := by
    rw [pIs]
    unfold Piece.writesHeader
    have whole : (bs.map some).length = 32 := by rw [List.length_map, length]
    simp only [List.take_left' whole, List.drop_left' whole]
    simp [length]
    exact blank
  unfold Piece.class
  rw [first]
  exact (if_neg (by decide)).trans (if_pos ⟨header, rfl⟩)

/-- The bytes that carry the header (R8). -/
theorem Piece.headerBytes (pIs : p = ⟨n, 0, bs.map some ++ more⟩) (length : bs.length = 32) : (p.bytes.take 32).filterMap id = bs := by
  rw [pIs]
  simp [length]

end

/-! ### The verdict (R15) -/

/-- What validation decides, with the reason of a rejection, and whether an accepted block is a GAP and follows a break. -/
def Verdict.says (v : Verdict) (why : Option Tally) (gap brk : Bool) : Prop :=
  (∃ r, v = .reject r ∧ why = some r.tally) ∨
    why = none ∧ (v = .continuous ∧ gap = false ∧ brk = false ∨ v = .gap ∧ gap = true ∧ brk = true ∨ v = .afresh ∧ gap = false ∧ brk = true)

/-- Checks 5 and 6 (R15). -/
theorem sequenceVerdict_says {half : Nat} {h : Header} {expected : Option (Nat × Nat)} (small : h.seq < 65536) :
    (∀ q x, expected = some (q, x) → q < 65536) → (sequenceVerdict half h expected).says
      (match expected with
        | none => none
        | some (q, x) => if h.seq = q then (if h.first + half < x then some .rejectedOverlap else none)
          else if (h.seq + 65536 - q) % 65536 ≤ 32767 then none else some .rejectedStale)
      (match expected with
        | none => false
        | some (q, x) => if h.seq = q then decide (x + half < h.first) else true)
      ((match expected with
        | none => false
        | some (q, x) => if h.seq = q then decide (x + half < h.first) else true) || expected == none) := by
  intro valid
  cases expected with
  | none => exact .inr ⟨rfl, .inr (.inr ⟨rfl, rfl, rfl⟩)⟩
  | some e =>
    obtain ⟨q, x⟩ := e
    have := valid q x rfl
    have known : ((some (q, x) : Option (Nat × Nat)) == none) = false := rfl
    simp only [known, Bool.or_false]
    unfold sequenceVerdict
    by_cases same : h.seq = q
    · have ahead : (h.seq + 65536 - q) % 65536 = 0 := by omega
      simp only [if_pos same, ahead]
      by_cases late : x + half < h.first
      · simp only [if_pos trivial, if_pos late, decide_eq_true late, if_neg (show ¬ h.first + half < x by omega)]
        exact .inr ⟨rfl, .inr (.inl ⟨rfl, rfl, rfl⟩)⟩
      · by_cases early : h.first + half < x
        · simp only [if_pos trivial, if_neg late, if_pos early]
          exact .inl ⟨.overlap, rfl, rfl⟩
        · simp only [if_pos trivial, if_neg late, if_neg early, decide_eq_false late]
          exact .inr ⟨rfl, .inl ⟨rfl, rfl, rfl⟩⟩
    · have ahead : (h.seq + 65536 - q) % 65536 ≠ 0 := by omega
      simp only [if_neg same, if_neg ahead]
      by_cases near : (h.seq + 65536 - q) % 65536 ≤ 32767
      · simp only [if_pos near]
        exact .inr ⟨rfl, .inr (.inl ⟨rfl, rfl, rfl⟩)⟩
      · simp only [if_neg near]
        exact .inl ⟨.stale, rfl, rfl⟩

/-- The checks of R15, in order, with the reason of a rejection. -/
theorem State.validate_says {s : State} {h : Header} {y : StationEntry} {si : StationIntake} (small : h.seq < 65536)
    (known : h.station < 96 → s.station h.station = some y ∧ s.intake.stations[h.station]? = some si)
    (valid : ∀ q x, si.expected = some (q, x) → q < 65536) {why : Option Tally} {gap brk : Bool}
    (whyIs : why = (if 96 ≤ h.station then some .rejectedHeader else if y.enabled = false then some .rejectedStationOff
      else if ¬ ((h.components = 1 ∨ h.components = 3) ∧ h.components = y.components) then some .rejectedHeader
      else if h.count < 1 ∨ (if y.components = 1 then 120 else 40) < h.count then some .rejectedHeader
      else match si.expected with
        | none => none
        | some (q, x) => if h.seq = q then (if h.first + 1000000 / y.sampleRate / 2 < x then some .rejectedOverlap else none)
          else if (h.seq + 65536 - q) % 65536 ≤ 32767 then none else some .rejectedStale))
    (gapIs : gap = (match si.expected with
      | none => false
      | some (q, x) => if h.seq = q then decide (x + 1000000 / y.sampleRate / 2 < h.first) else true))
    (brkIs : brk = (gap || si.expected == none)) : (s.validate h).says why gap brk ∧ (why = none → h.station < 96) := by
  have sequence := sequenceVerdict_says (half := 1000000 / y.sampleRate / 2) (h := h) (expected := si.expected) small valid
  by_cases outside : 96 ≤ h.station
  · rw [if_pos outside] at whyIs
    refine ⟨.inl ⟨.header, ?_, whyIs⟩, fun none_ => by rw [none_] at whyIs; cases whyIs⟩
    unfold State.validate
    split
    · exact if_pos (Nat.not_lt.2 outside)
    · rfl
  · obtain ⟨station, intake⟩ := known (Nat.lt_of_not_le outside)
    refine ⟨?_, fun _ => Nat.lt_of_not_le outside⟩
    have inTable : ¬ ¬ h.station < Config.nStations := not_not.2 (Nat.lt_of_not_le outside)
    rw [if_neg outside] at whyIs
    unfold State.validate
    simp only [station, intake, if_neg inTable]
    by_cases off : y.enabled = false
    · rw [if_pos off] at whyIs ⊢
      exact .inl ⟨.stationOff, rfl, whyIs⟩
    · rw [if_neg off] at whyIs ⊢
      by_cases comps : (h.components = 1 ∨ h.components = 3) ∧ h.components = y.components
      · rw [if_neg (not_not.2 comps)] at whyIs ⊢
        by_cases count : h.count < 1 ∨ (if y.components = 1 then 120 else 40) < h.count
        · rw [if_pos count] at whyIs
          rw [if_pos (show ¬ (1 ≤ h.count ∧ h.count ≤ maxSamples y.components) by unfold maxSamples; omega)]
          exact .inl ⟨.header, rfl, whyIs⟩
        · rw [if_neg count] at whyIs
          rw [if_neg (show ¬ ¬ (1 ≤ h.count ∧ h.count ≤ maxSamples y.components) by unfold maxSamples; omega)]
          rw [whyIs, brkIs, gapIs]
          exact sequence
      · rw [if_pos comps] at whyIs ⊢
        exact .inl ⟨.header, rfl, whyIs⟩

/-! ### Rejection (R17) -/

theorem State.rejectBlock_rejects {n : Nat} {e : Slot} {s : State} (at_ : s.intake.dir[n]? = some e) (r : RejectReason) :
    (s.rejectBlock n r).intake = { s.intake with
      dir := s.intake.dir.set n { e with state := .rejected, refetchNeeded := false }, bufs := releaseBuf n s.intake.bufs } ∧
    (s.rejectBlock n r).tallies = (s.count r.tally).tallies ∧
    (s.rejectBlock n r).status.pending =
      (if r.tally = .rejectedStationOff then s.status.pending else s.status.pending ||| Notice.blockRejected.bit) ∧
    Frame [.intake, .notices, .writer, .tallies] s (s.rejectBlock n r) := by
  refine ⟨?_, ?_, ?_, State.rejectBlock_frame n r (Frame.refl _ s) (by decide)⟩
  · unfold State.rejectBlock
    rw [State.setSlot_eq at_]
    split <;> simp [State.setBufs]
  · unfold State.rejectBlock
    split
    · exact count_tallies_congr _ rfl
    · rw [State.raise_tallies]
      exact count_tallies_congr _ rfl
  · unfold State.rejectBlock
    cases r <;> simp [RejectReason.tally, State.setBufs, State.setSlot]

/-! ### Acceptance (R16, R18 to R20) -/

/-- What the advance of the sample horizon leaves (R20). -/
theorem State.advanceHorizon_advances (first : Nat) (s : State) :
    (s.advanceHorizon first).intake = { s.intake with horizon := max s.intake.horizon first } ∧
    (s.advanceHorizon first).wires = { s.wires with
      horizonSched := if s.intake.horizon < first then s.wires.horizonSched ++ [first] else s.wires.horizonSched
      horizonAssoc := if s.intake.horizon < first then s.wires.horizonAssoc ++ [first] else s.wires.horizonAssoc } ∧
    Frame [.intake, .wires] s (s.advanceHorizon first) := by
  refine ⟨?_, ?_, State.advanceHorizon_frame first (Frame.refl _ s) (by decide)⟩
  · unfold State.advanceHorizon
    split
    next later =>
      rw [max_eq_right later.le]
      rfl
    next sooner => rw [max_eq_left (Nat.le_of_not_lt sooner)]
  · unfold State.advanceHorizon
    split
    · simp
    · simp

/-- The tallies of an accepted block (R18). -/
def State.countAccepted (st : Nat) (gap : Bool) (s : State) : State :=
  let s1 := (s.count .blocksAccepted).countStation st fun t => { t with accepted := saturate 1 t.accepted }
  if gap then (s1.count .gaps).countStation st fun t => { t with gaps := saturate 1 t.gaps } else s1

/-- An accepted block before it is routed (R16, R18 to R20). -/
def State.accepted (n gen : Nat) (h : Header) (gap brk : Bool) (s : State) : State :=
  let entry : TrailEntry := ⟨n, gen, h.first, h.count, h.timeUnsure, h.clipped, brk⟩
  let s1 := s.setSlot n fun x => { x with state := .sealed }
  let s2 := s1.setStationIntake h.station fun si =>
    { si with
      expected := some ((h.seq + 1) % 65536, sampleTime (h.first + h.count * s.periodOf h.station))
      trail := appendTrail si.trail entry }
  let s3 := (s2.advanceHorizon h.first).restartSilence h.station
  (s3.setWires fun w => { w with trailNotes := w.trailNotes ++ [(h.station, entry)] }).countAccepted h.station gap

theorem State.acceptBlock_eq (n gen : Nat) (h : Header) (gap brk : Bool) (s : State) : s.acceptBlock n gen h gap brk =
    (s.accepted n gen h gap brk).routeBlock n gen (neededBytes h.count h.components)
      ⟨h.station, h.seq, h.first, h.count, h.timeUnsure, h.clipped, []⟩ brk := rfl

/-- A block accepted is counted, in total and for its station, and so is a GAP (R18). -/
theorem State.countAccepted_counts (st : Nat) (gap : Bool) {s m : State} (same : s.tallies = m.tallies) : s.countAccepted st gap = { s with
    tallies := (State.countStation st (fun k => { k with
        accepted := min (k.accepted + 1) (2 ^ 32 - 1), gaps := if gap then min (k.gaps + 1) (2 ^ 32 - 1) else k.gaps })
      (if gap then (m.count .blocksAccepted).count .gaps else m.count .blocksAccepted)).tallies } := by
  unfold State.countAccepted State.countStation State.count State.countBy
  rw [same]
  cases gap with
  | false => rfl
  | true =>
    simp only [if_true, List.modify_modify_eq]
    rfl

/-- A changed record of a station, as the state. -/
theorem State.setStationIntake_eq {s : State} {st : Nat} {si : StationIntake} (at_ : s.intake.stations[st]? = some si)
    (f : StationIntake → StationIntake) :
    s.setStationIntake st f = { s with intake := { s.intake with stations := s.intake.stations.set st (f si) } } := by
  show ({ s with intake := { s.intake with stations := s.intake.stations.modify st f } } : State) = _
  rw [modify_eq_set at_]

/-- What an accepted block leaves before it is routed (R16, R18 to R20). -/
theorem State.accepted_leaves {n gen : Nat} {h : Header} {gap brk : Bool} {s : State} {e : Slot} {y : StationEntry} {si : StationIntake}
    (slot : s.intake.dir[n]? = some e) (station : s.station h.station = some y) (intake : s.intake.stations[h.station]? = some si)
    {z : TrailEntry} (zIs : z = ⟨n, gen, h.first, h.count, h.timeUnsure, h.clipped, brk⟩) :
    (s.accepted n gen h gap brk).intake = { s.intake with
      dir := s.intake.dir.set n { e with state := .sealed }
      stations := s.intake.stations.set h.station { si with
        expected := some ((h.seq + 1) % 65536, sampleTime (h.first + h.count * (1000000 / y.sampleRate)))
        trail := (if si.trail.length < 512 then si.trail else si.trail.drop 1) ++ [z] }
      horizon := max s.intake.horizon h.first } ∧
    (s.accepted n gen h gap brk).wires = { s.wires with
      trailNotes := s.wires.trailNotes ++ [(h.station, z)]
      horizonSched := if s.intake.horizon < h.first then s.wires.horizonSched ++ [h.first] else s.wires.horizonSched
      horizonAssoc := if s.intake.horizon < h.first then s.wires.horizonAssoc ++ [h.first] else s.wires.horizonAssoc } ∧
    (s.accepted n gen h gap brk).engine = s.engine.modify h.station (fun d => { d with
      silence := some (min (s.time.count + s.gen.silenceLimit * 1000000) (2 ^ 48 - 1)), silent := false }) ∧
    (s.accepted n gen h gap brk).tallies = (State.countStation h.station (fun k => { k with
        accepted := min (k.accepted + 1) (2 ^ 32 - 1), gaps := if gap then min (k.gaps + 1) (2 ^ 32 - 1) else k.gaps })
      (if gap then (s.count .blocksAccepted).count .gaps else s.count .blocksAccepted)).tallies ∧
    (s.accepted n gen h gap brk).status = s.status := by
  subst zIs
  have period : s.periodOf h.station = 1000000 / y.sampleRate := by
    unfold State.periodOf
    rw [station]
    rfl
  generalize v1Is : (s.setSlot n fun x => { x with state := .sealed }).setStationIntake h.station (fun si => { si with
    expected := some ((h.seq + 1) % 65536, sampleTime (h.first + h.count * s.periodOf h.station))
    trail := appendTrail si.trail ⟨n, gen, h.first, h.count, h.timeUnsure, h.clipped, brk⟩ }) = v1
  have v1Eq : v1 = { s with intake := { s.intake with
      dir := s.intake.dir.set n { e with state := .sealed }
      stations := s.intake.stations.set h.station { si with
        expected := some ((h.seq + 1) % 65536, sampleTime (h.first + h.count * (1000000 / y.sampleRate)))
        trail := (if si.trail.length < 512 then si.trail else si.trail.drop 1) ++
          [⟨n, gen, h.first, h.count, h.timeUnsure, h.clipped, brk⟩] } } } := by
    rw [← v1Is, period, State.setStationIntake_eq (s := s.setSlot n fun x => { x with state := .sealed }) intake, State.setSlot_eq slot]
    rfl
  obtain ⟨advanced, told, frame⟩ := v1.advanceHorizon_advances h.first
  have status : (v1.advanceHorizon h.first).status = v1.status := by
    unfold State.advanceHorizon
    split <;> rfl
  have whole : s.accepted n gen h gap brk = (((v1.advanceHorizon h.first).restartSilence h.station).setWires fun w =>
      { w with trailNotes := w.trailNotes ++ [(h.station, ⟨n, gen, h.first, h.count, h.timeUnsure, h.clipped, brk⟩)] }).countAccepted
        h.station gap := by
    rw [← v1Is]
    rfl
  generalize v1.advanceHorizon h.first = v at advanced told frame status whole
  have fr : Frame [.intake, .wires] s v := by
    refine Frame.trans (t := v1) ?_ frame
    rw [← v1Is]
    exact State.setStationIntake_frame _ _ (State.setSlot_frame _ _ (Frame.refl _ s) (by decide)) (by decide)
  have gen' : v.gen = s.gen := State.gen_congr (fr .control (by decide))
  have time : v.time = s.time := fr .time (by decide)
  have engine : v.engine = s.engine := fr .engine (by decide)
  rw [whole, State.countAccepted_counts (m := s) h.station gap
    (s := (v.restartSilence h.station).setWires _) (fr .tallies (by decide))]
  refine ⟨?intake, ?wires, ?engine, rfl, ?status⟩
  case intake =>
    refine advanced.trans ?_
    rw [v1Eq]
  case wires =>
    refine Eq.trans (congrArg (fun w : Wires => { w with
      trailNotes := w.trailNotes ++ [(h.station, (⟨n, gen, h.first, h.count, h.timeUnsure, h.clipped, brk⟩ : TrailEntry))] }) told) ?_
    rw [v1Eq]
  case engine =>
    show v.engine.modify h.station _ = _
    rw [engine]
    unfold deadline State.now
    rw [time, gen']
    rfl
  case status => exact status.trans (by rw [v1Eq])

/-! ### The way toward the Station Engine (R13, R18, R21, R24) -/

section
variable {n : Nat} {b : Block} {brk : Bool} {s : State} {si : StationIntake}

/-- A block that is whole in its buffer goes to HOLDING (R13, R24). -/
theorem State.routeBlock_whole {i g next d gen needed : Nat} {got : List Byte} (buf : s.intake.bufs[i]? = some (.assembling n g next d got))
    (first : ∀ (j : Nat) (x : Buf), j < i → s.intake.bufs[j]? = some x → x.assembles n = false) (whole : 32 + needed ≤ next)
    (station : s.intake.stations[b.station]? = some si) : s.routeBlock n gen needed b brk = { s with intake := { s.intake with
      bufs := s.intake.bufs.set i (.holding { b with body := got.take needed })
      stations := s.intake.stations.set b.station { si with
        order := si.order ++ [⟨.buffer i, brk || si.breakPending⟩], breakPending := false } } } := by
  have place : placeOf (Buf.assembles n) 0 s.intake.bufs = some i := by
    rw [placeOf_first (k := 0) buf (beq_self_eq_true n) first, Nat.zero_add]
  unfold State.routeBlock
  simp only [place, buf, if_pos whole]
  exact State.setStationIntake_eq (s := s.setBufs (s.intake.bufs.set i (.holding { b with body := got.take needed }))) station _

/-- Without its bytes in a buffer it is read back; the buffer it had is released (R13, R21). -/
theorem State.routeBlock_lacking {gen needed : Nat} {bufs : List Buf}
    (lacking : (∀ x ∈ s.intake.bufs, x.assembles n = false) ∧ bufs = s.intake.bufs ∨
      ∃ (i g next d : Nat) (got : List Byte), s.intake.bufs[i]? = some (.assembling n g next d got) ∧
        (∀ (j : Nat) (x : Buf), j < i → s.intake.bufs[j]? = some x → x.assembles n = false) ∧ next < 32 + needed ∧
        bufs = s.intake.bufs.set i .free) :
    s.routeBlock n gen needed b brk = (s.setBufs bufs).enterRefetch n gen ((needed + 7) / 8) b brk := by
  rcases lacking with ⟨nobody, same⟩ | ⟨i, g, next, d, got, buf, first, short, freed⟩
  · have place : placeOf (Buf.assembles n) 0 s.intake.bufs = none := by
      rw [placeOf_findIdx?, List.findIdx?_eq_none_iff.2 nobody]
      rfl
    unfold State.routeBlock
    rw [place, same]
    rfl
  · have place : placeOf (Buf.assembles n) 0 s.intake.bufs = some i := by
      rw [placeOf_first (k := 0) buf (beq_self_eq_true n) first, Nat.zero_add]
    unfold State.routeBlock
    simp only [place, buf, if_neg (Nat.not_le.2 short), freed]

theorem State.routeBlock_horizon (n gen needed : Nat) (b : Block) (brk : Bool) (s : State) :
    (s.routeBlock n gen needed b brk).intake.horizon = s.intake.horizon := by
  have entered (s : State) (beats : Nat) : (s.enterRefetch n gen beats b brk).intake.horizon = s.intake.horizon := by
    unfold State.enterRefetch
    split
    · rfl
    · simp [State.setStationIntake]
  unfold State.routeBlock
  split
  · split
    · split
      · rfl
      · exact entered _ _
    · rfl
    · rfl
    · rfl
  · exact entered _ _

/-- An accepted block enters the refetch queue, which pins its slot (R21). -/
theorem State.enterRefetch_enters {gen beats : Nat} {e : Slot} (slot : s.intake.dir[n]? = some e)
    (station : s.intake.stations[b.station]? = some si) (room : s.intake.refetch.length < 16) :
    (s.enterRefetch n gen beats b brk).intake = { s.intake with
      dir := s.intake.dir.set n { e with pins := e.pins + 1, refetchNeeded := false }
      refetch := takeUp (s.intake.refetch ++ [⟨s.intake.nextId, n, gen, b, beats, .queued, false, 0, 0, false⟩])
      stations := s.intake.stations.set b.station { si with
        order := si.order ++ [⟨.refetch s.intake.nextId, brk || si.breakPending⟩], breakPending := false }
      nextId := s.intake.nextId + 1 } ∧
    (s.enterRefetch n gen beats b brk).tallies = (s.count .refetches).tallies ∧
    (s.enterRefetch n gen beats b brk).status = s.status := by
  unfold State.enterRefetch
  rw [if_pos room]
  refine ⟨?_, count_tallies_congr _ rfl, rfl⟩
  simp only [State.count_intake]
  unfold State.setStationIntake State.setSlot State.setIntake
  simp only [modify_eq_set slot, modify_eq_set station]
  rfl

/-- It is lost when the queue is full (R21). -/
theorem State.enterRefetch_loses {gen beats : Nat} (station : s.intake.stations[b.station]? = some si)
    (full : 16 ≤ s.intake.refetch.length) :
    (s.enterRefetch n gen beats b brk).intake = { s.intake with
      stations := s.intake.stations.set b.station { si with breakPending := true } } ∧
    (s.enterRefetch n gen beats b brk).tallies = (s.count .refetchFull).tallies ∧
    (s.enterRefetch n gen beats b brk).status.pending = s.status.pending ||| Notice.blockLost.bit := by
  unfold State.enterRefetch
  rw [if_neg (Nat.not_lt.2 full), State.setStationIntake_eq station]
  refine ⟨by simp, ?_, by simp⟩
  rw [State.raise_tallies]
  exact count_tallies_congr _ rfl

end

/-! ### The seal write (R8) -/

section
variable {p : Piece} {e : Slot} {s : State} (at_ : s.intake.dir[p.slot]? = some e)
include at_

theorem State.sealWrite_noOpen (state : e.state = .empty ∨ e.state = .sealed) : s.sealWrite p = s.rejectNoOpen p.slot := by
  have slot : s.slot p.slot = some e := at_
  unfold State.sealWrite
  rcases state with state | state <;> simp only [slot, state]

theorem State.sealWrite_rejected (state : e.state = .rejected) : s.sealWrite p = s := by
  have slot : s.slot p.slot = some e := at_
  unfold State.sealWrite
  simp only [slot, state]

/-- At an OPEN slot validation decides between rejection and acceptance (R8, R15). -/
theorem State.sealWrite_opened (state : e.state = .opened) {h : Header} (header : parseHeader ((p.bytes.take 32).filterMap id) = h)
    {why : Option Tally} {gap brk : Bool} (outcome : (s.validate h).says why gap brk) :
    (∃ r : RejectReason, why = some r.tally ∧ s.sealWrite p = s.rejectBlock p.slot r) ∨
      why = none ∧ s.sealWrite p = s.acceptBlock p.slot e.gen h gap brk := by
  have slot : s.slot p.slot = some e := at_
  unfold State.sealWrite
  simp only [slot, state, header]
  rcases outcome with ⟨r, verdict, reason⟩ | ⟨reason, ⟨verdict, gapIs, brkIs⟩ | ⟨verdict, gapIs, brkIs⟩ | ⟨verdict, gapIs, brkIs⟩⟩
  · exact .inl ⟨r, reason, by rw [verdict]⟩
  · exact .inr ⟨reason, by rw [verdict, gapIs, brkIs]⟩
  · exact .inr ⟨reason, by rw [verdict, gapIs, brkIs]⟩
  · exact .inr ⟨reason, by rw [verdict, gapIs, brkIs]⟩

end

theorem State.takePiece_seal {p : Piece} {s : State} (kind : p.class = .sealWrite) : s.takePiece p = s.sealWrite p := by
  unfold State.takePiece
  rw [kind]

/-- Settles O60. -/
theorem sealIsValidated : Obligations.SealIsValidated := by
  unfold Obligations.SealIsValidated
  intro n bs more p e s pIs length blank marker at_
  have kind := Piece.class_seal pIs length blank marker
  have header : parseHeader ((p.bytes.take 32).filterMap id) = parseHeader bs := by rw [Piece.headerBytes pIs length]
  have slot : p.slot = n := by rw [pIs]
  rw [← slot] at at_ ⊢
  clear pIs slot
  rw [State.takePiece_seal kind]
  refine ⟨?draining, State.sealWrite_rejected at_, fun closed => ?closed, fun st seq count comps first y si why gap brk opened stIs seqIs
    countIs compsIs firstIs known whyIs gapIs brkIs valid => ?opened⟩
  case draining => rw [State.takePieceDraining_eq at_, kind]
  case closed =>
    obtain ⟨intake, pending, tallies, frame⟩ := State.rejectNoOpen_rejects at_
    rw [State.sealWrite_noOpen at_ closed, intake]
    exact ⟨rfl, pending, tallies, frame⟩
  case opened =>
    have small : (parseHeader bs).seq < 65536 := leVal_take_lt 2 _
    replace stIs : st = (parseHeader bs).station := stIs
    replace seqIs : seq = (parseHeader bs).seq := seqIs
    replace countIs : count = (parseHeader bs).count := countIs
    replace compsIs : comps = (parseHeader bs).components := compsIs
    replace firstIs : first = (parseHeader bs).first := firstIs
    show (∀ w, _) ∧ (why = none → ∀ (z : TrailEntry) (b : Block), _)
    have unsure : (field bs 6 1).testBit 0 = (parseHeader bs).timeUnsure := rfl
    have clipped : (field bs 6 1).testBit 1 = (parseHeader bs).clipped := rfl
    simp only [unsure, clipped]
    generalize parseHeader bs = h at *
    subst stIs seqIs countIs compsIs firstIs
    clear unsure clipped
    obtain ⟨verdict, inTable⟩ := State.validate_says small known valid whyIs gapIs brkIs
    have either := State.sealWrite_opened at_ opened header verdict
    refine ⟨fun w rejected => ?rejected, fun accepted z b a t si' tIs zIs bIs aIs siIs => ?accepted⟩
    case rejected =>
      obtain ⟨r, reason, sealed⟩ := either.resolve_right fun ⟨none_, _⟩ => by rw [none_] at rejected; cases rejected
      have wIs : w = r.tally := Option.some.inj (rejected.symm.trans reason)
      obtain ⟨intake, tallies, pending, frame⟩ := State.rejectBlock_rejects at_ r
      rw [sealed, wIs, intake]
      exact ⟨rfl, rfl, tallies, pending, rfl, rfl, frame⟩
    case accepted =>
      obtain ⟨-, sealed⟩ := either.resolve_left fun ⟨r, reason, _⟩ => by rw [reason] at accepted; cases accepted
      obtain ⟨station, intake⟩ := known (inTable accepted)
      obtain ⟨aIntake, aWires, aEngine, aTallies, aStatus⟩ := State.accepted_leaves (gap := gap) at_ station intake zIs
      have frame : Frame [.intake, .engine, .notices, .writer, .tallies, .wires] s t := by
        rw [tIs, sealed]
        exact State.acceptBlock_frame _ _ _ _ _ (Frame.refl _ s) (by decide)
      rw [sealed, State.acceptBlock_eq, ← bIs] at tIs
      generalize s.accepted p.slot e.gen h gap brk = u at *
      have routed : Frame [.intake, .notices, .writer, .tallies] u t := by
        rw [tIs]
        exact State.routeBlock_frame _ _ _ _ _ (Frame.refl _ u) (by decide)
      have dir : u.intake.dir[p.slot]? = some { e with state := .sealed } := by
        rw [aIntake]
        exact List.getElem?_set_self (List.getElem?_eq_some_iff.1 at_).1
      have entry : u.intake.stations[b.station]? = some si' := by
        rw [aIntake, bIs, siIs]
        exact List.getElem?_set_self (List.getElem?_eq_some_iff.1 intake).1
      have same : b.station = h.station := by rw [bIs]
      have bufsIs : u.intake.bufs = s.intake.bufs := by rw [aIntake]
      have refetchIs : u.intake.refetch = s.intake.refetch := by rw [aIntake]
      refine ⟨?horizon, Eq.trans (routed .wires (by decide)) aWires, Eq.trans (routed .engine (by decide)) aEngine, frame,
        fun i g next d got buf first whole => ?whole, fun bufs lacking => ?lacking⟩
      case horizon => rw [tIs, State.routeBlock_horizon, aIntake]
      case whole =>
        have held := tIs.trans (State.routeBlock_whole (by rw [bufsIs]; exact buf) (by rw [bufsIs]; exact first) whole entry)
        rw [held]
        refine ⟨congrArg (fun l : List Buf => l.set i (.holding { b with body := got.take (4 * h.count * h.components) })) bufsIs, refetchIs, ?_, ?_, aTallies.trans (by rw [aIs]), congrArg Status.pending aStatus⟩
        · show u.intake.stations.set b.station _ = _
          rw [aIntake, same, siIs]
          exact List.set_set ..
        · show u.intake.dir = _
          rw [aIntake]
      case lacking =>
        have lost := tIs.trans (State.routeBlock_lacking (by rw [bufsIs]; exact lacking))
        generalize vIs : u.setBufs bufs = v at lost
        have vIntake : v.intake = { u.intake with bufs := bufs } := by rw [← vIs]; rfl
        have vTallies : v.tallies = a.tallies := by rw [← vIs, aIs]; exact aTallies
        have vStatus : v.status = s.status := by rw [← vIs]; exact aStatus
        have vDir : v.intake.dir[p.slot]? = some { e with state := .sealed } := by rw [vIntake]; exact dir
        have vEntry : v.intake.stations[b.station]? = some si' := by rw [vIntake]; exact entry
        have vRefetch : v.intake.refetch = s.intake.refetch := by rw [vIntake]; exact refetchIs
        have entered := State.enterRefetch_enters (gen := e.gen) (beats := (4 * h.count * h.components + 7) / 8) (brk := brk) vDir vEntry
        have full := State.enterRefetch_loses (n := p.slot) (gen := e.gen) (beats := (4 * h.count * h.components + 7) / 8) (brk := brk) vEntry
        rw [vRefetch] at entered full
        replace lost : t = v.enterRefetch p.slot e.gen ((4 * h.count * h.components + 7) / 8) b brk := lost
        rw [← lost] at entered full
        refine ⟨?bufs, fun room => ?room, fun none_ => ?none⟩
        case bufs =>
          by_cases room : s.intake.refetch.length < 16
          · rw [(entered room).1, vIntake]
          · rw [(full (Nat.le_of_not_lt room)).1, vIntake]
        case room =>
          obtain ⟨tIntake, tTallies, tStatus⟩ := entered room
          refine ⟨?_, ?_, ?_, ?_, tTallies.trans (count_tallies_congr _ vTallies), congrArg Status.pending (tStatus.trans vStatus)⟩
          · rw [tIntake, vIntake, aIntake]
          · rw [tIntake, vIntake, aIntake]
          · rw [tIntake, vIntake, aIntake, same, siIs]
            exact List.set_set ..
          · rw [tIntake, vIntake, aIntake]
            exact List.set_set ..
        case none =>
          obtain ⟨tIntake, tTallies, tPending⟩ := full none_
          refine ⟨?_, ?_, ?_, tTallies.trans (count_tallies_congr _ vTallies), tPending.trans (by rw [vStatus])⟩
          · rw [tIntake]
            exact vRefetch
          · rw [tIntake, vIntake, aIntake, same, siIs]
            exact List.set_set ..
          · rw [tIntake, vIntake, aIntake]

end Sys2Proof.Machine
end

section
/-! SUPPORT. A block handed off to the Station Engine: its item, the staged fields, the samples and what they count (R24, R43, R48, R49, R57). -/
namespace Sys2Proof.Machine

/-! ### The block offered (R24) -/

section
variable {st : Nat} {it : Item} {rest : List Item} {b : Block} {si : StationIntake} {s : State}

/-- The head of a station's order is offered when its block is HOLDING or DONE (R24). -/
theorem State.takeOffered_of (record : s.intake.stations[st]? = some si) (order : si.order = it :: rest) (ready : s.intake.ready it = some b) :
    s.takeOffered st = some (b, it.brk, (s.freeItem it).setStationIntake st fun x => { x with order := rest }) := by
  unfold State.takeOffered
  simp only [record, order, ready]

/-- The item taken frees its buffer or its refetch entry, and the next entry is taken up (R22, R24). -/
theorem State.freeItem_frees (it : Item) (s : State) :
    s.freeItem it = { s with intake := { s.intake with bufs := (s.freeItem it).intake.bufs, refetch := (s.freeItem it).intake.refetch } } ∧
    (∀ i, it.place = .buffer i → (s.freeItem it).intake.bufs = s.intake.bufs.set i .free ∧ (s.freeItem it).intake.refetch = s.intake.refetch) ∧
    (∀ id, it.place = .refetch id → (s.freeItem it).intake.bufs = s.intake.bufs ∧
      (s.freeItem it).intake.refetch = takeUp (s.intake.refetch.filter fun y => y.id != id)) := by
  unfold State.freeItem
  cases it.place with
  | buffer i =>
    refine ⟨rfl, fun j same => ?_, fun id same => ?_⟩
    · cases same
      exact ⟨rfl, rfl⟩
    · cases same
  | refetch id =>
    refine ⟨rfl, fun j same => ?_, fun id' same => ?_⟩
    · cases same
    · cases same
      exact ⟨rfl, rfl⟩

theorem Intake.ready_of {k : Intake} (held : ∀ i, it.place = .buffer i → k.bufs[i]? = some (.holding b))
    (read : ∀ id, it.place = .refetch id → ∃ r, k.refetch.find? (fun y => y.id == id) = some r ∧ r.state = .done ∧ r.block = b) :
    k.ready it = some b := by
  unfold Intake.ready
  cases place : it.place with
  | buffer i => simp only [held i place]
  | refetch id =>
    obtain ⟨r, found, done, block⟩ := read id place
    simp only [found, if_pos done, block]

end

/-! ### The staged fields (R43) -/

theorem Tuning.ok_iff (t : Tuning) : t.ok = true ↔ (1 ≤ t.shortExp ∧ t.shortExp ≤ 8) ∧
    (6 ≤ t.longExp ∧ t.longExp ≤ 15 ∧ t.shortExp + 3 ≤ t.longExp) ∧ (24 ≤ t.onRatio ∧ t.onRatio ≤ 1024) ∧
    (16 ≤ t.offRatio ∧ t.offRatio ≤ t.onRatio) ∧ (1 ≤ t.minOn ∧ t.minOn ≤ 255) ∧ t.deadTime ≤ 65535 ∧ 1 ≤ t.maxOn ∧ t.maxOn ≤ 600 := by
  unfold Tuning.ok
  simp only [Bool.and_eq_true, decide_eq_true_iff, and_assoc]

/-- The station entry with the tuning that the staged fields leave (R43). -/
structure StagedTaken (st : Nat) (x : Detector) (e : StationEntry) (tuning : Tuning) (good : Bool) (s t : State) : Prop where
  entry : t.station st = some { e with tuning := tuning }
  control : ∀ u : Setup, s.control.setup = some u →
    t.control = { s.control with setup := some { u with stations := u.stations.set st { e with tuning := tuning } } }
  engine : t.engine = s.engine.set st { x with staged := .empty }
  pending : t.status.pending = if x.staged = .empty ∨ good = true then s.status.pending else s.status.pending ||| Notice.setupIgnored.bit
  tallies : t.tallies = (if x.staged = .empty ∨ good = true then s else s.setupIgnored).tallies
  frame : Frame [.control, .engine, .notices, .writer, .tallies] s t

theorem State.takeStaged_takes {st : Nat} {x : Detector} {e : StationEntry} {s : State} (at_ : s.engine[st]? = some x)
    (station : s.station st = some e) {tuning cand : Tuning} {good : Bool} (candIs : cand = x.staged.candidate e.tuning) (goodIs : good = cand.ok)
    (tuningIs : tuning = if good then cand else e.tuning) : StagedTaken st x e tuning good s (s.takeStaged st) := by
  have frame : Frame [.control, .engine, .notices, .writer, .tallies] s (s.takeStaged st) := State.takeStaged_frame st (Frame.refl _ s) (by decide)
  obtain ⟨u, setup, entry⟩ : ∃ u, s.control.setup = some u ∧ u.stations[st]? = some e := by
    unfold State.station at station
    split at station
    next u setup => exact ⟨u, setup, station⟩
    next => cases station
  have kept : u.stations.set st { e with tuning := e.tuning } = u.stations := set_of_getElem? entry
  have unchanged : s.control = { s.control with setup := some { u with stations := u.stations.set st { e with tuning := e.tuning } } } := by
    rw [kept, ← setup]
  by_cases none_ : x.staged = .empty
  · have same : s.takeStaged st = s := by
      unfold State.takeStaged
      simp only [at_, station]
      exact if_pos (beq_iff_eq.2 none_)
    have tuningSame : tuning = e.tuning := by
      rw [tuningIs, candIs, none_]
      split <;> rfl
    rw [same, tuningSame]
    refine ⟨station, fun v there => ?_, ?_, (if_pos (.inl none_)).symm, by rw [if_pos (.inl none_)], Frame.refl _ s⟩
    · cases setup.symm.trans there
      exact unchanged
    · rw [← none_]
      exact (set_of_getElem? at_).symm
  · have emptied : (s.setDetector st fun y => { y with staged := .empty }).engine = s.engine.set st { x with staged := .empty } :=
      State.setDetector_set _ at_
    have takes : s.takeStaged st = if good then
        (s.setDetector st fun y => { y with staged := .empty }).setStation st fun y => { y with tuning := cand }
        else (s.setDetector st fun y => { y with staged := .empty }).setupIgnored := by
      unfold State.takeStaged
      simp only [at_, station]
      rw [goodIs, candIs]
      exact if_neg fun h => none_ (beq_iff_eq.1 h)
    cases good with
    | true =>
      have control := State.setStation_control (s.setDetector st fun y => { y with staged := .empty }) (fun y => { y with tuning := cand })
        setup entry
      rw [if_pos rfl] at takes
      rw [if_pos rfl] at tuningIs
      rw [tuningIs]
      refine ⟨?_, fun v there => ?_, ?_, ?_, ?_, frame⟩
      · rw [takes]
        unfold State.station
        rw [control]
        exact List.getElem?_set_self (List.getElem?_eq_some_iff.1 entry).1
      · cases setup.symm.trans there
        rw [takes]
        exact control
      · rw [takes]
        exact emptied
      · rw [takes]
        exact (if_pos (.inr rfl)).symm
      · rw [takes, if_pos (.inr rfl)]
        rfl
    | false =>
      rw [if_neg Bool.false_ne_true] at takes tuningIs
      rw [tuningIs]
      have neither : ¬ (x.staged = .empty ∨ false = true) := by simp [none_]
      refine ⟨?_, fun v there => ?_, ?_, ?_, ?_, frame⟩
      · rw [takes]
        unfold State.station
        rw [State.setupIgnored_control]
        exact station
      · cases setup.symm.trans there
        rw [takes, State.setupIgnored_control]
        exact unchanged
      · rw [takes, State.setupIgnored_engine]
        exact emptied
      · rw [takes, if_neg neither, State.setupIgnored_raised]
        rfl
      · rw [takes, if_neg neither]
        exact State.setupIgnored_tallies rfl

/-! ### The samples of a block (R48, R180) -/

theorem Interval.applies_iff {group time : Nat} {v : Interval} : v.applies group time = true ↔
    v.mask.getLsbD group = true ∧ v.beginT ≤ time ∧ ∀ d, v.endT = some d → time < d := by
  unfold Interval.applies
  cases v.endT <;> simp [and_assoc]

/-- Whether a sample is muted, and its desensitise factor (R48), by the intervals that apply to it. -/
theorem mutedAt_iff {vs : List Interval} {group time : Nat} {ap : Interval → Prop}
    (applying : ∀ v, ap v ↔ v ∈ vs ∧ v.mask.getLsbD group = true ∧ v.beginT ≤ time ∧ ∀ d, v.endT = some d → time < d) :
    mutedAt vs group time = true ↔ ∃ v, ap v ∧ v.kind = .mute := by
  unfold mutedAt
  simp only [List.any_eq_true, Bool.and_eq_true, beq_iff_eq, Interval.applies_iff, applying]
  constructor
  · rintro ⟨v, listed, mute, applies⟩
    exact ⟨v, ⟨listed, applies⟩, mute⟩
  · rintro ⟨v, ⟨listed, applies⟩, mute⟩
    exact ⟨v, listed, mute, applies⟩

theorem factorAt_greatest {vs : List Interval} {group time : Nat} {ap : Interval → Prop}
    (applying : ∀ v, ap v ↔ v ∈ vs ∧ v.mask.getLsbD group = true ∧ v.beginT ≤ time ∧ ∀ d, v.endT = some d → time < d) :
    (∀ v f, ap v → v.kind = .desens f → f ≤ factorAt vs group time) ∧ 1 ≤ factorAt vs group time ∧
      (factorAt vs group time = 1 ∨ ∃ v, ap v ∧ v.kind = .desens (factorAt vs group time)) := by
  have greatest : factorAt vs group time = ((vs.filter fun v => v.applies group time).map Interval.factor).foldl max 1 := by
    unfold factorAt
    rw [List.foldl_map]
  have mem (v : Interval) : v ∈ (vs.filter fun v => v.applies group time) ↔ ap v := by
    rw [List.mem_filter, applying]
    exact and_congr_right fun _ => Interval.applies_iff
  rw [greatest]
  obtain ⟨start, all⟩ := foldl_max_ge ((vs.filter fun v => v.applies group time).map Interval.factor) 1
  refine ⟨fun v f applies kind => all f (List.mem_map.2 ⟨v, (mem v).2 applies, ?_⟩), start, ?_⟩
  · unfold Interval.factor
    rw [kind]
  · rcases foldl_max_or ((vs.filter fun v => v.applies group time).map Interval.factor) 1 with one | listed
    · exact .inl one
    · obtain ⟨v, applies, same⟩ := List.mem_map.1 listed
      rw [← same]
      unfold Interval.factor
      cases kind : v.kind with
      | mute => exact .inl rfl
      | desens f => exact .inr ⟨v, (mem v).1 applies, kind⟩

theorem samplesOf_length (components n : Nat) (body : List Byte) : (samplesOf components n body).length = n := by
  induction n generalizing body with
  | zero => rfl
  | succ n ih => exact congrArg (· + 1) (ih _)

theorem samplesOf_at {components n k : Nat} {body : List Byte} {v : List Int} (at_ : (samplesOf components n body)[k]? = some v) :
    v = (chunksOf 4 components (body.drop (4 * components * k))).map signed32 := by
  induction n generalizing body k with
  | zero => cases at_
  | succ n ih =>
    cases k with
    | zero => exact (Option.some.inj at_).symm
    | succ k =>
      rw [ih at_, List.drop_drop, Nat.mul_succ, Nat.add_comm]

theorem sampleRun_length (vs : List Interval) (e : StationEntry) (b : Block) (i : Nat) (l : List (List Int)) :
    (sampleRun vs e b i l).length = l.length := by
  induction l generalizing i with
  | nil => rfl
  | cons v l ih => exact congrArg (· + 1) (ih _)

/-- What the sample at a place of a block brings (R48). -/
theorem sampleRun_at {vs : List Interval} {e : StationEntry} {b : Block} {i k : Nat} {l : List (List Int)} {z : Sample}
    (at_ : (sampleRun vs e b i l)[k]? = some z) : ∃ (v : List Int) (t : Nat), l[k]? = some v ∧ t = sampleTime (b.first + (i + k) * e.period) ∧
      z = ⟨b.station, e, t, b.timeUnsure, mutedAt vs e.noiseGroup t, factorAt vs e.noiseGroup t, v⟩ := by
  induction l generalizing i k with
  | nil => cases at_
  | cons v l ih =>
    cases k with
    | zero => exact ⟨v, _, rfl, rfl, (Option.some.inj at_).symm⟩
    | succ k =>
      obtain ⟨v, t, there, time, sample⟩ := ih at_
      exact ⟨v, t, there, by rw [time]; congr 3; omega, sample⟩

/-! ### What a block counts (R57, R172) -/

theorem saturate_saturate (j k n : Nat) : saturate j (saturate k n) = saturate (k + j) n := by
  unfold saturate
  omega

theorem countPicks_closure (st st' onset : Nat) (k : Closure) (ms : List AssocMsg) (s : State) :
    countPicks st (.closure st' onset k :: ms) s = countPicks st ms s := rfl

theorem countPicks_pick (st : Nat) (p : Pick) (ms : List AssocMsg) (s : State) : countPicks st (.pick p :: ms) s =
    countPicks st ms ((s.count .picks).countStation st fun x => { x with picks := saturate 1 x.picks }) := rfl

/-- The picks of what was sent are counted, in total and for the station (R57). -/
theorem countPicks_counts {q : AssocMsg → Bool} (isPick : ∀ p, q (.pick p) = true) (isClosure : ∀ st onset k, q (.closure st onset k) = false)
    (st : Nat) (ms : List AssocMsg) (s : State) : countPicks st ms s = if (ms.filter q).length = 0 then s else
      (s.countBy .picks (ms.filter q).length).countStation st fun k => { k with picks := saturate (ms.filter q).length k.picks } := by
  induction ms generalizing s with
  | nil => rfl
  | cons m ms ih =>
    cases m with
    | closure st' onset k =>
      rw [countPicks_closure, ih, List.filter_cons_of_neg (by rw [isClosure]; exact Bool.false_ne_true)]
    | pick p =>
      rw [countPicks_pick, ih, List.filter_cons_of_pos (isPick p), List.length_cons, if_neg (Nat.succ_ne_zero _)]
      by_cases none_ : (ms.filter q).length = 0
      · rw [if_pos none_, none_]
        rfl
      · rw [if_neg none_]
        have twice : saturate (ms.filter q).length ∘ saturate 1 = saturate ((ms.filter q).length + 1) := by
          funext n
          rw [Function.comp_apply, saturate_saturate, Nat.add_comm]
        have stations (k : StationTallies) : saturate (ms.filter q).length (saturate 1 k.picks) = saturate ((ms.filter q).length + 1) k.picks :=
          congrFun twice k.picks
        unfold State.countStation State.count State.countBy
        simp only [List.modify_modify_eq, twice, Function.comp_def, stations]

/-! ### The block taken (R49) -/

/-- The Station Engine's step after the staged fields (R49): the detector runs, what it sends goes to the Associator, and is counted. -/
theorem State.detect_leaves {st : Nat} {b : Block} {brk : Bool} {s v m : State} {d : Detector} {e : StationEntry} {r : Run} {q : AssocMsg → Bool}
    (isPick : ∀ p, q (.pick p) = true) (isClosure : ∀ st onset k, q (.closure st onset k) = false) {picks : Nat}
    (picksIs : picks = (r.sent.filter q).length) (staged : s.takeStaged st = v) (at_ : v.engine[st]? = some d) (station : v.station st = some e)
    (ran : r = Run.block v.sched.intervals e b (startRun st brk d)) (counted : v.tallies = m.tallies) :
    (s.detect st b brk).control = v.control ∧ (s.detect st b brk).engine = v.engine.set st r.det ∧
    (s.detect st b brk).wires = { v.wires with toAssoc := v.wires.toAssoc ++ r.sent } ∧ (s.detect st b brk).status = v.status ∧
    (s.detect st b brk).tallies = (((if picks = 0 then m else
      (m.countBy .picks picks).countStation st fun k => { k with picks := min (k.picks + picks) (2 ^ 32 - 1) }).countBy .falseOnsets
        r.falseOnsets).countBy .maxOnCuts r.maxOnCuts).tallies := by
  have runs : s.detect st b brk = ((countPicks st r.sent ((v.setDetector st fun _ => r.det).sendAssoc r.sent)).countBy .falseOnsets
      r.falseOnsets).countBy .maxOnCuts r.maxOnCuts := by
    unfold State.detect
    rw [staged]
    simp only [at_, station]
    rw [ran]
  have set : (v.setDetector st fun _ => r.det).engine = v.engine.set st r.det := State.setDetector_set _ at_
  rw [runs, countPicks_counts isPick isClosure, ← picksIs, ← set]
  by_cases none_ : picks = 0
  · rw [if_pos none_, if_pos none_]
    refine ⟨rfl, rfl, rfl, rfl, ?_⟩
    simp only [State.countBy_tallies, State.sendAssoc_tallies, ← counted]
    rfl
  · rw [if_neg none_, if_neg none_]
    refine ⟨rfl, rfl, rfl, rfl, ?_⟩
    simp only [State.countBy_tallies, State.countStation_tallies, State.sendAssoc_tallies, ← counted]
    rfl

/-- The detector before the samples of a block (R49, steps 2 and 3). -/
theorem startRun_eq (st : Nat) (brk : Bool) (x : Detector) : startRun st brk { x with staged := .empty } =
    if x.startPending then ⟨{ Detector.fresh with state := .settling, silence := x.silence, silent := x.silent }, [], 0, 0⟩
    else if brk = true ∧ x.state ≠ .off then
      ⟨{ x with staged := .empty, state := .settling, count := 0, openPick := none, short := 0, long := 0, warmUp := 0 }, x.cutClosure st, 0, 0⟩
    else ⟨{ x with staged := .empty }, [], 0, 0⟩ := by
  unfold startRun
  by_cases pending : x.startPending = true
  · rw [if_pos pending, if_pos (show ({ x with staged := .empty } : Detector).startPending = true from pending)]
    rfl
  · rw [if_neg pending, if_neg (show ¬ ({ x with staged := .empty } : Detector).startPending = true from pending)]
    by_cases off : x.state = .off
    · have silent : ({ x with staged := .empty } : Detector).cutClosure st = [] :=
        Detector.cutClosure_other st (show x.state ≠ .triggered by rw [off]; decide)
      rw [if_neg (show ¬ (brk = true ∧ x.state ≠ .off) from fun h => h.2 off), Detector.gap_eq,
        if_pos (show ({ x with staged := .empty } : Detector).state = .off from off), silent]
      exact ite_self _
    · rw [Detector.gap_eq, if_neg (show ({ x with staged := .empty } : Detector).state ≠ .off from off)]
      exact if_congr (iff_self_and.2 fun _ => off) rfl rfl

/-- Settles O43. -/
theorem blockIsTaken : Obligations.BlockIsTaken := by
  unfold Obligations.BlockIsTaken
  intro st it rest b si x e s cand good record order at_ station held read candIs goodIs
  have goodOk : good = cand.ok := Bool.eq_iff_iff.2 (goodIs.trans cand.ok_iff.symm)
  have offered := State.takeOffered_of record order (Intake.ready_of held read)
  obtain ⟨freed, buffer, refetch⟩ := s.freeItem_frees it
  generalize wIs : s.freeItem it = w at offered freed buffer refetch
  have record' : w.intake.stations[st]? = some si := by rw [freed]; exact record
  rw [State.setStationIntake_eq record'] at offered
  generalize vIs : ({ w with intake := { w.intake with stations := w.intake.stations.set st { si with order := rest } } } : State) = v at offered
  have vEq : v = { s with intake := { s.intake with
      stations := s.intake.stations.set st { si with order := rest }, bufs := w.intake.bufs, refetch := w.intake.refetch } } := by
    rw [← vIs, freed]
  have returns : exec (.blockHandoff st) s = done (v.detect st b it.brk) := by
    show execBlockHandoff st s = _
    unfold execBlockHandoff
    rw [offered]
  have staged := State.takeStaged_takes (s := v) (st := st) (x := x) (e := e) (cand := cand) (good := good) (by rw [vEq]; exact at_)
    (by rw [vEq]; exact station) candIs goodOk rfl
  generalize uIs : v.takeStaged st = u at staged
  generalize tuningIs : (if good then cand else e.tuning) = tuning at staged
  have uEngine : u.engine[st]? = some { x with staged := .empty } := by
    rw [staged.engine, vEq]
    exact List.getElem?_set_self (List.getElem?_eq_some_iff.1 at_).1
  generalize rIs : startRun st it.brk { x with staged := .empty } = r
  generalize zsIs : sampleRun u.sched.intervals { e with tuning := tuning } b 0 (samplesOf e.components b.count b.body) = zs
  generalize r'Is : (if r.det.state = .off then r else zs.foldl (fun y z => y.sample z) r) = r'
  have ran : Run.block u.sched.intervals { e with tuning := tuning } b r = { r' with det := if r.det.state = .off then r.det else
      { r'.det with nextTime := some (sampleTime (b.first + b.count * e.period)) } } := by
    unfold Run.block
    rw [← r'Is]
    split
    · rfl
    · subst zsIs
      rfl
  have leaves := State.detect_leaves (q := fun m => match m with
    | .pick _ => true
    | .closure _ _ _ => false) (fun _ => rfl) (fun _ _ _ => rfl) rfl uIs uEngine staged.entry (brk := it.brk) (b := b)
      (r := { r' with det := if r.det.state = .off then r.det else
        { r'.det with nextTime := some (sampleTime (b.first + b.count * e.period)) } })
      (by rw [rIs]; exact ran.symm) (m := if x.staged = .empty ∨ good = true then s else s.setupIgnored) (by
        rw [staged.tallies]
        split
        · rw [vEq]
        · exact State.setupIgnored_tallies (by rw [vEq]))
  generalize tIs : v.detect st b it.brk = t at returns leaves
  obtain ⟨control, engine, wires, status, tallies⟩ := leaves
  have frame : Frame [.control, .intake, .engine, .notices, .writer, .tallies, .wires] s t := by
    rw [← tIs]
    refine State.detect_frame st b it.brk ?_ (by decide)
    exact State.takeOffered_frame offered |>.mono (by decide)
  have intake : t.intake = v.intake := by
    rw [← tIs]
    exact State.detect_frame st b it.brk (Frame.refl [.control, .engine, .notices, .writer, .tallies, .wires] v) (by decide) .intake (by decide)
  have tIntake : t.settle.intake = { s.intake with
      stations := s.intake.stations.set st { si with order := rest }, bufs := w.intake.bufs, refetch := w.intake.refetch } := by
    rw [State.settle_intake, intake, vEq]
  have zsAt (k : Nat) (z : Sample) (at_ : zs[k]? = some z) := sampleRun_at (zsIs.symm ▸ at_)
  have intervals : u.sched.intervals = s.sched.intervals := by
    have same : u.sched = v.sched := staged.frame .sched (by decide)
    rw [same, vEq]
  refine ⟨_, tuning, r, r', zs, _, _, _, returns, ?intake, fun i place => ?buffer, fun id place => ?refetch, rfl, ?station, fun u' setup => ?control,
    ?pending, rIs.symm.trans (startRun_eq st it.brk x), ?length, fun k z there => ?sample, r'Is.symm, ?engine, ?wires, rfl, rfl, rfl, tallies, ?frame⟩
  case intake => rw [tIntake]
  case buffer =>
    obtain ⟨bufs, queue⟩ := buffer i place
    rw [tIntake]
    exact ⟨bufs, queue⟩
  case refetch =>
    obtain ⟨bufs, queue⟩ := refetch id place
    rw [tIntake]
    exact ⟨bufs, queue⟩
  case station =>
    refine Eq.trans ?_ staged.entry
    unfold State.station
    rw [State.settle_control, control]
  case control =>
    rw [State.settle_control, control]
    have same : v.control = s.control := by rw [vEq]
    rw [staged.control u' (by rw [same]; exact setup), same]
  case pending =>
    simp only [State.settle_status, Status.choose_rest]
    rw [status, staged.pending, vEq]
  case length => rw [← zsIs, sampleRun_length, samplesOf_length]
  case sample =>
    obtain ⟨values, time, sampled, timeIs, whole⟩ := zsAt k z there
    rw [Nat.zero_add] at timeIs
    rw [intervals] at whole
    rw [whole]
    refine ⟨rfl, rfl, timeIs, rfl, samplesOf_at sampled, fun ap applying => ⟨mutedAt_iff applying, factorAt_greatest applying⟩⟩
  case engine =>
    rw [State.settle_engine, engine, staged.engine, vEq]
    exact List.set_set ..
  case wires =>
    have same : u.wires = v.wires := staged.frame .wires (by decide)
    rw [State.settle_wires, wires, same, vEq]
  case frame => exact State.settle_frame frame (by decide)

end Sys2Proof.Machine
end

section
/-! SUPPORT. The allocation test of a job, and the copier coming to a selection (R113 to R115, R118). -/
namespace Sys2Proof.Machine

theorem State.setPlan_set {s : State} {i : Nat} {p : Plan} (plan : s.clip.plans[i]? = some (some p)) (f : Plan → Plan) :
    s.setPlan i f = { s with clip := { s.clip with plans := s.clip.plans.set i (some (f p)) } } := by
  show ({ s with clip := { s.clip with plans := s.clip.plans.modify i (·.map f) } } : State) = _
  rw [modify_eq_set plan]
  rfl

/-! ### Coming to a selection (R115, R118) -/

/-- The copier comes to a selection, or to the end of them: its own state is all that changes. -/
theorem State.comeTo_copier (i k : Nat) (s : State) : ∃ c, s.comeTo i k = s.setCopier c := by
  have stays : ∃ c, s = s.setCopier c := ⟨s.clip.copier, rfl⟩
  unfold State.comeTo
  split
  · split
    · split
      · exact ⟨_, rfl⟩
      · exact ⟨_, rfl⟩
    · unfold State.enterDirectory
      split
      · split
        · exact ⟨_, rfl⟩
        · exact stays
      · exact stays
  · exact stays

section
variable {s : State} {i k : Nat} {p : Plan} (plan : s.clip.plans[i]? = some (some p))
include plan

theorem State.comeTo_check {j : Nat} {c : StationClip} {x : Selection} (place : selectionAt 0 k p.clips = some (j, c, x))
    (stands : x.status ≠ .cut) : s.comeTo i k = s.setCopier (.unit i k (.check s.gen.copyBurst)) := by
  unfold State.comeTo
  simp only [State.plan_of plan, place, if_neg stands]

theorem State.comeTo_cut {j : Nat} {c : StationClip} {x : Selection} (place : selectionAt 0 k p.clips = some (j, c, x))
    (cut : x.status = .cut) : s.comeTo i k = s.writeVoid i k p c x true false := by
  unfold State.comeTo
  simp only [State.plan_of plan, place, if_pos cut]

theorem State.comeTo_end {e : Event} {r : Region} (place : selectionAt 0 k p.clips = none) (event : s.assoc.events[i]? = some (some e))
    (region : p.region = some r) : s.comeTo i k = s.setCopier (.directory i (s.gen.clipBase + 512 * r.first)
      (chunksOf (8 * s.gen.copyBurst) (64 / s.gen.copyBurst) (directoryBytes e.zone p r))) := by
  unfold State.comeTo
  simp only [State.plan_of plan, place]
  unfold State.enterDirectory
  simp only [State.plan_of plan, event, region]
  rfl

end

theorem selectionAt_front {c : StationClip} {cs : List StationClip} {x : Selection} {xs : List Selection} (sels : c.sels = x :: xs) :
    selectionAt 0 0 (c :: cs) = some (0, c, x) :=
  selectionAt_split [] cs c 0 x (by rw [sels]; rfl) 0

theorem selectionAt_none {cs : List StationClip} (empty : ∀ c ∈ cs, c.sels = []) : selectionAt 0 0 cs = none := by
  have sum : (cs.map fun c => c.sels.length).sum = 0 := by
    rw [List.sum_eq_zero_iff]
    intro n listed
    obtain ⟨c, there, rfl⟩ := List.mem_map.1 listed
    rw [empty c there]
    rfl
  have behind := selectionAt_end cs 0
  rwa [sum] at behind

/-! ### The region taken (R113) -/

/-- The job that takes its region, before the copier comes to its first selection (R113, R115). -/
structure RegionTaken (i : Nat) (p : Plan) (r : Region) (s v : State) : Prop where
  clip : v.clip = { s.clip with
    used := s.clip.used + r.skip + r.units, allocPtr := if r.first + r.units = s.gen.clipSize / 512 then 0 else r.first + r.units
    plans := s.clip.plans.set i (some { p with region := some r }), writesOut := 0, dirError := false }
  assoc : v.assoc = { s.assoc with events := s.assoc.events.modify i (·.map fun e => { e with clipUnits := some (r.first, r.units) }) }
  wires : v.wires = { s.wires with stateRequests := s.wires.stateRequests ++ [(p.event, .copying)] }
  guard : v.guard = { s.guard with range := some (r.first, r.units) }
  frame : Frame [.assoc, .clip, .guard, .writer, .wires] s v

theorem State.takeRegion_takes {s : State} {i : Nat} {p : Plan} (plan : s.clip.plans[i]? = some (some p)) (r : Region) :
    ∃ v, s.takeRegion i p r = v.comeTo i 0 ∧ RegionTaken i p r s v := by
  refine ⟨_, rfl, ?_, ?_, ?_, ?_, ?_⟩
  · unfold State.announceRange State.askState
    simp only [State.setGuard_clip, State.setWires_clip, State.setPointers_clip]
    rw [State.setPlan_set plan]
    rfl
  · unfold State.announceRange State.askState
    simp only [State.setGuard_assoc, State.setWires_assoc, State.setPointers_assoc]
    rfl
  · unfold State.announceRange State.askState
    simp only [State.setGuard_wires, State.setWires_wires, State.setPointers_wires]
    rfl
  · unfold State.announceRange State.askState
    simp only [State.setGuard_guard, State.setWires_guard, State.setPointers_guard]
    rfl
  · refine State.announceRange_frame _ _ (State.askState_frame _ _ (State.setPointers_frame _ _ (State.setClip_frame _ (State.setEvent_frame _ _
      (State.setPlan_frame _ _ (Frame.refl _ s) ?_) ?_) ?_) ?_) ?_) ?_ <;> decide

/-- The branches of the allocation test (R113). -/
theorem State.allocate_of {s : State} {i n : Nat} {p : Plan} {r : Region} (plan : s.clip.plans[i]? = some (some p))
    (count : n = 1 + (p.clips.map fun c => c.sels.length).sum) (region : r = s.regionFor n) : s.allocate i =
      if s.gen.clipSize / 512 < n then s.endForLack i p
      else if r.skip + n ≤ s.gen.clipSize / 512 - s.clip.used then s.takeRegion i p r
      else if s.attend.unattended then (s.setCopier (.allocating i)).setReport fun x => { x with reclaim := true }
      else s.endForLack i p := by
  unfold State.allocate
  simp only [State.plan_of plan]
  rw [region, count]
  rfl

/-- Settles O50. -/
theorem allocationTest : Obligations.AllocationTest := by
  unfold Obligations.AllocationTest
  intro i n units p r s t plan count unitsIs tIs regionIs
  have region : r = s.regionFor n := by
    rw [regionIs, unitsIs]
    rfl
  have test := State.allocate_of plan count region
  rw [← tIs, ← unitsIs] at test
  refine ⟨fun fits room => ?takes, fun fits full unattended => ?waits, fun lacks => ?lacks⟩
  case takes =>
    rw [if_neg (Nat.not_lt.2 fits), if_pos room] at test
    obtain ⟨v, come, taken⟩ := State.takeRegion_takes plan r
    have tCome : t = v.comeTo i 0 := test.trans come
    have rUnits : r.units = n := by
      rw [regionIs]
      split <;> rfl
    obtain ⟨c, copier⟩ := v.comeTo_copier i 0
    have tIs : t = v.setCopier c := tCome.trans copier
    have gen : v.gen = s.gen := State.gen_congr (taken.frame .control (by decide))
    have vPlan : v.clip.plans[i]? = some (some { p with region := some r }) := by
      rw [taken.clip]
      exact List.getElem?_set_self (List.getElem?_eq_some_iff.1 plan).1
    have clip : t.clip = { v.clip with copier := c } := by rw [tIs]; rfl
    have frame : Frame [.assoc, .clip, .guard, .writer, .wires] s t := by
      rw [tIs]
      exact State.setCopier_frame _ taken.frame (by decide)
    rw [clip, taken.clip, rUnits, ← unitsIs]
    refine ⟨rfl, rfl, rfl, rfl, rfl, rfl, rfl, ?assoc, ?wires, ?guard, fun c' cs x xs clips sels => ?comes, fun e empty event => ?directory,
      frame⟩
    case assoc => rw [tIs, State.setCopier_assoc, taken.assoc, rUnits]
    case wires => rw [tIs, State.setCopier_wires, taken.wires]
    case guard => rw [tIs, State.setCopier_guard, taken.guard, rUnits]
    case comes =>
      have place : selectionAt 0 0 ({ p with region := some r } : Plan).clips = some (0, c', x) := by
        rw [show ({ p with region := some r } : Plan).clips = c' :: cs from clips]
        exact selectionAt_front sels
      refine ⟨fun stands => ?_, fun cut => ?_⟩
      · have same := copier.symm.trans (State.comeTo_check vPlan place stands)
        rw [gen] at same
        exact congrArg (fun t : State => t.clip.copier) same
      · have same := copier.symm.trans (State.comeTo_cut vPlan place cut)
        unfold State.writeVoid State.unitAddr at same
        rw [gen] at same
        exact congrArg (fun t : State => t.clip.copier) same
    case directory =>
      have vEvent : v.assoc.events[i]? = some (some { e with clipUnits := some (r.first, r.units) }) := by
        rw [taken.assoc]
        show (s.assoc.events.modify i _)[i]? = _
        rw [List.getElem?_modify_eq, event]
        rfl
      have same := copier.symm.trans (State.comeTo_end vPlan (selectionAt_none empty) vEvent rfl)
      rw [gen] at same
      exact ⟨_, rfl, directoryBytes_layout _ _ _, congrArg (fun t : State => t.clip.copier) same⟩
  case waits =>
    rw [if_neg (Nat.not_lt.2 fits), if_neg (Nat.not_le.2 full), if_pos unattended] at test
    rw [test]
    exact ⟨rfl, rfl, State.setReport_frame _ (State.setCopier_frame _ (Frame.refl _ s) (by decide)) (by decide)⟩
  case lacks =>
    have ended : t = s.endForLack i p := by
      rw [test]
      rcases lacks with large | ⟨full, attended⟩
      · exact if_pos large
      · rw [if_neg (Nat.not_le.2 full), attended]
        exact ite_self _
    rw [ended]
    exact State.endForLack_lacks i p s plan

end Sys2Proof.Machine
end

section
/-! SUPPORT. Closing an event: the plan of its clip, and the copy queue (R98, R99, R104, R105, R111). -/
namespace Sys2Proof.Machine

/-! ### Flags (R104) -/

theorem flagIf_getLsbD (c : Bool) (f : BitVec 8) (i : Nat) : (flagIf c f).getLsbD i = (c && f.getLsbD i) := by
  cases c <;> simp [flagIf]

theorem foldl_or_getLsbD {α : Type} (g : α → BitVec 8) (l : List α) (a : BitVec 8) (i : Nat) :
    (l.foldl (fun f e => f ||| g e) a).getLsbD i = (a.getLsbD i || l.any fun e => (g e).getLsbD i) := by
  induction l generalizing a with
  | nil => simp
  | cons x l ih => rw [List.foldl_cons, ih, BitVec.getLsbD_or, List.any_cons, Bool.or_assoc]

/-- A complete selection: HEAD_SHORT when every selection begins after the window's start (R105). -/
theorem StationClip.complete_eq (winStart : Nat) (c : StationClip) : c.complete winStart = { c with
    flags := c.flags ||| if c.sels.head?.all (fun z => decide (winStart < z.first)) then 1 else 0 } := by
  obtain ⟨st, awaiting, flags, cuts, sels⟩ := c
  unfold StationClip.complete
  cases sels with
  | nil => rfl
  | cons x xs =>
    by_cases late : winStart < x.first
    · simp [late, StationClip.flag]
    · simp [late]

/-- In ascending order the first selection stands for all. -/
theorem head_late_iff {winStart : Nat} {xs : List Selection} (ordered : xs.Pairwise fun a b => a.first ≤ b.first) :
    xs.head?.all (fun z => decide (winStart < z.first)) = true ↔ ∀ x ∈ xs, winStart < x.first := by
  cases xs with
  | nil => simp
  | cons y ys =>
    rw [List.pairwise_cons] at ordered
    simp only [List.head?_cons, Option.all_some, decide_eq_true_iff, List.forall_mem_cons]
    exact ⟨fun late => ⟨late, fun x listed => late.trans_le (ordered.1 x listed)⟩, fun late => late.1⟩

/-! ### The clip of a station (R105) -/

section
variable {noWait : Bool} {period winStart winEnd st : Nat} {trail met : List TrailEntry} {c : StationClip}

theorem TrailEntry.meets_eq (period winStart winEnd : Nat) : TrailEntry.meets period winStart winEnd =
    fun x => decide (x.first ≤ winEnd ∧ winStart < sampleTime (x.first + x.count * period)) := by
  funext x
  unfold TrailEntry.meets spanEnd
  rw [Bool.decide_and]

/-- The selections of a station-clip (R104, R105). -/
theorem planStation_selects (cIs : c = planStation noWait period winStart winEnd st trail)
    (metIs : met = trail.filter fun x => decide (x.first ≤ winEnd ∧ winStart < sampleTime (x.first + x.count * period))) :
    c.station = st ∧ c.cutCount = 0 ∧ c.sels = sortBy (fun x => x.first) ((met.take 128).map TrailEntry.select) := by
  rw [cIs, metIs, ← TrailEntry.meets_eq]
  unfold planStation
  dsimp only
  split
  · exact ⟨rfl, rfl, rfl⟩
  · rw [StationClip.complete_eq]
    exact ⟨rfl, rfl, rfl⟩

/-- Whether all that a station has stored ends within the window (R105). -/
theorem planStation_lacks (sels : c.sels = sortBy (fun x => x.first) ((met.take 128).map TrailEntry.select)) :
    (!decide (128 < met.length) && !covered period winEnd c.sels) = true ↔
      met.length ≤ 128 ∧ ∀ x ∈ met, sampleTime (x.first + x.count * period) ≤ winEnd := by
  rw [Bool.and_eq_true, Bool.not_eq_true', decide_eq_false_iff_not, Nat.not_lt]
  refine and_congr_right fun few => ?_
  rw [sels, List.take_of_length_le few, Bool.not_eq_true', covered, List.any_eq_false]
  constructor
  · intro ends x listed
    have := ends _ ((sortBy_perm _ _).mem_iff.2 (List.mem_map.2 ⟨x, listed, rfl⟩))
    exact Nat.not_lt.1 fun later => this (decide_eq_true later)
  · intro ends z listed
    obtain ⟨x, there, rfl⟩ := List.mem_map.1 ((sortBy_perm _ _).mem_iff.1 listed)
    exact fun later => Nat.not_lt.2 (ends x there) (of_decide_eq_true later)

/-- The wait and the flags of a station-clip (R104, R105, R108). -/
theorem planStation_flags {lacks : Bool} (cIs : c = planStation noWait period winStart winEnd st trail)
    (metIs : met = trail.filter fun x => decide (x.first ≤ winEnd ∧ winStart < sampleTime (x.first + x.count * period)))
    (lacksIs : lacks = (!decide (128 < met.length) && !covered period winEnd c.sels)) :
    c.awaiting = (lacks && !noWait) ∧ c.flags = (met.take 128).foldl (fun f e => f ||| e.flags winStart) (flagIf (decide (128 < met.length)) 4) |||
      flagIf (lacks && noWait) 4 ||| flagIf (!c.awaiting && c.sels.head?.all fun z => decide (winStart < z.first)) 1 := by
  obtain ⟨-, -, sels⟩ := planStation_selects cIs metIs
  rw [sels] at lacksIs ⊢
  rw [← TrailEntry.meets_eq] at metIs
  rw [cIs]
  unfold planStation
  dsimp only
  rw [← metIs, ← lacksIs]
  cases waits : (lacks && !noWait) with
  | true =>
    rw [if_pos rfl]
    refine ⟨rfl, ?_⟩
    simp [flagIf]
  | false =>
    rw [if_neg Bool.false_ne_true, StationClip.complete_eq]
    refine ⟨rfl, ?_⟩
    rfl

/-- The plan of one station (R104, R105). -/
theorem planStation_plans (cIs : c = planStation noWait period winStart winEnd st trail)
    (metIs : met = trail.filter fun x => decide (x.first ≤ winEnd ∧ winStart < sampleTime (x.first + x.count * period))) :
    c.cutCount = 0 ∧ c.sels.Pairwise (fun a b => a.first ≤ b.first) ∧
      c.sels.Perm ((met.take 128).map fun x => ⟨x.slot, x.gen, x.first, x.count, .pinned, false⟩) ∧
      (c.awaiting = true ↔ ¬ noWait = true ∧ met.length ≤ 128 ∧ ∀ x ∈ met, sampleTime (x.first + x.count * period) ≤ winEnd) ∧
      (c.flags.getLsbD 0 = true ↔ c.awaiting = false ∧ ∀ x ∈ c.sels, winStart < x.first) ∧
      (c.flags.getLsbD 1 = true ↔ ∃ x ∈ met.take 128, x.brk = true ∧ winStart < x.first) ∧
      (c.flags.getLsbD 2 = true ↔ 128 < met.length ∨ noWait = true ∧ ∀ x ∈ met, sampleTime (x.first + x.count * period) ≤ winEnd) ∧
      c.flags.getLsbD 3 = false ∧ c.flags.getLsbD 4 = false ∧ c.flags.getLsbD 7 = false ∧
      (c.flags.getLsbD 5 = true ↔ ∃ x ∈ met.take 128, x.timeUnsure = true) ∧
      (c.flags.getLsbD 6 = true ↔ ∃ x ∈ met.take 128, x.clipped = true) := by
  obtain ⟨-, cuts, sels⟩ := planStation_selects cIs metIs
  have lacks := planStation_lacks (winEnd := winEnd) (period := period) sels
  obtain ⟨awaiting, flags⟩ := planStation_flags cIs metIs rfl
  generalize (!decide (128 < met.length) && !covered period winEnd c.sels) = l at lacks awaiting flags
  have ordered : c.sels.Pairwise fun a b => a.first ≤ b.first := by
    rw [sels]
    exact sortBy_ordered _ _
  have bits (i : Nat) : c.flags.getLsbD i = ((decide (128 < met.length) && (4 : BitVec 8).getLsbD i ||
      (met.take 128).any (fun e => (e.flags winStart).getLsbD i)) || (l && noWait && (4 : BitVec 8).getLsbD i) ||
      (!c.awaiting && (c.sels.head?.all fun z => decide (winStart < z.first)) && (1 : BitVec 8).getLsbD i)) := by
    rw [flags, BitVec.getLsbD_or, BitVec.getLsbD_or, foldl_or_getLsbD, flagIf_getLsbD, flagIf_getLsbD, flagIf_getLsbD]
  have entryBits (e : TrailEntry) (i : Nat) : (e.flags winStart).getLsbD i = (e.brk && decide (winStart < e.first) && (2 : BitVec 8).getLsbD i ||
      e.timeUnsure && (32 : BitVec 8).getLsbD i || e.clipped && (64 : BitVec 8).getLsbD i) := by
    unfold TrailEntry.flags
    rw [BitVec.getLsbD_or, BitVec.getLsbD_or, flagIf_getLsbD, flagIf_getLsbD, flagIf_getLsbD]
  simp only [entryBits] at bits
  refine ⟨cuts, ordered, ?_, ?_, ?_, ?_, ?_, ?_, ?_, ?_, ?_, ?_⟩
  · rw [sels]
    exact sortBy_perm _ _
  · rw [awaiting, Bool.and_eq_true, lacks, and_comm, Bool.not_eq_true', Bool.not_eq_true]
  · rw [← head_late_iff ordered, bits]
    simp
  · rw [bits]
    simp
  · rw [bits]
    simp only [Bool.or_eq_true, Bool.and_eq_true, decide_eq_true_iff, lacks]
    simp
    constructor
    · rintro (full | ⟨⟨-, ends⟩, never⟩)
      · exact .inl full
      · exact .inr ⟨never, ends⟩
    · rintro (full | ⟨never, ends⟩)
      · exact .inl full
      · rcases Nat.lt_or_ge 128 met.length with full | few
        · exact .inl full
        · exact .inr ⟨⟨few, ends⟩, never⟩
  · rw [bits]
    simp
  · rw [bits]
    simp
  · rw [bits]
    simp
  · rw [bits]
    simp
  · rw [bits]
    simp

end

/-! ### The plan of an event (R98, R105) -/

/-- The stations of a plan: the enabled members of the zone, in ascending order (R105). -/
theorem State.mem_stationSet {s : State} {z : Nat} {zone : Zone} (zoneIs : s.zone z = some zone) (st : Nat) :
    st ∈ s.stationSet z ↔ st ∈ zone.members ∧ ∃ y, s.station st = some y ∧ y.enabled = true := by
  unfold State.stationSet
  simp only [zoneIs]
  rw [(sortBy_perm _ _).mem_iff, List.mem_filter]
  refine and_congr_right fun _ => ?_
  cases s.station st <;> simp

theorem State.stationSet_ordered (z : Nat) (s : State) : (s.stationSet z).Pairwise fun a b => a ≤ b := by
  unfold State.stationSet
  split
  · exact sortBy_ordered id _
  · exact List.Pairwise.nil

/-! ### The copy queue (R111) -/

theorem State.runQueue_busy {s : State} (busy : s.clip.copier ≠ .idle) (n : Nat) : s.runQueue n = s := by
  cases n with
  | zero => rfl
  | succ n =>
    unfold State.runQueue
    split
    next idle _ => exact absurd idle busy
    next => rfl

/-- While a job runs, an event only joins the queue (R111). -/
theorem State.enqueue_busy {s : State} (busy : s.clip.copier ≠ .idle) (ev : Nat) :
    s.enqueue ev = { s with clip := { s.clip with queue := s.clip.queue ++ [ev] } } :=
  State.runQueue_busy (s := s.setClip fun c => { c with queue := c.queue ++ [ev] }) busy _

/-- The IDLE copier with an empty queue begins the job of the event that enters it (R111). -/
theorem State.enqueue_idle {s : State} {i : Nat} {e : Event} (idle : s.clip.copier = .idle) (empty : s.clip.queue = [])
    (event : s.eventAt i e) : s.enqueue e.number = s.allocate i := by
  unfold State.enqueue State.runJobs
  have joined : (s.setClip fun c => { c with queue := c.queue ++ [e.number] }).clip.queue = [e.number] := by
    show s.clip.queue ++ [e.number] = _
    rw [empty]
    rfl
  have back : (s.setClip fun c => { c with queue := c.queue ++ [e.number] }).setClip (fun c => { c with queue := [] }) = s := by
    show ({ s with clip := { s.clip with queue := [] } } : State) = s
    rw [← empty]
  have found : s.findEvent e.number = some (i, e) := State.findEvent_at s i e event.1 event.2
  rw [joined]
  show State.runQueue 1 _ = _
  unfold State.runQueue
  simp only [joined]
  rw [show (s.setClip fun c => { c with queue := c.queue ++ [e.number] }).clip.copier = .idle from idle]
  simp only [back, found]
  rfl

/-! ### Closing (R98, R99) -/

theorem State.setEvent_set {s : State} {i : Nat} {e : Event} (event : s.assoc.events[i]? = some (some e)) (f : Event → Event) :
    s.setEvent i f = { s with assoc := { s.assoc with events := s.assoc.events.set i (some (f e)) } } := by
  show ({ s with assoc := { s.assoc with events := s.assoc.events.modify i (·.map f) } } : State) = _
  rw [modify_eq_set event]
  rfl

theorem exec_closeDeadline {s : State} {i : Nat} {e : Event} (event : s.eventAt i e) (gathering : e.state = .gathering) :
    exec (.closeDeadline e.number) s = if reached s.now e.closeDeadline then done (s.closeEvent i e .window) else nothing s := by
  have found : s.findEvent e.number = some (i, e) := State.findEvent_at s i e event.1 event.2
  show execCloseDeadline e.number s = _
  unfold execCloseDeadline
  simp only [found, gathering, true_and]

/-- A closing event with its plan (R98, R99, R105), handed over: it waits for a tail, or enters the copy queue. -/
theorem State.closeEvent_hands {s s0 : State} {i : Nat} {e e' : Event} {reason : CloseReason} {p : Plan} (event : s.assoc.events[i]? = some (some e))
    (pIs : p = s.makePlan e) (eIs : e' = { e with
      closeDeadline := none, reason := some reason, closedAt := some s.time.count
      state := if p.tail.isSome then .waitingTail else .copyQueued })
    (s0Is : s0 = { s with
      assoc := { s.assoc with events := s.assoc.events.set i (some e') }, clip := { s.clip with plans := s.clip.plans.set i (some p) }
      wires := { s.wires with pins := s.wires.pins ++ p.pins } }) :
    s.closeEvent i e reason = if p.tail.isSome then s0 else s0.enqueue e.number := by
  unfold State.closeEvent
  dsimp only
  rw [← pIs, State.setEvent_set event, s0Is, eIs]
  rfl

/-- New records of the Associator, of the clips and of the wires, as a frame. -/
theorem Frame.clipRecords (s : State) (a : Assoc) (c : Clip) (w : Wires) :
    Frame [.assoc, .clip, .wires] s { s with assoc := a, clip := c, wires := w } :=
  State.setWires_frame (fun _ => w) (State.setClip_frame (fun _ => c) (State.setAssoc_frame (fun _ => a) (Frame.refl _ s) (by decide))
    (by decide)) (by decide)

/-- Settles O49. -/
theorem eventCloses : Obligations.EventCloses := by
  unfold Obligations.EventCloses
  intro i d e u zone s w0 w1 noWait at_ unique gathering deadline_ setup zoneIs w0Is w1Is noWaitIs
  have close := exec_closeDeadline ⟨at_, unique⟩ gathering
  rw [deadline_] at close
  have gen : s.gen = u.gen := by
    unfold State.gen
    rw [setup]
  have zoneAt : s.zone e.zone = some zone := by
    unfold State.zone
    rw [setup]
    exact zoneIs
  have stationAt (st : Nat) : s.station st = u.stations[st]? := by
    unfold State.station
    rw [setup]
  have never : noWait ↔ (s.clip.draining || s.gen.tailWait == 0) = true := by
    rw [noWaitIs, gen, Bool.or_eq_true, beq_iff_eq]
  refine ⟨fun early => ?early, fun due => ?due⟩
  case early => exact close.trans (if_neg fun h => Nat.not_lt.2 (of_decide_eq_true h) early)
  case due =>
    rw [if_pos (show reached s.now (some d) = true from decide_eq_true due)] at close
    generalize pIs : s.makePlan e = p
    have clips : p.clips = (s.stationSet e.zone).map fun st => planStation (s.clip.draining || s.gen.tailWait == 0) (s.periodOf st) w0 w1 st
        (s.trail st) := by
      rw [← pIs, w0Is, w1Is, ← gen]
      rfl
    have tail : p.tail = if ∃ c ∈ p.clips, c.awaiting = true then some (min (s.time.count + u.gen.tailWait * 1000) (2 ^ 48 - 1)) else none := by
      rw [← pIs, ← gen]
      unfold State.makePlan
      dsimp only
      by_cases waits : ∃ c ∈ ((s.stationSet e.zone).map fun st => planStation (s.clip.draining || s.gen.tailWait == 0) (s.periodOf st)
          (e.anchor - s.gen.pre * 1000) (sampleTime (e.last + s.gen.post * 1000)) st (s.trail st)), c.awaiting = true
      · exact (if_pos (List.any_eq_true.2 waits)).trans (if_pos waits).symm
      · exact (if_neg (List.any_eq_true.not.2 waits)).trans (if_neg waits).symm
    have tailSome : p.tail.isSome = true ↔ ∃ c ∈ p.clips, c.awaiting = true := by
      rw [tail]
      split
      next waits => exact ⟨fun _ => waits, fun _ => rfl⟩
      next rests => exact ⟨fun h => (Bool.false_ne_true h).elim, fun h => absurd h rests⟩
    have hands := State.closeEvent_hands (reason := .window) at_ pIs.symm rfl rfl
    generalize e'Is : ({ e with
      closeDeadline := none, reason := some CloseReason.window, closedAt := some s.time.count
      state := if p.tail.isSome then EventState.waitingTail else .copyQueued } : Event) = e' at hands
    generalize s0Is : ({ s with
      assoc := { s.assoc with events := s.assoc.events.set i (some e') }, clip := { s.clip with plans := s.clip.plans.set i (some p) }
      wires := { s.wires with pins := s.wires.pins ++ p.pins } } : State) = s0 at hands
    rw [hands] at close
    have frame0 : Frame [.assoc, .clip, .wires] s s0 := by
      rw [← s0Is]
      exact Frame.clipRecords s _ _ _
    refine ⟨_, s0, p, e', close, ?handed, ?event, ?number, ?winStart, ?winEnd, ?region, ?flags, tail, fun st => ?stations, ?ordered,
      fun c si y met listed record entry metIs => ?clip, fun waits => ?waits, fun queued busy => ?busy, fun queued idle empty => ?idle⟩
    case event =>
      rw [← e'Is]
      by_cases waits : ∃ c ∈ p.clips, c.awaiting = true
      · rw [if_pos waits, if_pos (tailSome.2 waits)]
      · rw [if_neg waits, if_neg (tailSome.not.2 waits)]
    case handed =>
      have pins : p.pins = (p.clips.map fun c => c.sels.map fun x => PinMsg.pin e.number c.station x.slot x.gen).flatten := by
        rw [← pIs]
        rfl
      rw [← s0Is, pins]
    case number => rw [← pIs]; rfl
    case winStart => rw [← pIs, w0Is, ← gen]; rfl
    case winEnd => rw [← pIs, w1Is, ← gen]; rfl
    case region => rw [← pIs]; rfl
    case flags => rw [← pIs]; rfl
    case stations =>
      rw [← stationAt, ← State.mem_stationSet zoneAt, clips]
      constructor
      · rintro ⟨c, listed, rfl⟩
        obtain ⟨st, there, rfl⟩ := List.mem_map.1 listed
        rwa [(planStation_selects rfl rfl).1]
      · intro there
        exact ⟨_, List.mem_map.2 ⟨st, there, rfl⟩, (planStation_selects rfl rfl).1⟩
    case ordered =>
      rw [clips, List.pairwise_map]
      refine (s.stationSet_ordered e.zone).imp fun le => ?_
      rwa [(planStation_selects rfl rfl).1, (planStation_selects rfl rfl).1]
    case clip =>
      rw [clips] at listed
      obtain ⟨st, there, cIs⟩ := List.mem_map.1 listed
      have same : c.station = st := by rw [← cIs, (planStation_selects rfl rfl).1]
      have period : s.periodOf st = 1000000 / y.sampleRate := by
        unfold State.periodOf
        rw [stationAt, ← same, entry]
        rfl
      have trail : s.trail st = si.trail := by
        unfold State.trail
        rw [← same, record]
      rw [period, trail] at cIs
      have plans := planStation_plans cIs.symm metIs
      simp only [← never] at plans
      exact plans
    case waits =>
      have waiting : p.tail.isSome = true := by
        by_contra rests
        rw [← e'Is] at waits
        have := (if_neg rests).symm.trans waits
        cases this
      rw [if_pos waiting]
      exact ⟨rfl, rfl, rfl, State.settle_frame (frame0.mono (by decide)) (by decide)⟩
    all_goals
      have rests : ¬ p.tail.isSome = true := by
        intro waiting
        rw [← e'Is] at queued
        have := (if_pos waiting).symm.trans queued
        cases this
      rw [if_neg rests]
    case busy =>
      have enqueued := State.enqueue_busy (s := s0) (by rw [← s0Is]; exact busy) e.number
      have framed : Frame [.assoc, .clip, .wires, .writer] s (s0.enqueue e.number) := by
        rw [enqueued]
        exact State.setClip_frame (fun c => { c with queue := c.queue ++ [e.number] }) (frame0.mono (by decide)) (by decide)
      refine ⟨?_, ?_, ?_, State.settle_frame framed (by decide)⟩
      · rw [State.settle_assoc, enqueued]
      · rw [State.settle_clip, enqueued, ← s0Is]
      · rw [State.settle_wires, enqueued]
    case idle =>
      have number : e'.number = e.number := by rw [← e'Is]
      have standing : s0.eventAt i e' := by
        rw [← s0Is]
        refine ⟨List.getElem?_set_self (List.getElem?_eq_some_iff.1 at_).1, fun j e'' there same => ?_⟩
        by_cases here : j = i
        · exact here
        · refine unique j e'' ?_ (same.trans number)
          rwa [List.getElem?_set_ne (Ne.symm here)] at there
      rw [← number, State.enqueue_idle (by rw [← s0Is]; exact idle) (by rw [← s0Is]; exact empty) standing]

end Sys2Proof.Machine
end

section
/-! SUPPORT. The copier at a selection, and refusals and cuts at the plans (R106, R107, R115, R116). -/
namespace Sys2Proof.Machine

/-! ### The selection at a place (R104, R115) -/

theorem modifySelection_split (f : Selection → Selection) (g : StationClip → StationClip) {cs ds : List StationClip} {c : StationClip}
    {m : Nat} {x : Selection} (at_ : c.sels[m]? = some x) : modifySelection f g ((cs.map fun c => c.sels.length).sum + m) (cs ++ c :: ds) =
      cs ++ { g c with sels := c.sels.set m (f x) } :: ds := by
  induction cs with
  | nil =>
    have small : m < c.sels.length := (List.getElem?_eq_some_iff.1 at_).1
    show modifySelection f g (0 + m) (c :: ds) = _
    unfold modifySelection
    rw [Nat.zero_add, if_pos small, modify_eq_set at_]
    rfl
  | cons d cs ih =>
    have behind : ¬ ((d :: cs).map fun c => c.sels.length).sum + m < d.sels.length := by
      rw [List.map_cons, List.sum_cons]
      omega
    have rest : ((d :: cs).map fun c => c.sels.length).sum + m - d.sels.length = (cs.map fun c => c.sels.length).sum + m := by
      rw [List.map_cons, List.sum_cons]
      omega
    rw [List.cons_append]
    unfold modifySelection
    rw [if_neg behind, rest, ih]
    rfl

/-- The selection `x` stands at place `m` of the station-clip `c` of the plan in slot `i`, which has a region: place `k` of the plan. -/
structure AtSelection (s : State) (i k : Nat) (p : Plan) (r : Region) (cs : List StationClip) (c : StationClip) (ds : List StationClip) (m : Nat)
    (x : Selection) : Prop where
  plan : s.clip.plans[i]? = some (some p)
  region : p.region = some r
  clips : p.clips = cs ++ c :: ds
  sel : c.sels[m]? = some x
  place : k = (cs.map fun c => c.sels.length).sum + m

section
variable {s : State} {i k m burst : Nat} {p : Plan} {r : Region} {cs ds : List StationClip} {c : StationClip} {x : Selection} {data : List Byte}
  (h : AtSelection s i k p r cs c ds m x)
include h

theorem AtSelection.selection : selectionAt 0 k p.clips = some (cs.length, c, x) := by
  rw [h.clips, h.place, selectionAt_split cs ds c m x h.sel 0, Nat.zero_add]

/-- A changed selection, with its station-clip. -/
theorem AtSelection.setSelection (f : Selection → Selection) (g : StationClip → StationClip) :
    (s.setPlan i fun q => { q with clips := modifySelection f g k q.clips }) = { s with clip := { s.clip with
      plans := s.clip.plans.set i (some { p with clips := cs ++ { g c with sels := c.sels.set m (f x) } :: ds }) } } := by
  rw [State.setPlan_set h.plan, h.clips, h.place, modifySelection_split f g h.sel]

theorem AtSelection.cutFlagAt : s.cutFlagAt i k = x.cutFlag := by
  unfold State.cutFlagAt
  simp only [State.plan_of h.plan, h.selection]

theorem AtSelection.unitAddr (t : State) (gen : t.gen = s.gen) : t.unitAddr p k = s.gen.clipBase + 512 * (r.first + 1 + k) := by
  unfold State.unitAddr
  rw [h.region, gen]

/-- The end of the reads with an error (R116). -/
theorem AtSelection.endReads_memerr : s.endReads i k burst data true = { s with
    clip := { s.clip with
      copier := .unit i k (.writing (s.gen.clipBase + 512 * (r.first + 1 + k)) [voidHeader p.event c.station x x.cutFlag true])
      plans := s.clip.plans.set i (some { p with clips := cs ++ { c with
        flags := c.flags ||| 16, sels := c.sels.set m { x with status := if x.cutFlag then .cut else .memerr } } :: ds }) }
    wires := { s.wires with pins := if x.cutFlag then s.wires.pins else s.wires.pins ++ [.unpin x.slot x.gen] } } := by
  have unpinned : s.unpinRead x = { s with wires := { s.wires with
      pins := if x.cutFlag then s.wires.pins else s.wires.pins ++ [.unpin x.slot x.gen] } } := by
    unfold State.unpinRead
    split <;> rfl
  have h' : AtSelection (s.unpinRead x) i k p r cs c ds m x := ⟨by rw [unpinned]; exact h.plan, h.region, h.clips, h.sel, h.place⟩
  unfold State.endReads
  simp only [State.plan_of h.plan, h.selection, if_true]
  rw [h'.setSelection]
  unfold State.writeVoid
  rw [h.unitAddr, unpinned]
  · rfl
  · rw [unpinned]
    rfl

/-- The end of the reads of a selection cut meanwhile (R116). -/
theorem AtSelection.endReads_cut (cut : x.cutFlag = true) : s.endReads i k burst data false = { s with
    clip := { s.clip with
      copier := .unit i k (.writing (s.gen.clipBase + 512 * (r.first + 1 + k)) [voidHeader p.event c.station x true false])
      plans := s.clip.plans.set i (some { p with clips := cs ++ { c with sels := c.sels.set m { x with status := .cut } } :: ds }) } } := by
  unfold State.endReads
  simp only [State.plan_of h.plan, h.selection]
  refine Eq.trans ((if_neg Bool.false_ne_true).trans (if_pos cut)) ?_
  rw [h.setSelection]
  unfold State.writeVoid
  rw [h.unitAddr]
  · rfl
  · rfl

/-- The end of the reads of a selection that is whole (R115). -/
theorem AtSelection.endReads_whole (whole : x.cutFlag = false) : s.endReads i k burst data false = { s with
    clip := { s.clip with
      copier := .unit i k (.writing (s.gen.clipBase + 512 * (r.first + 1 + k)) (chunksOf (8 * burst) (64 / burst) data))
      plans := s.clip.plans.set i (some { p with clips := cs ++ { c with sels := c.sels.set m { x with status := .copied } } :: ds }) }
    wires := { s.wires with pins := s.wires.pins ++ [.unpin x.slot x.gen] } } := by
  have unpinned : s.unpinRead x = { s with wires := { s.wires with pins := s.wires.pins ++ [.unpin x.slot x.gen] } } := by
    unfold State.unpinRead
    rw [whole]
    rfl
  have h' : AtSelection (s.unpinRead x) i k p r cs c ds m x := ⟨by rw [unpinned]; exact h.plan, h.region, h.clips, h.sel, h.place⟩
  unfold State.endReads
  simp only [State.plan_of h.plan, h.selection]
  refine Eq.trans ((if_neg Bool.false_ne_true).trans (if_neg (by simp [whole]))) ?_
  rw [h'.setSelection, h.unitAddr s rfl, unpinned]
  rfl

end

/-! ### Refused pins (R106) -/

/-- The selection whose pin is refused, while it is PINNED (R106). -/
def RefusedPin.hits (r : RefusedPin) (x : Selection) : Bool := x.slot == r.slot && x.gen == r.gen && x.status == .pinned

theorem StationClip.refused_eq (r : RefusedPin) (c : StationClip) : c.refused r = if c.station = r.station ∧ c.sels.any r.hits then { c with
    cutCount := c.cutCount + 1, flags := c.flags ||| 8, sels := c.sels.map fun x => if r.hits x then x.makeCut else x } else c := rfl

section
variable {r : RefusedPin} {c : StationClip} {hit : Selection → Prop} (hits : ∀ x, hit x ↔ x.slot = r.slot ∧ x.gen = r.gen ∧ x.status = .pinned)
include hits

theorem refused_hit (x : Selection) : r.hits x = true ↔ hit x := by
  unfold RefusedPin.hits
  rw [hits]
  simp only [Bool.and_eq_true, beq_iff_eq, and_assoc]

theorem StationClip.refused_other (other : c.station ≠ r.station ∨ ∀ x ∈ c.sels, ¬ hit x) : c.refused r = c := by
  rw [StationClip.refused_eq]
  refine if_neg fun ⟨same, some_⟩ => ?_
  obtain ⟨x, listed, isHit⟩ := List.any_eq_true.1 some_
  rcases other with other | none_
  · exact other same
  · exact none_ x listed ((refused_hit hits x).1 isHit)

/-- A refused pin cuts the selection while it is PINNED (R106). -/
theorem StationClip.refused_hits (same : c.station = r.station) (some_ : ∃ x ∈ c.sels, hit x) :
    c.refused r = { c with cutCount := c.cutCount + 1, flags := c.flags ||| 8, sels := (c.refused r).sels } ∧
      (c.refused r).sels.length = c.sels.length ∧
      ∀ (k : Nat) (x : Selection), c.sels[k]? = some x → ∃ x' : Selection, (c.refused r).sels[k]? = some x' ∧ (¬ hit x → x' = x) ∧
        (hit x → x' = { x with status := .cut }) := by
  have any : c.sels.any r.hits = true := by
    obtain ⟨x, listed, isHit⟩ := some_
    exact List.any_eq_true.2 ⟨x, listed, (refused_hit hits x).2 isHit⟩
  have is := (StationClip.refused_eq r c).trans (if_pos ⟨same, any⟩)
  have sels : (c.refused r).sels = c.sels.map fun x => if r.hits x then x.makeCut else x := by rw [is]
  refine ⟨?_, ?_, fun k x at_ => ⟨if r.hits x then x.makeCut else x, ?_, fun misses => ?_, fun isHit => ?_⟩⟩
  · rw [sels]
    exact is
  · rw [sels, List.length_map]
  · rw [sels, List.getElem?_map, at_]
    rfl
  · exact if_neg fun isHit => misses ((refused_hit hits x).1 isHit)
  · exact if_pos ((refused_hit hits x).2 isHit)

end

/-! ### Cuts announced (R107) -/

/-- A selection that an announced cut reaches: PINNED or READING in the slot and generation (R107). -/
def Selection.cutBy (n gen : Nat) (x : Selection) : Bool := x.slot == n && x.gen == gen && (x.status == .pinned || x.status == .reading)

section
variable {n gen : Nat} {c : StationClip} {hit : Selection → Prop} (hits : ∀ x, hit x ↔ x.slot = n ∧ x.gen = gen)

theorem StationClip.cutBy_eq : c.cutBy n gen = if (c.sels.filter (Selection.cutBy n gen)).length = 0 then c else { c with
    cutCount := c.cutCount + (c.sels.filter (Selection.cutBy n gen)).length, flags := c.flags ||| 8
    sels := c.sels.map fun x => if x.cutBy n gen then (if x.status = .reading then { x with cutFlag := true } else x.makeCut) else x } := rfl

include hits

theorem Selection.cutBy_iff (x : Selection) : x.cutBy n gen = true ↔ hit x ∧ (x.status = .pinned ∨ x.status = .reading) := by
  unfold Selection.cutBy
  rw [hits]
  simp only [Bool.and_eq_true, Bool.or_eq_true, beq_iff_eq]

theorem StationClip.cutBy_none (none_ : ∀ x ∈ c.sels, hit x → x.status ≠ .pinned ∧ x.status ≠ .reading) : c.cutBy n gen = c := by
  rw [StationClip.cutBy_eq, if_pos]
  rw [List.length_eq_zero_iff, List.filter_eq_nil_iff]
  intro x listed cut
  obtain ⟨isHit, status⟩ := (Selection.cutBy_iff hits x).1 cut
  obtain ⟨notPinned, notReading⟩ := none_ x listed isHit
  exact status.elim notPinned notReading

theorem StationClip.cutBy_some (some_ : ∃ x ∈ c.sels, hit x ∧ (x.status = .pinned ∨ x.status = .reading)) : c.cutBy n gen = { c with
    cutCount := c.cutCount + (c.sels.filter (Selection.cutBy n gen)).length, flags := c.flags ||| 8
    sels := c.sels.map fun x => if x.cutBy n gen then (if x.status = .reading then { x with cutFlag := true } else x.makeCut) else x } ∧
    0 < (c.sels.filter (Selection.cutBy n gen)).length := by
  have pos : 0 < (c.sels.filter (Selection.cutBy n gen)).length := by
    obtain ⟨x, listed, cut⟩ := some_
    exact List.length_pos_of_mem (List.mem_filter.2 ⟨listed, (Selection.cutBy_iff hits x).2 cut⟩)
  exact ⟨StationClip.cutBy_eq.trans (if_neg (Nat.ne_of_gt pos)), pos⟩

/-- The selections of a station-clip at a cut (R107). -/
theorem StationClip.cutBy_sels : (c.cutBy n gen).sels =
    c.sels.map fun x => if x.cutBy n gen then (if x.status = .reading then { x with cutFlag := true } else x.makeCut) else x := by
  by_cases some_ : ∃ x ∈ c.sels, hit x ∧ (x.status = .pinned ∨ x.status = .reading)
  · rw [(StationClip.cutBy_some hits some_).1]
  · rw [StationClip.cutBy_none hits fun x listed isHit => not_or.1 fun status => some_ ⟨x, listed, isHit, status⟩]
    refine ((List.map_congr_left fun x listed => if_neg fun cut => ?_).trans (List.map_id _)).symm
    exact some_ ⟨x, listed, (Selection.cutBy_iff hits x).1 cut⟩

theorem StationClip.cutBy_keeps : (c.cutBy n gen).sels.length = c.sels.length ∧ (c.cutBy n gen).station = c.station ∧
    (c.cutBy n gen).awaiting = c.awaiting := by
  refine ⟨by rw [StationClip.cutBy_sels hits, List.length_map], ?_, ?_⟩ <;>
  · rw [StationClip.cutBy_eq]
    split <;> rfl

/-- A selection at a cut (R107). -/
theorem StationClip.cutBy_at {k : Nat} {x : Selection} (at_ : c.sels[k]? = some x) : ∃ x' : Selection, (c.cutBy n gen).sels[k]? = some x' ∧
    (hit x → x.status = .pinned → x' = { x with status := .cut }) ∧ (hit x → x.status = .reading → x' = { x with cutFlag := true }) ∧
    (¬ hit x ∨ x.status ≠ .pinned ∧ x.status ≠ .reading → x' = x) := by
  refine ⟨_, by rw [StationClip.cutBy_sels hits, List.getElem?_map, at_]; rfl, fun isHit status => ?_, fun isHit status => ?_, fun spared => ?_⟩
  · exact (if_pos ((Selection.cutBy_iff hits x).2 ⟨isHit, .inl status⟩)).trans (if_neg (by rw [status]; decide))
  · exact (if_pos ((Selection.cutBy_iff hits x).2 ⟨isHit, .inr status⟩)).trans (if_pos status)
  · refine if_neg fun cut => ?_
    obtain ⟨isHit, status⟩ := (Selection.cutBy_iff hits x).1 cut
    rcases spared with misses | ⟨notPinned, notReading⟩
    · exact misses isHit
    · exact status.elim notPinned notReading

/-- One cut counts once (R107). -/
theorem StationClip.cutBy_one {xs ys : List Selection} {x : Selection} (sels : c.sels = xs ++ x :: ys) (isHit : hit x)
    (status : x.status = .pinned ∨ x.status = .reading) (others : ∀ y ∈ xs ++ ys, hit y → y.status ≠ .pinned ∧ y.status ≠ .reading) :
    (c.cutBy n gen).cutCount = c.cutCount + 1 := by
  have spared (l : List Selection) (among : ∀ y ∈ l, y ∈ xs ++ ys) : l.filter (Selection.cutBy n gen) = [] := by
    refine List.filter_eq_nil_iff.2 fun y listed cut => ?_
    obtain ⟨hitY, statusY⟩ := (Selection.cutBy_iff hits y).1 cut
    obtain ⟨notPinned, notReading⟩ := others y (among y listed) hitY
    exact statusY.elim notPinned notReading
  rw [(StationClip.cutBy_some hits ⟨x, by rw [sels]; simp, isHit, status⟩).1]
  show c.cutCount + _ = _
  rw [sels, List.filter_append, List.filter_cons_of_pos ((Selection.cutBy_iff hits x).2 ⟨isHit, status⟩),
    spared xs fun y listed => List.mem_append_left _ listed, spared ys fun y listed => List.mem_append_right _ listed]
  rfl

end

/-- No slot holds an event of the number. -/
theorem State.findEvent_absent {s : State} {ev : Nat} (absent : ∀ (i : Nat) (e : Event), s.assoc.events[i]? = some (some e) → e.number ≠ ev) :
    s.findEvent ev = none := by
  cases found : s.findEvent ev with
  | none => rfl
  | some q =>
    obtain ⟨there, number⟩ := State.findEvent_some found
    exact absurd number (absent _ _ there)

/-- A READING selection of a cut slot with no granted read outstanding ends in the same event (R107, R116). -/
theorem AtSelection.settleUnit_cut {s : State} {i k m burst granted : Nat} {p : Plan} {r : Region} {cs ds : List StationClip} {c : StationClip}
    {x : Selection} {data : List Byte} (h : AtSelection s i k p r cs c ds m x)
    (copier : s.clip.copier = .unit i k (.reading burst granted granted data 0)) (cut : x.cutFlag = true) :
    s.settleUnit = s.endReads i k burst data false := by
  unfold State.settleUnit
  simp only [copier, h.cutFlagAt, cut]
  simp

/-- The copier goes on while a granted read is outstanding, or nothing is READING (R115). -/
theorem State.settleUnit_waits {s : State}
    (waits : ∀ i k burst granted data err, s.clip.copier ≠ .unit i k (.reading burst granted granted data err)) : s.settleUnit = s := by
  unfold State.settleUnit
  split
  next slot k burst granted returned data errors copier =>
    refine if_neg fun all => ?_
    have same : returned = granted := by simpa using (Bool.and_eq_true_iff.1 all).2
    rw [same] at copier
    exact waits _ _ _ _ _ _ copier
  all_goals rfl

/-- The end of reads asks of the Intake Unit an unpin at most (R115, R116). -/
theorem State.settleUnit_wires (s : State) : s.settleUnit.wires = { s.wires with pins := s.settleUnit.wires.pins } := by
  have unpinned (x : Selection) : (s.unpinRead x).wires = { s.wires with pins := (s.unpinRead x).wires.pins } := by
    unfold State.unpinRead
    split <;> rfl
  have ended (i k burst : Nat) (data : List Byte) (err : Bool) :
      (s.endReads i k burst data err).wires = { s.wires with pins := (s.endReads i k burst data err).wires.pins } := by
    unfold State.endReads
    split
    · split
      · split
        · exact unpinned _
        · split
          · rfl
          · exact unpinned _
      · rfl
    · rfl
  unfold State.settleUnit
  split
  · split
    · exact ended _ _ _ _ _
    · rfl
  all_goals rfl

/-- Settles O52. -/
theorem cutsReachPlans : Obligations.CutsReachPlans := by
  unfold Obligations.CutsReachPlans
  intro s
  refine ⟨fun r pre post hit queue others hits => ?refused, fun n gen pre post hit queue others hits => ?cut⟩
  case refused =>
    have taken : takeFirst (fun (m : RefusedPin) => m.slot == r.slot) s.wires.refusedPins = some (r, pre ++ post) := by
      rw [queue]
      exact takeFirst_split (fun x listed => by simpa using others x listed) (beq_self_eq_true r.slot)
    cases found : s.findEvent r.event with
    | none =>
      have returns : exec (.pinRefused r.slot) s = done (s.setWires fun w => { w with refusedPins := pre ++ post }) := by
        show execPinRefused r.slot s = _
        unfold execPinRefused
        simp only [taken]
        rw [show (s.setWires fun w => { w with refusedPins := pre ++ post }).findEvent r.event = none from found]
      exact ⟨_, returns, rfl, State.settle_frame (State.setWires_frame _ (Frame.refl _ s) (by decide)) (by decide), fun _ => rfl,
        fun i e p event number => absurd number (State.findEvent_none found i e event)⟩
    | some q =>
      obtain ⟨k, e₀⟩ := q
      obtain ⟨there, number₀⟩ := State.findEvent_some found
      have returns : exec (.pinRefused r.slot) s = done ((s.setWires fun w => { w with refusedPins := pre ++ post }).setPlan k
          fun p => { p with clips := p.clips.map (StationClip.refused r) }) := by
        show execPinRefused r.slot s = _
        unfold execPinRefused
        simp only [taken]
        rw [show (s.setWires fun w => { w with refusedPins := pre ++ post }).findEvent r.event = some (k, e₀) from found]
      refine ⟨_, returns, rfl, State.settle_frame (State.setPlan_frame _ _ (State.setWires_frame _ (Frame.refl _ s) (by decide)) (by decide))
        (by decide), fun absent => absurd number₀ (absent k e₀ there), fun i e p event number unique plan => ?_⟩
      have here : k = i := unique k e₀ there (number₀.trans number.symm)
      subst here
      refine ⟨{ p with clips := p.clips.map (StationClip.refused r) }, ?_, rfl, List.length_map _, fun j c at_ => ⟨c.refused r, ?_, fun other => ?_,
        fun same some_ => StationClip.refused_hits hits same some_⟩⟩
      · rw [State.settle_clip, State.setPlan_set (s := s.setWires fun w => { w with refusedPins := pre ++ post }) plan]
        rfl
      · show (p.clips.map (StationClip.refused r))[j]? = _
        rw [List.getElem?_map, at_]
        rfl
      · exact StationClip.refused_other hits other
  case cut =>
    have taken : takeFirst (fun m : Nat × Nat => m.1 == n) s.wires.cutNotes = some ((n, gen), pre ++ post) := by
      rw [queue]
      exact takeFirst_split (fun x listed => by simpa using others x listed) (beq_self_eq_true n)
    have returns : exec (.slotCutAnnouncement n) s = done (((s.setWires fun w => { w with cutNotes := pre ++ post }).setClip fun c =>
        { c with plans := c.plans.map fun o => o.map fun p => { p with clips := p.clips.map (StationClip.cutBy n gen) } }).settleUnit) := by
      show execSlotCutAnnouncement n s = _
      unfold execSlotCutAnnouncement
      simp only [taken]
    generalize psIs : s.clip.plans.map (fun o => o.map fun p => { p with clips := p.clips.map (StationClip.cutBy n gen) }) = ps
    generalize vIs : ((s.setWires fun w => { w with cutNotes := pre ++ post }).setClip fun c =>
        { c with plans := c.plans.map fun o => o.map fun p => { p with clips := p.clips.map (StationClip.cutBy n gen) } }) = v at returns
    have clip : v.clip = { s.clip with plans := ps } := by
      rw [← vIs, ← psIs]
      rfl
    have wires : v.wires = { s.wires with cutNotes := pre ++ post } := by
      rw [← vIs]
      rfl
    have gen' : v.gen = s.gen := by
      rw [← vIs]
      rfl
    have frame : Frame [.clip, .writer, .wires] s v := by
      rw [← vIs]
      exact State.setClip_frame _ (State.setWires_frame _ (Frame.refl _ s) (by decide)) (by decide)
    refine ⟨_, StationClip.cutBy n gen, ps, returns, ?wires, State.settle_frame (State.settleUnit_frame frame (by decide)) (by decide),
      fun c => ?clips, psIs.symm, fun waits => ?waits, fun i m burst granted data p r cs ds c x copier plan region clips sel isHit reading => ?ends⟩
    case wires =>
      rw [State.settle_wires]
      exact v.settleUnit_wires.trans (by rw [wires])
    case clips =>
      obtain ⟨length, station, awaiting⟩ := StationClip.cutBy_keeps (c := c) hits
      refine ⟨length, station, awaiting, fun k x at_ => StationClip.cutBy_at hits at_, StationClip.cutBy_none hits, fun some_ => ?_,
        fun xs ys x sels isHit status others => StationClip.cutBy_one hits sels isHit status others⟩
      obtain ⟨cut, pos⟩ := StationClip.cutBy_some hits some_
      rw [cut]
      exact ⟨rfl, Nat.lt_add_of_pos_right pos⟩
    case waits =>
      have rests : v.settleUnit = v := State.settleUnit_waits (by rw [clip]; exact waits)
      rw [rests, State.settle_clip, State.settle_wires, clip, wires]
      exact ⟨rfl, rfl⟩
    case ends =>
      obtain ⟨x', sel', -, flagged, -⟩ := StationClip.cutBy_at hits sel
      rw [flagged isHit reading] at sel'
      have station : (c.cutBy n gen).station = c.station := (StationClip.cutBy_keeps hits).2.1
      have lengths : (cs.map (StationClip.cutBy n gen)).map (fun c => c.sels.length) = cs.map fun c => c.sels.length := by
        rw [List.map_map]
        exact List.map_congr_left fun d _ => (StationClip.cutBy_keeps hits).1
      have selected : AtSelection v i ((cs.map fun c => c.sels.length).sum + m) { p with clips := p.clips.map (StationClip.cutBy n gen) } r
          (cs.map (StationClip.cutBy n gen)) (c.cutBy n gen) (ds.map (StationClip.cutBy n gen)) m { x with cutFlag := true } := by
        refine ⟨?_, region, ?_, sel', by rw [lengths]⟩
        · rw [clip, ← psIs]
          show (s.clip.plans.map _)[i]? = _
          rw [List.getElem?_map, plan]
          rfl
        · show p.clips.map _ = _
          rw [clips, List.map_append, List.map_cons]
      have ended := (selected.settleUnit_cut (by rw [clip]; exact copier) rfl).trans (selected.endReads_cut rfl)
      rw [gen'] at ended
      rw [← station, ended, State.settle_clip, State.settle_wires, clip, wires]
      exact ⟨rfl, rfl⟩

end Sys2Proof.Machine
end

section
/-! SUPPORT. The copier's work at memory: slot checks, reads and writes of a job, and its end (R115 to R119). -/
namespace Sys2Proof.Machine

/-! ### The check of a slot (R115) -/

theorem State.pinOnItsWay_iff (p : Plan) (c : StationClip) (x : Selection) (s : State) :
    s.pinOnItsWay p c x = true ↔ PinMsg.pin p.event c.station x.slot x.gen ∈ s.wires.pins := by
  unfold State.pinOnItsWay
  simp [List.any_eq_true, beq_iff_eq]

section
variable {s : State} {i k m burst : Nat} {p : Plan} {r : Region} {cs ds : List StationClip} {c : StationClip} {x : Selection}
  (h : AtSelection s i k p r cs c ds m x)
include h

theorem AtSelection.exec_slotCheck (copier : s.clip.copier = .unit i k (.check burst)) : exec .slotCheck s =
    if s.pinOnItsWay p c x then nothing s else done (s.checkSelection i k burst p c x) := by
  show execSlotCheck s = _
  unfold execSlotCheck
  simp only [copier, State.plan_of h.plan, h.selection]

theorem AtSelection.writeVoid (cut memerr : Bool) : s.writeVoid i k p c x cut memerr = { s with clip := { s.clip with
    copier := .unit i k (.writing (s.gen.clipBase + 512 * (r.first + 1 + k)) [voidHeader p.event c.station x cut memerr]) } } := by
  unfold State.writeVoid
  rw [h.unitAddr s rfl]
  rfl

/-- A check that passes starts the reads (R115). -/
theorem AtSelection.checkSelection_passes {e : Slot} (stands : x.status ≠ .cut) (slot : s.intake.dir[x.slot]? = some e) (gen : e.gen = x.gen)
    (clear : e.cutMark = false) : s.checkSelection i k burst p c x = { s with clip := { s.clip with
      copier := .unit i k (.reading burst 0 0 [] 0)
      plans := s.clip.plans.set i (some { p with
        clips := cs ++ { c with sels := c.sels.set m { x with status := .reading, cutFlag := false } } :: ds }) } } := by
  have passes : s.checkPasses x = true := by
    unfold State.checkPasses State.slot
    simp [slot, gen, clear]
  unfold State.checkSelection
  rw [if_neg stands, if_pos passes, h.setSelection]
  rfl

/-- A check that fails cuts the selection (R115). -/
theorem AtSelection.checkSelection_fails {e : Slot} (stands : x.status ≠ .cut) (slot : s.intake.dir[x.slot]? = some e)
    (stale : e.gen ≠ x.gen ∨ e.cutMark = true) : s.checkSelection i k burst p c x = { s with clip := { s.clip with
      copier := .unit i k (.writing (s.gen.clipBase + 512 * (r.first + 1 + k)) [voidHeader p.event c.station x true false])
      plans := s.clip.plans.set i (some { p with clips := cs ++ { c with
        cutCount := c.cutCount + 1, flags := c.flags ||| 8, sels := c.sels.set m { x with status := .cut } } :: ds }) } } := by
  have fails : ¬ s.checkPasses x = true := by
    unfold State.checkPasses State.slot
    rcases stale with other | cut
    · simp [slot, other]
    · simp [slot, cut]
  unfold State.checkSelection
  rw [if_neg stands, if_neg fails, h.setSelection]
  unfold State.writeVoid
  rw [h.unitAddr]
  · rfl
  · rfl

/-! ### Reads returned (R115, R116) -/

/-- The settling of a unit that is READING (R115, R116). -/
theorem AtSelection.settleUnit_of {granted returned errors : Nat} {data : List Byte}
    (copier : s.clip.copier = .unit i k (.reading burst granted returned data errors)) : s.settleUnit =
      if (x.cutFlag || errors != 0 || granted == 64 / burst) && returned == granted then s.endReads i k burst data (errors != 0) else s := by
  unfold State.settleUnit
  simp only [copier, h.cutFlagAt]

/-- A read returned: its bytes are kept, the errors of the unit are counted with its last granted read, and the unit is settled (R115, R116). -/
theorem AtSelection.unitReadReturned_of {granted returned err err' beats : Nat} {got all data : List Byte} {code : MemCode}
    (copier : s.clip.copier = .unit i k (.reading burst granted returned got err)) (allIs : all = got ++ fit (8 * beats) data)
    (errIs : err' = if code = .memerr then err + 1 else err) : ∃ y : State, s.unitReadReturned beats code data = y.settleUnit ∧
      y.clip = { s.clip with copier := .unit i k (.reading burst granted (returned + 1) all err') } ∧
      y.tallies = (if returned + 1 = granted ∧ err' ≠ 0 then s.countBy .memoryErrors err' else s).tallies ∧ y.wires = s.wires ∧
      y.guard = s.guard ∧ y.gen = s.gen ∧ Frame [.clip, .tallies] s y ∧ AtSelection y i k p r cs c ds m x := by
  have errors : (err + if code = .memerr then 1 else 0) = err' := by
    rw [errIs]
    split <;> rfl
  generalize vIs : s.setCopier (.unit i k (.reading burst granted (returned + 1) all err')) = v
  have gotten : s.setCopier (s.clip.copier.gotData beats code data) = v := by
    rw [← vIs, copier, allIs, ← errors]
    rfl
  have clip : v.clip = { s.clip with copier := .unit i k (.reading burst granted (returned + 1) all err') } := by rw [← vIs]; rfl
  have tallies : v.tallies = s.tallies := by rw [← vIs]; rfl
  have frame : Frame [.clip] s v := by
    rw [← vIs]
    exact State.setCopier_frame _ (Frame.refl _ s) (by decide)
  refine ⟨if returned + 1 = granted ∧ err' ≠ 0 then v.countBy .memoryErrors err' else v, ?_, ?_, ?_, ?_, ?_, ?_, ?_, ?_⟩
  · unfold State.unitReadReturned
    dsimp only
    rw [gotten]
    have returnedAll : v.clip.copier.allReturned = (returned + 1 == granted) := by rw [clip]; rfl
    have errorsAre : v.clip.copier.errors = err' := by rw [clip]; rfl
    unfold State.countUnitErrors
    rw [returnedAll, errorsAre]
    by_cases last : returned + 1 = granted
    · by_cases none_ : err' = 0
      · simp [last, none_]
      · simp [last, none_]
    · simp [last]
  · split <;> exact clip
  · split
    · rw [State.countBy_tallies, State.countBy_tallies, tallies]
    · exact tallies
  · split <;> exact frame .wires (by decide)
  · split <;> exact frame .guard (by decide)
  · split <;> exact State.gen_congr (frame .control (by decide))
  · split
    · exact State.countBy_frame _ _ (frame.mono (by decide)) (by decide)
    · exact frame.mono (by decide)
  · refine ⟨?_, h.region, h.clips, h.sel, h.place⟩
    have plans : v.clip.plans[i]? = some (some p) := by rw [clip]; exact h.plan
    split <;> exact plans

end

/-- The completion of a read of the COPIER claimant (R116). -/
theorem exec_copierReadCompletion {code : MemCode} {data : List Byte} {o : Outstanding} {rest : List Outstanding} {s : State}
    (front : s.guard.downstream = o :: rest) (owner : o.owner = .copierRead) : exec (.copierReadCompletion code data) s =
      done (if o.dropped then (s.setGuard fun g => { g with downstream := rest }).countMemerr code
        else (s.setGuard fun g => { g with downstream := rest }).unitReadReturned o.beats code data) := by
  show execCopierReadCompletion code data s = _
  unfold execCopierReadCompletion
  simp only [State.complete_owned (p := (· == .copierRead)) front (by simp [owner])]

/-! ### Writes returned (R117, R118) -/

/-- The completion of a write of the COPIER claimant, before the job is settled (R117). -/
def State.copierWriteDone (code : MemCode) (o : Outstanding) (clip : Option Nat) (s : State) : State :=
  let s1 := (s.writeCompleted o code).setClip fun c => { c with writesOut := c.writesOut - 1 }
  match code, s1.clip.copier.slot with
  | .memerr, some slot => s1.flagWriteError slot clip
  | _, _ => s1

theorem exec_copierWriteCompletion {code : MemCode} {clip : Option Nat} {o : Outstanding} {rest : List Outstanding} {s : State}
    (front : s.guard.downstream = o :: rest) (owner : o.owner = .copierWrite clip) : exec (.copierWriteCompletion code) s =
      if o.dropped then done ((s.setGuard fun g => { g with downstream := rest }).writeCompleted o code)
      else done ((s.setGuard fun g => { g with downstream := rest }).copierWriteDone code o clip).settleJob := by
  have isWrite : o.owner.isCopierWrite = some clip := by rw [owner]; rfl
  show execCopierWriteCompletion code s = _
  unfold execCopierWriteCompletion
  simp only [State.complete_owned (p := fun o => o.isCopierWrite.isSome) front (by simp [isWrite]), isWrite]
  unfold State.copierWriteDone
  cases code with
  | okay => rfl
  | memerr =>
    dsimp only
    cases (((s.setGuard fun g => { g with downstream := rest }).writeCompleted o .memerr).setClip
      fun c => { c with writesOut := c.writesOut - 1 }).clip.copier.slot <;> rfl

/-- A write returned is counted off; a MEMERR flags its station-clip, or the directory (R117). -/
structure WriteReturned (i : Nat) (code : MemCode) (dir : Bool) (q : Plan) (s v : State) : Prop where
  clip : v.clip = { s.clip with writesOut := s.clip.writesOut - 1, dirError := dir, plans := s.clip.plans.set i (some q) }
  tallies : v.tallies = (if code = .memerr then s.count .memoryErrors else s).tallies
  pending : v.status.pending = if code = .memerr then s.status.pending ||| Notice.memFault.bit else s.status.pending
  frame : Frame [.clip, .notices, .writer, .tallies] s v

theorem State.copierWriteDone_returns {s : State} {i : Nat} {p q : Plan} {code : MemCode} {o : Outstanding} {clip : Option Nat} {dir : Bool}
    (plan : s.clip.plans[i]? = some (some p)) (stands : o.dropped = false) (slot : s.clip.copier.slot = some i)
    (dirIs : dir = (s.clip.dirError || (code == .memerr && clip == none)))
    (qIs : q = clip.elim p fun j => if code = .memerr then { p with clips := p.clips.modify j fun c => { c with flags := c.flags ||| 16 } } else p) :
    WriteReturned i code dir q s (s.copierWriteDone code o clip) := by
  obtain ⟨tallies, pending, -⟩ := s.writeCompleted_tells o code
  have frame : Frame [.notices, .writer, .tallies] s (s.writeCompleted o code) := State.writeCompleted_frame _ _ (Frame.refl _ s) (by decide)
  generalize vIs : s.writeCompleted o code = v at tallies pending frame
  have vClip : v.clip = s.clip := frame .clip (by decide)
  rw [stands] at pending
  simp only [and_true] at pending
  generalize wIs : (v.setClip fun c => { c with writesOut := c.writesOut - 1 }) = w
  have wClip : w.clip = { s.clip with writesOut := s.clip.writesOut - 1 } := by
    rw [← wIs, ← vClip]
    rfl
  have wFrame : Frame [.clip, .notices, .writer, .tallies] s w := by
    rw [← wIs]
    exact State.setClip_frame _ (frame.mono (by decide)) (by decide)
  have wTallies : w.tallies = v.tallies := by rw [← wIs]; rfl
  have wPending : w.status = v.status := by rw [← wIs]; rfl
  cases code with
  | okay =>
    have done_ : s.copierWriteDone .okay o clip = w := by
      rw [← wIs, ← vIs]
      rfl
    have same : q = p := by
      rw [qIs]
      cases clip <;> rfl
    rw [done_]
    refine ⟨?_, wTallies.trans tallies, (congrArg Status.pending wPending).trans pending, wFrame⟩
    rw [wClip, dirIs, same, set_of_getElem? plan]
    simp
  | memerr =>
    have done_ : s.copierWriteDone .memerr o clip = w.flagWriteError i clip := by
      unfold State.copierWriteDone
      rw [vIs]
      dsimp only
      rw [wIs, show w.clip.copier.slot = some i by rw [wClip]; exact slot]
    have wPlan : w.clip.plans[i]? = some (some p) := by rw [wClip]; exact plan
    rw [done_]
    cases clip with
    | none =>
      have same : q = p := qIs
      refine ⟨?_, wTallies.trans tallies, (congrArg Status.pending wPending).trans pending, State.flagWriteError_frame _ _ wFrame (by decide)⟩
      show ({ w.clip with dirError := true } : Clip) = _
      rw [wClip, dirIs, same, set_of_getElem? plan]
      simp
    | some j =>
      have flagged : w.flagWriteError i (some j) = w.setPlan i fun p => { p with clips := p.clips.modify j (StationClip.flag flagMemerr) } := rfl
      have dirSame : dir = s.clip.dirError := by
        rw [dirIs]
        simp
      rw [flagged, State.setPlan_set wPlan]
      refine ⟨?_, wTallies.trans tallies, (congrArg Status.pending wPending).trans pending, ?_⟩
      · rw [wClip, dirSame, qIs]
        rfl
      · exact State.setClip_frame (fun _ => _) wFrame (by decide)

theorem State.settleJob_waits {s : State} (waits : ∀ i addr, s.clip.copier = .directory i addr [] → s.clip.writesOut ≠ 0) : s.settleJob = s := by
  unfold State.settleJob
  split
  next slot addr copier => exact if_neg (waits slot addr copier)
  all_goals rfl

/-- The last completion of a job ends it (R118). -/
theorem State.settleJob_ends {s : State} {i addr : Nat} {p : Plan} (plan : s.clip.plans[i]? = some (some p))
    (copier : s.clip.copier = .directory i addr []) (last : s.clip.writesOut = 0) : s.settleJob = s.endJob i p := by
  unfold State.settleJob
  simp only [copier, if_pos last, State.plan_of plan]

/-- A job at its end, before its event joins the wait list (R118, R119). -/
structure JobEnded (i : Nat) (q : Plan) (flags : BitVec 8) (s u : State) : Prop where
  clip : u.clip = { s.clip with copier := .idle, plans := s.clip.plans.set i (some { q with flags := flags }) }
  assoc : u.assoc = { s.assoc with events := s.assoc.events.modify i (·.map fun e => { e with clipFlags := flags }) }
  wires : u.wires = { s.wires with stateRequests := s.wires.stateRequests ++ [(q.event, .copied)] }
  guard : u.guard = { s.guard with range := none, held := u.guard.held, releases := u.guard.releases }
  released : HeldReleased (fun h => ∃ marked, h.kind = .read marked) s.guard u.guard
  tallies : u.tallies = s.tallies
  status : u.status = s.status
  frame : Frame [.assoc, .clip, .guard, .wires] s u

theorem State.endJob_ends {s : State} {i : Nat} {q : Plan} (plan : s.clip.plans[i]? = some (some q)) {flags : BitVec 8}
    (flagsIs : flags = (q.clips.foldl (fun f c => f ||| c.flags) 0 ||| if s.clip.dirError then 16 else 0)) :
    ∃ u, s.endJob i q = (u.joinReport q.event).runJobs ∧ JobEnded i q flags s u := by
  have same : q.union ||| flagIf s.clip.dirError flagMemerr = flags := flagsIs.symm
  have planned := State.setPlan_set plan fun q => { q with flags := flags }
  refine ⟨((((s.setPlan i fun q => { q with flags := flags }).setEvent i fun e => { e with clipFlags := flags }).askState q.event
    .copied).withdrawRange).setCopier .idle, by rw [← same]; rfl, ?_, ?_, ?_, rfl, ?_, rfl, rfl, ?_⟩
  · rw [planned]
    rfl
  · rw [planned]
    rfl
  · rw [planned]
    rfl
  · refine (State.releaseHeld_releases Held.isRead ((((s.setPlan i fun q => { q with flags := flags }).setEvent i fun e =>
      { e with clipFlags := flags }).askState q.event .copied).setGuard fun g => { g with range := none })).congr (fun h => h.isRead_iff.symm)
      ?_ ?_ rfl rfl
    · rfl
    · rfl
  · exact State.setCopier_frame _ (State.withdrawRange_frame (State.askState_frame _ _ (State.setEvent_frame _ _ (State.setPlan_frame _ _
      (Frame.refl _ s) (by decide)) (by decide)) (by decide)) (by decide)) (by decide)

/-- Settles O53. -/
theorem copierWorks : Obligations.CopierWorks := by
  unfold Obligations.CopierWorks
  refine ⟨fun i m k p r cs ds c x s void plan' plan region clips sel place voidIs plan'Is => ?selection,
    fun i p s code clip o rest n dir q plan front owner nIs dirIs qIs => ?writes⟩
  case selection =>
    have h : AtSelection s i k p r cs c ds m x := ⟨plan, region, clips, sel, place⟩
    refine ⟨fun a b => voidHeader_layout _ _ _ _ _, fun burst copier => ⟨fun onItsWay => ?onItsWay, fun arrived => ?arrived⟩,
      fun code data got all o rest burst granted returned err err' front owner => ⟨fun dropped => ?dropped, fun kept copier allIs errIs => ?kept⟩⟩
    case onItsWay =>
      exact (h.exec_slotCheck copier).trans (if_pos ((State.pinOnItsWay_iff p c x s).2 onItsWay))
    case arrived =>
      have check := (h.exec_slotCheck copier).trans (if_neg ((State.pinOnItsWay_iff p c x s).not.2 arrived))
      have framed {v : State} (is : s.checkSelection i k burst p c x = v) : Frame [.clip, .writer] s v.settle := by
        rw [← is]
        exact State.settle_frame (State.checkSelection_frame _ _ _ _ _ _ (Frame.refl _ s) (by decide)) (by decide)
      refine ⟨fun cut => ?_, fun e stands slot gen clear => ?_, fun e stands slot stale => ?_⟩
      · have is : s.checkSelection i k burst p c x = _ := (if_pos cut).trans (h.writeVoid true false)
        rw [is] at check
        exact ⟨_, check, by rw [voidIs]; rfl, framed is⟩
      · have is := h.checkSelection_passes (burst := burst) stands slot gen clear
        rw [is] at check
        exact ⟨_, check, by rw [plan'Is]; rfl, framed is⟩
      · have is := h.checkSelection_fails (burst := burst) stands slot stale
        rw [is] at check
        exact ⟨_, check, by rw [plan'Is, voidIs]; rfl, framed is⟩
    case dropped =>
      have returns := exec_copierReadCompletion (code := code) (data := data) front owner
      rw [if_pos dropped] at returns
      refine ⟨_, returns, ?_, ?_, State.settle_frame (State.countMemerr_frame _ (State.setGuard_frame _ (Frame.refl _ s) (by decide)) (by decide))
        (by decide)⟩
      · cases code <;> rfl
      · cases code <;> rfl
    case kept =>
      have returns := exec_copierReadCompletion (code := code) (data := data) front owner
      rw [if_neg (by simp [kept])] at returns
      have h' : AtSelection (s.setGuard fun g => { g with downstream := rest }) i k p r cs c ds m x := ⟨plan, region, clips, sel, place⟩
      obtain ⟨y, settled, clip, tallies, wires, guard, gen, frame, hy⟩ := h'.unitReadReturned_of copier allIs errIs
      have settles := hy.settleUnit_of (by rw [clip])
      rw [settled] at returns
      have unit : Frame [.clip, .wires] y y.settleUnit := State.settleUnit_frame (Frame.refl _ y) (by decide)
      have carried : Frame [.guard] s (s.setGuard fun g => { g with downstream := rest }) := State.setGuard_frame _ (Frame.refl _ s) (by decide)
      refine ⟨_, returns, Eq.trans (unit .guard (by decide)) guard, ?tallies, ?frame, fun waits => ?waits, fun last failed => ?failed,
        fun last clean cut => ?cut, fun last clean whole all => ?whole⟩
      case tallies =>
        refine Eq.trans (unit .tallies (by decide)) (tallies.trans ?_)
        split <;> rfl
      case frame =>
        refine State.settle_frame ?_ (by decide)
        exact ((carried.mono (by decide)).trans (frame.mono (by decide))).trans (unit.mono (by decide))
      case waits =>
        have stays : y.settleUnit = y := by
          refine settles.trans (if_neg ?_)
          rcases waits with out | ⟨whole, clean, more⟩
          · simp [out]
          · simp [whole, clean, more]
        rw [stays, State.settle_wires, State.settle_clip, wires, clip]
        exact ⟨rfl, rfl⟩
      case failed =>
        have ended := (settles.trans (if_pos (by simp [last, failed]))).trans
          ((congrArg (y.endReads i k burst all) (bne_iff_ne.2 failed)).trans hy.endReads_memerr)
        rw [gen] at ended
        rw [ended, State.settle_wires, State.settle_clip, wires, clip, plan'Is, voidIs]
        exact ⟨rfl, rfl⟩
      case cut =>
        have ended := (settles.trans (if_pos (by simp [last, cut]))).trans
          ((congrArg (y.endReads i k burst all) (by simp [clean])).trans (hy.endReads_cut cut))
        rw [gen] at ended
        rw [ended, State.settle_wires, State.settle_clip, wires, clip, plan'Is, voidIs]
        exact ⟨rfl, rfl⟩
      case whole =>
        have ended := (settles.trans (if_pos (by simp [last, all]))).trans
          ((congrArg (y.endReads i k burst _) (by simp [clean])).trans (hy.endReads_whole whole))
        rw [gen] at ended
        rw [ended, State.settle_wires, State.settle_clip, wires, clip, plan'Is]
        exact ⟨rfl, rfl⟩
  case writes =>
    have returns := exec_copierWriteCompletion (code := code) front owner
    refine ⟨fun dropped => ?dropped, fun kept slot => ⟨fun notLast notNone => ?goesOn, fun addr copier last => ?ends⟩⟩
    case dropped =>
      rw [if_pos dropped] at returns
      obtain ⟨tallies, pending, guard⟩ := (s.setGuard fun g => { g with downstream := rest }).writeCompleted_tells o code
      refine ⟨_, returns, guard, ?_, ?_⟩
      · refine tallies.trans ?_
        rw [nIs]
        split <;> rfl
      · have counts : (s.setGuard fun g => { g with downstream := rest }).writeCompleted o code =
            (s.setGuard fun g => { g with downstream := rest }).countMemerr code := by
          cases code with
          | okay => rfl
          | memerr => exact if_pos dropped
        rw [counts]
        exact State.settle_frame (State.countMemerr_frame _ (State.setGuard_frame _ (Frame.refl _ s) (by decide)) (by decide)) (by decide)
    all_goals
      have qElim : q = clip.elim p fun j => if code = .memerr then
          { p with clips := p.clips.modify j fun c => { c with flags := c.flags ||| 16 } } else p := by
        rw [qIs]
        cases clip <;> rfl
      have done_ := State.copierWriteDone_returns (s := s.setGuard fun g => { g with downstream := rest }) plan kept slot dirIs qElim
      rw [if_neg (by simp [kept])] at returns
      generalize (s.setGuard fun g => { g with downstream := rest }).copierWriteDone code o clip = v at returns done_
      have vTallies : v.tallies = n.tallies := by
        rw [done_.tallies, nIs]
        split <;> rfl
      have carried : Frame [.guard] s (s.setGuard fun g => { g with downstream := rest }) := State.setGuard_frame _ (Frame.refl _ s) (by decide)
      have vFrame : Frame [.clip, .guard, .notices, .writer, .tallies] s v := (carried.mono (by decide)).trans (done_.frame.mono (by decide))
      have vGuard : v.guard = { s.guard with downstream := rest } := done_.frame .guard (by decide)
    case goesOn =>
      have waits : v.settleJob = v := by
        refine State.settleJob_waits fun j addr copier => ?_
        rw [done_.clip] at copier ⊢
        replace copier : s.clip.copier = .directory j addr [] := copier
        have here : j = i := by
          rw [copier] at slot
          exact Option.some.inj slot
        rw [here] at copier
        show s.clip.writesOut - 1 ≠ 0
        have := notLast addr copier
        have := notNone addr copier
        omega
      rw [waits] at returns
      refine ⟨_, returns, vGuard, vTallies, ?_, done_.clip, State.settle_frame vFrame (by decide)⟩
      simp only [State.settle_status, Status.choose_rest]
      exact done_.pending
    case ends =>
      have vPlan : v.clip.plans[i]? = some (some q) := by
        rw [done_.clip]
        exact List.getElem?_set_self (List.getElem?_eq_some_iff.1 plan).1
      have event : q.event = p.event := by
        rw [qElim]
        cases clip with
        | none => rfl
        | some j =>
          show (if code = .memerr then _ else p : Plan).event = p.event
          split <;> rfl
      have settled : v.settleJob = v.endJob i q := State.settleJob_ends (addr := addr) vPlan (by rw [done_.clip]; exact copier) (by
        rw [done_.clip]
        show s.clip.writesOut - 1 = 0
        rw [last])
      obtain ⟨u, endsAs, ended⟩ := State.endJob_ends vPlan (flags := q.clips.foldl (fun f c => f ||| c.flags) 0 ||| if dir then 16 else 0) (by
        rw [done_.clip])
      rw [settled, endsAs] at returns
      have guard := ended.guard
      rw [vGuard] at guard
      refine ⟨_, u, u.joinReport q.event, (u.joinReport q.event).runJobs, _, returns, rfl, ?_, ?_, ?_, guard, ?_, ended.tallies.trans vTallies, ?_,
        vFrame.mono (by decide) |>.trans (ended.frame.mono (by decide)), ?_, State.runJobs_begun _, State.settle_frame (Frame.refl _ _) (by decide)⟩
      · have zero : s.clip.writesOut - 1 = 0 := by rw [last]
        have vClip : v.clip = { s.clip with writesOut := 0, dirError := dir, plans := s.clip.plans.set i (some q) } := done_.clip.trans
          (congrArg (fun n => ({ s.clip with writesOut := n, dirError := dir, plans := s.clip.plans.set i (some q) } : Clip)) zero)
        rw [ended.clip, vClip]
        exact congrArg (fun l => ({ s.clip with writesOut := 0, dirError := dir, copier := .idle, plans := l } : Clip)) (List.set_set ..)
      · rw [ended.assoc, show v.assoc = s.assoc from vFrame .assoc (by decide)]
      · rw [ended.wires, show v.wires = s.wires from vFrame .wires (by decide), event]
      · exact ended.released.congr (fun _ => Iff.rfl) (by rw [vGuard]) (by rw [vGuard]) rfl rfl
      · rw [ended.status]
        exact done_.pending
      · rw [← event]
        exact State.joinReport_joins _ _

end Sys2Proof.Machine
end

section
/-! SUPPORT. The tails that plans wait for: the plans in order, what a new trail entry does to one, and the ends of the waits (R108 to R111). -/
namespace Sys2Proof.Machine

/-! ### The plans that wait (log 24) -/

theorem heldEvents_slots (i : Nat) (l : List (Option Event)) : ((heldEvents i l).map (·.1)).Nodup ∧ ∀ q ∈ heldEvents i l, i ≤ q.1 := by
  induction l generalizing i with
  | nil => exact ⟨List.nodup_nil, fun q listed => by cases listed⟩
  | cons o l ih =>
    obtain ⟨nodup, above⟩ := ih (i + 1)
    cases o with
    | none => exact ⟨nodup, fun q listed => (Nat.le_succ i).trans (above q listed)⟩
    | some e =>
      unfold heldEvents
      refine ⟨List.nodup_cons.2 ⟨fun again => ?_, nodup⟩, fun q listed => ?_⟩
      · obtain ⟨q, listed, same⟩ := List.mem_map.1 again
        have : i + 1 ≤ i := (above q listed).trans_eq same
        omega
      · rcases List.mem_cons.1 listed with rfl | behind
        · exact Nat.le_refl i
        · exact (Nat.le_succ i).trans (above q behind)

theorem State.mem_waitingPlans {s : State} {q : Nat × Plan} : q ∈ s.waitingPlans ↔
    s.clip.plans[q.1]? = some (some q.2) ∧ q.2.tail ≠ none ∧ ∃ e, s.assoc.events[q.1]? = some (some e) := by
  unfold State.waitingPlans
  rw [List.mem_filterMap]
  constructor
  · rintro ⟨⟨i, e⟩, listed, gives⟩
    have event := State.mem_eventsByNumber.1 listed
    unfold State.plan at gives
    cases plan : s.clip.plans[i]? with
    | none => simp [plan] at gives
    | some o =>
      cases o with
      | none => simp [plan] at gives
      | some p =>
        simp only [plan] at gives
        split at gives
        next waits =>
          cases gives
          exact ⟨plan, Option.isSome_iff_ne_none.1 waits, e, event⟩
        next => cases gives
  · rintro ⟨plan, waits, e, event⟩
    refine ⟨(q.1, e), State.mem_eventsByNumber.2 event, ?_⟩
    simp only [State.plan_of plan]
    exact if_pos (Option.isSome_iff_ne_none.2 waits)

/-- A plan that waits stands in the slot of its event. -/
theorem State.waitingPlans_eq (s : State) : ∃ f : Nat × Event → Option (Nat × Plan), s.waitingPlans = s.eventsByNumber.filterMap f ∧
    ∀ q r, f q = some r → r.1 = q.1 := by
  refine ⟨_, rfl, fun q r gives => ?_⟩
  split at gives
  · split at gives
    · cases gives
      rfl
    · cases gives
  · cases gives

theorem filterMap_slots {α β γ : Type} {f : α × β → Option (α × γ)} (same : ∀ q r, f q = some r → r.1 = q.1) (l : List (α × β)) :
    ((l.filterMap f).map (·.1)).Sublist (l.map (·.1)) := by
  induction l with
  | nil => exact List.Sublist.refl _
  | cons q l ih =>
    cases gives : f q with
    | none =>
      rw [List.filterMap_cons_none gives]
      exact ih.cons _
    | some r =>
      rw [List.filterMap_cons_some gives, List.map_cons, List.map_cons, same q r gives]
      exact ih.cons_cons _

theorem State.waitingPlans_slots (s : State) : (s.waitingPlans.map (·.1)).Nodup := by
  have events : (s.eventsByNumber.map (·.1)).Nodup :=
    (((sortBy_perm _ _).map _).nodup_iff).2 (heldEvents_slots 0 s.assoc.events).1
  obtain ⟨f, is, same⟩ := s.waitingPlans_eq
  rw [is]
  exact events.sublist (filterMap_slots same _)

theorem State.waitingPlans_ordered (s : State) : s.waitingPlans.Pairwise fun a b => ∀ ea eb : Event,
    s.assoc.events[a.1]? = some (some ea) → s.assoc.events[b.1]? = some (some eb) → ea.number ≤ eb.number := by
  obtain ⟨f, is, same⟩ := s.waitingPlans_eq
  rw [is, List.pairwise_filterMap]
  refine (sortBy_ordered (fun q : Nat × Event => q.2.number) (heldEvents 0 s.assoc.events)).imp_of_mem fun {a b} aListed bListed le r gives r' gives'
    ea eb atA atB => ?_
  have a' := State.mem_eventsByNumber.1 aListed
  have b' := State.mem_eventsByNumber.1 bListed
  rw [same a r gives] at atA
  rw [same b r' gives'] at atB
  cases a'.symm.trans atA
  cases b'.symm.trans atB
  exact le

/-! ### Plans that move (R108 to R111) -/

section
variable {move : Plan → Plan → Plan} {asked : Plan → List PinMsg} {awaitsNone : Plan → Prop}

/-- New records of the clips and of the wires, as a frame. -/
theorem Frame.clipWires (s : State) (c : Clip) (w : Wires) : Frame [.clip, .wires] s { s with clip := c, wires := w } :=
  State.setWires_frame (fun _ => w) (State.setClip_frame (fun _ => c) (Frame.refl _ s) (by decide)) (by decide)

/-- A busy copier begins no job (R111). -/
theorem JobsBegun.busy {s t : State} (begun : JobsBegun s t) (busy : s.clip.copier ≠ .idle) : t = s := by
  cases begun with
  | rests _ => rfl
  | begins idle => exact absurd idle busy
  | passes idle => exact absurd idle busy

/-- While a job runs, plans that move change themselves, ask, and join the queue (R111). -/
structure PlansMoved (move : Plan → Plan → Plan) (asked : Plan → List PinMsg) (ended : List (Nat × Plan)) (l : List (Nat × Plan)) (s m : State) :
    Prop where
  moved : (l.map (·.1)).Nodup → ∀ q ∈ l, m.clip.plans[q.1]? = s.clip.plans[q.1]?.map fun o => o.map (move q.2)
  stand : ∀ i, i ∉ l.map (·.1) → m.clip.plans[i]? = s.clip.plans[i]?
  clip : m.clip = { s.clip with plans := m.clip.plans, queue := s.clip.queue ++ ended.map (·.2.event) }
  wires : m.wires = { s.wires with
    pins := s.wires.pins ++ (l.map fun q => asked q.2).flatten
    stateRequests := s.wires.stateRequests ++ ended.map fun q => (q.2.event, .copyQueued) }
  frame : Frame [.clip, .wires] s m

/-- One plan moves, and the rest after it; `now` holds it when its wait is over. -/
theorem PlansMoved.cons {i : Nat} {p : Plan} {now ended l : List (Nat × Plan)} {s v m : State} (rest : PlansMoved move asked ended l v m)
    (clip : v.clip = { s.clip with
      plans := s.clip.plans.modify i (·.map (move p)), queue := s.clip.queue ++ now.map (·.2.event) })
    (wires : v.wires = { s.wires with
      pins := s.wires.pins ++ asked p, stateRequests := s.wires.stateRequests ++ now.map fun q => (q.2.event, .copyQueued) })
    (frame : Frame [.clip, .wires] s v) : PlansMoved move asked (now ++ ended) ((i, p) :: l) s m where
  moved nodup q listed := by
    obtain ⟨fresh, nodup⟩ := List.nodup_cons.1 nodup
    rcases List.mem_cons.1 listed with rfl | behind
    · rw [rest.stand i fresh, clip]
      exact List.getElem?_modify_eq ..
    · rw [rest.moved nodup q behind, clip]
      refine congrArg _ (List.getElem?_modify_ne _ _ fun same => fresh ?_)
      exact same ▸ List.mem_map.2 ⟨q, behind, rfl⟩
  stand j other := by
    obtain ⟨notHere, behind⟩ := not_or.1 (List.mem_cons.not.1 other)
    rw [rest.stand j behind, clip]
    exact List.getElem?_modify_ne _ _ (Ne.symm notHere)
  clip := by
    rw [rest.clip, clip, List.map_append]
    exact congrArg (fun q => ({ s.clip with plans := m.clip.plans, queue := q } : Clip)) (List.append_assoc ..)
  wires := by
    rw [rest.wires, wires, List.map_append, List.map_cons, List.flatten_cons, ← List.append_assoc, ← List.append_assoc]
  frame := frame.trans rest.frame

theorem PlansMove.busy {l : List (Nat × Plan)} {s m : State} (moves : PlansMove move asked awaitsNone l s m) (busy : s.clip.copier ≠ .idle)
    (ends : Plan → Bool) (endsIff : ∀ p, ends p = true ↔ awaitsNone p) :
    PlansMoved move asked (l.filter fun q => ends q.2) l s m := by
  induction moves with
  | none => exact ⟨fun _ q listed => (List.not_mem_nil listed).elim, fun _ _ => rfl, by simp, by simp, Frame.refl _ _⟩
  | @waits s t i p l stays _ ih =>
    rw [List.filter_cons_of_neg (by rw [endsIff]; exact stays)]
    refine PlansMoved.cons (now := []) (ih busy) ?_ ?_ ?_
    · simp
    · simp
    · exact Frame.clipWires _ _ _
  | @ends s v t i p l finished begun _ ih =>
    rw [List.filter_cons_of_pos (a := (i, p)) (p := fun q : Nat × Plan => ends q.2) ((endsIff p).2 finished)]
    have still := begun.busy busy
    subst still
    exact PlansMoved.cons (now := [(i, p)]) (ih busy) rfl rfl (Frame.clipWires _ _ _)

/-- Plans that move one after the other, by what one of them does while the setup stands. -/
theorem PlansMove.foldl {f : State → Nat × Plan → State} {setup : Control} (stands : ∀ t q, (f t q).control = t.control)
    (waits : ∀ (t : State) (i : Nat) (p : Plan), t.control = setup → ¬ awaitsNone p → f t (i, p) = { t with
      clip := { t.clip with plans := t.clip.plans.modify i (·.map (move p)) }, wires := { t.wires with pins := t.wires.pins ++ asked p } })
    (ends : ∀ (t : State) (i : Nat) (p : Plan), t.control = setup → awaitsNone p → JobsBegun { t with
      clip := { t.clip with plans := t.clip.plans.modify i (·.map (move p)), queue := t.clip.queue ++ [p.event] }
      wires := { t.wires with
        pins := t.wires.pins ++ asked p, stateRequests := t.wires.stateRequests ++ [(p.event, .copyQueued)] } } (f t (i, p)))
    (l : List (Nat × Plan)) (s : State) (same : s.control = setup) : PlansMove move asked awaitsNone l s (l.foldl f s) := by
  induction l generalizing s with
  | nil => exact .none
  | cons q l ih =>
    obtain ⟨i, p⟩ := q
    have rest := ih (f s (i, p)) ((stands s (i, p)).trans same)
    by_cases finished : awaitsNone p
    · exact .ends finished (ends s i p same finished) rest
    · rw [waits s i p same finished] at rest
      rw [List.foldl_cons, waits s i p same finished]
      exact .waits finished rest

end

/-! ### A new trail entry (R108) -/

/-- A plan after a new trail entry: its station-clips, and its wait over when none awaits (R108). -/
def Plan.afterEntry (period st : Nat) (e : TrailEntry) (p : Plan) : Plan := { p with
  clips := (p.takeEntry period st e).1.clips
  tail := if ∃ c ∈ (p.takeEntry period st e).1.clips, c.awaiting = true then p.tail else none }

theorem Plan.takeEntry_rest (period st : Nat) (e : TrailEntry) (p : Plan) :
    (p.takeEntry period st e).1 = { p with clips := (p.takeEntry period st e).1.clips } := rfl

theorem Plan.afterEntry_waits {period st : Nat} {e : TrailEntry} {p : Plan} (waits : ∃ c ∈ (p.afterEntry period st e).clips, c.awaiting = true) :
    p.afterEntry period st e = (p.takeEntry period st e).1 := by
  rw [Plan.takeEntry_rest]
  unfold Plan.afterEntry
  rw [if_pos (show ∃ c ∈ (p.takeEntry period st e).1.clips, c.awaiting = true from waits)]

theorem Plan.afterEntry_ends {period st : Nat} {e : TrailEntry} {p : Plan}
    (ends : ¬ ∃ c ∈ (p.afterEntry period st e).clips, c.awaiting = true) :
    p.afterEntry period st e = { (p.takeEntry period st e).1 with tail := none } := by
  rw [Plan.takeEntry_rest]
  unfold Plan.afterEntry
  rw [if_neg (show ¬ ∃ c ∈ (p.takeEntry period st e).1.clips, c.awaiting = true from ends)]

section
variable {st : Nat} {e : TrailEntry} {s : State} {i : Nat} {p : Plan} {period : Nat} (periodIs : s.periodOf st = period)
include periodIs

theorem State.planTakesEntry_waits (waits : ∃ c ∈ (p.afterEntry period st e).clips, c.awaiting = true) : s.planTakesEntry st e i p = { s with
    clip := { s.clip with plans := s.clip.plans.modify i (·.map fun _ => p.afterEntry period st e) }
    wires := { s.wires with pins := s.wires.pins ++ (p.takeEntry period st e).2 } } := by
  unfold State.planTakesEntry
  rw [periodIs, Plan.afterEntry_waits waits]
  exact if_pos (List.any_eq_true.2 waits)

theorem State.planTakesEntry_ends (ends : ¬ ∃ c ∈ (p.afterEntry period st e).clips, c.awaiting = true) : JobsBegun { s with
    clip := { s.clip with
      plans := s.clip.plans.modify i (·.map fun _ => p.afterEntry period st e), queue := s.clip.queue ++ [p.event] }
    wires := { s.wires with
      pins := s.wires.pins ++ (p.takeEntry period st e).2, stateRequests := s.wires.stateRequests ++ [(p.event, .copyQueued)] } }
    (s.planTakesEntry st e i p) := by
  have plans : (s.clip.plans.modify i (·.map fun _ => (p.takeEntry period st e).1)).modify i (·.map fun q => { q with tail := none }) =
      s.clip.plans.modify i (·.map fun _ => p.afterEntry period st e) := by
    rw [List.modify_modify_eq, Plan.afterEntry_ends ends]
    congr 1
    funext o
    cases o <;> rfl
  have moved : s.planTakesEntry st e i p = ((s.setPlan i fun _ => (p.takeEntry period st e).1).askPins (p.takeEntry period st e).2).endWait i
      (p.takeEntry period st e).1 := by
    unfold State.planTakesEntry
    rw [periodIs]
    exact if_neg (List.any_eq_true.not.2 ends)
  rw [moved, ← plans]
  exact State.runJobs_begun _

end

/-- A wait given up: TAIL_SHORT, and HEAD_SHORT when the window is not covered at its start (R108 to R110). -/
def StationClip.shortTail (winStart : Nat) (c : StationClip) : StationClip := { c with
  awaiting := false
  flags := c.flags ||| 4 ||| if c.sels.head?.all (fun z => decide (winStart < z.first)) then 1 else 0 }

theorem StationClip.shortTail_eq (winStart : Nat) (c : StationClip) :
    ({ c with awaiting := false }.flag flagTailShort).complete winStart = c.shortTail winStart := StationClip.complete_eq _ _

theorem StationClip.giveUp_eq (winStart : Nat) (c : StationClip) :
    c.giveUp winStart = if c.awaiting = true then c.shortTail winStart else c := by
  unfold StationClip.giveUp
  rw [StationClip.shortTail_eq]

/-- A new trail entry at a station-clip, with whether it becomes a selection (R108). -/
def StationClip.enter (period st winStart winEnd : Nat) (e : TrailEntry) (c : StationClip) : StationClip × Bool :=
  if c.station = st ∧ c.awaiting then c.takeEntry period winStart winEnd e else (c, false)

theorem Plan.takeEntry_eq (period st : Nat) (e : TrailEntry) (p : Plan) : p.takeEntry period st e =
    ({ p with clips := (p.clips.map (StationClip.enter period st p.winStart p.winEnd e)).map (·.1) },
      if (p.clips.map (StationClip.enter period st p.winStart p.winEnd e)).any (·.2) then [.pin p.event st e.slot e.gen] else []) := rfl

section
variable {period st winStart winEnd endT : Nat} {e : TrailEntry} {c : StationClip} {met held : Prop}
  (endIs : endT = sampleTime (e.first + e.count * period)) (metIs : met ↔ e.first ≤ winEnd ∧ winStart < endT)
  (heldIs : held ↔ c.station ≠ st ∨ c.awaiting = false ∨ ∃ z ∈ c.sels, z.slot = e.slot ∧ z.gen = e.gen)

theorem StationClip.takeEntry_known (known : ∃ z ∈ c.sels, z.slot = e.slot ∧ z.gen = e.gen) :
    c.takeEntry period winStart winEnd e = (c, false) := by
  have any : c.sels.any (fun x => x.slot == e.slot && x.gen == e.gen) = true := by
    obtain ⟨z, listed, slot, gen⟩ := known
    exact List.any_eq_true.2 ⟨z, listed, by simp [slot, gen]⟩
  exact if_pos any

theorem StationClip.takeEntry_new (new : ¬ ∃ z ∈ c.sels, z.slot = e.slot ∧ z.gen = e.gen) : c.takeEntry period winStart winEnd e =
    if winEnd < e.first then (c.shortTail winStart, false)
    else if e.meets period winStart winEnd then
      if 128 ≤ c.sels.length then (c.shortTail winStart, false)
      else if winEnd < spanEnd period e.first e.count then
        ({ ({ c with
          sels := insertBefore (fun (x : Selection) => decide (e.first < x.first)) e.select c.sels
          flags := c.flags ||| e.flags winStart } : StationClip) with awaiting := false }.complete winStart, true)
      else ({ c with
        sels := insertBefore (fun (x : Selection) => decide (e.first < x.first)) e.select c.sels, flags := c.flags ||| e.flags winStart }, true)
    else (c, false) := by
  have none_ : ¬ c.sels.any (fun x => x.slot == e.slot && x.gen == e.gen) = true := by
    intro any
    obtain ⟨z, listed, same⟩ := List.any_eq_true.1 any
    exact new ⟨z, listed, by simpa using same⟩
  rw [← StationClip.shortTail_eq]
  exact if_neg none_

include heldIs in
theorem StationClip.enter_held (stays : held) : c.enter period st winStart winEnd e = (c, false) := by
  unfold StationClip.enter
  split
  next own =>
    refine StationClip.takeEntry_known ?_
    rcases heldIs.1 stays with other | rests | known
    · exact absurd own.1 other
    · simp [rests] at own
    · exact known
  next => rfl

include heldIs in
theorem StationClip.enter_open (waits : ¬ held) : c.awaiting = true ∧ (¬ ∃ z ∈ c.sels, z.slot = e.slot ∧ z.gen = e.gen) ∧
    c.enter period st winStart winEnd e = c.takeEntry period winStart winEnd e := by
  obtain ⟨own, awaiting, new⟩ : c.station = st ∧ c.awaiting = true ∧ ¬ ∃ z ∈ c.sels, z.slot = e.slot ∧ z.gen = e.gen := by
    have := heldIs.not.1 waits
    push Not at this
    obtain ⟨own, awaiting, new⟩ := this
    exact ⟨own, by simpa using awaiting, fun ⟨z, listed, slot, gen⟩ => new z listed slot gen⟩
  exact ⟨awaiting, new, if_pos ⟨own, awaiting⟩⟩

include endIs metIs in
theorem TrailEntry.meets_iff : e.meets period winStart winEnd = true ↔ met := by
  rw [TrailEntry.meets_eq, metIs, endIs, decide_eq_true_iff]

include endIs metIs heldIs

/-- An entry before the window's end that does not meet the window changes nothing. -/
theorem StationClip.enter_misses (misses : ¬ met) (before : e.first ≤ winEnd) : c.enter period st winStart winEnd e = (c, false) := by
  by_cases stays : held
  · exact StationClip.enter_held heldIs stays
  · obtain ⟨-, new, same⟩ := StationClip.enter_open (period := period) (winStart := winStart) (winEnd := winEnd) heldIs stays
    rw [same, StationClip.takeEntry_new new, if_neg (Nat.not_lt.2 before), if_neg ((TrailEntry.meets_iff endIs metIs).not.2 misses)]

theorem StationClip.enter_lost (waits : ¬ held) (lost : winEnd < e.first ∨ met ∧ 128 ≤ c.sels.length) :
    c.enter period st winStart winEnd e = (c.shortTail winStart, false) := by
  obtain ⟨-, new, same⟩ := StationClip.enter_open (period := period) (winStart := winStart) (winEnd := winEnd) heldIs waits
  rw [same, StationClip.takeEntry_new new]
  by_cases past : winEnd < e.first
  · exact if_pos past
  · obtain ⟨meets, full⟩ := lost.resolve_left past
    rw [if_neg past, if_pos ((TrailEntry.meets_iff endIs metIs).2 meets), if_pos full]

theorem StationClip.enter_selects (waits : ¬ held) (meets : met) (room : c.sels.length < 128) :
    ∃ l r, c.sels = l ++ r ∧ (∀ z ∈ l, ¬ e.first < z.first) ∧ (∀ z, r.head? = some z → e.first < z.first) ∧
      c.enter period st winStart winEnd e = ({ c with
        sels := l ++ ⟨e.slot, e.gen, e.first, e.count, .pinned, false⟩ :: r
        awaiting := decide (endT ≤ winEnd)
        flags := c.flags ||| (if e.brk = true ∧ winStart < e.first then 2 else 0) ||| (if e.timeUnsure then 32 else 0) |||
          (if e.clipped then 64 else 0) ||| if winEnd < endT ∧
            (l ++ ⟨e.slot, e.gen, e.first, e.count, .pinned, false⟩ :: r).head?.all (fun z => decide (winStart < z.first)) then 1 else 0 },
        true) := by
  obtain ⟨awaiting, new, same⟩ := StationClip.enter_open (period := period) (winStart := winStart) (winEnd := winEnd) heldIs waits
  have before : ¬ winEnd < e.first := Nat.not_lt.2 (metIs.1 meets).1
  obtain ⟨l, r, whole, inserted, ahead, behind⟩ := insertBefore_split (fun (x : Selection) => decide (e.first < x.first)) e.select c.sels
  have entry : e.select = ⟨e.slot, e.gen, e.first, e.count, .pinned, false⟩ := rfl
  have flags : e.flags winStart = (if e.brk = true ∧ winStart < e.first then 2 else 0) ||| (if e.timeUnsure then 32 else 0) |||
      (if e.clipped then 64 else 0) := by
    unfold TrailEntry.flags flagIf
    simp only [Bool.and_eq_true, decide_eq_true_iff]
  have span : spanEnd period e.first e.count = endT := endIs.symm
  refine ⟨l, r, whole, fun z listed => of_decide_eq_false (ahead z listed), fun z first => of_decide_eq_true (behind z first), ?_⟩
  rw [same, StationClip.takeEntry_new new, if_neg before, if_pos ((TrailEntry.meets_iff endIs metIs).2 meets), if_neg (Nat.not_le.2 room),
    inserted, span, entry, flags]
  by_cases covers : winEnd < endT
  · rw [if_pos covers, StationClip.complete_eq]
    simp only [covers, true_and, decide_eq_false (Nat.not_le.2 covers), BitVec.or_assoc]
  · have orZero (f : BitVec 8) : f ||| 0 = f := BitVec.or_zero
    rw [if_neg covers]
    simp only [covers, false_and, if_false, decide_eq_true (Nat.not_lt.1 covers), BitVec.or_assoc, orZero, awaiting]

end

/-! ### Waits given up (R109, R110) -/

/-- A plan that gives up every tail it still awaits (R109, R110). -/
def Plan.giveUp (p : Plan) : Plan := { p with
  tail := none, clips := p.clips.map fun c => if c.awaiting = true then c.shortTail p.winStart else c }

theorem State.giveUpTails_begun (i : Nat) (p : Plan) (s : State) : JobsBegun { s with
    clip := { s.clip with plans := s.clip.plans.modify i (·.map Plan.giveUp), queue := s.clip.queue ++ [p.event] }
    wires := { s.wires with stateRequests := s.wires.stateRequests ++ [(p.event, .copyQueued)] } } (s.giveUpTails i p) := by
  have plans : (s.clip.plans.modify i (·.map fun q => { q with clips := q.clips.map (StationClip.giveUp q.winStart) })).modify i
      (·.map fun q => { q with tail := none }) = s.clip.plans.modify i (·.map Plan.giveUp) := by
    rw [List.modify_modify_eq]
    congr 1
    funext o
    cases o with
    | none => rfl
    | some q =>
      have clips : q.clips.map (StationClip.giveUp q.winStart) = q.clips.map fun c => if c.awaiting = true then c.shortTail q.winStart else c :=
        List.map_congr_left fun c _ => StationClip.giveUp_eq _ _
      exact congrArg (fun cs => some ({ q with tail := none, clips := cs } : Plan)) clips
  rw [← plans]
  exact State.runJobs_begun _

theorem State.giveUpTails_control (t : State) (q : Nat × Plan) : (t.giveUpTails q.1 q.2).control = t.control :=
  State.giveUpTails_frame q.1 q.2
    (Frame.refl [.assoc, .clip, .guard, .report, .notices, .writer, .tallies, .wires] t) (by decide) .control (by decide)

theorem State.planTakesEntry_control (st : Nat) (e : TrailEntry) (t : State) (q : Nat × Plan) :
    (t.planTakesEntry st e q.1 q.2).control = t.control :=
  State.planTakesEntry_frame st e q.1 q.2
    (Frame.refl [.assoc, .clip, .guard, .report, .notices, .writer, .tallies, .wires] t) (by decide) .control (by decide)

theorem State.periodOf_congr {s t : State} (same : t.control = s.control) (st : Nat) : t.periodOf st = s.periodOf st := by
  unfold State.periodOf State.station
  rw [same]

/-- Settles O51. -/
theorem tailWaits : Obligations.TailWaits := by
  unfold Obligations.TailWaits
  intro s waits giveUp waitsIs giveUpIs
  have giveUpSame : giveUp = Plan.giveUp := funext giveUpIs
  have listed (q : Nat × Plan) : q ∈ s.waitingPlans ↔ waits q.1 q.2 := by rw [State.mem_waitingPlans, waitsIs]
  refine ⟨s.waitingPlans, listed, s.waitingPlans_slots, s.waitingPlans_ordered, fun st x pre post y endT met held queue others entry endIs metIs
    heldIs => ?entry, fun i d e p event unique plan tail => ⟨fun due => ?due, fun early => ?early⟩, fun told => ?stop⟩
  case due =>
    have found : s.findEvent e.number = some (i, e) := State.findEvent_at s i e event unique
    have returns : exec (.tailDeadline e.number) s = done (s.giveUpTails i p) := by
      show execTailDeadline e.number s = _
      unfold execTailDeadline
      simp only [found, State.plan_of plan, tail]
      exact if_pos (decide_eq_true due)
    have begun := s.giveUpTails_begun i p
    rw [modify_eq_set plan] at begun
    rw [giveUpSame]
    exact ⟨_, s.giveUpTails i p, returns, begun, State.settle_frame (Frame.refl _ _) (by decide)⟩
  case early =>
    have found : s.findEvent e.number = some (i, e) := State.findEvent_at s i e event unique
    show execTailDeadline e.number s = _
    unfold execTailDeadline
    simp only [found, State.plan_of plan, tail]
    exact if_neg fun due => Nat.not_le.2 early (of_decide_eq_true due)
  case stop =>
    have returns : exec .clipUnitStop s = done s.clipTakesStop := if_pos told
    generalize s1Is : ({ s with clip := { s.clip with draining := true }, wires := { s.wires with clipStop := false } } : State) = s1
    have stops : s.clipTakesStop = s.waitingPlans.foldl (fun t q => t.giveUpTails q.1 q.2) s1 := by
      rw [← s1Is]
      rfl
    have moves : PlansMove (fun _ => giveUp) (fun _ => []) (fun _ => True) s.waitingPlans s1 s.clipTakesStop := by
      rw [stops, giveUpSame]
      refine PlansMove.foldl State.giveUpTails_control (fun t i p _ stands => absurd trivial stands) (fun t i p _ _ => ?_) s.waitingPlans s1 rfl
      exact (congrArg (fun l => JobsBegun { t with
        clip := { t.clip with plans := t.clip.plans.modify i (·.map Plan.giveUp), queue := t.clip.queue ++ [p.event] }
        wires := { t.wires with pins := l, stateRequests := t.wires.stateRequests ++ [(p.event, .copyQueued)] } } (t.giveUpTails i p))
        (List.append_nil t.wires.pins)).mpr (t.giveUpTails_begun i p)
    refine ⟨_, s.clipTakesStop, returns, moves, State.settle_frame (Frame.refl _ _) (by decide), fun busy => ?_⟩
    have moved := moves.busy (by rw [← s1Is]; exact busy) (fun _ => true) (fun p => by simp)
    rw [List.filter_eq_self.2 fun _ _ => rfl] at moved
    have frame : Frame [.clip, .wires] s s1 := by
      rw [← s1Is]
      exact Frame.clipWires s _ _
    refine ⟨fun i p waiting => ?_, fun i none_ => ?_, ?_, ?_, State.settle_frame ((frame.trans moved.frame).mono (by decide)) (by decide)⟩
    · refine (moved.moved s.waitingPlans_slots (i, p) ((listed (i, p)).2 waiting)).trans ?_
      have plan : s1.clip.plans[i]? = some (some p) := by
        rw [← s1Is]
        exact ((waitsIs i p).1 waiting).1
      rw [plan]
      rfl
    · refine (moved.stand i fun inList => ?_).trans (by rw [← s1Is])
      obtain ⟨q, there, same⟩ := List.mem_map.1 inList
      exact none_ q.2 (same ▸ (listed q).1 there)
    · rw [State.settle_clip]
      exact moved.clip.trans (by rw [← s1Is])
    · rw [State.settle_wires, moved.wires, ← s1Is]
      simp
  case entry =>
    have taken : takeFirst (fun m : Nat × TrailEntry => m.1 == st) s.wires.trailNotes = some ((st, x), pre ++ post) := by
      rw [queue]
      exact takeFirst_split (fun m listed => by simpa using others m listed) (beq_self_eq_true st)
    have period : s.periodOf st = 1000000 / y.sampleRate := by
      unfold State.periodOf
      rw [entry]
      rfl
    generalize 1000000 / y.sampleRate = period' at period endIs
    generalize s1Is : ({ s with wires := { s.wires with trailNotes := pre ++ post } } : State) = s1
    generalize mIs : s.waitingPlans.foldl (fun t q => t.planTakesEntry st x q.1 q.2) s1 = m
    have returns : exec (.newTrailEntry st) s = done m := by
      show execNewTrailEntry st s = _
      unfold execNewTrailEntry
      simp only [taken]
      rw [← mIs, ← s1Is]
      rfl
    have none_iff (p : Plan) : (∀ c ∈ (p.afterEntry period' st x).clips, c.awaiting = false) ↔
        ¬ ∃ c ∈ (p.afterEntry period' st x).clips, c.awaiting = true := by
      push Not
      simp
    have moves : PlansMove (fun p _ => p.afterEntry period' st x) (fun p => (p.takeEntry period' st x).2)
        (fun p => ∀ c ∈ (p.afterEntry period' st x).clips, c.awaiting = false) s.waitingPlans s1 m := by
      rw [← mIs]
      have same : s1.control = s.control := by rw [← s1Is]
      refine PlansMove.foldl (State.planTakesEntry_control st x) (fun t i p setup stands => ?_) (fun t i p setup finished => ?_) _ _ same
      · exact State.planTakesEntry_waits ((State.periodOf_congr setup st).trans period) (not_not.1 ((none_iff p).not.1 stands))
      · exact State.planTakesEntry_ends ((State.periodOf_congr setup st).trans period) ((none_iff p).1 finished)
    have clips (p : Plan) : (p.afterEntry period' st x).clips = (p.clips.map (StationClip.enter period' st p.winStart p.winEnd x)).map (·.1) := by
      unfold Plan.afterEntry
      rw [Plan.takeEntry_eq]
    refine ⟨_, m, Plan.afterEntry period' st x, fun p => (p.takeEntry period' st x).2, returns, fun p => ⟨?length, rfl⟩, fun p j c at_ => ?clip,
      fun p meets room => ?asks, fun p none_ => ?silent, moves, State.settle_frame (Frame.refl _ _) (by decide), fun busy => ?busy⟩
    case length => rw [clips, List.length_map, List.length_map]
    case clip =>
      refine ⟨(c.enter period' st p.winStart p.winEnd x).1, ?_, fun stays => ?_, fun open_ lost => ?_, fun open_ meets room => ?_⟩
      · rw [clips, List.map_map, List.getElem?_map, at_]
        rfl
      · rcases stays with stays | ⟨misses, before⟩
        · rw [StationClip.enter_held (heldIs c) stays]
        · rw [StationClip.enter_misses endIs (metIs p) (heldIs c) misses before]
      · exact congrArg Prod.fst (StationClip.enter_lost endIs (metIs p) (heldIs c) open_ lost)
      · obtain ⟨l, r, whole, ahead, behind, entered⟩ := StationClip.enter_selects endIs (metIs p) (heldIs c) open_ meets room
        exact ⟨l, r, whole, ahead, behind, congrArg Prod.fst entered⟩
    case asks =>
      obtain ⟨c, there, open_, few⟩ := room
      obtain ⟨l, r, -, -, -, entered⟩ := StationClip.enter_selects endIs (metIs p) (heldIs c) open_ meets few
      show (p.takeEntry period' st x).2 = _
      rw [Plan.takeEntry_eq]
      refine if_pos (List.any_eq_true.2 ⟨_, List.mem_map.2 ⟨c, there, rfl⟩, ?_⟩)
      exact congrArg Prod.snd entered
    case silent =>
      show (p.takeEntry period' st x).2 = _
      rw [Plan.takeEntry_eq]
      refine if_neg fun some_ => ?_
      obtain ⟨q, inList, selects⟩ := List.any_eq_true.1 some_
      obtain ⟨c, there, rfl⟩ := List.mem_map.1 inList
      have quiet : c.enter period' st p.winStart p.winEnd x = (c, false) ∨ c.enter period' st p.winStart p.winEnd x = (c.shortTail p.winStart, false) := by
        by_cases stays : held c
        · exact .inl (StationClip.enter_held (heldIs c) stays)
        · by_cases meets : met p
          · exact .inr (StationClip.enter_lost endIs (metIs p) (heldIs c) stays (.inr ⟨meets, none_ meets c there stays⟩))
          · rcases Nat.lt_or_ge p.winEnd x.first with past | before
            · exact .inr (StationClip.enter_lost endIs (metIs p) (heldIs c) stays (.inl past))
            · exact .inl (StationClip.enter_misses endIs (metIs p) (heldIs c) meets before)
      rcases quiet with same | lost
      · rw [same] at selects
        cases selects
      · rw [lost] at selects
        cases selects
    case busy =>
      have moved := moves.busy (by rw [← s1Is]; exact busy) (fun p => decide (∀ c ∈ (p.afterEntry period' st x).clips, c.awaiting = false))
        fun p => decide_eq_true_iff
      have frame : Frame [.clip, .wires] s s1 := by
        rw [← s1Is]
        exact Frame.clipWires s _ _
      refine ⟨s.waitingPlans.filter fun q => decide (∀ c ∈ (q.2.afterEntry period' st x).clips, c.awaiting = false), List.filter_sublist, fun q => ?_, fun i p waiting => ?_, fun i none_ => ?_, ?_, ?_,
        State.settle_frame ((frame.trans moved.frame).mono (by decide)) (by decide)⟩
      · rw [List.mem_filter, listed, decide_eq_true_iff]
      · refine (moved.moved s.waitingPlans_slots (i, p) ((listed (i, p)).2 waiting)).trans ?_
        have plan : s1.clip.plans[i]? = some (some p) := by
          rw [← s1Is]
          exact ((waitsIs i p).1 waiting).1
        rw [plan]
        rfl
      · refine (moved.stand i fun inList => ?_).trans (by rw [← s1Is])
        obtain ⟨q, there, same⟩ := List.mem_map.1 inList
        exact none_ q.2 (same ▸ (listed q).1 there)
      · rw [State.settle_clip]
        exact moved.clip.trans (by rw [← s1Is])
      · rw [State.settle_wires, moved.wires, ← s1Is]

end Sys2Proof.Machine
end

section
/-! SUPPORT. What the grant of a claimant's request does (R22, R115, R134, R135, R141, R155, R169). -/
namespace Sys2Proof.Machine

/-! ### What the jobs that begin leave of the Path Guard (R115, R132) -/

/-- Of the Path Guard only the announced range has changed. -/
def RangeMoved (s t : State) : Prop := t.guard = { s.guard with range := t.guard.range }

theorem RangeMoved.of_guard {s t : State} (same : t.guard = s.guard) : RangeMoved s t := by
  unfold RangeMoved
  rw [same]

theorem RangeMoved.trans {s t u : State} (first : RangeMoved s t) (second : RangeMoved t u) : RangeMoved s u := by
  unfold RangeMoved at *
  rw [second, first]

theorem State.comeTo_guard (i k : Nat) (s : State) : (s.comeTo i k).guard = s.guard :=
  State.comeTo_frame i k (Frame.refl [.clip] s) (by decide) .guard (by decide)

theorem State.endForLack_guard (i : Nat) (p : Plan) (s : State) : (s.endForLack i p).guard = s.guard :=
  State.endForLack_frame i p (Frame.refl [.assoc, .clip, .report, .notices, .writer, .tallies, .wires] s) (by decide) .guard (by decide)

theorem State.takeFront_guard (s : State) : s.takeFront.guard = s.guard :=
  State.takeFront_frame (Frame.refl [.report] s) (by decide) .guard (by decide)

theorem State.reclaimOldest_guard (s : State) : s.reclaimOldest.guard = s.guard :=
  State.reclaimOldest_frame (Frame.refl [.assoc, .clip, .report, .notices, .writer, .tallies, .wires] s) (by decide) .guard (by decide)

theorem State.allocate_range (i : Nat) (s : State) : RangeMoved s (s.allocate i) := by
  unfold State.allocate
  split
  next p plan =>
    dsimp only
    split
    · exact .of_guard (State.endForLack_guard _ _ _)
    · split
      · unfold State.takeRegion RangeMoved
        simp [State.comeTo_guard]
      · split
        · exact .of_guard rfl
        · exact .of_guard (State.endForLack_guard _ _ _)
  next => exact .of_guard rfl

theorem State.runQueue_range (n : Nat) (s : State) : RangeMoved s (s.runQueue n) := by
  induction n generalizing s with
  | zero => exact .of_guard rfl
  | succ n ih =>
    unfold State.runQueue
    split
    · dsimp only
      split
      · refine RangeMoved.trans ?_ (ih _)
        refine RangeMoved.trans ?_ (State.allocate_range _ _)
        exact .of_guard (State.setClip_guard _ s)
      · refine RangeMoved.trans ?_ (ih _)
        exact .of_guard (State.setClip_guard _ s)
    · exact .of_guard rfl

theorem State.answerFreed_range (s : State) : RangeMoved s s.answerFreed := by
  unfold State.answerFreed
  split
  · dsimp only
    split
    · refine RangeMoved.trans ?_ (State.runQueue_range _ _)
      refine RangeMoved.trans ?_ (State.allocate_range _ _)
      exact .of_guard (State.setReport_guard _ s)
    all_goals exact .of_guard (State.setReport_guard _ s)
  · exact .of_guard rfl

/-- The record writer's look leaves the queues of the Path Guard (R140, R143). -/
theorem State.writerLook_range (s : State) : RangeMoved s s.writerLook := by
  have freed : RangeMoved s s.reclaimOldest.answerFreed := RangeMoved.trans (.of_guard s.reclaimOldest_guard) (State.answerFreed_range _)
  unfold State.writerLook State.lookWith
  split
  · split
    · exact .of_guard s.takeFront_guard
    · split
      · dsimp only
        split
        · exact freed.trans (.of_guard (State.takeFront_guard _))
        · exact freed
      · exact .of_guard (State.raise_guard _ _)
  · exact .of_guard rfl

/-! ### The grants of the claimants -/

section
variable {s : State}

/-- The LOADER claimant's read (R155). -/
theorem State.grantLoader_eq {r : LoadRec} {base : Nat} (load : s.control.load = some r) (page : s.control.pageBase = some base)
    (waits : s.loaderOffer.isSome = true) : s.grantLoader = { s with
      control := { s.control with load := some { r with extent := r.extent + 256 } }
      guard := { s.guard with downstream := s.guard.downstream ++ [⟨.loader, .read, base + 0x100 + r.extent, 32, [], false⟩] } } := by
  have offer : s.loaderOffer = if r.extent < loadBytes then some (base + 0x100 + r.extent, 32) else none := by
    unfold State.loaderOffer
    simp only [load, page]
  have more : r.extent < loadBytes := by
    rw [offer] at waits
    by_contra over_
    rw [if_neg over_] at waits
    exact Bool.false_ne_true waits
  rw [if_pos more] at offer
  unfold State.grantLoader
  simp only [offer, State.setLoad, State.setControl, State.sendRead, State.setGuard, load, Option.map_some]

/-- The REFETCH claimant's read (R22). -/
theorem State.grantRefetch_eq {e : Refetch} (reading : s.intake.refetch.find? (fun x => x.state == .reading) = some e)
    (waits : s.refetchOffer.isSome = true) : s.grantOwn .refetch = { s with
      intake := { s.intake with refetch := s.intake.refetch.map fun x => if x.state = .reading then { x with granted := x.granted + 1 } else x }
      guard := { s.guard with downstream := s.guard.downstream ++ [⟨.refetch, .read, s.gen.ringBase + 512 * e.slot + 32 + 256 * e.granted,
        if e.granted = 0 then min e.beats 32 else e.beats - 32, [], false⟩] } } := by
  have offer : s.refetchOffer = if e.offered then none
      else some (s.gen.ringBase + 512 * e.slot + 32 + 256 * e.granted, if e.granted = 0 then min e.beats 32 else e.beats - 32) := by
    unfold State.refetchOffer
    simp only [reading]
  have more : ¬ e.offered = true := by
    intro done_
    rw [offer, if_pos done_] at waits
    exact Bool.false_ne_true waits
  rw [if_neg more] at offer
  unfold State.grantOwn
  simp only [offer]
  rfl

/-- The writes that the REPORT claimant offers for a record (R141). -/
theorem State.grantReport_eq {ev index : Nat} {record : List Byte} {second : Bool}
    (writing : s.report.writer = .writing ev index record second) : s.grantReport =
      if second then ((s.sendWrite .report (s.gen.reportBase + 512 * index + 256) (record.drop 256)).recordOutstanding ev).writerLook
      else (s.sendWrite .report (s.gen.reportBase + 512 * index) (record.take 256)).setReport fun r =>
        { r with writer := .writing ev index record true } := by
  unfold State.grantReport State.reportOffer
  simp only [writing]
  cases second <;> rfl

/-- A record that becomes outstanding (R141). -/
theorem State.recordOutstanding_records (ev : Nat) (s : State) :
    (s.recordOutstanding ev).report = { s.report with
      writer := .idle, put := (s.report.put + 1) % s.gen.reportCap, occupancy := s.report.occupancy + 1, numbers := s.report.numbers ++ [ev] } ∧
    (s.recordOutstanding ev).wires = { s.wires with stateRequests := s.wires.stateRequests ++ [(ev, .reported)] } ∧
    (s.recordOutstanding ev).tallies = (s.count .reportsWritten).tallies ∧
    (s.recordOutstanding ev).status.newRecords = s.status.newRecords + 1 ∧
    (s.recordOutstanding ev).status.heartbeat = s.status.heartbeat ∧ (s.recordOutstanding ev).status.dump = s.status.dump ∧
    (s.recordOutstanding ev).status.rewrite = true ∧
    (s.recordOutstanding ev).status.pending = (if s.gen.reportWatermark ≤ s.report.occupancy + 1
      then s.status.pending ||| Notice.reportWatermark.bit else s.status.pending) := by
  unfold State.recordOutstanding
  dsimp only
  by_cases full : s.gen.reportWatermark ≤ s.report.occupancy + 1
  · rw [if_pos full, if_pos (by exact full)]
    refine ⟨by simp, by simp, by simp, by simp [State.raise], by simp [State.raise], by simp [State.raise], ?_, by simp⟩
    unfold State.raise State.setPending
    split <;> rfl
  · rw [if_neg full, if_neg (by exact full)]
    exact ⟨rfl, rfl, rfl, rfl, rfl, rfl, rfl, rfl⟩

/-- The STATUS claimant's write of a result (R154, R171). -/
theorem State.grantStatus_result {r : Result} (offer : s.status.offer = some (.result r)) : s.grantStatus.guard =
    { s.guard with downstream := s.guard.downstream ++ [⟨.status, .write, s.page + 0x40, 1, strobed r.bytes, false⟩] } ∧
    s.grantStatus.status.pending = s.status.pending ||| Notice.commandDone.bit := by
  have act : s.grantStatus = s.grantResult r := by
    unfold State.grantStatus
    simp only [offer]
  have beats : r.bytes.length / 8 = 1 := by rw [r.bytes_word.length]
  rw [act]
  unfold State.grantResult
  refine ⟨?_, State.raise_status_pending _ _⟩
  rw [State.raise_guard]
  unfold State.sendWrite
  rw [beats]
  rfl

/-- The STATUS claimant's write of the status line (R169, R171). -/
theorem State.grantStatus_line (offer : s.status.offer = some .line) : s.grantStatus.guard = { s.guard with
      downstream := s.guard.downstream ++
        [⟨.status, .write, s.page + 0x80, 9, strobed (s.lineBytes ((s.status.heartbeat + 1) % 2 ^ 32)), false⟩] } ∧
    s.grantStatus.status.heartbeat = (s.status.heartbeat + 1) % 2 ^ 32 ∧ s.grantStatus.status.rewrite = decide (s.status.newRecords ≠ 0 ∧
      s.status.pending ||| Notice.reportReady.bit ≠ s.status.pending) ∧ s.grantStatus.status.newRecords = 0 ∧
    s.grantStatus.status.pending =
      if s.status.newRecords = 0 then s.status.pending else s.status.pending ||| Notice.reportReady.bit := by
  have act : s.grantStatus = s.grantLine := by
    unfold State.grantStatus
    simp only [offer]
  have beats : (s.lineBytes ((s.status.heartbeat + 1) % 2 ^ 32)).length / 8 = 9 := by rw [(s.lineBytes_line _).length]
  have carries : (s.offered.sendWrite .status (s.page + 0x80) (s.lineBytes ((s.status.heartbeat + 1) % 2 ^ 32))).guard = { s.guard with
      downstream := s.guard.downstream ++
        [⟨.status, .write, s.page + 0x80, 9, strobed (s.lineBytes ((s.status.heartbeat + 1) % 2 ^ 32)), false⟩] } := by
    unfold State.sendWrite
    rw [beats]
    rfl
  rw [act]
  unfold State.grantLine
  dsimp only
  by_cases none_ : s.status.newRecords = 0
  · rw [if_pos none_, if_pos none_]
    exact ⟨carries, rfl, by simp [none_], none_, rfl⟩
  · rw [if_neg none_, if_neg none_]
    refine ⟨?_, by simp [State.raise], ?_, by simp [State.raise], State.raise_status_pending _ _⟩
    · rw [State.raise_guard]
      exact carries
    · unfold State.raise State.setPending
      by_cases raised : s.status.pending ||| Notice.reportReady.bit = s.status.pending
      · rw [if_pos (by exact raised)]
        exact (decide_eq_false fun both => both.2 raised).symm
      · rw [if_neg (by exact raised)]
        exact (decide_eq_true ⟨none_, raised⟩).symm

/-- The STATUS claimant's write of the dump (R173). -/
theorem State.grantStatus_dump {d : Dump} (offer : s.status.offer = some .dump) (dump : s.status.dump = some d) :
    s.grantStatus.guard = { s.guard with downstream := s.guard.downstream ++
      [⟨.status, .write, s.page + d.offset, (d.bytes.take 256).length / 8, strobed (d.bytes.take 256), false⟩] } ∧
    (d.bytes.length ≤ 256 → s.grantStatus.status.dump = none ∧ s.grantStatus.control = { s.control with inProgress := none } ∧
      s.grantStatus.status.result = some ⟨6, s.control.inProgressTag, .done⟩) ∧
    (256 < d.bytes.length → s.grantStatus.status.dump = some ⟨d.offset + 256, d.bytes.drop 256⟩) := by
  have act : s.grantStatus = s.grantDump d := by
    unfold State.grantStatus
    simp only [offer, dump]
  rw [act]
  unfold State.grantDump
  dsimp only
  by_cases last : d.bytes.length ≤ 256
  · rw [if_pos last]
    exact ⟨rfl, fun _ => ⟨rfl, rfl, rfl⟩, fun more => absurd last (Nat.not_le.2 more)⟩
  · rw [if_neg last]
    exact ⟨rfl, fun short => absurd short last, fun _ => rfl⟩

/-! ### The COPIER claimant (R115, R118) -/

/-- The write of a piece of the job, carried to memory. -/
theorem State.sendJobWrite_eq (clip : Option Nat) (addr : Nat) (piece : List Byte) : s.sendJobWrite clip addr piece = { s with
    clip := { s.clip with writesOut := s.clip.writesOut + 1 }
    guard := { s.guard with
      downstream := s.guard.downstream ++ [⟨.copierWrite clip, .write, addr, piece.length / 8, strobed piece, false⟩] } } := rfl

/-- The COPIER claimant's read (R115). -/
theorem State.grantCopier_read {p k burst granted returned err j : Nat} {data : List Byte} {pl : Plan} {c : StationClip} {x : Selection}
    (copier : s.clip.copier = .unit p k (.reading burst granted returned data err)) (plan : s.clip.plans[p]? = some (some pl))
    (place : selectionAt 0 k pl.clips = some (j, c, x)) (waits : s.copierOffer.isSome = true) : s.grantCopier = { s with
      clip := { s.clip with copier := .unit p k (.reading burst (granted + 1) returned data err) }
      guard := { s.guard with downstream := s.guard.downstream ++
        [⟨.copierRead, .read, s.gen.ringBase + 512 * x.slot + 8 * burst * granted, burst, [], false⟩] } } := by
  have offer : s.copierOffer = if s.cutFlagAt p k || err != 0 || granted == 64 / burst then none
      else some (.read (s.gen.ringBase + 512 * x.slot + 8 * burst * granted) burst) := by
    unfold State.copierOffer
    simp only [copier, State.plan_of plan, place]
  have more : ¬ (s.cutFlagAt p k || err != 0 || granted == 64 / burst) = true := by
    intro ended
    rw [offer, if_pos ended] at waits
    exact Bool.false_ne_true waits
  rw [if_neg more] at offer
  unfold State.grantCopier
  simp only [offer, copier]
  rfl

/-- The COPIER claimant's write of a piece of a unit (R115). -/
theorem State.grantCopier_write {p k addr j : Nat} {piece : List Byte} {rest : List (List Byte)} {pl : Plan} {c : StationClip}
    {x : Selection} (copier : s.clip.copier = .unit p k (.writing addr (piece :: rest))) (plan : s.clip.plans[p]? = some (some pl))
    (place : selectionAt 0 k pl.clips = some (j, c, x)) : s.grantCopier =
      if rest = [] then (s.sendJobWrite (some j) addr piece).comeTo p (k + 1)
      else (s.sendJobWrite (some j) addr piece).setCopier (.unit p k (.writing (addr + piece.length) rest)) := by
  have offer : s.copierOffer = some (.write addr piece) := by
    unfold State.copierOffer
    simp only [copier]
  have owner : s.clipPlaceOf p k = some j := by
    unfold State.clipPlaceOf
    simp only [State.plan_of plan, place, Option.map_some]
  unfold State.grantCopier
  simp only [offer, copier, owner]
  cases rest with
  | nil => exact (if_pos rfl).symm
  | cons next more => exact (if_neg (List.cons_ne_nil next more)).symm

/-- The COPIER claimant's write of a piece of the directory (R118). -/
theorem State.grantCopier_directory {p addr : Nat} {piece : List Byte} {rest : List (List Byte)}
    (copier : s.clip.copier = .directory p addr (piece :: rest)) :
    s.grantCopier = (s.sendJobWrite none addr piece).setCopier (.directory p (addr + piece.length) rest) := by
  have offer : s.copierOffer = some (.write addr piece) := by
    unfold State.copierOffer
    simp only [copier]
  unfold State.grantCopier
  simp only [offer, copier]
  rfl

end

/-! ### What every grant of a claimant leaves -/

/-- Of the Path Guard only the channel and the announced range have changed. -/
def ChannelMoved (s t : State) : Prop := t.guard = { s.guard with downstream := t.guard.downstream, range := t.guard.range }

theorem ChannelMoved.range {s t u : State} (first : ChannelMoved s t) (second : RangeMoved t u) : ChannelMoved s u := by
  unfold RangeMoved at second
  unfold ChannelMoved at *
  rw [second, first]

theorem State.grantCopier_channel (s : State) : ChannelMoved s s.grantCopier := by
  unfold ChannelMoved State.grantCopier
  split
  · split
    · rfl
    · rfl
  · split
    · dsimp only
      split
      · rfl
      · rw [State.comeTo_guard]
        rfl
    · rfl
    · rfl
  · rfl

theorem State.grantStatus_channel (s : State) : ChannelMoved s s.grantStatus := by
  unfold ChannelMoved State.grantStatus
  split
  · unfold State.grantResult
    rw [State.raise_guard]
    rfl
  · unfold State.grantLine
    dsimp only
    split
    · rfl
    · rw [State.raise_guard]
      rfl
  · split
    · unfold State.grantDump
      dsimp only
      split <;> rfl
    · rfl
  · rfl

theorem State.grantReport_channel (s : State) : ChannelMoved s s.grantReport := by
  unfold State.grantReport
  split
  next addr bytes ev index record second offer writing =>
    dsimp only
    split
    · refine ChannelMoved.range ?_ (State.writerLook_range _)
      have kept := State.recordOutstanding_frame ev (Frame.refl [.report, .notices, .writer, .line, .tallies, .wires]
        (s.sendWrite .report addr bytes)) (by decide) .guard (by decide)
      unfold ChannelMoved
      rw [show _ = _ from kept]
      rfl
    · rfl
  next => rfl

theorem State.grantOwn_channel (q : Claimant) (s : State) : ChannelMoved s (s.grantOwn q) := by
  cases q with
  | loader =>
    show ChannelMoved s s.grantLoader
    unfold State.grantLoader
    split <;> rfl
  | status => exact s.grantStatus_channel
  | report => exact s.grantReport_channel
  | refetch =>
    unfold State.grantOwn
    dsimp only
    split <;> rfl
  | copier => exact s.grantCopier_channel

/-- No grant changes the general fields in force. -/
theorem State.grantOwn_gen (q : Claimant) (s : State) : (s.grantOwn q).gen = s.gen := by
  cases q with
  | loader =>
    show s.grantLoader.gen = s.gen
    unfold State.grantLoader
    split <;> rfl
  | status =>
    show s.grantStatus.gen = s.gen
    unfold State.grantStatus
    split
    next r _ => exact State.gen_congr (State.grantResult_frame r (Frame.refl [.guard, .notices, .writer] s) (by decide) .control (by decide))
    next => exact State.gen_congr (State.grantLine_frame (Frame.refl [.guard, .notices, .writer, .line] s) (by decide) .control (by decide))
    next =>
      split
      · unfold State.grantDump
        dsimp only
        split <;> rfl
      · rfl
    next => rfl
  | report =>
    refine State.gen_congr ?_
    show s.grantReport.control = s.control
    unfold State.grantReport
    split
    · dsimp only
      split
      · exact State.writerLook_frame (al := [.assoc, .clip, .guard, .report, .notices, .writer, .line, .tallies, .wires])
          (State.recordOutstanding_frame _ (State.sendWrite_frame _ _ _ (Frame.refl _ s) (by decide)) (by decide)) (by decide)
          .control (by decide)
      · rfl
    · rfl
  | refetch =>
    unfold State.grantOwn
    dsimp only
    split <;> rfl
  | copier => exact State.gen_congr (State.grantCopier_frame (Frame.refl [.clip, .guard] s) (by decide) .control (by decide))

/-! ### The arbiter's grant to a claimant (R134, R135) -/

/-- The Path Guard as it counts a grant (R134; log 20). -/
theorem State.countGrant_eq (s : State) : s.countGrant = { s with guard := { s.guard with
    grantCount := if s.guard.grantCount < 15 then s.guard.grantCount + 1 else 0
    shareCount := if s.guard.grantCount < 15 then s.guard.shareCount else 0
    frameShare := if s.guard.grantCount < 15 then s.guard.frameShare else s.gen.partShare } } := by
  unfold State.countGrant
  by_cases more : s.guard.grantCount < 15
  · simp only [if_pos more]
    rfl
  · simp only [if_neg more]
    rfl

/-- The claimant is marked as the one served, and its grant is counted in the share when PASS waited too (R134, R135). -/
def State.serve (q : Claimant) (s : State) : State :=
  s.setGuard fun g => { g with lastServed := q, shareCount := g.shareCount + (if s.guard.candidate.isSome then 1 else 0) }

/-- A waiting claimant is served while PASS does not wait, or the share of the frame is not used up (R134). -/
theorem exec_downstreamGrant_part {s : State} {q : Claimant} (next : s.guard.lastServed.after.find? s.waits = some q)
    (turn : s.guard.candidate = none ∨ s.guard.shareCount < s.guard.frameShare) :
    exec .downstreamGrant s = done ((s.serve q).grantOwn q).countGrant := by
  have chosen : s.nextClaimant = some q := next
  show execDownstreamGrant s = _
  unfold execDownstreamGrant
  rw [if_neg (by simp [chosen])]
  show done (s.arbitrate (511 + 1)) = _
  unfold State.arbitrate State.grantPart State.serve
  cases candidate : s.guard.candidate with
  | none => simp only [chosen, Option.isSome_none]
  | some c =>
    have share : s.guard.shareCount < s.guard.frameShare := turn.resolve_left (by rw [candidate]; exact Option.some_ne_none c)
    simp only [chosen, decide_eq_true share, Option.isSome_some]

end Sys2Proof.Machine
end

section
/-! THEOREM. The grant to a claimant of the part (R134, R135). -/
namespace Sys2Proof.Machine

/-- Settles O37: the claimant's own grant by the equations of `State.grantOwn`, the rest by the counting of the grant. -/
theorem partClaimantIsGranted : Obligations.PartClaimantIsGranted := by
  unfold Obligations.PartClaimantIsGranted
  intro q s next turn
  have waits : (s.serve q).waits q = true := List.find?_some (p := s.waits) next
  have grant := exec_downstreamGrant_part next turn
  obtain ⟨v, vIs⟩ : ∃ v, v = s.serve q := ⟨_, rfl⟩
  have vGuard : v.guard = { s.guard with
      lastServed := q, shareCount := s.guard.shareCount + (if s.guard.candidate.isSome then 1 else 0) } := by
    rw [vIs]
    rfl
  have same : Frame [.guard] s v := by
    rw [vIs]
    exact State.setGuard_frame _ (Frame.refl _ s) (by decide)
  have vGen : v.gen = s.gen := State.gen_congr (same .control (by decide))
  have vControl : v.control = s.control := same .control (by decide)
  have vClip : v.clip = s.clip := same .clip (by decide)
  have vStatus : v.status = s.status := by
    rw [vIs]
    rfl
  rw [← vIs] at grant waits
  have channel := State.grantOwn_channel q v
  have gen := (State.grantOwn_gen q v).trans vGen
  obtain ⟨w, wIs⟩ : ∃ w, w = v.grantOwn q := ⟨_, rfl⟩
  rw [← wIs] at grant channel gen
  unfold ChannelMoved at channel
  have counted : Frame [.guard, .writer] w w.countGrant.settle :=
    State.settle_frame (State.countGrant_frame (Frame.refl _ w) (by decide)) (by decide)
  have status : w.countGrant.settle.status = w.status.choose := by
    rw [State.settle_status, State.countGrant_eq]
  have guard : w.countGrant.settle.guard = { w.guard with
      grantCount := if s.guard.grantCount < 15 then s.guard.grantCount + 1 else 0
      shareCount := if s.guard.grantCount < 15 then s.guard.shareCount + (if s.guard.candidate.isSome then 1 else 0) else 0
      frameShare := if s.guard.grantCount < 15 then s.guard.frameShare else s.gen.partShare } := by
    rw [State.settle_guard, State.countGrant_eq, gen, channel, vGuard]
  have downstream : w.countGrant.settle.guard.downstream = w.guard.downstream := by rw [guard]
  refine ⟨w.countGrant.settle, grant, ?served, ?queue, ?held, ?frame16, ?loader, ?result, ?line, ?dump, ?first, ?second, ?refetch, ?copier,
    ?directory, ?frames⟩
  case served => rw [guard, channel, vGuard]
  case queue => rw [guard, channel, vGuard]
  case held => rw [guard, channel, vGuard]
  case frame16 =>
    rw [guard]
    by_cases more : s.guard.grantCount < 15
    · simp only [if_pos more, and_self]
    · simp only [if_neg more, and_self]
  case loader =>
    intro r base isLoader load page
    subst isLoader
    have act : w = v.grantLoader := wIs
    have moved := State.grantLoader_eq (s := v) (vControl ▸ load) (vControl ▸ page) waits
    refine ⟨?_, ?_⟩
    · rw [downstream, act, moved, vGuard]
    · exact Eq.trans (counted .control (by decide)) (by rw [act, moved, vControl])
  case result =>
    intro r isStatus offer
    subst isStatus
    have act : w = v.grantStatus := wIs
    obtain ⟨carried, raised⟩ := State.grantStatus_result (s := v) (vStatus ▸ offer)
    refine ⟨?_, r.bytes_word, ?_⟩
    · rw [downstream, act, carried, vGuard, State.page, vControl]
      rfl
    · simp only [status, Status.choose_rest]
      rw [act, raised, vStatus]
  case line =>
    intro isStatus offer
    subst isStatus
    have act : w = v.grantStatus := wIs
    obtain ⟨carried, heartbeat, rewrite, newRecords, pending⟩ := State.grantStatus_line (s := v) (vStatus ▸ offer)
    have bytes (h : Nat) : v.lineBytes h = s.lineBytes h := by
      rw [vIs]
      rfl
    simp only [status, Status.choose_rest]
    refine ⟨?_, s.lineBytes_line _, ?_, ?_, ?_, ?_⟩
    · rw [downstream, act, carried, vGuard, State.page, vControl, vStatus, bytes]
      rfl
    · rw [act, heartbeat, vStatus]
    · rw [act, rewrite, vStatus]
    · rw [act, newRecords]
    · rw [act, pending, vStatus]
  case dump =>
    intro d isStatus offer dump
    subst isStatus
    have act : w = v.grantStatus := wIs
    obtain ⟨carried, last, more⟩ := State.grantStatus_dump (s := v) (vStatus ▸ offer) (vStatus ▸ dump)
    refine ⟨?_, fun short => ?_, fun long => ?_⟩
    · rw [downstream, act, carried, vGuard, State.page, vControl]
      rfl
    · obtain ⟨ended, control, result⟩ := last short
      refine ⟨?_, ?_, ?_⟩
      · simp only [status, Status.choose_rest]
        rw [act, ended]
      · exact Eq.trans (counted .control (by decide)) (by rw [act, control, vControl])
      · refine State.settle_hasResult _ _ ?_
        rw [State.countGrant_eq, act, ← vControl]
        exact result
    · simp only [status, Status.choose_rest]
      rw [act, more long]
  case first =>
    intro ev index record isReport writing
    subst isReport
    have vReport : v.report = s.report := same .report (by decide)
    have act : w = v.grantReport := wIs
    have moved := State.grantReport_eq (s := v) (vReport ▸ writing)
    rw [if_neg Bool.false_ne_true, vGen] at moved
    refine ⟨?_, ?_⟩
    · rw [downstream, act, moved]
      unfold State.setReport State.sendWrite State.setGuard
      rw [vGuard]
    · refine Eq.trans (counted .report (by decide)) ?_
      rw [act, moved]
      unfold State.setReport State.sendWrite State.setGuard
      rw [vReport]
  case second =>
    intro ev index record isReport writing
    subst isReport
    have vReport : v.report = s.report := same .report (by decide)
    have act : w = v.grantReport := wIs
    have moved := State.grantReport_eq (s := v) (vReport ▸ writing)
    rw [if_pos rfl, vGen] at moved
    obtain ⟨x, xIs⟩ : ∃ x, x = v.sendWrite .report (s.gen.reportBase + 512 * index + 256) (record.drop 256) := ⟨_, rfl⟩
    have toX : Frame [.guard] s x := by
      rw [xIs]
      exact State.sendWrite_frame _ _ _ same (by decide)
    have xReport : x.report = s.report := toX .report (by decide)
    have xWires : x.wires = s.wires := toX .wires (by decide)
    have xTallies : x.tallies = s.tallies := toX .tallies (by decide)
    have xGen : x.gen = s.gen := State.gen_congr (toX .control (by decide))
    have xStatus : x.status = s.status := by
      rw [xIs]
      exact vStatus
    rw [← xIs] at moved
    obtain ⟨report, wires, tallies, newRecords, heartbeat, dump, rewrite, pending⟩ := x.recordOutstanding_records ev
    have toA : Frame [.report, .notices, .writer, .line, .tallies, .wires] x (x.recordOutstanding ev) :=
      State.recordOutstanding_frame ev (Frame.refl _ x) (by decide)
    have aGuard : (x.recordOutstanding ev).guard = x.guard := toA .guard (by decide)
    have looked := (x.recordOutstanding ev).writerLook_range
    unfold RangeMoved at looked
    rw [← moved, ← act] at looked
    refine ⟨x.recordOutstanding ev, w, ?_, ?_, ?_, ?_, ?_, ?_, ?_, rewrite, ?_, ?_, ?_, counted, ?_⟩
    · rw [aGuard, xIs]
      unfold State.sendWrite State.setGuard
      rw [vGuard]
    · rw [report, xReport, xGen]
    · rw [wires, xWires]
    · rw [tallies, State.count_tallies, State.count_tallies, xTallies]
    · rw [newRecords, xStatus]
    · rw [heartbeat, xStatus]
    · rw [dump, xStatus]
    · rw [pending, xStatus, xGen, xReport]
    · exact (toX.mono (by decide)).trans (toA.mono (by decide))
    · rw [act, moved]
      exact State.writerLook_looked _
    · rw [downstream, looked]
  case refetch =>
    intro e isRefetch reading
    subst isRefetch
    have vIntake : v.intake = s.intake := same .intake (by decide)
    have moved := State.grantRefetch_eq (s := v) (vIntake ▸ reading) waits
    refine ⟨?_, ?_⟩
    · rw [downstream, wIs, moved, vGuard, vGen]
    · refine Eq.trans (counted .intake (by decide)) ?_
      rw [wIs, moved, vIntake]
  case copier =>
    intro p k m pl cs ds c x isCopier plan clips sel place
    subst isCopier
    have act : w = v.grantCopier := wIs
    have there : selectionAt 0 k pl.clips = some (cs.length, c, x) := by
      rw [clips, place, selectionAt_split cs ds c m x sel 0, Nat.zero_add]
    have tClip : w.countGrant.settle.clip = w.clip := counted .clip (by decide)
    refine ⟨fun burst granted returned data err copier => ?reads, fun addr piece rest copier => ?writes⟩
    case reads =>
      have moved := State.grantCopier_read (s := v) (vClip ▸ copier) (vClip ▸ plan) there waits
      refine ⟨?_, ?_⟩
      · rw [downstream, act, moved, vGuard, vGen]
      · rw [tClip, act, moved, vClip]
    case writes =>
      have moved := State.grantCopier_write (s := v) (vClip ▸ copier) (vClip ▸ plan) there
      obtain ⟨y, yIs⟩ : ∃ y, y = v.sendJobWrite (some cs.length) addr piece := ⟨_, rfl⟩
      have yClip : y.clip = { s.clip with writesOut := s.clip.writesOut + 1 } := by
        rw [yIs, State.sendJobWrite_eq, vClip]
      have yGuard : y.guard.downstream = s.guard.downstream ++
          [⟨.copierWrite (some cs.length), .write, addr, piece.length / 8, strobed piece, false⟩] := by
        rw [yIs, State.sendJobWrite_eq, vGuard]
      have yGen : y.gen = s.gen := by
        rw [yIs]
        exact vGen
      have yPlan : y.clip.plans[p]? = some (some pl) := by
        rw [yClip]
        exact plan
      rw [← yIs] at moved
      refine ⟨?_, fun more => ?_, fun m' r cs' ds' c' x' last region clips' sel' place' => ?_, fun r e last region end_ event => ?_⟩
      · rw [downstream, act, moved]
        split
        · rw [State.comeTo_guard, yGuard]
        · exact yGuard
      · rw [tClip, act, moved, if_neg more, State.setCopier, State.setClip]
        simp only [yClip]
      · have next' : AtSelection y p (k + 1) pl r cs' c' ds' m' x' := ⟨yPlan, region, clips', sel', place'⟩
        rw [tClip, act, moved, if_pos last]
        by_cases cut : x'.status = .cut
        · rw [if_pos cut, State.comeTo_cut yPlan next'.selection cut, State.writeVoid, next'.unitAddr y rfl, yGen, State.setCopier, State.setClip]
          simp only [yClip]
        · rw [if_neg cut, State.comeTo_check yPlan next'.selection cut, yGen, State.setCopier, State.setClip]
          simp only [yClip]
      · have yAssoc : y.assoc = s.assoc := by
          rw [yIs]
          exact same .assoc (by decide)
        have behind : selectionAt 0 (k + 1) pl.clips = none := by
          rw [end_]
          exact selectionAt_end pl.clips 0
        rw [tClip, act, moved, if_pos last, State.comeTo_end yPlan behind (yAssoc ▸ event) region, yGen, State.setCopier, State.setClip]
        simp only [yClip]
  case directory =>
    intro p addr piece rest isCopier copier
    subst isCopier
    have act : w = v.grantCopier := wIs
    have moved := State.grantCopier_directory (s := v) (vClip ▸ copier)
    refine ⟨?_, ?_⟩
    · rw [downstream, act, moved, State.setCopier, State.setClip, State.sendJobWrite_eq, vGuard]
    · refine Eq.trans (counted .clip (by decide)) ?_
      rw [act, moved, State.setCopier, State.setClip, State.sendJobWrite_eq, vClip]
  case frames =>
    refine ⟨fun isLoader => ?_, fun isRefetch => ?_, fun isCopier => ?_, fun isStatus => ?_⟩
    · subst isLoader
      have granted : Frame [.control, .guard] s w := wIs ▸ State.grantLoader_frame (same.mono (by decide)) (by decide)
      exact (granted.mono (by decide)).trans (counted.mono (by decide))
    · subst isRefetch
      have granted : Frame [.intake, .guard] s w := by
        rw [wIs]
        unfold State.grantOwn
        dsimp only
        split
        · exact State.grantRefetch_frame _ _ (same.mono (by decide)) (by decide)
        · exact same.mono (by decide)
      exact (granted.mono (by decide)).trans (counted.mono (by decide))
    · subst isCopier
      have granted : Frame [.clip, .guard] s w := wIs ▸ State.grantCopier_frame (same.mono (by decide)) (by decide)
      exact (granted.mono (by decide)).trans (counted.mono (by decide))
    · subst isStatus
      have granted : Frame [.control, .guard, .notices, .writer, .line] s w :=
        wIs ▸ State.grantStatus_frame (same.mono (by decide)) (by decide)
      exact granted.trans (counted.mono (by decide))

end Sys2Proof.Machine
end

section
/-! SUPPORT. PASS's turn: where a request lies, what its candidate becomes, and the cuts of a granted write (R124, R125, R128 to R130, R134). -/
namespace Sys2Proof.Machine

/-! ### Where a request lies (R124) -/

theorem liesIn_iff {base len : Nat} {r : Request} : liesIn base len r = true ↔ Request.within r base len := by
  unfold liesIn reqBytes Request.within
  simp only [Bool.and_eq_true, decide_eq_true_iff]

theorem touches_iff {base len : Nat} {r : Request} : touches base len r = true ↔ ¬ Request.apart r base len := by
  unfold touches reqBytes Request.apart
  simp only [Bool.and_eq_true, decide_eq_true_iff]
  omega

section
variable {s : State} {r : Request}

theorem State.place_ring (inRing : Request.within r s.gen.ringBase (512 * s.gen.ringSlots)) : s.place r = .ring :=
  if_pos (liesIn_iff.2 inRing)

variable (ring : ¬ Request.within r s.gen.ringBase (512 * s.gen.ringSlots))
include ring

theorem State.place_clipStore (inside : Request.within r s.gen.clipBase s.gen.clipSize) : s.place r = .clipStore :=
  (if_neg fun h => ring (liesIn_iff.1 h)).trans (if_pos (liesIn_iff.2 inside))

variable (store : ¬ Request.within r s.gen.clipBase s.gen.clipSize)
include store

theorem State.place_reportRing (inside : Request.within r s.gen.reportBase (512 * s.gen.reportCap)) : s.place r = .reportRing :=
  (if_neg fun h => ring (liesIn_iff.1 h)).trans <| (if_neg fun h => store (liesIn_iff.1 h)).trans (if_pos (liesIn_iff.2 inside))

variable (records : ¬ Request.within r s.gen.reportBase (512 * s.gen.reportCap))
include records

theorem State.place_page (inside : Request.within r s.page 8192) : s.place r = .page :=
  (if_neg fun h => ring (liesIn_iff.1 h)).trans <| (if_neg fun h => store (liesIn_iff.1 h)).trans <|
    (if_neg fun h => records (liesIn_iff.1 h)).trans (if_pos (liesIn_iff.2 inside))

/-- A request within no extent lies elsewhere when it touches none, and straddles otherwise. -/
theorem State.place_outside (page : ¬ Request.within r s.page 8192) :
    (Request.apart r s.gen.ringBase (512 * s.gen.ringSlots) ∧ Request.apart r s.gen.clipBase s.gen.clipSize ∧
      Request.apart r s.gen.reportBase (512 * s.gen.reportCap) ∧ Request.apart r s.page 8192 → s.place r = .elsewhere) ∧
    (¬ (Request.apart r s.gen.ringBase (512 * s.gen.ringSlots) ∧ Request.apart r s.gen.clipBase s.gen.clipSize ∧
      Request.apart r s.gen.reportBase (512 * s.gen.reportCap) ∧ Request.apart r s.page 8192) → s.place r = .straddles) := by
  have outside : s.place r = if touches s.gen.ringBase (512 * s.gen.ringSlots) r || touches s.gen.clipBase s.gen.clipSize r ||
      touches s.gen.reportBase (512 * s.gen.reportCap) r || touches s.page 8192 r then .straddles else .elsewhere :=
    (if_neg fun h => ring (liesIn_iff.1 h)).trans <| (if_neg fun h => store (liesIn_iff.1 h)).trans <|
      (if_neg fun h => records (liesIn_iff.1 h)).trans (if_neg fun h => page (liesIn_iff.1 h))
  refine ⟨fun apart => ?_, fun touching => ?_⟩
  · rw [outside, if_neg]
    simp only [Bool.or_eq_true, touches_iff]
    tauto
  · rw [outside, if_pos]
    simp only [Bool.or_eq_true, touches_iff]
    tauto

end

/-- A request apart from an extent, of at least one beat, does not lie in it. -/
theorem Request.not_within_of_apart {r : Request} {base len : Nat} (beats : 1 ≤ r.beats) (apart : Request.apart r base len) :
    ¬ Request.within r base len := by
  unfold Request.apart Request.within at *
  omega

theorem Request.beats_pos {r : Request} (ok : r.ok = true) : 1 ≤ r.beats := by
  unfold Request.ok at ok
  simp only [Bool.and_eq_true, decide_eq_true_iff] at ok
  omega

/-! ### The classification of an open write to a pinned slot, and of a read of the range (R125, R130, R132) -/

theorem State.holdLimit_eq (s : State) : s.holdLimit = if s.attend.unattended then 0 else s.gen.holdLimit * 1000 := rfl

theorem State.classify_pinnedOpens {s : State} {r : Request} {n : Nat} {ns : List Nat} (mark : Bool) (loaded : s.loaded = true)
    (kind : r.kind = .write) (inRing : Request.within r s.gen.ringBase (512 * s.gen.ringSlots))
    (writer : s.gen.writerTags.getLsbD r.tag = true) (pinned : s.pinnedOpens r = n :: ns) :
    s.classify mark r = if s.holdLimit = 0 then .grant (n :: ns) else .hold (.write n) := by
  unfold State.classify State.classifyRingWrite
  simp only [loaded, State.place_ring inRing, kind, writer, pinned, if_true]

theorem State.classify_clipRead {s : State} {r : Request} {mark : Bool} (loaded : s.loaded = true) (kind : r.kind = .read)
    (place : s.place r = .clipStore) : s.classify mark r =
      if !mark && s.gen.hostTags.getLsbD r.tag && s.touchesRange r && s.holdLimit != 0 then .hold (.read false) else .grant [] := by
  unfold State.classify State.classifyClipRead
  simp only [loaded, place, kind, if_true]

theorem State.touchesRange_iff {s : State} {r : Request} {first n : Nat} (range : s.guard.range = some (first, n)) :
    s.touchesRange r = true ↔ ¬ Request.apart r (s.gen.clipBase + 512 * first) (512 * n) := by
  unfold State.touchesRange
  simp only [range]
  exact touches_iff

/-! ### The turn of PASS (R128, R134) -/

/-- What follows a try of PASS's candidate: nothing after a grant, and otherwise a new choice in the same event (R128). -/
def PassOutcome.follow (n : Nat) : PassOutcome → State
  | .granted t => t
  | .again t => t.arbitrate n

/-- With no claimant waiting, or the share used up, the arbiter tries PASS's candidate. -/
theorem State.arbitrate_pass {s : State} {c : Candidate} (n : Nat) (candidate : s.guard.candidate = some c)
    (turn : s.guard.lastServed.after.find? s.waits = none ∨ s.guard.frameShare ≤ s.guard.shareCount) :
    s.arbitrate (n + 1) = (s.tryPass c).follow n := by
  have next : s.nextClaimant = s.guard.lastServed.after.find? s.waits := rfl
  rw [State.arbitrate]
  rcases turn with alone | used
  · simp only [candidate, next, alone]
    cases s.tryPass c <;> rfl
  · simp only [candidate, decide_eq_false (Nat.not_lt.2 used)]
    cases s.nextClaimant <;> cases s.tryPass c <;> rfl

/-- Nobody waits: the arbiter rests. -/
theorem State.arbitrate_rests {s : State} (n : Nat) (nobody : s.guard.candidate = none)
    (alone : s.guard.lastServed.after.find? s.waits = none) : s.arbitrate n = s := by
  have next : s.nextClaimant = none := alone
  cases n with
  | zero => rfl
  | succ n =>
    unfold State.arbitrate
    simp only [nobody, next]

section
variable {s : State} {c : Candidate} {r : Request} {mark : Bool} (candidate : s.guard.candidate = some c)
  (request : s.guard.request c = some (r, mark))
  (turn : s.guard.lastServed.after.find? s.waits = none ∨ s.guard.frameShare ≤ s.guard.shareCount)
include candidate request turn

theorem exec_downstreamGrant_turn : exec .downstreamGrant s = done (match s.classify mark r with
    | .grant cuts => s.grantPass c r cuts
    | .refuse => (s.refuse c r).arbitrate 511
    | .hold k => (s.hold c r k).arbitrate 511) := by
  show execDownstreamGrant s = _
  unfold execDownstreamGrant
  rw [if_neg (by simp [candidate])]
  show done (s.arbitrate (511 + 1)) = _
  rw [State.arbitrate_pass 511 candidate turn]
  unfold State.tryPass
  simp only [request]
  cases s.classify mark r <;> rfl

theorem exec_downstreamGrant_granted {cuts : List Nat} (granted : s.classify mark r = .grant cuts) :
    exec .downstreamGrant s = done (s.grantPass c r cuts) := by
  rw [exec_downstreamGrant_turn candidate request turn, granted]

theorem exec_downstreamGrant_held {k : HoldKind} {t : State} (holds : s.classify mark r = .hold k) (held : s.hold c r k = t)
    (nobody : t.guard.candidate = none) (alone : t.guard.lastServed.after.find? t.waits = none) : exec .downstreamGrant s = done t := by
  rw [exec_downstreamGrant_turn candidate request turn, holds]
  show done ((s.hold c r k).arbitrate 511) = _
  rw [held, State.arbitrate_rests 511 nobody alone]

theorem exec_downstreamGrant_refused {t : State} (refuses : s.classify mark r = .refuse) (refused : s.refuse c r = t)
    (nobody : t.guard.candidate = none) (alone : t.guard.lastServed.after.find? t.waits = none) : exec .downstreamGrant s = done t := by
  rw [exec_downstreamGrant_turn candidate request turn, refuses]
  show done ((s.refuse c r).arbitrate 511) = _
  rw [refused, State.arbitrate_rests 511 nobody alone]

end

/-- Who waits is seen in the areas of the claimants alone (R134). -/
theorem State.waits_congr {s t : State} (control : t.control = s.control) (offer : t.status.offer = s.status.offer) (report : t.report = s.report)
    (intake : t.intake = s.intake) (clip : t.clip = s.clip) : t.waits = s.waits := by
  have gen : t.gen = s.gen := State.gen_congr control
  have plan (i : Nat) : t.plan i = s.plan i := by
    unfold State.plan
    rw [clip]
  have cutFlag (i k : Nat) : t.cutFlagAt i k = s.cutFlagAt i k := by
    unfold State.cutFlagAt
    rw [plan]
  funext q
  cases q with
  | loader =>
    show t.loaderOffer.isSome = s.loaderOffer.isSome
    unfold State.loaderOffer
    rw [control]
  | status => exact congrArg Option.isSome offer
  | report =>
    show t.reportOffer.isSome = s.reportOffer.isSome
    unfold State.reportOffer
    rw [report, gen]
  | refetch =>
    show t.refetchOffer.isSome = s.refetchOffer.isSome
    unfold State.refetchOffer
    rw [intake, gen]
  | copier =>
    show t.copierOffer.isSome = s.copierOffer.isSome
    unfold State.copierOffer
    simp only [clip, gen, plan, cutFlag]

/-! ### Holds (R128 to R130) -/

/-- The place of the earliest RELEASED entry does not see the HELD entries behind it. -/
theorem earliestReleased_append_held (i : Nat) (l : List Held) (r : Request) (k : HoldKind) (d : Option Nat) :
    earliestReleased i (l ++ [⟨r, k, .held d⟩]) = earliestReleased i l := by
  induction l generalizing i with
  | nil => rfl
  | cons h l ih =>
    show earliestReleased i (h :: (l ++ [⟨r, k, .held d⟩])) = earliestReleased i (h :: l)
    unfold earliestReleased
    rw [ih]

/-- PASS's candidate does not see the deadline of a HELD entry. -/
theorem PathGuard.candidate_append_held (g : PathGuard) (l : List Held) (r : Request) (k k' : HoldKind) (d d' : Option Nat)
    (q : List Queued) : ({ g with held := l ++ [⟨r, k, .held d⟩], queue := q } : PathGuard).candidate =
      ({ g with held := l ++ [⟨r, k', .held d'⟩], queue := q } : PathGuard).candidate := by
  have back (tag : Nat) : ({ g with held := l ++ [⟨r, k, .held d⟩], queue := q } : PathGuard).heldBack tag =
      ({ g with held := l ++ [⟨r, k', .held d'⟩], queue := q } : PathGuard).heldBack tag := by
    unfold PathGuard.heldBack
    simp only [List.any_append, List.any_cons, List.any_nil]
  unfold PathGuard.candidate
  simp only [earliestReleased_append_held, back]

section
variable {s : State} {r : Request} {k : HoldKind} {i : Nat}

/-- A queued request enters the list while it has room (R129). -/
theorem State.hold_enters (room : s.guard.held.length < 4) : s.hold (.queued i) r k = (s.setGuard fun g => { g with
    held := g.held ++ [⟨r, k, .held (some (deadline s.now s.holdLimit))⟩], queue := removeAt i g.queue }).count k.tally :=
  if_pos room

/-- A queued request waits for room in a full list (R129). -/
theorem State.hold_waits (full : 4 ≤ s.guard.held.length) (queued : s.guard.queue[i]? = some ⟨r, false⟩) :
    s.hold (.queued i) r k = { s with guard := { s.guard with queue := s.guard.queue.set i ⟨r, true⟩ } } := by
  refine (if_neg (Nat.not_lt.2 full)).trans ?_
  show ({ s with guard := { s.guard with queue := s.guard.queue.modify i fun q => { q with waiting := true } } } : State) = _
  rw [modify_eq_set queued]

/-- A RELEASED entry returns to HELD in its own place (R128). -/
theorem State.hold_returns {h : Held} (listed : s.guard.held[i]? = some h) : s.hold (.held i) r k = (s.setGuard fun g => { g with
    held := g.held.set i { h with kind := k, state := .held (some (deadline s.now s.holdLimit)) } }).count k.tally := by
  show ((s.setGuard fun g => { g with
    held := g.held.modify i fun h => { h with kind := k, state := .held (some (deadline s.now s.holdLimit)) } }).count k.tally) = _
  unfold State.setGuard
  simp only [modify_eq_set listed]

end

/-! ### The cuts of a granted write (R11, R130) -/

/-- What has been told of cuts still stands. -/
def CutsTold (s t : State) : Prop := t.wires.cutNotes = s.wires.cutNotes ∧ t.wires.slotFree = s.wires.slotFree

theorem CutsTold.of_wires {s t : State} (same : t.wires = s.wires) : CutsTold s t := by
  unfold CutsTold
  rw [same]
  exact ⟨rfl, rfl⟩

theorem CutsTold.trans {s t u : State} (first : CutsTold s t) (second : CutsTold t u) : CutsTold s u :=
  ⟨second.1.trans first.1, second.2.trans first.2⟩

theorem CutsTold.foldl {α : Type} {f : State → α → State} (each : ∀ s a, CutsTold s (f s a)) (l : List α) (s : State) :
    CutsTold s (l.foldl f s) := by
  induction l generalizing s with
  | nil => exact ⟨rfl, rfl⟩
  | cons a l ih => exact (each s a).trans (ih _)

theorem State.acceptBlock_told (n gen : Nat) (h : Header) (gap brk : Bool) (s : State) : CutsTold s (s.acceptBlock n gen h gap brk) := by
  rw [State.acceptBlock_eq]
  refine CutsTold.trans (t := s.accepted n gen h gap brk) ?_ (.of_wires ?_)
  · unfold State.accepted State.countAccepted State.restartSilence State.advanceHorizon CutsTold
    dsimp only
    split <;> split <;> exact ⟨rfl, rfl⟩
  · exact State.routeBlock_frame _ _ _ _ _ (Frame.refl [.intake, .notices, .writer, .tallies] _) (by decide) .wires (by decide)

theorem State.takePiece_told (s : State) (p : Piece) : CutsTold s (s.takePiece p) := by
  have body (q : Piece) (x : State) : (x.bodyWrite q).wires = x.wires :=
    State.bodyWrite_frame q (Frame.refl [.intake, .notices, .writer, .tallies] x) (by decide) .wires (by decide)
  have opens : (s.openWrite p.slot).wires = s.wires :=
    State.openWrite_frame p.slot (Frame.refl [.intake] s) (by decide) .wires (by decide)
  have noOpen : (s.rejectNoOpen p.slot).wires = s.wires :=
    State.rejectNoOpen_frame p.slot (Frame.refl [.intake, .notices, .writer, .tallies] s) (by decide) .wires (by decide)
  unfold State.takePiece
  split
  · split
    · exact .of_wires ((body _ _).trans opens)
    · exact .of_wires opens
  · unfold State.sealWrite
    split
    · split
      · dsimp only
        split
        · exact State.acceptBlock_told _ _ _ _ _ _
        · exact State.acceptBlock_told _ _ _ _ _ _
        · exact State.acceptBlock_told _ _ _ _ _ _
        · exact .of_wires (State.rejectBlock_frame _ _ (Frame.refl [.intake, .notices, .writer, .tallies] s) (by decide) .wires (by decide))
      · exact .of_wires noOpen
      · exact .of_wires noOpen
      · exact .of_wires rfl
    · exact .of_wires rfl
  · exact .of_wires (State.badMarkerWrite_frame _ (Frame.refl [.intake, .notices, .writer, .tallies] s) (by decide) .wires (by decide))
  · exact .of_wires (body _ _)
  · exact .of_wires rfl

theorem State.takePieceDraining_told (s : State) (p : Piece) : CutsTold s (s.takePieceDraining p) := by
  unfold State.takePieceDraining
  split <;> exact .of_wires rfl

/-- The pieces of a write cut nothing, and tell nothing of cuts (R2). -/
theorem State.takeRingWrite_told (r : Request) (s : State) : CutsTold s (s.takeRingWrite r) := by
  unfold State.takeRingWrite
  split
  · exact CutsTold.foldl State.takePiece_told _ _
  · exact CutsTold.foldl State.takePieceDraining_told _ _
  all_goals exact .of_wires rfl

/-- A slot of an open write to be cut has pins (R11). -/
theorem State.pinnedOpens_pinned {s : State} {r : Request} {m : Nat} {e : Slot} (listed : m ∈ s.pinnedOpens r)
    (at_ : s.intake.dir[m]? = some e) : e.pins ≠ 0 := by
  unfold State.pinnedOpens at listed
  obtain ⟨p, kept, rfl⟩ := List.mem_map.1 listed
  have pinned := (Bool.and_eq_true_iff.1 (List.mem_filter.1 kept).2).2
  unfold State.pins State.slot at pinned
  simp only [at_, decide_eq_true_iff] at pinned
  omega

/-- Cuts leave the slots that they do not name. -/
theorem State.cutSlots_other {ns : List Nat} {m : Nat} (unnamed : m ∉ ns) (s : State) :
    (ns.foldl (fun y n => y.cutSlot n) s).intake.dir[m]? = s.intake.dir[m]? := by
  induction ns generalizing s with
  | nil => rfl
  | cons n ns ih =>
    refine (ih (fun later => unnamed (List.mem_cons_of_mem n later)) _).trans ?_
    obtain ⟨dir, -, -⟩ := s.cutSlot_spec n
    have other : n ≠ m := fun same => unnamed (same ▸ List.mem_cons_self)
    rw [dir, List.getElem?_modify_ne _ _ other]

end Sys2Proof.Machine
end

section
/-! THEOREM. Open writes to pinned slots, and reads of the announced range (R125, R128 to R130, R132). -/
namespace Sys2Proof.Machine

/-- The deadline of a hold (R38, R130). -/
theorem State.holdDeadline {s : State} {limit : Nat} (is : limit = if s.attend.unattended then 0 else s.gen.holdLimit * 1000) :
    s.holdLimit = limit ∧ deadline s.now s.holdLimit = min (s.time.count + limit) (2 ^ 48 - 1) := by
  have same : s.holdLimit = limit := is.symm
  exact ⟨same, by rw [same]; rfl⟩

/-- A state that differs from `s` in the Path Guard and the tallies alone sees the same claimants wait. -/
theorem State.waits_of_frame {s t : State} (frame : Frame [.guard, .tallies] s t) (offer : t.status.offer = s.status.offer) : t.waits = s.waits :=
  State.waits_congr (frame .control (by decide)) offer (frame .report (by decide)) (frame .intake (by decide)) (frame .clip (by decide))

/-- The request of PASS's candidate in the queue. -/
theorem PathGuard.request_queued {g : PathGuard} {i : Nat} {q : Queued} (queued : g.queue[i]? = some q) :
    g.request (.queued i) = some (q.req, false) := by
  show (g.queue[i]?).map (fun q => (q.req, false)) = _
  rw [queued, Option.map_some]

section
variable {s : State} {r : Request} {k : HoldKind} {mark : Bool} {limit : Nat}
  (alone : s.guard.lastServed.after.find? s.waits = none)
include alone

/-- A hold that changes the Path Guard and counts itself, with nothing else to offer behind it. -/
theorem exec_downstreamGrant_holds {c : Candidate} {g : PathGuard} (candidate : s.guard.candidate = some c)
    (request : s.guard.request c = some (r, mark)) (holds : s.classify mark r = .hold k)
    (held : s.hold c r k = (s.setGuard fun _ => g).count k.tally) (served : g.lastServed = s.guard.lastServed) (nobody : g.candidate = none) :
    ∃ t, exec .downstreamGrant s = .next t ∧ t.guard = g ∧ t.tallies = (s.count k.tally).tallies ∧ Frame [.guard, .writer, .tallies] s t := by
  have changed : Frame [.guard, .tallies] s ((s.setGuard fun _ => g).count k.tally) :=
    State.count_frame _ (State.setGuard_frame _ (Frame.refl _ s) (by decide)) (by decide)
  have nobody' : ((s.setGuard fun _ => g).count k.tally).guard.lastServed.after.find? ((s.setGuard fun _ => g).count k.tally).waits = none := by
    rw [State.waits_of_frame changed (by rw [State.count_status]; rfl), State.count_guard]
    show g.lastServed.after.find? s.waits = none
    rw [served, alone]
  refine ⟨_, exec_downstreamGrant_held candidate request (.inl alone) holds held (by rw [State.count_guard]; exact nobody) nobody', ?_, ?_, ?_⟩
  · rw [State.settle_guard, State.count_guard]
    rfl
  · rw [State.settle_tallies, State.count_tallies, State.count_tallies]
    rfl
  · exact State.settle_frame (changed.mono (by decide)) (by decide)

/-- A queued request is held while the list has room, and waits for room otherwise (R128, R129). -/
theorem exec_downstreamGrant_queued {i : Nat} {d : Option Nat} (candidate : s.guard.candidate = some (.queued i))
    (queued : s.guard.queue[i]? = some ⟨r, false⟩) (holds : s.classify false r = .hold k)
    (limitIs : limit = if s.attend.unattended then 0 else s.gen.holdLimit * 1000)
    (dIs : d = some (min (s.time.count + limit) (2 ^ 48 - 1))) :
    (s.guard.held.length < 4 →
      ({ s.guard with held := s.guard.held ++ [⟨r, k, .held d⟩], queue := removeAt i s.guard.queue } : PathGuard).candidate = none →
      ∃ t, exec .downstreamGrant s = .next t ∧
        t.guard = { s.guard with held := s.guard.held ++ [⟨r, k, .held d⟩], queue := removeAt i s.guard.queue } ∧
        t.tallies = (s.count k.tally).tallies ∧ Frame [.guard, .writer, .tallies] s t) ∧
    (4 ≤ s.guard.held.length → ({ s.guard with queue := s.guard.queue.set i ⟨r, true⟩ } : PathGuard).candidate = none →
      ∃ t, exec .downstreamGrant s = .next t ∧ t.guard = { s.guard with queue := s.guard.queue.set i ⟨r, true⟩ } ∧
        Frame [.guard, .writer] s t) := by
  have request := PathGuard.request_queued queued
  refine ⟨fun room nobody => ?_, fun full nobody => ?_⟩
  · refine exec_downstreamGrant_holds alone candidate request holds ?_ rfl nobody
    rw [State.hold_enters room, (State.holdDeadline limitIs).2, dIs]
    rfl
  · obtain ⟨x, xIs⟩ : ∃ x : State, x = { s with guard := { s.guard with queue := s.guard.queue.set i ⟨r, true⟩ } } := ⟨_, rfl⟩
    have changed : Frame [.guard] s x := by
      rw [xIs]
      exact State.setGuard_frame (fun _ => { s.guard with queue := s.guard.queue.set i ⟨r, true⟩ }) (Frame.refl _ s) (by decide)
    have guard : x.guard = { s.guard with queue := s.guard.queue.set i ⟨r, true⟩ } := by rw [xIs]
    have nobody' : x.guard.lastServed.after.find? x.waits = none := by
      rw [State.waits_of_frame (changed.mono (by decide)) (by rw [xIs]), guard]
      exact alone
    exact ⟨_, exec_downstreamGrant_held candidate request (.inl alone) holds ((State.hold_waits full queued).trans xIs.symm)
      (by rw [guard]; exact nobody) nobody', guard, State.settle_frame (changed.mono (by decide)) (by decide)⟩

end

/-! ### The grant after the cuts (R11, R130) -/

/-- The candidate has left the queue or the held list, its request is decided, and has gone to memory (R122, R128). -/
def State.sent (c : Candidate) (r : Request) (s : State) : State :=
  ((s.setGuard fun g => g.remove c).decided r.tag .granted).sendPass r

theorem State.sent_guard (c : Candidate) (r : Request) (s : State) : (s.sent c r).guard = { s.guard.remove c with
    unanswered := decideOldest r.tag .granted s.guard.unanswered
    downstream := s.guard.downstream ++ [⟨.pass r.tag, r.kind, r.addr, r.beats, r.bytes, false⟩] } := by
  obtain ⟨unanswered, downstream⟩ := s.guard.remove_keeps c
  show ({ s.guard.remove c with
    unanswered := decideOldest r.tag .granted (s.guard.remove c).unanswered
    downstream := (s.guard.remove c).downstream ++ [⟨.pass r.tag, r.kind, r.addr, r.beats, r.bytes, false⟩] } : PathGuard) = _
  rw [unanswered, downstream]

theorem State.sent_eq (c : Candidate) (r : Request) (s : State) : s.sent c r = { s with guard := (s.sent c r).guard } := rfl

/-- What is sent, by the request's place among the unanswered ones. -/
theorem State.sent_of {s : State} {c : Candidate} {r : Request} {pre post : List Unanswered} {u : Unanswered}
    (queue : s.guard.unanswered = pre ++ u :: post) (own : u.tag = r.tag) (waits : u.prog = .waiting)
    (before : ∀ x ∈ pre, x.tag = r.tag → x.prog ≠ .waiting) : s.sent c r = { s with guard := { s.guard.remove c with
      unanswered := pre ++ { u with prog := .granted } :: post
      downstream := s.guard.downstream ++ [⟨.pass r.tag, r.kind, r.addr, r.beats, r.bytes, false⟩] } } := by
  rw [State.sent_eq, State.sent_guard, queue, decideOldest_of own waits before]

theorem State.grantPass_eq (c : Candidate) (r : Request) (cuts : List Nat) (s : State) :
    s.grantPass c r cuts = ((cuts.foldl (fun t n => t.cutSlot n) (s.sent c r)).takeMeaning r).countGrant := rfl

/-- Outside the control page a ring write means its pieces, and nothing while no page stands (R2). -/
theorem State.takeMeaning_outside {x : State} {r : Request} (loaded : x.loaded = true) (kind : r.kind = .write) (beats : 1 ≤ r.beats)
    (apart : Request.apart r x.page 8192) (inRing : Request.within r x.gen.ringBase (512 * x.gen.ringSlots)) :
    x.takeMeaning r = match x.control.pageBase with
      | some _ => x.takeRingWrite r
      | none => x := by
  cases page : x.control.pageBase with
  | none =>
    unfold State.takeMeaning
    simp only [page]
  | some base =>
    have there : x.page = base := by
      unfold State.page
      rw [page]
      rfl
    exact State.takeMeaning_ring page loaded kind beats (there ▸ apart) (State.place_ring inRing)

/-- Cuts leave everything that the meaning of a request depends on. -/
theorem State.cutSlots_keep (ns : List Nat) (s : State) : (ns.foldl (fun y m => y.cutSlot m) s).control = s.control ∧
    (ns.foldl (fun y m => y.cutSlot m) s).guard = s.guard :=
  ⟨State.cutSlots_frame ns s .control (by decide), State.cutSlots_frame ns s .guard (by decide)⟩

/-- Settles O39. -/
theorem openWriteToPinnedSlot : Obligations.OpenWriteToPinnedSlot := by
  unfold Obligations.OpenWriteToPinnedSlot
  refine ⟨fun s i n ns r limit loaded ok kind candidate queued alone inRing apart writer pinned limitIs => ?queued,
    fun s sent c n ns r limit d pre post u loaded ok kind candidate request alone inRing writer pinned limitIs dIs queue own waits before sentIs =>
      ⟨fun base none_ page apart => ?cut, fun j k m some_ cIs listed nobody => ?released⟩,
    fun s i limit first units d r loaded kind candidate queued alone ring store host range touching limitIs some_ dIs => ?reads⟩
  case queued =>
    have class_ := State.classify_pinnedOpens false loaded kind inRing writer pinned
    rw [(State.holdDeadline limitIs).1] at class_
    have request := PathGuard.request_queued queued
    refine ⟨fun none_ => ?_, fun some_ room nobody => ?_, fun some_ full nobody => ?_⟩
    · rw [if_pos none_] at class_
      have taken := exec_downstreamGrant_granted candidate request (.inl alone) class_
      rw [State.grantPass_eq] at taken
      obtain ⟨a, aIs⟩ : ∃ a, a = s.sent (.queued i) r := ⟨_, rfl⟩
      have aDir : a.intake = s.intake := by rw [aIs]; rfl
      have aControl : a.control = s.control := by rw [aIs]; rfl
      have aGuard := State.sent_guard (.queued i) r s
      rw [← aIs] at taken aGuard
      obtain ⟨x, xIs⟩ : ∃ x, x = (n :: ns).foldl (fun t m => t.cutSlot m) a := ⟨_, rfl⟩
      obtain ⟨control, guard⟩ := State.cutSlots_keep (n :: ns) a
      have cuts : SlotsCut (n :: ns) a x := xIs ▸ State.cutSlots_cut _ a
      rw [← xIs] at taken control guard
      have xControl := control.trans aControl
      have meaning := State.takeMeaning_outside (x := x) (r := r) (by rw [State.loaded, xControl]; exact loaded) kind (Request.beats_pos ok)
        (by rw [State.page, xControl]; exact apart) (by rw [State.gen_congr xControl]; exact inRing)
      have told : CutsTold x (x.takeMeaning r) := by
        rw [meaning]
        cases x.control.pageBase with
        | none => exact .of_wires rfl
        | some base => exact State.takeRingWrite_told r x
      have left : (x.takeMeaning r).guard = x.guard := by
        rw [meaning]
        cases x.control.pageBase with
        | none => rfl
        | some base => exact State.takeRingWrite_guard r x
      have wires : (x.takeMeaning r).countGrant.settle.wires = (x.takeMeaning r).wires := by
        rw [State.settle_wires, State.countGrant_eq]
      obtain ⟨queue, -, downstream, -⟩ := (x.takeMeaning r).countGrant_keeps_queues
      refine ⟨_, taken, fun m listed e at_ => ?_, ?_, ?_⟩
      · obtain ⟨e', -, after, unpinned⟩ := cuts.at (aDir ▸ at_)
        have some_ : e.pins ≠ 0 := State.pinnedOpens_pinned (pinned ▸ listed) at_
        rw [wires, told.1, told.2]
        rcases after with same | ⟨-, -, free, notes⟩
        · exact absurd (same ▸ unpinned listed) some_
        · exact ⟨notes, free⟩
      · rw [State.settle_guard, queue, left, guard, aGuard]
        rfl
      · rw [State.settle_guard, downstream, left, guard, aGuard, kind]
    · rw [if_neg some_] at class_
      refine (exec_downstreamGrant_queued alone candidate queued class_ limitIs rfl).1 room ?_
      rw [← nobody]
      exact PathGuard.candidate_append_held _ _ _ _ _ _ _ _
    · rw [if_neg some_] at class_
      exact (exec_downstreamGrant_queued alone candidate queued class_ limitIs rfl).2 full nobody
  case cut =>
    have class_ := State.classify_pinnedOpens false loaded kind inRing writer pinned
    rw [(State.holdDeadline limitIs).1, if_pos none_] at class_
    have taken := exec_downstreamGrant_granted candidate request (.inl alone) class_
    have sentOf := State.sent_of (c := c) queue own waits before
    rw [kind, ← sentIs] at sentOf
    rw [State.grantPass_eq, sentOf] at taken
    have sentControl : sent.control = s.control := by rw [sentIs]
    have sentIntake : sent.intake = s.intake := by rw [sentIs]
    obtain ⟨x, xIs⟩ : ∃ x, x = (n :: ns).foldl (fun y m => y.cutSlot m) sent := ⟨_, rfl⟩
    obtain ⟨control, guard⟩ := State.cutSlots_keep (n :: ns) sent
    have frame := State.cutSlots_frame (n :: ns) sent
    have cuts : SlotsCut (n :: ns) sent x := xIs ▸ State.cutSlots_cut _ sent
    rw [← xIs] at taken control guard frame
    have xControl := control.trans sentControl
    have xGen := State.gen_congr xControl
    have xPage : x.page = base := by
      rw [State.page, xControl, page]
      rfl
    have meaning := State.takeMeaning_outside (x := x) (r := r) (by rw [State.loaded, xControl]; exact loaded) kind (Request.beats_pos ok)
      (xPage ▸ apart) (by rw [xGen]; exact inRing)
    simp only [xControl, page] at meaning
    rw [meaning] at taken
    obtain ⟨queue', held', downstream', unanswered'⟩ := (x.takeRingWrite r).countGrant_keeps_queues
    rw [State.takeRingWrite_guard, guard] at queue' held' downstream' unanswered'
    have left : Frame [.guard, .writer] (x.takeRingWrite r) (x.takeRingWrite r).countGrant.settle :=
      State.settle_frame (State.countGrant_frame (Frame.refl _ _) (by decide)) (by decide)
    refine ⟨_, x, taken, xIs, fun m e at_ => ?_, frame, queue', held', downstream', unanswered', ?_⟩
    · obtain ⟨e', at', after, unpinned⟩ := cuts.at (sentIntake ▸ at_)
      refine ⟨e', at', fun unnamed => ?_, fun named => ?_⟩
      · have other := State.cutSlots_other unnamed sent
        rw [← xIs, at', sentIntake, at_] at other
        exact Option.some.inj other
      · rcases after with same | ⟨-, cut, -, -⟩
        · exact absurd (same ▸ unpinned named) (State.pinnedOpens_pinned (pinned ▸ named) at_)
        · exact cut
    · generalize (x.takeRingWrite r).countGrant.settle = t at left
      unfold State.takeRingWrite at left
      rw [xControl, xGen] at left
      cases part : s.control.part <;> rw [part] at left <;> exact left
  case released =>
    subst cIs
    have class_ := State.classify_pinnedOpens false loaded kind inRing writer pinned
    rw [(State.holdDeadline limitIs).1, if_neg some_] at class_
    refine exec_downstreamGrant_holds alone candidate request class_ ?_ rfl nobody
    rw [State.hold_returns listed, (State.holdDeadline limitIs).2, dIs]
    rfl
  case reads =>
    have class_ := State.classify_clipRead (mark := false) loaded kind (State.place_clipStore ring store)
    rw [if_pos (by simp [host, (State.touchesRange_iff range).2 touching, (State.holdDeadline limitIs).1, some_])] at class_
    exact exec_downstreamGrant_queued alone candidate queued class_ limitIs dIs

end Sys2Proof.Machine
end

section
/-! SUPPORT. A granted write of the control page: its words of the control line, and its words in the setup areas (R126, R151, R153, R157). -/
namespace Sys2Proof.Machine

/-! ### The words handed over (R126) -/

/-- The words of a write with all their strobes set, with their page offsets, in address order (R126). -/
def handedFrom (n off : Nat) (bs : List (Option Byte)) : List (Nat × List Byte) :=
  (wordsFrom n off bs).filterMap fun p => (fullWord p.2).map fun w => (p.1, w)

/-- What a word does, when it is handed over. -/
def applyWord (f : List Byte → State → State) (s : State) : Option (List Byte) → State
  | some w => f w s
  | none => s

theorem applyWord_self (s : State) (h : Option (List Byte)) : applyWord (fun _ t => t) s h = s := by
  cases h <;> rfl

theorem foldl_handedFrom_succ (g : State → Nat → List Byte → State) (n off : Nat) (bs : List (Option Byte)) (s : State) :
    (handedFrom (n + 1) off bs).foldl (fun t p => g t p.1 p.2) s =
      (handedFrom n (off + 8) (bs.drop 8)).foldl (fun t p => g t p.1 p.2) (applyWord (fun w t => g t off w) s (fullWord (bs.take 8))) := by
  unfold handedFrom
  show (List.filterMap _ ((off, bs.take 8) :: wordsFrom n (off + 8) (bs.drop 8))).foldl _ s = _
  rw [List.filterMap_cons]
  cases fullWord (bs.take 8) <;> rfl

theorem handedWord_empty (off o : Nat) : handedWord off [] o = none := by
  refine if_neg fun ⟨low, _, high⟩ => ?_
  simp only [List.length_nil] at high
  omega

/-- The word at an offset is the first of a write, or one of those behind it. -/
theorem handedWord_step {bs : List (Option Byte)} (long : 8 ≤ bs.length) (off o : Nat) :
    handedWord off bs o = if o = off then fullWord (bs.take 8) else handedWord (off + 8) (bs.drop 8) o := by
  unfold handedWord
  by_cases first : o = off
  · subst first
    rw [if_pos rfl, if_pos (by omega), Nat.sub_self, List.drop_zero]
  · rw [if_neg first]
    by_cases later : off + 8 ≤ o ∧ (o - off) % 8 = 0 ∧ o + 8 ≤ off + bs.length
    · rw [if_pos (by omega), if_pos (by rw [List.length_drop]; omega), List.drop_drop]
      congr 3
      omega
    · rw [if_neg (by omega), if_neg (by rw [List.length_drop]; omega)]

theorem handedWord_before {off o : Nat} (before : o < off) (bs : List (Option Byte)) : handedWord off bs o = none :=
  if_neg fun ⟨low, _, _⟩ => absurd low (Nat.not_le.2 before)

/-- The words of the control line, but for the command word: the argument, the ack and the clear take effect in this order (R126, R182). -/
theorem foldl_controlWord (n off : Nat) (bs : List (Option Byte)) (s : State) (length : bs.length = 8 * n) :
    (handedFrom n off bs).foldl (fun t p => t.controlWord p.1 p.2) s =
      applyWord (fun w t => t.clearKinds (BitVec.ofNat 24 (field w 0 3)))
        (applyWord (fun w t => t.takeAck (field w 0 2))
          (applyWord (fun w t => t.storeArgument (BitVec.ofNat 64 (leVal w))) s (handedWord off bs 0x08))
          (handedWord off bs 0x10)) (handedWord off bs 0x18) := by
  induction n generalizing off bs s with
  | zero =>
    have empty : bs = [] := List.eq_nil_of_length_eq_zero (by omega)
    subst empty
    simp only [handedWord_empty]
    rfl
  | succ n ih =>
    have long : 8 ≤ bs.length := by omega
    rw [foldl_handedFrom_succ (fun t o w => t.controlWord o w), ih _ _ _ (by rw [List.length_drop]; omega)]
    simp only [handedWord_step long off]
    by_cases argument : off = 0x08
    · subst argument
      simp only [handedWord_before (show (8 : Nat) < 8 + 8 by decide)]
      rfl
    · by_cases ack : off = 0x10
      · subst ack
        simp only [handedWord_before (show (8 : Nat) < 16 + 8 by decide), handedWord_before (show (16 : Nat) < 16 + 8 by decide)]
        rfl
      · by_cases clear : off = 0x18
        · subst clear
          simp only [handedWord_before (show (8 : Nat) < 24 + 8 by decide), handedWord_before (show (16 : Nat) < 24 + 8 by decide),
            handedWord_before (show (24 : Nat) < 24 + 8 by decide)]
          rfl
        · have other : (fun (w : List Byte) (t : State) => t.controlWord off w) = fun _ t => t := by
            funext w t
            unfold State.controlWord
            rw [if_neg argument, if_neg ack, if_neg clear]
          rw [other, applyWord_self, if_neg (Ne.symm argument), if_neg (Ne.symm ack), if_neg (Ne.symm clear)]

/-- The command word (R153). -/
theorem foldl_commandWord (n off : Nat) (bs : List (Option Byte)) (s : State) (length : bs.length = 8 * n) :
    (handedFrom n off bs).foldl (fun t p => t.commandWord p.1 p.2) s =
      applyWord (fun w t => t.takeCommand (w.getD 0 0) (w.getD 1 0)) s (handedWord off bs 0) := by
  induction n generalizing off bs s with
  | zero =>
    have empty : bs = [] := List.eq_nil_of_length_eq_zero (by omega)
    subst empty
    simp only [handedWord_empty]
    rfl
  | succ n ih =>
    have long : 8 ≤ bs.length := by omega
    rw [foldl_handedFrom_succ (fun t o w => t.commandWord o w), ih _ _ _ (by rw [List.length_drop]; omega), handedWord_step long off,
      handedWord_before (show 0 < off + 8 by omega)]
    by_cases command : off = 0
    · subst command
      rfl
    · have other : (fun (w : List Byte) (t : State) => t.commandWord off w) = fun _ t => t := by
        funext w t
        unfold State.commandWord
        rw [if_neg command]
      rw [other, applyWord_self, if_neg (Ne.symm command)]

/-! ### The words in the setup areas (R126, R151) -/

theorem mem_wordsFrom {n off : Nat} {bs : List (Option Byte)} {p : Nat × List (Option Byte)} (listed : p ∈ wordsFrom n off bs) :
    off ≤ p.1 ∧ p.1 + 8 ≤ off + 8 * n := by
  induction n generalizing off bs with
  | zero => cases listed
  | succ n ih =>
    rcases List.mem_cons.1 listed with rfl | behind
    · exact ⟨Nat.le_refl _, by dsimp only; omega⟩
    · have := ih behind
      omega

/-- All words of a write into an area lie in it. -/
theorem writtenIn_inside {lo hi tag off : Nat} {bs : List (Option Byte)} (whole : bs.length % 8 = 0) (low : lo ≤ off)
    (high : off + bs.length ≤ hi) : writtenIn lo hi ⟨tag, off, bs⟩ = wordsFrom (bs.length / 8) off bs := by
  refine List.filter_eq_self.2 fun p listed => ?_
  have := mem_wordsFrom listed
  dsimp only at this
  simp only [Bool.and_eq_true, decide_eq_true_iff]
  omega

/-- No word of a write before an area lies in it. -/
theorem writtenIn_before {lo hi tag off : Nat} {bs : List (Option Byte)} (whole : bs.length % 8 = 0) (before : off + bs.length ≤ lo) :
    writtenIn lo hi ⟨tag, off, bs⟩ = [] := by
  refine List.filter_eq_nil_iff.2 fun p listed => ?_
  have := mem_wordsFrom listed
  dsimp only at this
  simp only [Bool.and_eq_true, decide_eq_true_iff, not_and]
  omega

/-- The area through which a write goes is not seen where no setup is taken (R151, R157). -/
theorem State.setupWrite_untaken {s : State} (untaken : s.control.part.takesSetup = false) (lo hi lo' hi' : Nat) (w : PageWrite) :
    s.setupWrite lo hi w = s.setupWrite lo' hi' w := by
  unfold State.setupWrite
  cases part : s.control.part with
  | dormant => rfl
  | loading => rfl
  | stopped => rw [part] at untaken; cases untaken
  | listening => rw [part] at untaken; cases untaken
  | draining => rw [part] at untaken; cases untaken

/-- A write into an area is the same through every part of the page that holds the area. -/
theorem State.setupWrite_widen {lo hi tag off : Nat} {bs : List (Option Byte)} (s : State) (whole : bs.length % 8 = 0) (first : 0x100 ≤ lo)
    (last : hi ≤ 0x1300) (low : lo ≤ off) (high : off + bs.length ≤ hi) :
    s.setupWrite 0x100 0x1300 ⟨tag, off, bs⟩ = s.setupWrite lo hi ⟨tag, off, bs⟩ := by
  cases takes : s.control.part.takesSetup with
  | false => exact State.setupWrite_untaken takes _ _ _ _ _
  | true =>
    rw [State.setupWrite_takes takes, State.setupWrite_takes takes, State.takeWords_eq, State.takeWords_eq, writtenIn_inside whole low high,
      writtenIn_inside whole (first.trans low) (high.trans last)]

/-- A write before the setup areas puts nothing into them, and no byte into the read extent (R151, R157). -/
theorem State.setupWrite_before {hi tag off : Nat} {bs : List (Option Byte)} (s : State) (whole : bs.length % 8 = 0)
    (before : off + bs.length ≤ 0x100) : s.setupWrite 0x100 hi ⟨tag, off, bs⟩ = s := by
  cases takes : s.control.part.takesSetup with
  | true =>
    rw [State.setupWrite_takes takes, State.takeWords_eq, writtenIn_before whole before]
    rfl
  | false =>
    have outside (extent : Nat) : touchesExtent extent ⟨tag, off, bs⟩ = false := by
      rw [← Bool.not_eq_true, touchesExtent_iff]
      rintro ⟨i, b, at_, low, -⟩
      have := (List.getElem?_eq_some_iff.1 at_).1
      dsimp only at this low
      omega
    unfold State.setupWrite State.changeDuringLoad
    cases part : s.control.part with
    | dormant => rfl
    | loading =>
      dsimp only
      split
      next r _ => exact if_neg fun both => Bool.false_ne_true ((outside r.extent).symm.trans both.2)
      next => rfl
    | stopped => rw [part] at takes; cases takes
    | listening => rw [part] at takes; cases takes
    | draining => rw [part] at takes; cases takes

/-! ### The write as a whole -/

/-- What the words of the control line but the command word do (R126). -/
def State.controlLine (off : Nat) (bs : List (Option Byte)) (s : State) : State :=
  applyWord (fun w t => t.clearKinds (BitVec.ofNat 24 (field w 0 3)))
    (applyWord (fun w t => t.takeAck (field w 0 2))
      (applyWord (fun w t => t.storeArgument (BitVec.ofNat 64 (leVal w))) s (handedWord off bs 0x08))
      (handedWord off bs 0x10)) (handedWord off bs 0x18)

theorem State.takePageWrite_eq {tag off : Nat} {bs : List (Option Byte)} (whole : bs.length % 8 = 0) (s : State) :
    s.takePageWrite ⟨tag, off, bs⟩ = applyWord (fun w t => t.takeCommand (w.getD 0 0) (w.getD 1 0))
      ((s.controlLine off bs).setupWrite 0x100 0x1300 ⟨tag, off, bs⟩) (handedWord off bs 0) := by
  have length : bs.length = 8 * (bs.length / 8) := by omega
  show (handedFrom (bs.length / 8) off bs).foldl (fun t p => t.commandWord p.1 p.2)
    (((handedFrom (bs.length / 8) off bs).foldl (fun t p => t.controlWord p.1 p.2) s).setupWrite 0x100 0x1300 ⟨tag, off, bs⟩) = _
  rw [foldl_commandWord _ _ _ _ length, foldl_controlWord _ _ _ _ length]
  rfl

/-- Behind the control line only the setup areas take words. -/
theorem State.takePageWrite_setup {tag off : Nat} {bs : List (Option Byte)} (whole : bs.length % 8 = 0) (behind : 0x18 < off) (s : State) :
    s.takePageWrite ⟨tag, off, bs⟩ = s.setupWrite 0x100 0x1300 ⟨tag, off, bs⟩ := by
  rw [State.takePageWrite_eq whole, State.controlLine, handedWord_before (o := 0) (by omega), handedWord_before (o := 0x08) (by omega),
    handedWord_before (o := 0x10) (by omega), handedWord_before behind]
  rfl

/-- The words of the control line leave the state of the part (R126). -/
theorem State.controlLine_part (off : Nat) (bs : List (Option Byte)) (s : State) :
    (s.controlLine off bs).control.part = s.control.part := by
  have cleared (x : State) (h : Option (List Byte)) :
      (applyWord (fun w t => t.clearKinds (BitVec.ofNat 24 (field w 0 3))) x h).control = x.control := by
    cases h with
    | none => rfl
    | some w => exact State.setPending_control _ _
  have acked (x : State) (h : Option (List Byte)) : (applyWord (fun w t => t.takeAck (field w 0 2)) x h).control = x.control := by
    cases h with
    | none => rfl
    | some w =>
      have frame := State.takeAck_frame (field w 0 2)
        (Frame.refl [.assoc, .clip, .guard, .report, .notices, .writer, .tallies, .wires] x) (by decide)
      exact frame .control (by decide)
  unfold State.controlLine
  rw [cleared, acked]
  cases handedWord off bs 0x08 <;> rfl

/-! ### One word (R126, R182) -/

theorem handedWord_one (off : Nat) {w : List Byte} (eight : w.length = 8) (o : Nat) :
    handedWord off (strobed w) o = if o = off then some w else none := by
  have long : (strobed w).length = 8 := (List.length_map _).trans eight
  rw [handedWord_step long.ge, List.take_of_length_le long.le, fullWord_strobed, List.drop_eq_nil_of_le long.le, handedWord_empty]

theorem exec_ite {p : Prop} [Decidable p] {i j : Instr} {s x y : State} (yes : exec i s = done x) (no : ¬ p → exec j s = done y) :
    exec (if p then i else j) s = done (if p then x else y) := by
  by_cases h : p
  · rw [if_pos h, if_pos h, yes]
  · rw [if_neg h, if_neg h, no h]

/-- The command that a command word spells takes it (R153, R182). -/
theorem exec_commandOf (code tag : Byte) (s : State) : exec (commandOf code tag) s = done (s.takeCommand code tag) := by
  refine exec_ite rfl fun load => exec_ite rfl fun start => exec_ite rfl fun stop => exec_ite rfl fun reset => exec_ite rfl fun time =>
    exec_ite rfl fun dump => exec_ite rfl fun release => if_neg ?_
  unfold knownCode
  simp only [Bool.and_eq_true, decide_eq_true_iff]
  bv_omega

theorem leVal_word {w : List Byte} (eight : w.length = 8) : leVal w = field w 0 8 := by
  unfold field
  rw [List.drop_zero, List.take_of_length_le eight.le]

/-- One word of the control line, or words of one setup area, act as the command of their own (R126). -/
theorem exec_pageCommand {tag off : Nat} {bs : List (Option Byte)} {i : Instr} (whole : bs.length % 8 = 0) (command : pageCommand tag off bs i)
    (s : State) : exec i s = done (s.takePageWrite ⟨tag, off, bs⟩) := by
  rcases command with ⟨w, rfl, eight, word⟩ | ⟨low, high, rfl⟩ | ⟨low, high, rfl⟩ | ⟨low, high, rfl⟩ | ⟨low, high, rfl⟩
  · have length : (strobed w).length = 8 := (List.length_map _).trans eight
    rw [State.takePageWrite_eq whole, State.setupWrite_before _ whole (by omega), State.controlLine]
    simp only [handedWord_one off eight]
    rcases word with ⟨rfl, rfl⟩ | ⟨rfl, rfl⟩ | ⟨rfl, rfl⟩ | ⟨rfl, rfl⟩
    · exact exec_commandOf _ _ s
    · show done (s.storeArgument _) = done (s.storeArgument _)
      rw [leVal_word eight]
    · show done (s.takeAck (BitVec.ofNat 16 (field w 0 2)).toNat) = done (s.takeAck (field w 0 2))
      have small : field w 0 2 < 2 ^ 16 := leVal_take_lt 2 (w.drop 0)
      rw [BitVec.toNat_ofNat, Nat.mod_eq_of_lt small]
    · rfl
  · rw [State.takePageWrite_setup whole (by omega), State.setupWrite_widen s whole (by decide) (by decide) low high]
    rfl
  · rw [State.takePageWrite_setup whole (by omega), State.setupWrite_widen s whole (by decide) (by decide) low high]
    rfl
  · rw [State.takePageWrite_setup whole (by omega), State.setupWrite_widen s whole (by decide) (by decide) low high]
    rfl
  · rw [State.takePageWrite_setup whole (by omega), State.setupWrite_widen s whole (by decide) (by decide) low high]
    rfl

end Sys2Proof.Machine
end

section
/-! SUPPORT. What a request of PASS means, and how it is classified (R2, R122, R124 to R128, R134). -/
namespace Sys2Proof.Machine

/-! ### What a granted request means (R2, R126) -/

section
variable {s : State} {r : Request} {base : Nat}

theorem State.takeMeaning_pageWrite (page : s.control.pageBase = some base) (inside : Request.within r base 8192) (kind : r.kind = .write) :
    s.takeMeaning r = s.takePageWrite ⟨r.tag, r.addr - base, r.bytes⟩ := by
  unfold State.takeMeaning
  simp only [page, liesIn_iff.2 inside, kind, if_true]

theorem State.takeMeaning_pageRead (page : s.control.pageBase = some base) (inside : Request.within r base 8192) (kind : r.kind = .read) :
    s.takeMeaning r =
      if s.loaded && s.gen.hostTags.getLsbD r.tag && coversHeartbeat (r.addr - base) r then s.heartbeatRead else s := by
  unfold State.takeMeaning
  simp only [page, liesIn_iff.2 inside, kind, if_true]

/-- Outside the control page a read means nothing. -/
theorem State.takeMeaning_read (outside : ∀ base, s.control.pageBase = some base → ¬ Request.within r base 8192) (kind : r.kind = .read) :
    s.takeMeaning r = s := by
  cases page : s.control.pageBase with
  | none =>
    unfold State.takeMeaning
    simp only [page]
  | some base =>
    have apart : ¬ liesIn base 8192 r = true := fun inside => outside base page (liesIn_iff.1 inside)
    unfold State.takeMeaning
    simp only [page, if_neg apart, kind]

/-- Outside the control page and the sample ring a write means nothing. -/
theorem State.takeMeaning_elsewhere (outside : ∀ base, s.control.pageBase = some base → ¬ Request.within r base 8192)
    (apart : s.loaded = true → s.place r ≠ .ring) : s.takeMeaning r = s := by
  cases kind : r.kind with
  | read => exact State.takeMeaning_read outside kind
  | write =>
    cases page : s.control.pageBase with
    | none =>
      unfold State.takeMeaning
      simp only [page]
    | some base =>
      have away : ¬ liesIn base 8192 r = true := fun inside => outside base page (liesIn_iff.1 inside)
      have unwatched : ¬ (s.loaded && s.place r == .ring) = true := by
        simp only [Bool.and_eq_true, beq_iff_eq]
        exact fun both => apart both.1 both.2
      unfold State.takeMeaning
      simp only [page, if_neg away, kind, if_neg unwatched]

theorem coversHeartbeat_iff {off : Nat} : coversHeartbeat off r = true ↔ off ≤ 0x90 ∧ 0x98 ≤ off + 8 * r.beats := by
  unfold coversHeartbeat reqBytes
  simp only [Bool.and_eq_true, decide_eq_true_iff]

/-- A word with a strobe clear in the control line carries nothing (R126). -/
theorem State.takePageWrite_clear {tag off : Nat} {bs : List (Option Byte)} (one : bs.length = 8) (line : off + 8 ≤ 0x100) (clear : none ∈ bs)
    (s : State) : s.takePageWrite ⟨tag, off, bs⟩ = s := by
  have nothing (o : Nat) : handedWord off bs o = none := by
    rw [handedWord_step one.ge, List.take_of_length_le one.le, fullWord_of_clear clear, List.drop_eq_nil_of_le one.le, handedWord_empty,
      ite_self]
  rw [State.takePageWrite_eq (by omega), State.setupWrite_before _ (by omega) (by omega), State.controlLine]
  simp only [nothing]
  rfl

end

/-! ### Classification (R125 to R127) -/

section
variable {s : State} {r : Request} {mark : Bool}

theorem State.classify_unloaded (unloaded : s.loaded = false) : s.classify mark r = .grant [] := by
  unfold State.classify
  rw [unloaded]
  rfl

variable (loaded : s.loaded = true)
include loaded

theorem State.classify_elsewhere (place : s.place r = .elsewhere) : s.classify mark r = .grant [] := by
  unfold State.classify
  simp only [loaded, place, if_true]

theorem State.classify_straddles (place : s.place r = .straddles) : s.classify mark r = .refuse := by
  unfold State.classify
  simp only [loaded, place, if_true]

theorem State.classify_read (kind : r.kind = .read) (place : s.place r = .ring ∨ s.place r = .reportRing ∨ s.place r = .page) :
    s.classify mark r = .grant [] := by
  unfold State.classify
  rcases place with at_ | at_ | at_ <;> simp only [loaded, at_, kind, if_true]

theorem State.classify_storeWrite (kind : r.kind = .write) (place : s.place r = .clipStore ∨ s.place r = .reportRing) :
    s.classify mark r = .refuse := by
  unfold State.classify
  rcases place with at_ | at_ <;> simp only [loaded, at_, kind, if_true]

theorem State.classify_ringRefused (kind : r.kind = .write) (place : s.place r = .ring) (tag : s.gen.writerTags.getLsbD r.tag = false) :
    s.classify mark r = .refuse := by
  unfold State.classify State.classifyRingWrite
  simp only [loaded, place, kind, tag, if_true]
  rfl

theorem State.classify_pageWrite (kind : r.kind = .write) (place : s.place r = .page) : s.classify mark r =
    if s.gen.hostTags.getLsbD r.tag && !touchesPartArea (r.addr - s.page) r && r.bytes.all Option.isSome then .grant [] else .refuse := by
  unfold State.classify State.classifyPageWrite
  simp only [loaded, place, kind, if_true]

end

/-- The part's own areas of the control page, by addresses (R126, R181). -/
theorem touchesPartArea_iff {base : Nat} {r : Request} (inside : base ≤ r.addr) : touchesPartArea (r.addr - base) r = true ↔
    ¬ (Request.apart r (base + 0x40) 8 ∧ Request.apart r (base + 0x80) 72 ∧ Request.apart r (base + 0x1300) 3328) := by
  unfold touchesPartArea
  simp only [Bool.or_eq_true, touches_iff]
  unfold Request.apart
  dsimp only
  omega

theorem strobes_all_iff {bs : List (Option Byte)} : bs.all Option.isSome = true ↔ none ∉ bs := by
  rw [List.all_eq_true]
  refine ⟨fun all listed => Bool.noConfusion (all none listed), fun unlisted b listed => ?_⟩
  cases b with
  | none => exact absurd listed unlisted
  | some b => rfl

/-! ### The end of the grant (R134) -/

/-- The Path Guard with a grant counted (R134; log 20). -/
def State.countedGuard (h : State) : PathGuard := { h.guard with
  grantCount := if h.guard.grantCount < 15 then h.guard.grantCount + 1 else 0
  shareCount := if h.guard.grantCount < 15 then h.guard.shareCount else 0
  frameShare := if h.guard.grantCount < 15 then h.guard.frameShare else h.gen.partShare }

theorem State.countGrant_settle (m : State) : m.countGrant.settle.guard = m.settle.countedGuard ∧ Frame [.guard] m.settle m.countGrant.settle := by
  have act : m.countGrant.settle = { m.settle with guard := m.countedGuard } := by
    rw [State.countGrant_eq]
    rfl
  rw [act]
  exact ⟨rfl, State.setGuard_frame (fun _ => m.countedGuard) (Frame.refl _ m.settle) (by decide)⟩

/-- The count depends on the Path Guard and the general fields in force alone. -/
theorem State.countedGuard_congr {m n : State} (guard : m.guard = n.guard) (gen : m.gen = n.gen) : m.countedGuard = n.countedGuard := by
  unfold State.countedGuard
  rw [guard, gen]

end Sys2Proof.Machine
end

section
/-! SUPPORT. What a request of PASS means, and how it is classified (R2, R122, R124 to R128, R134). -/
namespace Sys2Proof.Machine

theorem Request.bytes_of_write {r : Request} (ok : r.ok = true) (kind : r.kind = .write) : r.bytes.length = 8 * r.beats ∧ r.beats ≤ 32 := by
  unfold Request.ok at ok
  simp only [kind, Bool.and_eq_true, decide_eq_true_iff, beq_iff_eq] at ok
  omega

theorem State.page_of {s : State} {base : Nat} (page : s.control.pageBase = some base) : s.page = base := by
  unfold State.page
  rw [page]
  rfl

/-- Where a request lies is read from the control record alone. -/
theorem State.place_congr {s t : State} (same : t.control = s.control) (r : Request) : t.place r = s.place r := by
  unfold State.place State.page
  rw [State.gen_congr same, same]

/-- A read that is no host tag's read of the heartbeat word means nothing (R126, R128). -/
theorem State.takeMeaning_plainRead {s : State} {r : Request} (kind : r.kind = .read)
    (plain : ∀ base, s.control.pageBase = some base → Request.within r base 8192 → s.loaded = true → s.gen.hostTags.getLsbD r.tag = true →
      r.addr ≤ base + 0x90 → base + 0x98 ≤ r.addr + 8 * r.beats → False) : s.takeMeaning r = s := by
  by_cases inside : ∃ base, s.control.pageBase = some base ∧ Request.within r base 8192
  · obtain ⟨base, page, within_⟩ := inside
    rw [State.takeMeaning_pageRead page within_ kind, if_neg]
    simp only [Bool.and_eq_true, coversHeartbeat_iff]
    rintro ⟨⟨loaded, host⟩, first, last⟩
    have low : base ≤ r.addr := within_.1
    exact plain base page within_ loaded host (by omega) (by omega)
  · exact State.takeMeaning_read (fun base page within_ => inside ⟨base, page, within_⟩) kind

section
variable {s sent : State} {r : Request} {mark : Bool} (control : sent.control = s.control) (ok : r.ok = true)
include control ok

/-- What lies elsewhere is granted and means nothing. -/
theorem State.carried_elsewhere (loaded : s.loaded = true) (ring : Request.apart r s.gen.ringBase (512 * s.gen.ringSlots))
    (store : Request.apart r s.gen.clipBase s.gen.clipSize) (records : Request.apart r s.gen.reportBase (512 * s.gen.reportCap))
    (page : Request.apart r s.page 8192) : s.classify mark r = .grant [] ∧ sent.takeMeaning r = sent := by
  have beats := Request.beats_pos ok
  have outside {base len : Nat} (apart : Request.apart r base len) := Request.not_within_of_apart beats apart
  have place : s.place r = .elsewhere :=
    (State.place_outside (outside ring) (outside store) (outside records) (outside page)).1 ⟨ring, store, records, page⟩
  refine ⟨State.classify_elsewhere loaded place, State.takeMeaning_elsewhere (fun base there => ?_) fun _ => ?_⟩
  · rw [control] at there
    exact outside (State.page_of there ▸ page)
  · rw [State.place_congr control, place]
    exact fun no => Place.noConfusion no

omit ok in
/-- A read that is not held is granted, and means nothing unless it is a host tag's read of the heartbeat word. -/
theorem State.carried_read (loaded : s.loaded = true) (kind : r.kind = .read)
    (plain : ¬ (Request.within r s.page 8192 ∧ s.gen.hostTags.getLsbD r.tag = true ∧ r.addr ≤ s.page + 0x90 ∧
      s.page + 0x98 ≤ r.addr + 8 * r.beats))
    (lies : Request.within r s.gen.ringBase (512 * s.gen.ringSlots) ∨ ¬ Request.within r s.gen.ringBase (512 * s.gen.ringSlots) ∧
      (Request.within r s.gen.clipBase s.gen.clipSize ∧ (mark = true ∨ s.gen.hostTags.getLsbD r.tag = false ∨
          (∀ first n, s.guard.range = some (first, n) → Request.apart r (s.gen.clipBase + 512 * first) (512 * n)) ∨
          s.attend.unattended = true ∨ s.gen.holdLimit = 0) ∨
        ¬ Request.within r s.gen.clipBase s.gen.clipSize ∧
          (Request.within r s.gen.reportBase (512 * s.gen.reportCap) ∨ Request.within r s.page 8192))) :
    s.classify mark r = .grant [] ∧ sent.takeMeaning r = sent := by
  refine ⟨?_, State.takeMeaning_plainRead kind fun base page inside _ host first last => ?_⟩
  · rcases lies with ring | ⟨ring, ⟨store, free⟩ | ⟨store, inside⟩⟩
    · exact State.classify_read loaded kind (.inl (State.place_ring ring))
    · rw [State.classify_clipRead loaded kind (State.place_clipStore ring store), if_neg]
      simp only [Bool.and_eq_true, Bool.not_eq_true', bne_iff_ne]
      rintro ⟨⟨⟨unmarked, host⟩, touching⟩, limit⟩
      rcases free with marked | tag | range | unattended | none_
      · rw [marked] at unmarked
        cases unmarked
      · rw [tag] at host
        cases host
      · cases announced : s.guard.range with
        | none =>
          unfold State.touchesRange at touching
          simp [announced] at touching
        | some fn =>
          obtain ⟨first, n⟩ := fn
          exact (State.touchesRange_iff announced).1 touching (range first n announced)
      · rw [State.holdLimit_eq, if_pos unattended] at limit
        exact limit rfl
      · rw [State.holdLimit_eq, none_, Nat.zero_mul, ite_self] at limit
        exact limit rfl
    · by_cases records : Request.within r s.gen.reportBase (512 * s.gen.reportCap)
      · exact State.classify_read loaded kind (.inr (.inl (State.place_reportRing ring store records)))
      · exact State.classify_read loaded kind (.inr (.inr (State.place_page ring store records (inside.resolve_left records))))
  · rw [control] at page
    rw [State.gen_congr control] at host
    rw [State.page_of page] at plain
    exact plain ⟨inside, host, first, last⟩

/-- Without a region map every request is granted; outside the control page, as a read, or as one word of the control line with a strobe
clear, it means nothing. -/
theorem State.carried_unloaded (unloaded : s.loaded = false)
    (lies : s.control.pageBase = none ∨ Request.apart r s.page 8192 ∨ r.kind = .read ∨
      r.addr < s.page + 0x20 ∧ r.beats = 1 ∧ none ∈ r.bytes) : s.classify mark r = .grant [] ∧ sent.takeMeaning r = sent := by
  have unloadedSent : ¬ sent.loaded = true := by
    unfold State.loaded at *
    rw [control, unloaded]
    exact Bool.false_ne_true
  refine ⟨State.classify_unloaded unloaded, ?_⟩
  cases kind : r.kind with
  | read => exact State.takeMeaning_plainRead kind fun _ _ _ loaded _ _ _ => unloadedSent loaded
  | write =>
    by_cases inside : ∃ base, sent.control.pageBase = some base ∧ Request.within r base 8192
    · obtain ⟨base, page, within_⟩ := inside
      have there : s.control.pageBase = some base := control ▸ page
      rcases lies with none_ | apart | read | ⟨line, one, clear⟩
      · rw [none_] at there
        cases there
      · exact absurd within_ (Request.not_within_of_apart (Request.beats_pos ok) (State.page_of there ▸ apart))
      · rw [kind] at read
        cases read
      · obtain ⟨length, -⟩ := Request.bytes_of_write ok kind
        rw [State.page_of there] at line
        rw [State.takeMeaning_pageWrite page within_ kind, State.takePageWrite_clear (by omega) (by omega) clear]
    · exact State.takeMeaning_elsewhere (fun base page within_ => inside ⟨base, page, within_⟩) fun loaded => absurd loaded unloadedSent

end

/-- A request within the control page that may pass (R126). -/
theorem State.classify_pageGranted {s : State} {r : Request} {mark : Bool} {base : Nat} (page : s.control.pageBase = some base)
    (inside : Request.within r base 8192)
    (region : s.loaded = true → s.gen.hostTags.getLsbD r.tag = true ∧ ¬ Request.within r s.gen.ringBase (512 * s.gen.ringSlots) ∧
      ¬ Request.within r s.gen.clipBase s.gen.clipSize ∧ ¬ Request.within r s.gen.reportBase (512 * s.gen.reportCap))
    (passes : r.kind = .write → s.loaded = true → none ∉ r.bytes ∧ Request.apart r (base + 0x40) 8 ∧ Request.apart r (base + 0x80) 72 ∧
      Request.apart r (base + 0x1300) 3328) : s.classify mark r = .grant [] := by
  cases loaded : s.loaded with
  | false => exact State.classify_unloaded loaded
  | true =>
    obtain ⟨host, ring, store, records⟩ := region loaded
    have place : s.place r = .page := State.place_page ring store records (State.page_of page ▸ inside)
    cases kind : r.kind with
    | read => exact State.classify_read loaded kind (.inr (.inr place))
    | write =>
      obtain ⟨strobes, apart⟩ := passes kind loaded
      have free : touchesPartArea (r.addr - s.page) r = false := by
        rw [State.page_of page, ← Bool.not_eq_true, touchesPartArea_iff inside.1]
        exact fun touching => touching apart
      rw [State.classify_pageWrite loaded kind place, if_pos]
      rw [host, free, strobes_all_iff.2 strobes]
      rfl

/-- What is refused (R125 to R127). -/
theorem State.classify_refused {s : State} {r : Request} {mark : Bool} (loaded : s.loaded = true)
    (refusal : r.kind = .write ∧ (Request.within r s.gen.ringBase (512 * s.gen.ringSlots) ∧ s.gen.writerTags.getLsbD r.tag = false ∨
        ¬ Request.within r s.gen.ringBase (512 * s.gen.ringSlots) ∧
          (Request.within r s.gen.clipBase s.gen.clipSize ∨ Request.within r s.gen.reportBase (512 * s.gen.reportCap) ∨
          Request.within r s.page 8192 ∧ (s.gen.hostTags.getLsbD r.tag = false ∨ none ∈ r.bytes ∨ ¬ Request.apart r (s.page + 0x40) 8 ∨
            ¬ Request.apart r (s.page + 0x80) 72 ∨ ¬ Request.apart r (s.page + 0x1300) 3328))) ∨
      (¬ Request.within r s.gen.ringBase (512 * s.gen.ringSlots) ∧ ¬ Request.within r s.gen.clipBase s.gen.clipSize ∧
        ¬ Request.within r s.gen.reportBase (512 * s.gen.reportCap) ∧ ¬ Request.within r s.page 8192 ∧
        ¬ (Request.apart r s.gen.ringBase (512 * s.gen.ringSlots) ∧ Request.apart r s.gen.clipBase s.gen.clipSize ∧
          Request.apart r s.gen.reportBase (512 * s.gen.reportCap) ∧ Request.apart r s.page 8192))) : s.classify mark r = .refuse := by
  rcases refusal with ⟨kind, ⟨ring, tag⟩ | ⟨ring, lies⟩⟩ | ⟨ring, store, records, page, touching⟩
  · exact State.classify_ringRefused loaded kind (State.place_ring ring) tag
  · by_cases store : Request.within r s.gen.clipBase s.gen.clipSize
    · exact State.classify_storeWrite loaded kind (.inl (State.place_clipStore ring store))
    · by_cases records : Request.within r s.gen.reportBase (512 * s.gen.reportCap)
      · exact State.classify_storeWrite loaded kind (.inr (State.place_reportRing ring store records))
      · obtain ⟨page, fault⟩ := (lies.resolve_left store).resolve_left records
        rw [State.classify_pageWrite loaded kind (State.place_page ring store records page), if_neg]
        have area := touchesPartArea_iff (r := r) page.1
        simp only [Bool.and_eq_true, Bool.not_eq_true', ← Bool.not_eq_true, strobes_all_iff, area]
        rintro ⟨⟨host, apart⟩, strobes⟩
        rcases fault with tag | clear | result | line | tally
        · rw [tag] at host
          cases host
        · exact strobes clear
        · exact apart fun all => result all.1
        · exact apart fun all => line all.2.1
        · exact apart fun all => tally all.2.2
  · exact State.classify_straddles loaded ((State.place_outside ring store records page).2 touching)

end Sys2Proof.Machine
end

section
/-! THEOREM. The grant to PASS, and what is refused (R122, R124 to R128, R134). -/
namespace Sys2Proof.Machine

theorem filterMap_id_length {word : List (Option Byte)} (all : word.all Option.isSome = true) : (word.filterMap id).length = word.length := by
  induction word with
  | nil => rfl
  | cons b word ih =>
    simp only [List.all_cons, Bool.and_eq_true] at all
    cases b with
    | none => exact absurd all.1 Bool.false_ne_true
    | some b => exact congrArg Nat.succ (ih all.2)

/-- A word handed over has eight bytes. -/
theorem handedWord_length {off o : Nat} {bs : List (Option Byte)} {w : List Byte} (handed : handedWord off bs o = some w) : w.length = 8 := by
  unfold handedWord at handed
  split at handed
  next inside =>
    obtain ⟨low, _, high⟩ := inside
    unfold fullWord at handed
    split at handed
    next all =>
      cases handed
      rw [filterMap_id_length all, List.length_take, List.length_drop]
      omega
    next => cases handed
  next => cases handed

/-- REFUSE (R127). -/
theorem State.refuse_refuses (c : Candidate) (r : Request) (s : State) :
    (s.refuse c r).guard = { s.guard.remove c with unanswered := decideOldest r.tag .refused s.guard.unanswered } ∧
    (s.refuse c r).status.pending = s.status.pending ||| Notice.refusedRequest.bit ∧ (s.refuse c r).status.offer = s.status.offer ∧
    (s.refuse c r).tallies = (s.count .refusedRequests).tallies ∧ Frame [.guard, .notices, .writer, .tallies] s (s.refuse c r) := by
  obtain ⟨unanswered, -⟩ := s.guard.remove_keeps c
  have decided : Frame [.guard] s ((s.setGuard fun g => g.remove c).decided r.tag .refused) :=
    State.setGuard_frame _ (State.setGuard_frame _ (Frame.refl _ s) (by decide)) (by decide)
  unfold State.refuse
  refine ⟨?_, ?_, ?_, ?_, State.raise_frame _ (State.count_frame _ (decided.mono (by decide)) (by decide)) (by decide)⟩
  · rw [State.raise_guard, State.count_guard, ← unanswered]
    rfl
  · rw [State.raise_status_pending, State.count_status]
    rfl
  · obtain ⟨-, -, -, -, offer⟩ := State.setPending_status_rest
      (((((s.setGuard fun g => g.remove c).decided r.tag .refused).count .refusedRequests).status.pending ||| Notice.refusedRequest.bit))
      (((s.setGuard fun g => g.remove c).decided r.tag .refused).count .refusedRequests)
    rw [State.raise, offer, State.count_status]
    rfl
  · rw [State.raise_tallies, State.count_tallies, State.count_tallies]
    rfl

/-- Settles O38. -/
theorem passIsGrantedOrRefused : Obligations.PassIsGrantedOrRefused := by
  unfold Obligations.PassIsGrantedOrRefused
  intro s sent c r mark pre post u g counted gIs ok candidate request queue own waits before sentIs countedIs
  subst gIs
  have counts (h : State) : counted h = h.countedGuard := countedIs h
  have sentOf : s.sent c r = sent := (State.sent_of queue own waits before).trans sentIs.symm
  have control : sent.control = s.control := by rw [sentIs]
  have loadedSent : sent.loaded = s.loaded := congrArg (fun k => k.setup.isSome) control
  refine ⟨fun turn => ?granted, fun loaded alone refusal nobody => ?refused⟩
  case granted =>
    have grants (class_ : s.classify mark r = .grant []) : exec .downstreamGrant s = .next (sent.takeMeaning r).countGrant.settle := by
      rw [exec_downstreamGrant_granted candidate request turn class_, State.grantPass_eq, List.foldl_nil, sentOf]
      rfl
    refine ⟨fun lies => ?carried, fun base page inside region passes => ?page⟩
    case carried =>
      have both : s.classify mark r = .grant [] ∧ sent.takeMeaning r = sent := by
        rcases lies with ⟨loaded, ring, store, records, page⟩ | ⟨loaded, kind, plain, lies⟩ | ⟨unloaded, lies⟩
        · exact State.carried_elsewhere control ok loaded ring store records page
        · exact State.carried_read control loaded kind plain lies
        · exact State.carried_unloaded control ok unloaded lies
      have taken := grants both.1
      rw [both.2] at taken
      have toSent : Frame [.guard] s sent := by
        have moved : Frame [.guard] s (s.setGuard fun _ => (s.sent c r).guard) := State.setGuard_frame _ (Frame.refl _ s) (by decide)
        rw [← sentOf]
        exact moved
      refine ⟨_, taken, ?_, ?_⟩
      · rw [counts, State.settle_guard, State.countGrant_eq]
        rfl
      · exact State.settle_frame (State.countGrant_frame (toSent.mono (by decide)) (by decide)) (by decide)
    case page =>
      have taken := grants (State.classify_pageGranted page inside region passes)
      have pageSent : sent.control.pageBase = some base := by rw [control, page]
      have counting {m : State} (act : sent.takeMeaning r = m) : ∃ t, exec .downstreamGrant s = .next t ∧ t.guard = counted m.settle ∧
          Frame [.guard] m.settle t := by
        obtain ⟨guard, frame⟩ := m.countGrant_settle
        refine ⟨m.countGrant.settle, ?_, ?_, frame⟩
        · rw [taken, act]
        · rw [counts, guard]
      refine ⟨fun i word => ?meaning, fun off a b d kind offIs aIs bIs dIs => ?words⟩
      case meaning =>
        have acts : exec i sent = done (sent.takeMeaning r) := by
          rcases word with ⟨kind, loaded, first, last, rfl⟩ | ⟨kind, command⟩
          · obtain ⟨host, -⟩ := region loaded
            have low : base ≤ r.addr := inside.1
            have heard : (sent.loaded && sent.gen.hostTags.getLsbD r.tag && coversHeartbeat (r.addr - base) r) = true := by
              rw [loadedSent, loaded, State.gen_congr control, host, coversHeartbeat_iff.2 (by omega)]
              rfl
            rw [State.takeMeaning_pageRead pageSent inside kind, if_pos heard]
            exact if_pos (loadedSent.trans loaded)
          · obtain ⟨length, -⟩ := Request.bytes_of_write ok kind
            rw [State.takeMeaning_pageWrite pageSent inside kind]
            exact exec_pageCommand (by omega) command sent
        obtain ⟨t, e, guard, frame⟩ := counting rfl
        exact ⟨t, _, e, acts, guard, frame⟩
      case words =>
        obtain ⟨length, short⟩ := Request.bytes_of_write ok kind
        have meaning := State.takeMeaning_pageWrite pageSent inside kind
        rw [← offIs] at meaning
        have line : d = sent.controlLine off r.bytes := by
          have first : a = applyWord (fun w t => t.storeArgument (BitVec.ofNat 64 (leVal w))) sent (handedWord off r.bytes 0x08) := by
            rw [aIs]
            cases handed : handedWord off r.bytes 0x08 with
            | none => rfl
            | some w =>
              show _ = sent.storeArgument (BitVec.ofNat 64 (leVal w))
              rw [leVal_word (handedWord_length handed), State.storeArgument, State.setControl, control]
          have second : b = applyWord (fun w t => t.takeAck (field w 0 2)) a (handedWord off r.bytes 0x10) := by
            rw [bIs]
            cases handedWord off r.bytes 0x10 <;> exact rfl
          have third : d = applyWord (fun w t => t.clearKinds (BitVec.ofNat 24 (field w 0 3))) b (handedWord off r.bytes 0x18) := by
            rw [dIs]
            cases handedWord off r.bytes 0x18 <;> exact rfl
          rw [third, second, first]
          rfl
        have part : d.control.part = s.control.part := by
          rw [line, State.controlLine_part, control]
        have whole : r.bytes.length % 8 = 0 := by omega
        rw [State.takePageWrite_eq whole, ← line] at meaning
        refine ⟨fun low => ?command, fun untaken high mk area => ?untaken, fun front rest takes split frontWhole => ⟨fun meets some_ => ?across,
          fun i j low first second => ?two⟩⟩
        case command =>
          rw [State.setupWrite_before d whole (by omega)] at meaning
          obtain ⟨t, e, guard, frame⟩ := counting meaning
          refine ⟨t, e, ?_⟩
          cases handed : handedWord off r.bytes 0 with
          | none =>
            rw [handed] at guard frame
            have settled : Frame [.writer] d d.settle := State.settle_frame (Frame.refl _ d) (by decide)
            refine ⟨?_, (settled.mono (by decide)).trans (frame.mono (by decide))⟩
            rw [guard, counts, counts]
            rfl
          | some w =>
            rw [handed] at guard frame
            exact ⟨_, exec_commandOf _ _ d, guard, frame⟩
        case untaken =>
          rw [handedWord_before (show 0 < off by omega)] at meaning
          obtain ⟨lo, hi, acts⟩ := exec_setupWrite (c := mk ⟨r.tag, off, r.bytes⟩) (w := ⟨r.tag, off, r.bytes⟩)
            (area.imp (fun h => congrFun h _) (Or.imp (fun h => congrFun h _) (Or.imp (fun h => congrFun h _) fun h => congrFun h _))) d
          rw [State.setupWrite_untaken (part ▸ untaken) lo hi 0x100 0x1300] at acts
          obtain ⟨t, e, guard, frame⟩ := counting meaning
          exact ⟨t, _, e, acts, guard, frame⟩
        case across =>
          have lengths : front.length + rest.length = r.bytes.length := by rw [split, List.length_append]
          have more : rest.length ≠ 0 := fun none_ => some_ (List.eq_nil_of_length_eq_zero none_)
          have takesD : d.control.part.takesSetup = true := by rw [part, takes]
          have acts : d.setupWrite 0x100 0x1300 ⟨r.tag, off, r.bytes⟩ = d.setupWrite 0x100 0x200 ⟨r.tag, 0x100, rest⟩ := by
            rw [State.setupWrite_takes takesD, State.setupWrite_takes takesD, State.takeWords_eq, State.takeWords_eq, split,
              writtenIn_append _ _ _ _ _ _ frontWhole, writtenIn_before frontWhole meets.le, meets, List.nil_append,
              writtenIn_inside (by omega) (Nat.le_refl _) (by omega), writtenIn_inside (by omega) (Nat.le_refl _) (by omega)]
          rw [handedWord_before (show 0 < off by omega), acts] at meaning
          obtain ⟨t, e, guard, frame⟩ := counting meaning
          exact ⟨t, _, e, rfl, guard, frame⟩
        case two =>
          have lengths : front.length + rest.length = r.bytes.length := by rw [split, List.length_append]
          have takesSent : sent.control.part.takesSetup = true := by rw [control, takes]
          have firstActs : exec i sent = done (sent.takeWords 0x100 0x1300 ⟨r.tag, off, front⟩) := by
            rw [exec_pageCommand frontWhole first, State.takePageWrite_setup frontWhole (by omega), State.setupWrite_takes takesSent]
          have takesNext : (sent.takeWords 0x100 0x1300 ⟨r.tag, off, front⟩).settle.control.part.takesSetup = true := by
            rw [State.settle_control, State.takeWords_part]
            exact takesSent
          have secondActs : exec j (sent.takeWords 0x100 0x1300 ⟨r.tag, off, front⟩).settle =
              done ((sent.takeWords 0x100 0x1300 ⟨r.tag, off, front⟩).settle.takeWords 0x100 0x1300 ⟨r.tag, off + front.length, rest⟩) := by
            rw [exec_pageCommand (by omega) second, State.takePageWrite_setup (by omega) (by omega), State.setupWrite_takes takesNext]
          obtain ⟨tallies, frame⟩ := State.takeWords_split 0x100 0x1300 r.tag off front rest sent frontWhole _ _ _ rfl rfl rfl
          generalize sent.takeWords 0x100 0x1300 ⟨r.tag, off, front⟩ = m at firstActs secondActs tallies frame
          generalize m.settle.takeWords 0x100 0x1300 ⟨r.tag, off + front.length, rest⟩ = n at secondActs tallies frame
          have act : sent.takeMeaning r = sent.takeWords 0x100 0x1300 ⟨r.tag, off, front ++ rest⟩ := by
            rw [State.takeMeaning_pageWrite pageSent inside kind, ← offIs, State.takePageWrite_setup whole (by omega),
              State.setupWrite_takes takesSent, split]
          generalize sent.takeWords 0x100 0x1300 ⟨r.tag, off, front ++ rest⟩ = w at act tallies frame
          obtain ⟨t, e, guard, moved⟩ := counting act
          have settled (x : State) : Frame [.writer] x x.settle := State.settle_frame (Frame.refl _ x) (by decide)
          refine ⟨t, m.settle, n.settle, e, firstActs, secondActs, ?_, ?_, ?_⟩
          · rw [guard, counts, counts]
            exact State.countedGuard_congr (frame .guard (by decide)) (State.gen_congr (frame .control (by decide)))
          · have sentTallies : sent.tallies = s.tallies := by rw [sentIs]
            have tTallies : t.tallies = w.tallies := moved .tallies (by decide)
            rw [tTallies, tallies, sentTallies]
            rfl
          · have toW := (((settled n).symm.mono (by decide)).trans frame).trans ((settled w).mono (by decide))
            exact (toW.mono (by decide)).trans (moved.mono (by decide))
  case refused =>
    obtain ⟨guard, pending, offer, tallies, frame⟩ := s.refuse_refuses c r
    rw [queue, decideOldest_of own waits before] at guard
    have served : (s.guard.remove c).lastServed = s.guard.lastServed := by cases c <;> rfl
    have nobody' : (s.refuse c r).guard.candidate = none := by
      rw [guard]
      exact nobody
    have alone' : (s.refuse c r).guard.lastServed.after.find? (s.refuse c r).waits = none := by
      rw [State.waits_congr (frame .control (by decide)) offer (frame .report (by decide)) (frame .intake (by decide))
        (frame .clip (by decide)), guard]
      exact served ▸ alone
    refine ⟨_, exec_downstreamGrant_refused candidate request (.inl alone) (State.classify_refused loaded refusal) rfl nobody' alone',
      guard, ?_, tallies, State.settle_frame frame (by decide)⟩
    simp only [State.settle_status, Status.choose_rest]
    exact pending

end Sys2Proof.Machine
end

section
/-! SUPPORT. The checks of a LOAD (R41, R65, R68, R84, R124, R156). -/
namespace Sys2Proof.Machine

/-! ### The checks of a read (R156) -/

/-- A check of a list reports a reason at a place. -/
def Reports (cs : List Check) (bs : List Byte) (why : Reason) (place : Nat) : Prop :=
  ∃ c ∈ cs, c.fails bs = true ∧ c.reason = why ∧ c.offset = place

theorem reports_filter {cs : List Check} {bs : List Byte} {why : Reason} {place : Nat} :
    (∃ c ∈ cs.filter (fun c => c.fails bs), c.reason = why ∧ c.offset = place) ↔ Reports cs bs why place := by
  unfold Reports
  simp only [List.mem_filter, and_assoc]

section
variable {bs : List Byte} {why : Reason} {place : Nat}

theorem reports_nil : Reports [] bs why place ↔ False := by
  unfold Reports
  simp only [List.not_mem_nil, false_and, exists_false]

theorem reports_cons {c : Check} {cs : List Check} :
    Reports (c :: cs) bs why place ↔ (c.fails bs = true ∧ c.reason = why ∧ c.offset = place) ∨ Reports cs bs why place := by
  unfold Reports
  simp only [List.mem_cons, exists_eq_or_imp]

theorem reports_append {cs ds : List Check} :
    Reports (cs ++ ds) bs why place ↔ Reports cs bs why place ∨ Reports ds bs why place := by
  unfold Reports
  simp only [List.mem_append, or_and_right, exists_or]

theorem reports_flatten {n : Nat} {cs : Nat → List Check} :
    Reports ((List.range n).map cs).flatten bs why place ↔ ∃ i, i < n ∧ Reports (cs i) bs why place := by
  unfold Reports
  simp only [List.mem_flatten, List.mem_map, List.mem_range]
  constructor
  · rintro ⟨c, ⟨_, ⟨i, small, rfl⟩, listed⟩, found⟩
    exact ⟨i, small, c, listed, found⟩
  · rintro ⟨i, small, c, listed, found⟩
    exact ⟨c, ⟨_, ⟨i, small, rfl⟩, listed⟩, found⟩

/-- Of a list whose checks all have one reason, another reason is never reported. -/
theorem not_reports_of_reason {cs : List Check} {other : Reason} (one : ∀ c ∈ cs, c.reason = other) (differs : other ≠ why) :
    ¬ Reports cs bs why place := by
  rintro ⟨c, listed, _, reason, _⟩
  exact differs ((one c listed).symm.trans reason)

/-- A RANGE check reports its offset when its field is out of range. -/
theorem rangeCheck_reports {off len : Nat} {ok : Nat → Bool} {P : Prop} (sound : ok (pageField bs off len) = true ↔ P) :
    ((rangeCheck off len ok).fails bs = true ∧ (rangeCheck off len ok).reason = .range ∧ (rangeCheck off len ok).offset = place) ↔
      place = off ∧ ¬ P := by
  show ((!ok (pageField bs off len)) = true ∧ Reason.range = .range ∧ off = place) ↔ _
  rw [← sound, Bool.not_eq_true']
  cases ok (pageField bs off len) <;> simp [eq_comm]

/-- A check of its own form reports its offset when it fails. -/
theorem check_reports {last off : Nat} {reason : Reason} {fails : List Byte → Bool} {P : Prop} (sound : fails bs = true ↔ P) :
    ((⟨last, reason, off, fails⟩ : Check).fails bs = true ∧ (⟨last, reason, off, fails⟩ : Check).reason = reason ∧
      (⟨last, reason, off, fails⟩ : Check).offset = place) ↔ place = off ∧ P := by
  show (fails bs = true ∧ reason = reason ∧ off = place) ↔ _
  rw [sound]
  simp only [true_and, and_comm, eq_comm]

end

theorem alignedOk_iff (n : Nat) : alignedOk n = true ↔ n % 4096 = 0 := by simp [alignedOk]
theorem ringSlotsOk_iff (n : Nat) : ringSlotsOk n = true ↔ (1024 ≤ n ∧ n ≤ 16384) ∧ n % 8 = 0 := by simp [ringSlotsOk]
theorem clipSizeOk_iff (n : Nat) : clipSizeOk n = true ↔ (262144 ≤ n ∧ n ≤ 67108864) ∧ n % 4096 = 0 := by simp [clipSizeOk]
theorem reportCapOk_iff (n : Nat) : reportCapOk n = true ↔ 4 ≤ n ∧ n ≤ 256 := decide_eq_true_iff
theorem rateDevOk_iff (n : Nat) : rateDevOk n = true ↔ 1 ≤ n ∧ n ≤ 200 := decide_eq_true_iff
theorem rateNominalOk_iff (n : Nat) : rateNominalOk n = true ↔ 171626893 ≤ n ∧ n ≤ 171970491 := decide_eq_true_iff
theorem cycleMaxOk_iff (n : Nat) : cycleMaxOk n = true ↔ n ∈ [0, 1, 3, 7, 15, 31, 63] := List.contains_iff_mem
theorem bitOk_iff (n : Nat) : bitOk n = true ↔ n ≤ 1 := decide_eq_true_iff
theorem silenceLimitOk_iff (n : Nat) : silenceLimitOk n = true ↔ 1 ≤ n ∧ n ≤ 60 := decide_eq_true_iff
theorem intakeLatencyOk_iff (n : Nat) : intakeLatencyOk n = true ↔ n ≤ 5000 := decide_eq_true_iff
theorem watermarkOk_iff (cap n : Nat) : watermarkOk cap n = true ↔ 1 ≤ n ∧ n ≤ cap := decide_eq_true_iff
theorem preOk_iff (n : Nat) : preOk n = true ↔ n ≤ 2000 := decide_eq_true_iff
theorem postOk_iff (n : Nat) : postOk n = true ↔ 100 ≤ n ∧ n ≤ 4000 := decide_eq_true_iff
theorem tailWaitOk_iff (n : Nat) : tailWaitOk n = true ↔ n ≤ 10000 := decide_eq_true_iff
theorem serviceIntervalOk_iff (n : Nat) : serviceIntervalOk n = true ↔ n = 0 ∨ 100 ≤ n ∧ n ≤ 60000 := decide_eq_true_iff
theorem copyBurstOk_iff (n : Nat) : copyBurstOk n = true ↔ n = 8 ∨ n = 16 ∨ n = 32 := decide_eq_true_iff
theorem holdLimitOk_iff (n : Nat) : holdLimitOk n = true ↔ n ≤ 100 := decide_eq_true_iff
theorem partShareOk_iff (n : Nat) : partShareOk n = true ↔ 1 ≤ n ∧ n ≤ 8 := decide_eq_true_iff
theorem cyclePeriodOk_iff (n : Nat) : cyclePeriodOk n = true ↔ 100 ≤ n ∧ n ≤ 65535 := decide_eq_true_iff

/-- Two extents do not overlap (R156). -/
def ExtentsApart (a m b n : Nat) : Prop := a + m ≤ b ∨ b + n ≤ a

theorem overlap_iff (a m b n : Nat) : overlap (some (a, m)) (some (b, n)) = true ↔ ¬ ExtentsApart a m b n := by
  unfold overlap ExtentsApart
  simp only [decide_eq_true_iff]
  omega

/-- The read of the general setup holds all of its checks (log 16). -/
theorem checksIn_general (page : Nat) : checksIn page 0x100 = generalChecks ++ tagsCheck :: regionChecks page := rfl

end Sys2Proof.Machine
end

section
/-! SUPPORT. What the checks of the general setup report (R1, R27, R65, R103, R124, R138, R151, R156, R184). -/
namespace Sys2Proof.Machine

section
variable {bs : List Byte} {place : Nat}

theorem reports_one {c : Check} {why : Reason} : Reports [c] bs why place ↔ c.fails bs = true ∧ c.reason = why ∧ c.offset = place := by
  rw [reports_cons, reports_nil, or_false]

/-- The RANGE checks of the general setup, field by field. -/
theorem generalChecks_report {f : Nat → Nat → Nat} (is : f = pageField bs) : Reports generalChecks bs .range place ↔
      place = 0x100 ∧ ¬ f 0x100 4 % 4096 = 0 ∨
      place = 0x104 ∧ ¬ ((1024 ≤ f 0x104 2 ∧ f 0x104 2 ≤ 16384) ∧ f 0x104 2 % 8 = 0) ∨ place = 0x10A ∧ ¬ (1 ≤ f 0x10A 2 ∧ f 0x10A 2 ≤ 200) ∨
      place = 0x10C ∧ ¬ (171626893 ≤ f 0x10C 4 ∧ f 0x10C 4 ≤ 171970491) ∨ place = 0x110 ∧ ¬ f 0x110 4 % 4096 = 0 ∨
      place = 0x114 ∧ ¬ ((262144 ≤ f 0x114 4 ∧ f 0x114 4 ≤ 67108864) ∧ f 0x114 4 % 4096 = 0) ∨ place = 0x118 ∧ ¬ f 0x118 4 % 4096 = 0 ∨
      place = 0x11C ∧ ¬ (4 ≤ f 0x11C 2 ∧ f 0x11C 2 ≤ 256) ∨ place = 0x11E ∧ ¬ f 0x11E 1 ≤ 1 ∨
      place = 0x11F ∧ f 0x11F 1 ∉ [0, 1, 3, 7, 15, 31, 63] ∨ place = 0x120 ∧ ¬ (1 ≤ f 0x120 1 ∧ f 0x120 1 ≤ 60) ∨
      place = 0x121 ∧ ¬ f 0x121 1 ≤ 1 ∨ place = 0x124 ∧ ¬ f 0x124 2 ≤ 5000 ∨ place = 0x126 ∧ ¬ (1 ≤ f 0x126 2 ∧ f 0x126 2 ≤ f 0x11C 2) ∨
      place = 0x128 ∧ ¬ f 0x128 2 ≤ 2000 ∨ place = 0x12A ∧ ¬ (100 ≤ f 0x12A 2 ∧ f 0x12A 2 ≤ 4000) ∨ place = 0x12C ∧ ¬ f 0x12C 2 ≤ 10000 ∨
      place = 0x12E ∧ ¬ (f 0x12E 2 = 0 ∨ 100 ≤ f 0x12E 2 ∧ f 0x12E 2 ≤ 60000) ∨
      place = 0x130 ∧ ¬ (f 0x130 1 = 8 ∨ f 0x130 1 = 16 ∨ f 0x130 1 = 32) ∨ place = 0x131 ∧ ¬ f 0x131 1 ≤ 100 ∨
      place = 0x132 ∧ ¬ (1 ≤ f 0x132 1 ∧ f 0x132 1 ≤ 8) ∨ place = 0x138 ∧ ¬ (100 ≤ f 0x138 2 ∧ f 0x138 2 ≤ 65535) ∨
      place = 0x13A ∧ ¬ f 0x13A 1 ≤ 1 := by
  subst is
  have watermark : (!watermarkOk (pageField bs 0x11C 2) (pageField bs 0x126 2)) = true ↔
      ¬ (1 ≤ pageField bs 0x126 2 ∧ pageField bs 0x126 2 ≤ pageField bs 0x11C 2) := by
    rw [Bool.not_eq_true', ← Bool.not_eq_true, watermarkOk_iff]
  unfold generalChecks
  refine reports_cons.trans (or_congr (rangeCheck_reports (alignedOk_iff _)) ?_)
  refine reports_cons.trans (or_congr (rangeCheck_reports (ringSlotsOk_iff _)) ?_)
  refine reports_cons.trans (or_congr (rangeCheck_reports (rateDevOk_iff _)) ?_)
  refine reports_cons.trans (or_congr (rangeCheck_reports (rateNominalOk_iff _)) ?_)
  refine reports_cons.trans (or_congr (rangeCheck_reports (alignedOk_iff _)) ?_)
  refine reports_cons.trans (or_congr (rangeCheck_reports (clipSizeOk_iff _)) ?_)
  refine reports_cons.trans (or_congr (rangeCheck_reports (alignedOk_iff _)) ?_)
  refine reports_cons.trans (or_congr (rangeCheck_reports (reportCapOk_iff _)) ?_)
  refine reports_cons.trans (or_congr (rangeCheck_reports (bitOk_iff _)) ?_)
  refine reports_cons.trans (or_congr (rangeCheck_reports (cycleMaxOk_iff _)) ?_)
  refine reports_cons.trans (or_congr (rangeCheck_reports (silenceLimitOk_iff _)) ?_)
  refine reports_cons.trans (or_congr (rangeCheck_reports (bitOk_iff _)) ?_)
  refine reports_cons.trans (or_congr (rangeCheck_reports (intakeLatencyOk_iff _)) ?_)
  refine reports_cons.trans (or_congr (check_reports watermark) ?_)
  refine reports_cons.trans (or_congr (rangeCheck_reports (preOk_iff _)) ?_)
  refine reports_cons.trans (or_congr (rangeCheck_reports (postOk_iff _)) ?_)
  refine reports_cons.trans (or_congr (rangeCheck_reports (tailWaitOk_iff _)) ?_)
  refine reports_cons.trans (or_congr (rangeCheck_reports (serviceIntervalOk_iff _)) ?_)
  refine reports_cons.trans (or_congr (rangeCheck_reports (copyBurstOk_iff _)) ?_)
  refine reports_cons.trans (or_congr (rangeCheck_reports (holdLimitOk_iff _)) ?_)
  refine reports_cons.trans (or_congr (rangeCheck_reports (partShareOk_iff _)) ?_)
  refine reports_cons.trans (or_congr (rangeCheck_reports (cyclePeriodOk_iff _)) ?_)
  exact reports_one.trans (rangeCheck_reports (bitOk_iff _))

/-- The check of the tag sets (R124). -/
theorem tagsCheck_report {f : Nat → Nat → Nat} (is : f = pageField bs) : Reports [tagsCheck] bs .tags place ↔
    place = 0x108 ∧ (BitVec.ofNat 16 (f 0x106 2) = 0 ∨ BitVec.ofNat 16 (f 0x108 2) = 0 ∨
      BitVec.ofNat 16 (f 0x106 2) &&& BitVec.ofNat 16 (f 0x108 2) ≠ 0) := by
  subst is
  refine reports_one.trans (check_reports ?_)
  simp only [Bool.or_eq_true, decide_eq_true_iff, or_assoc]

end

/-! ### Regions (R1, R103, R138) -/

/-- A region that stands when its fields are in range. -/
def RegionWhen (region : Option (Nat × Nat)) (valid : Prop) (base len : Nat) : Prop :=
  (valid → region = some (base, len)) ∧ (¬ valid → region = none)

theorem regionWhen_ite {valid : Prop} {c : Bool} (sound : c = true ↔ valid) (base len : Nat) :
    RegionWhen (if c then some (base, len) else none) valid base len :=
  ⟨fun h => if_pos (sound.2 h), fun h => if_neg fun yes => h (sound.1 yes)⟩

section
variable {o p : Option (Nat × Nat)} {v w : Prop} {a m b n : Nat}

theorem RegionWhen.beyond (h : RegionWhen o v a m) : beyondSpace o = true ↔ v ∧ 2 ^ 32 < a + m := by
  by_cases valid : v
  · rw [h.1 valid]
    exact decide_eq_true_iff.trans (and_iff_right valid).symm
  · rw [h.2 valid]
    exact iff_of_false Bool.false_ne_true fun both => valid both.1

theorem RegionWhen.overlaps (h : RegionWhen o v a m) (k : RegionWhen p w b n) : overlap o p = true ↔ v ∧ w ∧ ¬ ExtentsApart a m b n := by
  by_cases valid : v
  · by_cases valid' : w
    · rw [h.1 valid, k.1 valid', overlap_iff]
      exact ⟨fun meet => ⟨valid, valid', meet⟩, fun all => all.2.2⟩
    · rw [h.1 valid, k.2 valid']
      exact iff_of_false Bool.false_ne_true fun all => valid' all.2.1
  · rw [h.2 valid]
    exact iff_of_false Bool.false_ne_true fun all => valid all.1

end

section
variable {v w x A B C D : Prop}

theorem or_under_one : (v ∧ A ∨ v ∧ True ∧ B) ↔ v ∧ (A ∨ B) := by tauto

theorem or_under_two : ((v ∧ A ∨ w ∧ v ∧ B) ∨ v ∧ True ∧ C) ↔ v ∧ (A ∨ w ∧ B ∨ C) := by tauto

theorem or_under_three : (((v ∧ A ∨ w ∧ v ∧ B) ∨ x ∧ v ∧ C) ∨ v ∧ True ∧ D) ↔ v ∧ (A ∨ w ∧ B ∨ x ∧ C ∨ D) := by tauto

end

/-- The REGION checks, each once the fields it uses are in range. -/
theorem regionChecks_report {bs : List Byte} {page place : Nat} {f : Nat → Nat → Nat} {ring clip report : Prop} (is : f = pageField bs)
    (ringIs : ring ↔ f 0x100 4 % 4096 = 0 ∧ (1024 ≤ f 0x104 2 ∧ f 0x104 2 ≤ 16384) ∧ f 0x104 2 % 8 = 0)
    (clipIs : clip ↔ f 0x110 4 % 4096 = 0 ∧ (262144 ≤ f 0x114 4 ∧ f 0x114 4 ≤ 67108864) ∧ f 0x114 4 % 4096 = 0)
    (reportIs : report ↔ f 0x118 4 % 4096 = 0 ∧ (4 ≤ f 0x11C 2 ∧ f 0x11C 2 ≤ 256)) : Reports (regionChecks page) bs .region place ↔
      place = 0x100 ∧ ring ∧ (2 ^ 32 < f 0x100 4 + 512 * f 0x104 2 ∨ ¬ ExtentsApart (f 0x100 4) (512 * f 0x104 2) page 8192) ∨
      place = 0x110 ∧ clip ∧ (2 ^ 32 < f 0x110 4 + f 0x114 4 ∨ ring ∧ ¬ ExtentsApart (f 0x100 4) (512 * f 0x104 2) (f 0x110 4) (f 0x114 4) ∨
        ¬ ExtentsApart (f 0x110 4) (f 0x114 4) page 8192) ∨
      place = 0x118 ∧ report ∧ (2 ^ 32 < f 0x118 4 + 512 * f 0x11C 2 ∨
        ring ∧ ¬ ExtentsApart (f 0x100 4) (512 * f 0x104 2) (f 0x118 4) (512 * f 0x11C 2) ∨
        clip ∧ ¬ ExtentsApart (f 0x110 4) (f 0x114 4) (f 0x118 4) (512 * f 0x11C 2) ∨
        ¬ ExtentsApart (f 0x118 4) (512 * f 0x11C 2) page 8192) := by
  subst is
  have ringRegion_ : RegionWhen (ringRegion bs) ring _ _ := regionWhen_ite
    (by rw [Bool.and_eq_true, alignedOk_iff, ringSlotsOk_iff, ringIs]) _ _
  have clipRegion_ : RegionWhen (clipRegion bs) clip _ _ := regionWhen_ite
    (by rw [Bool.and_eq_true, alignedOk_iff, clipSizeOk_iff, clipIs]) _ _
  have reportRegion_ : RegionWhen (reportRegion bs) report _ _ := regionWhen_ite
    (by rw [Bool.and_eq_true, alignedOk_iff, reportCapOk_iff, reportIs]) _ _
  have pageRegion : RegionWhen (some (page, 8192)) True page 8192 := ⟨fun _ => rfl, fun no => absurd trivial no⟩
  unfold regionChecks
  refine reports_cons.trans (or_congr (check_reports ?_) ?_)
  · rw [Bool.or_eq_true, ringRegion_.beyond, ringRegion_.overlaps pageRegion]
    exact or_under_one
  refine reports_cons.trans (or_congr (check_reports ?_) ?_)
  · rw [Bool.or_eq_true, Bool.or_eq_true, clipRegion_.beyond, ringRegion_.overlaps clipRegion_, clipRegion_.overlaps pageRegion]
    exact or_under_two
  refine reports_one.trans (check_reports ?_)
  rw [Bool.or_eq_true, Bool.or_eq_true, Bool.or_eq_true, reportRegion_.beyond, ringRegion_.overlaps reportRegion_,
    clipRegion_.overlaps reportRegion_, reportRegion_.overlaps pageRegion]
  exact or_under_three

/-! ### Which reason a read of the general setup reports -/

section
variable {bs : List Byte} {page place : Nat}

theorem generalChecks_reason (c : Check) (listed : c ∈ generalChecks) : c.reason = .range := by
  revert c
  unfold generalChecks
  simp [rangeCheck]

theorem regionChecks_reason (c : Check) (listed : c ∈ regionChecks page) : c.reason = .region := by
  revert c
  unfold regionChecks
  simp

theorem tagsCheck_reason (c : Check) (listed : c ∈ [tagsCheck]) : c.reason = .tags := by
  rw [List.mem_singleton.1 listed]
  rfl

/-- The checks of the general setup, by their reason. -/
theorem generalRead_reports (why : Reason) : Reports (checksIn page 0x100) bs why place ↔
    Reports generalChecks bs why place ∨ Reports [tagsCheck] bs why place ∨ Reports (regionChecks page) bs why place := by
  rw [checksIn_general, reports_append, reports_cons (c := tagsCheck), reports_one]

theorem generalRead_range : Reports (checksIn page 0x100) bs .range place ↔ Reports generalChecks bs .range place := by
  rw [generalRead_reports]
  have tags := not_reports_of_reason (bs := bs) (place := place) tagsCheck_reason (show Reason.tags ≠ .range by decide)
  have regions := not_reports_of_reason (bs := bs) (place := place) (regionChecks_reason (page := page)) (show Reason.region ≠ .range by decide)
  tauto

theorem generalRead_tags : Reports (checksIn page 0x100) bs .tags place ↔ Reports [tagsCheck] bs .tags place := by
  rw [generalRead_reports]
  have ranges := not_reports_of_reason (bs := bs) (place := place) generalChecks_reason (show Reason.range ≠ .tags by decide)
  have regions := not_reports_of_reason (bs := bs) (place := place) (regionChecks_reason (page := page)) (show Reason.region ≠ .tags by decide)
  tauto

theorem generalRead_region : Reports (checksIn page 0x100) bs .region place ↔ Reports (regionChecks page) bs .region place := by
  rw [generalRead_reports]
  have ranges := not_reports_of_reason (bs := bs) (place := place) generalChecks_reason (show Reason.range ≠ .region by decide)
  have tags := not_reports_of_reason (bs := bs) (place := place) tagsCheck_reason (show Reason.tags ≠ .region by decide)
  tauto

/-- The general setup passes when it reports nothing for any of its three reasons. -/
theorem generalRead_passes : (checksIn page 0x100).filter (fun c => c.fails bs) = [] ↔
    (∀ place, ¬ Reports generalChecks bs .range place) ∧ (∀ place, ¬ Reports [tagsCheck] bs .tags place) ∧
      ∀ place, ¬ Reports (regionChecks page) bs .region place := by
  rw [checksIn_general, List.filter_eq_nil_iff]
  constructor
  · intro passes
    refine ⟨?_, ?_, ?_⟩ <;> rintro place ⟨c, listed, fails, -⟩ <;> refine passes c ?_ fails
    · exact List.mem_append_left _ listed
    · exact List.mem_append_right _ (List.mem_singleton.1 listed ▸ List.mem_cons_self)
    · exact List.mem_append_right _ (List.mem_cons_of_mem _ listed)
  · rintro ⟨ranges, tags, regions⟩ c listed fails
    rcases List.mem_append.1 listed with general | other
    · exact ranges c.offset ⟨c, general, fails, generalChecks_reason c general, rfl⟩
    · rcases List.mem_cons.1 other with rfl | region
      · exact tags tagsCheck.offset ⟨tagsCheck, List.mem_singleton_self _, fails, rfl, rfl⟩
      · exact regions c.offset ⟨c, region, fails, regionChecks_reason c region, rfl⟩

end

end Sys2Proof.Machine
end

section
/-! SUPPORT. What the checks of the tables and the banks report, and when a bank is valid (R41, R65, R67, R68, R84, R156, R185). -/
namespace Sys2Proof.Machine

section
variable {bs : List Byte} {page lo place : Nat} {why : Reason}

/-! ### The station table (R41) -/

theorem stationChecks_report {e : Nat} {g : Nat → Nat → Nat} (is : ∀ o n, g o n = pageField bs (e + o) n) :
    Reports (stationChecks e) bs .range place ↔ place = e ∧ ¬ (g 0 1 = 1 ∨ g 0 1 = 3) ∨ place = e + 1 ∧ ¬ g 1 1 ≤ 3 ∨
      place = e + 2 ∧ ¬ g 2 1 ≤ 7 ∨ place = e + 8 ∧ ¬ g 8 1 ≤ 1 ∨ place = e + 16 ∧ ¬ (1 ≤ g 16 1 ∧ g 16 1 ≤ 8) ∨
      place = e + 17 ∧ ¬ ((6 ≤ g 17 1 ∧ g 17 1 ≤ 15) ∧ g 16 1 + 3 ≤ g 17 1) ∨ place = e + 18 ∧ ¬ (24 ≤ g 18 2 ∧ g 18 2 ≤ 1024) ∨
      place = e + 20 ∧ ¬ (16 ≤ g 20 2 ∧ g 20 2 ≤ g 18 2) ∨ place = e + 22 ∧ ¬ 1 ≤ g 22 1 ∨ place = e + 26 ∧ ¬ (1 ≤ g 26 2 ∧ g 26 2 ≤ 600) := by
  simp only [is]
  have components (n : Nat) : (n == 1 || n == 3) = true ↔ n = 1 ∨ n = 3 := by simp
  have long (n m : Nat) : (!decide (6 ≤ n ∧ n ≤ 15) || decide (n < m + 3)) = true ↔ ¬ ((6 ≤ n ∧ n ≤ 15) ∧ m + 3 ≤ n) := by
    simp only [Bool.or_eq_true, Bool.not_eq_true', decide_eq_false_iff_not, decide_eq_true_iff]
    omega
  have off (n m : Nat) : (decide (n < 16) || decide (m < n)) = true ↔ ¬ (16 ≤ n ∧ n ≤ m) := by
    simp only [Bool.or_eq_true, decide_eq_true_iff]
    omega
  unfold stationChecks
  refine reports_cons.trans (or_congr (rangeCheck_reports (components _)) ?_)
  refine reports_cons.trans (or_congr (rangeCheck_reports decide_eq_true_iff) ?_)
  refine reports_cons.trans (or_congr (rangeCheck_reports decide_eq_true_iff) ?_)
  refine reports_cons.trans (or_congr (rangeCheck_reports (bitOk_iff _)) ?_)
  refine reports_cons.trans (or_congr (rangeCheck_reports decide_eq_true_iff) ?_)
  refine reports_cons.trans (or_congr (check_reports (long _ _)) ?_)
  refine reports_cons.trans (or_congr (rangeCheck_reports decide_eq_true_iff) ?_)
  refine reports_cons.trans (or_congr (check_reports (off _ _)) ?_)
  refine reports_cons.trans (or_congr (rangeCheck_reports decide_eq_true_iff) ?_)
  exact reports_one.trans (rangeCheck_reports decide_eq_true_iff)

/-! ### The zone table (R84) -/

theorem reports_map {n : Nat} {cs : Nat → Check} : Reports ((List.range n).map cs) bs why place ↔
    ∃ i, i < n ∧ (cs i).fails bs = true ∧ (cs i).reason = why ∧ (cs i).offset = place := by
  unfold Reports
  simp only [List.mem_map, List.mem_range]
  constructor
  · rintro ⟨_, ⟨i, small, rfl⟩, found⟩
    exact ⟨i, small, found⟩
  · rintro ⟨i, small, found⟩
    exact ⟨_, ⟨i, small, rfl⟩, found⟩

theorem zoneChecks_report {e : Nat} {g : Nat → Nat → Nat} (is : ∀ o n, g o n = pageField bs (e + o) n) :
    Reports (zoneChecks e) bs .range place ↔ g 0 1 ≠ 0 ∧ (place = e ∧ ¬ (2 ≤ g 0 1 ∧ g 0 1 ≤ 24) ∨
      place = e + 1 ∧ ¬ (2 ≤ g 1 1 ∧ g 1 1 ≤ g 0 1) ∨ place = e + 2 ∧ ¬ (1 ≤ g 2 2 ∧ g 2 2 ≤ 500) ∨
      ∃ j, j < 24 ∧ j < g 0 1 ∧ place = e + 4 + j ∧ (96 ≤ g (4 + j) 1 ∨ ∃ i, i < j ∧ g (4 + i) 1 = g (4 + j) 1)) := by
  simp only [is]
  have count (n : Nat) : (n == 0 || decide (2 ≤ n ∧ n ≤ 24)) = true ↔ n = 0 ∨ 2 ≤ n ∧ n ≤ 24 := by simp
  have least (n k : Nat) : (n != 0 && !decide (2 ≤ k ∧ k ≤ n)) = true ↔ n ≠ 0 ∧ ¬ (2 ≤ k ∧ k ≤ n) := by
    simp only [Bool.and_eq_true, bne_iff_ne, Bool.not_eq_true', decide_eq_false_iff_not]
  have window (n w : Nat) : (n != 0 && !decide (1 ≤ w ∧ w ≤ 500)) = true ↔ n ≠ 0 ∧ ¬ (1 ≤ w ∧ w ≤ 500) := by
    simp only [Bool.and_eq_true, bne_iff_ne, Bool.not_eq_true', decide_eq_false_iff_not]
  have member (j : Nat) : (memberCheck e j).fails bs = true ↔ j < pageField bs (e + 0) 1 ∧
      (96 ≤ pageField bs (e + (4 + j)) 1 ∨ ∃ i, i < j ∧ pageField bs (e + (4 + i)) 1 = pageField bs (e + (4 + j)) 1) := by
    unfold memberCheck
    simp only [Bool.and_eq_true, Bool.or_eq_true, decide_eq_true_iff, List.any_eq_true, List.mem_range, beq_iff_eq, Nat.add_assoc, Nat.add_zero]
  have heads : Reports (zoneChecks e) bs .range place ↔ place = e ∧ ¬ (pageField bs (e + 0) 1 = 0 ∨
      2 ≤ pageField bs (e + 0) 1 ∧ pageField bs (e + 0) 1 ≤ 24) ∨
      place = e + 1 ∧ (pageField bs (e + 0) 1 ≠ 0 ∧ ¬ (2 ≤ pageField bs (e + 1) 1 ∧ pageField bs (e + 1) 1 ≤ pageField bs (e + 0) 1)) ∨
      place = e + 2 ∧ (pageField bs (e + 0) 1 ≠ 0 ∧ ¬ (1 ≤ pageField bs (e + 2) 2 ∧ pageField bs (e + 2) 2 ≤ 500)) ∨
      Reports ((List.range 24).map (memberCheck e)) bs .range place := by
    unfold zoneChecks
    refine reports_cons.trans (or_congr (rangeCheck_reports (count _)) ?_)
    refine reports_cons.trans (or_congr (check_reports (least _ _)) ?_)
    exact reports_cons.trans (or_congr (check_reports (window _ _)) Iff.rfl)
  rw [heads, reports_map]
  simp only [member]
  constructor
  · rintro (⟨at_, no⟩ | ⟨at_, some_, no⟩ | ⟨at_, some_, no⟩ | ⟨j, small, ⟨used, fault⟩, -, at_⟩)
    · exact ⟨fun none_ => no (.inl none_), .inl ⟨at_, fun good => no (.inr good)⟩⟩
    · exact ⟨some_, .inr (.inl ⟨at_, no⟩)⟩
    · exact ⟨some_, .inr (.inr (.inl ⟨at_, no⟩))⟩
    · exact ⟨(Nat.zero_lt_of_lt used).ne', .inr (.inr (.inr ⟨j, small, used, at_.symm, fault⟩))⟩
  · rintro ⟨some_, ⟨at_, no⟩ | ⟨at_, no⟩ | ⟨at_, no⟩ | ⟨j, small, used, at_, fault⟩⟩
    · exact .inl ⟨at_, fun good => good.elim some_ no⟩
    · exact .inr (.inl ⟨at_, some_, no⟩)
    · exact .inr (.inr (.inl ⟨at_, some_, no⟩))
    · exact .inr (.inr (.inr ⟨j, small, ⟨used, fault⟩, rfl, at_.symm⟩))

/-! ### The reads (R156; log 16) -/

/-- The checks that are cut into the read at `lo`. -/
def checksAt (lo : Nat) : List Check :=
  if lo < 0xE00 then ((List.range 8).map fun i => stationChecks (lo + 32 * i)).flatten
  else if lo < 0x1000 then ((List.range 8).map fun i => zoneChecks (lo + 32 * i)).flatten
  else (List.range 48).map (bankCheck 0 0x1000) ++ (List.range 48).map (bankCheck 1 0x1180)

theorem checksIn_later (page : Nat) (later : 0x200 ≤ lo) :
    checksIn page lo = (checksAt lo).filter fun c => decide (lo ≤ c.last) && decide (c.last < lo + 256) := by
  unfold checksIn
  dsimp only
  rw [if_neg (Nat.not_lt.2 later)]
  rfl

/-- Checks of which every one lies in the read are not cut. -/
theorem checksIn_whole (page : Nat) (later : 0x200 ≤ lo) (inside : ∀ c ∈ checksAt lo, lo ≤ c.last ∧ c.last < lo + 256) :
    checksIn page lo = checksAt lo := by
  rw [checksIn_later page later]
  refine List.filter_eq_self.2 fun c listed => ?_
  obtain ⟨low, high⟩ := inside c listed
  simp [low, high]

theorem stationChecks_inside (e : Nat) (c : Check) (listed : c ∈ stationChecks e) : (e ≤ c.last ∧ c.last < e + 32) ∧ c.reason = .range := by
  revert c
  unfold stationChecks rangeCheck
  simp only [List.forall_mem_cons, List.not_mem_nil, false_implies, implies_true, and_true]
  omega

theorem zoneChecks_inside (e : Nat) (c : Check) (listed : c ∈ zoneChecks e) : (e ≤ c.last ∧ c.last < e + 32) ∧ c.reason = .range := by
  unfold zoneChecks at listed
  rcases List.mem_append.1 listed with head | member
  · clear listed
    revert c
    unfold rangeCheck
    simp only [List.forall_mem_cons, List.not_mem_nil, false_implies, implies_true, and_true]
    omega
  · obtain ⟨j, small, rfl⟩ := List.mem_map.1 member
    rw [List.mem_range] at small
    refine ⟨?_, rfl⟩
    unfold memberCheck
    dsimp only
    omega

theorem stationRead_reports (later : 0x200 ≤ lo) (table : lo < 0xE00) :
    Reports (checksIn page lo) bs why place ↔ ∃ i, i < 8 ∧ Reports (stationChecks (lo + 32 * i)) bs why place := by
  have all : checksAt lo = ((List.range 8).map fun i => stationChecks (lo + 32 * i)).flatten := if_pos table
  rw [checksIn_whole page later, all, reports_flatten]
  intro c listed
  rw [all, List.mem_flatten] at listed
  obtain ⟨_, entries, listed⟩ := listed
  obtain ⟨i, small, rfl⟩ := List.mem_map.1 entries
  obtain ⟨⟨low, high⟩, -⟩ := stationChecks_inside _ c listed
  rw [List.mem_range] at small
  omega

theorem zoneRead_reports (later : 0xE00 ≤ lo) (table : lo < 0x1000) :
    Reports (checksIn page lo) bs why place ↔ ∃ i, i < 8 ∧ Reports (zoneChecks (lo + 32 * i)) bs why place := by
  have all : checksAt lo = ((List.range 8).map fun i => zoneChecks (lo + 32 * i)).flatten :=
    (if_neg (Nat.not_lt.2 later)).trans (if_pos table)
  rw [checksIn_whole page (by omega), all, reports_flatten]
  intro c listed
  rw [all, List.mem_flatten] at listed
  obtain ⟨_, entries, listed⟩ := listed
  obtain ⟨i, small, rfl⟩ := List.mem_map.1 entries
  obtain ⟨⟨low, high⟩, -⟩ := zoneChecks_inside _ c listed
  rw [List.mem_range] at small
  omega

/-- The checks of the banks that the read at `lo` ends. -/
theorem bankRead_reports (later : 0x1000 ≤ lo) : Reports (checksIn page lo) bs why place ↔
    ∃ name off i, (name = 0 ∧ off = 0x1000 ∨ name = 1 ∧ off = 0x1180) ∧ i < 48 ∧ (lo ≤ off + 8 * i + 7 ∧ off + 8 * i + 7 < lo + 256) ∧
      (pageField bs 0x13A 1 = name ∧ entryBad (parseBank bs off) i = true) ∧ .bank = why ∧ off + 8 * i = place := by
  have all : checksAt lo = (List.range 48).map (bankCheck 0 0x1000) ++ (List.range 48).map (bankCheck 1 0x1180) :=
    (if_neg (Nat.not_lt.2 (by omega))).trans (if_neg (Nat.not_lt.2 later))
  rw [checksIn_later page (by omega), all]
  unfold Reports
  simp only [List.mem_filter, List.mem_append, List.mem_map, List.mem_range, Bool.and_eq_true, decide_eq_true_iff]
  constructor
  · rintro ⟨_, ⟨⟨i, small, rfl⟩ | ⟨i, small, rfl⟩, inside⟩, fails, reason, at_⟩
    · exact ⟨0, 0x1000, i, .inl ⟨rfl, rfl⟩, small, inside, by simpa [bankCheck] using fails, reason, at_⟩
    · exact ⟨1, 0x1180, i, .inr ⟨rfl, rfl⟩, small, inside, by simpa [bankCheck] using fails, reason, at_⟩
  · rintro ⟨_, _, i, ⟨rfl, rfl⟩ | ⟨rfl, rfl⟩, small, inside, fails, reason, at_⟩
    · exact ⟨bankCheck 0 0x1000 i, ⟨.inl ⟨i, small, rfl⟩, inside⟩, by simpa [bankCheck] using fails, reason, at_⟩
    · exact ⟨bankCheck 1 0x1180 i, ⟨.inr ⟨i, small, rfl⟩, inside⟩, by simpa [bankCheck] using fails, reason, at_⟩

/-- The reasons that a read can report. -/
theorem read_reason (reported : Reports (checksIn page lo) bs why place) (reads : lo = 0x100 ∨ 0x200 ≤ lo) :
    if lo = 0x100 then why = .range ∨ why = .tags ∨ why = .region else if lo < 0x1000 then why = .range else why = .bank := by
  by_cases general : lo = 0x100
  · rw [if_pos general]
    subst general
    rcases generalRead_reports (page := page) why |>.1 reported with h | h | h <;> obtain ⟨c, listed, -, reason, -⟩ := h
    · exact .inl (reason.symm.trans (generalChecks_reason c listed))
    · exact .inr (.inl (reason.symm.trans (tagsCheck_reason c listed)))
    · exact .inr (.inr (reason.symm.trans (regionChecks_reason c listed)))
  · have later := reads.resolve_left general
    rw [if_neg general]
    by_cases tables : lo < 0x1000
    · rw [if_pos tables]
      by_cases stations : lo < 0xE00
      · obtain ⟨i, -, c, listed, -, reason, -⟩ := (stationRead_reports later stations).1 reported
        exact reason.symm.trans (stationChecks_inside _ c listed).2
      · obtain ⟨i, -, c, listed, -, reason, -⟩ := (zoneRead_reports (Nat.not_lt.1 stations) tables).1 reported
        exact reason.symm.trans (zoneChecks_inside _ c listed).2
    · rw [if_neg tables]
      obtain ⟨_, _, _, -, -, -, -, reason, -⟩ := (bankRead_reports (Nat.not_lt.1 tables)).1 reported
      exact reason.symm

end

/-! ### The entries of a bank (R185) -/

theorem field_of_entry {bs : List Byte} {k o n : Nat} (inside : o + n ≤ 8) : field ((bs.drop k).take 8) o n = field bs (k + o) n := by
  unfold field
  rw [List.drop_take, List.take_take, List.drop_drop, Nat.min_eq_left (by omega)]

theorem parseBank_at {bs : List Byte} {off i : Nat} (first : 0x100 ≤ off) (e : BankEntry) : (parseBank bs off)[i]? = some e ↔
    i < 48 ∧ e = ⟨pageField bs (off + 8 * i) 2, pageField bs (off + 8 * i + 2) 1, pageField bs (off + 8 * i + 3) 1,
      pageField bs (off + 8 * i + 4) 1, pageField bs (off + 8 * i + 5) 1, BitVec.ofNat 8 (pageField bs (off + 8 * i + 6) 1)⟩ := by
  have entry : parseBankEntry ((bs.drop (off - 0x100 + 8 * i)).take 8) = ⟨pageField bs (off + 8 * i) 2, pageField bs (off + 8 * i + 2) 1,
      pageField bs (off + 8 * i + 3) 1, pageField bs (off + 8 * i + 4) 1, pageField bs (off + 8 * i + 5) 1,
      BitVec.ofNat 8 (pageField bs (off + 8 * i + 6) 1)⟩ := by
    have at_ (o : Nat) : off + 8 * i + o - 0x100 = off - 0x100 + 8 * i + o := by omega
    have at0 : off + 8 * i - 0x100 = off - 0x100 + 8 * i + 0 := by omega
    unfold parseBankEntry pageField
    simp only [at_, at0]
    rw [field_of_entry (by decide), field_of_entry (by decide), field_of_entry (by decide), field_of_entry (by decide),
      field_of_entry (by decide), field_of_entry (by decide)]
  unfold parseBank
  rw [List.getElem?_map]
  by_cases small : i < 48
  · rw [List.getElem?_range small, Option.map_some, entry, Option.some.injEq]
    exact ⟨fun same => ⟨small, same.symm⟩, fun both => both.2.symm⟩
  · rw [List.getElem?_eq_none (by rw [List.length_range]; omega)]
    exact iff_of_false (fun none_ => Option.some_ne_none e none_.symm) fun both => small both.1

end Sys2Proof.Machine
end

section
/-! THEOREM. The checks of a LOAD, and when a bank is valid (R41, R65, R67, R68, R84, R124, R156, R185). -/
namespace Sys2Proof.Machine

/-! ### A bank, entry by entry (R67, R68) -/

/-- Two entries share a matching cycle (R68, condition 4). -/
theorem BankEntry.sharesCycle_iff (e f : BankEntry) : e.sharesCycle f = true ↔ e.action = 5 ∨ f.action = 5 ∨
    e.rep ≤ f.rep ∧ f.first % e.rep = e.first ∨ f.rep < e.rep ∧ e.first % f.rep = f.first := by
  unfold BankEntry.sharesCycle
  by_cases watch : e.action = 5 ∨ f.action = 5
  · rw [if_pos watch]
    exact iff_of_true rfl (by tauto)
  · rw [if_neg watch]
    by_cases order : e.rep ≤ f.rep
    · rw [if_pos order, decide_eq_true_iff]
      constructor
      · exact fun same => .inr (.inr (.inl ⟨order, same⟩))
      · rintro (h | h | ⟨-, same⟩ | ⟨less, -⟩)
        · exact absurd (.inl h) watch
        · exact absurd (.inr h) watch
        · exact same
        · omega
    · rw [if_neg order, decide_eq_true_iff]
      constructor
      · exact fun same => .inr (.inr (.inr ⟨Nat.not_le.1 order, same⟩))
      · rintro (h | h | ⟨less, -⟩ | ⟨-, same⟩)
        · exact absurd (.inl h) watch
        · exact absurd (.inr h) watch
        · omega
        · exact same

theorem BankEntry.codeOk_iff (e : BankEntry) : e.codeOk = true ↔ e.rep ∈ [1, 2, 4, 8, 16, 32, 64] ∧ e.first < e.rep := by
  unfold BankEntry.codeOk
  rw [Bool.and_eq_true, List.contains_iff_mem, decide_eq_true_iff]

/-- Some entry before another has a property. -/
theorem any_take_iff {bank : List BankEntry} {i : Nat} {p : BankEntry → Bool} :
    (bank.take i).any p = true ↔ ∃ j x, j < i ∧ bank[j]? = some x ∧ p x = true := by
  rw [List.any_eq_true]
  constructor
  · rintro ⟨x, listed, holds⟩
    obtain ⟨j, at_⟩ := List.mem_iff_getElem?.1 listed
    have small : j < i := by
      have := (List.getElem?_eq_some_iff.1 at_).1
      rw [List.length_take] at this
      omega
    rw [List.getElem?_take_of_lt small] at at_
    exact ⟨j, x, small, at_, holds⟩
  · rintro ⟨j, x, small, at_, holds⟩
    exact ⟨x, List.mem_iff_getElem?.2 ⟨j, (List.getElem?_take_of_lt small).trans at_⟩, holds⟩

/-- The faults of a used entry, in the order of the statement. -/
theorem faults_regrouped {ended rest ends action code factor order shares last : Prop} (used : ¬ ended) :
    ((ends ∨ ((((action ∨ code) ∨ factor) ∨ order) ∨ shares)) ∨ last) ↔
      ended ∧ rest ∨ ¬ ended ∧ ((ends ∨ order ∨ shares) ∨ action ∨ code ∨ factor ∨ last) := by tauto

section
variable {bank : List BankEntry} {meet : BankEntry → BankEntry → Prop}
  (meetIs : ∀ e f, meet e f ↔ e.action = 5 ∨ f.action = 5 ∨ e.rep ≤ f.rep ∧ f.first % e.rep = e.first ∨
    f.rep < e.rep ∧ e.first % f.rep = f.first)
include meetIs

/-- Where a bank is found not valid (R68, R156). -/
theorem entryBad_iff {i : Nat} {e : BankEntry} (at_ : bank[i]? = some e) : entryBad bank i = true ↔
    e.action = 0 ∧ (∀ j x, j < i → bank[j]? = some x → x.action ≠ 0 ∧ x.action ≠ 5) ∨
    e.action ≠ 0 ∧ ((∃ j x, j < i ∧ bank[j]? = some x ∧ (x.action = 0 ∨ e.mark < x.mark ∨ x.mark = e.mark ∧ meet x e)) ∨ 5 < e.action ∨
      e.action ≠ 5 ∧ ¬ (e.rep ∈ [1, 2, 4, 8, 16, 32, 64] ∧ e.first < e.rep) ∨ e.action = 3 ∧ ¬ (e.factor = 2 ∨ e.factor = 4 ∨ e.factor = 8) ∨
      i = 47 ∧ ∀ j x, j ≤ 47 → bank[j]? = some x → x.action ≠ 5) := by
  unfold entryBad
  simp only [at_]
  by_cases ended : e.action = 0
  · rw [if_pos ended]
    simp only [Bool.and_eq_true, Bool.not_eq_true', ← Bool.not_eq_true, any_take_iff, beq_iff_eq]
    constructor
    · rintro ⟨noEnd, noWatch⟩
      exact .inl ⟨ended, fun j x small there => ⟨fun h => noEnd ⟨j, x, small, there, h⟩, fun h => noWatch ⟨j, x, small, there, h⟩⟩⟩
    · rintro (⟨-, none_⟩ | ⟨used, -⟩)
      · exact ⟨fun ⟨j, x, small, there, h⟩ => (none_ j x small there).1 h, fun ⟨j, x, small, there, h⟩ => (none_ j x small there).2 h⟩
      · exact absurd ended used
  · rw [if_neg ended]
    have last : (i == 47 && !((bank.take i ++ [e]).any fun b => b.action == actWatch)) = true ↔
        i = 47 ∧ ∀ j x, j ≤ 47 → bank[j]? = some x → x.action ≠ 5 := by
      rw [Bool.and_eq_true, beq_iff_eq, Bool.not_eq_true', ← Bool.not_eq_true, List.any_append, Bool.or_eq_true, any_take_iff]
      refine and_congr_right fun isLast => ?_
      subst isLast
      simp only [beq_iff_eq, List.any_cons, List.any_nil, Bool.or_false]
      constructor
      · intro noWatch j x small there watch
        rcases Nat.lt_or_eq_of_le small with less | rfl
        · exact noWatch (.inl ⟨j, x, less, there, watch⟩)
        · cases Option.some.inj (there.symm.trans at_)
          exact noWatch (.inr watch)
      · rintro noWatch (⟨j, x, less, there, watch⟩ | watch)
        · exact noWatch j x (Nat.le_of_lt less) there watch
        · exact noWatch 47 e (Nat.le_refl _) at_ watch
    have order : (bank.take i).any (fun b => decide (e.mark < b.mark)) = true ↔ ∃ j x, j < i ∧ bank[j]? = some x ∧ e.mark < x.mark := by
      simp only [any_take_iff, decide_eq_true_iff]
    have shares : (bank.take i).any (fun b => b.mark == e.mark && b.sharesCycle e) = true ↔
        ∃ j x, j < i ∧ bank[j]? = some x ∧ x.mark = e.mark ∧ meet x e := by
      simp only [any_take_iff, Bool.and_eq_true, beq_iff_eq, BankEntry.sharesCycle_iff, meetIs]
    have ends : (bank.take i).any (fun b => b.action == actEnd) = true ↔ ∃ j x, j < i ∧ bank[j]? = some x ∧ x.action = 0 := by
      simp only [any_take_iff, beq_iff_eq]
    have code : (e.action != actWatch && !e.codeOk) = true ↔
        e.action ≠ 5 ∧ ¬ (e.rep ∈ [1, 2, 4, 8, 16, 32, 64] ∧ e.first < e.rep) := by
      rw [Bool.and_eq_true, bne_iff_ne, Bool.not_eq_true', ← Bool.not_eq_true, BankEntry.codeOk_iff]
    have factor : (e.action == actDesensOn && !factorOk e.factor) = true ↔ e.action = 3 ∧ ¬ (e.factor = 2 ∨ e.factor = 4 ∨ e.factor = 8) := by
      unfold factorOk
      rw [Bool.and_eq_true, beq_iff_eq, Bool.not_eq_true', decide_eq_false_iff_not]
    unfold usedEntryBad
    simp only [Bool.or_eq_true, last, order, shares, ends, code, factor, decide_eq_true_iff]
    have before : (∃ j x, j < i ∧ bank[j]? = some x ∧ (x.action = 0 ∨ e.mark < x.mark ∨ x.mark = e.mark ∧ meet x e)) ↔
        (∃ j x, j < i ∧ bank[j]? = some x ∧ x.action = 0) ∨ (∃ j x, j < i ∧ bank[j]? = some x ∧ e.mark < x.mark) ∨
          ∃ j x, j < i ∧ bank[j]? = some x ∧ x.mark = e.mark ∧ meet x e := by
      simp only [and_or_left, exists_or]
    rw [before]
    exact faults_regrouped ended

end

theorem bankValid_iff (bank : List BankEntry) : bankValid bank = true ↔ ∀ i, i < 48 → entryBad bank i = false := by
  unfold bankValid firstBadEntry
  rw [Option.isNone_iff_eq_none, List.find?_eq_none]
  simp only [List.mem_range, Bool.not_eq_true]

end Sys2Proof.Machine
end

section
/-! THEOREM. When a bank is valid, and what a LOAD accepts (R68, R156). -/
namespace Sys2Proof.Machine

/-- The first END, or that there is none. -/
theorem firstEnd_or_none (bank : List BankEntry) :
    (∃ (i : Nat) (e : BankEntry), bank[i]? = some e ∧ e.action = 0 ∧ ∀ (j : Nat) (x : BankEntry), j < i → bank[j]? = some x → x.action ≠ 0) ∨
      ∀ (i : Nat) (e : BankEntry), bank[i]? = some e → e.action ≠ 0 := by
  by_cases ends : ∃ (i : Nat) (e : BankEntry), bank[i]? = some e ∧ e.action = 0
  · classical
    obtain ⟨e, at_, ended⟩ := Nat.find_spec ends
    exact .inl ⟨_, e, at_, ended, fun j x before there h => Nat.find_min ends before ⟨x, there, h⟩⟩
  · exact .inr fun i e at_ ended => ends ⟨i, e, at_, ended⟩

section
variable {bank : List BankEntry} {used : Nat → Prop} {share meet : BankEntry → BankEntry → Prop} (length : bank.length = 48)
  (usedIs : ∀ i, used i ↔ i < 48 ∧ ∀ j e, j ≤ i → bank[j]? = some e → e.action ≠ 0)
  (shareIs : ∀ e f, share e f ↔ e.action = 5 ∨ f.action = 5 ∨ e.rep ≤ f.rep ∧ f.first % e.rep = e.first ∨
    f.rep ≤ e.rep ∧ e.first % f.rep = f.first)
  (meetIs : ∀ e f, meet e f ↔ e.action = 5 ∨ f.action = 5 ∨ e.rep ≤ f.rep ∧ f.first % e.rep = e.first ∨
    f.rep < e.rep ∧ e.first % f.rep = f.first)
include length usedIs

omit length in
/-- An entry that is not bad is well-formed when it is used, and in order with those before it. -/
theorem used_of_good (good : ∀ i, i < 48 → entryBad bank i = false) {i : Nat} {e : BankEntry} (at_ : bank[i]? = some e) (isUsed : used i) :
    ¬ ((∃ j x, j < i ∧ bank[j]? = some x ∧ (x.action = 0 ∨ e.mark < x.mark ∨ x.mark = e.mark ∧
        (x.action = 5 ∨ e.action = 5 ∨ x.rep ≤ e.rep ∧ e.first % x.rep = x.first ∨ e.rep < x.rep ∧ x.first % e.rep = e.first))) ∨
      5 < e.action ∨ e.action ≠ 5 ∧ ¬ (e.rep ∈ [1, 2, 4, 8, 16, 32, 64] ∧ e.first < e.rep) ∨
      e.action = 3 ∧ ¬ (e.factor = 2 ∨ e.factor = 4 ∨ e.factor = 8) ∨ i = 47 ∧ ∀ j x, j ≤ 47 → bank[j]? = some x → x.action ≠ 5) := by
  obtain ⟨small, acts⟩ := (usedIs i).1 isUsed
  intro fault
  have bad := (entryBad_iff (fun e f => Iff.rfl) at_).2 (.inr ⟨acts i e (Nat.le_refl i) at_, fault⟩)
  exact Bool.false_ne_true ((good i small).symm.trans bad)

/-- A bank with no bad entry uses a WATCH. -/
theorem watch_of_good (good : ∀ i, i < 48 → entryBad bank i = false) : ∃ (i : Nat) (e : BankEntry), used i ∧ bank[i]? = some e ∧ e.action = 5 := by
  rcases firstEnd_or_none bank with ⟨k, e, at_, ended, first⟩ | none_
  · have small : k < 48 := length ▸ (List.getElem?_eq_some_iff.1 at_).1
    have stands := good k small
    rw [← Bool.not_eq_true, entryBad_iff (fun e f => Iff.rfl) at_, not_or] at stands
    by_contra noWatch
    refine stands.1 ⟨ended, fun j x before there => ⟨first j x before there, fun watch => noWatch ⟨j, x, (usedIs j).2 ⟨by omega, ?_⟩, there, watch⟩⟩⟩
    exact fun i y le there' => first i y (Nat.lt_of_le_of_lt le before) there'
  · have inside : 47 < bank.length := by omega
    have isUsed (i : Nat) (small : i < 48) : used i := (usedIs i).2 ⟨small, fun j e _ at_ => none_ j e at_⟩
    by_contra noWatch
    refine used_of_good usedIs good (List.getElem?_eq_getElem inside) (isUsed 47 (by decide)) (.inr (.inr (.inr (.inr ⟨rfl, ?_⟩))))
    exact fun j x small there watch => noWatch ⟨j, x, isUsed j (by omega), there, watch⟩

include shareIs

/-- A valid bank, by its six conditions (R68). -/
theorem bankValid_conditions : bankValid bank = true ↔
    (∀ (i : Nat) (e : BankEntry), used i → bank[i]? = some e → (e.action ≠ 5 → e.rep ∈ [1, 2, 4, 8, 16, 32, 64] ∧ e.first < e.rep) ∧
      e.action ≤ 5 ∧ (e.action = 3 → e.factor = 2 ∨ e.factor = 4 ∨ e.factor = 8)) ∧
    (∀ (i j : Nat) (e f : BankEntry), i < j → used j → bank[i]? = some e → bank[j]? = some f → e.mark ≤ f.mark ∧ (e.mark = f.mark → ¬ share e f)) ∧
    (∃ (i : Nat) (e : BankEntry), used i ∧ bank[i]? = some e ∧ e.action = 5) ∧
    ∀ (i j : Nat) (e f : BankEntry), i < j → bank[i]? = some e → bank[j]? = some f → e.action = 0 → f.action = 0 := by
  rw [bankValid_iff]
  constructor
  · intro good
    have formed (i : Nat) (e : BankEntry) (isUsed : used i) (at_ : bank[i]? = some e) :
        (e.action ≠ 5 → e.rep ∈ [1, 2, 4, 8, 16, 32, 64] ∧ e.first < e.rep) ∧ e.action ≤ 5 ∧
          (e.action = 3 → e.factor = 2 ∨ e.factor = 4 ∨ e.factor = 8) := by
      have none_ := used_of_good usedIs good at_ isUsed
      refine ⟨fun plain => ?_, ?_, fun desens => ?_⟩
      · by_contra wrong
        exact none_ (.inr (.inr (.inl ⟨plain, wrong⟩)))
      · by_contra unknown
        exact none_ (.inr (.inl (Nat.not_le.1 unknown)))
      · by_contra wrong
        exact none_ (.inr (.inr (.inr (.inl ⟨desens, wrong⟩))))
    refine ⟨formed, fun i j e f before isUsed atI atJ => ?_, watch_of_good length usedIs good, fun i j e f before atI atJ ended => ?_⟩
    · have none_ := used_of_good usedIs good atJ isUsed
      refine ⟨Nat.not_lt.1 fun disorder => none_ (.inl ⟨i, e, before, atI, .inr (.inl disorder)⟩), fun same shared => ?_⟩
      have usedI : used i := by
        obtain ⟨small, acts⟩ := (usedIs j).1 isUsed
        exact (usedIs i).2 ⟨by omega, fun k x le there => acts k x (by omega) there⟩
      have unmet (meets : e.action = 5 ∨ f.action = 5 ∨ e.rep ≤ f.rep ∧ f.first % e.rep = e.first ∨
          f.rep < e.rep ∧ e.first % f.rep = f.first) : False := none_ (.inl ⟨i, e, before, atI, .inr (.inr ⟨same, meets⟩)⟩)
      rcases (shareIs e f).1 shared with watch | watch | matches_ | ⟨less, matches_⟩
      · exact unmet (.inl watch)
      · exact unmet (.inr (.inl watch))
      · exact unmet (.inr (.inr (.inl matches_)))
      · rcases Nat.lt_or_eq_of_le less with strict | equal
        · exact unmet (.inr (.inr (.inr ⟨strict, matches_⟩)))
        · by_cases watch : e.action = 5
          · exact unmet (.inl watch)
          · have code := ((formed i e usedI atI).1 watch).2
            rw [equal, Nat.mod_eq_of_lt code] at matches_
            exact unmet (.inr (.inr (.inl ⟨equal.ge, by rw [← matches_, Nat.mod_eq_of_lt code]⟩)))
    · by_contra acts
      have small : j < 48 := length ▸ (List.getElem?_eq_some_iff.1 atJ).1
      have bad := (entryBad_iff (fun e f => Iff.rfl) atJ).2 (.inr ⟨acts, .inl ⟨i, e, before, atI, .inl ended⟩⟩)
      exact Bool.false_ne_true ((good j small).symm.trans bad)
  · rintro ⟨formed, ordered, ⟨w, x, usedW, atW, watch⟩, ends⟩ i small
    have at_ := List.getElem?_eq_getElem (l := bank) (i := i) (by omega)
    generalize bank[i]'(by omega) = e at at_
    obtain ⟨smallW, actsW⟩ := (usedIs w).1 usedW
    rw [← Bool.not_eq_true, entryBad_iff (fun e f => Iff.rfl) at_]
    rintro (⟨ended, none_⟩ | ⟨acts, fault⟩)
    · rcases Nat.lt_or_ge w i with before | behind
      · exact (none_ w x before atW).2 watch
      · exact actsW i e behind at_ ended
    · have isUsed : used i := (usedIs i).2 ⟨small, fun j y le there ended => by
        rcases Nat.lt_or_eq_of_le le with before | rfl
        · exact acts (ends j i y e before there at_ ended)
        · cases Option.some.inj (there.symm.trans at_)
          exact acts ended⟩
      obtain ⟨code, known, factor⟩ := formed i e isUsed at_
      rcases fault with ⟨j, y, before, there, ended | disorder | ⟨same, meets⟩⟩ | unknown | ⟨plain, wrong⟩ | ⟨desens, wrong⟩ | ⟨-, noWatch⟩
      · exact acts (ends j i y e before there at_ ended)
      · exact absurd (ordered j i y e before isUsed there at_).1 (Nat.not_le.2 disorder)
      · refine (ordered j i y e before isUsed there at_).2 same ((shareIs y e).2 ?_)
        exact meets.imp_right (Or.imp_right (Or.imp_right fun ⟨less, same⟩ => ⟨Nat.le_of_lt less, same⟩))
      · exact absurd known (Nat.not_le.2 unknown)
      · exact wrong (code plain)
      · exact wrong (factor desens)
      · exact noWatch w x (by omega) atW watch

end

/-! ### What the general setup must satisfy (R156) -/

theorem absent_cons {a : Nat} {P : Prop} {Q : Nat → Prop} : (∀ place, ¬ (place = a ∧ ¬ P ∨ Q place)) ↔ P ∧ ∀ place, ¬ Q place := by
  constructor
  · intro absent
    exact ⟨by_contra fun no => absent a (.inl ⟨rfl, no⟩), fun place found => absent place (.inr found)⟩
  · rintro ⟨holds, rest⟩ place (⟨-, no⟩ | found)
    · exact no holds
    · exact rest place found

theorem absent_one {a : Nat} {P : Prop} : (∀ place, ¬ (place = a ∧ ¬ P)) ↔ P :=
  ⟨fun absent => by_contra fun no => absent a ⟨rfl, no⟩, fun holds _ found => found.2 holds⟩

theorem absent_three {a b c : Nat} {X Y Z : Prop} :
    (∀ place, ¬ (place = a ∧ X ∨ place = b ∧ Y ∨ place = c ∧ Z)) ↔ ¬ X ∧ ¬ Y ∧ ¬ Z := by
  constructor
  · intro absent
    exact ⟨fun x => absent a (.inl ⟨rfl, x⟩), fun y => absent b (.inr (.inl ⟨rfl, y⟩)), fun z => absent c (.inr (.inr ⟨rfl, z⟩))⟩
  · rintro ⟨x, y, z⟩ place (⟨-, h⟩ | ⟨-, h⟩ | ⟨-, h⟩)
    · exact x h
    · exact y h
    · exact z h

/-- Settles O58: what each read reports by the lemmas of its checks, a bank's validity by `bankValid_conditions`. -/
theorem setupIsChecked : Obligations.SetupIsChecked := by
  unfold Obligations.SetupIsChecked
  refine ⟨fun page bs f apart bad ring clip report fIs apartIs badIs ringIs clipIs reportIs => ?reads,
    fun bank used share meet length usedIs shareIs meetIs => ⟨fun i e at_ => entryBad_iff meetIs at_, bankValid_iff bank,
      bankValid_conditions length usedIs shareIs⟩⟩
  have is : f = pageField bs := by
    funext o n
    exact fIs o n
  have extents : apart = ExtentsApart := by
    funext a m b n
    exact propext (apartIs a m b n)
  have reports (lo : Nat) (why : Reason) (place : Nat) : bad lo why place ↔ Reports (checksIn page lo) bs why place :=
    (badIs lo why place).trans reports_filter
  have ranges (place : Nat) := (reports 0x100 .range place).trans (generalRead_range.trans (generalChecks_report is))
  have tags (place : Nat) := (reports 0x100 .tags place).trans (generalRead_tags.trans (tagsCheck_report is))
  have regions (place : Nat) := (reports 0x100 .region place).trans
    (generalRead_region.trans (regionChecks_report (page := page) is ringIs clipIs reportIs))
  have entry (e : Nat) (o n : Nat) : f (e + o) n = pageField bs (e + o) n := by rw [is]
  rw [← extents] at regions
  refine ⟨?passes, ranges, tags, regions, fun lo why place reported reads => read_reason ((reports lo why place).1 reported) reads,
    fun lo place low high cut => ?stations, fun lo place low high cut => ?zones, fun lo place later => ?banks, fun off i e first => ?entries⟩
  case passes =>
    have tagsPass : (∀ place, ¬ Reports [tagsCheck] bs .tags place) ↔ BitVec.ofNat 16 (f 0x106 2) ≠ 0 ∧ BitVec.ofNat 16 (f 0x108 2) ≠ 0 ∧
        BitVec.ofNat 16 (f 0x106 2) &&& BitVec.ofNat 16 (f 0x108 2) = 0 := by
      simp only [tagsCheck_report is, not_and, not_or, forall_eq, ne_eq, not_not]
    have regionsPass (r : ring) (c : clip) (p : report) := (forall_congr' fun place =>
      not_congr (regionChecks_report (page := page) (place := place) is ringIs clipIs reportIs)).trans absent_three
    rw [generalRead_passes, tagsPass]
    simp only [generalChecks_report is, absent_cons, absent_one]
    constructor
    · rintro ⟨⟨p100, p104, p10A, p10C, p110, p114, p118, p11C, p11E, p11F, p120, p121, p124, p126, p128, p12A, p12C, p12E, p130, p131, p132, p138,
        p13A⟩, tagsOk, regionsOk⟩
      have r := ringIs.2 ⟨p100, p104⟩
      have c := clipIs.2 ⟨p110, p114⟩
      have p := reportIs.2 ⟨p118, p11C⟩
      have none_ := (regionsPass r c p).1 regionsOk
      simp only [r, c, p, true_and, not_or, not_not, Nat.not_lt, ← extents] at none_
      obtain ⟨⟨ringEnd, ringPage⟩, ⟨clipEnd, ringClip, clipPage⟩, reportEnd, ringReport, clipReport, reportPage⟩ := none_
      exact ⟨⟨r, c, p⟩, tagsOk, ⟨p10A, p10C, p11E, p11F, p120, p121, p124, p126, p128, p12A, p12C, p12E, p130, p131, p132, p138, p13A⟩,
        ringEnd, clipEnd, reportEnd, ringPage, ringClip, clipPage, ringReport, clipReport, reportPage⟩
    · rintro ⟨⟨r, c, p⟩, tagsOk, ⟨p10A, p10C, p11E, p11F, p120, p121, p124, p126, p128, p12A, p12C, p12E, p130, p131, p132, p138, p13A⟩,
        ringEnd, clipEnd, reportEnd, ringPage, ringClip, clipPage, ringReport, clipReport, reportPage⟩
      obtain ⟨p100, p104⟩ := ringIs.1 r
      obtain ⟨p110, p114⟩ := clipIs.1 c
      obtain ⟨p118, p11C⟩ := reportIs.1 p
      refine ⟨⟨p100, p104, p10A, p10C, p110, p114, p118, p11C, p11E, p11F, p120, p121, p124, p126, p128, p12A, p12C, p12E, p130, p131, p132,
        p138, p13A⟩, tagsOk, (regionsPass r c p).2 ?_⟩
      simp only [r, c, p, true_and, not_or, not_not, Nat.not_lt, ← extents]
      exact ⟨⟨ringEnd, ringPage⟩, ⟨clipEnd, ringClip, clipPage⟩, reportEnd, ringReport, clipReport, reportPage⟩
  case stations =>
    rw [reports, stationRead_reports low high]
    constructor
    · rintro ⟨i, small, found⟩
      exact ⟨i, _, fun o n => f (lo + 32 * i + o) n, small, rfl, fun _ _ => rfl, (stationChecks_report (entry _)).1 found⟩
    · rintro ⟨i, _, g, small, rfl, gIs, found⟩
      exact ⟨i, small, (stationChecks_report fun o n => (gIs o n).trans (entry _ o n)).2 found⟩
  case zones =>
    rw [reports, zoneRead_reports low high]
    constructor
    · rintro ⟨i, small, found⟩
      exact ⟨i, _, fun o n => f (lo + 32 * i + o) n, small, rfl, fun _ _ => rfl, (zoneChecks_report (entry _)).1 found⟩
    · rintro ⟨i, _, g, small, rfl, gIs, found⟩
      exact ⟨i, small, (zoneChecks_report fun o n => (gIs o n).trans (entry _ o n)).2 found⟩
  case banks =>
    rw [reports, bankRead_reports later, is]
    constructor
    · rintro ⟨_, off, i, ⟨rfl, rfl⟩ | ⟨rfl, rfl⟩, small, ⟨low, high⟩, ⟨named, bad_⟩, -, rfl⟩
      · exact ⟨_, i, _, small, .inl ⟨rfl, named⟩, rfl, rfl, low, high, bad_⟩
      · exact ⟨_, i, _, small, .inr ⟨rfl, named⟩, rfl, rfl, low, high, bad_⟩
    · rintro ⟨off, i, _, small, ⟨rfl, named⟩ | ⟨rfl, named⟩, rfl, rfl, low, high, bad_⟩
      · exact ⟨0, _, i, .inl ⟨rfl, rfl⟩, small, ⟨low, high⟩, ⟨named, bad_⟩, rfl, rfl⟩
      · exact ⟨1, _, i, .inr ⟨rfl, rfl⟩, small, ⟨low, high⟩, ⟨named, bad_⟩, rfl, rfl⟩
  case entries =>
    rw [is]
    exact parseBank_at first e

end Sys2Proof.Machine
end

section
/-! THEOREM. STOP and the drain that it begins (R58, R64, R89, R100, R110, R160). -/
namespace Sys2Proof.Machine

/-! ### What is taken ahead of the closes (R58, R89; logs 8, 46) -/

theorem State.takeMessages_frame (ms : List AssocMsg) (s : State) :
    Frame [.assoc, .notices, .writer, .tallies] s (ms.foldl (fun t m => t.takeMessage m) s) :=
  Frame.foldl (fun _ _ => State.takeMessage_frame _ (Frame.refl _ _) (by decide)) _ (Frame.refl _ s)

theorem State.takeSentBefore_wires (s : State) :
    s.takeSentBefore.wires = { s.wires with toAssoc := (splitAtPicks s.wires.toAssoc).2 } :=
  State.takeMessages_frame _ _ .wires (by decide)

theorem State.takeSentBefore_none {s : State} (nothing_ : s.wires.toAssoc = []) : s.takeSentBefore = s := by
  unfold State.takeSentBefore
  rw [nothing_]
  show ({ s with wires := { s.wires with toAssoc := [] } } : State) = s
  rw [← nothing_]

theorem State.closuresFirst_wires (n : Nat) (s : State) : (s.closuresFirst n).wires =
    { s.wires with toAssoc := s.wires.toAssoc.filter fun m => !Config.stopClosureFirst n m.station } := by
  have kept : ((s.wires.toAssoc.filter fun m => Config.stopClosureFirst n m.station).foldl (fun t m => t.takeMessage m) s).wires = s.wires :=
    State.takeMessages_frame _ s .wires (by decide)
  show ({ State.wires _ with toAssoc := _ } : Wires) = _
  rw [kept]

/-! ### The part as it enters the drain (R9, R64, R160) -/

/-- STOP accepted, before any event is closed. -/
def State.stopping (tag : Byte) (s : State) : State :=
  let s1 := ((s.takeSentBefore.setControl fun c => { c with inProgress := some (.stop, tag) }).setPart .draining).tellSchedule .draining
  { s1.intakeStop.engineStop.setWires fun w => { w with clipStop := true } with draws := s.draws + 1 }

theorem State.acceptStop_eq (tag : Byte) (s : State) :
    s.acceptStop tag = (((s.stopping tag).closuresFirst s.draws).stopEvents s.draws).settleDrain := rfl

/-- What STOP sets before any event is closed, in LISTENING. -/
theorem State.stopping_sets {tag : Byte} {s : State} (listening : s.control.part = .listening) :
    (s.stopping tag).control = { s.control with part := .draining, inProgress := some (.stop, tag) } ∧
    (s.stopping tag).engine = s.engine.map Detector.stop ∧ (s.stopping tag).intake = s.intakeStop.intake ∧
    (s.stopping tag).assoc = s.takeSentBefore.assoc ∧ (s.stopping tag).clip = s.clip ∧ (s.stopping tag).report = s.report ∧
    (s.stopping tag).attend = s.attend ∧ (s.stopping tag).time = s.time ∧ (s.stopping tag).wires.clipStop = true ∧
    (s.stopping tag).wires.toAssoc = (splitAtPicks s.wires.toAssoc).2 ++ stopClosures s.engine := by
  have before : Frame [.assoc, .notices, .writer, .tallies, .wires] s s.takeSentBefore :=
    State.takeSentBefore_frame (Frame.refl _ s) (by decide)
  have control : s.takeSentBefore.control = s.control := before .control (by decide)
  have engine : s.takeSentBefore.engine = s.engine := before .engine (by decide)
  have intake : s.takeSentBefore.intake = s.intake := before .intake (by decide)
  have clip : s.takeSentBefore.clip = s.clip := before .clip (by decide)
  have report : s.takeSentBefore.report = s.report := before .report (by decide)
  have attend : s.takeSentBefore.attend = s.attend := before .attend (by decide)
  have time : s.takeSentBefore.time = s.time := before .time (by decide)
  have wires := s.takeSentBefore_wires
  have drains : PartState.draining ≠ (s.takeSentBefore.setControl fun c => { c with inProgress := some (.stop, tag) }).control.part := by
    show PartState.draining ≠ s.takeSentBefore.control.part
    rw [control, listening]
    exact fun no => PartState.noConfusion no
  unfold State.stopping State.setPart
  rw [if_neg drains]
  generalize s.takeSentBefore = x at *
  refine ⟨?_, ?_, ?_, rfl, clip, report, attend, time, rfl, ?_⟩
  · show ({ x.control with inProgress := some (.stop, tag), part := .draining } : Control) = _
    rw [control]
  · show x.engine.map Detector.stop = _
    rw [engine]
  · show x.intakeStop.intake = s.intakeStop.intake
    unfold State.intakeStop
    rw [State.setBufs_intake, State.setBufs_intake, intake]
  · show x.wires.toAssoc ++ stopClosures x.engine = _
    rw [wires, engine]

/-! ### The picks of the events that STOP closes (R58, R89) -/

section
variable {n : Nat} {ds : List Detector} {c : PickCopy}

theorem mem_closuresFirst {m : AssocMsg} : m ∈ (stopClosures ds).filter (fun m => Config.stopClosureFirst n m.station) ↔
    ∃ (st : Nat) (d : Detector) (p : OpenPick), ds[st]? = some d ∧ d.state = .triggered ∧ d.openPick = some p ∧
      m = .closure st p.onset ⟨true, d.nextTime.getD p.onset, p.peak⟩ ∧ Config.stopClosureFirst n st = true := by
  rw [List.mem_filter, mem_stopClosures]
  constructor
  · rintro ⟨⟨st, d, p, at_, triggered, openPick, rfl⟩, first⟩
    exact ⟨st, d, p, at_, triggered, openPick, rfl, first⟩
  · rintro ⟨st, d, p, at_, triggered, openPick, rfl, first⟩
    exact ⟨⟨st, d, p, at_, triggered, openPick, rfl⟩, first⟩

/-- A pick whose closure is taken ahead of the closes is closed CUT at its detector's next sample time. -/
theorem fillAll_stopped {d : Detector} {p : OpenPick} {last : Nat} (at_ : ds[c.pick.station]? = some d) (triggered : d.state = .triggered)
    (openPick : d.openPick = some p) (next : d.nextTime = some last) (onset : p.onset = c.pick.onset) (open_ : c.closure = none)
    (first : Config.stopClosureFirst n c.pick.station = true) :
    c.fillAll ((stopClosures ds).filter fun m => Config.stopClosureFirst n m.station) = { c with closure := some ⟨true, last, p.peak⟩ } := by
  refine PickCopy.fillAll_one (mem_closuresFirst.2 ⟨_, d, p, at_, triggered, openPick, ?_, first⟩) (fun k listed => ?_) open_
  · rw [onset, next]
    rfl
  · obtain ⟨st, d', p', at', _, openPick', same, _⟩ := mem_closuresFirst.1 listed
    obtain ⟨station, -, closure⟩ := AssocMsg.closure.inj same
    rw [← station] at at'
    rw [closure]
    cases Option.some.inj (at'.symm.trans at_)
    cases Option.some.inj (openPick'.symm.trans openPick)
    rw [next]
    rfl

/-- A pick that no closure taken ahead of the closes names stands. -/
theorem fillAll_unnamed (stands : c.closure ≠ none ∨ Config.stopClosureFirst n c.pick.station = false ∨
      ∀ (d : Detector) (p : OpenPick), ds[c.pick.station]? = some d → d.state = .triggered → d.openPick = some p → p.onset ≠ c.pick.onset) :
    c.fillAll ((stopClosures ds).filter fun m => Config.stopClosureFirst n m.station) = c := by
  refine PickCopy.fillAll_other fun st onset k listed => ?_
  obtain ⟨st', d, p, at_, triggered, openPick, same, first⟩ := mem_closuresFirst.1 listed
  cases same
  rw [← Bool.not_eq_true]
  unfold PickCopy.named
  simp only [Bool.and_eq_true, beq_iff_eq, Option.isNone_iff_eq_none]
  rintro ⟨⟨station, onset⟩, open_⟩
  rcases stands with closed | late | other
  · exact closed open_
  · rw [station, first] at late
    cases late
  · exact other d p (station.symm ▸ at_) triggered openPick onset.symm

end

/-! ### The end of STOP (R160) -/

theorem State.endDrain_leaves (s : State) : s.endDrain.assoc = s.assoc ∧ s.endDrain.engine = s.engine ∧ s.endDrain.intake = s.intake ∧
    s.endDrain.clip.plans = s.clip.plans ∧ s.endDrain.wires.toAssoc = s.wires.toAssoc := by
  refine ⟨?_, ?_, ?_, ?_, ?_⟩ <;> simp [State.endDrain, State.endCommand]

theorem State.settleDrain_leaves (s : State) : s.settleDrain.assoc = s.assoc ∧ s.settleDrain.engine = s.engine ∧
    s.settleDrain.intake = s.intake ∧ s.settleDrain.clip.plans = s.clip.plans ∧ s.settleDrain.wires.toAssoc = s.wires.toAssoc := by
  unfold State.settleDrain
  split
  · exact s.endDrain_leaves
  · exact ⟨rfl, rfl, rfl, rfl, rfl⟩

/-- Settles O18: the closes by `State.stopEvents_closes`, what is taken ahead of them by `State.closuresFirst_grows`. -/
theorem stopDrains : Obligations.StopDrains := by
  unfold Obligations.StopDrains
  intro tag s listening idle
  have accepted : (s.control.part == .listening) = true := by
    rw [listening]
    rfl
  have act : s.takeStop tag = s.acceptStop tag := State.command_accepted (State.not_busy idle false) accepted
  have frame := State.acceptStop_frame tag (Frame.refl [.control, .intake, .engine, .assoc, .clip, .guard, .report, .notices, .writer, .tallies,
    .attend, .wires, .draws] s) (by decide)
  rw [State.acceptStop_eq] at act frame
  obtain ⟨yControl, yEngine, yIntake, yAssoc, yClip, yReport, yAttend, yTime, yStop, ySent⟩ := State.stopping_sets (tag := tag) listening
  generalize s.stopping tag = y at act frame yControl yEngine yIntake yAssoc yClip yReport yAttend yTime yStop ySent
  have ahead : Frame [.assoc, .notices, .writer, .tallies, .wires] y (y.closuresFirst s.draws) :=
    State.closuresFirst_frame _ (Frame.refl _ y) (by decide)
  have grows (i : Nat) : Grows i s (y.closuresFirst s.draws) :=
    (State.takeSentBefore_grows s).trans (Grows.trans (Grows.same (congrArg Assoc.events yAssoc)) (State.closuresFirst_grows _ y))
  have zWires := y.closuresFirst_wires s.draws
  have zEvents : (y.closuresFirst s.draws).assoc.events =
      ((y.wires.toAssoc.filter fun m => Config.stopClosureFirst s.draws m.station).foldl (fun t m => t.takeMessage m) y).assoc.events := rfl
  generalize y.closuresFirst s.draws = z at act frame ahead grows zWires zEvents
  have zControl : z.control = y.control := ahead .control (by decide)
  have zClip : z.clip = s.clip := Eq.trans (ahead .clip (by decide)) yClip
  have zReport : z.report = s.report := Eq.trans (ahead .report (by decide)) yReport
  have zNow : z.now = s.now := congrArg TimeBase.count (Eq.trans (ahead .time (by decide)) yTime)
  obtain ⟨-, wSent, -, closes, tails⟩ := State.stopEvents_closes s.draws z
  have none_ := State.stopEvents_none s.draws z
  have closing : Frame [.assoc, .clip, .guard, .report, .notices, .writer, .tallies, .wires] z (z.stopEvents s.draws) :=
    State.stopEvents_frame _ (Frame.refl _ z) (by decide)
  generalize z.stopEvents s.draws = w at act frame wSent closes tails none_ closing
  have wControl : w.control = { s.control with part := .draining, inProgress := some (.stop, tag) } :=
    Eq.trans (closing .control (by decide)) (zControl.trans yControl)
  have wEngine : w.engine = s.engine.map Detector.stop :=
    Eq.trans (closing .engine (by decide)) (Eq.trans (ahead .engine (by decide)) yEngine)
  have wIntake : w.intake = s.intakeStop.intake :=
    Eq.trans (closing .intake (by decide)) (Eq.trans (ahead .intake (by decide)) yIntake)
  have wAttend : w.attend = s.attend :=
    Eq.trans (closing .attend (by decide)) (Eq.trans (ahead .attend (by decide)) yAttend)
  obtain ⟨vAssoc, vEngine, vIntake, vPlans, vSent⟩ := w.settleDrain_leaves
  have tAssoc : w.settleDrain.settle.assoc = w.assoc := vAssoc
  have tPlans : w.settleDrain.settle.clip.plans = w.clip.plans := vPlans
  refine ⟨w.settleDrain.settle, congrArg done act, fun left => ?drains, fun past => ?stops, vEngine.trans wEngine, vIntake.trans wIntake, ?closed,
    fun i e at_ fresh => ⟨fun past => ?stands, fun gathering => ?closes⟩, fun st d p last at_ triggered openPick next late => ?sent,
    State.settle_frame frame (by decide)⟩
  case drains =>
    obtain ⟨e, listed, copied, reported⟩ := left
    rw [tAssoc] at listed
    have goes : ¬ w.drainCount = 0 := fun over_ => (State.drainCount_eq_zero_iff.1 over_ e listed).elim copied reported
    have same : w.settleDrain = w := if_neg goes
    rw [same]
    refine ⟨wControl, wAttend, tails.imp (fun ⟨stop, draining⟩ => ⟨?_, ?_⟩) fun ⟨draining, given⟩ => ⟨draining, fun i e p event plan => ?_⟩⟩
    · exact stop.trans ((congrArg Wires.clipStop zWires).trans yStop)
    · exact draining.trans (congrArg Clip.draining zClip)
    · exact (given i).elim (fun plans => plans p plan) fun empty => absurd event (empty e)
  case stops =>
    rw [tAssoc] at past
    have same : w.settleDrain = w.endDrain := if_pos (State.drainCount_eq_zero_iff.2 past)
    have tag_ : w.control.inProgressTag = tag := by
      unfold Control.inProgressTag
      rw [wControl]
    rw [same]
    refine ⟨?_, State.hasResult_settle (.inl ?_), ?_, rfl, rfl⟩
    · simp [State.endDrain, State.endCommand, wControl]
    · simp [State.endDrain, tag_]
    · simp [State.endDrain, State.endCommand, wAttend]
  case closed =>
    rw [tAssoc]
    exact none_
  case stands =>
    obtain ⟨e₁, at₁, stands₁, is₁⟩ := grows i e at_
    cases stands₁ past
    obtain ⟨e', at', is'⟩ := (closes i e at₁ (zReport ▸ fresh)).1 past
    exact ⟨e', tAssoc ▸ at', is'⟩
  case closes =>
    obtain ⟨e₁, at₁, -, is₁⟩ := grows i e at_
    have number : e₁.number = e.number := by rw [is₁]
    have state : e₁.state = .gathering := by rw [is₁, gathering]
    obtain ⟨e', at', state', is', plan⟩ := (closes i e₁ at₁ (by rw [zReport, number]; exact fresh)).2 state
    rw [zClip, number] at plan
    rw [zNow] at is'
    refine ⟨e', tAssoc ▸ at', state', ?_, fun small => ?_, fun nothing_ => ?_⟩
    · rw [is', is₁]
      rfl
    · rw [tPlans]
      exact plan small
    · have yEvents : y.assoc.events = s.assoc.events := by rw [yAssoc, State.takeSentBefore_none nothing_]
      have sent : y.wires.toAssoc = stopClosures s.engine := by
        rw [ySent, nothing_]
        rfl
      rw [sent] at zEvents
      have closures : ∀ m ∈ (stopClosures s.engine).filter (fun m => Config.stopClosureFirst s.draws m.station),
          ∃ st onset k, m = .closure st onset k := by
        intro m listed
        obtain ⟨st, d, p, -, -, -, is, -⟩ := mem_closuresFirst.1 listed
        exact ⟨_, _, _, is⟩
      obtain ⟨e₂, at₂, picks, anchor, last⟩ := State.takeClosures_picks _ closures y (yEvents ▸ at_) gathering
      rw [← zEvents, at₁] at at₂
      cases at₂
      have picks' : e'.picks = e.picks.map (PickCopy.fillAll
          ((stopClosures s.engine).filter fun m => Config.stopClosureFirst s.draws m.station)) := by rw [is', picks]
      refine ⟨by rw [is', anchor], by rw [is', last], by rw [picks', List.length_map], fun j c there => ⟨?_, fun stands => ?_⟩⟩
      · intro d p last' at_' triggered openPick next onset open_ first
        rw [picks', List.getElem?_map, there, Option.map_some, fillAll_stopped at_' triggered openPick next onset open_ first]
      · rw [picks', List.getElem?_map, there, Option.map_some, fillAll_unnamed stands]
  case sent =>
    show _ ∈ w.settleDrain.wires.toAssoc
    rw [vSent, wSent, zWires, ySent]
    refine List.mem_filter.2 ⟨List.mem_append_right _ (mem_stopClosures.2 ⟨st, d, p, at_, triggered, openPick, ?_⟩), ?_⟩
    · rw [next]
      rfl
    · show (!Config.stopClosureFirst s.draws st) = true
      rw [late]
      rfl

end Sys2Proof.Machine
end
